-- ==== Sys2Proof/Word.lean ====
section
/-! DEFINITION. The machine's words (R2, R59): bytes, 32-bit registers, 64-bit pairs and register numbers. -/

namespace Sys2Proof

/-- A byte of memory. -/
abbrev Byte := BitVec 8
/-- A 32-bit register value in one lane (R26). -/
abbrev Word := BitVec 32
/-- A 64-bit value: a register pair, an address or a wide system register. -/
abbrev DWord := BitVec 64
/-- The number of a register, v0 to v127 (R26). -/
abbrev Reg := BitVec 7

end Sys2Proof
end

