-- ==== Sys2Proof/Syntax.lean ====
section
/-! DEFINITION. The instructions of the AVJ-4820: one constructor of `Instr` per row of
spec/opcode_table.json. Rows with an encoding carry their operand fields and their modifier word; rows that
are events of the machine carry what the event names. -/

namespace Sys2Proof

/-- An address space (R80): group scratch S, gang scratch N, far memory G; code 3 is reserved (R154). -/
inductive Space where
  | s | n | g
  deriving DecidableEq, Repr

/-- The code of a `Space` in its field. -/
def Space.code : Space → BitVec 2
  | .s => 0#2
  | .n => 1#2
  | .g => 2#2

/-- The `Space` of a field value, where the value is assigned. -/
def Space.ofCode (c : BitVec 2) : Option Space :=
  match c.toNat with
  | 0 => some .s
  | 1 => some .n
  | 2 => some .g
  | _ => none

/-- An ordering scope (R136); code 7 is reserved. -/
inductive Scope where
  | lane | warp | group | gang | die | device | system
  deriving DecidableEq, Repr

/-- The code of a `Scope` in its field. -/
def Scope.code : Scope → BitVec 3
  | .lane => 0#3
  | .warp => 1#3
  | .group => 2#3
  | .gang => 3#3
  | .die => 4#3
  | .device => 5#3
  | .system => 6#3

/-- The `Scope` of a field value, where the value is assigned. -/
def Scope.ofCode (c : BitVec 3) : Option Scope :=
  match c.toNat with
  | 0 => some .lane
  | 1 => some .warp
  | 2 => some .group
  | 3 => some .gang
  | 4 => some .die
  | 5 => some .device
  | 6 => some .system
  | _ => none

/-- A rounding mode (R64). -/
inductive Rnd where
  | nearest | zero | down | up
  deriving DecidableEq, Repr

/-- The code of a `Rnd` in its field. -/
def Rnd.code : Rnd → BitVec 2
  | .nearest => 0#2
  | .zero => 1#2
  | .down => 2#2
  | .up => 3#2

/-- The `Rnd` of a field value, where the value is assigned. -/
def Rnd.ofCode (c : BitVec 2) : Option Rnd :=
  match c.toNat with
  | 0 => some .nearest
  | 1 => some .zero
  | 2 => some .down
  | _ => some .up

/-- A condition of ICMP (R191). -/
inductive IcmpCond where
  | eq | ne | ltS | leS | ltU | leU | eq64 | lt64U
  deriving DecidableEq, Repr

/-- The code of a `IcmpCond` in its field. -/
def IcmpCond.code : IcmpCond → BitVec 3
  | .eq => 0#3
  | .ne => 1#3
  | .ltS => 2#3
  | .leS => 3#3
  | .ltU => 4#3
  | .leU => 5#3
  | .eq64 => 6#3
  | .lt64U => 7#3

/-- The `IcmpCond` of a field value, where the value is assigned. -/
def IcmpCond.ofCode (c : BitVec 3) : Option IcmpCond :=
  match c.toNat with
  | 0 => some .eq
  | 1 => some .ne
  | 2 => some .ltS
  | 3 => some .leS
  | 4 => some .ltU
  | 5 => some .leU
  | 6 => some .eq64
  | _ => some .lt64U

/-- A condition of CMPI (R195). -/
inductive CmpiCond where
  | eq | ne | ltS | leS | ltU | leU
  deriving DecidableEq, Repr

/-- The code of a `CmpiCond` in its field. -/
def CmpiCond.code : CmpiCond → BitVec 3
  | .eq => 0#3
  | .ne => 1#3
  | .ltS => 2#3
  | .leS => 3#3
  | .ltU => 4#3
  | .leU => 5#3

/-- The `CmpiCond` of a field value, where the value is assigned. -/
def CmpiCond.ofCode (c : BitVec 3) : Option CmpiCond :=
  match c.toNat with
  | 0 => some .eq
  | 1 => some .ne
  | 2 => some .ltS
  | 3 => some .leS
  | 4 => some .ltU
  | 5 => some .leU
  | _ => none

/-- The type of a data-typed integer instruction (R161, R192). -/
inductive DigTy where
  | i32 | i16x2 | i8x4 | i4x8 | u8x4
  deriving DecidableEq, Repr

/-- The code of a `DigTy` in its field. -/
def DigTy.code : DigTy → BitVec 3
  | .i32 => 0#3
  | .i16x2 => 1#3
  | .i8x4 => 2#3
  | .i4x8 => 3#3
  | .u8x4 => 4#3

/-- The `DigTy` of a field value, where the value is assigned. -/
def DigTy.ofCode (c : BitVec 3) : Option DigTy :=
  match c.toNat with
  | 0 => some .i32
  | 1 => some .i16x2
  | 2 => some .i8x4
  | 3 => some .i4x8
  | 4 => some .u8x4
  | _ => none

/-- The type of a floating-point instruction (R161). -/
inductive FTy where
  | f32 | f16 | bf16
  deriving DecidableEq, Repr

/-- The code of a `FTy` in its field. -/
def FTy.code : FTy → BitVec 2
  | .f32 => 0#2
  | .f16 => 1#2
  | .bf16 => 2#2

/-- The `FTy` of a field value, where the value is assigned. -/
def FTy.ofCode (c : BitVec 2) : Option FTy :=
  match c.toNat with
  | 0 => some .f32
  | 1 => some .f16
  | 2 => some .bf16
  | _ => none

/-- A codebook format as CBENC and CBDEC number it (R208). -/
inductive CbFmt where
  | cb4 | cb3 | cb2
  deriving DecidableEq, Repr

/-- The code of a `CbFmt` in its field. -/
def CbFmt.code : CbFmt → BitVec 2
  | .cb4 => 0#2
  | .cb3 => 1#2
  | .cb2 => 2#2

/-- The `CbFmt` of a field value, where the value is assigned. -/
def CbFmt.ofCode (c : BitVec 2) : Option CbFmt :=
  match c.toNat with
  | 0 => some .cb4
  | 1 => some .cb3
  | 2 => some .cb2
  | _ => none

/-- A condition of FCMP (R161, R200). -/
inductive FCond where
  | eq | ne | lt | le | unord
  deriving DecidableEq, Repr

/-- The code of a `FCond` in its field. -/
def FCond.code : FCond → BitVec 4
  | .eq => 0#4
  | .ne => 1#4
  | .lt => 2#4
  | .le => 3#4
  | .unord => 4#4

/-- The `FCond` of a field value, where the value is assigned. -/
def FCond.ofCode (c : BitVec 4) : Option FCond :=
  match c.toNat with
  | 0 => some .eq
  | 1 => some .ne
  | 2 => some .lt
  | 3 => some .le
  | 4 => some .unord
  | _ => none

/-- A number format by its code (R51); codes 26 to 31 are reserved. -/
inductive Fmt where
  | f32 | f16 | bf16 | e4m3 | e5m2 | e3m2 | e2m3 | e2m1 | i32 | i16 | i8 | u8 | i6 | i4 | u4 | i2 | cb4 | cb3 | cb2 | se4m3 | si8 | si4 | se2m1 | scb4 | s32 | u32
  deriving DecidableEq, Repr

/-- The code of a `Fmt` in its field. -/
def Fmt.code : Fmt → BitVec 5
  | .f32 => 0#5
  | .f16 => 1#5
  | .bf16 => 2#5
  | .e4m3 => 3#5
  | .e5m2 => 4#5
  | .e3m2 => 5#5
  | .e2m3 => 6#5
  | .e2m1 => 7#5
  | .i32 => 8#5
  | .i16 => 9#5
  | .i8 => 10#5
  | .u8 => 11#5
  | .i6 => 12#5
  | .i4 => 13#5
  | .u4 => 14#5
  | .i2 => 15#5
  | .cb4 => 16#5
  | .cb3 => 17#5
  | .cb2 => 18#5
  | .se4m3 => 19#5
  | .si8 => 20#5
  | .si4 => 21#5
  | .se2m1 => 22#5
  | .scb4 => 23#5
  | .s32 => 24#5
  | .u32 => 25#5

/-- The `Fmt` of a field value, where the value is assigned. -/
def Fmt.ofCode (c : BitVec 5) : Option Fmt :=
  match c.toNat with
  | 0 => some .f32
  | 1 => some .f16
  | 2 => some .bf16
  | 3 => some .e4m3
  | 4 => some .e5m2
  | 5 => some .e3m2
  | 6 => some .e2m3
  | 7 => some .e2m1
  | 8 => some .i32
  | 9 => some .i16
  | 10 => some .i8
  | 11 => some .u8
  | 12 => some .i6
  | 13 => some .i4
  | 14 => some .u4
  | 15 => some .i2
  | 16 => some .cb4
  | 17 => some .cb3
  | 18 => some .cb2
  | 19 => some .se4m3
  | 20 => some .si8
  | 21 => some .si4
  | 22 => some .se2m1
  | 23 => some .scb4
  | 24 => some .s32
  | 25 => some .u32
  | _ => none

/-- A mode of SHFL (R212). -/
inductive ShflMode where
  | idx | up | down | xor | bcast
  deriving DecidableEq, Repr

/-- The code of a `ShflMode` in its field. -/
def ShflMode.code : ShflMode → BitVec 3
  | .idx => 0#3
  | .up => 1#3
  | .down => 2#3
  | .xor => 3#3
  | .bcast => 4#3

/-- The `ShflMode` of a field value, where the value is assigned. -/
def ShflMode.ofCode (c : BitVec 3) : Option ShflMode :=
  match c.toNat with
  | 0 => some .idx
  | 1 => some .up
  | 2 => some .down
  | 3 => some .xor
  | 4 => some .bcast
  | _ => none

/-- A mode of VOTE (R213). -/
inductive VoteMode where
  | all | any | ballot | matchAll | elect | count
  deriving DecidableEq, Repr

/-- The code of a `VoteMode` in its field. -/
def VoteMode.code : VoteMode → BitVec 3
  | .all => 0#3
  | .any => 1#3
  | .ballot => 2#3
  | .matchAll => 3#3
  | .elect => 4#3
  | .count => 5#3

/-- The `VoteMode` of a field value, where the value is assigned. -/
def VoteMode.ofCode (c : BitVec 3) : Option VoteMode :=
  match c.toNat with
  | 0 => some .all
  | 1 => some .any
  | 2 => some .ballot
  | 3 => some .matchAll
  | 4 => some .elect
  | 5 => some .count
  | _ => none

/-- An operation of RED and SCAN (R161, R214). -/
inductive RedOp where
  | add | mul | min | max | and | or | xor
  deriving DecidableEq, Repr

/-- The code of a `RedOp` in its field. -/
def RedOp.code : RedOp → BitVec 4
  | .add => 0#4
  | .mul => 1#4
  | .min => 2#4
  | .max => 3#4
  | .and => 4#4
  | .or => 5#4
  | .xor => 6#4

/-- The `RedOp` of a field value, where the value is assigned. -/
def RedOp.ofCode (c : BitVec 4) : Option RedOp :=
  match c.toNat with
  | 0 => some .add
  | 1 => some .mul
  | 2 => some .min
  | 3 => some .max
  | 4 => some .and
  | 5 => some .or
  | 6 => some .xor
  | _ => none

/-- A type of RED and SCAN (R161, R214). -/
inductive RedTy where
  | f32 | f16x2 | bf16x2 | i32 | i16x2 | i8x4 | i4x8 | u8x4
  deriving DecidableEq, Repr

/-- The code of a `RedTy` in its field. -/
def RedTy.code : RedTy → BitVec 3
  | .f32 => 0#3
  | .f16x2 => 1#3
  | .bf16x2 => 2#3
  | .i32 => 3#3
  | .i16x2 => 4#3
  | .i8x4 => 5#3
  | .i4x8 => 6#3
  | .u8x4 => 7#3

/-- The `RedTy` of a field value, where the value is assigned. -/
def RedTy.ofCode (c : BitVec 3) : Option RedTy :=
  match c.toNat with
  | 0 => some .f32
  | 1 => some .f16x2
  | 2 => some .bf16x2
  | 3 => some .i32
  | 4 => some .i16x2
  | 5 => some .i8x4
  | 6 => some .i4x8
  | _ => some .u8x4

/-- A form of ARG (R161, R216). -/
inductive ArgKind where
  | maxF32 | minF32 | maxF16 | minF16 | maxS32 | minS32
  deriving DecidableEq, Repr

/-- The code of a `ArgKind` in its field. -/
def ArgKind.code : ArgKind → BitVec 4
  | .maxF32 => 0#4
  | .minF32 => 1#4
  | .maxF16 => 2#4
  | .minF16 => 3#4
  | .maxS32 => 4#4
  | .minS32 => 5#4

/-- The `ArgKind` of a field value, where the value is assigned. -/
def ArgKind.ofCode (c : BitVec 4) : Option ArgKind :=
  match c.toNat with
  | 0 => some .maxF32
  | 1 => some .minF32
  | 2 => some .maxF16
  | 3 => some .minF16
  | 4 => some .maxS32
  | 5 => some .minS32
  | _ => none

/-- A branch condition (R169). -/
inductive Cond where
  | always | p | np | z | nz | neg | nneg
  deriving DecidableEq, Repr

/-- The code of a `Cond` in its field. -/
def Cond.code : Cond → BitVec 3
  | .always => 0#3
  | .p => 1#3
  | .np => 2#3
  | .z => 3#3
  | .nz => 4#3
  | .neg => 5#3
  | .nneg => 6#3

/-- The `Cond` of a field value, where the value is assigned. -/
def Cond.ofCode (c : BitVec 3) : Option Cond :=
  match c.toNat with
  | 0 => some .always
  | 1 => some .p
  | 2 => some .np
  | 3 => some .z
  | 4 => some .nz
  | 5 => some .neg
  | 6 => some .nneg
  | _ => none

/-- A size of LD (R220). -/
inductive LdSize where
  | b8 | s8 | b16 | s16 | b32 | b64 | b128
  deriving DecidableEq, Repr

/-- The code of a `LdSize` in its field. -/
def LdSize.code : LdSize → BitVec 3
  | .b8 => 0#3
  | .s8 => 1#3
  | .b16 => 2#3
  | .s16 => 3#3
  | .b32 => 4#3
  | .b64 => 5#3
  | .b128 => 6#3

/-- The `LdSize` of a field value, where the value is assigned. -/
def LdSize.ofCode (c : BitVec 3) : Option LdSize :=
  match c.toNat with
  | 0 => some .b8
  | 1 => some .s8
  | 2 => some .b16
  | 3 => some .s16
  | 4 => some .b32
  | 5 => some .b64
  | 6 => some .b128
  | _ => none

/-- A size of ST (R221). -/
inductive StSize where
  | b8 | b16 | b32 | b64 | b128
  deriving DecidableEq, Repr

/-- The code of a `StSize` in its field. -/
def StSize.code : StSize → BitVec 3
  | .b8 => 0#3
  | .b16 => 2#3
  | .b32 => 4#3
  | .b64 => 5#3
  | .b128 => 6#3

/-- The `StSize` of a field value, where the value is assigned. -/
def StSize.ofCode (c : BitVec 3) : Option StSize :=
  match c.toNat with
  | 0 => some .b8
  | 2 => some .b16
  | 4 => some .b32
  | 5 => some .b64
  | 6 => some .b128
  | _ => none

/-- An operation of ATOM (R224). -/
inductive AtomOp where
  | add | min | max | and | or | xor | swp | cas | incw
  deriving DecidableEq, Repr

/-- The code of a `AtomOp` in its field. -/
def AtomOp.code : AtomOp → BitVec 4
  | .add => 0#4
  | .min => 1#4
  | .max => 2#4
  | .and => 3#4
  | .or => 4#4
  | .xor => 5#4
  | .swp => 6#4
  | .cas => 7#4
  | .incw => 8#4

/-- The `AtomOp` of a field value, where the value is assigned. -/
def AtomOp.ofCode (c : BitVec 4) : Option AtomOp :=
  match c.toNat with
  | 0 => some .add
  | 1 => some .min
  | 2 => some .max
  | 3 => some .and
  | 4 => some .or
  | 5 => some .xor
  | 6 => some .swp
  | 7 => some .cas
  | 8 => some .incw
  | _ => none

/-- An operation of ANN (R227). -/
inductive AnnOp where
  | add | and | or | xor | min | max | swp | cas | ld | psh | pop | enq | deq
  deriving DecidableEq, Repr

/-- The code of a `AnnOp` in its field. -/
def AnnOp.code : AnnOp → BitVec 4
  | .add => 0#4
  | .and => 1#4
  | .or => 2#4
  | .xor => 3#4
  | .min => 4#4
  | .max => 5#4
  | .swp => 6#4
  | .cas => 7#4
  | .ld => 8#4
  | .psh => 9#4
  | .pop => 10#4
  | .enq => 11#4
  | .deq => 12#4

/-- The `AnnOp` of a field value, where the value is assigned. -/
def AnnOp.ofCode (c : BitVec 4) : Option AnnOp :=
  match c.toNat with
  | 0 => some .add
  | 1 => some .and
  | 2 => some .or
  | 3 => some .xor
  | 4 => some .min
  | 5 => some .max
  | 6 => some .swp
  | 7 => some .cas
  | 8 => some .ld
  | 9 => some .psh
  | 10 => some .pop
  | 11 => some .enq
  | 12 => some .deq
  | _ => none

/-- A special register that MFU and MTU name (R162). -/
inductive UReg where
  | lane | warp | group | gang | core | die | tile | role | split | mask | targ | uvec | ucause | dmode | steps | fflags | annbase | cycles | ticks | phasef
  deriving DecidableEq, Repr

/-- The code of a `UReg` in its field. -/
def UReg.code : UReg → BitVec 7
  | .lane => 0#7
  | .warp => 1#7
  | .group => 2#7
  | .gang => 3#7
  | .core => 4#7
  | .die => 5#7
  | .tile => 6#7
  | .role => 7#7
  | .split => 8#7
  | .mask => 9#7
  | .targ => 10#7
  | .uvec => 11#7
  | .ucause => 12#7
  | .dmode => 13#7
  | .steps => 14#7
  | .fflags => 15#7
  | .annbase => 16#7
  | .cycles => 17#7
  | .ticks => 18#7
  | .phasef => 19#7

/-- The `UReg` of a field value, where the value is assigned. -/
def UReg.ofCode (c : BitVec 7) : Option UReg :=
  match c.toNat with
  | 0 => some .lane
  | 1 => some .warp
  | 2 => some .group
  | 3 => some .gang
  | 4 => some .core
  | 5 => some .die
  | 6 => some .tile
  | 7 => some .role
  | 8 => some .split
  | 9 => some .mask
  | 10 => some .targ
  | 11 => some .uvec
  | 12 => some .ucause
  | 13 => some .dmode
  | 14 => some .steps
  | 15 => some .fflags
  | 16 => some .annbase
  | 17 => some .cycles
  | 18 => some .ticks
  | 19 => some .phasef
  | _ => none

/-- A system register that MFSR and MTSR name (R271). -/
inductive SReg where
  | kstat | kvec | ktrb | kscr0 | kscr1 | ctxid | ptroot | fqbase | fqctl | racecfg | orphlog | peatq | scrubpos | intlog | fwmbx | ready
  deriving DecidableEq, Repr

/-- The code of a `SReg` in its field. -/
def SReg.code : SReg → BitVec 7
  | .kstat => 0#7
  | .kvec => 1#7
  | .ktrb => 2#7
  | .kscr0 => 3#7
  | .kscr1 => 4#7
  | .ctxid => 5#7
  | .ptroot => 6#7
  | .fqbase => 7#7
  | .fqctl => 8#7
  | .racecfg => 9#7
  | .orphlog => 10#7
  | .peatq => 11#7
  | .scrubpos => 12#7
  | .intlog => 13#7
  | .fwmbx => 14#7
  | .ready => 15#7

/-- The `SReg` of a field value, where the value is assigned. -/
def SReg.ofCode (c : BitVec 7) : Option SReg :=
  match c.toNat with
  | 0 => some .kstat
  | 1 => some .kvec
  | 2 => some .ktrb
  | 3 => some .kscr0
  | 4 => some .kscr1
  | 5 => some .ctxid
  | 6 => some .ptroot
  | 7 => some .fqbase
  | 8 => some .fqctl
  | 9 => some .racecfg
  | 10 => some .orphlog
  | 11 => some .peatq
  | 12 => some .scrubpos
  | 13 => some .intlog
  | 14 => some .fwmbx
  | 15 => some .ready
  | _ => none

/-- A modifier word (R157): its fields but for the fixed ones. -/
structure Modifier where
  rnd : Rnd
  scale : BitVec 5
  absC : Bool
  absB : Bool
  absA : Bool
  negC : Bool
  negB : Bool
  negA : Bool
  clamp : Bool
  sat : Bool
  ppol : Bool
  pred : Reg
  deriving DecidableEq, Repr

/-- Form H (R153): the destination, also the first source, and the second source or the signed immediate, on v0 to v31. -/
structure OpH where
  d : BitVec 5
  s : BitVec 5
  deriving DecidableEq, Repr

/-- Form A with two sources (R154). -/
structure OpA where
  d : Reg
  a : Reg
  b : Reg
  t : Bool
  m : Option Modifier
  deriving DecidableEq, Repr

/-- Form A with one source (R190). -/
structure OpA2 where
  d : Reg
  a : Reg
  t : Bool
  m : Option Modifier
  deriving DecidableEq, Repr

/-- ICMP (R191). -/
structure OpIcmp where
  c : IcmpCond
  d : Reg
  a : Reg
  b : Reg
  t : Bool
  m : Option Modifier
  deriving DecidableEq, Repr

/-- DADD and DSUB (R192). -/
structure OpDigT where
  y : DigTy
  d : Reg
  a : Reg
  b : Reg
  t : Bool
  m : Option Modifier
  deriving DecidableEq, Repr

/-- DMUL, DMAD, DMIN and DMAX (R192), which have no T bit. -/
structure OpDig where
  y : DigTy
  d : Reg
  a : Reg
  b : Reg
  m : Option Modifier
  deriving DecidableEq, Repr

/-- Form I with an 11-bit immediate (R193). -/
structure OpI where
  d : Reg
  a : Reg
  i : BitVec 11
  m : Option Modifier
  deriving DecidableEq, Repr

/-- A shift by an immediate (R194). -/
structure OpISh where
  d : Reg
  a : Reg
  n : BitVec 5
  m : Option Modifier
  deriving DecidableEq, Repr

/-- CMPI (R195). -/
structure OpCmpi where
  c : CmpiCond
  d : Reg
  a : Reg
  i : BitVec 8
  m : Option Modifier
  deriving DecidableEq, Repr

/-- Form W (R196). -/
structure OpW where
  d : Reg
  i : BitVec 16
  m : Option Modifier
  deriving DecidableEq, Repr

/-- LEA with its shift (R197). -/
structure OpLea where
  h : BitVec 2
  d : Reg
  a : Reg
  b : Reg
  t : Bool
  m : Option Modifier
  deriving DecidableEq, Repr

/-- FCMP (R200). -/
structure OpFcmp where
  y : FTy
  c : FCond
  d : Reg
  a : Reg
  b : Reg
  m : Option Modifier
  deriving DecidableEq, Repr

/-- FCLASS and ABST (R201). -/
structure OpTy where
  y : FTy
  d : Reg
  a : Reg
  m : Option Modifier
  deriving DecidableEq, Repr

/-- A special function (R202). -/
structure OpTyT where
  y : FTy
  d : Reg
  a : Reg
  t : Bool
  m : Option Modifier
  deriving DecidableEq, Repr

/-- CVT and CVTS (R203, R204). -/
structure OpCvt where
  dst : Fmt
  src : Fmt
  sat : Bool
  d : Reg
  a : Reg
  m : Option Modifier
  deriving DecidableEq, Repr

/-- Form E with two sources (R154). -/
structure OpE where
  d : Reg
  a : Reg
  b : Reg
  m : Option Modifier
  deriving DecidableEq, Repr

/-- Form E with one source. -/
structure OpE2 where
  d : Reg
  a : Reg
  m : Option Modifier
  deriving DecidableEq, Repr

/-- CBSET (R207). -/
structure OpCbset where
  j : BitVec 3
  a : Reg
  m : Option Modifier
  deriving DecidableEq, Repr

/-- CBGET (R207). -/
structure OpCbget where
  j : BitVec 3
  d : Reg
  m : Option Modifier
  deriving DecidableEq, Repr

/-- CBENC (R208). -/
structure OpCbenc where
  src : FTy
  f : CbFmt
  d : Reg
  a : Reg
  m : Option Modifier
  deriving DecidableEq, Repr

/-- CBDEC (R209). -/
structure OpCbdec where
  p : BitVec 3
  f : CbFmt
  d : Reg
  a : Reg
  m : Option Modifier
  deriving DecidableEq, Repr

/-- ABSM and ABSC (R210). -/
structure OpFmt where
  f : Fmt
  d : Reg
  a : Reg
  m : Option Modifier
  deriving DecidableEq, Repr

/-- SHFL (R212). -/
structure OpShfl where
  k : ShflMode
  d : Reg
  a : Reg
  b : Reg
  t : Bool
  m : Option Modifier
  deriving DecidableEq, Repr

/-- VOTE (R213). -/
structure OpVote where
  k : VoteMode
  d : Reg
  a : Reg
  t : Bool
  m : Option Modifier
  deriving DecidableEq, Repr

/-- RED and SCAN (R214, R215). -/
structure OpRed where
  o : RedOp
  y : RedTy
  d : Reg
  a : Reg
  m : Option Modifier
  deriving DecidableEq, Repr

/-- ARG (R216). -/
structure OpArg where
  k : ArgKind
  d : Reg
  a : Reg
  b : Reg
  m : Option Modifier
  deriving DecidableEq, Repr

/-- BRA and BRC (R169). -/
structure OpBr where
  c : Cond
  a : Reg
  o : BitVec 15
  deriving DecidableEq, Repr

/-- CALL and the vote branches (R170, R180). -/
structure OpBrA where
  a : Reg
  o : BitVec 15
  deriving DecidableEq, Repr

/-- BPND (R179). -/
structure OpBpnd where
  rdy : Bool
  a : Reg
  o : BitVec 15
  deriving DecidableEq, Repr

/-- RET and BRX with their register, TRAPX with its code (R171, R176). -/
structure OpR where
  r : BitVec 7
  deriving DecidableEq, Repr

/-- MFU (R181). -/
structure OpMfu where
  r : UReg
  d : Reg
  m : Option Modifier
  deriving DecidableEq, Repr

/-- MTU (R181). -/
structure OpMtu where
  r : UReg
  a : Reg
  m : Option Modifier
  deriving DecidableEq, Repr

/-- An instruction with one source register and no destination. -/
structure OpSrc where
  a : Reg
  m : Option Modifier
  deriving DecidableEq, Repr

/-- An instruction with no operand, which may carry a modifier word. -/
structure OpM where
  m : Option Modifier
  deriving DecidableEq, Repr

/-- DQRY (R184). -/
structure OpDqry where
  j : BitVec 2
  d : Reg
  m : Option Modifier
  deriving DecidableEq, Repr

/-- LD (R220): the offset in units of the access size. -/
structure OpLd where
  z : LdSize
  p : Space
  d : Reg
  a : Reg
  o : BitVec 6
  m : Option Modifier
  deriving DecidableEq, Repr

/-- ST (R221). -/
structure OpSt where
  z : StSize
  p : Space
  d : Reg
  a : Reg
  o : BitVec 6
  m : Option Modifier
  deriving DecidableEq, Repr

/-- LDX and STX (R222). -/
structure OpX where
  p : Space
  d : Reg
  a : Reg
  b : Reg
  m : Option Modifier
  deriving DecidableEq, Repr

/-- ATOM (R155, R224). -/
structure OpAtom where
  o : AtomOp
  s : Scope
  rel : Bool
  w64 : Bool
  p : Space
  d : Reg
  a : Reg
  m : Option Modifier
  deriving DecidableEq, Repr

/-- PHASE.REL, PHASE.AR and FENCE (R225). -/
structure OpScope where
  s : Scope
  m : Option Modifier
  deriving DecidableEq, Repr

/-- PHASE.ACQ (R225). -/
structure OpAcq where
  s : Scope
  named : Bool
  a : Reg
  m : Option Modifier
  deriving DecidableEq, Repr

/-- ANN (R155, R227): registers by their pair numbers, ORD 0 none, 1 REL, 2 ACQ, 3 AR. -/
structure OpAnn where
  o : AnnOp
  ord : BitVec 2
  p : Space
  d : BitVec 6
  a : BitVec 6
  b : BitVec 5
  m : Option Modifier
  deriving DecidableEq, Repr

/-- ANN.HLP (R228): n holds the count less 1. -/
structure OpHlp where
  p : Space
  n : BitVec 4
  d : BitVec 6
  a : BitVec 6
  m : Option Modifier
  deriving DecidableEq, Repr

/-- ANNQ (R228). -/
structure OpAnnq where
  d : BitVec 6
  m : Option Modifier
  deriving DecidableEq, Repr

/-- BAR.INIT (R230). -/
structure OpBarInit where
  gang : Bool
  k : BitVec 4
  a : Reg
  m : Option Modifier
  deriving DecidableEq, Repr

/-- An instruction that names a barrier, a reservation or a small count. -/
structure OpBar where
  k : BitVec 4
  m : Option Modifier
  deriving DecidableEq, Repr

/-- An instruction that names a barrier or a reservation and one register. -/
structure OpBarS where
  k : BitVec 4
  r : Reg
  m : Option Modifier
  deriving DecidableEq, Repr

/-- FGET, FSET and FCLR (R233). -/
structure OpFut where
  p : Space
  d : Reg
  a : Reg
  m : Option Modifier
  deriving DecidableEq, Repr

/-- RGIVE (R244). -/
structure OpGive where
  k : BitVec 4
  deriving DecidableEq, Repr

/-- RCLAIM (R244). -/
structure OpClaim where
  k : BitVec 4
  d : Reg
  deriving DecidableEq, Repr

/-- MSTAT and CPYQ (R250, R254): c clears the sticky bits. -/
structure OpStat where
  c : Bool
  d : Reg
  m : Option Modifier
  deriving DecidableEq, Repr

/-- MGRP (R251). -/
structure OpMgrp where
  a : Reg
  b : Reg
  m : Option Modifier
  deriving DecidableEq, Repr

/-- A network or storage write: v is .DLV, or .FUA (R161). -/
structure OpNet where
  v : Bool
  d : Reg
  a : Reg
  b : Reg
  m : Option Modifier
  deriving DecidableEq, Repr

/-- MFSR (R271). -/
structure OpMfsr where
  r : SReg
  d : Reg
  deriving DecidableEq, Repr

/-- MTSR (R271). -/
structure OpMtsr where
  r : SReg
  a : Reg
  deriving DecidableEq, Repr

/-- A system instruction with three registers (R283). -/
structure OpSys where
  d : Reg
  a : Reg
  b : Reg
  deriving DecidableEq, Repr

/-- What an incoming remote operation carries (R330, R332): the sender's address and ASID, the partition, ASID and job
key that the sender's peer entry names, the remote address, its traffic class and its flow. -/
structure RemoteReq where
  peer : Nat
  senderAsid : Nat
  part : Nat
  asid : Nat
  job : Nat
  addr : DWord
  tc : Nat
  flow : Nat
  ordered : Bool
  deriving DecidableEq, Repr

/-- A `.scratch` declaration of a program's entry (R86): its space, its size and its swizzle. -/
structure Scratch where
  inN : Bool
  size : Nat
  swizzle : Nat
  deriving DecidableEq, Repr

/-- A boot image (R352): its size in bytes, its version, whether each of its two signatures verifies under the fused keys, and
the scheduler's address that it holds (R355). -/
structure FlashImage where
  bytes : Nat
  version : Nat
  ed25519 : Bool
  mldsa : Bool
  sched : Nat
  deriving DecidableEq, Repr

/-- The instructions and events of the opcode table, in its order. -/
inductive Instr where
  | mov16 (x : OpH)
  | add16 (x : OpH)
  | sub16 (x : OpH)
  | and16 (x : OpH)
  | or16 (x : OpH)
  | xor16 (x : OpH)
  | shl16 (x : OpH)
  | shr16 (x : OpH)
  | addi5 (x : OpH)
  | movi5 (x : OpH)
  | fadd16 (x : OpH)
  | fmul16 (x : OpH)
  | fmax16 (x : OpH)
  | fmin16 (x : OpH)
  | imul16 (x : OpH)
  | nop
  | add (x : OpA)
  | sub (x : OpA)
  | addc (x : OpA)
  | subb (x : OpA)
  | minS (x : OpA)
  | maxS (x : OpA)
  | minU (x : OpA)
  | maxU (x : OpA)
  | and (x : OpA)
  | or (x : OpA)
  | xor (x : OpA)
  | andn (x : OpA)
  | orn (x : OpA)
  | xnor (x : OpA)
  | sel (x : OpA)
  | bswz (x : OpA)
  | shl (x : OpA)
  | shr (x : OpA)
  | sar (x : OpA)
  | rol (x : OpA)
  | shl64 (x : OpA)
  | shr64 (x : OpA)
  | sar64 (x : OpA)
  | fshf (x : OpA)
  | mulLo (x : OpA)
  | mulHiS (x : OpA)
  | mulHiU (x : OpA)
  | madLo (x : OpA)
  | madHiS (x : OpA)
  | madHiU (x : OpA)
  | mulWideS (x : OpA)
  | mulWideU (x : OpA)
  | popc (x : OpA2)
  | clz (x : OpA2)
  | ctz (x : OpA2)
  | brev (x : OpA2)
  | bfxU (x : OpA)
  | bfxS (x : OpA)
  | bfi (x : OpA)
  | iabs (x : OpA2)
  | icmp (x : OpIcmp)
  | dadd (x : OpDigT)
  | dsub (x : OpDigT)
  | dmul (x : OpDig)
  | dmad (x : OpDig)
  | dmin (x : OpDig)
  | dmax (x : OpDig)
  | addi (x : OpI)
  | andi (x : OpI)
  | ori (x : OpI)
  | xori (x : OpI)
  | shli (x : OpISh)
  | shri (x : OpISh)
  | sari (x : OpISh)
  | cmpi (x : OpCmpi)
  | movw (x : OpW)
  | movt (x : OpW)
  | movs (x : OpW)
  | lea (x : OpLea)
  | faddF32 (x : OpA)
  | fsubF32 (x : OpA)
  | fmulF32 (x : OpA)
  | ffmaF32 (x : OpA)
  | fminF32 (x : OpA)
  | fmaxF32 (x : OpA)
  | fcpysF32 (x : OpA)
  | faddF16x2 (x : OpA)
  | fsubF16x2 (x : OpA)
  | fmulF16x2 (x : OpA)
  | ffmaF16x2 (x : OpA)
  | fminF16x2 (x : OpA)
  | fmaxF16x2 (x : OpA)
  | fcpysF16x2 (x : OpA)
  | faddBf16x2 (x : OpA)
  | fsubBf16x2 (x : OpA)
  | fmulBf16x2 (x : OpA)
  | ffmaBf16x2 (x : OpA)
  | fminBf16x2 (x : OpA)
  | fmaxBf16x2 (x : OpA)
  | fcpysBf16x2 (x : OpA)
  | fcmp (x : OpFcmp)
  | fclass (x : OpTy)
  | abst (x : OpTy)
  | frcp (x : OpTyT)
  | frsq (x : OpTyT)
  | fsqrt (x : OpTyT)
  | fexp2 (x : OpTyT)
  | flog2 (x : OpTyT)
  | fsin (x : OpTyT)
  | fcos (x : OpTyT)
  | ftanh (x : OpTyT)
  | cvt (x : OpCvt)
  | cvts (x : OpCvt)
  | pack (x : OpE)
  | unpk (x : OpE)
  | cbset (x : OpCbset)
  | cbenc (x : OpCbenc)
  | cbdec (x : OpCbdec)
  | cbget (x : OpCbget)
  | absm (x : OpFmt)
  | absc (x : OpFmt)
  | shfl (x : OpShfl)
  | vote (x : OpVote)
  | red (x : OpRed)
  | scan (x : OpRed)
  | arg (x : OpArg)
  | bra (x : OpBr)
  | brc (x : OpBr)
  | call (x : OpBrA)
  | ret (x : OpR)
  | brx (x : OpR)
  | join
  | yld
  | exit
  | trapx (x : OpR)
  | uret
  | brk
  | bpnd (x : OpBpnd)
  | ball (x : OpBrA)
  | bany (x : OpBrA)
  | bnone (x : OpBrA)
  | mfu (x : OpMfu)
  | mtu (x : OpMtu)
  | tile (x : OpSrc)
  | dmode (x : OpSrc)
  | dqry (x : OpDqry)
  | ld (x : OpLd)
  | st (x : OpSt)
  | ldx (x : OpX)
  | stx (x : OpX)
  | atom (x : OpAtom)
  | phaseRel (x : OpScope)
  | phaseAcq (x : OpAcq)
  | phaseAr (x : OpScope)
  | fence (x : OpScope)
  | ann (x : OpAnn)
  | annHlp (x : OpHlp)
  | annq (x : OpAnnq)
  | barInit (x : OpBarInit)
  | barArv (x : OpBar)
  | barAdd (x : OpBarS)
  | barTst (x : OpBarS)
  | barPnd (x : OpBarS)
  | fget (x : OpFut)
  | fset (x : OpFut)
  | fclr (x : OpFut)
  | tspawn (x : OpE)
  | partialTaskWarpTimeout (core : Nat)
  | tend (x : OpM)
  | fapp (x : OpE)
  | fpop (x : OpE2)
  | fret (x : OpE)
  | svc (x : OpE)
  | rgive (x : OpGive)
  | rclaim (x : OpClaim)
  | mresv (x : OpE2)
  | mrels (x : OpBar)
  | mscl (x : OpSrc)
  | mlds (x : OpBarS)
  | mswp (x : OpM)
  | mzero (x : OpSrc)
  | mchn (x : OpBar)
  | mstat (x : OpStat)
  | mloop (x : OpSrc)
  | mgrp (x : OpMgrp)
  | mdrn (x : OpE2)
  | cpyL (x : OpE)
  | cpyS (x : OpE)
  | cpyp (x : OpE)
  | cpyq (x : OpStat)
  | kvg (x : OpE)
  | kvmap (x : OpE)
  | migr (x : OpE)
  | adec (x : OpE)
  | nwr (x : OpNet)
  | nrd (x : OpE)
  | natm (x : OpNet)
  | nsnd (x : OpNet)
  | nwatch (x : OpE2)
  | strd (x : OpE)
  | stwr (x : OpNet)
  | stfl (x : OpE)
  | mfsr (x : OpMfsr)
  | mtsr (x : OpMtsr)
  | tret
  | csave (x : OpSys)
  | cload (x : OpSys)
  | cmigr (x : OpSys)
  | tlbinv (x : OpSys)
  | fqansResume (x : OpSys)
  | fqansTerminate (x : OpSys)
  | kslotLoad (x : OpSys)
  | kslotZero (x : OpSys)
  | kslotQuery (x : OpSys)
  | scrubStart (x : OpSys)
  | scrubQuery (x : OpSys)
  | partAssign (x : OpSys)
  | partReset (x : OpSys)
  | partRelease (x : OpSys)
  | partQuery (x : OpSys)
  | svcret (x : OpSys)
  | fmapMap (x : OpSys)
  | fmapUnmap (x : OpSys)
  | asidqEnter (x : OpSys)
  | asidqQuery (x : OpSys)
  | asidqLeave (x : OpSys)
  | loadLanding (fly : Nat)
  | closureRun (gid : Nat) (widx : Nat) (clo : Nat)
  | yldTimeout (gid : Nat) (widx : Nat)
  | warpEnd (gid : Nat) (widx : Nat)
  | releaseLanding (core : Nat)
  | forcedAcquire (core : Nat)
  | homeEngineTransaction (engine : Nat)
  | annDriverStep (drive : Nat)
  | matrixCommandHead (core : Nat)
  | matrixPass (core : Nat)
  | drainCompletion (core : Nat)
  | copyCompletion (op : Nat)
  | kvgCompletion (op : Nat)
  | migrCompletion (op : Nat) (status : Nat)
  | adecCompletion (op : Nat)
  | groupEnd (gid : Nat)
  | launchCompletionRecord (launch : Nat)
  | networkCompletion (op : Nat) (status : Nat) (data : List Byte)
  | networkTimeout (op : Nat)
  | storageCompletion (op : Nat) (status : Nat) (nvst : Nat) (data : List Byte)
  | storageTimeout (op : Nat)
  | remoteWriteArrival (r : RemoteReq) (data : List Byte)
  | remoteReadArrival (r : RemoteReq) (len : Nat)
  | remoteAtomicArrival (r : RemoteReq) (cas : Bool) (w64 : Bool) (y : DWord) (n : DWord)
  | endpointMessageArrival (r : RemoteReq) (endpoint : Nat) (data : List Byte)
  | watchRegistrationArrival (r : RemoteReq) (token : Nat)
  | watchNotificationArrival (op : Nat) (status : Nat)
  | watchCancel (peer : Nat) (token : Nat)
  | launch (flow : Nat) (hdr : BitVec 128) (body : List Byte)
  | append (flow : Nat) (hdr : BitVec 128) (body : List Byte)
  | bindHold (die : Nat) (slot : Nat) (rec : BitVec 256)
  | bindCommit (die : Nat) (slot : Nat)
  | bindFree (die : Nat) (slot : Nat)
  | bindEvict (die : Nat) (slot : Nat) (image : DWord)
  | admissionBackoffExpiry (launch : Nat) (gang : Nat)
  | windowCompaction (gid : Nat) (widx : Nat) (base : Nat)
  | priorityAging (launch : Nat)
  | evictionWaitExpiry (launch : Nat)
  | pageWalk (core : Nat) (asid : Nat) (va : DWord)
  | tlbinvCompletion (op : Nat)
  | kslotZeroCompletion (op : Nat)
  | fmapCompletion (op : Nat)
  | contextImageCompletion (op : Nat)
  | scrubProgress (die : Nat)
  | scrubPause (die : Nat)
  | scrubResume (die : Nat)
  | sagThresholdCrossing (die : Nat) (k : Nat)
  | sagStepDown (die : Nat)
  | powerGoodBoot
  | moduleReset
  | readyFunctionUp (die : Nat) (bit : Nat)
  | portLinkUp (port : Nat)
  | dhcpv6Reply (addr : Nat) (sched : Option Nat)
  | addressFallbackTimeout (addr : Nat)
  | announceTimer
  | announceAck (src : Nat)
  | mgmtQuery (src : Nat)
  | preset (src : Nat) (part : Nat)
  | mreset (src : Nat)
  | fwstage (src : Nat) (img : FlashImage)
  | unsupportedPacketDrop (port : Nat)
  | crcFailedPacket (port : Nat)
  deriving DecidableEq, Repr

end Sys2Proof
end

