-- ==== Sys2Proof/WellFormed.lean ====
section
/-! DEFINITION. Well-formed instructions: the operand rules of R159 that hold at the encoding (even pairs,
aligned register groups, field combinations) and the modifier clauses that each major accepts (R158). -/

namespace Sys2Proof

/-- The modifier clauses that an instruction accepts (R158, R198). -/
structure Clauses where
  pred : Bool
  uni : Bool
  sat : Bool
  clamp : Bool
  opA : Bool
  opB : Bool
  opC : Bool
  scale : Bool
  rnd : Bool
  deriving DecidableEq, Repr

/-- No clause: a modifier word may follow, but every clause field of it is zero. -/
def Clauses.none : Clauses := ⟨false, false, false, false, false, false, false, false, false⟩
/-- The predicate only. -/
def Clauses.p : Clauses := { Clauses.none with pred := true }
/-- The predicate and `.U`. -/
def Clauses.pU : Clauses := { Clauses.none with pred := true, uni := true }
/-- Float arithmetic (R199); the operand-3 clauses for FFMA only. -/
def Clauses.float (fused : Bool) : Clauses := ⟨true, true, true, true, true, true, fused, true, true⟩
/-- Data-typed integers (R192): no sign clause on .U8x4; operand 3 for DMAD only. -/
def Clauses.digit (y : DigTy) (fused : Bool) : Clauses :=
  { Clauses.pU with opA := y != .u8x4, opB := y != .u8x4, opC := fused && y != .u8x4 }
/-- FCMP (R200). -/
def Clauses.fcmp : Clauses := { Clauses.pU with opA := true, opB := true }
/-- The special functions (R202). -/
def Clauses.special : Clauses := { Clauses.pU with sat := true, clamp := true, opA := true, scale := true }
/-- CVT (R203). -/
def Clauses.cvt : Clauses := { Clauses.pU with scale := true, rnd := true }
/-- CVTS (R204). -/
def Clauses.cvts : Clauses := { Clauses.p with rnd := true }

/-- Whether the modifier word names the uniform form `.U` (R157). -/
def Modifier.uniform (m : Modifier) : Bool := m.pred == 0 && m.ppol

/-- Whether every clause that the modifier word encodes is accepted (R158). -/
def Modifier.accepted (m : Modifier) (c : Clauses) : Bool :=
  (c.pred || m.pred == 0) && (c.uni || !m.uniform) && (c.sat || !m.sat) && (c.clamp || !m.clamp) &&
  (c.opA || (!m.negA && !m.absA)) && (c.opB || (!m.negB && !m.absB)) && (c.opC || (!m.negC && !m.absC)) &&
  (c.scale || m.scale == 0) && (c.rnd || m.rnd == .nearest)

/-- No modifier word is always accepted. -/
def modOk (m : Option Modifier) (c : Clauses) : Bool :=
  match m with
  | none => true
  | some m => m.accepted c

/-- A register number that heads a pair. -/
def even (r : Reg) : Bool := r.toNat % 2 == 0
/-- A register number that heads a group of 4. -/
def four (r : Reg) : Bool := r.toNat % 4 == 0
/-- A register number that heads a group of 8. -/
def eight (r : Reg) : Bool := r.toNat % 8 == 0
/-- A register number that heads a group of 16. -/
def sixteen (r : Reg) : Bool := r.toNat % 16 == 0

/-- Declarations that R86 allows: each size in 128-byte rows, each swizzle one of the four, and at most 8 in a space. -/
def scratchOk (rs : List Scratch) : Bool :=
  rs.all fun r => r.size % 128 == 0 && decide (r.swizzle < 4) && decide ((rs.filter fun x => x.inN == r.inN).length ≤ 8)

/-- The 64-bit conditions of ICMP compare pairs (R191). -/
def IcmpCond.wide : IcmpCond → Bool
  | .eq64 | .lt64U => true
  | .eq | .ne | .ltS | .leS | .ltU | .leU => false

/-- The scaled formats (R51). -/
def Fmt.scaled (f : Fmt) : Bool := 19 ≤ f.code.toNat && f.code.toNat ≤ 23
/-- The machine words .S32 and .U32 (R51). -/
def Fmt.machine (f : Fmt) : Bool := 24 ≤ f.code.toNat
/-- F32, F16 and BF16. -/
def Fmt.plainFloat (f : Fmt) : Bool := f.code.toNat ≤ 2

/-- CBDEC's pair index stays inside a register (R209). -/
def CbFmt.pairOk (f : CbFmt) (p : BitVec 3) : Bool :=
  match f with
  | .cb4 => p.toNat ≤ 3
  | .cb3 => p.toNat ≤ 4
  | .cb2 => true

/-- AND, OR and XOR (R214). -/
def RedOp.bitwise : RedOp → Bool
  | .and | .or | .xor => true
  | .add | .mul | .min | .max => false
/-- The floating types of RED and SCAN. -/
def RedTy.isFloat : RedTy → Bool
  | .f32 | .f16x2 | .bf16x2 => true
  | .i32 | .i16x2 | .i8x4 | .i4x8 | .u8x4 => false

/-- The 64-bit special registers (R30). -/
def UReg.wide : UReg → Bool
  | .targ | .uvec | .annbase | .cycles | .ticks => true
  | .lane | .warp | .group | .gang | .core | .die | .tile | .role | .split | .mask | .ucause | .dmode
  | .steps | .fflags | .phasef => false
/-- The special registers that MTU writes (R30, R162). -/
def UReg.writable : UReg → Bool
  | .uvec | .annbase | .fflags | .phasef => true
  | .lane | .warp | .group | .gang | .core | .die | .tile | .role | .split | .mask | .ucause | .dmode
  | .steps | .targ | .cycles | .ticks => false

/-- The 64-bit system registers (R271). -/
def SReg.wide : SReg → Bool
  | .kvec | .ktrb | .kscr0 | .kscr1 | .ptroot | .fqbase | .orphlog | .scrubpos | .intlog | .fwmbx => true
  | .kstat | .ctxid | .fqctl | .racecfg | .peatq | .ready => false
/-- The system registers that MTSR writes (R271). -/
def SReg.writable : SReg → Bool
  | .kvec | .ktrb | .kscr0 | .kscr1 | .ptroot | .fqbase | .fqctl | .racecfg | .orphlog | .peatq | .intlog
  | .fwmbx => true
  | .kstat | .ctxid | .scrubpos | .ready => false

/-- The data register of a load heads its register group (R220). -/
def LdSize.regOk (z : LdSize) (d : Reg) : Bool :=
  match z with
  | .b64 => even d
  | .b128 => four d
  | .b8 | .s8 | .b16 | .s16 | .b32 => true
/-- The data register of a store heads its register group (R221). -/
def StSize.regOk (z : StSize) (d : Reg) : Bool :=
  match z with
  | .b64 => even d
  | .b128 => four d
  | .b8 | .b16 | .b32 => true

/-- An address in space G is an even pair (R154). -/
def addrOk (p : Space) (a : Reg) : Bool :=
  match p with
  | .g => even a
  | .s | .n => true

/-- The field rules of ATOM (R155, R161). -/
def atomOk (x : OpAtom) : Bool :=
  (x.o != .incw || !x.w64) &&
  (match x.o, x.w64 with
    | .cas, true => four x.d
    | .cas, false => even x.d
    | _, true => even x.d
    | _, false => true) &&
  (match x.rel, x.p with
    | false, _ => x.s == .lane
    | true, .s => x.s == .group
    | true, .n => x.s == .gang
    | true, .g => x.s == .die || x.s == .device || x.s == .system)

/-- The operand rules that hold at the encoding (R159), and the clauses that the modifier word may carry
(R158). An event is well formed. -/
def Instr.wf : Instr → Bool
  | .mov16 _ => true
  | .add16 _ => true
  | .sub16 _ => true
  | .and16 _ => true
  | .or16 _ => true
  | .xor16 _ => true
  | .shl16 _ => true
  | .shr16 _ => true
  | .addi5 _ => true
  | .movi5 _ => true
  | .fadd16 _ => true
  | .fmul16 _ => true
  | .fmax16 _ => true
  | .fmin16 _ => true
  | .imul16 _ => true
  | .nop => true
  | .add x => modOk x.m Clauses.pU
  | .sub x => modOk x.m Clauses.pU
  | .addc x => modOk x.m Clauses.pU
  | .subb x => modOk x.m Clauses.pU
  | .minS x => modOk x.m Clauses.pU
  | .maxS x => modOk x.m Clauses.pU
  | .minU x => modOk x.m Clauses.pU
  | .maxU x => modOk x.m Clauses.pU
  | .and x => modOk x.m Clauses.pU
  | .or x => modOk x.m Clauses.pU
  | .xor x => modOk x.m Clauses.pU
  | .andn x => modOk x.m Clauses.pU
  | .orn x => modOk x.m Clauses.pU
  | .xnor x => modOk x.m Clauses.pU
  | .sel x => modOk x.m Clauses.pU
  | .bswz x => even x.a && modOk x.m Clauses.pU
  | .shl x => modOk x.m Clauses.pU
  | .shr x => modOk x.m Clauses.pU
  | .sar x => modOk x.m Clauses.pU
  | .rol x => modOk x.m Clauses.pU
  | .shl64 x => even x.d && even x.a && modOk x.m Clauses.pU
  | .shr64 x => even x.d && even x.a && modOk x.m Clauses.pU
  | .sar64 x => even x.d && even x.a && modOk x.m Clauses.pU
  | .fshf x => even x.a && modOk x.m Clauses.pU
  | .mulLo x => modOk x.m Clauses.pU
  | .mulHiS x => modOk x.m Clauses.pU
  | .mulHiU x => modOk x.m Clauses.pU
  | .madLo x => modOk x.m Clauses.pU
  | .madHiS x => modOk x.m Clauses.pU
  | .madHiU x => modOk x.m Clauses.pU
  | .mulWideS x => even x.d && modOk x.m Clauses.pU
  | .mulWideU x => even x.d && modOk x.m Clauses.pU
  | .popc x => modOk x.m Clauses.pU
  | .clz x => modOk x.m Clauses.pU
  | .ctz x => modOk x.m Clauses.pU
  | .brev x => modOk x.m Clauses.pU
  | .bfxU x => modOk x.m Clauses.pU
  | .bfxS x => modOk x.m Clauses.pU
  | .bfi x => modOk x.m Clauses.pU
  | .iabs x => modOk x.m Clauses.pU
  | .icmp x => (!x.c.wide || (even x.a && even x.b)) && modOk x.m Clauses.pU
  | .dadd x => modOk x.m (Clauses.digit x.y false)
  | .dsub x => modOk x.m (Clauses.digit x.y false)
  | .dmul x => modOk x.m (Clauses.digit x.y false)
  | .dmad x => modOk x.m (Clauses.digit x.y true)
  | .dmin x => modOk x.m (Clauses.digit x.y false)
  | .dmax x => modOk x.m (Clauses.digit x.y false)
  | .addi x => modOk x.m Clauses.pU
  | .andi x => modOk x.m Clauses.pU
  | .ori x => modOk x.m Clauses.pU
  | .xori x => modOk x.m Clauses.pU
  | .shli x => modOk x.m Clauses.pU
  | .shri x => modOk x.m Clauses.pU
  | .sari x => modOk x.m Clauses.pU
  | .cmpi x => modOk x.m Clauses.pU
  | .movw x => modOk x.m Clauses.pU
  | .movt x => modOk x.m Clauses.pU
  | .movs x => modOk x.m Clauses.pU
  | .lea x => even x.d && even x.a && modOk x.m Clauses.pU
  | .faddF32 x => modOk x.m (Clauses.float false)
  | .fsubF32 x => modOk x.m (Clauses.float false)
  | .fmulF32 x => modOk x.m (Clauses.float false)
  | .ffmaF32 x => modOk x.m (Clauses.float true)
  | .fminF32 x => modOk x.m (Clauses.float false)
  | .fmaxF32 x => modOk x.m (Clauses.float false)
  | .fcpysF32 x => modOk x.m (Clauses.float false)
  | .faddF16x2 x => modOk x.m (Clauses.float false)
  | .fsubF16x2 x => modOk x.m (Clauses.float false)
  | .fmulF16x2 x => modOk x.m (Clauses.float false)
  | .ffmaF16x2 x => modOk x.m (Clauses.float true)
  | .fminF16x2 x => modOk x.m (Clauses.float false)
  | .fmaxF16x2 x => modOk x.m (Clauses.float false)
  | .fcpysF16x2 x => modOk x.m (Clauses.float false)
  | .faddBf16x2 x => modOk x.m (Clauses.float false)
  | .fsubBf16x2 x => modOk x.m (Clauses.float false)
  | .fmulBf16x2 x => modOk x.m (Clauses.float false)
  | .ffmaBf16x2 x => modOk x.m (Clauses.float true)
  | .fminBf16x2 x => modOk x.m (Clauses.float false)
  | .fmaxBf16x2 x => modOk x.m (Clauses.float false)
  | .fcpysBf16x2 x => modOk x.m (Clauses.float false)
  | .fcmp x => modOk x.m Clauses.fcmp
  | .fclass x => modOk x.m Clauses.pU
  | .abst x => modOk x.m Clauses.pU
  | .frcp x => modOk x.m Clauses.special
  | .frsq x => modOk x.m Clauses.special
  | .fsqrt x => modOk x.m Clauses.special
  | .fexp2 x => modOk x.m Clauses.special
  | .flog2 x => modOk x.m Clauses.special
  | .fsin x => modOk x.m Clauses.special
  | .fcos x => modOk x.m Clauses.special
  | .ftanh x => modOk x.m Clauses.special
  | .cvt x => !x.dst.scaled && !x.src.scaled && modOk x.m Clauses.cvt
  | .cvts x => even x.a && ((x.dst.scaled && x.src.plainFloat) || (x.src.scaled && x.dst.plainFloat)) && modOk x.m Clauses.cvts
  | .pack x => modOk x.m Clauses.p
  | .unpk x => modOk x.m Clauses.p
  | .cbset x => modOk x.m Clauses.p
  | .cbenc x => even x.d && modOk x.m Clauses.p
  | .cbdec x => x.f.pairOk x.p && modOk x.m Clauses.p
  | .cbget x => modOk x.m Clauses.p
  | .absm x => !x.f.machine && modOk x.m Clauses.p
  | .absc x => !x.f.machine && modOk x.m Clauses.p
  | .shfl x => modOk x.m Clauses.p
  | .vote x => (x.k != .elect || x.a == 0) && modOk x.m Clauses.p
  | .red x => even x.d && (!x.o.bitwise || !x.y.isFloat) && modOk x.m Clauses.p
  | .scan x => even x.d && (!x.o.bitwise || !x.y.isFloat) && modOk x.m Clauses.p
  | .arg x => four x.d && modOk x.m Clauses.p
  | .bra x => (x.c != .always || x.a == 0)
  | .brc x => (x.c != .always || x.a == 0)
  | .call x => even x.a
  | .ret x => even x.r
  | .brx x => even x.r
  | .join => true
  | .yld => true
  | .exit => true
  | .trapx _ => true
  | .uret => true
  | .brk => true
  | .bpnd _ => true
  | .ball _ => true
  | .bany _ => true
  | .bnone _ => true
  | .mfu x => (!x.r.wide || even x.d) && modOk x.m Clauses.none
  | .mtu x => x.r.writable && (!x.r.wide || even x.a) && modOk x.m Clauses.none
  | .tile x => modOk x.m Clauses.none
  | .dmode x => modOk x.m Clauses.none
  | .dqry x => even x.d && modOk x.m Clauses.none
  | .ld x => x.z.regOk x.d && addrOk x.p x.a && modOk x.m Clauses.pU
  | .st x => x.z.regOk x.d && addrOk x.p x.a && modOk x.m Clauses.p
  | .ldx x => addrOk x.p x.a && modOk x.m Clauses.p
  | .stx x => addrOk x.p x.a && modOk x.m Clauses.p
  | .atom x => addrOk x.p x.a && atomOk x && modOk x.m Clauses.p
  | .phaseRel x => modOk x.m Clauses.p
  | .phaseAcq x => (x.named || x.a == 0) && modOk x.m Clauses.p
  | .phaseAr x => modOk x.m Clauses.p
  | .fence x => modOk x.m Clauses.p
  | .ann x => modOk x.m Clauses.p
  | .annHlp x => modOk x.m Clauses.p
  | .annq x => modOk x.m Clauses.p
  | .barInit x => modOk x.m Clauses.p
  | .barArv x => modOk x.m Clauses.p
  | .barAdd x => modOk x.m Clauses.p
  | .barTst x => modOk x.m Clauses.p
  | .barPnd x => modOk x.m Clauses.p
  | .fget x => addrOk x.p x.a && modOk x.m Clauses.p
  | .fset x => addrOk x.p x.a && modOk x.m Clauses.p
  | .fclr x => addrOk x.p x.a && x.d == 0 && modOk x.m Clauses.p
  | .tspawn x => even x.a && even x.b && modOk x.m Clauses.p
  | .partialTaskWarpTimeout _ => true
  | .tend x => modOk x.m Clauses.p
  | .fapp x => sixteen x.b && modOk x.m Clauses.p
  | .fpop x => sixteen x.d && modOk x.m Clauses.p
  | .fret x => modOk x.m Clauses.p
  | .svc x => even x.d && four x.a && modOk x.m Clauses.p
  | .rgive x => x.k != 0
  | .rclaim x => x.k != 0
  | .mresv x => even x.a && modOk x.m Clauses.p
  | .mrels x => modOk x.m Clauses.p
  | .mscl x => modOk x.m Clauses.p
  | .mlds x => modOk x.m Clauses.p
  | .mswp x => modOk x.m Clauses.p
  | .mzero x => modOk x.m Clauses.p
  | .mchn x => (1 ≤ x.k.toNat && x.k.toNat ≤ 8) && modOk x.m Clauses.p
  | .mstat x => modOk x.m Clauses.p
  | .mloop x => four x.a && modOk x.m Clauses.p
  | .mgrp x => four x.a && modOk x.m Clauses.p
  | .mdrn x => modOk x.m Clauses.p
  | .cpyL x => even x.a && eight x.b && modOk x.m Clauses.p
  | .cpyS x => even x.a && eight x.b && modOk x.m Clauses.p
  | .cpyp x => even x.a && eight x.b && modOk x.m Clauses.p
  | .cpyq x => modOk x.m Clauses.p
  | .kvg x => even x.a && eight x.b && modOk x.m Clauses.p
  | .kvmap x => even x.d && even x.a && four x.b && modOk x.m Clauses.p
  | .migr x => even x.a && eight x.b && modOk x.m Clauses.p
  | .adec x => four x.d && even x.a && four x.b && modOk x.m Clauses.p
  | .nwr x => even x.a && eight x.b && modOk x.m Clauses.p
  | .nrd x => even x.a && eight x.b && modOk x.m Clauses.p
  | .natm x => four x.d && even x.a && eight x.b && modOk x.m Clauses.p
  | .nsnd x => eight x.b && modOk x.m Clauses.p
  | .nwatch x => even x.a && modOk x.m Clauses.p
  | .strd x => eight x.b && modOk x.m Clauses.p
  | .stwr x => eight x.b && modOk x.m Clauses.p
  | .stfl x => eight x.b && modOk x.m Clauses.p
  | .mfsr x => (!x.r.wide || even x.d)
  | .mtsr x => x.r.writable && (!x.r.wide || even x.a)
  | .tret => true
  | .csave x => even x.a && eight x.b
  | .cload x => even x.a && eight x.b
  | .cmigr x => even x.a && eight x.b
  | .tlbinv x => even x.a
  | .fqansResume x => even x.d
  | .fqansTerminate x => even x.d
  | .kslotLoad x => even x.d
  | .kslotZero x => even x.d
  | .kslotQuery x => even x.d
  | .scrubStart x => even x.d && four x.b
  | .scrubQuery x => even x.d && four x.b
  | .partAssign _ => true
  | .partReset _ => true
  | .partRelease _ => true
  | .partQuery _ => true
  | .svcret x => even x.b
  | .fmapMap x => even x.a
  | .fmapUnmap x => even x.a
  | .asidqEnter x => even x.d
  | .asidqQuery x => even x.d
  | .asidqLeave x => even x.d
  | .loadLanding _ => true
  | .closureRun _ _ _ => true
  | .yldTimeout _ _ => true
  | .warpEnd _ _ => true
  | .releaseLanding _ => true
  | .forcedAcquire _ => true
  | .homeEngineTransaction _ => true
  | .annDriverStep _ => true
  | .matrixCommandHead _ => true
  | .matrixPass _ => true
  | .drainCompletion _ => true
  | .copyCompletion _ => true
  | .kvgCompletion _ => true
  | .migrCompletion _ _ => true
  | .adecCompletion _ => true
  | .groupEnd _ => true
  | .launchCompletionRecord _ => true
  | .networkCompletion _ _ _ => true
  | .networkTimeout _ => true
  | .storageCompletion _ _ _ _ => true
  | .storageTimeout _ => true
  | .remoteWriteArrival _ _ => true
  | .remoteReadArrival _ _ => true
  | .remoteAtomicArrival _ _ _ _ _ => true
  | .endpointMessageArrival _ _ _ => true
  | .watchRegistrationArrival _ _ => true
  | .watchNotificationArrival _ _ => true
  | .watchCancel _ _ => true
  | .launch _ _ _ => true
  | .append _ _ _ => true
  | .bindHold _ _ _ => true
  | .bindCommit _ _ => true
  | .bindFree _ _ => true
  | .bindEvict _ _ _ => true
  | .admissionBackoffExpiry _ _ => true
  | .windowCompaction _ _ _ => true
  | .priorityAging _ => true
  | .evictionWaitExpiry _ => true
  | .pageWalk _ _ _ => true
  | .tlbinvCompletion _ => true
  | .kslotZeroCompletion _ => true
  | .fmapCompletion _ => true
  | .contextImageCompletion _ => true
  | .scrubProgress _ => true
  | .scrubPause _ => true
  | .scrubResume _ => true
  | .sagThresholdCrossing _ _ => true
  | .sagStepDown _ => true
  | .powerGoodBoot => true
  | .moduleReset => true
  | .readyFunctionUp _ _ => true
  | .portLinkUp _ => true
  | .dhcpv6Reply _ _ => true
  | .addressFallbackTimeout _ => true
  | .announceTimer => true
  | .announceAck _ => true
  | .mgmtQuery _ => true
  | .preset _ _ => true
  | .mreset _ => true
  | .fwstage _ _ => true
  | .unsupportedPacketDrop _ => true
  | .crcFailedPacket _ => true

/-- Whether the row has an encoding: the others are events of the machine. -/
def Instr.encoded : Instr → Bool
  | .mov16 _ => true
  | .add16 _ => true
  | .sub16 _ => true
  | .and16 _ => true
  | .or16 _ => true
  | .xor16 _ => true
  | .shl16 _ => true
  | .shr16 _ => true
  | .addi5 _ => true
  | .movi5 _ => true
  | .fadd16 _ => true
  | .fmul16 _ => true
  | .fmax16 _ => true
  | .fmin16 _ => true
  | .imul16 _ => true
  | .nop => true
  | .add _ => true
  | .sub _ => true
  | .addc _ => true
  | .subb _ => true
  | .minS _ => true
  | .maxS _ => true
  | .minU _ => true
  | .maxU _ => true
  | .and _ => true
  | .or _ => true
  | .xor _ => true
  | .andn _ => true
  | .orn _ => true
  | .xnor _ => true
  | .sel _ => true
  | .bswz _ => true
  | .shl _ => true
  | .shr _ => true
  | .sar _ => true
  | .rol _ => true
  | .shl64 _ => true
  | .shr64 _ => true
  | .sar64 _ => true
  | .fshf _ => true
  | .mulLo _ => true
  | .mulHiS _ => true
  | .mulHiU _ => true
  | .madLo _ => true
  | .madHiS _ => true
  | .madHiU _ => true
  | .mulWideS _ => true
  | .mulWideU _ => true
  | .popc _ => true
  | .clz _ => true
  | .ctz _ => true
  | .brev _ => true
  | .bfxU _ => true
  | .bfxS _ => true
  | .bfi _ => true
  | .iabs _ => true
  | .icmp _ => true
  | .dadd _ => true
  | .dsub _ => true
  | .dmul _ => true
  | .dmad _ => true
  | .dmin _ => true
  | .dmax _ => true
  | .addi _ => true
  | .andi _ => true
  | .ori _ => true
  | .xori _ => true
  | .shli _ => true
  | .shri _ => true
  | .sari _ => true
  | .cmpi _ => true
  | .movw _ => true
  | .movt _ => true
  | .movs _ => true
  | .lea _ => true
  | .faddF32 _ => true
  | .fsubF32 _ => true
  | .fmulF32 _ => true
  | .ffmaF32 _ => true
  | .fminF32 _ => true
  | .fmaxF32 _ => true
  | .fcpysF32 _ => true
  | .faddF16x2 _ => true
  | .fsubF16x2 _ => true
  | .fmulF16x2 _ => true
  | .ffmaF16x2 _ => true
  | .fminF16x2 _ => true
  | .fmaxF16x2 _ => true
  | .fcpysF16x2 _ => true
  | .faddBf16x2 _ => true
  | .fsubBf16x2 _ => true
  | .fmulBf16x2 _ => true
  | .ffmaBf16x2 _ => true
  | .fminBf16x2 _ => true
  | .fmaxBf16x2 _ => true
  | .fcpysBf16x2 _ => true
  | .fcmp _ => true
  | .fclass _ => true
  | .abst _ => true
  | .frcp _ => true
  | .frsq _ => true
  | .fsqrt _ => true
  | .fexp2 _ => true
  | .flog2 _ => true
  | .fsin _ => true
  | .fcos _ => true
  | .ftanh _ => true
  | .cvt _ => true
  | .cvts _ => true
  | .pack _ => true
  | .unpk _ => true
  | .cbset _ => true
  | .cbenc _ => true
  | .cbdec _ => true
  | .cbget _ => true
  | .absm _ => true
  | .absc _ => true
  | .shfl _ => true
  | .vote _ => true
  | .red _ => true
  | .scan _ => true
  | .arg _ => true
  | .bra _ => true
  | .brc _ => true
  | .call _ => true
  | .ret _ => true
  | .brx _ => true
  | .join => true
  | .yld => true
  | .exit => true
  | .trapx _ => true
  | .uret => true
  | .brk => true
  | .bpnd _ => true
  | .ball _ => true
  | .bany _ => true
  | .bnone _ => true
  | .mfu _ => true
  | .mtu _ => true
  | .tile _ => true
  | .dmode _ => true
  | .dqry _ => true
  | .ld _ => true
  | .st _ => true
  | .ldx _ => true
  | .stx _ => true
  | .atom _ => true
  | .phaseRel _ => true
  | .phaseAcq _ => true
  | .phaseAr _ => true
  | .fence _ => true
  | .ann _ => true
  | .annHlp _ => true
  | .annq _ => true
  | .barInit _ => true
  | .barArv _ => true
  | .barAdd _ => true
  | .barTst _ => true
  | .barPnd _ => true
  | .fget _ => true
  | .fset _ => true
  | .fclr _ => true
  | .tspawn _ => true
  | .partialTaskWarpTimeout _ => false
  | .tend _ => true
  | .fapp _ => true
  | .fpop _ => true
  | .fret _ => true
  | .svc _ => true
  | .rgive _ => true
  | .rclaim _ => true
  | .mresv _ => true
  | .mrels _ => true
  | .mscl _ => true
  | .mlds _ => true
  | .mswp _ => true
  | .mzero _ => true
  | .mchn _ => true
  | .mstat _ => true
  | .mloop _ => true
  | .mgrp _ => true
  | .mdrn _ => true
  | .cpyL _ => true
  | .cpyS _ => true
  | .cpyp _ => true
  | .cpyq _ => true
  | .kvg _ => true
  | .kvmap _ => true
  | .migr _ => true
  | .adec _ => true
  | .nwr _ => true
  | .nrd _ => true
  | .natm _ => true
  | .nsnd _ => true
  | .nwatch _ => true
  | .strd _ => true
  | .stwr _ => true
  | .stfl _ => true
  | .mfsr _ => true
  | .mtsr _ => true
  | .tret => true
  | .csave _ => true
  | .cload _ => true
  | .cmigr _ => true
  | .tlbinv _ => true
  | .fqansResume _ => true
  | .fqansTerminate _ => true
  | .kslotLoad _ => true
  | .kslotZero _ => true
  | .kslotQuery _ => true
  | .scrubStart _ => true
  | .scrubQuery _ => true
  | .partAssign _ => true
  | .partReset _ => true
  | .partRelease _ => true
  | .partQuery _ => true
  | .svcret _ => true
  | .fmapMap _ => true
  | .fmapUnmap _ => true
  | .asidqEnter _ => true
  | .asidqQuery _ => true
  | .asidqLeave _ => true
  | .loadLanding _ => false
  | .closureRun _ _ _ => false
  | .yldTimeout _ _ => false
  | .warpEnd _ _ => false
  | .releaseLanding _ => false
  | .forcedAcquire _ => false
  | .homeEngineTransaction _ => false
  | .annDriverStep _ => false
  | .matrixCommandHead _ => false
  | .matrixPass _ => false
  | .drainCompletion _ => false
  | .copyCompletion _ => false
  | .kvgCompletion _ => false
  | .migrCompletion _ _ => false
  | .adecCompletion _ => false
  | .groupEnd _ => false
  | .launchCompletionRecord _ => false
  | .networkCompletion _ _ _ => false
  | .networkTimeout _ => false
  | .storageCompletion _ _ _ _ => false
  | .storageTimeout _ => false
  | .remoteWriteArrival _ _ => false
  | .remoteReadArrival _ _ => false
  | .remoteAtomicArrival _ _ _ _ _ => false
  | .endpointMessageArrival _ _ _ => false
  | .watchRegistrationArrival _ _ => false
  | .watchNotificationArrival _ _ => false
  | .watchCancel _ _ => false
  | .launch _ _ _ => false
  | .append _ _ _ => false
  | .bindHold _ _ _ => false
  | .bindCommit _ _ => false
  | .bindFree _ _ => false
  | .bindEvict _ _ _ => false
  | .admissionBackoffExpiry _ _ => false
  | .windowCompaction _ _ _ => false
  | .priorityAging _ => false
  | .evictionWaitExpiry _ => false
  | .pageWalk _ _ _ => false
  | .tlbinvCompletion _ => false
  | .kslotZeroCompletion _ => false
  | .fmapCompletion _ => false
  | .contextImageCompletion _ => false
  | .scrubProgress _ => false
  | .scrubPause _ => false
  | .scrubResume _ => false
  | .sagThresholdCrossing _ _ => false
  | .sagStepDown _ => false
  | .powerGoodBoot => false
  | .moduleReset => false
  | .readyFunctionUp _ _ => false
  | .portLinkUp _ => false
  | .dhcpv6Reply _ _ => false
  | .addressFallbackTimeout _ => false
  | .announceTimer => false
  | .announceAck _ => false
  | .mgmtQuery _ => false
  | .preset _ _ => false
  | .mreset _ => false
  | .fwstage _ _ => false
  | .unsupportedPacketDrop _ => false
  | .crcFailedPacket _ => false

/-- Whether the decoder yields this row for its own word: several rows of one word are told apart by the
control word in a register when the instruction issues (R290 to R296). -/
def Instr.canonical : Instr → Bool
  | .fqansTerminate _ => false
  | .kslotZero _ => false
  | .kslotQuery _ => false
  | .scrubQuery _ => false
  | .partReset _ => false
  | .partRelease _ => false
  | .partQuery _ => false
  | .fmapUnmap _ => false
  | .asidqQuery _ => false
  | .asidqLeave _ => false
  | i => i.encoded

end Sys2Proof
end

