-- ==== Sys2Proof/Decode.lean ====
section
/-! DEFINITION. The decoder, total on any bytes and rejecting by name (R152 to R161), and the encoder, written
from the same encoding tables. Each form of word is unpacked into a record of its fields and packed from it. -/

namespace Sys2Proof

/-- Bits 6:1 of a 32-bit word: its major opcode (R154). -/
def majorOf (w : BitVec 32) : BitVec 6 := w.extractLsb' 1 6

/-- The fields of form A (R154). -/
structure RawA where
  maj : BitVec 6
  d : Reg
  a : Reg
  b : Reg
  min : BitVec 3
  t : Bool
  deriving DecidableEq, Repr
/-- The fields of form E. -/
structure RawE where
  maj : BitVec 6
  d : Reg
  a : Reg
  b : Reg
  sub : BitVec 4
  deriving DecidableEq, Repr
/-- The fields of form I. -/
structure RawI where
  maj : BitVec 6
  d : Reg
  a : Reg
  imm : BitVec 11
  deriving DecidableEq, Repr
/-- The fields of form W. -/
structure RawW where
  maj : BitVec 6
  d : Reg
  imm : BitVec 16
  min2 : BitVec 2
  deriving DecidableEq, Repr
/-- The fields of form B. -/
structure RawB where
  maj : BitVec 6
  a : Reg
  cond : BitVec 3
  off : BitVec 15
  deriving DecidableEq, Repr
/-- The fields of form M. -/
structure RawM where
  maj : BitVec 6
  d : Reg
  a : Reg
  space : BitVec 2
  size : BitVec 3
  off : BitVec 6
  deriving DecidableEq, Repr
/-- The fields of form C. -/
structure RawC where
  maj : BitVec 6
  d : Reg
  a : Reg
  dfmt : BitVec 5
  sfmt : BitVec 5
  sat : Bool
  deriving DecidableEq, Repr
/-- The fields of an ATOM word (R155). -/
structure RawT where
  maj : BitVec 6
  d : Reg
  a : Reg
  space : BitVec 2
  w64 : Bool
  rel : Bool
  scope : BitVec 3
  op : BitVec 4
  deriving DecidableEq, Repr
/-- The fields of an ANN word (R155). -/
structure RawN where
  maj : BitVec 6
  d : BitVec 6
  a : BitVec 6
  b : BitVec 5
  space : BitVec 2
  ord : BitVec 2
  op : BitVec 4
  deriving DecidableEq, Repr

/-- A form A word from its fields. -/
def packA (r : RawA) : BitVec 32 := BitVec.ofBool r.t ++ r.min ++ r.b ++ r.a ++ r.d ++ r.maj ++ 1#1
/-- The fields of a form A word. -/
def unpackA (w : BitVec 32) : RawA :=
  ⟨w.extractLsb' 1 6, w.extractLsb' 7 7, w.extractLsb' 14 7, w.extractLsb' 21 7, w.extractLsb' 28 3, w.getLsbD 31⟩
/-- A form E word from its fields. -/
def packE (r : RawE) : BitVec 32 := r.sub ++ r.b ++ r.a ++ r.d ++ r.maj ++ 1#1
/-- The fields of a form E word. -/
def unpackE (w : BitVec 32) : RawE :=
  ⟨w.extractLsb' 1 6, w.extractLsb' 7 7, w.extractLsb' 14 7, w.extractLsb' 21 7, w.extractLsb' 28 4⟩
/-- A form I word from its fields. -/
def packI (r : RawI) : BitVec 32 := r.imm ++ r.a ++ r.d ++ r.maj ++ 1#1
/-- The fields of a form I word. -/
def unpackI (w : BitVec 32) : RawI :=
  ⟨w.extractLsb' 1 6, w.extractLsb' 7 7, w.extractLsb' 14 7, w.extractLsb' 21 11⟩
/-- A form W word from its fields. -/
def packW (r : RawW) : BitVec 32 := r.min2 ++ r.imm ++ r.d ++ r.maj ++ 1#1
/-- The fields of a form W word. -/
def unpackW (w : BitVec 32) : RawW :=
  ⟨w.extractLsb' 1 6, w.extractLsb' 7 7, w.extractLsb' 14 16, w.extractLsb' 30 2⟩
/-- A form B word from its fields. -/
def packB (r : RawB) : BitVec 32 := r.off ++ r.cond ++ r.a ++ r.maj ++ 1#1
/-- The fields of a form B word. -/
def unpackB (w : BitVec 32) : RawB :=
  ⟨w.extractLsb' 1 6, w.extractLsb' 7 7, w.extractLsb' 14 3, w.extractLsb' 17 15⟩
/-- A form M word from its fields. -/
def packM (r : RawM) : BitVec 32 := r.off ++ r.size ++ r.space ++ r.a ++ r.d ++ r.maj ++ 1#1
/-- The fields of a form M word. -/
def unpackM (w : BitVec 32) : RawM :=
  ⟨w.extractLsb' 1 6, w.extractLsb' 7 7, w.extractLsb' 14 7, w.extractLsb' 21 2, w.extractLsb' 23 3,
    w.extractLsb' 26 6⟩
/-- A form C word from its fields. -/
def packC (r : RawC) : BitVec 32 := BitVec.ofBool r.sat ++ r.sfmt ++ r.dfmt ++ r.a ++ r.d ++ r.maj ++ 1#1
/-- The fields of a form C word. -/
def unpackC (w : BitVec 32) : RawC :=
  ⟨w.extractLsb' 1 6, w.extractLsb' 7 7, w.extractLsb' 14 7, w.extractLsb' 21 5, w.extractLsb' 26 5,
    w.getLsbD 31⟩
/-- An ATOM word from its fields. -/
def packT (r : RawT) : BitVec 32 :=
  r.op ++ r.scope ++ BitVec.ofBool r.rel ++ BitVec.ofBool r.w64 ++ r.space ++ r.a ++ r.d ++ r.maj ++ 1#1
/-- The fields of an ATOM word. -/
def unpackT (w : BitVec 32) : RawT :=
  ⟨w.extractLsb' 1 6, w.extractLsb' 7 7, w.extractLsb' 14 7, w.extractLsb' 21 2, w.getLsbD 23, w.getLsbD 24,
    w.extractLsb' 25 3, w.extractLsb' 28 4⟩
/-- An ANN word from its fields. -/
def packN (r : RawN) : BitVec 32 :=
  r.op ++ r.ord ++ r.space ++ r.b ++ r.a ++ r.d ++ r.maj ++ 1#1
/-- The fields of an ANN word. -/
def unpackN (w : BitVec 32) : RawN :=
  ⟨w.extractLsb' 1 6, w.extractLsb' 7 6, w.extractLsb' 13 6, w.extractLsb' 19 5, w.extractLsb' 24 2,
    w.extractLsb' 26 2, w.extractLsb' 28 4⟩

/-- SUB of FCMP is 5 x TY + cond (R161). -/
def subOfFcmp (y : FTy) (c : FCond) : BitVec 4 := BitVec.ofNat 4 (5 * y.code.toNat + c.code.toNat)
/-- The type and condition of FCMP from SUB 0 to 14. -/
def fcmpOfSub (s : BitVec 4) : Option (FTy × FCond) :=
  (FTy.ofCode (BitVec.ofNat 2 (s.toNat / 5))).bind fun y =>
    (FCond.ofCode (BitVec.ofNat 4 (s.toNat % 5))).map fun c => (y, c)

/-- Major 0x02 of the opcode map (R161). -/
def decMaj02 (w : RawA) (m : Option Modifier) : Option Instr :=
  match w.min.toNat with
  | 0 => some (.add ⟨w.d, w.a, w.b, w.t, m⟩)
  | 1 => some (.sub ⟨w.d, w.a, w.b, w.t, m⟩)
  | 2 => some (.addc ⟨w.d, w.a, w.b, w.t, m⟩)
  | 3 => some (.subb ⟨w.d, w.a, w.b, w.t, m⟩)
  | 4 => some (.minS ⟨w.d, w.a, w.b, w.t, m⟩)
  | 5 => some (.maxS ⟨w.d, w.a, w.b, w.t, m⟩)
  | 6 => some (.minU ⟨w.d, w.a, w.b, w.t, m⟩)
  | _ => some (.maxU ⟨w.d, w.a, w.b, w.t, m⟩)

/-- Major 0x03 of the opcode map (R161). -/
def decMaj03 (w : RawA) (m : Option Modifier) : Option Instr :=
  match w.min.toNat with
  | 0 => some (.and ⟨w.d, w.a, w.b, w.t, m⟩)
  | 1 => some (.or ⟨w.d, w.a, w.b, w.t, m⟩)
  | 2 => some (.xor ⟨w.d, w.a, w.b, w.t, m⟩)
  | 3 => some (.andn ⟨w.d, w.a, w.b, w.t, m⟩)
  | 4 => some (.orn ⟨w.d, w.a, w.b, w.t, m⟩)
  | 5 => some (.xnor ⟨w.d, w.a, w.b, w.t, m⟩)
  | 6 => some (.sel ⟨w.d, w.a, w.b, w.t, m⟩)
  | _ => some (.bswz ⟨w.d, w.a, w.b, w.t, m⟩)

/-- Major 0x04 of the opcode map (R161). -/
def decMaj04 (w : RawA) (m : Option Modifier) : Option Instr :=
  match w.min.toNat with
  | 0 => some (.shl ⟨w.d, w.a, w.b, w.t, m⟩)
  | 1 => some (.shr ⟨w.d, w.a, w.b, w.t, m⟩)
  | 2 => some (.sar ⟨w.d, w.a, w.b, w.t, m⟩)
  | 3 => some (.rol ⟨w.d, w.a, w.b, w.t, m⟩)
  | 4 => some (.shl64 ⟨w.d, w.a, w.b, w.t, m⟩)
  | 5 => some (.shr64 ⟨w.d, w.a, w.b, w.t, m⟩)
  | 6 => some (.sar64 ⟨w.d, w.a, w.b, w.t, m⟩)
  | _ => some (.fshf ⟨w.d, w.a, w.b, w.t, m⟩)

/-- Major 0x05 of the opcode map (R161). -/
def decMaj05 (w : RawA) (m : Option Modifier) : Option Instr :=
  match w.min.toNat with
  | 0 => some (.mulLo ⟨w.d, w.a, w.b, w.t, m⟩)
  | 1 => some (.mulHiS ⟨w.d, w.a, w.b, w.t, m⟩)
  | 2 => some (.mulHiU ⟨w.d, w.a, w.b, w.t, m⟩)
  | 3 => some (.madLo ⟨w.d, w.a, w.b, w.t, m⟩)
  | 4 => some (.madHiS ⟨w.d, w.a, w.b, w.t, m⟩)
  | 5 => some (.madHiU ⟨w.d, w.a, w.b, w.t, m⟩)
  | 6 => some (.mulWideS ⟨w.d, w.a, w.b, w.t, m⟩)
  | _ => some (.mulWideU ⟨w.d, w.a, w.b, w.t, m⟩)

/-- Major 0x06 of the opcode map (R161). -/
def decMaj06 (w : RawA) (m : Option Modifier) : Option Instr :=
  match w.min.toNat with
  | 0 => (if w.b = 0 then some ⟨w.d, w.a, w.t, m⟩ else none).map Instr.popc
  | 1 => (if w.b = 0 then some ⟨w.d, w.a, w.t, m⟩ else none).map Instr.clz
  | 2 => (if w.b = 0 then some ⟨w.d, w.a, w.t, m⟩ else none).map Instr.ctz
  | 3 => (if w.b = 0 then some ⟨w.d, w.a, w.t, m⟩ else none).map Instr.brev
  | 4 => some (.bfxU ⟨w.d, w.a, w.b, w.t, m⟩)
  | 5 => some (.bfxS ⟨w.d, w.a, w.b, w.t, m⟩)
  | 6 => some (.bfi ⟨w.d, w.a, w.b, w.t, m⟩)
  | _ => (if w.b = 0 then some ⟨w.d, w.a, w.t, m⟩ else none).map Instr.iabs

/-- Major 0x07 of the opcode map (R161). -/
def decMaj07 (w : RawA) (m : Option Modifier) : Option Instr :=
  ((IcmpCond.ofCode w.min).map fun c => ⟨c, w.d, w.a, w.b, w.t, m⟩).map Instr.icmp

/-- Major 0x08 of the opcode map (R161). -/
def decMaj08 (w : RawA) (m : Option Modifier) : Option Instr :=
  ((DigTy.ofCode w.min).map fun y => ⟨y, w.d, w.a, w.b, w.t, m⟩).map Instr.dadd

/-- Major 0x09 of the opcode map (R161). -/
def decMaj09 (w : RawA) (m : Option Modifier) : Option Instr :=
  ((DigTy.ofCode w.min).map fun y => ⟨y, w.d, w.a, w.b, w.t, m⟩).map Instr.dsub

/-- Major 0x0A of the opcode map (R161). -/
def decMaj0A (w : RawA) (m : Option Modifier) : Option Instr :=
  if w.t then ((DigTy.ofCode w.min).map fun y => ⟨y, w.d, w.a, w.b, m⟩).map Instr.dmad
  else ((DigTy.ofCode w.min).map fun y => ⟨y, w.d, w.a, w.b, m⟩).map Instr.dmul

/-- Major 0x0B of the opcode map (R161). -/
def decMaj0B (w : RawA) (m : Option Modifier) : Option Instr :=
  if w.t then ((DigTy.ofCode w.min).map fun y => ⟨y, w.d, w.a, w.b, m⟩).map Instr.dmax
  else ((DigTy.ofCode w.min).map fun y => ⟨y, w.d, w.a, w.b, m⟩).map Instr.dmin

/-- Major 0x0C of the opcode map (R161). -/
def decMaj0C (w : RawI) (m : Option Modifier) : Option Instr :=
  some (.addi ⟨w.d, w.a, w.imm, m⟩)

/-- Major 0x0D of the opcode map (R161). -/
def decMaj0D (w : RawI) (m : Option Modifier) : Option Instr :=
  some (.andi ⟨w.d, w.a, w.imm, m⟩)

/-- Major 0x0E of the opcode map (R161). -/
def decMaj0E (w : RawI) (m : Option Modifier) : Option Instr :=
  some (.ori ⟨w.d, w.a, w.imm, m⟩)

/-- Major 0x0F of the opcode map (R161). -/
def decMaj0F (w : RawI) (m : Option Modifier) : Option Instr :=
  some (.xori ⟨w.d, w.a, w.imm, m⟩)

/-- Major 0x10 of the opcode map (R161). -/
def decMaj10 (w : RawI) (m : Option Modifier) : Option Instr :=
  match (w.imm.extractLsb' 5 6).toNat with
  | 0 => some (.shli ⟨w.d, w.a, w.imm.extractLsb' 0 5, m⟩)
  | 1 => some (.shri ⟨w.d, w.a, w.imm.extractLsb' 0 5, m⟩)
  | 2 => some (.sari ⟨w.d, w.a, w.imm.extractLsb' 0 5, m⟩)
  | _ => none

/-- Major 0x11 of the opcode map (R161). -/
def decMaj11 (w : RawI) (m : Option Modifier) : Option Instr :=
  ((CmpiCond.ofCode (w.imm.extractLsb' 8 3)).map fun c => ⟨c, w.d, w.a, w.imm.extractLsb' 0 8, m⟩).map Instr.cmpi

/-- Major 0x12 of the opcode map (R161). -/
def decMaj12 (w : RawW) (m : Option Modifier) : Option Instr :=
  match w.min2.toNat with
  | 0 => some (.movw ⟨w.d, w.imm, m⟩)
  | 1 => some (.movt ⟨w.d, w.imm, m⟩)
  | 2 => some (.movs ⟨w.d, w.imm, m⟩)
  | _ => none

/-- Major 0x13 of the opcode map (R161). -/
def decMaj13 (w : RawA) (m : Option Modifier) : Option Instr :=
  (if w.min.extractLsb' 2 1 = 0 then some ⟨w.min.extractLsb' 0 2, w.d, w.a, w.b, w.t, m⟩ else none).map Instr.lea

/-- Major 0x14 of the opcode map (R161). -/
def decMaj14 (w : RawA) (m : Option Modifier) : Option Instr :=
  match w.min.toNat with
  | 0 => some (.faddF32 ⟨w.d, w.a, w.b, w.t, m⟩)
  | 1 => some (.fsubF32 ⟨w.d, w.a, w.b, w.t, m⟩)
  | 2 => some (.fmulF32 ⟨w.d, w.a, w.b, w.t, m⟩)
  | 3 => some (.ffmaF32 ⟨w.d, w.a, w.b, w.t, m⟩)
  | 4 => some (.fminF32 ⟨w.d, w.a, w.b, w.t, m⟩)
  | 5 => some (.fmaxF32 ⟨w.d, w.a, w.b, w.t, m⟩)
  | 6 => some (.fcpysF32 ⟨w.d, w.a, w.b, w.t, m⟩)
  | _ => none

/-- Major 0x15 of the opcode map (R161). -/
def decMaj15 (w : RawA) (m : Option Modifier) : Option Instr :=
  match w.min.toNat with
  | 0 => some (.faddF16x2 ⟨w.d, w.a, w.b, w.t, m⟩)
  | 1 => some (.fsubF16x2 ⟨w.d, w.a, w.b, w.t, m⟩)
  | 2 => some (.fmulF16x2 ⟨w.d, w.a, w.b, w.t, m⟩)
  | 3 => some (.ffmaF16x2 ⟨w.d, w.a, w.b, w.t, m⟩)
  | 4 => some (.fminF16x2 ⟨w.d, w.a, w.b, w.t, m⟩)
  | 5 => some (.fmaxF16x2 ⟨w.d, w.a, w.b, w.t, m⟩)
  | 6 => some (.fcpysF16x2 ⟨w.d, w.a, w.b, w.t, m⟩)
  | _ => none

/-- Major 0x16 of the opcode map (R161). -/
def decMaj16 (w : RawA) (m : Option Modifier) : Option Instr :=
  match w.min.toNat with
  | 0 => some (.faddBf16x2 ⟨w.d, w.a, w.b, w.t, m⟩)
  | 1 => some (.fsubBf16x2 ⟨w.d, w.a, w.b, w.t, m⟩)
  | 2 => some (.fmulBf16x2 ⟨w.d, w.a, w.b, w.t, m⟩)
  | 3 => some (.ffmaBf16x2 ⟨w.d, w.a, w.b, w.t, m⟩)
  | 4 => some (.fminBf16x2 ⟨w.d, w.a, w.b, w.t, m⟩)
  | 5 => some (.fmaxBf16x2 ⟨w.d, w.a, w.b, w.t, m⟩)
  | 6 => some (.fcpysBf16x2 ⟨w.d, w.a, w.b, w.t, m⟩)
  | _ => none

/-- Major 0x17 of the opcode map (R161). -/
def decMaj17 (w : RawE) (m : Option Modifier) : Option Instr :=
  if w.sub = 15 then
    if w.b.extractLsb' 3 4 = 0 then
      (FTy.ofCode (w.b.extractLsb' 0 2)).map fun y =>
        if w.b.getLsbD 2 then .abst ⟨y, w.d, w.a, m⟩ else .fclass ⟨y, w.d, w.a, m⟩
    else none
  else
    (fcmpOfSub w.sub).map fun p => .fcmp ⟨p.1, p.2, w.d, w.a, w.b, m⟩

/-- Major 0x18 of the opcode map (R161). -/
def decMaj18 (w : RawA) (m : Option Modifier) : Option Instr :=
  match w.min.toNat with
  | 0 => (if w.b.extractLsb' 2 5 = 0 then (FTy.ofCode (w.b.extractLsb' 0 2)).map fun y => ⟨y, w.d, w.a, w.t, m⟩ else none).map Instr.frcp
  | 1 => (if w.b.extractLsb' 2 5 = 0 then (FTy.ofCode (w.b.extractLsb' 0 2)).map fun y => ⟨y, w.d, w.a, w.t, m⟩ else none).map Instr.frsq
  | 2 => (if w.b.extractLsb' 2 5 = 0 then (FTy.ofCode (w.b.extractLsb' 0 2)).map fun y => ⟨y, w.d, w.a, w.t, m⟩ else none).map Instr.fsqrt
  | 3 => (if w.b.extractLsb' 2 5 = 0 then (FTy.ofCode (w.b.extractLsb' 0 2)).map fun y => ⟨y, w.d, w.a, w.t, m⟩ else none).map Instr.fexp2
  | 4 => (if w.b.extractLsb' 2 5 = 0 then (FTy.ofCode (w.b.extractLsb' 0 2)).map fun y => ⟨y, w.d, w.a, w.t, m⟩ else none).map Instr.flog2
  | 5 => (if w.b.extractLsb' 2 5 = 0 then (FTy.ofCode (w.b.extractLsb' 0 2)).map fun y => ⟨y, w.d, w.a, w.t, m⟩ else none).map Instr.fsin
  | 6 => (if w.b.extractLsb' 2 5 = 0 then (FTy.ofCode (w.b.extractLsb' 0 2)).map fun y => ⟨y, w.d, w.a, w.t, m⟩ else none).map Instr.fcos
  | _ => (if w.b.extractLsb' 2 5 = 0 then (FTy.ofCode (w.b.extractLsb' 0 2)).map fun y => ⟨y, w.d, w.a, w.t, m⟩ else none).map Instr.ftanh

/-- Major 0x19 of the opcode map (R161). -/
def decMaj19 (w : RawC) (m : Option Modifier) : Option Instr :=
  ((Fmt.ofCode w.dfmt).bind fun dst => (Fmt.ofCode w.sfmt).map fun src => ⟨dst, src, w.sat, w.d, w.a, m⟩).map Instr.cvt

/-- Major 0x1A of the opcode map (R161). -/
def decMaj1A (w : RawC) (m : Option Modifier) : Option Instr :=
  ((Fmt.ofCode w.dfmt).bind fun dst => (Fmt.ofCode w.sfmt).map fun src => ⟨dst, src, w.sat, w.d, w.a, m⟩).map Instr.cvts

/-- Major 0x1B of the opcode map (R161). -/
def decMaj1B (w : RawE) (m : Option Modifier) : Option Instr :=
  match w.sub.toNat with
  | 0 => some (.pack ⟨w.d, w.a, w.b, m⟩)
  | 1 => some (.unpk ⟨w.d, w.a, w.b, m⟩)
  | _ => none

/-- Major 0x1C of the opcode map (R161). -/
def decMaj1C (w : RawE) (m : Option Modifier) : Option Instr :=
  match w.sub.toNat with
  | 0 => (if w.d = 0 ∧ w.b.extractLsb' 3 4 = 0 then some ⟨w.b.extractLsb' 0 3, w.a, m⟩ else none).map Instr.cbset
  | 1 => (if w.b.extractLsb' 4 3 = 0 then (FTy.ofCode (w.b.extractLsb' 2 2)).bind fun s => (CbFmt.ofCode (w.b.extractLsb' 0 2)).map fun f => ⟨s, f, w.d, w.a, m⟩ else none).map Instr.cbenc
  | 2 => (if w.b.extractLsb' 5 2 = 0 then (CbFmt.ofCode (w.b.extractLsb' 0 2)).map fun f => ⟨w.b.extractLsb' 2 3, f, w.d, w.a, m⟩ else none).map Instr.cbdec
  | 3 => (if w.a = 0 ∧ w.b.extractLsb' 3 4 = 0 then some ⟨w.b.extractLsb' 0 3, w.d, m⟩ else none).map Instr.cbget
  | _ => none

/-- Major 0x1D of the opcode map (R161). -/
def decMaj1D (w : RawE) (m : Option Modifier) : Option Instr :=
  match w.sub.toNat with
  | 0 => (if w.b.extractLsb' 5 2 = 0 then (Fmt.ofCode (w.b.extractLsb' 0 5)).map fun f => ⟨f, w.d, w.a, m⟩ else none).map Instr.absm
  | 1 => (if w.b.extractLsb' 5 2 = 0 then (Fmt.ofCode (w.b.extractLsb' 0 5)).map fun f => ⟨f, w.d, w.a, m⟩ else none).map Instr.absc
  | _ => none

/-- Major 0x1E of the opcode map (R161). -/
def decMaj1E (w : RawA) (m : Option Modifier) : Option Instr :=
  ((ShflMode.ofCode w.min).map fun k => ⟨k, w.d, w.a, w.b, w.t, m⟩).map Instr.shfl

/-- Major 0x1F of the opcode map (R161). -/
def decMaj1F (w : RawA) (m : Option Modifier) : Option Instr :=
  (if w.b = 0 then (VoteMode.ofCode w.min).map fun k => ⟨k, w.d, w.a, w.t, m⟩ else none).map Instr.vote

/-- Major 0x20 of the opcode map (R161). -/
def decMaj20 (w : RawE) (m : Option Modifier) : Option Instr :=
  (if w.b.extractLsb' 3 4 = 0 then (RedOp.ofCode w.sub).bind fun o => (RedTy.ofCode (w.b.extractLsb' 0 3)).map fun y => ⟨o, y, w.d, w.a, m⟩ else none).map Instr.red

/-- Major 0x21 of the opcode map (R161). -/
def decMaj21 (w : RawE) (m : Option Modifier) : Option Instr :=
  (if w.b.extractLsb' 3 4 = 0 then (RedOp.ofCode w.sub).bind fun o => (RedTy.ofCode (w.b.extractLsb' 0 3)).map fun y => ⟨o, y, w.d, w.a, m⟩ else none).map Instr.scan

/-- Major 0x22 of the opcode map (R161). -/
def decMaj22 (w : RawE) (m : Option Modifier) : Option Instr :=
  ((ArgKind.ofCode w.sub).map fun k => ⟨k, w.d, w.a, w.b, m⟩).map Instr.arg

/-- Major 0x24 of the opcode map (R161). -/
def decMaj24 (w : RawB) : Option Instr :=
  ((Cond.ofCode w.cond).map fun c => ⟨c, w.a, w.off⟩).map Instr.bra

/-- Major 0x25 of the opcode map (R161). -/
def decMaj25 (w : RawB) : Option Instr :=
  ((Cond.ofCode w.cond).map fun c => ⟨c, w.a, w.off⟩).map Instr.brc

/-- Major 0x26 of the opcode map (R161). -/
def decMaj26 (w : RawB) : Option Instr :=
  match w.cond.toNat with
  | 0 => some (.call ⟨w.a, w.off⟩)
  | _ => none

/-- Major 0x27 of the opcode map (R161). -/
def decMaj27 (w : RawA) : Option Instr :=
  match w.min.toNat with
  | 0 => (if w.d = 0 ∧ w.b = 0 ∧ w.t = false then some ⟨w.a⟩ else none).map Instr.ret
  | 1 => (if w.d = 0 ∧ w.b = 0 ∧ w.t = false then some ⟨w.a⟩ else none).map Instr.brx
  | 2 => if w.d = 0 ∧ w.a = 0 ∧ w.b = 0 ∧ w.t = false then some .join else none
  | 3 => if w.d = 0 ∧ w.a = 0 ∧ w.b = 0 ∧ w.t = false then some .yld else none
  | 4 => if w.d = 0 ∧ w.a = 0 ∧ w.b = 0 ∧ w.t = false then some .exit else none
  | 5 => (if w.d = 0 ∧ w.a = 0 ∧ w.t = false then some ⟨w.b⟩ else none).map Instr.trapx
  | 6 => if w.d = 0 ∧ w.a = 0 ∧ w.b = 0 ∧ w.t = false then some .uret else none
  | _ => if w.d = 0 ∧ w.a = 0 ∧ w.b = 0 ∧ w.t = false then some .brk else none

/-- Major 0x28 of the opcode map (R161). -/
def decMaj28 (w : RawB) : Option Instr :=
  (if w.cond.extractLsb' 1 2 = 0 then some ⟨w.cond.getLsbD 0, w.a, w.off⟩ else none).map Instr.bpnd

/-- Major 0x29 of the opcode map (R161). -/
def decMaj29 (w : RawB) : Option Instr :=
  match w.cond.toNat with
  | 0 => some (.ball ⟨w.a, w.off⟩)
  | 1 => some (.bany ⟨w.a, w.off⟩)
  | 2 => some (.bnone ⟨w.a, w.off⟩)
  | _ => none

/-- Major 0x2A of the opcode map (R161). -/
def decMaj2A (w : RawE) (m : Option Modifier) : Option Instr :=
  match w.sub.toNat with
  | 0 => (if w.a = 0 then (UReg.ofCode w.b).map fun r => ⟨r, w.d, m⟩ else none).map Instr.mfu
  | 1 => (if w.d = 0 then (UReg.ofCode w.b).map fun r => ⟨r, w.a, m⟩ else none).map Instr.mtu
  | 2 => (if w.d = 0 ∧ w.b = 0 then some ⟨w.a, m⟩ else none).map Instr.tile
  | 3 => (if w.d = 0 ∧ w.b = 0 then some ⟨w.a, m⟩ else none).map Instr.dmode
  | 4 => (if w.a = 0 ∧ w.b.extractLsb' 2 5 = 0 then some ⟨w.b.extractLsb' 0 2, w.d, m⟩ else none).map Instr.dqry
  | _ => none

/-- Major 0x2C of the opcode map (R161). -/
def decMaj2C (w : RawM) (m : Option Modifier) : Option Instr :=
  ((LdSize.ofCode w.size).bind fun z => (Space.ofCode w.space).map fun p => ⟨z, p, w.d, w.a, w.off, m⟩).map Instr.ld

/-- Major 0x2D of the opcode map (R161). -/
def decMaj2D (w : RawM) (m : Option Modifier) : Option Instr :=
  ((StSize.ofCode w.size).bind fun z => (Space.ofCode w.space).map fun p => ⟨z, p, w.d, w.a, w.off, m⟩).map Instr.st

/-- Major 0x2E of the opcode map (R161). -/
def decMaj2E (w : RawA) (m : Option Modifier) : Option Instr :=
  if w.min.getLsbD 2 then (if w.t = false then (Space.ofCode (w.min.extractLsb' 0 2)).map fun p => ⟨p, w.d, w.a, w.b, m⟩ else none).map Instr.stx
  else (if w.t = false then (Space.ofCode (w.min.extractLsb' 0 2)).map fun p => ⟨p, w.d, w.a, w.b, m⟩ else none).map Instr.ldx

/-- Major 0x2F of the opcode map (R161). -/
def decMaj2F (w : RawT) (m : Option Modifier) : Option Instr :=
  ((AtomOp.ofCode w.op).bind fun o => (Scope.ofCode w.scope).bind fun s => (Space.ofCode w.space).map fun p => ⟨o, s, w.rel, w.w64, p, w.d, w.a, m⟩).map Instr.atom

/-- Major 0x30 of the opcode map (R161). -/
def decMaj30 (w : RawE) (m : Option Modifier) : Option Instr :=
  match w.sub.toNat with
  | 0 => (if w.d = 0 ∧ w.a = 0 ∧ w.b.extractLsb' 3 4 = 0 then (Scope.ofCode (w.b.extractLsb' 0 3)).map fun s => ⟨s, m⟩ else none).map Instr.phaseRel
  | 2 => (if w.d = 0 ∧ w.a = 0 ∧ w.b.extractLsb' 3 4 = 0 then (Scope.ofCode (w.b.extractLsb' 0 3)).map fun s => ⟨s, m⟩ else none).map Instr.phaseAr
  | 3 => (if w.d = 0 ∧ w.a = 0 ∧ w.b.extractLsb' 3 4 = 0 then (Scope.ofCode (w.b.extractLsb' 0 3)).map fun s => ⟨s, m⟩ else none).map Instr.fence
  | 1 => (if w.d = 0 ∧ w.b.extractLsb' 4 3 = 0 then (Scope.ofCode (w.b.extractLsb' 0 3)).map fun s => ⟨s, w.b.getLsbD 3, w.a, m⟩ else none).map Instr.phaseAcq
  | _ => none

/-- Major 0x31 of the opcode map (R161). -/
def decMaj31 (w : RawN) (m : Option Modifier) : Option Instr :=
  match w.op.toNat with
  | 13 => (if w.b.extractLsb' 4 1 = 0 ∧ w.ord = 0 then (Space.ofCode w.space).map fun p => ⟨p, w.b.extractLsb' 0 4, w.d, w.a, m⟩ else none).map Instr.annHlp
  | 14 => (if w.a = 0 ∧ w.b = 0 ∧ w.space = 0 ∧ w.ord = 0 then some ⟨w.d, m⟩ else none).map Instr.annq
  | _ => ((AnnOp.ofCode w.op).bind fun o => (Space.ofCode w.space).map fun p => ⟨o, w.ord, p, w.d, w.a, w.b, m⟩).map Instr.ann

/-- Major 0x32 of the opcode map (R161). -/
def decMaj32 (w : RawE) (m : Option Modifier) : Option Instr :=
  match w.sub.toNat with
  | 0 => (if w.d = 0 ∧ w.b.extractLsb' 5 2 = 0 then some ⟨w.b.getLsbD 4, w.b.extractLsb' 0 4, w.a, m⟩ else none).map Instr.barInit
  | 1 => (if w.d = 0 ∧ w.a = 0 ∧ w.b.extractLsb' 4 3 = 0 then some ⟨w.b.extractLsb' 0 4, m⟩ else none).map Instr.barArv
  | 2 => (if w.d = 0 ∧ w.b.extractLsb' 4 3 = 0 then some ⟨w.b.extractLsb' 0 4, w.a, m⟩ else none).map Instr.barAdd
  | 3 => (if w.a = 0 ∧ w.b.extractLsb' 4 3 = 0 then some ⟨w.b.extractLsb' 0 4, w.d, m⟩ else none).map Instr.barTst
  | 4 => (if w.a = 0 ∧ w.b.extractLsb' 4 3 = 0 then some ⟨w.b.extractLsb' 0 4, w.d, m⟩ else none).map Instr.barPnd
  | _ => none

/-- Major 0x33 of the opcode map (R161). -/
def decMaj33 (w : RawE) (m : Option Modifier) : Option Instr :=
  match w.sub.toNat with
  | 0 => (if w.b.extractLsb' 2 5 = 0 then (Space.ofCode (w.b.extractLsb' 0 2)).map fun p => ⟨p, w.d, w.a, m⟩ else none).map Instr.fget
  | 1 => (if w.b.extractLsb' 2 5 = 0 then (Space.ofCode (w.b.extractLsb' 0 2)).map fun p => ⟨p, w.d, w.a, m⟩ else none).map Instr.fset
  | 2 => (if w.b.extractLsb' 2 5 = 0 then (Space.ofCode (w.b.extractLsb' 0 2)).map fun p => ⟨p, w.d, w.a, m⟩ else none).map Instr.fclr
  | _ => none

/-- Major 0x34 of the opcode map (R161). -/
def decMaj34 (w : RawE) (m : Option Modifier) : Option Instr :=
  match w.sub.toNat with
  | 0 => some (.tspawn ⟨w.d, w.a, w.b, m⟩)
  | 1 => (if w.d = 0 ∧ w.a = 0 ∧ w.b = 0 then some ⟨m⟩ else none).map Instr.tend
  | _ => none

/-- Major 0x35 of the opcode map (R161). -/
def decMaj35 (w : RawE) (m : Option Modifier) : Option Instr :=
  match w.sub.toNat with
  | 0 => some (.fapp ⟨w.d, w.a, w.b, m⟩)
  | 1 => (if w.b = 0 then some ⟨w.d, w.a, m⟩ else none).map Instr.fpop
  | 2 => some (.fret ⟨w.d, w.a, w.b, m⟩)
  | _ => none

/-- Major 0x36 of the opcode map (R161). -/
def decMaj36 (w : RawE) (m : Option Modifier) : Option Instr :=
  match w.sub.toNat with
  | 0 => some (.svc ⟨w.d, w.a, w.b, m⟩)
  | _ => none

/-- Major 0x37 of the opcode map (R161). -/
def decMaj37 (w : RawI) : Option Instr :=
  if w.imm.getLsbD 10 then (if w.a = 0 ∧ w.imm.extractLsb' 4 6 = 0 then some ⟨w.imm.extractLsb' 0 4, w.d⟩ else none).map Instr.rclaim
  else (if w.d = 0 ∧ w.a = 0 ∧ w.imm.extractLsb' 4 6 = 0 then some ⟨w.imm.extractLsb' 0 4⟩ else none).map Instr.rgive

/-- Major 0x38 of the opcode map (R161). -/
def decMaj38 (w : RawE) (m : Option Modifier) : Option Instr :=
  match w.sub.toNat with
  | 0 => (if w.b = 0 then some ⟨w.d, w.a, m⟩ else none).map Instr.mresv
  | 1 => (if w.d = 0 ∧ w.a = 0 ∧ w.b.extractLsb' 4 3 = 0 then some ⟨w.b.extractLsb' 0 4, m⟩ else none).map Instr.mrels
  | 2 => (if w.d = 0 ∧ w.b = 0 then some ⟨w.a, m⟩ else none).map Instr.mscl
  | 3 => (if w.d = 0 ∧ w.b.extractLsb' 4 3 = 0 then some ⟨w.b.extractLsb' 0 4, w.a, m⟩ else none).map Instr.mlds
  | 4 => (if w.d = 0 ∧ w.a = 0 ∧ w.b = 0 then some ⟨m⟩ else none).map Instr.mswp
  | 5 => (if w.d = 0 ∧ w.b = 0 then some ⟨w.a, m⟩ else none).map Instr.mzero
  | 6 => (if w.d = 0 ∧ w.a = 0 ∧ w.b.extractLsb' 4 3 = 0 then some ⟨w.b.extractLsb' 0 4, m⟩ else none).map Instr.mchn
  | 7 => (if w.a = 0 ∧ w.b.extractLsb' 1 6 = 0 then some ⟨w.b.getLsbD 0, w.d, m⟩ else none).map Instr.mstat
  | _ => none

/-- Major 0x39 of the opcode map (R161). -/
def decMaj39 (w : RawE) (m : Option Modifier) : Option Instr :=
  match w.sub.toNat with
  | 0 => (if w.d = 0 ∧ w.b = 0 then some ⟨w.a, m⟩ else none).map Instr.mloop
  | 1 => (if w.d = 0 then some ⟨w.a, w.b, m⟩ else none).map Instr.mgrp
  | 2 => (if w.b = 0 then some ⟨w.d, w.a, m⟩ else none).map Instr.mdrn
  | _ => none

/-- Major 0x3A of the opcode map (R161). -/
def decMaj3A (w : RawE) (m : Option Modifier) : Option Instr :=
  match w.sub.toNat with
  | 0 => some (.cpyL ⟨w.d, w.a, w.b, m⟩)
  | 1 => some (.cpyS ⟨w.d, w.a, w.b, m⟩)
  | 2 => some (.cpyp ⟨w.d, w.a, w.b, m⟩)
  | 3 => (if w.a = 0 ∧ w.b.extractLsb' 1 6 = 0 then some ⟨w.b.getLsbD 0, w.d, m⟩ else none).map Instr.cpyq
  | _ => none

/-- Major 0x3B of the opcode map (R161). -/
def decMaj3B (w : RawE) (m : Option Modifier) : Option Instr :=
  match w.sub.toNat with
  | 0 => some (.kvg ⟨w.d, w.a, w.b, m⟩)
  | 1 => some (.kvmap ⟨w.d, w.a, w.b, m⟩)
  | 2 => some (.migr ⟨w.d, w.a, w.b, m⟩)
  | 3 => some (.adec ⟨w.d, w.a, w.b, m⟩)
  | _ => none

/-- Major 0x3C of the opcode map (R161). -/
def decMaj3C (w : RawE) (m : Option Modifier) : Option Instr :=
  match (w.sub.extractLsb' 0 3).toNat with
  | 0 => some (.nwr ⟨w.sub.getLsbD 3, w.d, w.a, w.b, m⟩)
  | 1 => if w.sub.getLsbD 3 then none else some (.nrd ⟨w.d, w.a, w.b, m⟩)
  | 2 => some (.natm ⟨w.sub.getLsbD 3, w.d, w.a, w.b, m⟩)
  | 3 => some (.nsnd ⟨w.sub.getLsbD 3, w.d, w.a, w.b, m⟩)
  | 4 => if w.sub.getLsbD 3 then none else (if w.b = 0 then some ⟨w.d, w.a, m⟩ else none).map Instr.nwatch
  | _ => none

/-- Major 0x3D of the opcode map (R161). -/
def decMaj3D (w : RawE) (m : Option Modifier) : Option Instr :=
  match (w.sub.extractLsb' 0 3).toNat with
  | 0 => if w.sub.getLsbD 3 then none else some (.strd ⟨w.d, w.a, w.b, m⟩)
  | 1 => some (.stwr ⟨w.sub.getLsbD 3, w.d, w.a, w.b, m⟩)
  | 2 => if w.sub.getLsbD 3 then none else some (.stfl ⟨w.d, w.a, w.b, m⟩)
  | _ => none

/-- Major 0x3E of the opcode map (R161). -/
def decMaj3E (w : RawE) : Option Instr :=
  match w.sub.toNat with
  | 0 => (if w.a = 0 then (SReg.ofCode w.b).map fun r => ⟨r, w.d⟩ else none).map Instr.mfsr
  | 1 => (if w.d = 0 then (SReg.ofCode w.b).map fun r => ⟨r, w.a⟩ else none).map Instr.mtsr
  | 2 => if w.d = 0 ∧ w.a = 0 ∧ w.b = 0 then some .tret else none
  | 3 => some (.csave ⟨w.d, w.a, w.b⟩)
  | 4 => some (.cload ⟨w.d, w.a, w.b⟩)
  | 5 => some (.cmigr ⟨w.d, w.a, w.b⟩)
  | 6 => some (.tlbinv ⟨w.d, w.a, w.b⟩)
  | 7 => some (.fqansResume ⟨w.d, w.a, w.b⟩)
  | 8 => some (.kslotLoad ⟨w.d, w.a, w.b⟩)
  | 9 => some (.scrubStart ⟨w.d, w.a, w.b⟩)
  | 10 => some (.partAssign ⟨w.d, w.a, w.b⟩)
  | 11 => some (.svcret ⟨w.d, w.a, w.b⟩)
  | 12 => some (.fmapMap ⟨w.d, w.a, w.b⟩)
  | 13 => some (.asidqEnter ⟨w.d, w.a, w.b⟩)
  | _ => none

/-- The instruction of a 32-bit word and the modifier word that follows it, if one does, before the operand
rules are checked. Majors 0x24 to 0x29, 0x37 and 0x3E and the control forms of 0x27 take no modifier word at
all (R168, R244, R283). -/
def decodeFields (w : BitVec 32) (m : Option Modifier) : Option Instr :=
  match (majorOf w).toNat with
  | 2 => decMaj02 (unpackA w) m
  | 3 => decMaj03 (unpackA w) m
  | 4 => decMaj04 (unpackA w) m
  | 5 => decMaj05 (unpackA w) m
  | 6 => decMaj06 (unpackA w) m
  | 7 => decMaj07 (unpackA w) m
  | 8 => decMaj08 (unpackA w) m
  | 9 => decMaj09 (unpackA w) m
  | 10 => decMaj0A (unpackA w) m
  | 11 => decMaj0B (unpackA w) m
  | 12 => decMaj0C (unpackI w) m
  | 13 => decMaj0D (unpackI w) m
  | 14 => decMaj0E (unpackI w) m
  | 15 => decMaj0F (unpackI w) m
  | 16 => decMaj10 (unpackI w) m
  | 17 => decMaj11 (unpackI w) m
  | 18 => decMaj12 (unpackW w) m
  | 19 => decMaj13 (unpackA w) m
  | 20 => decMaj14 (unpackA w) m
  | 21 => decMaj15 (unpackA w) m
  | 22 => decMaj16 (unpackA w) m
  | 23 => decMaj17 (unpackE w) m
  | 24 => decMaj18 (unpackA w) m
  | 25 => decMaj19 (unpackC w) m
  | 26 => decMaj1A (unpackC w) m
  | 27 => decMaj1B (unpackE w) m
  | 28 => decMaj1C (unpackE w) m
  | 29 => decMaj1D (unpackE w) m
  | 30 => decMaj1E (unpackA w) m
  | 31 => decMaj1F (unpackA w) m
  | 32 => decMaj20 (unpackE w) m
  | 33 => decMaj21 (unpackE w) m
  | 34 => decMaj22 (unpackE w) m
  | 36 => if m.isSome then none else decMaj24 (unpackB w)
  | 37 => if m.isSome then none else decMaj25 (unpackB w)
  | 38 => if m.isSome then none else decMaj26 (unpackB w)
  | 39 => if m.isSome then none else decMaj27 (unpackA w)
  | 40 => if m.isSome then none else decMaj28 (unpackB w)
  | 41 => if m.isSome then none else decMaj29 (unpackB w)
  | 42 => decMaj2A (unpackE w) m
  | 44 => decMaj2C (unpackM w) m
  | 45 => decMaj2D (unpackM w) m
  | 46 => decMaj2E (unpackA w) m
  | 47 => decMaj2F (unpackT w) m
  | 48 => decMaj30 (unpackE w) m
  | 49 => decMaj31 (unpackN w) m
  | 50 => decMaj32 (unpackE w) m
  | 51 => decMaj33 (unpackE w) m
  | 52 => decMaj34 (unpackE w) m
  | 53 => decMaj35 (unpackE w) m
  | 54 => decMaj36 (unpackE w) m
  | 55 => if m.isSome then none else decMaj37 (unpackI w)
  | 56 => decMaj38 (unpackE w) m
  | 57 => decMaj39 (unpackE w) m
  | 58 => decMaj3A (unpackE w) m
  | 59 => decMaj3B (unpackE w) m
  | 60 => decMaj3C (unpackE w) m
  | 61 => decMaj3D (unpackE w) m
  | 62 => if m.isSome then none else decMaj3E (unpackE w)
  | _ => none

/-- The 16-bit instruction of a halfword whose bit 0 is 0 (R153). -/
def decodeHalf (h : BitVec 16) : Option Instr :=
  if h.getLsbD 15 then none
  else
    let x : OpH := ⟨h.extractLsb' 5 5, h.extractLsb' 10 5⟩
    match (h.extractLsb' 1 4).toNat with
    | 0 => some (.mov16 x)
    | 1 => some (.add16 x)
    | 2 => some (.sub16 x)
    | 3 => some (.and16 x)
    | 4 => some (.or16 x)
    | 5 => some (.xor16 x)
    | 6 => some (.shl16 x)
    | 7 => some (.shr16 x)
    | 8 => some (.addi5 x)
    | 9 => some (.movi5 x)
    | 10 => some (.fadd16 x)
    | 11 => some (.fmul16 x)
    | 12 => some (.fmax16 x)
    | 13 => some (.fmin16 x)
    | 14 => some (.imul16 x)
    | _ => if x.d = 0 ∧ x.s = 0 then some .nop else none

/-- The modifier word from its fields (R157). -/
def packMod (m : Modifier) : BitVec 32 :=
  0#2 ++ m.rnd.code ++ m.scale ++ BitVec.ofBool m.absC ++ BitVec.ofBool m.absB ++ BitVec.ofBool m.absA ++
    BitVec.ofBool m.negC ++ BitVec.ofBool m.negB ++ BitVec.ofBool m.negA ++ BitVec.ofBool m.clamp ++
    BitVec.ofBool m.sat ++ BitVec.ofBool m.ppol ++ m.pred ++ 0x3F#6 ++ 1#1
/-- The fields of a modifier word; none when bits 31:30 are not 0 (R157). -/
def unpackMod (w : BitVec 32) : Option Modifier :=
  if w.extractLsb' 30 2 = 0 then
    (Rnd.ofCode (w.extractLsb' 28 2)).map fun r =>
      { rnd := r, scale := w.extractLsb' 23 5, absC := w.getLsbD 22, absB := w.getLsbD 21, absA := w.getLsbD 20,
        negC := w.getLsbD 19, negB := w.getLsbD 18, negA := w.getLsbD 17, clamp := w.getLsbD 16,
        sat := w.getLsbD 15, ppol := w.getLsbD 14, pred := w.extractLsb' 7 7 }
  else none

/-- Whether a word is a modifier word (R157). -/
def isModifier (w : BitVec 32) : Bool := w.getLsbD 0 && majorOf w == 0x3F

/-- Why no instruction was read. -/
inductive DecodeError where
  /-- ILLEGAL by R153, R157 or R159, with EAUX the first word, or the halfword zero-extended. -/
  | illegal (eaux : BitVec 32)
  /-- A modifier word reached as an instruction: ORPHAN_MODIFIER (R157). -/
  | orphanModifier
  /-- The bytes end before the instruction does; a fetch always supplies enough, so no step sees it. -/
  | truncated
  deriving DecidableEq, Repr

/-- One instruction read from two consecutive 32-bit words: the instruction and its length in bytes, modifier
word included (R152, R157). -/
def decode (w next : BitVec 32) : Except DecodeError (Instr × Nat) :=
  if w.getLsbD 0 then
    if isModifier w then .error .orphanModifier
    else
      if isModifier next then
        match unpackMod next with
        | none => .error (.illegal w)
        | some m =>
          match decodeFields w (some m) with
          | some i => if i.wf then .ok (i, 8) else .error (.illegal w)
          | none => .error (.illegal w)
      else
        match decodeFields w none with
        | some i => if i.wf then .ok (i, 4) else .error (.illegal w)
        | none => .error (.illegal w)
  else
    let h := w.extractLsb' 0 16
    match decodeHalf h with
    | some i => .ok (i, 2)
    | none => .error (.illegal (h.zeroExtend 32))

/-- A 32-bit word of four bytes, the lowest address first (R2). -/
def wordOfBytes (b0 b1 b2 b3 : Byte) : BitVec 32 := b3 ++ b2 ++ b1 ++ b0
/-- The four bytes of a word, the lowest address first (R2). -/
def bytesOfWord (w : BitVec 32) : List Byte :=
  [w.extractLsb' 0 8, w.extractLsb' 8 8, w.extractLsb' 16 8, w.extractLsb' 24 8]

/-- One instruction read from a list of bytes, the lowest address first, and the bytes that follow it. A
missing byte after the first halfword reads as 0. -/
def decodeBytes (l : List Byte) : Except DecodeError (Instr × List Byte) :=
  match l with
  | b0 :: b1 :: r =>
    let b := fun i => r.getD i 0
    match decode (wordOfBytes b0 b1 (b 0) (b 1)) (wordOfBytes (b 2) (b 3) (b 4) (b 5)) with
    | .ok (i, n) => if n ≤ l.length then .ok (i, l.drop n) else .error .truncated
    | .error e => .error e
  | _ => .error .truncated

/-- The instruction that the decoder reads from the bits of an opcode-table row, bit 0 the least significant
bit of the first word, every bit at and above `nbits` zero. -/
def decodeTableWord (nbits w : Nat) : Option Instr :=
  let v := BitVec.ofNat 64 (w % 2 ^ nbits)
  match decode (v.extractLsb' 0 32) (v.extractLsb' 32 32) with
  | .ok (i, _) => some i
  | .error _ => none

/-- The halfword of form H from its fields (R153). -/
def packH (x : OpH) (hop : BitVec 4) : BitVec 16 := 0#1 ++ x.s ++ x.d ++ hop ++ 0#1

/-- The first word of a 32-bit instruction, written from its encoding line; 0 for the other rows. -/
def Instr.word : Instr → BitVec 32
  | .add x => packA ⟨2, x.d, x.a, x.b, 0, x.t⟩
  | .sub x => packA ⟨2, x.d, x.a, x.b, 1, x.t⟩
  | .addc x => packA ⟨2, x.d, x.a, x.b, 2, x.t⟩
  | .subb x => packA ⟨2, x.d, x.a, x.b, 3, x.t⟩
  | .minS x => packA ⟨2, x.d, x.a, x.b, 4, x.t⟩
  | .maxS x => packA ⟨2, x.d, x.a, x.b, 5, x.t⟩
  | .minU x => packA ⟨2, x.d, x.a, x.b, 6, x.t⟩
  | .maxU x => packA ⟨2, x.d, x.a, x.b, 7, x.t⟩
  | .and x => packA ⟨3, x.d, x.a, x.b, 0, x.t⟩
  | .or x => packA ⟨3, x.d, x.a, x.b, 1, x.t⟩
  | .xor x => packA ⟨3, x.d, x.a, x.b, 2, x.t⟩
  | .andn x => packA ⟨3, x.d, x.a, x.b, 3, x.t⟩
  | .orn x => packA ⟨3, x.d, x.a, x.b, 4, x.t⟩
  | .xnor x => packA ⟨3, x.d, x.a, x.b, 5, x.t⟩
  | .sel x => packA ⟨3, x.d, x.a, x.b, 6, x.t⟩
  | .bswz x => packA ⟨3, x.d, x.a, x.b, 7, x.t⟩
  | .shl x => packA ⟨4, x.d, x.a, x.b, 0, x.t⟩
  | .shr x => packA ⟨4, x.d, x.a, x.b, 1, x.t⟩
  | .sar x => packA ⟨4, x.d, x.a, x.b, 2, x.t⟩
  | .rol x => packA ⟨4, x.d, x.a, x.b, 3, x.t⟩
  | .shl64 x => packA ⟨4, x.d, x.a, x.b, 4, x.t⟩
  | .shr64 x => packA ⟨4, x.d, x.a, x.b, 5, x.t⟩
  | .sar64 x => packA ⟨4, x.d, x.a, x.b, 6, x.t⟩
  | .fshf x => packA ⟨4, x.d, x.a, x.b, 7, x.t⟩
  | .mulLo x => packA ⟨5, x.d, x.a, x.b, 0, x.t⟩
  | .mulHiS x => packA ⟨5, x.d, x.a, x.b, 1, x.t⟩
  | .mulHiU x => packA ⟨5, x.d, x.a, x.b, 2, x.t⟩
  | .madLo x => packA ⟨5, x.d, x.a, x.b, 3, x.t⟩
  | .madHiS x => packA ⟨5, x.d, x.a, x.b, 4, x.t⟩
  | .madHiU x => packA ⟨5, x.d, x.a, x.b, 5, x.t⟩
  | .mulWideS x => packA ⟨5, x.d, x.a, x.b, 6, x.t⟩
  | .mulWideU x => packA ⟨5, x.d, x.a, x.b, 7, x.t⟩
  | .popc x => packA ⟨6, x.d, x.a, 0, 0, x.t⟩
  | .clz x => packA ⟨6, x.d, x.a, 0, 1, x.t⟩
  | .ctz x => packA ⟨6, x.d, x.a, 0, 2, x.t⟩
  | .brev x => packA ⟨6, x.d, x.a, 0, 3, x.t⟩
  | .bfxU x => packA ⟨6, x.d, x.a, x.b, 4, x.t⟩
  | .bfxS x => packA ⟨6, x.d, x.a, x.b, 5, x.t⟩
  | .bfi x => packA ⟨6, x.d, x.a, x.b, 6, x.t⟩
  | .iabs x => packA ⟨6, x.d, x.a, 0, 7, x.t⟩
  | .icmp x => packA ⟨7, x.d, x.a, x.b, x.c.code, x.t⟩
  | .dadd x => packA ⟨8, x.d, x.a, x.b, x.y.code, x.t⟩
  | .dsub x => packA ⟨9, x.d, x.a, x.b, x.y.code, x.t⟩
  | .dmul x => packA ⟨10, x.d, x.a, x.b, x.y.code, false⟩
  | .dmad x => packA ⟨10, x.d, x.a, x.b, x.y.code, true⟩
  | .dmin x => packA ⟨11, x.d, x.a, x.b, x.y.code, false⟩
  | .dmax x => packA ⟨11, x.d, x.a, x.b, x.y.code, true⟩
  | .addi x => packI ⟨12, x.d, x.a, x.i⟩
  | .andi x => packI ⟨13, x.d, x.a, x.i⟩
  | .ori x => packI ⟨14, x.d, x.a, x.i⟩
  | .xori x => packI ⟨15, x.d, x.a, x.i⟩
  | .shli x => packI ⟨16, x.d, x.a, (0#6 ++ x.n)⟩
  | .shri x => packI ⟨16, x.d, x.a, (1#6 ++ x.n)⟩
  | .sari x => packI ⟨16, x.d, x.a, (2#6 ++ x.n)⟩
  | .cmpi x => packI ⟨17, x.d, x.a, (x.c.code ++ x.i)⟩
  | .movw x => packW ⟨18, x.d, x.i, 0⟩
  | .movt x => packW ⟨18, x.d, x.i, 1⟩
  | .movs x => packW ⟨18, x.d, x.i, 2⟩
  | .lea x => packA ⟨19, x.d, x.a, x.b, (0#1 ++ x.h), x.t⟩
  | .faddF32 x => packA ⟨20, x.d, x.a, x.b, 0, x.t⟩
  | .fsubF32 x => packA ⟨20, x.d, x.a, x.b, 1, x.t⟩
  | .fmulF32 x => packA ⟨20, x.d, x.a, x.b, 2, x.t⟩
  | .ffmaF32 x => packA ⟨20, x.d, x.a, x.b, 3, x.t⟩
  | .fminF32 x => packA ⟨20, x.d, x.a, x.b, 4, x.t⟩
  | .fmaxF32 x => packA ⟨20, x.d, x.a, x.b, 5, x.t⟩
  | .fcpysF32 x => packA ⟨20, x.d, x.a, x.b, 6, x.t⟩
  | .faddF16x2 x => packA ⟨21, x.d, x.a, x.b, 0, x.t⟩
  | .fsubF16x2 x => packA ⟨21, x.d, x.a, x.b, 1, x.t⟩
  | .fmulF16x2 x => packA ⟨21, x.d, x.a, x.b, 2, x.t⟩
  | .ffmaF16x2 x => packA ⟨21, x.d, x.a, x.b, 3, x.t⟩
  | .fminF16x2 x => packA ⟨21, x.d, x.a, x.b, 4, x.t⟩
  | .fmaxF16x2 x => packA ⟨21, x.d, x.a, x.b, 5, x.t⟩
  | .fcpysF16x2 x => packA ⟨21, x.d, x.a, x.b, 6, x.t⟩
  | .faddBf16x2 x => packA ⟨22, x.d, x.a, x.b, 0, x.t⟩
  | .fsubBf16x2 x => packA ⟨22, x.d, x.a, x.b, 1, x.t⟩
  | .fmulBf16x2 x => packA ⟨22, x.d, x.a, x.b, 2, x.t⟩
  | .ffmaBf16x2 x => packA ⟨22, x.d, x.a, x.b, 3, x.t⟩
  | .fminBf16x2 x => packA ⟨22, x.d, x.a, x.b, 4, x.t⟩
  | .fmaxBf16x2 x => packA ⟨22, x.d, x.a, x.b, 5, x.t⟩
  | .fcpysBf16x2 x => packA ⟨22, x.d, x.a, x.b, 6, x.t⟩
  | .fcmp x => packE ⟨23, x.d, x.a, x.b, subOfFcmp x.y x.c⟩
  | .fclass x => packE ⟨23, x.d, x.a, 0#4 ++ 0#1 ++ x.y.code, 15⟩
  | .abst x => packE ⟨23, x.d, x.a, 0#4 ++ 1#1 ++ x.y.code, 15⟩
  | .frcp x => packA ⟨24, x.d, x.a, (0#5 ++ x.y.code), 0, x.t⟩
  | .frsq x => packA ⟨24, x.d, x.a, (0#5 ++ x.y.code), 1, x.t⟩
  | .fsqrt x => packA ⟨24, x.d, x.a, (0#5 ++ x.y.code), 2, x.t⟩
  | .fexp2 x => packA ⟨24, x.d, x.a, (0#5 ++ x.y.code), 3, x.t⟩
  | .flog2 x => packA ⟨24, x.d, x.a, (0#5 ++ x.y.code), 4, x.t⟩
  | .fsin x => packA ⟨24, x.d, x.a, (0#5 ++ x.y.code), 5, x.t⟩
  | .fcos x => packA ⟨24, x.d, x.a, (0#5 ++ x.y.code), 6, x.t⟩
  | .ftanh x => packA ⟨24, x.d, x.a, (0#5 ++ x.y.code), 7, x.t⟩
  | .cvt x => packC ⟨25, x.d, x.a, x.dst.code, x.src.code, x.sat⟩
  | .cvts x => packC ⟨26, x.d, x.a, x.dst.code, x.src.code, x.sat⟩
  | .pack x => packE ⟨27, x.d, x.a, x.b, 0⟩
  | .unpk x => packE ⟨27, x.d, x.a, x.b, 1⟩
  | .cbset x => packE ⟨28, 0, x.a, (0#4 ++ x.j), 0⟩
  | .cbenc x => packE ⟨28, x.d, x.a, (0#3 ++ x.src.code ++ x.f.code), 1⟩
  | .cbdec x => packE ⟨28, x.d, x.a, (0#2 ++ x.p ++ x.f.code), 2⟩
  | .cbget x => packE ⟨28, x.d, 0, (0#4 ++ x.j), 3⟩
  | .absm x => packE ⟨29, x.d, x.a, (0#2 ++ x.f.code), 0⟩
  | .absc x => packE ⟨29, x.d, x.a, (0#2 ++ x.f.code), 1⟩
  | .shfl x => packA ⟨30, x.d, x.a, x.b, x.k.code, x.t⟩
  | .vote x => packA ⟨31, x.d, x.a, 0, x.k.code, x.t⟩
  | .red x => packE ⟨32, x.d, x.a, (0#4 ++ x.y.code), x.o.code⟩
  | .scan x => packE ⟨33, x.d, x.a, (0#4 ++ x.y.code), x.o.code⟩
  | .arg x => packE ⟨34, x.d, x.a, x.b, x.k.code⟩
  | .bra x => packB ⟨36, x.a, x.c.code, x.o⟩
  | .brc x => packB ⟨37, x.a, x.c.code, x.o⟩
  | .call x => packB ⟨38, x.a, 0, x.o⟩
  | .ret x => packA ⟨39, 0, x.r, 0, 0, false⟩
  | .brx x => packA ⟨39, 0, x.r, 0, 1, false⟩
  | .join => packA ⟨39, 0, 0, 0, 2, false⟩
  | .yld => packA ⟨39, 0, 0, 0, 3, false⟩
  | .exit => packA ⟨39, 0, 0, 0, 4, false⟩
  | .trapx x => packA ⟨39, 0, 0, x.r, 5, false⟩
  | .uret => packA ⟨39, 0, 0, 0, 6, false⟩
  | .brk => packA ⟨39, 0, 0, 0, 7, false⟩
  | .bpnd x => packB ⟨40, x.a, (0#2 ++ BitVec.ofBool x.rdy), x.o⟩
  | .ball x => packB ⟨41, x.a, 0, x.o⟩
  | .bany x => packB ⟨41, x.a, 1, x.o⟩
  | .bnone x => packB ⟨41, x.a, 2, x.o⟩
  | .mfu x => packE ⟨42, x.d, 0, x.r.code, 0⟩
  | .mtu x => packE ⟨42, 0, x.a, x.r.code, 1⟩
  | .tile x => packE ⟨42, 0, x.a, 0, 2⟩
  | .dmode x => packE ⟨42, 0, x.a, 0, 3⟩
  | .dqry x => packE ⟨42, x.d, 0, (0#5 ++ x.j), 4⟩
  | .ld x => packM ⟨44, x.d, x.a, x.p.code, x.z.code, x.o⟩
  | .st x => packM ⟨45, x.d, x.a, x.p.code, x.z.code, x.o⟩
  | .ldx x => packA ⟨46, x.d, x.a, x.b, (0#1 ++ x.p.code), false⟩
  | .stx x => packA ⟨46, x.d, x.a, x.b, (1#1 ++ x.p.code), false⟩
  | .atom x => packT ⟨47, x.d, x.a, x.p.code, x.w64, x.rel, x.s.code, x.o.code⟩
  | .phaseRel x => packE ⟨48, 0, 0, (0#4 ++ x.s.code), 0⟩
  | .phaseAr x => packE ⟨48, 0, 0, (0#4 ++ x.s.code), 2⟩
  | .fence x => packE ⟨48, 0, 0, (0#4 ++ x.s.code), 3⟩
  | .phaseAcq x => packE ⟨48, 0, x.a, (0#3 ++ BitVec.ofBool x.named ++ x.s.code), 1⟩
  | .ann x => packN ⟨49, x.d, x.a, x.b, x.p.code, x.ord, x.o.code⟩
  | .annHlp x => packN ⟨49, x.d, x.a, 0#1 ++ x.n, x.p.code, 0, 13⟩
  | .annq x => packN ⟨49, x.d, 0, 0, 0, 0, 14⟩
  | .barInit x => packE ⟨50, 0, x.a, (0#2 ++ BitVec.ofBool x.gang ++ x.k), 0⟩
  | .barArv x => packE ⟨50, 0, 0, (0#3 ++ x.k), 1⟩
  | .barAdd x => packE ⟨50, 0, x.r, (0#3 ++ x.k), 2⟩
  | .barTst x => packE ⟨50, x.r, 0, (0#3 ++ x.k), 3⟩
  | .barPnd x => packE ⟨50, x.r, 0, (0#3 ++ x.k), 4⟩
  | .fget x => packE ⟨51, x.d, x.a, (0#5 ++ x.p.code), 0⟩
  | .fset x => packE ⟨51, x.d, x.a, (0#5 ++ x.p.code), 1⟩
  | .fclr x => packE ⟨51, x.d, x.a, (0#5 ++ x.p.code), 2⟩
  | .tspawn x => packE ⟨52, x.d, x.a, x.b, 0⟩
  | .tend _ => packE ⟨52, 0, 0, 0, 1⟩
  | .fapp x => packE ⟨53, x.d, x.a, x.b, 0⟩
  | .fpop x => packE ⟨53, x.d, x.a, 0, 1⟩
  | .fret x => packE ⟨53, x.d, x.a, x.b, 2⟩
  | .svc x => packE ⟨54, x.d, x.a, x.b, 0⟩
  | .rgive x => packI ⟨55, 0, 0, (0#7 ++ x.k)⟩
  | .rclaim x => packI ⟨55, x.d, 0, (1#1 ++ 0#6 ++ x.k)⟩
  | .mresv x => packE ⟨56, x.d, x.a, 0, 0⟩
  | .mrels x => packE ⟨56, 0, 0, (0#3 ++ x.k), 1⟩
  | .mscl x => packE ⟨56, 0, x.a, 0, 2⟩
  | .mlds x => packE ⟨56, 0, x.r, (0#3 ++ x.k), 3⟩
  | .mswp _ => packE ⟨56, 0, 0, 0, 4⟩
  | .mzero x => packE ⟨56, 0, x.a, 0, 5⟩
  | .mchn x => packE ⟨56, 0, 0, (0#3 ++ x.k), 6⟩
  | .mstat x => packE ⟨56, x.d, 0, (0#6 ++ BitVec.ofBool x.c), 7⟩
  | .mloop x => packE ⟨57, 0, x.a, 0, 0⟩
  | .mgrp x => packE ⟨57, 0, x.a, x.b, 1⟩
  | .mdrn x => packE ⟨57, x.d, x.a, 0, 2⟩
  | .cpyL x => packE ⟨58, x.d, x.a, x.b, 0⟩
  | .cpyS x => packE ⟨58, x.d, x.a, x.b, 1⟩
  | .cpyp x => packE ⟨58, x.d, x.a, x.b, 2⟩
  | .cpyq x => packE ⟨58, x.d, 0, (0#6 ++ BitVec.ofBool x.c), 3⟩
  | .kvg x => packE ⟨59, x.d, x.a, x.b, 0⟩
  | .kvmap x => packE ⟨59, x.d, x.a, x.b, 1⟩
  | .migr x => packE ⟨59, x.d, x.a, x.b, 2⟩
  | .adec x => packE ⟨59, x.d, x.a, x.b, 3⟩
  | .nwr x => packE ⟨60, x.d, x.a, x.b, (BitVec.ofBool x.v ++ 0#3)⟩
  | .nrd x => packE ⟨60, x.d, x.a, x.b, 1⟩
  | .natm x => packE ⟨60, x.d, x.a, x.b, (BitVec.ofBool x.v ++ 2#3)⟩
  | .nsnd x => packE ⟨60, x.d, x.a, x.b, (BitVec.ofBool x.v ++ 3#3)⟩
  | .nwatch x => packE ⟨60, x.d, x.a, 0, 4⟩
  | .strd x => packE ⟨61, x.d, x.a, x.b, 0⟩
  | .stwr x => packE ⟨61, x.d, x.a, x.b, (BitVec.ofBool x.v ++ 1#3)⟩
  | .stfl x => packE ⟨61, x.d, x.a, x.b, 2⟩
  | .mfsr x => packE ⟨62, x.d, 0, x.r.code, 0⟩
  | .mtsr x => packE ⟨62, 0, x.a, x.r.code, 1⟩
  | .tret => packE ⟨62, 0, 0, 0, 2⟩
  | .csave x => packE ⟨62, x.d, x.a, x.b, 3⟩
  | .cload x => packE ⟨62, x.d, x.a, x.b, 4⟩
  | .cmigr x => packE ⟨62, x.d, x.a, x.b, 5⟩
  | .tlbinv x => packE ⟨62, x.d, x.a, x.b, 6⟩
  | .fqansResume x => packE ⟨62, x.d, x.a, x.b, 7⟩
  | .fqansTerminate x => packE ⟨62, x.d, x.a, x.b, 7⟩
  | .kslotLoad x => packE ⟨62, x.d, x.a, x.b, 8⟩
  | .kslotZero x => packE ⟨62, x.d, x.a, x.b, 8⟩
  | .kslotQuery x => packE ⟨62, x.d, x.a, x.b, 8⟩
  | .scrubStart x => packE ⟨62, x.d, x.a, x.b, 9⟩
  | .scrubQuery x => packE ⟨62, x.d, x.a, x.b, 9⟩
  | .partAssign x => packE ⟨62, x.d, x.a, x.b, 10⟩
  | .partReset x => packE ⟨62, x.d, x.a, x.b, 10⟩
  | .partRelease x => packE ⟨62, x.d, x.a, x.b, 10⟩
  | .partQuery x => packE ⟨62, x.d, x.a, x.b, 10⟩
  | .svcret x => packE ⟨62, x.d, x.a, x.b, 11⟩
  | .fmapMap x => packE ⟨62, x.d, x.a, x.b, 12⟩
  | .fmapUnmap x => packE ⟨62, x.d, x.a, x.b, 12⟩
  | .asidqEnter x => packE ⟨62, x.d, x.a, x.b, 13⟩
  | .asidqQuery x => packE ⟨62, x.d, x.a, x.b, 13⟩
  | .asidqLeave x => packE ⟨62, x.d, x.a, x.b, 13⟩
  | _ => 0

/-- The modifier word that an instruction carries. -/
def Instr.modifier : Instr → Option Modifier
  | .add x => x.m
  | .sub x => x.m
  | .addc x => x.m
  | .subb x => x.m
  | .minS x => x.m
  | .maxS x => x.m
  | .minU x => x.m
  | .maxU x => x.m
  | .and x => x.m
  | .or x => x.m
  | .xor x => x.m
  | .andn x => x.m
  | .orn x => x.m
  | .xnor x => x.m
  | .sel x => x.m
  | .bswz x => x.m
  | .shl x => x.m
  | .shr x => x.m
  | .sar x => x.m
  | .rol x => x.m
  | .shl64 x => x.m
  | .shr64 x => x.m
  | .sar64 x => x.m
  | .fshf x => x.m
  | .mulLo x => x.m
  | .mulHiS x => x.m
  | .mulHiU x => x.m
  | .madLo x => x.m
  | .madHiS x => x.m
  | .madHiU x => x.m
  | .mulWideS x => x.m
  | .mulWideU x => x.m
  | .popc x => x.m
  | .clz x => x.m
  | .ctz x => x.m
  | .brev x => x.m
  | .bfxU x => x.m
  | .bfxS x => x.m
  | .bfi x => x.m
  | .iabs x => x.m
  | .icmp x => x.m
  | .dadd x => x.m
  | .dsub x => x.m
  | .dmul x => x.m
  | .dmad x => x.m
  | .dmin x => x.m
  | .dmax x => x.m
  | .addi x => x.m
  | .andi x => x.m
  | .ori x => x.m
  | .xori x => x.m
  | .shli x => x.m
  | .shri x => x.m
  | .sari x => x.m
  | .cmpi x => x.m
  | .movw x => x.m
  | .movt x => x.m
  | .movs x => x.m
  | .lea x => x.m
  | .faddF32 x => x.m
  | .fsubF32 x => x.m
  | .fmulF32 x => x.m
  | .ffmaF32 x => x.m
  | .fminF32 x => x.m
  | .fmaxF32 x => x.m
  | .fcpysF32 x => x.m
  | .faddF16x2 x => x.m
  | .fsubF16x2 x => x.m
  | .fmulF16x2 x => x.m
  | .ffmaF16x2 x => x.m
  | .fminF16x2 x => x.m
  | .fmaxF16x2 x => x.m
  | .fcpysF16x2 x => x.m
  | .faddBf16x2 x => x.m
  | .fsubBf16x2 x => x.m
  | .fmulBf16x2 x => x.m
  | .ffmaBf16x2 x => x.m
  | .fminBf16x2 x => x.m
  | .fmaxBf16x2 x => x.m
  | .fcpysBf16x2 x => x.m
  | .fcmp x => x.m
  | .fclass x => x.m
  | .abst x => x.m
  | .frcp x => x.m
  | .frsq x => x.m
  | .fsqrt x => x.m
  | .fexp2 x => x.m
  | .flog2 x => x.m
  | .fsin x => x.m
  | .fcos x => x.m
  | .ftanh x => x.m
  | .cvt x => x.m
  | .cvts x => x.m
  | .pack x => x.m
  | .unpk x => x.m
  | .cbset x => x.m
  | .cbenc x => x.m
  | .cbdec x => x.m
  | .cbget x => x.m
  | .absm x => x.m
  | .absc x => x.m
  | .shfl x => x.m
  | .vote x => x.m
  | .red x => x.m
  | .scan x => x.m
  | .arg x => x.m
  | .mfu x => x.m
  | .mtu x => x.m
  | .tile x => x.m
  | .dmode x => x.m
  | .dqry x => x.m
  | .ld x => x.m
  | .st x => x.m
  | .ldx x => x.m
  | .stx x => x.m
  | .atom x => x.m
  | .phaseRel x => x.m
  | .phaseAr x => x.m
  | .fence x => x.m
  | .phaseAcq x => x.m
  | .ann x => x.m
  | .annHlp x => x.m
  | .annq x => x.m
  | .barInit x => x.m
  | .barArv x => x.m
  | .barAdd x => x.m
  | .barTst x => x.m
  | .barPnd x => x.m
  | .fget x => x.m
  | .fset x => x.m
  | .fclr x => x.m
  | .tspawn x => x.m
  | .tend x => x.m
  | .fapp x => x.m
  | .fpop x => x.m
  | .fret x => x.m
  | .svc x => x.m
  | .mresv x => x.m
  | .mrels x => x.m
  | .mscl x => x.m
  | .mlds x => x.m
  | .mswp x => x.m
  | .mzero x => x.m
  | .mchn x => x.m
  | .mstat x => x.m
  | .mloop x => x.m
  | .mgrp x => x.m
  | .mdrn x => x.m
  | .cpyL x => x.m
  | .cpyS x => x.m
  | .cpyp x => x.m
  | .cpyq x => x.m
  | .kvg x => x.m
  | .kvmap x => x.m
  | .migr x => x.m
  | .adec x => x.m
  | .nwr x => x.m
  | .nrd x => x.m
  | .natm x => x.m
  | .nsnd x => x.m
  | .nwatch x => x.m
  | .strd x => x.m
  | .stwr x => x.m
  | .stfl x => x.m
  | _ => none

/-- The halfword of a 16-bit instruction (R153). -/
def Instr.half : Instr → Option (BitVec 16)
  | .mov16 x => some (packH ⟨x.d, x.s⟩ 0)
  | .add16 x => some (packH ⟨x.d, x.s⟩ 1)
  | .sub16 x => some (packH ⟨x.d, x.s⟩ 2)
  | .and16 x => some (packH ⟨x.d, x.s⟩ 3)
  | .or16 x => some (packH ⟨x.d, x.s⟩ 4)
  | .xor16 x => some (packH ⟨x.d, x.s⟩ 5)
  | .shl16 x => some (packH ⟨x.d, x.s⟩ 6)
  | .shr16 x => some (packH ⟨x.d, x.s⟩ 7)
  | .addi5 x => some (packH ⟨x.d, x.s⟩ 8)
  | .movi5 x => some (packH ⟨x.d, x.s⟩ 9)
  | .fadd16 x => some (packH ⟨x.d, x.s⟩ 10)
  | .fmul16 x => some (packH ⟨x.d, x.s⟩ 11)
  | .fmax16 x => some (packH ⟨x.d, x.s⟩ 12)
  | .fmin16 x => some (packH ⟨x.d, x.s⟩ 13)
  | .imul16 x => some (packH ⟨x.d, x.s⟩ 14)
  | .nop => some 0x001E#16
  | _ => none

/-- The row that the decoder answers with for the word of a row: of the rows that share a word and that a control word
tells apart at issue (R289 to R296), the first. -/
def Instr.firstRow : Instr → Instr
  | .fqansTerminate x => .fqansResume x
  | .kslotZero x | .kslotQuery x => .kslotLoad x
  | .scrubQuery x => .scrubStart x
  | .partReset x | .partRelease x | .partQuery x => .partAssign x
  | .fmapUnmap x => .fmapMap x
  | .asidqQuery x | .asidqLeave x => .asidqEnter x
  | i => i

/-- The bytes of an encoded instruction, the lowest address first: its halfword, or its word and its modifier
word. An event has none. -/
def encode (i : Instr) : List Byte :=
  match i.half with
  | some h => [h.extractLsb' 0 8, h.extractLsb' 8 8]
  | none =>
    if i.encoded then
      bytesOfWord i.word ++ (match i.modifier with | some m => bytesOfWord (packMod m) | none => [])
    else []

end Sys2Proof
end

