-- ==== Sys2Proof/Machine/Names.lean ====
section
/-! DEFINITION. The registers that each instruction names (R28, R41, R159): sources read per lane, sources read in
the lowest active lane only (R168, R246, R283), and destinations. -/

namespace Sys2Proof

/-- Registers r to r + n - 1. -/
def span (r n : Nat) : List Nat := (List.range n).map (r + ·)

/-- One register. -/
def one (r : Nat) : List Nat := [r]

/-- Two registers. -/
def two (a b : Nat) : List Nat := [a, b]

/-- An even-odd pair (R28). -/
def pair (r : Nat) : List Nat := [r, r + 1]

/-- The registers of an address operand: a pair in space G, one register in S and N (R80). -/
def addrRegs (p : Space) (a : Nat) : List Nat := if p = .g then pair a else one a

/-- The registers that a load writes (R220). -/
def LdSize.regs : LdSize → Nat
  | .b64 => 2
  | .b128 => 4
  | _ => 1

/-- The registers that a store reads (R221). -/
def StSize.regs : StSize → Nat
  | .b64 => 2
  | .b128 => 4
  | _ => 1

/-- The registers that an ATOM reads from its destination on (R155). -/
def OpAtom.inRegs (x : OpAtom) : Nat := (if x.o = .cas then 2 else 1) * (if x.w64 then 2 else 1)

/-- The registers that an ATOM writes (R224). -/
def OpAtom.outRegs (x : OpAtom) : Nat := if x.w64 then 2 else 1

/-- The registers that an ANN reads beside its address (R227). -/
def OpAnn.operandRegs (x : OpAnn) : List Nat :=
  let b := 2 * x.b.toNat
  match x.o with
  | .cas | .psh | .enq => pair b
  | .pop | .deq => one (b + 1)
  | .ld => []
  | _ => one b

/-- The sources that an instruction reads in each active lane. -/
def Instr.srcs : Instr → List Nat
  | .mov16 x => one x.s.toNat
  | .add16 x | .sub16 x | .and16 x | .or16 x | .xor16 x | .shl16 x | .shr16 x | .fadd16 x
  | .fmul16 x | .fmax16 x | .fmin16 x | .imul16 x => two x.d.toNat x.s.toNat
  | .addi5 x => one x.d.toNat
  | .add x | .sub x | .addc x | .subb x | .minS x | .maxS x | .minU x | .maxU x | .and x | .or x
  | .xor x | .andn x | .orn x | .xnor x | .shl x | .shr x | .sar x | .rol x | .mulLo x | .mulHiS x
  | .mulHiU x | .mulWideS x | .mulWideU x | .bfxU x | .bfxS x | .faddF32 x | .fsubF32 x
  | .fmulF32 x | .fminF32 x | .fmaxF32 x | .fcpysF32 x | .faddF16x2 x | .fsubF16x2 x | .fmulF16x2 x
  | .fminF16x2 x | .fmaxF16x2 x | .fcpysF16x2 x | .faddBf16x2 x | .fsubBf16x2 x | .fmulBf16x2 x
  | .fminBf16x2 x | .fmaxBf16x2 x | .fcpysBf16x2 x => two x.a.toNat x.b.toNat
  | .sel x | .madLo x | .madHiS x | .madHiU x | .bfi x | .ffmaF32 x | .ffmaF16x2 x | .ffmaBf16x2 x => two x.a.toNat x.b.toNat ++ one x.d.toNat
  | .bswz x | .shl64 x | .shr64 x | .sar64 x | .fshf x => pair x.a.toNat ++ one x.b.toNat
  | .popc x | .clz x | .ctz x | .brev x | .iabs x => one x.a.toNat
  | .icmp x => if x.c.wide then pair x.a.toNat ++ pair x.b.toNat else two x.a.toNat x.b.toNat
  | .dadd x | .dsub x => two x.a.toNat x.b.toNat
  | .dmul x | .dmin x | .dmax x => two x.a.toNat x.b.toNat
  | .dmad x => two x.a.toNat x.b.toNat ++ one x.d.toNat
  | .addi x | .andi x | .ori x | .xori x => one x.a.toNat
  | .shli x | .shri x | .sari x => one x.a.toNat
  | .cmpi x => one x.a.toNat
  | .movt x => one x.d.toNat
  | .lea x => pair x.a.toNat ++ one x.b.toNat
  | .fcmp x => two x.a.toNat x.b.toNat
  | .fclass x | .abst x => one x.a.toNat
  | .frcp x | .frsq x | .fsqrt x | .fexp2 x | .flog2 x | .fsin x | .fcos x | .ftanh x => one x.a.toNat
  | .cvt x => one x.a.toNat
  | .cvts x => pair x.a.toNat
  | .pack x => two x.a.toNat x.b.toNat ++ one x.d.toNat
  | .unpk x => two x.a.toNat x.b.toNat
  | .cbenc x => one x.a.toNat
  | .cbdec x => one x.a.toNat
  | .absm x => two x.a.toNat x.d.toNat
  | .absc x => one x.a.toNat
  | .shfl x => two x.a.toNat x.b.toNat
  | .vote x => if x.k = .elect then [] else one x.a.toNat
  | .red x | .scan x => one x.a.toNat
  | .arg x => two x.a.toNat x.b.toNat
  | .brc x => if x.c = .always then [] else one x.a.toNat
  | .brx x => pair x.r.toNat
  | .ball x | .bany x | .bnone x => one x.a.toNat
  | .ld x => addrRegs x.p x.a.toNat
  | .st x => addrRegs x.p x.a.toNat ++ span x.d.toNat x.z.regs
  | .ldx x => addrRegs x.p x.a.toNat ++ one x.b.toNat
  | .stx x => addrRegs x.p x.a.toNat ++ two x.b.toNat x.d.toNat
  | .atom x => addrRegs x.p x.a.toNat ++ span x.d.toNat x.inRegs
  | .ann x => addrRegs x.p (2 * x.a.toNat) ++ x.operandRegs
  | .annHlp x => addrRegs x.p (2 * x.a.toNat)
  | .fget x | .fclr x => addrRegs x.p x.a.toNat
  | .fset x => addrRegs x.p x.a.toNat ++ one x.d.toNat
  | .tspawn x => pair x.a.toNat ++ pair x.b.toNat
  | .svc x => span x.a.toNat 4
  | .kvg x => span x.b.toNat 2
  | .kvmap x => span x.b.toNat 4
  | .svcret x => pair x.b.toNat
  | _ => []

/-- The sources that an instruction reads in the lowest active lane. -/
def Instr.lows : Instr → List Nat
  | .cbset x => one x.a.toNat
  | .bra x => if x.c = .always then [] else one x.a.toNat
  | .ret x => pair x.r.toNat
  | .mtu x => if x.r.wide then pair x.a.toNat else one x.a.toNat
  | .tile x | .dmode x | .mscl x | .mzero x => one x.a.toNat
  | .phaseAcq x => if x.named then one x.a.toNat else []
  | .barInit x => one x.a.toNat
  | .barAdd x | .mlds x => one x.r.toNat
  | .fapp x => one x.a.toNat ++ span x.b.toNat 16
  | .fpop x => one x.a.toNat
  | .fret x => two x.a.toNat x.b.toNat
  | .mresv x | .nwatch x => pair x.a.toNat
  | .mloop x => span x.a.toNat 4
  | .mgrp x => span x.a.toNat 4 ++ one x.b.toNat
  | .mdrn x => if x.a.toNat % 4 = 0 then span x.a.toNat 4 else one x.a.toNat
  | .cpyL x | .cpyS x | .migr x | .nrd x => pair x.a.toNat ++ span x.b.toNat 8
  | .cpyp x => pair x.a.toNat ++ span x.b.toNat 5
  | .kvg x => pair x.a.toNat ++ span (x.b.toNat + 2) 6
  | .kvmap x => pair x.a.toNat
  | .adec x => pair x.a.toNat ++ span x.b.toNat 4
  | .nwr x | .natm x => pair x.a.toNat ++ span x.b.toNat 8
  | .nsnd x | .stwr x => one x.a.toNat ++ span x.b.toNat 8
  | .strd x | .stfl x => one x.a.toNat ++ span x.b.toNat 8
  | .mtsr x => if x.r.wide then pair x.a.toNat else one x.a.toNat
  | .csave x | .cload x | .cmigr x => pair x.a.toNat ++ span x.b.toNat 8
  | .tlbinv x | .fmapMap x | .fmapUnmap x => pair x.a.toNat ++ one x.b.toNat
  | .fqansResume x | .fqansTerminate x | .kslotLoad x | .kslotZero x | .kslotQuery x
  | .partAssign x | .partReset x | .partRelease x | .partQuery x | .asidqEnter x | .asidqQuery x
  | .asidqLeave x => two x.a.toNat x.b.toNat
  | .scrubStart x | .scrubQuery x => one x.a.toNat ++ span x.b.toNat 4
  | .svcret x => one x.a.toNat
  | _ => []

/-- The destinations of an instruction. -/
def Instr.dsts : Instr → List Nat
  | .mov16 x | .add16 x | .sub16 x | .and16 x | .or16 x | .xor16 x | .shl16 x | .shr16 x | .addi5 x
  | .movi5 x | .fadd16 x | .fmul16 x | .fmax16 x | .fmin16 x | .imul16 x => one x.d.toNat
  | .add x | .sub x | .addc x | .subb x | .minS x | .maxS x | .minU x | .maxU x | .and x | .or x
  | .xor x | .andn x | .orn x | .xnor x | .sel x | .bswz x | .shl x | .shr x | .sar x | .rol x
  | .fshf x | .mulLo x | .mulHiS x | .mulHiU x | .madLo x | .madHiS x | .madHiU x | .bfxU x
  | .bfxS x | .bfi x | .faddF32 x | .fsubF32 x | .fmulF32 x | .ffmaF32 x | .fminF32 x | .fmaxF32 x
  | .fcpysF32 x | .faddF16x2 x | .fsubF16x2 x | .fmulF16x2 x | .ffmaF16x2 x | .fminF16x2 x
  | .fmaxF16x2 x | .fcpysF16x2 x | .faddBf16x2 x | .fsubBf16x2 x | .fmulBf16x2 x | .ffmaBf16x2 x
  | .fminBf16x2 x | .fmaxBf16x2 x | .fcpysBf16x2 x => one x.d.toNat
  | .shl64 x | .shr64 x | .sar64 x | .mulWideS x | .mulWideU x => pair x.d.toNat
  | .popc x | .clz x | .ctz x | .brev x | .iabs x => one x.d.toNat
  | .icmp x => one x.d.toNat
  | .dadd x | .dsub x => one x.d.toNat
  | .dmul x | .dmad x | .dmin x | .dmax x => one x.d.toNat
  | .addi x | .andi x | .ori x | .xori x => one x.d.toNat
  | .shli x | .shri x | .sari x => one x.d.toNat
  | .cmpi x => one x.d.toNat
  | .movw x | .movt x | .movs x => one x.d.toNat
  | .lea x => pair x.d.toNat
  | .fcmp x => one x.d.toNat
  | .fclass x | .abst x => one x.d.toNat
  | .frcp x | .frsq x | .fsqrt x | .fexp2 x | .flog2 x | .fsin x | .fcos x | .ftanh x => one x.d.toNat
  | .cvt x | .cvts x => one x.d.toNat
  | .pack x | .unpk x | .tspawn x | .fapp x | .fret x | .cpyL x | .cpyS x | .cpyp x | .kvg x
  | .migr x | .nrd x | .strd x | .stfl x => one x.d.toNat
  | .cbenc x => pair x.d.toNat
  | .cbdec x => one x.d.toNat
  | .cbget x => one x.d.toNat
  | .absm x | .absc x => one x.d.toNat
  | .shfl x => one x.d.toNat
  | .vote x => one x.d.toNat
  | .red x | .scan x => span x.d.toNat (if x.y = .i4x8 then 3 else 2)
  | .arg x => span x.d.toNat 4
  | .call x => pair x.a.toNat
  | .mfu x => if x.r.wide then pair x.d.toNat else one x.d.toNat
  | .dqry x => pair x.d.toNat
  | .ld x => span x.d.toNat x.z.regs
  | .ldx x => one x.d.toNat
  | .atom x => span x.d.toNat x.outRegs
  | .ann x => pair (2 * x.d.toNat)
  | .annHlp x => one (2 * x.d.toNat)
  | .annq x => pair (2 * x.d.toNat)
  | .barTst x | .barPnd x => one x.r.toNat
  | .fget x | .fset x => one x.d.toNat
  | .fpop x => span x.d.toNat 16
  | .svc x | .kvmap x => pair x.d.toNat
  | .rclaim x => one x.d.toNat
  | .mresv x | .mdrn x | .nwatch x => one x.d.toNat
  | .mstat x | .cpyq x => one x.d.toNat
  | .adec x => span x.d.toNat 4
  | .nwr x | .nsnd x | .stwr x => one x.d.toNat
  | .natm x => span x.d.toNat 3
  | .mfsr x => if x.r.wide then pair x.d.toNat else one x.d.toNat
  | .csave x | .cload x | .cmigr x | .tlbinv x | .partAssign x | .partReset x | .partRelease x
  | .partQuery x | .svcret x | .fmapMap x | .fmapUnmap x => one x.d.toNat
  | .fqansResume x | .fqansTerminate x | .kslotLoad x | .kslotZero x | .kslotQuery x
  | .scrubStart x | .scrubQuery x | .asidqEnter x | .asidqQuery x | .asidqLeave x => pair x.d.toNat
  | _ => []

/-- The predicate register of an instruction (R157). -/
def Instr.predReg (i : Instr) : List Nat :=
  match i.modifier with
  | some m => if m.pred = 0 then [] else one m.pred.toNat
  | none => []

/-- Every register that an instruction reads (R41). -/
def Instr.reads (i : Instr) : List Nat := i.srcs ++ i.lows ++ i.predReg

/-- Every register that an instruction names (R26): BPND names one that it neither reads nor writes. -/
def Instr.names (i : Instr) : List Nat :=
  i.reads ++ i.dsts ++ (match i with | .bpnd x => one x.a.toNat | _ => [])

/-- The control and state instructions that are never captured (R42, R207, R244, R283). -/
def Instr.neverCaptured : Instr → Bool
  | .bra _ | .brc _ | .ball _ | .bany _ | .bnone _ | .brx _ | .ret _ | .call _ | .exit | .tend _ | .tile _
  | .dmode _ | .mtu _ | .rgive _ | .rclaim _ | .trapx _ | .uret | .brk | .cbset _ | .mfsr _ | .mtsr _ | .tret
  | .csave _ | .cload _ | .cmigr _ | .tlbinv _ | .fqansResume _ | .fqansTerminate _ | .kslotLoad _ | .kslotZero _
  | .kslotQuery _ | .scrubStart _ | .scrubQuery _ | .partAssign _ | .partReset _ | .partRelease _ | .partQuery _
  | .svcret _ | .fmapMap _ | .fmapUnmap _ | .asidqEnter _ | .asidqQuery _ | .asidqLeave _ => true
  | _ => false

/-- The instructions of major 0x3E (R159, R283). -/
def Instr.privileged : Instr → Bool
  | .mfsr _ | .mtsr _ | .tret
  | .csave _ | .cload _ | .cmigr _ | .tlbinv _ | .fqansResume _ | .fqansTerminate _ | .kslotLoad _ | .kslotZero _
  | .kslotQuery _ | .scrubStart _ | .scrubQuery _ | .partAssign _ | .partReset _ | .partRelease _ | .partQuery _
  | .svcret _ | .fmapMap _ | .fmapUnmap _ | .asidqEnter _ | .asidqQuery _ | .asidqLeave _ => true
  | _ => false

/-- The memory-writing instructions of the ordering rules (R46, R226, R256). -/
def Instr.memWriting : Instr → Bool
  | .st _ | .stx _ | .atom _ | .ann _ | .phaseRel _ | .phaseAr _ | .fence _ | .barArv _ | .fset _ | .fclr _
  | .fapp _ | .fret _ | .tspawn _ | .svc _ | .kvmap _ => true
  | .phaseAcq x => decide (x.s.code.toNat < 3)
  | _ => false

/-- The instructions that order the accesses of their warp as a FENCE does (R139, R143, R146, R225); BAR.ARV of a group
barrier is another (R147). -/
def Instr.fences : Instr → Bool
  | .fence _ | .phaseAr _ => true
  | .phaseRel x => decide (x.s.code.toNat < 3)
  | .phaseAcq x => decide (x.s.code.toNat < 3)
  | .atom x => x.rel && decide (x.s.code.toNat < 3)
  | .ann x => x.ord.getLsbD 0 && x.p == .s
  | .fset x => x.p == .s
  | _ => false

/-- The captured reads that a FENCE must follow: loads of scratch, and FGET (R146). -/
def Instr.fenced : Instr → Bool
  | .ld x => x.p != .g
  | .ldx x => x.p != .g
  | .fget _ => true
  | _ => false

/-- The fences that R22 allows at gang scope in a gang only. -/
def Instr.fenceOnly : Instr → Bool
  | .fence _ => true
  | _ => false

/-- The bytes of a size of LD (R220). -/
def LdSize.bytes (z : LdSize) : Nat :=
  match z with
  | .b8 | .s8 => 1
  | .b16 | .s16 => 2
  | .b32 => 4
  | .b64 => 8
  | .b128 => 16

/-- The register words of a loaded value (R220). -/
def LdSize.words (z : LdSize) (v : Nat) : List Word :=
  match z with
  | .s8 => [(BitVec.ofNat 8 v).signExtend 32]
  | .s16 => [(BitVec.ofNat 16 v).signExtend 32]
  | .b64 => [BitVec.ofNat 32 v, BitVec.ofNat 32 (v / 2 ^ 32)]
  | .b128 => [BitVec.ofNat 32 v, BitVec.ofNat 32 (v / 2 ^ 32), BitVec.ofNat 32 (v / 2 ^ 64), BitVec.ofNat 32 (v / 2 ^ 96)]
  | _ => [BitVec.ofNat 32 v]

/-- The bytes of a size of ST (R221). -/
def StSize.bytes (z : StSize) : Nat :=
  match z with
  | .b8 => 1
  | .b16 => 2
  | .b32 => 4
  | .b64 => 8
  | .b128 => 16

/-- The new value that an ATOM gives a location holding x (R224), in words of n bytes. -/
def AtomOp.apply (o : AtomOp) (n : Nat) (x y nw : Nat) : Nat :=
  let w := 2 ^ (8 * n)
  let sg := fun (v : Nat) => if 2 * v < w then (v : Int) else (v : Int) - w
  match o with
  | .add => (x + y) % w
  | .min => if sg x ≤ sg y then x else y
  | .max => if sg x ≤ sg y then y else x
  | .and => x &&& y
  | .or => x ||| y
  | .xor => x ^^^ y
  | .swp => y
  | .cas => if x = y then nw else x
  | .incw => if y ≤ x then 0 else x + 1

end Sys2Proof
end

