-- ==== Sys2Proof/Machine/Aes.lean ====
section
/-! DEFINITION. XTS-AES-256 as IEEE 1619 defines it over FIPS 197, under which a page with KV = 1 is held (R314). A block is 16
bytes, column by column. -/

namespace Sys2Proof.Machine

/-! ### AES-256 (FIPS 197) -/

/-- The substitution box, 32 entries a numeral, the lowest in the lowest byte. -/
def aesBox : List Nat :=
  [0xC072A49CAFA2D4ADF04759FA7DC982CA76ABD7FE2B670130C56F6BF27B777C63,
   0x75B227EBE28012079A059618C323C7041531D871F1E5A534CCF73F362693FDB7,
   0xCF584C4A39BECB6A5BB1FC20ED00D153842FE329B3D63B52A05A6E1B1A2C8309,
   0xD2F3FF1021DAB6BCF5389D928F40A351A89F3C507F02F94585334D43FBAAEFD0,
   0xDB0B5EDE14B8EE4688902A22DC4F816073195D643D7EA7C41744975FEC130CCD,
   0x08AE7A65EAF4566CA94ED58D6D37C8E779E4959162ACD3C25C2406490A3A32E0,
   0x9E1DC186B95735610EF6034866B53E708A8BBD4B1F74DDE8C6B4A61C2E2578BA,
   0x16BB54B00F2D99416842E6BF0D89A18CDF2855CEE9871E9B948ED9691198F8E1]

/-- The inverse of the substitution box. -/
def aesInvBox : List Nat :=
  [0xCBE9DEC444438E3487FF2F9B8239E37CFBD7F3819EA340BF38A53630D56A0952,
   0x25D18B6D49A25B76B224D92866A12E084EC3FA420B954CEE3D23C2A632947B54,
   0x849D8DA75746155EDAB9EDFD5048706C92B6655DCC5CA4D41698688664F6F872,
   0x6B8A130103BDAFC1020F3FCA8F1E2CD00645B3B80558E4F70AD3BC8C00ABD890,
   0x6EDF751CE837F9E28535ADE72274AC9673E6B4F0CECFF297EADC674F4111913A,
   0xF45ACD78FEC0DB9A2079D2C64B3E56FC1BBE18AA0E62B76F89C5291D711AF147,
   0xEF9CC9939F7AE52D0D4AB519A97F51605FEC8027591012B131C7078833A8DD1F,
   0x7D0C2155631469E126D677BA7E042B17619953833CBBEBC8B0F52AAE4D3BE0A0]

/-- An entry of a substitution box. -/
def boxAt (t : List Nat) (x : Byte) : Byte := BitVec.ofNat 8 (t.getD (x.toNat / 32) 0 / 2 ^ (8 * (x.toNat % 32)))

/-- A byte times x modulo x^8 + x^4 + x^3 + x + 1. -/
def xtime (x : Byte) : Byte := (x <<< 1) ^^^ (if x.msb then 0x1B else 0)

/-- The product of a byte with a small number in the same field, bit by bit. -/
def aesMul (x : Byte) (n : Nat) : Byte :=
  let y := xtime x
  let z := xtime y
  let pick := fun (i : Nat) (v : Byte) => if n.testBit i then v else 0
  pick 0 x ^^^ pick 1 y ^^^ pick 2 z ^^^ pick 3 (xtime z)

/-- The bytes of a block, one by one. -/
def byBytes (f : Nat → Byte) : List Byte := (List.range 16).map f

/-- Two blocks, or two words, added. -/
def xorBytes (a b : List Byte) : List Byte := List.zipWith (· ^^^ ·) a b

/-- Each row of a block turned left by k times its number. -/
def shiftRows (k : Nat) (b : List Byte) : List Byte := byBytes fun i => b.getD ((i + 4 * k * (i % 4)) % 16) 0

/-- Each column of a block times the circulant matrix whose first row is `m`. -/
def mixColumns (m : List Nat) (b : List Byte) : List Byte := byBytes fun i =>
  let col := (b.drop (i / 4 * 4)).take 4
  (col.zipIdx).foldl (fun r p => r ^^^ aesMul p.1 (m.getD ((p.2 + 4 - i % 4) % 4) 0)) 0

/-- The next word of the key schedule, given the words so far, the newest first. -/
def nextKeyWord (ws : List (List Byte)) : List Byte :=
  let n := ws.length
  let t := ws.headD []
  let s := t.map (boxAt aesBox)
  let t := if n % 8 = 0 then xorBytes (s.drop 1 ++ s.take 1) [1#8 <<< (n / 8 - 1), 0, 0, 0] else if n % 8 = 4 then s else t
  xorBytes (ws.getD 7 []) t

/-- The 15 round keys of a 32-byte key. -/
def roundKeys (key : List Byte) : List (List Byte) :=
  let first := (List.range 8).map fun i => (key.drop (4 * i)).take 4
  let ws := ((List.range 52).foldl (fun ws _ => nextKeyWord ws :: ws) first.reverse).reverse
  (List.range 15).map fun r => ((ws.drop (4 * r)).take 4).flatten

/-- A block enciphered. -/
def aesEnc (key b : List Byte) : List Byte :=
  let ks := roundKeys key
  let round := fun (s : List Byte) (r : Nat) =>
    let t := shiftRows 1 (s.map (boxAt aesBox))
    xorBytes (if r = 14 then t else mixColumns [2, 3, 1, 1] t) (ks.getD r [])
  ((List.range 14).map (· + 1)).foldl round (xorBytes b (ks.getD 0 []))

/-- A block deciphered. -/
def aesDec (key b : List Byte) : List Byte :=
  let ks := roundKeys key
  let round := fun (s : List Byte) (r : Nat) =>
    let t := xorBytes s (ks.getD r [])
    (shiftRows 3 (if r = 14 then t else mixColumns [14, 11, 13, 9] t)).map (boxAt aesInvBox)
  xorBytes (((List.range 14).map (14 - ·)).foldl round b) (ks.getD 0 [])

/-! ### XTS (IEEE 1619) -/

/-- The keys of a slot: the data key and the tweak key. -/
abbrev Keys := List Byte × List Byte

/-- A tweak times α modulo x^128 + x^7 + x^2 + x + 1, its lowest byte first. -/
def tweakNext (t : List Byte) : List Byte :=
  let carry := fun (i : Nat) => if i = 0 then 0#8 else (t.getD (i - 1) 0) >>> 7
  let v := byBytes fun i => ((t.getD i 0) <<< 1) ^^^ carry i
  if (t.getD 15 0).msb then xorBytes v (0x87 :: List.replicate 15 0) else v

/-- The tweaks of the eight blocks of a data unit. -/
def tweaks (k : Keys) (unit : Nat) : List (List Byte) :=
  let t0 := aesEnc k.2 (byBytes fun i => BitVec.ofNat 8 (unit / 2 ^ (8 * i)))
  (List.range 8).map fun j => (List.range j).foldl (fun t _ => tweakNext t) t0

/-- The eight blocks of a 128-byte line, each under its tweak, through a block cipher. -/
def xtsLine (f : List Byte → List Byte) (k : Keys) (unit : Nat) (bs : List Byte) : List Byte :=
  (tweaks k unit).zipIdx.flatMap fun p => xorBytes (f (xorBytes ((bs.drop (16 * p.2)).take 16) p.1)) p.1

/-- The 128 bytes of a line as memory holds them, known under some keys: enciphered, or as they are under none. -/
def encipher (v : Option Keys) (line : Nat) (bs : List Byte) : List Byte :=
  match v with
  | none => bs
  | some k => xtsLine (aesEnc k.1) k line bs

/-- The 128 bytes that memory holds of a line, deciphered under some keys. -/
def decipher (v : Option Keys) (line : Nat) (bs : List Byte) : List Byte :=
  match v with
  | none => bs
  | some k => xtsLine (aesDec k.1) k line bs

/-- A byte of a 128-byte line, whose bytes are known under some keys, as the holder of other keys sees it (R314): the line's
tweak is its number. -/
def otherView (v u : Option Keys) (line : Nat) (bs : List Byte) (i : Nat) : Byte :=
  (decipher u line (encipher v line bs)).getD i 0

end Sys2Proof.Machine
end

