-- ==== Sys2Proof/Config.lean ====
section
/-! DEFINITION. The free values: what the spec leaves open and a run still needs. Each is an opaque constant with
no body that a proof could see, so that a theorem holds whatever it is. -/

namespace Sys2Proof.Config

/-- The correctly rounded code of a special function whose enclosures have not separated within the model's
precision bound (log 6): by function number, format code and operand code. -/
opaque specialCode : Nat → Nat → Nat → Nat

/-- A 32-bit value that the spec leaves open, by the state's counter of free values (log 4). -/
opaque freeWord : Nat → Word

/-- A byte that the spec leaves open, by the state's counter of free values (log 4). -/
opaque freeByte : Nat → Byte

/-- The physical base of a die's sheaf buffers, which the firmware core reserves at bring-up (R325). -/
opaque sheafArea : Nat → Nat

/-- Whether the firmware image configures a site class (R328). -/
opaque siteClass : Nat → Bool

/-- The entry address that the firmware image gives a die's root service context (R329). -/
opaque rootEntry : Nat → DWord

/-- The page-table root that the firmware image gives a die's root service context (R329). -/
opaque rootTable : Nat → DWord

/-- The address-space id that the firmware image gives a die's root service context (R329). -/
opaque rootAsid : Nat → BitVec 16

/-- The partition for which a root service context does a piece of work, by the state's unique number (R343, log 66). -/
opaque workFor : Nat → BitVec 8

/-- The module's serial number (R356). -/
opaque serial : DWord

end Sys2Proof.Config
end

