-- ==== Sys2Proof/Machine/Num.lean ====
section
/-! DEFINITION. Number formats, rounding and conversion (03, R51 to R66): every value is taken exactly, as an
integer times a power of two, and rounded once. -/

namespace Sys2Proof.Machine

/-- The sticky flags of R71, bit 5 SAT, 4 NV, 3 DZ, 2 OF, 1 UF, 0 NX. -/
abbrev Flags := BitVec 6

/-- No flag. -/
def flag0 : Flags := 0
def flagNX : Flags := 0b000001
def flagUF : Flags := 0b000010
def flagOF : Flags := 0b000100
def flagDZ : Flags := 0b001000
def flagNV : Flags := 0b010000
def flagSAT : Flags := 0b100000

/-- A magnitude (m + d) x 2^e with its sign: d is 0, or lies strictly between 0 and 1 when `sticky` says so. -/
structure Exact where
  neg : Bool
  m : Nat
  e : Int
  sticky : Bool := false
  deriving DecidableEq, Repr

/-- A value of a number format: absent (R51), a NaN, an infinity or a number. -/
inductive FVal where
  | absent
  | nan
  | inf (neg : Bool)
  | num (x : Exact)
  deriving DecidableEq, Repr

/-- +0. -/
def FVal.zero : FVal := .num ⟨false, 0, 0, false⟩

def FVal.isAbsent : FVal → Bool
  | .absent => true
  | _ => false

def FVal.isNan : FVal → Bool
  | .nan => true
  | _ => false

/-- Number of binary digits of m. -/
def bitLen (m : Nat) : Nat := if m = 0 then 0 else Nat.log2 m + 1

/-- The integer square root by binary digits: `isqrtGo k r m` adds the bits k-1 to 0 to r. -/
def isqrtGo : Nat → Nat → Nat → Nat
  | 0, r, _ => r
  | k + 1, r, m =>
    let c := r + 2 ^ k
    isqrtGo k (if c * c ≤ m then c else r) m

/-- The integer square root of m, rounded down. -/
def isqrt (m : Nat) : Nat := isqrtGo (bitLen m / 2 + 1) 0 m

/-- The signed integer m x 2^e at scale 2^e0, for e0 at most e. -/
def Exact.atScale (x : Exact) (e0 : Int) : Int :=
  let v : Int := (x.m * 2 ^ (x.e - e0).toNat : Nat)
  if x.neg then -v else v

/-- An exact number from a signed integer and an exponent; a zero takes the sign `zneg`. -/
def Exact.ofInt (v : Int) (e : Int) (zneg : Bool) : Exact :=
  if v = 0 then ⟨zneg, 0, 0, false⟩ else ⟨v < 0, v.natAbs, e, false⟩

/-- The exact value times 2^k. -/
def Exact.scale (x : Exact) (k : Int) : Exact := { x with e := x.e + k }

/-- The exact product. -/
def Exact.mul (x y : Exact) : Exact := ⟨x.neg != y.neg, x.m * y.m, x.e + y.e, false⟩

/-- The exact sum. Two zeros of one sign keep it; any other zero sum is +0, or -0 when rounding down (R199). -/
def Exact.add (x y : Exact) (rnd : Rnd) : Exact :=
  if x.m = 0 ∧ y.m = 0 ∧ x.neg = y.neg then ⟨x.neg, 0, 0, false⟩
  else if x.m = 0 ∧ y.m ≠ 0 then y
  else if y.m = 0 ∧ x.m ≠ 0 then x
  else
    let e0 := min x.e y.e
    Exact.ofInt (x.atScale e0 + y.atScale e0) e0 (rnd == .down)

/-- The comparison x < y of exact values. -/
def Exact.lt (x y : Exact) : Bool :=
  let e0 := min x.e y.e
  decide (x.atScale e0 < y.atScale e0)

/-- The comparison x = y of exact values; -0 equals +0. -/
def Exact.eq (x y : Exact) : Bool :=
  let e0 := min x.e y.e
  decide (x.atScale e0 = y.atScale e0)

/-- The exact quotient of two numbers, the second not 0: at least 96 significant bits and 64 fraction bits,
and whether anything remains. -/
def Exact.div (x y : Exact) : Exact :=
  if x.m = 0 then ⟨x.neg != y.neg, 0, 0, false⟩
  else
    let k := 96 + bitLen y.m + (64 + (x.e - y.e)).toNat
    let n := x.m * 2 ^ k
    ⟨x.neg != y.neg, n / y.m, x.e - y.e - k, n % y.m ≠ 0⟩

/-- The exact quotient of a number by a positive count (R79). -/
def Exact.divNat (x : Exact) (c : Nat) : Exact := x.div ⟨false, c, 0, false⟩

/-! ### The parameters of the formats (R53, R57) -/

/-- The layout and the special values of a floating-point format (R53). -/
structure FParam where
  ebits : Nat
  mbits : Nat
  bias : Int
  hasInf : Bool
  hasNan : Bool
  hasNegZero : Bool
  /-- The code of the largest finite value. -/
  maxCode : Nat
  nanCode : Nat
  absentCode : Nat
  deriving DecidableEq, Repr

def fpF32 : FParam := ⟨8, 23, 127, true, true, true, 0x7F7FFFFF, 0x7FC00000, 0xFFFFFFFF⟩
def fpF16 : FParam := ⟨5, 10, 15, true, true, true, 0x7BFF, 0x7E00, 0xFFFF⟩
def fpBF16 : FParam := ⟨8, 7, 127, true, true, true, 0x7F7F, 0x7FC0, 0xFFFF⟩
def fpE4M3 : FParam := ⟨4, 3, 7, false, true, false, 0x7E, 0x7F, 0x80⟩
def fpE5M2 : FParam := ⟨5, 2, 15, true, true, false, 0x7B, 0x7E, 0x80⟩
def fpE3M2 : FParam := ⟨3, 2, 3, false, false, false, 0x1F, 0, 0x20⟩
def fpE2M3 : FParam := ⟨2, 3, 1, false, false, false, 0x1F, 0, 0x20⟩
def fpE2M1 : FParam := ⟨2, 1, 1, false, false, false, 0x7, 0, 0x8⟩

/-- What a format code stands for (R51). -/
inductive FmtClass where
  | float (p : FParam)
  /-- A data integer: its width, its present range and its absent code (R57). -/
  | int (width : Nat) (lo hi : Int) (absent : Nat)
  /-- A codebook index: its width and the number of entries used (R60). -/
  | codebook (width used : Nat)
  /-- A machine word: its range (R59). -/
  | machine (lo hi : Int)
  deriving DecidableEq, Repr

/-- The element format of a scaled format, and any other format itself (R51). -/
def Fmt.element : Fmt → Fmt
  | .se4m3 => .e4m3
  | .si8 => .i8
  | .si4 => .i4
  | .se2m1 => .e2m1
  | .scb4 => .cb4
  | f => f

/-- The class of a format; a scaled format has its element's. -/
def fmtClass (f : Fmt) : FmtClass :=
  match f with
  | .f32 => .float fpF32
  | .f16 => .float fpF16
  | .bf16 => .float fpBF16
  | .e4m3 | .se4m3 => .float fpE4M3
  | .e5m2 => .float fpE5M2
  | .e3m2 => .float fpE3M2
  | .e2m3 => .float fpE2M3
  | .e2m1 | .se2m1 => .float fpE2M1
  | .i32 => .int 32 (-2147483647) 2147483647 0x80000000
  | .i16 => .int 16 (-32767) 32767 0x8000
  | .i8 | .si8 => .int 8 (-127) 127 0x80
  | .u8 => .int 8 0 254 0xFF
  | .i6 => .int 6 (-31) 31 0x20
  | .i4 | .si4 => .int 4 (-7) 7 0x8
  | .u4 => .int 4 0 14 0xF
  | .i2 => .int 2 (-1) 1 0x2
  | .cb4 | .scb4 => .codebook 4 15
  | .cb3 => .codebook 3 7
  | .cb2 => .codebook 2 3
  | .s32 => .machine (-2147483648) 2147483647
  | .u32 => .machine 0 4294967295

/-- The width in bits of an element (R51, R205). -/
def fmtWidth (f : Fmt) : Nat :=
  match fmtClass f with
  | .float p => 1 + p.ebits + p.mbits
  | .int w .. => w
  | .codebook w _ => w
  | .machine .. => 32

/-- The absent code of a format; 0 for a machine word (R51, R66). -/
def absentCode (f : Fmt) : Nat :=
  match fmtClass f with
  | .float p => p.absentCode
  | .int _ _ _ a => a
  | .codebook _ n => n
  | .machine .. => 0

/-! ### Reading a code -/

/-- The value of a floating-point code (R53, R54, R55). -/
def decodeFloat (p : FParam) (c : Nat) : FVal :=
  let c := c % 2 ^ (1 + p.ebits + p.mbits)
  if c = p.absentCode then .absent
  else
    let neg := c / 2 ^ (p.ebits + p.mbits) = 1
    let ex := c / 2 ^ p.mbits % 2 ^ p.ebits
    let fr := c % 2 ^ p.mbits
    let top := ex + 1 = 2 ^ p.ebits
    if p.hasInf && top then if fr = 0 then .inf neg else .nan
    else if p.hasNan && top && fr + 1 == 2 ^ p.mbits then .nan
    else if ex = 0 then .num ⟨neg, fr, 1 - p.bias - p.mbits, false⟩
    else .num ⟨neg, fr + 2 ^ p.mbits, (ex : Int) - p.bias - p.mbits, false⟩

/-- The signed value of the low w bits of c. -/
def signedOf (w c : Nat) : Int :=
  let c := c % 2 ^ w
  if c < 2 ^ (w - 1) then c else (c : Int) - 2 ^ w

/-- The value of an integer code (R57). -/
def decodeInt (w : Nat) (lo : Int) (absent : Nat) (c : Nat) : FVal :=
  let c := c % 2 ^ w
  if c = absent then .absent
  else .num (Exact.ofInt (if lo < 0 then signedOf w c else c) 0 false)

/-- A codebook table: 16 BF16 entries (R60). -/
abbrev Codebook := List (BitVec 16)

/-- The table of a warp at its start (R207). -/
def Codebook.initial : Codebook := List.replicate 16 0xFFFF

/-- The BF16 value of entry i (R60). -/
def Codebook.entry (t : Codebook) (i : Nat) : FVal := decodeFloat fpBF16 (t.getD i 0xFFFF).toNat

/-- The value of a code of a format (R51 to R60); a scaled format reads its element without the scale. -/
def decodeFmt (f : Fmt) (t : Codebook) (c : Nat) : FVal :=
  match fmtClass f with
  | .float p => decodeFloat p c
  | .int w lo _ a => decodeInt w lo a c
  | .codebook w n =>
    let i := c % 2 ^ w
    if i < n then t.entry i else .absent
  | .machine lo _ => .num (Exact.ofInt (if lo < 0 then signedOf 32 c else (c % 2 ^ 32 : Nat)) 0 false)

/-! ### Rounding (R56, R64, R65) -/

/-- Rounds (m + d) x 2^e to a multiple of 2^q: the multiple, and whether anything was lost. -/
def roundTo (x : Exact) (q : Int) (rnd : Rnd) : Nat × Bool :=
  if q ≤ x.e then (x.m * 2 ^ (x.e - q).toNat, x.sticky)
  else
    let k := (q - x.e).toNat
    let n := x.m / 2 ^ k
    let r := x.m % 2 ^ k
    let half := 2 ^ (k - 1)
    let lost := r ≠ 0 || x.sticky
    let up :=
      match rnd with
      | .nearest => decide (half < r) || (r == half && (x.sticky || n % 2 == 1))
      | .zero => false
      | .down => x.neg && lost
      | .up => !x.neg && lost
    (if up then n + 1 else n, lost)

/-- The code of n x 2^q for n at most 2^(mbits+1), q at least the format's smallest exponent. -/
def encodeFloat (p : FParam) (neg : Bool) (n : Nat) (q : Int) : Nat :=
  let s := if neg then 2 ^ (p.ebits + p.mbits) else 0
  let (n, q) := if n = 2 ^ (p.mbits + 1) then (n / 2, q + 1) else (n, q)
  if n < 2 ^ p.mbits then s + n
  else s + (q + p.mbits + p.bias).toNat * 2 ^ p.mbits + (n - 2 ^ p.mbits)

/-- The code of an infinity, or of the largest finite value where the format has none. -/
def infCode (p : FParam) (neg : Bool) : Nat :=
  let s := if neg then 2 ^ (p.ebits + p.mbits) else 0
  if p.hasInf then s + (2 ^ p.ebits - 1) * 2 ^ p.mbits else s + p.maxCode

/-- The code of the largest finite value with a sign. -/
def maxFiniteCode (p : FParam) (neg : Bool) : Nat :=
  (if neg then 2 ^ (p.ebits + p.mbits) else 0) + p.maxCode

/-- The code of a zero; a format without -0 writes +0 (R55). -/
def zeroCode (p : FParam) (neg : Bool) : Nat :=
  if neg && p.hasNegZero then 2 ^ (p.ebits + p.mbits) else 0

/-- Rounds an exact value once into a floating-point format (R55, R56, R65): the code and the flags. -/
def roundFloat (p : FParam) (x : Exact) (rnd : Rnd) (sat : Bool) : Nat × Flags :=
  if x.m = 0 ∧ ¬ x.sticky then (zeroCode p x.neg, flag0)
  else
    let ex := x.e + bitLen x.m - 1
    let qfree := ex - p.mbits
    let (nf, _) := roundTo x qfree rnd
    let emin := 1 - p.bias
    let big : Exact :=
      match decodeFloat p p.maxCode with
      | .num b => b
      | _ => ⟨false, 0, 0, false⟩
    if big.lt ⟨false, nf, qfree, false⟩ then
      let toInf := p.hasInf && !sat &&
        (match rnd with
          | .nearest => true
          | .zero => false
          | .down => x.neg
          | .up => !x.neg)
      (if toInf then infCode p x.neg else maxFiniteCode p x.neg, flagOF ||| flagNX)
    else
      let q := max qfree (emin - p.mbits)
      let (n, lost) := roundTo x q rnd
      let tiny := Exact.lt ⟨false, nf, qfree, false⟩ ⟨false, 1, emin, false⟩
      let code := if n = 0 then zeroCode p x.neg else encodeFloat p x.neg n q
      (code, (if lost then flagNX else flag0) ||| (if lost && tiny then flagUF else flag0))

/-! ### Conversion (R61, R66) -/

/-- The finite entries of a codebook's used range with their indices, lowest first (R61). -/
def Codebook.finite (t : Codebook) (n : Nat) : List (Nat × Exact) :=
  (List.range n).filterMap fun i =>
    match t.entry i with
    | .num x => some (i, x)
    | _ => none

/-- The distance of two exact values as a pair of an integer and its exponent. -/
def Exact.dist (x y : Exact) : Exact :=
  let e0 := min x.e y.e
  Exact.ofInt ((x.atScale e0 - y.atScale e0).natAbs : Nat) e0 false

/-- The entry nearest to x, ties to the lower index (R61). -/
def nearestEntry (x : Exact) : List (Nat × Exact) → Option (Nat × Exact)
  | [] => none
  | (i, v) :: r =>
    match nearestEntry x r with
    | none => some (i, v)
    | some (j, u) => if (x.dist u).lt (x.dist v) then some (j, u) else some (i, v)

/-- The largest, or the smallest, entry, ties to the lower index (R61). -/
def extremeEntry (smallest : Bool) : List (Nat × Exact) → Option (Nat × Exact)
  | [] => none
  | (i, v) :: r =>
    match extremeEntry smallest r with
    | none => some (i, v)
    | some (j, u) => if (if smallest then u.lt v else v.lt u) then some (j, u) else some (i, v)

/-- Encodes a present value into a codebook (R61). -/
def encodeCodebook (t : Codebook) (n : Nat) (x : FVal) : Nat × Flags :=
  let es := t.finite n
  match x with
  | .absent => (n, flag0)
  | .nan => (n, flagNV)
  | .inf neg =>
    match extremeEntry neg es with
    | some (i, _) => (i, flagNV)
    | none => (n, flagNV)
  | .num v =>
    match nearestEntry v es with
    | some (i, u) => (i, if v.eq u then flag0 else flagNX)
    | none => (n, flagNV)

/-- The bit pattern of an integer in w bits. -/
def patternOf (w : Nat) (v : Int) : Nat := (v % 2 ^ w).toNat

/-- Converts a value into an integer range (R66): the pattern and the flags. -/
def convertInt (w : Nat) (lo hi : Int) (x : Exact) (rnd : Rnd) : Nat × Flags :=
  let (n, lost) := roundTo x 0 rnd
  let y : Int := if x.neg then -(n : Int) else n
  let nx := if lost then flagNX else flag0
  if hi < y then (patternOf w hi, nx ||| flagNV)
  else if y < lo then (patternOf w lo, nx ||| flagNV)
  else (patternOf w y, nx)

/-- One conversion (R66): the exact source value rounded once into the destination. -/
def convert (x : FVal) (dst : Fmt) (t : Codebook) (rnd : Rnd) (sat : Bool) : Nat × Flags :=
  match fmtClass dst, x with
  | .float p, .absent => (p.absentCode, flag0)
  | .float p, .nan => if p.hasNan then (p.nanCode, flag0) else (p.absentCode, flagNV)
  | .float p, .inf neg => if p.hasInf then (infCode p neg, flag0) else (maxFiniteCode p neg, flagNV)
  | .float p, .num v => roundFloat p v rnd sat
  | .int _ _ _ a, .absent => (a, flag0)
  | .int _ _ _ a, .nan => (a, flagNV)
  | .int w lo hi _, .inf neg => (patternOf w (if neg then lo else hi), flagNV)
  | .int w lo hi _, .num v => convertInt w lo hi v rnd
  | .codebook _ n, x => encodeCodebook t n x
  | .machine .., .absent => (0, flag0)
  | .machine .., .nan => (0, flagNV)
  | .machine lo hi, .inf neg => (patternOf 32 (if neg then lo else hi), flagNV)
  | .machine lo hi, .num v => convertInt 32 lo hi v rnd

/-- Decodes a present element with its block scale into an exact value (R63). Under a block scale of zero the spec's table
gives zeros and its product rule a NaN for a NaN or infinite element: here the product rule holds, and the infinite one
raises NV (DESIGN CHOICE, log 69). -/
def scaledValue (f : Fmt) (t : Codebook) (elem : Nat) (scale : Word) : FVal × Flags :=
  let s := decodeFloat fpF32 scale.toNat
  match decodeFmt f t elem, s with
  | .absent, _ => (.absent, flag0)
  | _, .absent => (.absent, flag0)
  | _, .nan => (.nan, flag0)
  | .nan, _ => (.nan, flag0)
  | .inf a, .inf b => (.inf (a != b), flag0)
  | .inf a, .num v => if v.m = 0 then (.nan, flagNV) else (.inf (a != v.neg), flag0)
  | .num v, .inf b => if v.m = 0 then (.nan, flagNV) else (.inf (v.neg != b), flag0)
  | .num v, .num u => (.num (v.mul u), flag0)

/-- The entry whose product with the scale lies nearest to x: the entry nearest to the quotient. -/
def encodeScaledCodebook (t : Codebook) (n : Nat) (x s : Exact) : Nat × Flags :=
  let es := t.finite n
  match nearestEntry x (es.map fun p => (p.1, p.2.mul s)) with
  | some (i, u) => (i, if x.eq u then flag0 else flagNX)
  | none => (n, flagNV)

/-- Encodes a value into a scaled block (R63): the element nearest to the exact quotient. -/
def encodeScaled (f : Fmt) (t : Codebook) (x : FVal) (scale : Word) (rnd : Rnd) (sat : Bool) : Nat × Flags :=
  let s := decodeFloat fpF32 scale.toNat
  match x, s with
  | .absent, _ => (absentCode f, flag0)
  | _, .absent => (absentCode f, flag0)
  | _, .nan => (absentCode f, flagNV)
  | _, .inf _ => (absentCode f, flagNV)
  | .nan, .num u => if u.m = 0 then (absentCode f, flagNV) else convert .nan (Fmt.element f) t rnd sat
  | .inf a, .num u =>
    if u.m = 0 then (absentCode f, flagNV) else convert (.inf (a != u.neg)) (Fmt.element f) t rnd sat
  | .num v, .num u =>
    if u.m = 0 then (absentCode f, flagNV)
    else
      match fmtClass f with
      | .codebook _ n => encodeScaledCodebook t n v u
      | _ => convert (.num (v.div u)) (Fmt.element f) t rnd sat

/-! ### Arithmetic on values (R67 to R70, R199) -/

/-- The exact sum of two present values (R199). -/
def fsum (a b : FVal) (rnd : Rnd) : FVal × Flags :=
  match a, b with
  | .absent, _ => (.absent, flag0)
  | _, .absent => (.absent, flag0)
  | .nan, _ => (.nan, flag0)
  | _, .nan => (.nan, flag0)
  | .inf x, .inf y => if x = y then (.inf x, flag0) else (.nan, flagNV)
  | .inf x, .num _ => (.inf x, flag0)
  | .num _, .inf y => (.inf y, flag0)
  | .num x, .num y => (.num (x.add y rnd), flag0)

/-- The exact product of two present values (R199). -/
def fprod (a b : FVal) : FVal × Flags :=
  match a, b with
  | .absent, _ => (.absent, flag0)
  | _, .absent => (.absent, flag0)
  | .nan, _ => (.nan, flag0)
  | _, .nan => (.nan, flag0)
  | .inf x, .inf y => (.inf (x != y), flag0)
  | .inf x, .num y => if y.m = 0 then (.nan, flagNV) else (.inf (x != y.neg), flag0)
  | .num x, .inf y => if x.m = 0 then (.nan, flagNV) else (.inf (x.neg != y), flag0)
  | .num x, .num y => (.num (x.mul y), flag0)

/-- Negation acts on the sign alone (R69). -/
def FVal.neg : FVal → FVal
  | .absent => .absent
  | .nan => .nan
  | .inf n => .inf (!n)
  | .num x => .num { x with neg := !x.neg }

/-- The magnitude acts on the sign alone (R69). -/
def FVal.abs : FVal → FVal
  | .absent => .absent
  | .nan => .nan
  | .inf _ => .inf false
  | .num x => .num { x with neg := false }

/-- mod(x, NEG, ABS): the magnitude first, then the negation (R69). -/
def FVal.clause (x : FVal) (neg abs : Bool) : FVal :=
  let y := if abs then x.abs else x
  if neg then y.neg else y

/-- x < y in the order of IEEE minimum and maximum: -0 below +0 (R70); neither is a NaN or absent. -/
def FVal.below (x y : FVal) : Bool :=
  match x, y with
  | .inf a, .inf b => a && !b
  | .inf a, _ => a
  | _, .inf b => !b
  | .num a, .num b => if a.m = 0 ∧ b.m = 0 then a.neg && !b.neg else a.lt b
  | _, _ => false

/-- IEEE 754-2019 minimum of present values (R70). -/
def fminimum (a b : FVal) : FVal :=
  if a.isNan || b.isNan then .nan else if b.below a then b else a

/-- IEEE 754-2019 maximum of present values (R70). -/
def fmaximum (a b : FVal) : FVal :=
  if a.isNan || b.isNan then .nan else if a.below b then b else a

/-- The sign bit of a value of a format, NaN and absent included, is read from its code. -/
def signBit (p : FParam) (c : Nat) : Bool := c / 2 ^ (p.ebits + p.mbits) % 2 = 1

/-- Rounds a result once and applies SAT and CLAMP (R68, R157): SCALE on the exact value first. A value that
passes through raises no flag (R72). -/
def post (p : FParam) (r : FVal) (fl : Flags) (m : Option Modifier) (passed : Bool) : Nat × Flags :=
  let rnd := match m with | some m => m.rnd | none => .nearest
  let sc : Int := match m with | some m => m.scale.toInt | none => 0
  let sat := match m with | some m => m.sat | none => false
  let clamp := match m with | some m => m.clamp | none => false
  match r with
  | .absent => (p.absentCode, flag0)
  | _ =>
    let (code, f2) :=
      match r with
      | .nan => (p.nanCode, flag0)
      | .inf n => (infCode p n, flag0)
      | .num x => roundFloat p (x.scale sc) rnd sat
      | .absent => (p.absentCode, flag0)
    let code :=
      if clamp then
        match decodeFloat p code with
        | .num x =>
          if x.neg || x.m = 0 then 0
          else if Exact.lt ⟨false, 1, 0, false⟩ x then (p.bias.toNat) * 2 ^ p.mbits else code
        | .inf n => if n then 0 else p.bias.toNat * 2 ^ p.mbits
        | _ => 0
      else code
    (code, if passed then flag0 else fl ||| f2)

/-- The class identity of R67: the third argument when both are present, else the other operand. -/
def ident (p : FParam) (a b : FVal) (r : FVal × Flags) (m : Option Modifier) : Nat × Flags :=
  match a.isAbsent, b.isAbsent with
  | true, true => (p.absentCode, flag0)
  | true, false => post p b flag0 m true
  | false, true => post p a flag0 m true
  | false, false => post p r.1 r.2 m false

/-- The class strict of R67. -/
def strict (p : FParam) (a b : FVal) (r : FVal × Flags) (m : Option Modifier) : Nat × Flags :=
  if a.isAbsent || b.isAbsent then (p.absentCode, flag0) else post p r.1 r.2 m false

/-- The fused rule of R68. -/
def ffma (p : FParam) (a b c : FVal) (m : Option Modifier) : Nat × Flags :=
  let rnd := match m with | some m => m.rnd | none => .nearest
  if a.isAbsent || b.isAbsent then
    if c.isAbsent then (p.absentCode, flag0) else post p c flag0 m true
  else
    let pr := fprod a b
    if c.isAbsent then post p pr.1 pr.2 m false
    else
      let r := fsum pr.1 c rnd
      post p r.1 (pr.2 ||| r.2) m false

end Sys2Proof.Machine
end

