-- ==== Sys2Proof/Machine/Store.lean ====
section
/-! DEFINITION. Sparse tables: a list of key and value pairs in one canonical form, keys strictly rising and no
entry equal to the value that an unlisted key reads as. Memory is the instance whose values are bytes. -/

namespace Sys2Proof.Machine

/-- The value at a key; `d` where the key is not listed. -/
def smGet {α : Type} (d : α) : List (Nat × α) → Nat → α
  | [], _ => d
  | (k, v) :: r, a => if k = a then v else smGet d r a

/-- The table without a key. -/
def smDel {α : Type} : List (Nat × α) → Nat → List (Nat × α)
  | [], _ => []
  | (k, v) :: r, a => if k = a then smDel r a else (k, v) :: smDel r a

/-- Puts an entry before the first key above its own. -/
def smIns {α : Type} : List (Nat × α) → Nat → α → List (Nat × α)
  | [], a, x => [(a, x)]
  | (k, v) :: r, a, x => if a < k then (a, x) :: (k, v) :: r else (k, v) :: smIns r a x

/-- The table with one key changed, in canonical form: the default removes the entry. -/
def smSet {α : Type} [DecidableEq α] (d : α) (m : List (Nat × α)) (a : Nat) (x : α) : List (Nat × α) :=
  if x = d then smDel m a else smIns (smDel m a) a x

/-- Every key of the table is above `b`, keys rise, and no value is the default. -/
def smAbove {α : Type} [DecidableEq α] (d : α) : Nat → List (Nat × α) → Bool
  | _, [] => true
  | b, (k, v) :: r => decide (b ≤ k) && decide (v ≠ d) && smAbove d (k + 1) r

/-- The canonical form of a table. -/
def smWf {α : Type} [DecidableEq α] (d : α) (m : List (Nat × α)) : Bool := smAbove d 0 m

/-- Several changes, the first in the list made first. -/
def smSets {α : Type} [DecidableEq α] (d : α) (m : List (Nat × α)) : List (Nat × α) → List (Nat × α)
  | [] => m
  | (a, x) :: r => smSets d (smSet d m a x) r

/-- The element of a list of records with a key, by a key function. -/
def findBy {α : Type} (f : α → Bool) : List α → Option α
  | [] => none
  | x :: r => if f x then some x else findBy f r

/-- Replaces the first record that satisfies a test. -/
def replaceBy {α : Type} (f : α → Bool) (y : α) : List α → List α
  | [] => []
  | x :: r => if f x then y :: r else x :: replaceBy f y r

/-- Updates every record that satisfies a test. -/
def updateBy {α : Type} (f : α → Bool) (g : α → α) (l : List α) : List α :=
  l.map fun x => if f x then g x else x

/-- Inserts into a list sorted by a key. -/
def insertBy {α : Type} (key : α → Nat) (y : α) : List α → List α
  | [] => [y]
  | x :: r => if key y < key x then y :: x :: r else x :: insertBy key y r

end Sys2Proof.Machine
end

