-- ==== Sys2Proof/Machine/State.lean ====
section
/-! DEFINITION. The machine state: the whole module as plain data. Each structure names the rules of spec/ that give
its fields; the model's own fields (unique numbers, the agenda, the free-value counter) are marked as such. -/

namespace Sys2Proof.Machine

/-! ### Warps (01, 02, 17) -/

/-- A live transient bypass entry (R33, R279): the register, the instructions it still serves, 32 lane values and the
lanes whose residue is the poison pattern (R348). -/
structure Bypass where
  reg : Nat
  count : Nat
  vals : List Word
  poison : Word
  deriving DecidableEq, Repr

/-- An entry of a reconvergence stack (R10, R279). -/
structure Frame where
  pc : DWord
  mask : Word
  deriving DecidableEq, Repr

/-- A split (R8, R10): its stack has the top first. `busy` holds an announcement of non-deferring mode that
has not retired (R105). -/
structure Split where
  num : Nat
  pc : DWord
  mask : Word
  stack : List Frame
  bypass : List Bypass
  busy : Option Nat
  deriving DecidableEq, Repr

/-- A pending value of a register (R40): `id` is the model's number of what will land. -/
structure Pend where
  id : Nat
  reg : Nat
  event : Bool
  mask : Word
  deriving DecidableEq, Repr

/-- A residual closure (R41, R280). `id` is the model's number of its run and `did` of its destination's landing;
`waits` holds the numbers it still awaits, `born` its capture order, `holds` the registers it reads when it runs. -/
structure Closure where
  idx : Nat
  id : Nat
  did : Nat
  born : Nat
  iword : Word
  mword : Word
  pc : DWord
  mask : Word
  tile : Nat
  csplit : Nat
  lanes : List (Nat × List Word)
  unif : List (Nat × Word)
  /-- Transient operands that found no slot: their values travel with the closure (R41, R49, log 56). -/
  trans : List (Nat × List Word)
  cb : Codebook
  /-- Poisoned captured operands, by register number times 32 plus lane (R348). -/
  pois : List Nat
  dregs : List Nat
  waits : List Nat
  holds : List Nat
  run : Option Nat
  /-- A re-run with the traps of enabled floating-point flags suppressed (R275, ACT = 2). -/
  noFp : Bool
  /-- Deferred by a translation fault, whose further faults defer it again (R219, R321). -/
  replay : Bool
  deriving DecidableEq, Repr

/-- What a trap entry saved for its return (R34, R175, R274). `clo` is the closure of a CLOSURE_FAULT; `answered` marks
a suspended warp that FQANS resumed while its group was saved (R282). -/
structure TrapSave where
  split : Nat
  mask : Word
  bypass : List Bypass
  clo : Option Nat
  answered : Bool
  deriving DecidableEq, Repr

/-- A warp of a group. -/
structure Warp where
  idx : Nat
  slot : Nat
  role : Nat
  window : Nat
  regs : List (Nat × Word)
  poison : List Nat
  pend : List Pend
  splits : List Split
  tile : Nat
  uvec : DWord
  annbase : DWord
  ucause : Word
  fflags : Word
  steps : List (Nat × Word)
  annLive : Word
  annCount : List (Nat × Word)
  closures : List Closure
  nextLs : Nat
  cb : Codebook
  obsp : List (Nat × Word)
  arvp : List (Nat × Word)
  kscr0 : DWord
  kscr1 : DWord
  inh : Option TrapSave
  inu : Option TrapSave
  susp : Option TrapSave
  /-- The deadline of a YLD in die clocks (R50). -/
  yld : Option Nat
  /-- Argument record addresses of a gathered task warp's lanes (R25). -/
  targ : List (Nat × DWord)
  task : Bool
  /-- The relocation register: the window's first register in its partition's file (R26, R27). -/
  wbase : Nat
  /-- The clock since which the warp has been ready without issuing, and that of its last issue (R305). -/
  readySince : Option Nat
  lastIssue : Nat
  /-- The warp slot has been released (R45). -/
  ended : Bool
  deriving DecidableEq, Repr

/-- A BAR.PND that waits for a phase (R232). -/
structure BarWait where
  gid : Nat
  widx : Nat
  fly : Nat
  phase : Word
  deriving DecidableEq, Repr

/-- A named barrier (R229): phase PH in the fields 0, PH + 1 in the fields 1. `inits` are the members that have
initialised a gang barrier (R230), kept in member 0 under 16 + b. `pnds` wait for a phase. -/
structure Bar where
  init : Bool
  gang : Bool
  count : Nat
  ph : Word
  ta0 : Nat
  ee0 : Nat
  ea0 : Nat
  ta1 : Nat
  ee1 : Nat
  ea1 : Nat
  inits : List Nat
  pnds : List BarWait
  deriving DecidableEq, Repr

/-- An uninitialised barrier. -/
def Bar.fresh : Bar := ⟨false, false, 0, 0, 0, 0, 0, 0, 0, 0, [], []⟩

/-- A scratch region with its swizzle (R86). -/
structure Region where
  base : Nat
  size : Nat
  swizzle : Nat
  deriving DecidableEq, Repr

/-- A far store of a core (R137, R139) by a group of a context and a partition: `cov` is the widest scope that has covered it,
`landed` whether a release containing it has landed. -/
structure FarStore where
  ord : Nat
  addr : Nat
  byte : Byte
  gid : Nat
  asid : Nat
  part : Nat
  cov : Option Nat
  landed : Bool
  /-- An engine's store of poisoned data (R348). -/
  bad : Bool
  deriving DecidableEq, Repr

/-- Where a group stands. -/
inductive GStat where
  | run
  /-- A save, load or migration in progress (R288). -/
  | moving
  | saved
  /-- Stopped for good by R276. -/
  | stopped
  /-- Every warp has ended; engine work may be outstanding (R249). -/
  | draining
  | ended
  deriving DecidableEq, Repr

/-- A group: its place, its shared state and its warps (R8, R281). `gid` is the model's own number. -/
structure Group where
  gid : Nat
  launch : Nat
  gang : Nat
  member : Nat
  members : Nat
  isGang : Bool
  core : Nat
  place : Nat
  asid : Nat
  part : Nat
  kernel : Bool
  prio : Nat
  stat : GStat
  regsPer : Nat
  entry : DWord
  dmode : Bool
  phasef : Bool
  pools : List Nat
  bars : List (Nat × Bar)
  sBytes : Nat
  nBytes : Nat
  sMem : List Host.Cell
  nMem : List Host.Cell
  sRegions : List Region
  nRegions : List Region
  /-- The bytes of S and of N that hold the memory poison mark, by sector: each sector is marked until the whole of it is written
  anew (R348). -/
  sSpoil : List (Nat × Word)
  nSpoil : List (Nat × Word)
  copyStat : Word
  warps : List Warp
  /-- The physical base of its image while it is saved (R288). -/
  image : Nat
  /-- Unreleased far stores of a saved group (R281), oldest first. -/
  kept : List FarStore
  /-- The landing order position of the core's latest acquire at the save (R281). -/
  acqln : Nat
  /-- The ticks of its admission and of its latest restore (R303, R306). -/
  since : Nat
  restored : Option Nat
  deriving DecidableEq, Repr

/-! ### Values in flight and transactions -/

/-- A place that a transaction names: a physical far byte, or a scratch byte of a group. -/
inductive Loc where
  | phys (a : Nat)
  | sram (gid a : Nat)
  | nram (gid a : Nat)
  deriving DecidableEq, Repr

/-- An access of some lanes that has still to be made: by a load, or by FGET, whose address missed translation, by a load
whose peer line is absent (R219, R223), or by a load that follows an earlier write of its warp, whose number is `behind`
(R46). `loc` is its place in scratch. `waiting` until it may be tried again. -/
structure Todo where
  mask : Word
  va : DWord
  loc : Option Loc
  behind : Nat
  waiting : Bool
  deriving DecidableEq, Repr

/-- A value on its way to registers (R40): LOAD_LANDING lands the lanes that are ready, once `left` more answers have
come. -/
structure Fly where
  id : Nat
  gid : Nat
  widx : Nat
  /-- The lanes that have not landed, and those of them whose values are here. -/
  mask : Word
  ready : Word
  vals : List (Nat × List Word)
  poison : List Nat
  left : Nat
  /-- The acquire that the landing performs (R234, R241, R243). -/
  acq : Option Scope
  /-- What a load reads; `future` marks an FGET, with whether it registers on an empty future (R234). -/
  size : LdSize
  future : Option Bool
  todo : List Todo
  /-- The address of its instruction. -/
  pc : DWord
  /-- Issued by a closure: every lane is written, whatever the splits have become (R45). -/
  whole : Bool
  deriving DecidableEq, Repr

/-- Where the drive of an announced operation stands (R100, R104). -/
inductive Stage where
  | swap
  | header
  | walk
  | step
  | collect
  | done
  deriving DecidableEq, Repr

/-- What a batch asks of a home engine. -/
inductive TxKind where
  | atom (o : AtomOp) (w64 : Bool)
  /-- A read of a future, which registers on an empty one in deferring mode (R234). -/
  | fget (wait : Bool)
  | fset
  | fclr
  | kvmap
  /-- Setting MOVING for a block migration (R257). -/
  | migr (op : Nat)
  /-- A transaction of announced operations (R97): the tail swap, the header read of ANN.HLP, a step or the collection. -/
  | ann (st : Stage)
  deriving DecidableEq, Repr

/-- One lane's transaction. Of an announced operation `y` is the number of the drive and `n` the place of its record. -/
structure Tx where
  lane : Nat
  loc : Loc
  y : DWord
  n : DWord
  deriving DecidableEq, Repr

/-- The lanes of one instruction bound for one engine (R91). -/
structure Batch where
  id : Nat
  engine : Nat
  core : Nat
  gid : Nat
  widx : Nat
  fly : Nat
  kind : TxKind
  txs : List Tx
  deriving DecidableEq, Repr

/-- A registered waiter of a future (R234, R236). -/
structure Waiter where
  loc : Loc
  gid : Nat
  widx : Nat
  lane : Nat
  fly : Nat
  deriving DecidableEq, Repr

/-- The arbitration state of a home engine (R91), and the lines of its hot-line store, the oldest first (R6). -/
structure Engine where
  lastLocal : Nat
  lastRemote : Bool
  hot : List Loc
  deriving DecidableEq, Repr

/-- The state of an engine from reset (R91). -/
def Engine.fresh : Engine := ⟨7, true, []⟩

/-- An announcement or a help in progress (R100, R104, R105). Addresses of records are virtual. `sync` drives hold
their instruction at its PC until they end. `asked` marks one whose transaction is on its way to its engine (R97). -/
structure Drive where
  id : Nat
  gid : Nat
  widx : Nat
  lane : Nat
  help : Bool
  sync : Bool
  pc : DWord
  split : Nat
  clo : Option Nat
  space : Space
  obj : DWord
  op : Nat
  x0 : Word
  x1 : Word
  width : Nat
  /-- The pending number of the destination pair in deferring mode; 0 otherwise. -/
  fly : Nat
  dreg : Nat
  stage : Stage
  /-- The driven record, its sequence number, and the step to be sent (0 before it has been read). -/
  cursor : DWord
  xs : Nat
  want : Nat
  /-- What ANN.HLP read and has seen, and its transactions; for ANN `t0` is its own sequence number. -/
  h0 : Nat
  t0 : Nat
  top : DWord
  seen : Nat
  carried : Nat
  limit : Nat
  count : Nat
  asked : Bool
  /-- A driver's that a fault has stopped until RESUME (R109). -/
  parked : Bool
  /-- The result and the status. -/
  out : Word × Word
  deriving DecidableEq, Repr

/-- A kept address of an announcement link (R269): beside the header, the record of the last swap. -/
structure Link where
  hdr : Loc
  asid : Nat
  /-- The page of a far header, base and size, through which the swap reached it. -/
  hdrPage : Option (Nat × Nat)
  record : Nat
  recPage : Nat × Nat
  deriving DecidableEq, Repr

/-! ### Far memory order (08) -/

/-- What waits for a release to land (R143, R144). -/
inductive After where
  | send (b : Batch)
  | arrive (gid bar : Nat) (phase : Word)
  | record (feed seq : Nat)
  | retire (feed seq : Nat)
  | tlbinv (op : Nat)
  | answer (op : Nat)
  | reply (launch dest : Nat) (words : List DWord)
  | groupEnd (gid : Nat)
  /-- Nothing: the release is the last of a launch that was terminated (R148). -/
  | over (launch : Nat)
  deriving DecidableEq, Repr

/-- What a memory-writing instruction that has issued still does (R46, R226): its stores, its transactions, its release
and acquire, a fence, the tasks it spawns, or its sheaf. -/
inductive Act where
  | store (ws : List (Loc × List Byte))
  | send (rel : Option Scope) (bs : List Batch)
  | release (x : Scope) (acq : Bool) (after : List After)
  | fence
  | spawn (ids : List Nat)
  | call (die payer : Nat) (bytes : List (Nat × Byte)) (words : List Word)
  deriving DecidableEq, Repr

/-- A memory-writing instruction of a warp that has issued and follows earlier ones that have not performed (R46, R144).
`rel` is the release that keeps its place among those of the core (R139). -/
structure Queued where
  id : Nat
  /-- The capture order of its closure, or the order of its issue. -/
  born : Nat
  rel : Option Nat
  gid : Nat
  widx : Nat
  act : Act
  deriving DecidableEq, Repr

/-- A release on its way (R139). One of group scope or below only orders its warp's accesses and takes no landing number. -/
structure Release where
  id : Nat
  core : Nat
  scope : Nat
  /-- The domain as a range of cores (R136). -/
  lo : Nat
  hi : Nat
  part : Nat
  /-- The stores of its set, by their order numbers, what they write, oldest first, and the marks that they leave where poisoned. -/
  ords : List Nat
  writes : List (Nat × Byte)
  marks : List (Nat × Word)
  /-- Network operations that a system-scope release waits for (R150). -/
  waits : List Nat
  after : List After
  /-- Issued, but still behind earlier work of its warp: its set is not complete (R46, R139). -/
  isOpen : Bool
  deriving DecidableEq, Repr

/-- A landed write set in landing order (R140), with its domain and its partition. `num` is 0 for a write of a home
engine, which takes no landing number (log 11). -/
structure Landing where
  idx : Nat
  num : Nat
  core : Nat
  lo : Nat
  hi : Nat
  part : Nat
  writes : List (Nat × Byte)
  deriving DecidableEq, Repr

/-- A range locked by a live engine operation (R322): far ranges by virtual address and ASID, scratch by offset. -/
structure Lock where
  op : Nat
  space : Nat
  asid : Nat
  gid : Nat
  lo : Nat
  len : Nat
  deriving DecidableEq, Repr

/-- A cached translation (R315). -/
structure TlbEntry where
  asid : Nat
  part : Nat
  vbase : Nat
  size : Nat
  pte : DWord
  deriving DecidableEq, Repr

/-- A miss in both TLBs (R316): the core and the address that missed, and whether it has joined a walk in flight; else it
waits for an entry of its partition's share. -/
structure Miss where
  core : Nat
  asid : Nat
  part : Nat
  va : DWord
  walking : Bool
  deriving DecidableEq, Repr

/-- The key of a miss in the walk-merging table: the ASID and virtual bits 56:16. -/
def Miss.key (m : Miss) : Nat × BitVec 41 := (m.asid, m.va.extractLsb' 16 41)

/-- The race detector's state of a sector (R151); `group` is the group whose write was the last. -/
structure Shadow where
  writer : Nat
  group : Nat
  /-- The landing indexes of the releases that cover its last write; none while unreleased. -/
  landed : List Nat
  reported : List Nat
  deriving DecidableEq, Repr

/-- A task in a pool (R237): `id` is its number; `held` while writes of its spawner before it have not performed. -/
structure Task where
  id : Nat
  held : Bool
  entry : DWord
  targ : DWord
  launch : Nat
  gid : Nat
  born : Nat
  deriving DecidableEq, Repr

/-! ### The matrix engine (06, 13) -/

/-- A reservation (R111). -/
structure Resv where
  id : Nat
  weights : Bool
  fmt : Nat
  base : Nat
  len : Nat
  blk : Nat
  scaleBase : Nat
  cbBase : Nat
  deriving DecidableEq, Repr

/-- A plane of stationary weights: the elements of a tile, packed row by row, with its tile scale and its block scales
(R114); `src` is the reservation, offset, tile and tile count that it was loaded from (R277). -/
structure Plane where
  fmt : Nat
  blk : Nat
  cb : Codebook
  bytes : List Byte
  scale : Word
  blocks : List Word
  src : Option (Nat × Nat × Nat × Nat)
  deriving DecidableEq, Repr

/-- A plane into which nothing has been loaded (log 1). -/
def Plane.empty : Plane := ⟨0, 0, [], [], 0, [], none⟩

/-- The matrix commands that enter the queue (R250, R251). -/
inductive MKind where
  | rels | scl | lds | swp | zero | chn | loop | grp | drn
  deriving DecidableEq, Repr

/-- A signal of an engine operation (R247). -/
structure Signal where
  sig : Word
  val : Word
  gid : Nat
  deriving DecidableEq, Repr

/-- A command of the queue, with its register operands, its group table and its codebook as at issue (R110, R251). `fly`
is what a register drain lands; `id` is the owner of its range lock. -/
structure MCmd where
  id : Nat
  gid : Nat
  widx : Nat
  kind : MKind
  args : List Word
  table : List (Nat × Nat)
  mask : Word
  fly : Nat
  cb : Codebook
  signal : Option Signal
  deriving DecidableEq, Repr

/-- Where the loop at the head of the queue stands: its group, step and row. -/
structure MRun where
  grp : Nat
  step : Nat
  row : Nat
  deriving DecidableEq, Repr

/-- The matrix engine of a core (R110 to R122): accumulators and counts by 128 times row plus column, the mode of a row
by row. `steps` records the loops issued since the last MCHN (R119). `residue` marks the next pass as one whose residue
check fails, and `check` a machine check that the next matrix instruction reports (R122). -/
structure Matrix where
  owner : Option Nat
  resv : List Resv
  queue : List MCmd
  active : Plane
  shadow : Plane
  acc : List (Nat × Word)
  cnt : List (Nat × Word)
  mode : List (Nat × Nat)
  opbuf : List Host.Cell
  chain : Nat
  steps : List (List Nat)
  stat : Word
  run : Option MRun
  drain : Bool
  residue : Bool
  check : Bool
  deriving DecidableEq, Repr

/-- An idle matrix engine. -/
def Matrix.fresh : Matrix :=
  ⟨none, [], [], Plane.empty, Plane.empty, [], [], [], [], 1, [], 0, none, false, false, false⟩

/-! ### Cores, dies, partitions -/

/-- What a core holds beside its groups. -/
structure Core where
  stores : List FarStore
  relq : List Release
  contained : List Nat
  /-- The landing index of the latest acquire. -/
  acqIdx : Nat
  tlb : List TlbEntry
  locks : List Lock
  tasks : List Task
  mx : Matrix
  /-- The gang a bind reservation is held for (R302): launch and gang number. -/
  held : Option (Nat × Nat)
  /-- Peer lines in the phase cache (R6, R223, R225), by line number, the oldest first. -/
  peerLines : List (Nat × List Byte)
  /-- The core's own released stores to peer windows, each with the network operation that carries it (R138). -/
  peerOwn : List (Nat × Byte × Nat)
  /-- A refused HOLD has started the compaction of its windows (R302). -/
  compact : Bool
  deriving DecidableEq, Repr

/-- A core from reset. -/
def Core.fresh : Core := ⟨[], [], [], 0, [], [], [], Matrix.fresh, none, [], [], false⟩

/-- A key slot (R291). -/
structure KSlot where
  loaded : Bool
  part : Nat
  data : List Byte
  tweak : List Byte
  deriving DecidableEq, Repr

/-- A free key slot. -/
def KSlot.free : KSlot := ⟨false, 0, List.replicate 32 0, List.replicate 32 0⟩

/-- The scrub engine of a die (R292, R362): `pausing` marks a PART RESET that has been issued and whose pause has yet to
begin, and `resetAt` is SCRUBPOS when it was issued: the page then under way is finished first. -/
structure Scrub where
  active : Bool
  pausing : Bool
  resetAt : Nat
  paused : Bool
  list : List (Nat × Nat)
  signal : Option Signal
  deriving DecidableEq, Repr

/-- A sheaf buffer (R325, R326). -/
structure Sheaf where
  live : Bool
  gen : Nat
  gid : Nat
  widx : Nat
  mask : Word
  cls : Nat
  args : List (List Word)
  fly : Nat
  asid : Nat
  part : Nat
  /-- The partition to whose share it is charged (R343). -/
  payer : Nat
  /-- The generations whose handles have died, each with its caller's ASID and partition: to them belongs the orphan of
  an answer that comes too late (R326, R340). -/
  past : List (Nat × Nat × Nat)
  deriving DecidableEq, Repr

/-- A buffer whose handle has died: the next use has the next generation (R326). -/
def Sheaf.close (x : Sheaf) : Sheaf :=
  { x with live := false, gen := (x.gen + 1) % 2 ^ 19, past := (x.gen, x.asid, x.part) :: x.past.filter fun p => p.1 != x.gen }

/-- A free sheaf buffer. -/
def Sheaf.free : Sheaf := ⟨false, 0, 0, 0, 0, 0, [], 0, 0, 0, 0, []⟩

/-- A die: its registers and its hardware. -/
structure Die where
  kvec : DWord
  ktrb : DWord
  scrubpos : DWord
  intlog : DWord
  fwmbx : DWord
  ready : Word
  tlb : List TlbEntry
  /-- The misses in the walk-merging table and those that wait, in arrival order (R316). -/
  misses : List Miss
  kslots : List (Nat × KSlot)
  scrub : Scrub
  sheafs : List (Nat × Sheaf)
  /-- Feed slots: slot number to the model's feed number (R295). -/
  slots : List (Nat × Nat)
  /-- The sag's stretch step, whether it lasts, and the tick since which it has cleared (R351). -/
  sag : Nat
  sagging : Bool
  sagClear : Nat
  /-- Eighths of arithmetic clocks since reset: %cycles x 8. -/
  cyc8 : Nat
  /-- Integrity events counted (R350). -/
  intEvents : Nat
  /-- The firmware's mailbox notices, oldest first. -/
  notices : List DWord
  deriving DecidableEq, Repr

/-- A die from reset. -/
def Die.fresh : Die :=
  ⟨0, 0, 0, 0, 0, 0, [], [], [], ⟨false, false, 0, false, [], none⟩, [], [], 0, false, 0, 0, 0, []⟩

/-- A party of a fault entry (R320). -/
inductive Party where
  | warp (gid widx : Nat)
  /-- A deferred store that awaits the answer under a number. -/
  | closure (gid widx key : Nat)
  /-- The lanes of a load on one 64 KiB granule. -/
  | load (fly granule : Nat)
  | drive (id : Nat)
  | op (id : Nat)
  | crec (launch : Nat)
  deriving DecidableEq, Repr

/-- A fault on its way to the queue (R319, R320). -/
structure FaultReq where
  vaddr : DWord
  epc : DWord
  owner : Word
  asid : Nat
  eaux : Word
  cause : Nat
  reason : Nat
  level : Nat
  kind : Nat
  wr : Bool
  fetch : Bool
  die : Nat
  party : Party
  deriving DecidableEq, Repr

/-- A partition (R341) with its registers (R271) and its fault parties. -/
structure Part where
  live : Bool
  fqbase : DWord
  fqctl : Word
  racecfg : Word
  orphlog : DWord
  peatq : Word
  clusters : List Nat
  ports : Nat
  slots : List (Nat × Nat × Nat)
  ranges : List (Nat × Nat)
  peer : Nat
  /-- Hidden release lists by entry index, and faults held under OVF (R320). -/
  parties : List (Nat × List Party)
  waiting : List FaultReq
  deriving DecidableEq, Repr

/-- A partition number that names nothing. -/
def Part.absent : Part := ⟨false, 0, 0, 0, 0, 0, [], 0, [], [], 0, [], []⟩

/-- The state of an ASID (R324). -/
inductive AsidState where
  | free
  | live
  | quarantined
  deriving DecidableEq, Repr

/-- A context's own registers (R271). -/
structure Context where
  root : DWord
  part : Nat
  state : AsidState
  deriving DecidableEq, Repr

/-- An ASID that nothing uses. -/
def Context.none : Context := ⟨0, 0, .free⟩

/-! ### Launches, feeds, records -/

/-- A launch descriptor (R300). -/
structure LaunchDesc where
  entry : DWord
  crec : DWord
  feedtab : DWord
  imgpool : DWord
  ngang : Nat
  asid : Nat
  roles : List Nat
  sgr : Nat
  ngr : Nat
  regs : Nat
  warps : Nat
  gsize : Nat
  prio : Nat
  tile : Nat
  holdapp : Bool
  /-- The `.scratch` declarations of the entry, in order (R81, R86, log 30). -/
  regions : List Scratch
  deriving DecidableEq, Repr

/-- The `.scratch` declarations of a program's entry, which come with the program (R81, R86, log 30). -/
structure Program where
  asid : Nat
  entry : DWord
  regions : List Scratch
  deriving DecidableEq, Repr

/-- A launch (R300) with its progress (R307). -/
structure Launch where
  id : Nat
  desc : LaunchDesc
  part : Nat
  kernel : Bool
  /-- Gangs not yet admitted, those resident, and those ended. -/
  waitingGangs : List Nat
  live : Nat
  done : Nat
  tstart : Option Nat
  accepted : Nat
  terminated : Bool
  held : Bool
  recorded : Bool
  /-- Its completion record awaits the answer to a translation fault (R307). -/
  parked : Bool
  flow : Nat
  /-- The steps by which waiting has raised its priority (R304), and whether it has waited so long that it may evict
  (R306). -/
  aged : Nat
  evictor : Bool
  /-- The ticks for which gangs of it waited before, and the tick since which some wait now (R304). -/
  waited : Nat
  waitFrom : Nat
  deriving DecidableEq, Repr

/-- A registered pop (R241). -/
structure RegPop where
  gid : Nat
  widx : Nat
  fly : Nat
  /-- The entry as memory holds it: the owner word, and the ASID from bit 32 on (R308). -/
  owner : Nat
  deriving DecidableEq, Repr

/-- The state of a record of a feed (R240, R242). -/
structure FeedRec where
  seq : Nat
  words : List Word
  bar : Bool
  /-- The release that precedes it has landed. -/
  landed : Bool
  started : Bool
  retiring : Bool
  retired : Bool
  /-- Of a sheaf notice, the partition to whose share of the service feed it is charged (R327, R343). -/
  payer : Option Nat
  deriving DecidableEq, Repr

/-- A feed (R239, R308). -/
structure Feed where
  num : Nat
  desc : DWord
  asid : Nat
  part : Nat
  cap : Nat
  ringBase : DWord
  regBase : DWord
  head : Nat
  tail : Nat
  retlow : Nat
  recs : List FeedRec
  /-- Records returned to the head by cancelled pops (R241). -/
  back : List Nat
  pops : List RegPop
  regFirst : Nat
  /-- Records bound to pops that have not landed: the value in flight and the SEQ (R241). -/
  bound : List (Nat × Nat)
  mapped : Option (Nat × Nat)
  wakep : Bool
  deriving DecidableEq, Repr

/-- The back-off of a refused gang until the gang starts: its last attempt, the tick of its expiry, and whether it has
expired (R303). -/
structure Backoff where
  launch : Nat
  gang : Nat
  attempt : Nat
  tick : Nat
  expired : Bool
  deriving DecidableEq, Repr

/-- A bind record (R301). -/
structure Bind where
  launch : Nat
  image : DWord
  gang : Nat
  asid : Nat
  part : Nat
  member : Nat
  nmem : Nat
  prio : Nat
  kernel : Bool
  state : Nat
  attempt : Nat
  gid : Nat
  deriving DecidableEq, Repr

/-- A FREE bind record. -/
def Bind.free : Bind := ⟨0, 0, 0, 0, 0, 0, 0, 0, false, 0, 0, 0⟩

/-! ### Engine operations outside the matrix engine -/

/-- The kind of an engine operation in progress. -/
inductive OpKind where
  | cpy
  | kvg
  | migr
  | adec
  | net (k : Nat)
  | storage (k : Nat)
  | save
  | load
  | move
  | tlbinv
  | kzero
  | fmap
  | answer
  deriving DecidableEq, Repr

/-- An engine operation in progress (R249): its operands as read at issue, the landing and the signal it owes. -/
structure EngOp where
  id : Nat
  kind : OpKind
  gid : Nat
  widx : Nat
  core : Nat
  asid : Nat
  args : List Word
  lanes : List (List Word)
  mask : Word
  fly : Nat
  dreg : Nat
  signal : Option Signal
  /-- Landing indices of the issuing core's snapshot at issue (R128), and the issuing warp's codebook (R126). -/
  snap : List Nat
  cb : Codebook
  /-- The tick at which the operation was sent (R259, R262). -/
  sent : Nat
  parked : Bool
  orphan : Bool
  /-- Whether its message has gone out (R260, R262), and then whether it carried poisoned data (R348). -/
  out : Option Bool
  /-- The partition of its issuer, and the one to whose share it is charged (R340, R343). -/
  part : Nat
  payer : Nat
  deriving DecidableEq, Repr

/-- The entry of a peer table that a peer window names (R331). -/
structure PeerEntry where
  peer : Nat
  rasid : Nat
  rpart : Nat
  job : Nat
  tc : Nat
  flow : Nat
  deriving DecidableEq, Repr

/-- A message that the module sends: its kind, its destination, its traffic class and, on reliable ordered delivery, its
flow (R259, R330); the ASID, partition and job key of the peer entry that it is sent under and the sender's ASID (R331,
R332); and its words (R298, R355, R356). -/
structure Message where
  kind : Nat
  dest : Nat
  tc : Nat
  flow : Option Nat
  rasid : Nat
  rpart : Nat
  job : Nat
  asid : Nat
  words : List DWord
  deriving DecidableEq, Repr

/-- A remote write, or a message to an endpoint, that has arrived and waits for the peat, or behind an earlier one of its flow
(R144, R149). -/
structure Inbound where
  req : RemoteReq
  data : List Byte
  endpoint : Option Nat
  deriving DecidableEq, Repr

/-- A landing ring or message endpoint (R334 to R336): its consumer's feed, its slots, the next frame with the bytes
landed in it, the drops since the last record, and the SEQ of the last record of each slot. -/
structure Endpoint where
  handle : Nat
  /-- The ASID of the caller that opened it, which may close it (R328). -/
  owner : Nat
  ring : Bool
  feed : Nat
  asid : Nat
  part : Nat
  base : DWord
  frames : Nat
  size : Nat
  tag : Word
  src : Nat
  tc : Nat
  flow : Nat
  next : Nat
  count : Nat
  drops : Nat
  slots : List (Nat × Nat)
  deriving DecidableEq, Repr

/-- A connection to a remote endpoint, as NSND names it (R328, class 2). -/
structure Conn where
  handle : Nat
  asid : Nat
  peer : Nat
  remote : Nat
  tc : Nat
  flow : Nat
  deriving DecidableEq, Repr

/-- A watch of another module on a line of this one, by the line's physical address (R337). -/
structure Watch where
  id : Nat
  addr : Nat
  peer : Nat
  token : Nat
  part : Nat
  deriving DecidableEq, Repr

/-- A storage namespace handle (R262). -/
structure Namespace where
  handle : Nat
  asid : Nat
  target : Nat
  nsid : Nat
  block : Nat
  deriving DecidableEq, Repr

/-- The device tree that the firmware core builds (R353, R354): the usable clusters, the trained stacks with their bytes, the
linked ports, the cores of which spare matrix columns are in use with their number, and the firmware version. -/
structure DeviceTree where
  clusters : List Nat
  hbm : List (Nat × Nat)
  ports : List Nat
  spares : List (Nat × Nat)
  version : Nat
  deriving DecidableEq, Repr

/-- The firmware core (R6): the program counter and x1 to x31 of an RV32IMC core, and its tightly coupled memory of 256 KiB. What
the firmware does is what its events do: the spec gives no program for it (log 79). -/
structure Firmware where
  pc : Word
  regs : List Word
  tcm : List Host.Cell
  deriving DecidableEq, Repr

/-- The bring-up state (R352 to R356): the flash images by slot, the linked ports and the tick of the first link, the
address, the scheduler's and the management address, and the announcements sent with the tick of the last. -/
structure Boot where
  up : Bool
  mgmtOnly : Bool
  slot : Nat
  images : List (Nat × FlashImage)
  links : List Nat
  linkTick : Option Nat
  address : Option Nat
  sched : Nat
  mgmt : Option Nat
  announce : Nat
  announceTick : Nat
  portErrors : List (Nat × Nat)
  /-- The cores that have failed their test (R353). -/
  failed : List Nat
  tree : DeviceTree
  fw : Firmware
  deriving DecidableEq, Repr

/-- The instruction being executed (the model's own): who issues it, and what was captured of its operands. -/
structure Cur where
  gid : Nat
  widx : Nat
  split : Nat
  clo : Option Nat
  pc : DWord
  len : Nat
  iword : Word
  mword : Word
  mask : Word
  tile : Nat
  cb : Codebook
  ovr : List (Nat × List Word)
  pois : List Nat
  noFp : Bool
  deriving DecidableEq, Repr

/-- A choice that the spec leaves open, or an input from outside (the model's own agenda, log 3). -/
inductive Choice where
  /-- An event happens, or a message, a timer or an acknowledgement arrives. -/
  | event (i : Instr)
  /-- A warp has the issue slot. -/
  | issue (gid widx : Nat)
  /-- A program arrives: the declarations of one of its entries (log 30). -/
  | program (p : Program)
  /-- Nothing happens but the clock. -/
  | clock
  /-- A lookup of a core misses in both TLBs (R316). -/
  | miss (core asid : Nat) (va : DWord)
  /-- A core's TLB loses its oldest entry (R315), or its phase cache its oldest line of a peer window (R6, R223). -/
  | evictTlb (core : Nat)
  | evictLine (core : Nat)
  /-- A late ECC failure of the line of an address poisons a register lane (R347, R348). -/
  | poison (gid widx reg lane addr : Nat)
  /-- An uncorrectable line marks the sector of an address; a corrected one is logged (R347, R348, R350). -/
  | spoil (addr : Nat)
  | corrected (addr : Nat)
  /-- A residue mismatch of a core's next matrix pass (R122), of a warp's next instruction, which `again` recurs (R349),
  or of the data of a warp's next store (R347). -/
  | residue (core : Nat)
  | pipe (gid widx : Nat) (again : Bool)
  | storeCheck (gid widx : Nat)
  /-- A residue mismatch of what an engine operation, or the drain at the head of a core's queue, is about to write (R347). -/
  | engineCheck (op : Nat)
  | drainCheck (core : Nat)
  /-- A core fails its test at bring-up (R353). -/
  | coreFails (core : Nat)
  deriving DecidableEq, Repr

/-- The module. -/
structure State where
  cur : Option Cur
  agenda : List Choice
  /-- The number of free values taken (log 4) and the next unique number (log 5). -/
  free : Nat
  uid : Nat
  /-- Forty-sevenths of timer periods since reset: %ticks x 47 (R7). -/
  tick47 : Nat
  groups : List Group
  /-- The matrix engines of saved groups, by group (R277). -/
  savedMx : List (Nat × Matrix)
  flys : List Fly
  /-- Issued memory-writing instructions that have still to perform, in issue order. -/
  queue : List Queued
  batches : List Batch
  waiters : List Waiter
  engines : List (Nat × Engine)
  drives : List Drive
  links : List Link
  cores : List (Nat × Core)
  dies : List (Nat × Die)
  parts : List (Nat × Part)
  contexts : List (Nat × Context)
  programs : List Program
  launches : List Launch
  nextLaunch : Nat
  feeds : List Feed
  binds : List (Nat × Bind)
  /-- The home copy of physical memory, and the bytes that each address held before any release. -/
  mem : List Host.Cell
  base : List Host.Cell
  /-- The landings, newest first. -/
  log : List Landing
  nextLanding : Nat
  /-- The keys under which the bytes that `mem` and `base` hold of a line are known (R314): none for plaintext. -/
  seals : List (Nat × Option Keys)
  /-- The bytes of far memory that hold the memory poison mark, by sector (R348). -/
  spoiled : List (Nat × Word)
  shadow : List (Nat × Shadow)
  dirty : List (Nat × Nat)
  ops : List EngOp
  messages : List Message
  inbox : List Inbound
  endpoints : List Endpoint
  watches : List Watch
  namespaces : List Namespace
  conns : List Conn
  backoffs : List Backoff
  orphans : Nat
  boot : Boot
  deriving DecidableEq, Repr

/-- Why the model stops. -/
inductive Fault where
  /-- Raised by every instruction with an encoding when the state names no warp that issues it (`cur` is none, or
  names no split or closure of a live warp). Safe: a step sets `cur` before it calls `exec`, so no run meets it. -/
  | noIssuer
  deriving DecidableEq, Repr

/-- Why the model gives no next state. -/
inductive Refusal where
  /-- An instruction without a meaning in this model, rejected by name. Safe. -/
  | notModelled (mnemonic : String)
  /-- Raised by an event whose own conditions do not hold in this state (nothing is there to land, to run, to
  complete or to answer), by its mnemonic. Safe: the event does not happen in such a state. -/
  | notEnabled (event : String)
  deriving DecidableEq, Repr

/-- The boot state at reset: no image has run, no port has linked (R352, R353). -/
def Boot.fresh : Boot :=
  ⟨false, false, 0, [], [], none, none, 0, none, 0, 0, [], [], ⟨[], [], [], [], 0⟩, ⟨0, List.replicate 31 0, []⟩⟩

/-- The module right after reset: nothing is resident, memory lists nothing, every register holds the value the
spec gives for reset, or the value that log 1 names where it gives none. -/
def State.reset : State where
  cur := none
  agenda := []
  free := 0
  uid := 1
  tick47 := 0
  groups := []
  savedMx := []
  flys := []
  queue := []
  batches := []
  waiters := []
  engines := []
  drives := []
  links := []
  cores := []
  dies := []
  parts := []
  contexts := []
  programs := []
  launches := []
  nextLaunch := 1
  feeds := []
  binds := []
  mem := []
  base := []
  log := []
  nextLanding := 1
  seals := []
  spoiled := []
  shadow := []
  dirty := []
  ops := []
  messages := []
  inbox := []
  endpoints := []
  watches := []
  namespaces := []
  conns := []
  backoffs := []
  orphans := 0
  boot := Boot.fresh

end Sys2Proof.Machine
end

