-- ==== Sys2Proof/Machine/Operands.lean ====
section
/-! DEFINITION. Operands: who issues an instruction, which lanes are active, and how registers are read and written
(R14, R26, R28, R33, R157, R158). -/

namespace Sys2Proof.Machine

/-! ### Captured instructions -/

/-- The instruction that a closure runs. -/
def Closure.instr (k : Closure) : Option Instr :=
  match decode k.iword k.mword with
  | .ok p => some p.1
  | .error _ => none

/-- Whether a closure runs a kind of instruction. -/
def Closure.runs (k : Closure) (f : Instr → Bool) : Bool :=
  match k.instr with
  | some j => f j
  | none => false

/-! ### Masks of lanes -/

/-- The lanes of a mask, ascending. -/
def lanesOf (m : Word) : List Nat := (List.range 32).filter fun l => m.getLsbD l

/-- The lowest lane of a mask; 0 for an empty mask, which no rule reads. -/
def lowestLane (m : Word) : Nat := (lanesOf m).headD 0

/-- The mask of the lanes that satisfy a test. -/
def maskOf (f : Nat → Bool) : Word :=
  BitVec.ofNat 32 (((List.range 32).map fun l => if f l then 2 ^ l else 0).sum)

/-- The number of lanes of a mask. -/
def popCount (m : Word) : Nat := (lanesOf m).length

/-- A list of 32 lane values. -/
def lanes32 (f : Nat → Word) : List Word := (List.range 32).map f

/-! ### Groups and warps in the state -/

/-- The group with a number. -/
def State.group? (s : State) (gid : Nat) : Option Group := findBy (fun g => g.gid == gid) s.groups

/-- The warp of a group with an index. -/
def Group.warp? (g : Group) (w : Nat) : Option Warp := findBy (fun x => x.idx == w) g.warps

/-- The split of a warp with a number. -/
def Warp.split? (w : Warp) (n : Nat) : Option Split := findBy (fun x => x.num == n) w.splits

/-- The live closure of a warp with an index. -/
def Warp.closure? (w : Warp) (k : Nat) : Option Closure := findBy (fun x => x.idx == k) w.closures

/-- A warp of the state. -/
def State.warp? (s : State) (gid w : Nat) : Option Warp := (s.group? gid).bind fun g => g.warp? w

/-- Changes one group. -/
def State.updGroup (s : State) (gid : Nat) (f : Group → Group) : State :=
  { s with groups := updateBy (fun g => g.gid == gid) f s.groups }

/-- Changes one warp of a group. -/
def Group.updWarp (g : Group) (w : Nat) (f : Warp → Warp) : Group :=
  { g with warps := updateBy (fun x => x.idx == w) f g.warps }

/-- Changes one warp. -/
def State.updWarp (s : State) (gid w : Nat) (f : Warp → Warp) : State := s.updGroup gid fun g => g.updWarp w f

/-- Changes one split of a warp. -/
def Warp.updSplit (w : Warp) (n : Nat) (f : Split → Split) : Warp :=
  { w with splits := updateBy (fun x => x.num == n) f w.splits }

/-- The fresh unique number (log 5). -/
def State.fresh (s : State) : Nat × State := (s.uid, { s with uid := s.uid + 1 })

/-! ### Registers of a warp -/

/-- The key of a register and lane. -/
def regKey (r l : Nat) : Nat := 32 * r + l

/-- The register file's value of a register in a lane. -/
def Warp.reg (w : Warp) (r l : Nat) : Word := smGet 0 w.regs (regKey r l)

/-- Writes one lane of a register; a write of a new value clears its poison (R348). -/
def Warp.setReg (w : Warp) (r l : Nat) (v : Word) : Warp :=
  { w with regs := smSet 0 w.regs (regKey r l) v, poison := w.poison.filter fun k => k != regKey r l }

/-- Writes a register in some lanes. -/
def Warp.setLanes (w : Warp) (r : Nat) (ls : List Nat) (f : Nat → Word) : Warp :=
  ls.foldl (fun w l => w.setReg r l (f l)) w

/-- Values for registers: register numbers and lane values. -/
abbrev Writes := List (Nat × (Nat → Word))

/-- Writes registers in some lanes, the first of the list first. -/
def Warp.setAll (w : Warp) (ls : List Nat) (ws : Writes) : Warp :=
  ws.foldl (fun w p => w.setLanes p.1 ls p.2) w

/-- A warp that shows the same register values: a value of the register file and its poison. -/
def Warp.poisoned (w : Warp) (r l : Nat) : Bool := w.poison.contains (regKey r l)

/-! ### The issuing instruction -/

/-- The instruction that issues: its record in the state, its group and warp, and its split. A closure's run has no
split of its own; its stand-in has the number of the split that captured it and no bypass (R44, R181). -/
structure Ctx where
  cur : Cur
  grp : Group
  warp : Warp
  split : Split
  deriving DecidableEq, Repr

/-- Who issues, when the state names a live issuer. -/
def issuer? (s : State) : Option Ctx :=
  match s.cur with
  | none => none
  | some c =>
    match s.group? c.gid with
    | none => none
    | some g =>
      match g.warp? c.widx with
      | none => none
      | some w =>
        match c.clo with
        | some k =>
          match w.closure? k with
          | none => none
          | some _ => some ⟨c, g, w, ⟨c.split, c.pc, c.mask, [], [], none⟩⟩
        | none =>
          match w.split? c.split with
          | none => none
          | some sp => some ⟨c, g, w, sp⟩

/-- The value that an operand reads: a captured value, then a live transient value, then the register file (R33,
R41). -/
def Ctx.reg (c : Ctx) (r l : Nat) : Word :=
  match findBy (fun p => p.1 == r) c.cur.ovr with
  | some p => p.2.getD l 0
  | none =>
    match findBy (fun b => b.reg == r) c.split.bypass with
    | some b => b.vals.getD l 0
    | none => c.warp.reg r l

/-- The 64-bit value of a pair (R28). -/
def Ctx.pair (c : Ctx) (r l : Nat) : DWord := c.reg (r + 1) l ++ c.reg r l

/-- Whether the value that an operand reads is poisoned (R348). -/
def Ctx.poisoned (c : Ctx) (r l : Nat) : Bool :=
  match findBy (fun p => p.1 == r) c.cur.ovr with
  | some _ => c.cur.pois.contains (regKey r l)
  | none =>
    match findBy (fun b => b.reg == r) c.split.bypass with
    | some b => b.poison.getLsbD l
    | none => c.warp.poisoned r l

/-- Whether a modifier selects the uniform form (R157). -/
def isUniform (m : Option Modifier) : Bool :=
  match m with
  | some m => m.pred == 0 && m.ppol
  | none => false

/-- Whether a lane satisfies the predicate of a modifier (R157). -/
def Ctx.predicate (c : Ctx) (m : Option Modifier) (l : Nat) : Bool :=
  match m with
  | some m => m.pred == 0 || ((c.reg m.pred.toNat l).getLsbD 0 != m.ppol)
  | none => true

/-- The active lanes of an instruction: those of its mask that satisfy its predicate (R158). -/
def Ctx.act (c : Ctx) (m : Option Modifier) : List Nat := (lanesOf c.cur.mask).filter fun l => c.predicate m l

/-- The mask of the active lanes. -/
def Ctx.actMask (c : Ctx) (m : Option Modifier) : Word := maskOf fun l => (c.act m).contains l

/-- The lowest active lane, which supplies uniform operands (R14, R168). -/
def Ctx.low (c : Ctx) (m : Option Modifier) : Nat := (c.act m).headD 0

/-- The lane whose operands give a lane's result: its own, or the lowest active lane in the uniform form (R14). -/
def Ctx.src (c : Ctx) (m : Option Modifier) (l : Nat) : Nat := if isUniform m then c.low m else l

/-- The address of the next instruction, after any modifier word. -/
def Ctx.next (c : Ctx) : DWord := c.cur.pc + BitVec.ofNat 64 c.cur.len

/-- Whether the instruction issues from the stream of its warp, not as a closure. -/
def Ctx.streamed (c : Ctx) : Bool := c.cur.clo.isNone

/-- Whether the group runs in deferring mode (R39). -/
def Ctx.deferring (c : Ctx) : Bool := c.grp.dmode

/-! ### Checks of every instruction -/

/-- Whether an instruction names a register beyond the window (R26). -/
def Ctx.beyond (c : Ctx) (i : Instr) : Bool := i.names.any fun r => decide (c.warp.window ≤ r)

/-- The lanes in which an instruction reads its per-lane sources. -/
def Ctx.readLanes (c : Ctx) (i : Instr) : List Nat :=
  if isUniform i.modifier then (c.act none).take 1 else c.act i.modifier

/-- The lowest-numbered poisoned register that an instruction reads (R348). -/
def Ctx.poison? (c : Ctx) (i : Instr) : Option Nat :=
  let bad := fun r =>
    (i.srcs.contains r && (c.readLanes i).any fun l => c.poisoned r l)
      || (i.lows.contains r && ((c.act i.modifier).take 1).any fun l => c.poisoned r l)
      || (i.predReg.contains r && (lanesOf c.cur.mask).any fun l => c.poisoned r l)
  findBy bad (List.range 128)

end Sys2Proof.Machine
end

