-- ==== Sys2Proof/Machine/Far.lean ====
section
/-! DEFINITION. Memory: bytes and words, the cores' snapshots of far memory, stores, releases, landings and acquires
(08), scratch (04), range locks (20) and the race detector's shadow state (R151). -/

namespace Sys2Proof.Machine

/-! ### Bytes and numbers, little-endian (R2) -/

/-- The number in n bytes from an address. -/
def readNat (f : Nat → Byte) (a : Nat) : Nat → Nat
  | 0 => 0
  | n + 1 => (f a).toNat + 256 * readNat f (a + 1) n

/-- The n bytes of a number. -/
def natBytes : Nat → Nat → List Byte
  | 0, _ => []
  | n + 1, v => BitVec.ofNat 8 v :: natBytes n (v / 256)

/-- The number in a list of bytes. -/
def bytesNat : List Byte → Nat
  | [] => 0
  | b :: r => b.toNat + 256 * bytesNat r

/-- Bytes placed from an address. -/
def putAt (a : Nat) : List Byte → List (Nat × Byte)
  | [] => []
  | b :: r => (a, b) :: putAt (a + 1) r

/-- The last byte that a list of writes gives an address. -/
def lastWrite (ws : List (Nat × Byte)) (a : Nat) : Option Byte :=
  ws.foldl (fun r p => if p.1 = a then some p.2 else r) none

/-! ### The places of the module -/

/-- A core of the state. -/
def State.core (s : State) (c : Nat) : Core := smGet Core.fresh s.cores c

/-- Changes a core. -/
def State.setCore (s : State) (c : Nat) (k : Core) : State := { s with cores := smSet Core.fresh s.cores c k }

/-- A die of the state. -/
def State.die (s : State) (d : Nat) : Die := smGet Die.fresh s.dies d

/-- Changes a die. -/
def State.setDie (s : State) (d : Nat) (x : Die) : State := { s with dies := smSet Die.fresh s.dies d x }

/-- A partition of the state. -/
def State.part (s : State) (p : Nat) : Part := smGet Part.absent s.parts p

/-- Changes a partition. -/
def State.setPart (s : State) (p : Nat) (x : Part) : State := { s with parts := smSet Part.absent s.parts p x }

/-- The context of an ASID. -/
def State.context (s : State) (a : Nat) : Context := smGet Context.none s.contexts a

/-- Changes a context. -/
def State.setContext (s : State) (a : Nat) (x : Context) : State :=
  { s with contexts := smSet Context.none s.contexts a x }

/-- The partition to whose shares work of a partition's context is charged: the root's is charged to the partition that it works
for, which nothing constrains (R343, log 66). -/
def State.payer (s : State) (part : Nat) : Nat :=
  let p := (Config.workFor s.uid).toNat
  if part = 0xFF ∧ (s.part p).live = true then p else part

/-- The launch with an id. -/
def State.launch? (s : State) (l : Nat) : Option Launch := findBy (fun x => x.id == l) s.launches

/-- Changes a launch. -/
def State.updLaunch (s : State) (l : Nat) (f : Launch → Launch) : State :=
  { s with launches := updateBy (fun x => x.id == l) f s.launches }

/-- The engine operation with an id. -/
def State.op? (s : State) (id : Nat) : Option EngOp := findBy (fun o => o.id == id) s.ops

/-- %ticks: 100 MHz timer periods since reset (R7, R30). -/
def State.ticks (s : State) : DWord := BitVec.ofNat 64 (s.tick47 / 47)

/-- %cycles of a die: arithmetic clocks since reset (R7, R30). -/
def State.cycles (s : State) (d : Nat) : DWord := BitVec.ofNat 64 ((s.die d).cyc8 / 8)

/-- A 4 MiB slice (R310). -/
def sliceSize : Nat := 0x400000

/-- The end of the global SRAM window (R310). -/
def sramEnd : Nat := 0x100000000

/-- Addresses of peer windows are kept above the physical ones: the peer entry's partition and index, then the remote
address (R331). -/
def peerBase : Nat := 2 ^ 64

/-- The model's address of a byte of a peer window. -/
def peerAddr (part idx remote : Nat) : Nat := peerBase * (1 + 256 * part + idx) + remote

/-- Whether an address lies in a peer window. -/
def isPeer (a : Nat) : Bool := decide (peerBase ≤ a)

/-- An address that translation through a page with KV = 1 gives carries the page's key slot above the physical address: the
byte as that slot deciphers it (R314). -/
def keyBase : Nat := 2 ^ 56

/-- The model's address of a physical byte under a key slot. -/
def keyAddr (slot a : Nat) : Nat := keyBase * (1 + slot) + a

/-- The key slot that an address carries; none for plaintext. -/
def keySlot (a : Nat) : Option Nat := if a < keyBase ∨ isPeer a then none else some (a / keyBase - 1)

/-- The physical address that an address names. -/
def rawAddr (a : Nat) : Nat := if isPeer a then a else a % keyBase

/-- The 32-byte sector of an address. -/
def sectorOf (a : Nat) : Nat := rawAddr a / 32

/-- The bytes of an HBM stack (R310). -/
abbrev stackSize : Nat := 0x12A05F2000

/-- The HBM stack that holds a physical address (R310). -/
def stackOf (a : Nat) : Option Nat :=
  let p := rawAddr a
  if 0x010000000000 ≤ p then
    let r := p - 0x010000000000
    let n := r / 0x2000000000
    if n < 16 ∧ r % 0x2000000000 < stackSize then some n else none
  else none

/-- Whether a physical address lies outside every hole (R310). -/
def physOk (a : Nat) : Bool := decide (a < keyBase) && (decide (a < sramEnd) || (stackOf a).isSome)

/-- Whether a physical range lies outside every hole: its first and last byte lie in one region. -/
def physRangeOk (a n : Nat) : Bool :=
  decide (0 < n) && decide (a + n ≤ keyBase) &&
    ((decide (a + n ≤ sramEnd)) || ((stackOf a).isSome && stackOf a == stackOf (a + n - 1)))

/-- The die that homes a physical address (R88, R310). -/
def homeDie (a : Nat) : Nat :=
  match stackOf a with
  | some n => n / 2
  | none => rawAddr a / sliceSize / 128

/-- The home atomic engine of a physical address, as 16 times the die plus the cluster (R88, R89). -/
def engineOf (a : Nat) : Nat :=
  match stackOf a with
  | some n =>
    let f := fun i => rawAddr a / 2 ^ i % 16
    16 * (n / 2) + (f 7 ^^^ f 11 ^^^ f 15 ^^^ f 19)
  | none => rawAddr a / sliceSize / 8

/-! ### Home copies -/

/-- The keys under which an address shows its line: those of its key slot, on the die that homes the line (R314). -/
def State.viewOf (s : State) (a : Nat) : Option Keys :=
  (keySlot a).map fun k =>
    let x := smGet KSlot.free (s.die (homeDie a)).kslots k
    (x.data, x.tweak)

/-- The keys under which the bytes that a memory holds of a line are known. -/
def State.sealOf (s : State) (line : Nat) : Option Keys := smGet none s.seals line

/-- The bytes of a line of a memory as the holder of some keys sees them (R314). -/
def State.lineView (s : State) (m : List Host.Cell) (line : Nat) (v : Option Keys) : List Byte :=
  let bs := (List.range 128).map fun i => smGet 0 m (128 * line + i)
  if s.sealOf line = v then bs else (List.range 128).map (otherView (s.sealOf line) v line bs)

/-- A byte of a memory as an address shows it. -/
def State.viewByte (s : State) (m : List Host.Cell) (a : Nat) : Byte :=
  let p := rawAddr a
  if s.sealOf (p / 128) = s.viewOf a then smGet 0 m p else (s.lineView m (p / 128) (s.viewOf a)).getD (p % 128) 0

/-- The home copy of a byte. -/
def State.home (s : State) (a : Nat) : Byte := s.viewByte s.mem a

/-- The number in n bytes of home copies. -/
def State.homeNat (s : State) (a n : Nat) : Nat := readNat s.home a n

/-- The marks of poisoned bytes after some writes (R348), which may together cover a sector (DEDUCED, log 94). -/
def clearSpoil (sp : List (Nat × Word)) (ws : List (Nat × Byte)) : List (Nat × Word) :=
  if sp.isEmpty then sp
  else ws.foldl (fun t w => smSet 0 t (w.1 / 32) (smGet 0 t (w.1 / 32) &&& ~~~(1#32 <<< (w.1 % 32)))) sp

/-- The marks with whole sectors marked. -/
def addSpoil (sp : List (Nat × Word)) (xs : List Nat) : List (Nat × Word) := xs.foldl (fun t x => smSet 0 t x 0xFFFFFFFF) sp

/-- Adds marks to sectors of far memory (R348). -/
def State.spoilFar (s : State) (ms : List (Nat × Word)) : State :=
  { s with spoiled := ms.foldl (fun t p => smSet 0 t p.1 (smGet 0 t p.1 ||| p.2)) s.spoiled }

/-- The marks of whole sectors. -/
def wholeMarks (xs : List Nat) : List (Nat × Word) := xs.map fun x => (x, 0xFFFFFFFF)

/-- Whether the sector of an address holds the memory poison mark (R348). -/
def State.marked (s : State) (a : Nat) : Bool := smGet 0 s.spoiled (sectorOf a) != 0

/-- Writes as physical memory takes them. -/
def rawWrites (ws : List (Nat × Byte)) : List (Nat × Byte) := ws.map fun w => (rawAddr w.1, w.2)

/-- A memory whose lines that some writes reach are known under the keys of the writes (R314). -/
def State.unsealed (s : State) (m : List Host.Cell) (ws : List (Nat × Byte)) : List Host.Cell :=
  ws.foldl (fun t w =>
    let n := rawAddr w.1 / 128
    if s.sealOf n = s.viewOf w.1 then t else smSets 0 t (putAt (128 * n) (s.lineView m n (s.viewOf w.1)))) m

/-- The keys of the lines after some writes (R314). -/
def State.sealsAfter (s : State) (ws : List (Nat × Byte)) : List (Nat × Option Keys) :=
  ws.foldl (fun l w => smSet none l (rawAddr w.1 / 128) (s.viewOf w.1)) s.seals

/-- Writes home copies. -/
def State.writeHome (s : State) (ws : List (Nat × Byte)) : State :=
  { s with
    mem := smSets 0 (s.unsealed s.mem ws) (rawWrites ws)
    base := s.unsealed s.base ws
    seals := s.sealsAfter ws
    spoiled := clearSpoil s.spoiled (rawWrites ws) }

/-- Writes bytes that no snapshot rule governs: the home copy and what every snapshot reads (a scrub, a save image, a
log entry). -/
def State.writeRaw (s : State) (ws : List (Nat × Byte)) : State :=
  let s := s.writeHome ws
  let gone := fun (w : Nat × Byte) => (lastWrite (rawWrites ws) (rawAddr w.1)).isSome
  { s with base := smSets 0 s.base (rawWrites ws)
           log := s.log.map fun l => { l with writes := l.writes.filter fun w => !gone w } }

/-! ### Snapshots (R137, R138) -/

/-- The latest own store of a core to a byte that has not landed, as an access of a partition sees it: a line is never
returned to another partition (R138, R344; DEDUCED, log 92). -/
def Core.own (k : Core) (part a : Nat) : Option Byte :=
  k.stores.foldl (fun r x => if x.addr = a ∧ x.part = part ∧ !x.landed then some x.byte else r) none

/-- The newest landed write of a byte among some landings, newest first. -/
def newestIn (has : Nat → Bool) (a : Nat) : List Landing → Option Byte
  | [] => none
  | l :: r =>
    if has l.idx then
      match lastWrite l.writes a with
      | some b => some b
      | none => newestIn has a r
    else newestIn has a r

/-- Whether landings have written the line of an address under other keys than those of the address (R314). -/
def State.aliased (s : State) (a : Nat) : Bool :=
  s.log.any fun l => l.writes.any fun w => rawAddr w.1 / 128 == rawAddr a / 128 && s.viewOf w.1 != s.viewOf a

/-- A line that some landings, oldest first, have written after the base: its bytes and the keys under which they are known. -/
def State.snapLine (s : State) (has : List Nat) (line : Nat) : Option Keys × List Byte :=
  let put := fun (q : Option Keys × List Byte) (w : Nat × Byte) =>
    let v := s.viewOf w.1
    let bs := if q.1 = v then q.2 else (List.range 128).map (otherView q.1 v line q.2)
    (v, bs.set (rawAddr w.1 % 128) w.2)
  let land := fun (q : Option Keys × List Byte) (l : Landing) =>
    if has.contains l.idx then (l.writes.filter fun w => rawAddr w.1 / 128 == line).foldl put q else q
  s.log.reverse.foldl land (s.sealOf line, (List.range 128).map fun i => smGet 0 s.base (128 * line + i))

/-- The poisoned bytes of a sector as a core reads it for a partition (R348): its own stores that have not landed hide or bring
marks. -/
def State.markFor (s : State) (c part sector : Nat) : Word :=
  ((s.core c).stores.filter fun x => x.part == part && !x.landed && sectorOf x.addr == sector).foldl
    (fun m x =>
      if x.bad then 0xFFFFFFFF else m &&& ~~~(1#32 <<< (rawAddr x.addr % 32))) (smGet 0 s.spoiled sector)

/-- The byte that a core with some landings in its snapshot reads, its own stores apart. -/
def State.snapByte (s : State) (has : List Nat) (a : Nat) : Byte :=
  if s.aliased a then
    let q := s.snapLine has (rawAddr a / 128)
    otherView q.1 (s.viewOf a) (rawAddr a / 128) q.2 (rawAddr a % 128)
  else
    match newestIn (fun i => has.contains i) a s.log with
    | some b => b
    | none => s.viewByte s.base a

/-- A peer line in a core's phase cache; none where it is absent. -/
def Core.peerLine? (k : Core) (n : Nat) : Option (List Byte) := (findBy (fun p => p.1 == n) k.peerLines).map fun p => p.2

/-- The bytes of a peer line, empty where it is absent. -/
def Core.peerLine (k : Core) (n : Nat) : List Byte := (k.peerLine? n).getD []

/-- The latest byte of a core's own released stores to a peer window (R138). -/
def Core.ownPeer (k : Core) (a : Nat) : Option Byte :=
  k.peerOwn.foldl (fun r x => if x.1 = a then some x.2.1 else r) none

/-- The byte of a peer window as a core reads it: its own released store, else its cached line (R138, R223). -/
def Core.peerByte (k : Core) (a : Nat) : Byte := (k.ownPeer a).getD ((k.peerLine (a / 128)).getD (a % 128) 0)

/-- The byte that a load of a core returns to a partition (R138, R344). -/
def State.farByte (s : State) (c part a : Nat) : Byte :=
  let k := s.core c
  match k.own part a with
  | some b => b
  | none => if isPeer a then k.peerByte a else s.snapByte k.contained a

/-! ### Domains (R136) -/

/-- The number under which the ports of the module and the fault hardware release (R149, R358): above every core, in the
device domain. -/
def portCore : Nat := 1024

/-- The number under which the port hardware releases for a partition: no partition waits for another's releases (R342). -/
def portOf (part : Nat) : Nat := portCore + part

/-- The domain of the device and of every wider scope: every core and every port. -/
def deviceDomain : Nat × Nat := (0, portOf 0xFF)

/-- The domain of a scope seen from a group's core, as a range of cores. -/
def Group.domain (g : Group) (scope : Nat) : Nat × Nat :=
  match scope with
  | 0 | 1 | 2 => (g.core, g.core)
  | 3 => (g.core - g.member, g.core - g.member + g.members - 1)
  | 4 => (128 * (g.core / 128), 128 * (g.core / 128) + 127)
  | _ => deviceDomain

/-- The code of a scope. -/
def scopeNum (x : Scope) : Nat := x.code.toNat

/-! ### Stores and releases (R137, R139) -/

/-- Records far stores of a core in performance order, by a group of a context and a partition; those to some sectors carry
poisoned data. -/
def State.storeFar (s : State) (c gid asid part : Nat) (ws : List (Nat × Byte)) (bad : List Nat) : State :=
  let k := s.core c
  let new := ws.zipIdx.map fun p =>
    (⟨s.uid + p.2, p.1.1, p.1.2, gid, asid, part, none, false, bad.contains (sectorOf p.1.1)⟩ : FarStore)
  { s.setCore c { k with stores := k.stores ++ new } with uid := s.uid + ws.length }

/-- The far stores that a saved group has kept become those of a core (R281). -/
def State.storeKept (s : State) (c : Nat) (xs : List FarStore) : State :=
  let k := s.core c
  let new := xs.zipIdx.map fun p => { p.1 with ord := s.uid + p.2 }
  { s.setCore c { k with stores := k.stores ++ new } with uid := s.uid + xs.length }

/-- Whether no earlier release of the core at a scope or wider has covered a store (R139). -/
def FarStore.uncovered (x : FarStore) (scope : Nat) : Bool :=
  match x.cov with
  | none => true
  | some y => decide (y < scope)

/-- Whether a release at a scope takes in a store (R139): not below gang scope, and a store to a peer window only at system
scope (R223). -/
def FarStore.takenBy (x : FarStore) (scope : Nat) : Bool :=
  decide (3 ≤ scope) && x.uncovered scope && (!isPeer x.addr || decide (6 ≤ scope))

/-- Whether some release has still to cover a store of a group that is moved or saved (R148, R281). -/
def FarStore.unreleased (x : FarStore) : Bool := x.uncovered (if isPeer x.addr then 6 else 5)

/-- The 128-byte lines that other modules watch, hit by a list of writes (R150). -/
def State.watchHits (s : State) (ws : List (Nat × Byte)) : List Watch :=
  s.watches.filter fun w => ws.any fun p => p.1 / 128 == w.addr / 128

/-- The instructions whose operations a system-scope release awaits (R150). -/
def Instr.sendsNet : Instr → Bool
  | .nwr _ | .natm _ | .nsnd _ => true
  | _ => false

/-- Takes back into a group the far stores on its core that some release has still to cover (R148, R281). A store whose narrower
release has still to land stays on the core until then, and no later release takes it in. -/
def State.keepStores (s : State) (g : Group) : State :=
  let k := s.core g.core
  let mine := fun (x : FarStore) => x.gid == g.gid && x.unreleased
  let rest := k.stores.filterMap fun x =>
    if !mine x then some x else if x.cov.isSome && !x.landed then some { x with cov := some 6 } else none
  (s.setCore g.core { k with stores := rest }).updGroup g.gid fun y =>
    { y with kept := y.kept ++ (k.stores.filter mine).map fun x => { x with cov := none } }

/-- The network operations of a core that no target has acknowledged, and the captured instructions of its warps that will
send one (R150): an operation of a closure has its number. -/
def State.unacked (s : State) (c : Nat) : List Nat :=
  ((s.ops.filter fun o => o.core == c && (match o.kind with | .net k => k == 0 || k == 2 || k == 3 || k == 6 | _ => false)).map
    fun o => o.id)
    ++ (s.groups.filter fun g => g.core == c).flatMap fun g => g.warps.flatMap fun w =>
      (w.closures.filter fun k => k.runs Instr.sendsNet).map fun k => k.id

/-- Whether a network operation that a release awaits is still outstanding or has still to be sent (R150). -/
def State.netOpen (s : State) (waits : List Nat) : Bool :=
  (s.ops.any fun o => waits.contains o.id)
    || s.groups.any fun g => g.warps.any fun w => w.closures.any fun k => waits.contains k.id

/-- The marks that stores leave on the sectors that poisoned ones of them reach, oldest first (R348). -/
def marksOf (m : List (Nat × Word)) (xs : List FarStore) : List (Nat × Word) :=
  xs.foldl (fun m x =>
    let n := sectorOf x.addr
    smSet 0 m n (if x.bad then 0xFFFFFFFF else smGet 0 m n &&& ~~~(1#32 <<< (rawAddr x.addr % 32)))) m

/-- A release with more stores in its set. -/
def Release.take (r : Release) (set : List FarStore) : Release :=
  { r with
    ords := r.ords ++ set.map fun x => x.ord
    writes := r.writes ++ set.map fun x => (x.addr, x.byte)
    marks := marksOf r.marks set }

/-- A release whose set is complete: one that writes a watched line is promoted to system scope, and it knows the network
operations before it (R139, R150). -/
def State.complete (s : State) (r : Release) : Release :=
  { r with
    isOpen := false
    scope := if r.scope = 5 ∧ !(s.watchHits r.writes).isEmpty then 6 else r.scope
    waits := if 5 ≤ r.scope then (r.waits ++ s.unacked r.core).eraseDups else r.waits }

/-- The stores of a core after a release at a scope has taken in those that it covers. -/
def Core.covered (k : Core) (scope : Nat) : List FarStore :=
  k.stores.map fun x => if x.takenBy scope then { x with cov := some scope } else x

/-- Issues a release of a core at a scope (R139): it takes its place among the releases of the core, and its landing is a
later event. Below gang scope it only orders its warp's accesses, and its set is empty. -/
def State.release (s : State) (c : Nat) (dom : Nat × Nat) (part scope : Nat) (after : List After) : State :=
  let k := s.core c
  let r := s.complete ((⟨s.uid, c, scope, dom.1, dom.2, part, [], [], [], [], after, true⟩ : Release).take
    (k.stores.filter fun x => x.takenBy scope))
  { s.setCore c { k with stores := k.covered scope, relq := k.relq ++ [r] } with uid := s.uid + 1 }

/-- Issues a release that follows earlier work of its warp (R46): it has its place and the stores performed so far, and stays
open until its turn comes. -/
def State.openRelease (s : State) (c : Nat) (dom : Nat × Nat) (part scope : Nat) : State :=
  let k := s.core c
  let r := (⟨s.uid, c, scope, dom.1, dom.2, part, [], [], [], if 5 ≤ scope then s.unacked c else [], [], true⟩ : Release).take
    (k.stores.filter fun x => x.takenBy scope)
  { s.setCore c { k with stores := k.covered scope, relq := k.relq ++ [r] } with uid := s.uid + 1 }

/-- The turn of an open release has come: its set is complete, and it knows what waits for it. -/
def State.closeRelease (s : State) (c id : Nat) (after : List After) : State :=
  let k := s.core c
  match findBy (fun r => r.id == id) k.relq with
  | none => s
  | some r =>
    let r' := s.complete { r.take (k.stores.filter fun x => x.takenBy r.scope) with after := after }
    s.setCore c { k with stores := k.covered r.scope, relq := updateBy (fun x => x.id == id) (fun _ => r') k.relq }

/-- Adds a landing to the log and writes its home copies (R140). -/
def State.addLanding (s : State) (c lo hi part : Nat) (num : Nat) (ws : List (Nat × Byte)) : State :=
  let ws := ws.filter fun w => !isPeer w.1
  let s := s.writeHome ws
  { s with log := ⟨s.log.length + 1, num, c, lo, hi, part, ws⟩ :: s.log }

/-- A write of a home engine for a core: the home copy at once, and every snapshot that acquires after it (R90,
log 11). -/
def State.engineWrite (s : State) (c : Nat) (ws : List (Nat × Byte)) : State := s.addLanding c 0 1023 0xFF 0 ws

/-- Writes of the hardware for a partition that land at once as one release at device scope, with the next landing number
(R140, R149, R358). -/
def State.hardLand (s : State) (c part : Nat) (ws : List (Nat × Byte)) : State :=
  let t := s.addLanding c 0 1023 part s.nextLanding ws
  { t with nextLanding := s.nextLanding + 1 }

/-- A release without the bytes that some writes replace. -/
def Release.without (r : Release) (ws : List (Nat × Byte)) : Release :=
  { r with writes := r.writes.filter fun w => (lastWrite ws w.1).isNone }

/-- Writes of the hardware that have landed as a device-scope release of a core when the next event starts (R273,
R307): a later own load reads them, so older own stores of the bytes, released or not, give way (R137). -/
def State.landedWrite (s : State) (c part : Nat) (ws : List (Nat × Byte)) : State :=
  let t := s.hardLand c part ws
  let k := t.core c
  t.setCore c { k with
    contained := t.log.length :: k.contained
    stores := k.stores.filter fun x => (lastWrite ws x.addr).isNone
    relq := k.relq.map fun r => r.without ws }

/-- The cores that a partition's groups occupy. -/
def State.liveCores (s : State) (part : Nat) : List Nat :=
  ((s.groups.filter fun g => g.part == part && g.stat != .saved && g.stat != .ended).map fun g => g.core).eraseDups

/-- The older versions that landings of a partition keep, as the lines of landings that the snapshot of some live core of
the partition does not contain yet (R144). -/
def State.versions (s : State) (part : Nat) : List Nat :=
  let live := s.liveCores part
  let ls := s.log.filter fun l => l.part == part && l.num != 0 && live.any fun c => !(s.core c).contained.contains l.idx
  ls.flatMap fun l => (l.writes.map fun w => w.1 / 128).eraseDups

/-- The versions in use of a partition's peat quota. -/
def State.peatUse (s : State) (part : Nat) : Nat := (s.versions part).length

/-- The lines that the version pool of a die holds: 8 MiB (R6). -/
def peatLines : Nat := 65536

/-- The versions of a partition that a die's pool holds. -/
def State.peatHeld (s : State) (part die : Nat) : Nat :=
  ((s.versions part).filter fun x => homeDie (128 * x) == die).length

/-- Whether the landing of some writes of a partition is delayed: its peat quota is full, or its own versions fill the pool of
a die that it writes (R6, R144, R285); another partition's never delay it (R342, R344). The root has no quota. -/
def State.peatFull (s : State) (part : Nat) (ws : List (Nat × Byte)) : Bool :=
  (part != 0xFF && decide ((s.part part).peatq.toNat ≤ s.peatUse part))
    || ((ws.map fun w => homeDie w.1).eraseDups).any fun d => decide (peatLines ≤ s.peatHeld part d)

/-- The shadow states after a release lands: the sectors that its core wrote last, and of whose writes none is left out of
the release, hold its landing beside those of narrower releases (R151). -/
def shadowLand (c idx : Nat) (ws : List (Nat × Byte)) (left : List Nat) (sh : List (Nat × Shadow)) : List (Nat × Shadow) :=
  sh.map fun p =>
    if p.2.writer == c && !left.contains p.1 && ws.any (fun w => sectorOf w.1 == p.1) then
      (p.1, { p.2 with landed := idx :: p.2.landed })
    else p

/-- Lands the oldest release of a core, with the next landing number (R139, R140). -/
def State.landHead (s : State) (r : Release) : State :=
  let s1 := (s.addLanding r.core r.lo r.hi r.part s.nextLanding r.writes).spoilFar r.marks
  let idx := s1.log.length
  let k := s1.core r.core
  let done := fun (x : FarStore) => x.landed && (match x.cov with
    | some y => decide (5 ≤ y) && (!isPeer x.addr || decide (6 ≤ y))
    | none => false)
  let stores := (k.stores.map fun x => if r.ords.contains x.ord then { x with landed := true } else x).filter
    fun x => !done x
  let left := (k.stores.filter fun x => !x.landed && !r.ords.contains x.ord).map fun x => sectorOf x.addr
  { s1.setCore r.core { k with
      stores := stores
      relq := k.relq.filter fun q => q.id != r.id
      contained := idx :: k.contained } with
    nextLanding := s1.nextLanding + 1
    shadow := shadowLand r.core idx r.writes left s1.shadow }

/-! ### Acquires (R141) -/

/-- An acquire of a core whose domain is a range of cores, at the present point of the landing order. -/
def State.acquire (s : State) (c : Nat) (dom : Nat × Nat) : State :=
  let k := s.core c
  let takes := fun (l : Landing) =>
    k.contained.contains l.idx ||
      (decide (l.lo ≤ c) && decide (c ≤ l.hi) && decide (dom.1 ≤ l.core) && decide (l.core ≤ dom.2))
  s.setCore c { k with contained := (s.log.filter takes).map (fun l => l.idx), acqIdx := s.log.length }

/-- PHASE.ACQ of a group at a scope of gang or wider; at system scope it drops the core's lines of peer windows (R225). One
below gang scope changes no snapshot: `acquireFor` makes it a fence. -/
def State.acquireAt (s : State) (g : Group) (scope : Nat) : State :=
  if scope < 3 then s
  else
    let s := s.acquire g.core (g.domain scope)
    let flying := fun (x : Nat × Byte × Nat) => s.ops.any fun o => o.id == x.2.2
    if scope = 6 then
      let k := s.core g.core
      s.setCore g.core { k with peerLines := [], peerOwn := k.peerOwn.filter flying }
    else s

/-- Releases landed within a core's domains since its latest acquire (R145). -/
def State.relCount (s : State) (c : Nat) : Nat :=
  (s.log.filter fun l => decide ((s.core c).acqIdx < l.idx) && l.num != 0 && decide (l.lo ≤ c) && decide (c ≤ l.hi)).length

/-! ### Scratch (R80 to R84) -/

/-- Member m of a group's gang (R83). A gathered task warp's group is no member of a gang (R25). -/
def State.member? (s : State) (g : Group) (m : Nat) : Option Group :=
  if m < g.members then
    (if m = g.member then some g
     else findBy (fun x => x.launch == g.launch && x.gang == g.gang && x.member == m && x.stat != .ended && x.place != 0xFF) s.groups)
  else none

/-- The group whose slice holds the gang barriers of a group's gang: member 0, ended or not, until the gang ends
(R230). -/
def State.barHome? (s : State) (g : Group) : Option Group :=
  if g.member = 0 then some g
  else findBy (fun x => x.launch == g.launch && x.gang == g.gang && x.member == 0 && x.place != 0xFF) s.groups

/-- A byte of a place. -/
def State.locByte (s : State) (l : Loc) (i : Nat) : Byte :=
  match l with
  | .phys a => s.home (a + i)
  | .sram g a => (match s.group? g with | some x => smGet 0 x.sMem (a + i) | none => 0)
  | .nram g a => (match s.group? g with | some x => smGet 0 x.nMem (a + i) | none => 0)

/-- The number in n bytes of a place. -/
def State.locNat (s : State) (l : Loc) (n : Nat) : Nat := readNat (fun i => s.locByte l i) 0 n

/-- Writes bytes of a place on behalf of a core: a far byte as a home engine does (R90). -/
def State.locWrite (s : State) (c : Nat) (l : Loc) (i : Nat) (bs : List Byte) : State :=
  match l with
  | .phys a => s.engineWrite c (putAt (a + i) bs)
  | .sram g a => s.updGroup g fun x =>
      { x with sMem := smSets 0 x.sMem (putAt (a + i) bs), sSpoil := clearSpoil x.sSpoil (putAt (a + i) bs) }
  | .nram g a => s.updGroup g fun x =>
      { x with nMem := smSets 0 x.nMem (putAt (a + i) bs), nSpoil := clearSpoil x.nSpoil (putAt (a + i) bs) }

/-- The home engine of a place. -/
def State.locEngine (s : State) (l : Loc) : Nat :=
  match l with
  | .phys a => engineOf a
  | .sram g _ | .nram g _ => (match s.group? g with | some x => x.core / 8 | none => 0)

/-- The place i bytes on. -/
def Loc.plus (l : Loc) (i : Nat) : Loc :=
  match l with
  | .phys a => .phys (a + i)
  | .sram g a => .sram g (a + i)
  | .nram g a => .nram g (a + i)

/-! ### Range locks (R322) and the race detector (R151) -/

/-- Whether two ranges meet. -/
def meets (a n b m : Nat) : Bool := decide (a < b + m) && decide (b < a + n)

/-- Space numbers of locks: S 0, N 1, G 2, operand buffer 3, announcement record 4. A scratch range is compared by
space, ASID and offset alone, as the table holds it. -/
def Lock.hit (l : Lock) (space asid a n : Nat) : Bool :=
  l.space == space && l.asid == asid &&
    (if space = 2 then meets (32 * (l.lo / 32)) (32 * ((l.lo + l.len + 31) / 32) - 32 * (l.lo / 32)) a n
     else meets l.lo l.len a n)

/-- Whether an access of a warp of a core meets a lock of that core, a pending announcement record apart (R322). -/
def Core.locked (k : Core) (space asid a n : Nat) : Bool := k.locks.any fun l => l.hit space asid a n

/-- Registers locked ranges on a core (R322). -/
def State.lock (s : State) (core : Nat) (ls : List Lock) : State :=
  let k := s.core core
  s.setCore core { k with locks := k.locks ++ ls }

/-- Removes the locks that an operation or drive holds on a core (R322). -/
def State.unlock (s : State) (core op : Nat) : State :=
  let k := s.core core
  s.setCore core { k with locks := k.locks.filter fun x => x.op != op }

/-- Whether the range-lock table of a core has room for n entries more (R322). -/
def State.lockRoom (s : State) (core n : Nat) : Bool := decide ((s.core core).locks.length + n ≤ 512)

/-- The writer that a race report names for an access of a core to a far byte (R151). -/
def State.racer (s : State) (part c a : Nat) : Option Nat :=
  if (s.part part).racecfg.getLsbD 0 then
    match findBy (fun p => p.1 == sectorOf a) s.shadow with
    | none => none
    | some p =>
      let x := p.2
      if x.writer == c || x.reported.contains c then none
      else
        let ok := x.landed.any fun i => decide (i ≤ (s.core c).acqIdx) && (s.core c).contained.contains i
        if ok then none else some x.writer
  else none

/-- Marks a sector as reported to a core (R151). -/
def State.raceReported (s : State) (c a : Nat) : State :=
  { s with shadow := s.shadow.map fun p =>
      if p.1 == sectorOf a then (p.1, { p.2 with reported := c :: p.2.reported }) else p }

/-- The shadow states after a group of a core stores to far bytes: with the detector off the sectors lose theirs (R323). -/
def State.raceStore (s : State) (part c gid : Nat) (as : List Nat) : State :=
  let secs := (as.map sectorOf).eraseDups
  let rest := s.shadow.filter fun p => !secs.contains p.1
  if (s.part part).racecfg.getLsbD 0 then
    { s with shadow := rest ++ secs.map fun x => (x, ⟨c, gid, [], []⟩) }
  else { s with shadow := rest }

/-- A group comes to another core with its unreleased stores: that core is their last writer (R151, R281). -/
def State.raceMove (s : State) (c gid : Nat) (as : List Nat) : State :=
  let secs := (as.map sectorOf).eraseDups
  { s with shadow := s.shadow.map fun p => if secs.contains p.1 && p.2.group == gid then (p.1, { p.2 with writer := c }) else p }

/-! ### Free values (log 4) -/

/-- A value that nothing constrains. -/
def State.freeValue (s : State) : Word × State := (Config.freeWord s.free, { s with free := s.free + 1 })

end Sys2Proof.Machine
end

