-- ==== Sys2Proof/Machine/Translate.lean ====
section
/-! DEFINITION. Address translation (20): the page-table walk, the checks of its entries, and cached translations. -/

namespace Sys2Proof.Machine

/-- What an access does, for the checks at a leaf (R313). -/
inductive Access where
  | read | write | fetch
  deriving DecidableEq, Repr

/-- A translation that failed: the reason of R313, the level of the walk and the virtual address. -/
structure XFault where
  reason : Nat
  level : Nat
  va : DWord
  deriving DecidableEq, Repr

/-- The cause of a translation fault (R313). -/
def XFault.cause (f : XFault) : Nat := if f.reason ≤ 3 then 0x24 else 0x25

/-- A translation: a model address, or a fault. -/
inductive Xlat where
  | ok (a : Nat)
  | bad (f : XFault)
  deriving DecidableEq, Repr

/-- Whether a far address is canonical: bits 63:57 all equal bit 56 (R88). -/
def canonical (va : DWord) : Bool :=
  va.extractLsb' 56 8 == 0 || va.extractLsb' 56 8 == 0xFF

/-- The bits below the page of a leaf at a level (R311). -/
def pageBits (level : Nat) : Nat :=
  match level with
  | 1 => 30
  | 2 => 21
  | _ => 16

/-- The index of an address at a level (R311). -/
def walkIndex (level : Nat) (va : DWord) : Nat :=
  match level with
  | 0 => (va.extractLsb' 39 18).toNat
  | 1 => (va.extractLsb' 30 9).toNat
  | 2 => (va.extractLsb' 21 9).toNat
  | _ => (va.extractLsb' 16 5).toNat

/-- The alignment of the table below a level (R311). -/
def tableAlign (level : Nat) : Nat :=
  match level with
  | 0 | 1 => 4096
  | _ => 256

/-- The frame or next table that an entry names: its bits 47:8 (R312). -/
def pteAddr (e : DWord) : Nat := 256 * (e.extractLsb' 8 40).toNat

/-- The tier of a leaf (R312). -/
def pteTier (e : DWord) : Nat := (e.extractLsb' 58 2).toNat

/-- Whether an entry is malformed at a level (R312, R313). -/
def pteMalformed (level : Nat) (e : DWord) : Bool :=
  let leaf := e.getLsbD 57
  let a := pteAddr e
  if e.extractLsb' 48 2 != 0 then true
  else if !leaf then
    decide (level = 3) || e.extractLsb' 58 5 != 0 || e.extractLsb' 50 7 != 0
      || decide (a % tableAlign level ≠ 0) || !physOk a
  else if level = 0 then true
  else
    let p := pageBits level
    match pteTier e with
    | 0 => decide (a % 2 ^ p ≠ 0) || !decide (a + 2 ^ p ≤ sramEnd)
    | 1 => decide (a % 2 ^ p ≠ 0) || (stackOf a).isNone || !physRangeOk a (2 ^ p)
    | 2 => e.getLsbD 56 || decide ((a / 65536 * 65536) % 2 ^ p ≠ 0)
    | _ => true

/-- The physical address of a peer-table entry (R331). -/
def State.peerEntry (s : State) (part idx : Nat) : Nat := (s.part part).peer + 32 * idx

/-- Whether a peer-table entry is valid (R331). -/
def State.peerValid (s : State) (part idx : Nat) : Bool :=
  let e := s.homeNat (s.peerEntry part idx) 32
  decide (e / 2 ^ 8 % 2 = 1) && decide (e / 2 ^ 9 % 2 ^ 55 = 0) && decide (e / 2 ^ 67 % 2 ^ 5 = 0)

/-- Whether a group holds its core's resources: it is neither saved nor ended. -/
def Group.onCore (g : Group) : Bool := g.stat != .saved && g.stat != .ended

/-- The groups on a core. -/
def State.residents (s : State) (core : Nat) : List Group := s.groups.filter fun g => g.core == core && g.onCore

/-- The bytes of a core's slice that its groups hold as scratch. -/
def State.scratchHeld (s : State) (core : Nat) : Nat := ((s.residents core).map fun g => g.sBytes + g.nBytes).sum

/-- Whether a physical address lies in a 64 KiB frame that scratch has withdrawn from translation: the scratch of a core
stands at the top of its slice (R81, log 75). -/
def State.withdrawn (s : State) (a : Nat) : Bool :=
  decide (a < sramEnd) && decide (sliceSize < a % sliceSize / 65536 * 65536 + 65536 + s.scratchHeld (a / sliceSize))

/-- The checks at a leaf, in order, for an access of a partition's context (R81, R291, R313). -/
def State.leafFault (s : State) (part : Nat) (acc : Access) (e : DWord) (bits : Nat) (va : DWord) : Option Nat :=
  let slot := smGet KSlot.free (s.die (homeDie (pteAddr e))).kslots (e.extractLsb' 50 6).toNat
  if pteTier e = 0 && s.withdrawn (pteAddr e + va.toNat % 2 ^ bits) then some 2
  else if e.getLsbD 60 then some 1
  else if e.getLsbD 56 && !(slot.loaded && slot.part == part) then some 6
  else if acc == .write && !e.getLsbD 62 then some 4
  else if acc == .fetch && !e.getLsbD 61 then some 5
  else if pteTier e = 2 && !s.peerValid part (e.extractLsb' 8 8).toNat then some 3
  else none

/-- The address that a leaf gives (R312, R331). -/
def leafAddr (part : Nat) (bits : Nat) (e : DWord) (va : DWord) : Nat :=
  let off := va.toNat % 2 ^ bits
  if pteTier e = 2 then peerAddr part (e.extractLsb' 8 8).toNat (pteAddr e / 65536 * 65536 + off)
  else if e.getLsbD 56 then keyAddr (e.extractLsb' 50 6).toNat (pteAddr e + off)
  else pteAddr e + off

/-- The leaf that a walk finds, with its level; or the reason and level of the fault (R313). -/
def State.walk (s : State) (va : DWord) : Nat → Nat → Nat → Except (Nat × Nat) (DWord × Nat)
  | 0, _, level => .error (2, level)
  | fuel + 1, table, level =>
    let e := BitVec.ofNat 64 (s.homeNat (table + 8 * walkIndex level va) 8)
    if !e.getLsbD 63 then .error (0, level)
    else if pteMalformed level e then .error (2, level)
    else if e.getLsbD 57 then .ok (e, level)
    else s.walk va fuel (pteAddr e) (level + 1)

/-- A cached entry that covers an address (R315). -/
def tlbFind (t : List TlbEntry) (asid : Nat) (va : DWord) : Option TlbEntry :=
  findBy (fun e => e.asid == asid && decide (e.vbase ≤ va.toNat) && decide (va.toNat < e.vbase + e.size)) t

/-- Translates an access of a context on a core: the core's TLB, the die's TLB, then a walk. A cached page keeps the
fields with which it was cached; its key slot is checked anew (R291, R313, R315). An address that is not canonical is a
PROTECTION fault, reason 0xF (R88). -/
def State.translate (s : State) (core asid : Nat) (acc : Access) (va : DWord) : Xlat :=
  let part := (s.context asid).part
  let hit :=
    match tlbFind (s.core core).tlb asid va with
    | some e => some e
    | none => tlbFind (s.die (core / 128)).tlb asid va
  if !canonical va then .bad ⟨15, 0, va⟩ else
  match hit with
  | some e =>
    match s.leafFault part acc e.pte (Nat.log2 e.size) va with
    | some r => .bad ⟨r, if e.size = 2 ^ 30 then 1 else if e.size = 2 ^ 21 then 2 else 3, va⟩
    | none => .ok (leafAddr part (Nat.log2 e.size) e.pte va)
  | none =>
    match s.walk va 4 (s.context asid).root.toNat 0 with
    | .error (r, l) => .bad ⟨r, l, va⟩
    | .ok (e, l) =>
      match s.leafFault part acc e (pageBits l) va with
      | some r => .bad ⟨r, l, va⟩
      | none => .ok (leafAddr part (pageBits l) e va)

/-- The page through which an address of a context is translated on a core: its base and its size (R312, R315). -/
def State.pageOf (s : State) (core asid : Nat) (va : DWord) : Nat × Nat :=
  let hit :=
    match tlbFind (s.core core).tlb asid va with
    | some e => some e
    | none => tlbFind (s.die (core / 128)).tlb asid va
  match hit with
  | some e => (e.vbase, e.size)
  | none =>
    let n := match s.walk va 4 (s.context asid).root.toNat 0 with
      | .ok (_, l) => 2 ^ pageBits l
      | .error _ => 65536
    (va.toNat / n * n, n)

/-- Translates every address of a list, in order: the model addresses, or the first fault. -/
def State.translateAll (s : State) (core asid : Nat) (acc : Access) : List DWord → Except XFault (List Nat)
  | [] => .ok []
  | va :: r =>
    match s.translate core asid acc va with
    | .bad f => .error f
    | .ok a =>
      match s.translateAll core asid acc r with
      | .error f => .error f
      | .ok as => .ok (a :: as)

end Sys2Proof.Machine
end

