-- ==== Sys2Proof/Machine/FeedState.lean ====
section
/-! DEFINITION. Feeds as data (R239 to R242, R308, R309): sequence numbers, the descriptor, which record a pop takes,
and retirement. -/

namespace Sys2Proof.Machine

/-- A sequence number of a feed (R239). -/
def seqAdd (a b : Nat) : Nat := (a + b) % 2 ^ 24

/-- The distance from one sequence number to another. -/
def seqSub (a b : Nat) : Nat := (a + 2 ^ 24 - b) % 2 ^ 24

/-- The words of a record: the feed sets the sequence number, and bits 38:32 read 0 (R239). -/
def recordWords (ws : List Word) (seq : Nat) : List Word :=
  let w1 := ws.getD 1 0
  (List.range 16).map fun i =>
    if i = 1 then BitVec.ofNat 32 (256 * seq) ||| (w1 &&& 0x80) else ws.getD i 0

/-- Whether the words of a record carry BAR = 1 (R239). -/
def recordBar (ws : List Word) : Bool := (ws.getD 1 0).getLsbD 7

/-- Whether a feed holds as many records as its ring (R299). -/
def Feed.full (f : Feed) : Bool := decide (2 ^ f.cap ≤ seqSub f.tail f.retlow)

/-- Whether every record before one with a sequence number has been retired (R242). -/
def Feed.clearBefore (f : Feed) (seq : Nat) : Bool :=
  f.recs.all fun r => r.retired || decide (seqSub seq f.retlow ≤ seqSub r.seq f.retlow)

/-- Whether a record may be popped: its release has landed and it is not held (R240, R242). -/
def Feed.ready (f : Feed) (r : FeedRec) : Bool := r.landed && (!r.bar || f.clearBefore r.seq)

/-- The record that the next pop takes: one that a cancelled pop returned, else the record at HEAD (R241, R309). -/
def Feed.nextRec (f : Feed) : Option FeedRec :=
  match f.back with
  | q :: _ => findBy (fun r => r.seq == q) f.recs
  | [] =>
    if f.head = f.tail ∨ 256 ≤ seqSub f.head f.retlow then none
    else
      match findBy (fun r => r.seq == f.head) f.recs with
      | none => none
      | some r => if f.ready r then some r else none

/-- Starts a record for a pop. -/
def Feed.start (f : Feed) (r : FeedRec) : Feed :=
  { f with
    recs := updateBy (fun x => x.seq == r.seq) (fun x => { x with started := true }) f.recs
    back := f.back.filter fun q => q != r.seq
    head := if f.back.contains r.seq then f.head else seqAdd f.head 1 }

/-- Places a record at TAIL (R240). -/
def Feed.append (f : Feed) (ws : List Word) (landed : Bool) (payer : Option Nat := none) : Feed :=
  { f with
    recs := f.recs ++ [⟨f.tail, recordWords ws f.tail, recordBar ws, landed, false, false, false, payer⟩]
    tail := seqAdd f.tail 1 }

/-- RETLOW passes every consecutive retired record (R309). -/
def Feed.passRetired (f : Feed) : Nat → Feed
  | 0 => f
  | n + 1 =>
    match findBy (fun r => r.seq == f.retlow) f.recs with
    | none => f
    | some r =>
      if r.retired then
        ({ f with recs := f.recs.filter (fun x => x.seq != r.seq), retlow := seqAdd f.retlow 1 }).passRetired n
      else f

/-- A record is retired. -/
def Feed.retire (f : Feed) (seq : Nat) : Feed :=
  let f := { f with recs := updateBy (fun x => x.seq == seq) (fun x => { x with retired := true }) f.recs }
  f.passRetired f.recs.length

/-- A record's release has landed. -/
def Feed.land (f : Feed) (seq : Nat) : Feed :=
  { f with recs := updateBy (fun x => x.seq == seq) (fun x => { x with landed := true }) f.recs }

/-- A pop that is cancelled before its record has landed gives the record back (R241). -/
def Feed.giveBack (f : Feed) (flys : List Nat) : Feed :=
  let seqs := (f.bound.filter fun p => flys.contains p.1).map fun p => p.2
  { f with
    bound := f.bound.filter fun p => !flys.contains p.1
    recs := updateBy (fun x => seqs.contains x.seq) (fun x => { x with started := false }) f.recs
    back := seqs.foldl (fun b q => insertBy (fun x => seqSub x f.retlow) q b) f.back }

/-- A feed of the state. -/
def State.feed? (s : State) (num : Nat) : Option Feed := findBy (fun f => f.num == num) s.feeds

/-- Changes a feed. -/
def State.setFeed (s : State) (f : Feed) : State := { s with feeds := replaceBy (fun x => x.num == f.num) f s.feeds }

/-! ### The descriptor in memory (R308) -/

/-- The retired bits from RETLOW on. -/
def Feed.retmap (f : Feed) : Nat :=
  ((f.recs.filter fun r => r.retired && decide (seqSub r.seq f.retlow < 256)).map fun r => 2 ^ seqSub r.seq f.retlow).sum

/-- The descriptor of a feed. -/
def Feed.descriptor (f : Feed) : Nat :=
  2 ^ 529 * f.wakep.toNat + 2 ^ 530 * f.mapped.isSome.toNat + 2 ^ 531 * f.cap + 2 ^ 536 * f.part
    + 2 ^ 544 * (match f.mapped with | some m => m.2 | none => 0) + 2 ^ 552 * f.regFirst + 2 ^ 560 * f.pops.length
    + 2 ^ 568 * f.tail + 2 ^ 592 * f.head + 2 ^ 616 * f.retlow + 2 ^ 640 * f.ringBase.toNat + 2 ^ 704 * f.regBase.toNat
    + 2 ^ 768 * f.retmap

/-- The virtual address of the ring slot of a record. -/
def Feed.slotAt (f : Feed) (seq : Nat) : DWord := f.ringBase + BitVec.ofNat 64 (64 * (seq % 2 ^ f.cap))

/-- The words of a ring slot in memory; zeros where it does not translate. -/
def State.ringWords (s : State) (core : Nat) (asid : Nat) (va : DWord) : List Word :=
  match s.translate core asid .read va with
  | .ok a => (List.range 16).map fun i => BitVec.ofNat 32 (s.homeNat (a + 4 * i) 4)
  | .bad _ => List.replicate 16 0

/-- The registered-pop entries of a feed in memory, the oldest first (R308). -/
def State.ringPops (s : State) (core asid : Nat) (base : DWord) (first n : Nat) : List Nat :=
  (List.range n).map fun i =>
    match s.translate core asid .read (base + BitVec.ofNat 64 (8 * ((first + i) % 64))) with
    | .ok a => s.homeNat a 8 % 2 ^ 48
    | .bad _ => 0

/-- The registered pops that memory names: each is a known pop of its warp, the oldest first, or one that no value in flight
awaits. -/
def matchPops (known : List RegPop) : List Nat → List RegPop
  | [] => []
  | o :: r =>
    match findBy (fun p => p.owner == o) known with
    | some p => p :: matchPops (known.filter fun q => q.fly != p.fly) r
    | none => ⟨0, 0, 0, o⟩ :: matchPops known r

/-- A feed as its descriptor, its ring and its registered-pop entries in memory say (R308). Of a feed that is known the
model keeps what memory does not hold: which releases have still to land, and which records are bound to pops or given
back by them. -/
def State.parseFeed (s : State) (core num : Nat) (desc : DWord) (asid a : Nat) (known : Option Feed) : Feed :=
  let d := s.homeNat a 128
  let cap := d / 2 ^ 531 % 32
  let retlow := d / 2 ^ 616 % 2 ^ 24
  let head := d / 2 ^ 592 % 2 ^ 24
  let tail := d / 2 ^ 568 % 2 ^ 24
  let ring := BitVec.ofNat 64 (d / 2 ^ 640 % 2 ^ 64)
  let regs := BitVec.ofNat 64 (d / 2 ^ 704 % 2 ^ 64)
  let first := d / 2 ^ 552 % 256
  let map := d / 2 ^ 768
  let back := match known with | some f => f.back | none => []
  let old := fun (q : Nat) => known.bind fun f => findBy (fun r => r.seq == q) f.recs
  let recs := (List.range (seqSub tail retlow % (2 ^ cap + 1))).map fun i =>
    let q := seqAdd retlow i
    let ws := s.ringWords core asid (ring + BitVec.ofNat 64 (64 * (q % 2 ^ cap)))
    let r : FeedRec :=
      { seq := q, words := ws, bar := recordBar ws, landed := match old q with | some x => x.landed | none => true
        started := decide (i < seqSub head retlow) && !back.contains q
        retiring := match old q with | some x => x.retiring | none => false
        retired := decide (i < 256) && decide (map / 2 ^ i % 2 = 1), payer := none }
    r
  let pops := match known with | some f => f.pops | none => []
  { num := num, desc := desc, asid := asid, part := d / 2 ^ 536 % 256, cap := cap, ringBase := ring, regBase := regs, head := head
    tail := tail, retlow := retlow, recs := recs, back := back.filter fun q => recs.any fun r => r.seq == q
    pops := matchPops pops (s.ringPops core asid regs first (min 64 (d / 2 ^ 560 % 256)))
    regFirst := first, bound := match known with | some f => f.bound | none => []
    mapped := none, wakep := decide (d / 2 ^ 529 % 2 = 1) }

/-- The address space number under which the model keeps the service feeds (R327). -/
def serviceAsid : Nat := 2 ^ 16

/-- The feed of a descriptor: the slot's, while it is mapped; else what memory says (R308). A feed is known by the place of
its descriptor in memory. -/
def State.openFeed (s : State) (core asid : Nat) (desc : DWord) : Except XFault (Nat × State) :=
  match s.translate core asid .read desc with
  | .bad x => .error x
  | .ok a =>
    let here := fun (f : Feed) => f.asid != serviceAsid && (match s.translate core f.asid .read f.desc with
      | .ok b => b == a
      | .bad _ => false)
    match findBy here s.feeds with
    | some f => .ok (f.num, if f.mapped.isSome then s else s.setFeed (s.parseFeed core f.num desc asid a (some f)))
    | none => .ok (s.uid, { s with feeds := s.feeds ++ [s.parseFeed core s.uid desc asid a none], uid := s.uid + 1 })

/-- A feed as it stands now: an unmapped one as memory says (R308). -/
def State.syncFeed (s : State) (core num : Nat) : State :=
  match s.feed? num with
  | none => s
  | some f =>
    if f.mapped.isSome || f.asid == serviceAsid then s
    else
      match s.openFeed core f.asid f.desc with
      | .ok q => q.2
      | .error _ => s

/-- The service feed of a die, if anything has reached it. -/
def State.service? (s : State) (die : Nat) : Option Feed :=
  findBy (fun f => f.asid == serviceAsid && f.part == die) s.feeds

/-- The service feed of a die: mapped to a slot of core 0, slot 0 (log 72), with 4,096 records (R327). -/
def State.service (s : State) (die : Nat) : Nat × State :=
  match s.service? die with
  | some f => (f.num, s)
  | none =>
    let f : Feed := ⟨s.uid, 0, serviceAsid, die, 12, 0, 0, 0, 0, 0, [], [], [], 0, [], some (die, 0), false⟩
    let d := s.die die
    (s.uid, { s with feeds := s.feeds ++ [f], uid := s.uid + 1 }.setDie die { d with slots := (0, s.uid) :: d.slots })

end Sys2Proof.Machine
end

