-- ==== Sys2Proof/Machine/Ops.lean ====
section
/-! DEFINITION. Shared operations: reconvergence (R10 to R13), closures and landings (R40 to R48), taking an
exception and returning from one (R175, R178, R273 to R276), the fault queue (R318 to R321), and completing an
instruction. -/

namespace Sys2Proof.Machine

/-! ### Splits (R10 to R13) -/

/-- Inserts a split, in the order of numbers. -/
def Warp.addSplit (w : Warp) (sp : Split) : Warp := { w with splits := insertBy (fun x => x.num) sp w.splits }

/-- Removes a split. -/
def Warp.dropSplit (w : Warp) (n : Nat) : Warp := { w with splits := w.splits.filter fun x => x.num != n }

/-- The deepest stack of a warp that has an entry, ties going to the lower number; `own` is the stack that the freed
number n leaves. -/
def Warp.deepest (w : Warp) (n : Nat) (own : List Frame) : Option (Nat × List Frame) :=
  ((n, own) :: w.splits.map fun x => (x.num, x.stack)).foldl
    (fun r p =>
      if p.2.isEmpty then r
      else
        match r with
        | none => some p
        | some q => if q.2.length < p.2.length ∨ (q.2.length = p.2.length ∧ p.1 < q.1) then some p else r)
    none

/-- Refills a freed number from the deepest stack (R13); entries that the ended split leaves stay with the number. -/
def Warp.refill (w : Warp) (n : Nat) (own : List Frame) : Warp :=
  match w.deepest n own with
  | none => w
  | some (k, st) =>
    match st with
    | [] => w
    | f :: r =>
      if k = n then w.addSplit ⟨n, f.pc, f.mask, r, [], none⟩
      else (w.updSplit k fun x => { x with stack := r }).addSplit ⟨n, f.pc, f.mask, own, [], none⟩

/-- Gives a trap save that names one split another. -/
def TrapSave.rename (t : Option TrapSave) (a b : Nat) : Option TrapSave :=
  t.map fun x => if x.split = a then { x with split := b } else x

/-- Merges split n with every split at its PC while the stacks fit (R12, R34): the warp, the number of the merged
split, and the numbers freed. -/
def Warp.mergeAt (w : Warp) (n : Nat) : Nat → Warp × Nat × List Nat
  | 0 => (w, n, [])
  | fuel + 1 =>
    match w.split? n with
    | none => (w, n, [])
    | some sp =>
      match findBy (fun o => o.num != n && o.pc == sp.pc && decide (o.stack.length + sp.stack.length ≤ 8)) w.splits with
      | none => (w, n, [])
      | some o =>
        let lo := if sp.num < o.num then sp else o
        let hi := if sp.num < o.num then o else sp
        let w := (w.dropSplit hi.num).updSplit lo.num fun x =>
          { x with mask := lo.mask ||| hi.mask, stack := hi.stack ++ lo.stack, bypass := [] }
        let w := { w with inh := TrapSave.rename w.inh hi.num lo.num, inu := TrapSave.rename w.inu hi.num lo.num }
        let r := w.mergeAt lo.num fuel
        (r.1, r.2.1, hi.num :: r.2.2)

/-- A split pops the entries of its own stack that stand at its PC (R12). -/
def Split.popOwn (sp : Split) : List Frame → Split
  | [] => { sp with stack := [] }
  | f :: r => if f.pc = sp.pc then Split.popOwn { sp with mask := sp.mask ||| f.mask } r else { sp with stack := f :: r }

/-- What follows when split n reaches a branch target or stands at a JOIN (R12, R13). -/
def Warp.settle (w : Warp) (n : Nat) : Warp :=
  let r := w.mergeAt n 4
  let w := r.1.updSplit r.2.1 fun x => x.popOwn x.stack
  r.2.2.foldl (fun w k => w.refill k []) w

/-- Removes lanes from a split; an empty split frees its number (R13, R174). -/
def Warp.exitLanes (w : Warp) (n : Nat) (lanes : Word) : Warp :=
  match w.split? n with
  | none => w
  | some sp =>
    if sp.mask &&& ~~~lanes = 0 then (w.dropSplit n).refill n sp.stack
    else w.updSplit n fun x => { x with mask := x.mask &&& ~~~lanes }

/-- The lowest free split number. -/
def Warp.freeSplit (w : Warp) : Option Nat := findBy (fun n => (w.split? n).isNone) [0, 1, 2, 3]

/-- Divides split n among targets, in ascending order: the lowest keeps the number; each other takes the lowest free
number or is pushed (R10). The bypass is copied (R34). Where fewer numbers are free than targets remain, R10 does not say whose
stack takes those that are pushed: here it is that of the issuing split, in ascending order (DESIGN CHOICE, log 80). -/
def Warp.divide (w : Warp) (n : Nat) : List (DWord × Word) → Warp
  | [] => w
  | (pc, m) :: rest =>
    let w := w.updSplit n fun x => { x with pc := pc, mask := m }
    rest.foldl (fun w p =>
      match w.split? n with
      | none => w
      | some sp =>
        match w.freeSplit with
        | some k => w.addSplit ⟨k, p.1, p.2, [], sp.bypass, none⟩
        | none => w.updSplit n fun x => { x with stack := ⟨p.1, p.2⟩ :: x.stack }) w

/-- Whether a division among k targets would push onto a full stack (R11). -/
def Warp.overflows (w : Warp) (n k : Nat) : Bool :=
  match w.split? n with
  | none => false
  | some sp =>
    let free := ([0, 1, 2, 3].filter fun x => (w.split? x).isNone).length
    decide (free + 1 < k) && decide (8 < sp.stack.length + (k - 1 - free))

/-- One more instruction of the split has issued (R33). -/
def Split.tick (sp : Split) : Split :=
  { sp with bypass := (sp.bypass.filter fun b => decide (1 < b.count)).map fun b => { b with count := b.count - 1 } }

/-! ### Closures and landings -/

/-- What a closure that has become runnable receives: the next landing sequence number (R44, R48). -/
def Warp.makeRunnable (w : Warp) (k : Nat) : Warp :=
  { w with
    closures := updateBy (fun c => c.idx == k) (fun c => { c with run := some w.nextLs }) w.closures
    nextLs := w.nextLs + 1 }

/-- Things that closures await have happened in one clock: those that await nothing more become runnable, in capture order
(R44). Closures are listed in capture order. -/
def Warp.wakes (w : Warp) (keys : List Nat) : Warp :=
  let left := fun (c : Closure) => c.waits.filter fun x => !keys.contains x
  let ready := w.closures.filter fun c => c.run.isNone && (c.waits.any fun x => keys.contains x) && (left c).isEmpty
  let w := { w with closures := w.closures.map fun c => { c with waits := left c } }
  ready.foldl (fun w c => w.makeRunnable c.idx) w

/-- One thing that closures await has happened (R44). -/
def Warp.wake (w : Warp) (key : Nat) : Warp := w.wakes [key]

/-- Pending values are here: their bits clear, and a yield ends (R50). -/
def Warp.unpend (w : Warp) (keys : List Nat) : Warp :=
  { w with
    pend := w.pend.filter fun p => !keys.contains p.id
    yld := if w.pend.any fun p => keys.contains p.id then none else w.yld }

/-- A pending value has landed, and closures wake. -/
def Warp.landed (w : Warp) (key : Nat) : Warp := (w.unpend [key]).wake key

/-- Whether a register is pending. -/
def Warp.pending (w : Warp) (r : Nat) : Bool := w.pend.any fun p => p.reg == r

/-- Whether a register is event-pending (R40). -/
def Warp.eventPending (w : Warp) (r : Nat) : Bool := w.pend.any fun p => p.reg == r && p.event

/-- Whether a live closure holds a register as an operand, uncopied or still to land (R280). -/
def Warp.held (w : Warp) (r : Nat) : Bool := w.closures.any fun c => c.holds.contains r

/-- A closure has run: it is free again, and what awaits its run wakes; its destination lands with it unless a value
is still in flight to it (R43, R44). -/
def Warp.endClosure (w : Warp) (k : Nat) (inFlight : Bool) : Warp :=
  match w.closure? k with
  | none => w
  | some c =>
    let w := { w with closures := w.closures.filter fun x => x.idx != k }
    if inFlight then w.wake c.id else (w.unpend [c.did]).wakes [c.id, c.did]

/-- The number of what an instruction's destination awaits: a closure's own, or the next unique number. -/
def Ctx.key (s : State) (c : Ctx) : Nat :=
  match c.cur.clo.bind c.warp.closure? with
  | some k => k.did
  | none => s.uid

/-- Marks destinations pending (R35, R40). -/
def Warp.markPending (w : Warp) (key : Nat) (event : Bool) (mask : Word) (rs : List Nat) : Warp :=
  { w with pend := w.pend ++ rs.map fun r => ⟨key, r, event, mask⟩ }

/-- The lanes of a warp that have not exited. -/
def Warp.alive (w : Warp) : Word :=
  w.splits.foldl (fun m x => x.stack.foldl (fun m f => m ||| f.mask) (m ||| x.mask)) 0

/-- The lanes in which a landing is written: those that have not exited, and those of live closures that await it
(R45, R174). -/
def Warp.landLanes (w : Warp) (key : Nat) : Word :=
  w.closures.foldl (fun m k => if k.waits.contains key then m ||| k.mask else m) w.alive

/-- The value of a pending register is here: it is written for its lanes (R40). -/
def Warp.deliver (w : Warp) (mask : Word) (vals : List (Nat × List Word)) : Warp :=
  vals.foldl (fun w p => w.setLanes p.1 (lanesOf mask) fun l => p.2.getD l 0) w

/-- Marks register lanes as poisoned (R348). -/
def Warp.addPoison (w : Warp) (ks : List Nat) : Warp := { w with poison := w.poison ++ ks.filter fun k => !w.poison.contains k }

/-- The value in flight with a number. -/
def State.fly? (s : State) (id : Nat) : Option Fly := findBy (fun f => f.id == id) s.flys

/-- Changes a value in flight. -/
def State.updFly (s : State) (id : Nat) (f : Fly → Fly) : State := { s with flys := updateBy (fun x => x.id == id) f s.flys }

/-! ### Owner words, records and logs -/

/-- The owner word of a lane (R96). -/
def ownerWord (core slot lane : Nat) : Word :=
  BitVec.ofNat 32 (core / 128 * 2 ^ 18 + core % 128 * 2 ^ 11 + slot * 2 ^ 5 + lane)

/-- The physical address of a warp's trap slot (R273). -/
def State.trapSlot (s : State) (core slot : Nat) : Nat := (s.die (core / 128)).ktrb.toNat + (core % 128 * 64 + slot) * 64

/-- Tells the firmware core through its mailbox (R276, R309). -/
def State.notify (s : State) (die : Nat) (v : DWord) : State :=
  let d := s.die die
  s.setDie die { d with fwmbx := v, notices := d.notices ++ [v] }

/-- Writes the state of an unmapped feed back to its descriptor and its registered-pop entries (R308). -/
def State.saveFeed (s : State) (core num : Nat) : State :=
  match s.feed? num with
  | none => s
  | some f =>
    if f.asid = serviceAsid then s
    else
      let s :=
        match s.translate core f.asid .write f.desc with
        | .ok a => s.engineWrite core (putAt a (natBytes 128 f.descriptor))
        | .bad _ => s
      f.pops.zipIdx.foldl (fun s p =>
        match s.translate core f.asid .write (f.regBase + BitVec.ofNat 64 (8 * ((f.regFirst + p.2) % 64))) with
        | .ok a => s.engineWrite core (putAt a (natBytes 8 p.1.owner))
        | .bad _ => s) s

/-- Binds records to the registered pops of a mapped feed, in registration order (R241). -/
def State.serveFeed (s : State) (num : Nat) : Nat → State
  | 0 => s
  | fuel + 1 =>
    match s.feed? num with
    | none => s
    | some f =>
      match f.pops, f.nextRec with
      | p :: rest, some r =>
        if f.mapped.isNone then s
        else
          let f' := { f.start r with pops := rest, regFirst := (f.regFirst + 1) % 64, bound := f.bound ++ [(p.fly, r.seq)] }
          let all := fun (x : Fly) =>
            { x with vals := x.vals.zipIdx.map fun q => (q.1.1, List.replicate 32 (r.words.getD q.2 0)), ready := x.mask }
          ((s.setFeed f').updFly p.fly all).serveFeed num fuel
      | _, _ => s

/-- The records of a service feed that satisfy a test and are not yet retired. -/
def State.serviceCount (s : State) (die : Nat) (keep : FeedRec → Bool) : Nat :=
  match s.service? die with
  | none => 0
  | some f => (f.recs.filter fun r => !r.retired && keep r).length

/-- The places of a die's service feed that a partition's share counts: its sheaf notices there, and those of calls that have
issued and still follow earlier writes of their warps (R327, R343). -/
def State.noticePlaces (s : State) (die payer : Nat) : Nat :=
  s.serviceCount die (fun r => r.payer == some payer)
    + (s.queue.filter fun q => match q.act with | .call d p _ _ => d == die && p == payer | _ => false).length

/-- Appends a record to a die's service feed, which serves its pops; a full feed takes none (R327). -/
def State.serviceAppend (s : State) (die : Nat) (payer : Option Nat) (ws : List Word) : State :=
  let q := s.service die
  match q.2.feed? q.1 with
  | none => s
  | some f => if f.full then s else (q.2.setFeed (f.append ws true payer)).serveFeed q.1 64

/-- Appends a fault notice to a die's service feed, while it has fewer than its 256 (R320, R327). -/
def State.faultNotice (s : State) (die idx part : Nat) : State :=
  let tag : Word := 0x80000001
  if s.serviceCount die (fun r => r.words.getD 0 0 == tag) < 256 then
    s.serviceAppend die none [tag, 0, BitVec.ofNat 32 idx, BitVec.ofNat 32 part]
  else s

/-! ### The fault queue (R318 to R320) -/

/-- The capacity of a partition's fault queue. -/
def Part.fqCap (p : Part) : Nat := 2 ^ ((p.fqctl.extractLsb' 0 4).toNat + 4)

/-- The index of the next entry that hardware writes. -/
def Part.fqTail (p : Part) : Nat := (p.fqctl.extractLsb' 16 16).toNat

/-- The physical address of an entry. -/
def Part.fqEntry (p : Part) (i : Nat) : Nat := p.fqbase.toNat + 32 * i

/-- Sets TAIL and OVF. -/
def Part.setFq (p : Part) (tail : Nat) (ovf : Bool) : Part :=
  { p with fqctl := BitVec.ofNat 16 tail ++ 0#3 ++ BitVec.ofBool ovf ++ 0#8 ++ p.fqctl.extractLsb' 0 4 }

/-- Whether an entry is pending, as its STATE in memory says (R319). -/
def State.fqPending (s : State) (p : Part) (i : Nat) : Bool := decide (s.homeNat (p.fqEntry i) 1 % 4 = 1)

/-- The words of an entry (R319). -/
def FaultReq.entry (f : FaultReq) (count state : Nat) : Nat :=
  state + 2 ^ 14 * f.fetch.toNat + 2 ^ 15 * f.wr.toNat + 2 ^ 16 * f.kind + 2 ^ 18 * f.level + 2 ^ 20 * f.reason
    + 2 ^ 24 * f.cause + 2 ^ 32 * f.eaux.toNat + 2 ^ 64 * count + 2 ^ 80 * f.asid + 2 ^ 96 * f.owner.toNat
    + 2 ^ 128 * f.epc.toNat + 2 ^ 192 * f.vaddr.toNat

/-- Whether a fault merges into a pending entry: its ASID, virtual bits 56:16 and reason match, and COUNT has room. -/
def State.fqMatches (s : State) (p : Part) (f : FaultReq) (i : Nat) : Bool :=
  let a := p.fqEntry i
  s.fqPending p i && f.reason != 15
    && decide (s.homeNat (a + 10) 2 = f.asid)
    && decide (s.homeNat a 4 / 2 ^ 20 % 16 = f.reason)
    && decide (s.homeNat (a + 24) 8 / 2 ^ 16 % 2 ^ 41 = f.vaddr.toNat / 2 ^ 16 % 2 ^ 41)
    && decide (s.homeNat (a + 8) 2 < 65535)

/-- Adds a party to the hidden release list of an entry. -/
def addParty (ps : List (Nat × List Party)) (i : Nat) (x : Party) : List (Nat × List Party) :=
  if ps.any fun p => p.1 == i then ps.map fun p => if p.1 == i then (i, p.2 ++ [x]) else p
  else ps ++ [(i, [x])]

/-- Posts or merges a fault (R320): each write of an entry lands as one release of the fault hardware (R358). -/
def State.postFault (s : State) (part : Nat) (f : FaultReq) : State :=
  let p := s.part part
  match findBy (fun i => s.fqMatches p f i) (List.range p.fqCap) with
  | some i =>
    let a := p.fqEntry i
    let s := s.hardLand portCore part (putAt (a + 8) (natBytes 2 (s.homeNat (a + 8) 2 + 1)))
    s.setPart part { p with parties := addParty p.parties i f.party }
  | none =>
    let i := p.fqTail
    if s.fqPending p i then
      s.setPart part { p.setFq i true with waiting := p.waiting ++ [f] }
    else
      let s := s.hardLand portCore part (putAt (p.fqEntry i) (natBytes 32 (f.entry 1 1)))
      let p' := { p.setFq ((i + 1) % p.fqCap) (p.fqctl.getLsbD 12) with
        parties := (p.parties.filter fun q => q.1 != i) ++ [(i, [f.party])] }
      (s.setPart part p').faultNotice f.die i part

/-! ### Taking an exception -/

/-- An exception: its cause (R272) and the words of its record. `xf` tells of a translation fault. -/
structure Trap where
  cause : Nat
  epc : DWord
  eaddr : DWord
  eaux : Word
  estep : Nat := 0
  xf : Option XFault := none
  wr : Bool := false
  fetch : Bool := false
  deriving DecidableEq, Repr

/-- The 64 bytes of a trap record (R273). -/
def trapRecord (s : State) (g : Group) (w : Warp) (t : Trap) (split : Nat) (mask : Word) (clo : Option Nat) (spc : DWord) :
    List Byte :=
  natBytes 64
    (t.epc.toNat + 2 ^ 64 * t.eaddr.toNat + 2 ^ 128 * t.eaux.toNat + 2 ^ 160 * mask.toNat + 2 ^ 192 * t.cause
      + 2 ^ 200 * split + 2 ^ 208 * t.estep
      + (match clo with | some k => 2 ^ 216 * k + 2 ^ 219 | none => 0)
      + 2 ^ 256 * (ownerWord g.core w.slot 0).toNat + 2 ^ 288 * g.asid + 2 ^ 320 * s.ticks.toNat + 2 ^ 384 * spc.toNat)

/-- Stops a group for good (R276). -/
def State.stopGroup (s : State) (g : Group) (w : Warp) : State :=
  (s.updGroup g.gid fun x => { x with stat := .stopped }).notify (g.core / 128) ((ownerWord g.core w.slot 0).setWidth 64)

/-- Writes the record into the warp's trap slot (R273): a release that has landed. -/
def State.writeSlot (s : State) (g : Group) (w : Warp) (bs : List Byte) : State :=
  s.landedWrite g.core g.part (putAt (s.trapSlot g.core w.slot) bs)

/-- The fault entry of a trap of kind 0 (R317, R319). -/
def Trap.request (t : Trap) (g : Group) (w : Warp) : FaultReq where
  vaddr := t.eaddr
  epc := t.epc
  owner := ownerWord g.core w.slot 0
  asid := g.asid
  eaux := t.eaux
  cause := t.cause
  reason := match t.xf with | some x => x.reason | none => 15
  level := match t.xf with | some x => x.level | none => 0
  kind := 0
  wr := t.wr
  fetch := t.fetch
  die := g.core / 128
  party := .warp g.gid w.idx

/-- The lowest-numbered split of a warp. -/
def Warp.lowestSplit (w : Warp) : Option Split := w.splits.head?

/-- Delivery to the kernel (R274, R276): a kernel warp handles the trap itself at KVEC; a user warp is suspended and
one fault entry is posted. -/
def State.toKernel (s : State) (g : Group) (w : Warp) (c : Cur) (t : Trap) : State :=
  let place : Option Split :=
    match c.clo with
    | none => w.split? c.split
    | some _ => w.lowestSplit
  let num := match place with | some x => x.num | none => 0
  let byp := match place with | some x => x.bypass | none => []
  if g.kernel then
    let kvec := (s.die (g.core / 128)).kvec
    if w.inh.isSome || kvec == 0 then s.stopGroup g w
    else
      let spc := match c.clo with
        | none => 0
        | some _ => (w.lowestSplit.map fun x => x.pc).getD 0
      let s := s.writeSlot g w (trapRecord s g w t num c.mask c.clo spc)
      s.updWarp g.gid w.idx fun w =>
        let w := match place with
          | some _ => w
          | none => w.addSplit ⟨0, 0, c.mask, [], [], none⟩
        let m := match place with | some x => x.mask | none => c.mask
        { w.updSplit num fun x => { x with pc := kvec, bypass := [] } with
          inu := none
          inh := some ⟨num, m, byp, c.clo, false⟩ }
  else
    let s := s.writeSlot g w (trapRecord s g w t num c.mask c.clo 0)
    let s := s.updWarp g.gid w.idx fun w =>
      { w with susp := some ⟨num, c.mask, [], c.clo, false⟩ }
    s.postFault g.part (t.request g w)

/-- The far address of the user trap slot (R175). -/
def Warp.userSlot (w : Warp) : DWord := w.annbase + 2048

/-- Delivery to the user handler at %uvec (R175): the record, %ucause, the saved bypass, and the split at %uvec. -/
def State.toUser (s : State) (g : Group) (w : Warp) (c : Cur) (t : Trap) (slot : Nat) : State :=
  let byp := ((w.split? c.split).map fun x => x.bypass).getD []
  let s := s.landedWrite g.core g.part (putAt slot (trapRecord s g w t c.split c.mask none 0))
  s.updWarp g.gid w.idx fun w =>
    { w.updSplit c.split fun x => { x with pc := w.uvec, bypass := [] } with
      ucause := BitVec.ofNat 32 (t.cause % 256)
      inu := some ⟨c.split, c.mask, byp, none, false⟩ }

/-- The user slot's address, when a user trap goes to the user handler (R32, R175). The spec does not say whether a record is
written into a peer window: here such a slot counts as faulting, and the trap goes to the kernel (DESIGN CHOICE, log 81). -/
def State.userSlotOk (s : State) (g : Group) (w : Warp) : Option Nat :=
  if w.uvec == 0 || w.annbase == 0 || w.inu.isSome || !canonical w.userSlot then none
  else
    match s.translate g.core g.asid .write w.userSlot with
    | .ok a => if isPeer a then none else some a
    | .bad _ => none

/-- The causes whose EADDR is the raising instruction (R273): PENDING_BRANCH, RESIDUAL_FULL, SHAPE, ILLEGAL, PRIVILEGE,
POISON and MACHINE_CHECK; for every other a rule names another address. -/
def eaddrRaising (cause : Nat) : Bool := [2, 5, 8, 0x20, 0x23, 0x27, 0x28].contains cause

/-- The causes whose EAUX no rule gives: RANGE_LOCK, SHAPE, MISALIGNED_TARGET, ORPHAN_MODIFIER, PAGE_FAULT, PROTECTION
and MISALIGNED_ACCESS (log 29). -/
def eauxOpen (cause : Nat) : Bool := [3, 8, 0x21, 0x22, 0x24, 0x25, 0x26].contains cause

/-- An exception as it is recorded: EADDR the raising instruction where no rule names another address, and a free value
in the EAUX that no rule gives; of RESIDUAL_FULL's a rule gives bit 8 (R236, R273, log 29). -/
def State.openTrap (s : State) (t : Trap) : State × Trap :=
  let aux := if eauxOpen t.cause then Config.freeWord s.free
    else if t.cause = 5 then t.eaux ||| (Config.freeWord s.free &&& ~~~0x100#32) else t.eaux
  ({ s with free := s.free + 1 }, { t with eaux := aux, eaddr := if eaddrRaising t.cause then t.epc else t.eaddr })

/-- Takes away drives, and their requests that no engine has served. -/
def State.dropDrives (s : State) (f : Drive → Bool) : State :=
  let ids := (s.drives.filter f).map fun d => d.id
  let keep := fun (b : Batch) =>
    match b.kind with
    | .ann _ => { b with txs := b.txs.filter fun t => !ids.contains t.y.toNat }
    | _ => b
  { s with
    drives := s.drives.filter fun d => !f d
    batches := (s.batches.map keep).filter fun b => !b.txs.isEmpty }

/-- TAKING AN EXCEPTION (R47, R175, R272 to R276), by the warp and split or closure of `c`. An exception of a closure
is a CLOSURE_FAULT whose EAUX holds the cause; a cause of 0x01 to 0x08 is a user trap. An ANN.HLP of the warp keeps no state
across it (R268). -/
def takeTrap (s : State) (c : Cur) (t : Trap) : State :=
  let (s, t) := ({ s with cur := none }.dropDrives fun d => d.gid == c.gid && d.widx == c.widx && d.help).openTrap t
  match s.group? c.gid with
  | none => s
  | some g =>
    match g.warp? c.widx with
    | none => s
    | some w =>
      match c.clo with
      | some _ => s.toKernel g w c { t with cause := 0x2A, epc := c.pc, eaux := BitVec.ofNat 32 t.cause }
      | none =>
        if t.cause ≤ 8 then
          match s.userSlotOk g w with
          | some a => s.toUser g w c t a
          | none => s.toKernel g w c t
        else s.toKernel g w c t

/-- A precise exception at the issuing instruction, with EPC its address (R272). -/
def raise (s : State) (c : Ctx) (cause : Nat) (eaux : Word) (eaddr : DWord) : State :=
  takeTrap s c.cur ⟨cause, c.cur.pc, eaddr, eaux, 0, none, false, false⟩

/-- ILLEGAL with EAUX the first word of the instruction (R159). -/
def illegal (s : State) (c : Ctx) : State := raise s c 0x20 c.cur.iword 0

/-- A translation fault of kind 0, with EADDR the address (R317). -/
def xlatTrap (s : State) (c : Ctx) (wr : Bool) (f : XFault) : State :=
  takeTrap s c.cur ⟨f.cause, c.cur.pc, f.va, 0, 0, some f, wr, false⟩

/-! ### Fetching and branch targets (R152, R156) -/

/-- The halfword at a virtual address as a fetch of a group reads it, or the exception of the fetch, whose EADDR is
the address (R157, R313). -/
def State.fetchHalf (s : State) (g : Group) (va : DWord) : Except (Nat × Option XFault) (BitVec 16) :=
  if !canonical va then .error (0x25, none)
  else
    match s.translate g.core g.asid .fetch va with
    | .bad f => .error (f.cause, some f)
    | .ok a => .ok (BitVec.ofNat 16 (s.homeNat a 2))

/-- What a bad branch target raises, with EADDR the target (R156); none for a good one. R156 does not speak of a target, or of the
halfword below it, that is not canonical or does not translate: here the branch takes that fetch's own fault, before any split
moves, with EADDR the address that was to be fetched (DESIGN CHOICE, log 82). -/
def State.badTarget (s : State) (g : Group) (target : DWord) : Option (Nat × DWord × Option XFault) :=
  if target.getLsbD 0 then some (0x21, target, none)
  else
    let inside : Option (Nat × DWord × Option XFault) :=
      if target.extractLsb' 0 2 == 2 then
        match s.fetchHalf g (target - 2) with
        | .error (c, f) => some (c, target - 2, f)
        | .ok h => if h.getLsbD 0 then some (0x21, target, none) else none
      else none
    match inside with
    | some x => some x
    | none =>
      match s.fetchHalf g target with
      | .error (c, f) => some (c, target, f)
      | .ok h => if h.extractLsb' 0 7 == 0x7F then some (0x22, target, none) else none

/-- The exception of a bad branch target: EPC the branch, EADDR the target (R156). -/
def targetTrap (s : State) (c : Cur) (x : Nat × DWord × Option XFault) : State :=
  takeTrap s c ⟨x.1, c.pc, x.2.1, 0, 0, x.2.2, false, x.2.2.isSome⟩

/-- Whether a condition holds of a word (R169). -/
def condHolds (k : Cond) (a : Word) : Bool :=
  match k with
  | .always => true
  | .p => a.getLsbD 0
  | .np => !a.getLsbD 0
  | .z => a == 0
  | .nz => a != 0
  | .neg => a.getLsbD 31
  | .nneg => !a.getLsbD 31

/-- The target of a form B instruction (R156). -/
def Ctx.target (c : Ctx) (o : BitVec 15) : DWord := c.cur.pc + 2 * o.signExtend 64

/-- The exception that a branch to some targets raises: MISALIGNED_TARGET before ORPHAN_MODIFIER (R160), before what a
fetch of a target raises; of one kind, that of the first. -/
def State.badTargets (s : State) (g : Group) (ts : List DWord) : Option (Nat × DWord × Option XFault) :=
  let bad := ts.filterMap fun t => s.badTarget g t
  match findBy (fun x => x.1 == 0x21) bad with
  | some x => some x
  | none =>
    match findBy (fun x => x.1 == 0x22) bad with
    | some x => some x
    | none => bad.head?

/-- Whether what an instruction reads of a register is known and sound in some lanes: it lies in the window, no value of it
is pending, and none is poisoned. -/
def Ctx.known (c : Ctx) (r : Nat) (ls : List Nat) : Bool :=
  decide (r < c.warp.window) && ((c.split.bypass.any fun b => b.reg == r) || !c.warp.pending r) && !ls.any fun l => c.poisoned r l

/-- The addresses to which an instruction will branch, as far as known operands tell (R156, R169 to R171, R179, R180). -/
def Ctx.goesTo (c : Ctx) (i : Instr) : List DWord :=
  let ls := c.act none
  let vote := fun (x : OpBrA) (f : List Bool → Bool) =>
    if c.known x.a.toNat ls && f (ls.map fun l => (c.reg x.a.toNat l).getLsbD 0) then [c.target x.o] else []
  let pairs := fun (r : Nat) (ls : List Nat) =>
    if c.known r ls && c.known (r + 1) ls then ls.map fun l => c.pair r l else []
  match i with
  | .bra x =>
    if x.c = .always ∨ (c.known x.a.toNat (ls.take 1) = true ∧ condHolds x.c (c.reg x.a.toNat (c.low none)) = true) then [c.target x.o]
    else []
  | .brc x =>
    if x.c = .always ∨ (c.known x.a.toNat ls = true ∧ (ls.any fun l => condHolds x.c (c.reg x.a.toNat l)) = true) then [c.target x.o]
    else []
  | .call x => [c.target x.o]
  | .ret x => pairs x.r.toNat (ls.take 1)
  | .brx x => pairs x.r.toNat ls
  | .bpnd x => if x.a.toNat < c.warp.window ∧ c.warp.pending x.a.toNat ≠ x.rdy then [c.target x.o] else []
  | .ball x => vote x fun bs => bs.all id
  | .bany x => vote x fun bs => bs.any id
  | .bnone x => vote x fun bs => !bs.any id
  | _ => []

/-- The misaligned entry of a TSPAWN, as far as known operands tell (R237). -/
def Ctx.badEntry (c : Ctx) (i : Instr) : Option (Nat × DWord × Option XFault) :=
  match i with
  | .tspawn x =>
    let ls := c.act x.m
    if (i.predReg.all fun r => c.known r (lanesOf c.cur.mask)) && c.known x.a.toNat ls && c.known (x.a.toNat + 1) ls then
      (findBy (fun l => (c.pair x.a.toNat l).extractLsb' 0 2 != 0) ls).map fun l => (0x21, c.pair x.a.toNat l, none)
    else none
  | _ => none

/-- MISALIGNED_TARGET or ORPHAN_MODIFIER of a branch or of a spawn, which come before every other check (R160). -/
def State.earlyTarget (s : State) (c : Ctx) (i : Instr) : Option (Nat × DWord × Option XFault) :=
  match s.badTargets c.grp (c.goesTo i) with
  | some x => if x.1 == 0x21 || x.1 == 0x22 then some x else none
  | none => c.badEntry i

/-- Runs a meaning for the issuing instruction, after the checks that every instruction has: a bad branch target (R156),
PRIVILEGE outside kernel mode (R159, R283), ILLEGAL for a register beyond the window (R26), and POISON (R348), in the
order of R160. -/
def issue (s : State) (i : Instr) (k : Ctx → Host.Outcome State Fault Refusal) : Host.Outcome State Fault Refusal :=
  match issuer? s with
  | none => .fault .noIssuer
  | some c =>
    match s.earlyTarget c i with
    | some x => .next (targetTrap s c.cur x)
    | none =>
      if i.privileged && !c.grp.kernel then .next (raise s c 0x23 c.cur.iword 0)
      else if c.beyond i then .next (illegal s c)
      else
        match c.poison? i with
        | some r => .next (raise s c 0x27 (BitVec.ofNat 32 r) 0)
        | none => k c

/-! ### Completing an instruction -/

/-- The new bypass entries of a transient instruction (R33): a lane that is inactive keeps what it would have read. -/
def Ctx.transient (c : Ctx) (m : Option Modifier) (ws : Writes) : List Bypass :=
  ws.map fun p =>
    ⟨p.1, 3, lanes32 fun l => if (c.act m).contains l then p.2 (c.src m l) else c.reg p.1 l,
      maskOf fun l => !(c.act m).contains l && c.poisoned p.1 l⟩

/-- The warp after the results of an instruction are written: to the register file, or to the bypass only when T is
set and the instruction is not a closure's (R33, R34). -/
def Ctx.write (c : Ctx) (m : Option Modifier) (t : Bool) (ws : Writes) (w : Warp) : Warp :=
  if t && c.streamed then
    w.updSplit c.cur.split fun sp =>
      { sp with bypass := (sp.bypass.filter fun b => !(ws.any fun p => p.1 == b.reg)) ++ c.transient m ws }
  else w.setAll (c.act m) (ws.map fun p => (p.1, fun l => p.2 (c.src m l)))

/-- The warp after its split has issued one more instruction and moved past it. -/
def Ctx.advance (c : Ctx) (w : Warp) : Warp :=
  w.updSplit c.cur.split fun sp => { sp.tick with pc := c.next }

/-- The flags of an instruction whose enable bits are set (R71, R73). -/
def Ctx.enabled (c : Ctx) (fl : Flags) : Word := fl.setWidth 32 &&& (c.warp.fflags >>> 8) &&& 0x3F

/-- The warp after a completed instruction: its results, its flags, and the next instruction or the free closure. -/
def Ctx.complete (c : Ctx) (m : Option Modifier) (t : Bool) (ws : Writes) (fl : Flags) (w : Warp) : Warp :=
  match c.cur.clo with
  | none =>
    let w := c.write m t ws (c.advance w)
    { w with fflags := w.fflags ||| fl.setWidth 32 }
  | some k =>
    let w := c.write m t ws w
    ({ w with fflags := w.fflags ||| fl.setWidth 32 }).endClosure k false

/-- Completes an instruction that wrote some registers and raised some flags. A flag whose enable is set takes
FP_EXCEPTION after completion (R73); in a closure it takes CLOSURE_FAULT and nothing is written (R47). -/
def finish (s : State) (c : Ctx) (m : Option Modifier) (t : Bool) (ws : Writes) (fl : Flags) : State :=
  let en := c.enabled fl
  let done := { s.updWarp c.cur.gid c.cur.widx (c.complete m t ws fl) with cur := none }
  if en = 0 || c.cur.noFp then done
  else
    match c.cur.clo with
    | none => takeTrap done c.cur ⟨7, c.next, c.cur.pc, en, 0, none, false, false⟩
    | some _ => raise s c 7 en c.cur.pc

/-- Completes an instruction whose destinations land later, under the number `key`; `s` holds the value in flight
already. -/
def finishPending (s : State) (c : Ctx) (key : Nat) (event : Bool) (mask : Word) (rs : List Nat) : State :=
  let f := fun (w : Warp) =>
    match c.cur.clo with
    | none => (c.advance w).markPending key event mask rs
    | some k =>
      let known := match w.closure? k with | some x => x.dregs | none => []
      (w.endClosure k true).markPending key event mask (rs.filter fun r => !known.contains r)
  { s.updWarp c.cur.gid c.cur.widx f with cur := none }

/-- Starts a value in flight for the issuing warp; its number is `Ctx.key`. -/
def addFly (s : State) (c : Ctx) (f : Fly) : State :=
  { s with
    flys := s.flys ++ [{ f with id := c.key s, gid := c.cur.gid, widx := c.cur.widx, pc := c.cur.pc, whole := !c.streamed }]
    uid := if c.streamed then s.uid + 1 else s.uid }

/-- A value in flight for some lanes and registers of which nothing is known yet. -/
def flyFor (mask : Word) (rs : List Nat) (acq : Option Scope) : Fly :=
  ⟨0, 0, 0, mask, 0, rs.map fun r => (r, List.replicate 32 0), [], 0, acq, .b32, none, [], 0, false⟩

/-- A value in flight that only has to land. -/
def flyOf (mask : Word) (vals : List (Nat × List Word)) (acq : Option Scope) : Fly :=
  ⟨0, 0, 0, mask, mask, vals, [], 0, acq, .b32, none, [], 0, false⟩

/-- Puts values of one lane into a value in flight; the lane is ready to land. -/
def Fly.put (f : Fly) (lane : Nat) (vs : List Word) : Fly :=
  { f with
    vals := (f.vals.zipIdx).map fun p => (p.1.1, p.1.2.set lane (vs.getD p.2 0))
    ready := f.ready ||| (1#32 <<< lane) }

/-- Completes an instruction whose destinations are in flight: latency-pending, or event-pending. -/
def finishFly (s : State) (c : Ctx) (event : Bool) (f : Fly) : State :=
  finishPending (addFly s c f) c (c.key s) event f.mask (f.vals.map fun p => p.1)

/-- Completes an instruction that writes no register. -/
def finishPlain (s : State) (c : Ctx) : State := finish s c none false [] flag0

/-! ### Returning from an exception (R178, R275) -/

/-- Frees a closure with the absent code of .B32 in its destinations, in its captured mask (R47). -/
def Warp.freeClosure (w : Warp) (k : Nat) : Warp :=
  match w.closure? k with
  | none => w
  | some c => (w.setAll (lanesOf c.mask) (c.dregs.map fun r => (r, fun _ => 0xFFFFFFFF))).endClosure k false

/-- What a handler leaves in the record of a trap slot (R273). -/
structure SlotRead where
  epc : DWord
  spc : DWord
  act : Nat
  ecv : Bool
  ecl : Nat
  deriving DecidableEq, Repr

/-- Reads a record through a view of memory. -/
def readSlot (rd : Nat → Byte) (a : Nat) : SlotRead :=
  ⟨BitVec.ofNat 64 (readNat rd a 8), BitVec.ofNat 64 (readNat rd (a + 48) 8), (rd (a + 28)).toNat % 4,
    (rd (a + 27)).getLsbD 3, (rd (a + 27)).toNat % 8⟩

/-- Whether a record fails the ACT check of a return (R275). -/
def SlotRead.bad (r : SlotRead) : Bool := r.act == 3 || (decide (1 ≤ r.act) && !r.ecv)

/-- What a return does to the closure of the record (R275). -/
def Warp.answerClosure (w : Warp) (r : SlotRead) : Warp :=
  if r.act = 1 then w.freeClosure r.ecl
  else { w with closures := updateBy (fun c => c.idx == r.ecl) (fun c => { c with noFp := r.act == 2 }) w.closures }

/-- The lanes of a mask resume at an address: an ANN or ANN.HLP that stood elsewhere for them stands there no more. -/
def State.resumesAt (s : State) (gid widx : Nat) (mask : Word) (pc : DWord) : State :=
  s.dropDrives fun d => d.gid == gid && d.widx == widx && d.sync && d.clo.isNone && mask.getLsbD d.lane && d.pc != pc

/-- RETURNING FROM A SYSTEM TRAP (R275), for a warp whose record passed the ACT check: the answer to the closure, or
the check of the resumption address and the split that resumes there; then the bypass, the mask and the mode. A TRET to a
bad address raises a trap of its own, which stops the group (R276, log 48). -/
def trapReturn (s : State) (g : Group) (w : Warp) (r : SlotRead) : State :=
  let kernel := w.inh.isSome
  match (if kernel then w.inh else w.susp) with
  | none => s
  | some sv =>
    let clear := fun (w : Warp) => if kernel then { w with inh := none } else { w with susp := none }
    let back := fun (w : Warp) (pc : Option DWord) => w.updSplit sv.split fun x =>
      { x with pc := pc.getD x.pc, mask := sv.mask, bypass := if kernel then sv.bypass else x.bypass }
    if r.ecv then
      s.updWarp g.gid w.idx fun w =>
        let w := w.answerClosure r
        if kernel then
          if r.spc == 0 then
            let own := ((w.split? sv.split).map fun x => x.stack).getD []
            clear ((w.dropSplit sv.split).refill sv.split own)
          else clear (back w (some r.spc))
        else clear w
    else
      match s.badTarget g r.epc with
      | some x =>
        if kernel then s.stopGroup g w
        else
        let s := s.updWarp g.gid w.idx fun w => clear (back w none)
        takeTrap s ⟨g.gid, w.idx, sv.split, none, r.epc, 4, 0, 0, sv.mask, w.tile, w.cb, [], [], false⟩
          ⟨x.1, r.epc, x.2.1, 0, 0, x.2.2, false, x.2.2.isSome⟩
      | none => (s.updWarp g.gid w.idx fun w => clear (back w (some r.epc))).resumesAt g.gid w.idx sv.mask r.epc

end Sys2Proof.Machine
end

