-- ==== Sys2Proof/Machine/Capture.lean ====
section
/-! DEFINITION. Capture into residual closures (R41, R43, R280) and stores deferred by a translation fault (R219). -/

namespace Sys2Proof.Machine

/-- The registers of a list, ascending and without repeats. -/
def ascending (rs : List Nat) : List Nat := (List.range 128).filter fun r => rs.contains r

/-- The operands that an instruction reads in each lane. -/
def Instr.laneOperands (i : Instr) : List Nat :=
  ascending ((if isUniform i.modifier then [] else i.srcs) ++ i.predReg)

/-- The operands that an instruction reads in the lowest active lane. -/
def Instr.lowOperands (i : Instr) : List Nat :=
  ascending (i.lows ++ (if isUniform i.modifier then i.srcs else []))

/-- Whether a register has a live transient value in the issuing split. -/
def Ctx.bypassed (c : Ctx) (r : Nat) : Bool := c.split.bypass.any fun b => b.reg == r

/-- Whether an operand is ready: it has landed, or a transient value stands before it (R34, R41). -/
def Ctx.ready (c : Ctx) (r : Nat) : Bool := c.bypassed r || !c.warp.pending r

/-- The uniform words that a capture may use: eight where the codebook takes the others (R280). -/
def Instr.uniformWords : Instr → Nat
  | .cvt _ | .cvts _ | .cbenc _ | .cbdec _ => 8
  | _ => 16

/-- The registers that a capture copies into lane slots (R280). -/
def Ctx.laneSlots (c : Ctx) (i : Instr) : List Nat := ((Instr.laneOperands i).filter c.ready).take 3

/-- The registers that a capture copies into uniform words: they follow the first consecutively (R280). The lowest
active lane is known only where the predicate is. -/
def Ctx.uniformSlots (c : Ctx) (i : Instr) : List Nat :=
  if i.predReg.all c.ready then
    match (Instr.lowOperands i).filter c.ready with
    | [] => []
    | b :: r => (b :: r).filter fun x => decide (x < b + Instr.uniformWords i)
  else []

/-- The transient operands that find no slot (R41, R49): their values travel with the closure (log 56). -/
def Ctx.transientRest (c : Ctx) (i : Instr) : List Nat :=
  (ascending i.reads).filter fun r => c.bypassed r && !(c.laneSlots i).contains r && !(c.uniformSlots i).contains r

/-- The closure of an instruction under a number, its destinations landing under the next number (R41, R280). `extra`
are destinations that its operands give. -/
def Ctx.closureOf (c : Ctx) (i : Instr) (extra : List Nat) (k id : Nat) (waits : List Nat) (replay : Bool) : Closure :=
  let ls := c.laneSlots i
  let us := c.uniformSlots i
  let low := c.low i.modifier
  { idx := k, id := id, did := id + 1, born := id, iword := c.cur.iword, mword := c.cur.mword, pc := c.cur.pc
    mask := c.cur.mask, tile := c.cur.tile, csplit := c.cur.split
    lanes := ls.map fun r => (r, lanes32 fun l => c.reg r l)
    unif := us.map fun r => (r, c.reg r low)
    trans := (c.transientRest i).map fun r => (r, lanes32 fun l => c.reg r l)
    cb := c.cur.cb
    pois := ((ls ++ c.transientRest i).flatMap fun r => ((List.range 32).filter fun l => c.poisoned r l).map fun l => regKey r l)
      ++ (us.filter fun r => c.poisoned r low).flatMap fun r => (List.range 32).map fun l => regKey r l
    dregs := i.dsts ++ extra, waits := waits
    holds := (ascending i.reads).filter fun r => !ls.contains r && !us.contains r && !c.bypassed r
    run := none, noFp := false, replay := replay }

/-- The lowest free closure index (R43). -/
def Warp.freeClosureIdx (w : Warp) : Option Nat := findBy (fun k => (w.closure? k).isNone) (List.range 8)

/-- Captures the issuing instruction; a ninth closure raises RESIDUAL_FULL (R41, R43). The split goes on. -/
def capture (s : State) (c : Ctx) (i : Instr) (extra waits : List Nat) (replay : Bool) : State :=
  match c.warp.freeClosureIdx with
  | none => raise s c 5 0 0
  | some k =>
    let f := fun (w : Warp) =>
      let w := c.advance w
      let w := { w with closures := w.closures ++ [c.closureOf i extra k s.uid waits replay] }
      let w := w.markPending (s.uid + 1) true c.cur.mask (i.dsts ++ extra)
      if waits.isEmpty then w.makeRunnable k else w
    { s.updWarp c.cur.gid c.cur.widx f with uid := s.uid + 2, cur := none }

/-- Whether a translation fault of the issuing instruction is of kind 1 (R317): an access of a deferring user warp, or
the replay of one. -/
def Ctx.kindOne (c : Ctx) : Bool :=
  c.deferring && !c.grp.kernel &&
    (match c.cur.clo with
     | none => true
     | some k => (match c.warp.closure? k with | some x => x.replay | none => false))

/-- The fault of kind 1 of an access (R317, R319). -/
def Group.faultOne (g : Group) (slot : Nat) (wr : Bool) (x : XFault) (p : Party) : FaultReq :=
  ⟨x.va, 0, ownerWord g.core slot 0, g.asid, 0, x.cause, x.reason, x.level, 1, wr, false, g.core / 128, p⟩

/-- The first fault on each 64 KiB granule. -/
def byGranule : List XFault → List XFault
  | [] => []
  | x :: r => x :: (byGranule r).filter fun y => y.va.toNat / 65536 != x.va.toNat / 65536

/-- Defers the issuing instruction whole (R219): it becomes a closure that awaits the answer of every faulted granule; a
replay that faults again awaits anew (R321). -/
def deferAccess (s : State) (c : Ctx) (i : Instr) (wr : Bool) (miss : List XFault) : State :=
  let gs := byGranule miss
  let keys := (List.range gs.length).map (s.uid + ·)
  let post := fun (s : State) => (gs.zip keys).foldl (fun s p =>
    s.postFault c.grp.part (c.grp.faultOne c.warp.slot wr p.1 (.closure c.cur.gid c.cur.widx p.2))) s
  let s1 := { s with uid := s.uid + gs.length }
  match c.cur.clo with
  | none =>
    match c.warp.freeClosureIdx with
    | none => raise s c 5 0 0
    | some _ => capture (post s1) c i [] keys true
  | some k =>
    let again := fun (x : Closure) => { x with run := none, waits := keys, replay := true }
    let f := fun (w : Warp) => { w with closures := updateBy (fun x => x.idx == k) again w.closures }
    { (post s1).updWarp c.cur.gid c.cur.widx f with cur := none }

/-- What destinations that only the operands of an instruction give still await: values in flight to them, and closures
that hold them as operands (R41, R280). -/
def Ctx.extraWaits (c : Ctx) (rs : List Nat) : List Nat :=
  let mine := match c.cur.clo.bind c.warp.closure? with | some k => [k.id, k.did] | none => []
  (((c.warp.pend.filter fun p => rs.contains p.reg).map fun p => p.id)
    ++ (c.warp.closures.filter fun k => k.holds.any fun r => rs.contains r).map fun k => k.id).eraseDups.filter fun x => !mine.contains x

/-- Captures the issuing instruction behind what its destinations await; a closure's run waits anew (R41). -/
def captureBehind (s : State) (c : Ctx) (i : Instr) (extra waits : List Nat) : State :=
  match c.cur.clo with
  | none => capture s c i extra waits false
  | some k =>
    let again := fun (x : Closure) => { x with run := none, waits := waits }
    let f := fun (w : Warp) => { w with closures := updateBy (fun x => x.idx == k) again w.closures }
    { s.updWarp c.cur.gid c.cur.widx f with cur := none }

/-- Defers the issuing store whole (R219). -/
def deferStore (s : State) (c : Ctx) (i : Instr) (miss : List XFault) : State := deferAccess s c i true miss

end Sys2Proof.Machine
end

