-- ==== Sys2Proof/Machine/Special.lean ====
section
/-! DEFINITION. The special functions (R202), correctly rounded: roots and reciprocals by exact integer
arithmetic; 2^x, log2, sin, cos and tanh by integer enclosures whose precision doubles until the result's
rounding is decided (log 6). A fixed-point integer v at precision P stands for v x 2^-P. -/

namespace Sys2Proof.Machine

/-- The sum of z^(2k+1) / (2k+1), from the current power t, alternating in sign when `alt` says so. -/
def oddSeries (alt : Bool) (P : Nat) (z2 : Int) : Nat → Nat → Int → Int → Int
  | 0, _, _, acc => acc
  | n + 1, k, t, acc =>
    if t = 0 then acc
    else
      let s : Int := t / (2 * k + 1 : Nat)
      oddSeries alt P z2 n (k + 1) (t * z2 / 2 ^ P) (if alt && k % 2 == 1 then acc - s else acc + s)

/-- The artanh of z (fixed point, |z| below 1/2). -/
def artanh (P : Nat) (z : Int) : Int := oddSeries false P (z * z / 2 ^ P) P 0 z 0

/-- The arctangent of 1/n. -/
def arctanInv (P n : Nat) : Int :=
  let z : Int := 2 ^ P / (n : Int)
  oddSeries true P (z * z / 2 ^ P) P 0 z 0

/-- ln 2 = 2 artanh(1/3). -/
def fixLn2 (P : Nat) : Int := 2 * artanh P (2 ^ P / 3)

/-- pi = 16 arctan(1/5) - 4 arctan(1/239). -/
def fixPi (P : Nat) : Int := 16 * arctanInv P 5 - 4 * arctanInv P 239

/-- The sum of r^k / k! from the current term t. -/
def expSeries (P : Nat) (r : Int) : Nat → Nat → Int → Int → Int
  | 0, _, _, acc => acc
  | n + 1, k, t, acc =>
    if t = 0 then acc
    else
      let t' := t * r / 2 ^ P / (k + 1 : Nat)
      expSeries P r n (k + 1) t' (acc + t')

/-- e^r for r from 0 to 1. -/
def fixExp (P : Nat) (r : Int) : Int := expSeries P r P 0 (2 ^ P) (2 ^ P)

/-- The alternating sum of r^(k+2j) / (k+2j)! from the current term t. -/
def trigSeries (P : Nat) (r2 : Int) : Nat → Nat → Int → Int → Int
  | 0, _, _, acc => acc
  | n + 1, k, t, acc =>
    if t = 0 then acc
    else
      let t' := -(t * r2 / 2 ^ P / ((k + 1) * (k + 2) : Nat))
      if t' = 0 ∨ t' = -1 ∨ t' = 1 then acc
      else trigSeries P r2 n (k + 2) t' (acc + t')

/-- The exact number x at precision P, for P at least -e. -/
def fixOf (P : Nat) (x : Exact) : Int := (x.m * 2 ^ (x.e + P).toNat : Nat)

/-- The number between lo and hi at precision P, when they agree on its first 45 bits. -/
def separated (neg : Bool) (P : Nat) (lo hi : Int) : Option Exact :=
  let k := bitLen hi.toNat - 45
  if lo ≤ 0 ∨ k = 0 then none
  else if lo.toNat / 2 ^ k = hi.toNat / 2 ^ k then some ⟨neg, lo.toNat / 2 ^ k, (k : Int) - P, true⟩
  else none

/-- A bound on the error of every approximation below, in units of 2^-P. -/
def slack : Int := 2 ^ 14

/-- An approximation v of a signed value widened by the bound. -/
def widen (P : Nat) (v : Int) : Option Exact := separated (v < 0) P (v.natAbs - slack) (v.natAbs + slack)

/-- 2^x, x not an integer: x = n + f, and e^(f ln 2). -/
def exp2At (P : Nat) (x : Exact) : Option Exact :=
  let v : Int := if x.neg then -(fixOf P x) else fixOf P x
  let n := v / 2 ^ P
  let f := v - n * 2 ^ P
  (widen P (fixExp P (f * fixLn2 P / 2 ^ P))).map fun y => y.scale n

/-- log2 x, x positive and no power of two. -/
def log2At (P : Nat) (x : Exact) : Option Exact :=
  let s := bitLen x.m - 1
  let up := 2 * 2 ^ s * 2 ^ s < x.m * x.m
  let s := if up then s + 1 else s
  let k : Int := x.e + s
  let z : Int := ((x.m : Int) - 2 ^ s) * 2 ^ P / ((x.m : Int) + 2 ^ s)
  widen P (k * 2 ^ P + 2 * artanh P z * 2 ^ P / fixLn2 P)

/-- The quadrant of |x| and the remainder after whole quarter turns. -/
def reduceAt (P : Nat) (x : Exact) : Int × Int :=
  let Q := P + (x.e + bitLen x.m).toNat + 16
  let half := fixPi Q / 2
  let v := fixOf Q x
  let n := (v + half / 2) / half
  (n % 4, (v - n * half) / 2 ^ (Q - P))

/-- The sine (shift 0) or the cosine (shift 1) of |x|. -/
def trigAt (shift : Int) (P : Nat) (x : Exact) : Option Exact :=
  let (q, r) := reduceAt P x
  let q := (q + shift) % 4
  let r2 := r * r / 2 ^ P
  let v := if q % 2 = 0 then trigSeries P r2 P 1 r r else trigSeries P r2 P 0 (2 ^ P) (2 ^ P)
  widen P (if q ≥ 2 then -v else v)

/-- tanh |x| = 1 - 2 / (e^(2|x|) + 1), |x| below 64. -/
def tanhAt (P : Nat) (x : Exact) : Option Exact :=
  let v := 2 * fixOf P x
  let ln2 := fixLn2 P
  let n : Nat := (v / ln2).toNat
  let e : Int := fixExp P (v - (n : Int) * ln2) * ((2 : Int) ^ n)
  widen P ((e - (2 : Int) ^ P) * (2 : Int) ^ P / (e + (2 : Int) ^ P))

/-- Doubles the precision until the enclosure separates. -/
def refine (f : Nat → Option Exact) : Nat → Nat → Option Exact
  | 0, _ => none
  | n + 1, P =>
    match f P with
    | some x => some x
    | none => refine f n (2 * P)

/-- The first precision for an operand: well past its exponent. -/
def startPrec (x : Exact) : Nat := 96 + 3 * x.e.natAbs + bitLen x.m

/-- The root of x (x positive) at more than 60 bits. -/
def sqrtExact (x : Exact) : Exact :=
  let s : Nat := 130 + (if (x.e - 130) % 2 = 0 then 0 else 1)
  let n := x.m * 2 ^ s
  let r := isqrt n
  ⟨false, r, (x.e - s) / 2, r * r ≠ n⟩

/-- The reciprocal root of x (x positive) at more than 60 bits. -/
def rsqrtExact (x : Exact) : Exact :=
  let k : Int := (x.e + (bitLen x.m : Int) + 132) / 2 + 1
  let y : Nat := 2 ^ (2 * k - x.e).toNat
  let n := y / x.m
  let r := isqrt n
  ⟨false, r, -k, r * r ≠ n || y % x.m ≠ 0⟩

/-- Whether x is 2^k; then k. -/
def powerOfTwo (x : Exact) : Option Int :=
  if x.m = 2 ^ Nat.log2 x.m ∧ x.m ≠ 0 then some (x.e + Nat.log2 x.m) else none

/-- Whether x is an integer; then its value. -/
def integerValue (x : Exact) : Option Int :=
  if 0 ≤ x.e then
    let n : Int := (x.m * 2 ^ x.e.toNat : Nat)
    some (if x.neg then -n else n)
  else if x.m % 2 ^ (-x.e).toNat = 0 then
    let n : Int := (x.m / 2 ^ (-x.e).toNat : Nat)
    some (if x.neg then -n else n)
  else none

/-- The special functions by their MIN values (R202). -/
inductive SpecialFn where
  | rcp | rsq | sqrt | exp2 | log2 | sin | cos | tanh
  deriving DecidableEq, Repr

/-- The result of a function on a present number or infinity (R202): a value and its flags, or none where the
enclosures have not separated within the model's bound. -/
def specialValue (f : SpecialFn) (x : FVal) : Option (FVal × Flags) :=
  let one : FVal := .num ⟨false, 1, 0, false⟩
  let fuel := 8
  match f, x with
  | _, .absent => some (.absent, flag0)
  | _, .nan => some (.nan, flag0)
  | .rcp, .inf n => some (.num ⟨n, 0, 0, false⟩, flag0)
  | .rcp, .num v =>
    if v.m = 0 then some (.inf v.neg, flagDZ) else some (.num (Exact.div ⟨false, 1, 0, false⟩ v), flag0)
  | .rsq, .inf n => if n then some (.nan, flagNV) else some (FVal.zero, flag0)
  | .rsq, .num v =>
    if v.m = 0 then some (.inf v.neg, flagDZ)
    else if v.neg then some (.nan, flagNV)
    else some (.num (rsqrtExact v), flag0)
  | .sqrt, .inf n => if n then some (.nan, flagNV) else some (.inf false, flag0)
  | .sqrt, .num v =>
    if v.m = 0 then some (.num v, flag0)
    else if v.neg then some (.nan, flagNV)
    else some (.num (sqrtExact v), flag0)
  | .exp2, .inf n => if n then some (FVal.zero, flag0) else some (.inf false, flag0)
  | .exp2, .num v =>
    if v.m = 0 then some (one, flag0)
    else if Exact.lt ⟨false, 4096, 0, false⟩ { v with neg := false } then
      some (.num ⟨false, 2 ^ 64, if v.neg then -4160 else 4096, true⟩, flag0)
    else
      match integerValue v with
      | some n => some (.num ⟨false, 1, n, false⟩, flag0)
      | none => (refine (fun P => exp2At P v) fuel (startPrec v)).map fun y => (.num y, flag0)
  | .log2, .inf n => if n then some (.nan, flagNV) else some (.inf false, flag0)
  | .log2, .num v =>
    if v.m = 0 then some (.inf true, flagDZ)
    else if v.neg then some (.nan, flagNV)
    else
      match powerOfTwo v with
      | some k => some (.num (Exact.ofInt k 0 false), flag0)
      | none => (refine (fun P => log2At P v) fuel (startPrec v)).map fun y => (.num y, flag0)
  | .sin, .inf _ => some (.nan, flagNV)
  | .sin, .num v =>
    if v.m = 0 then some (.num v, flag0)
    else (refine (fun P => trigAt 0 P v) fuel (startPrec v)).map fun y => (.num { y with neg := y.neg != v.neg }, flag0)
  | .cos, .inf _ => some (.nan, flagNV)
  | .cos, .num v =>
    if v.m = 0 then some (one, flag0)
    else (refine (fun P => trigAt 1 P v) fuel (startPrec v)).map fun y => (.num y, flag0)
  | .tanh, .inf n => some (.num ⟨n, 1, 0, false⟩, flag0)
  | .tanh, .num v =>
    if v.m = 0 then some (.num v, flag0)
    else if Exact.lt ⟨false, 64, 0, false⟩ { v with neg := false } then
      some (.num ⟨v.neg, 2 ^ 64 - 1, -64, true⟩, flag0)
    else (refine (fun P => tanhAt P v) fuel (startPrec v)).map fun y => (.num { y with neg := v.neg }, flag0)

/-- The number of a function, for the free value of log 6. -/
def SpecialFn.number : SpecialFn → Nat
  | .rcp => 0 | .rsq => 1 | .sqrt => 2 | .exp2 => 3 | .log2 => 4 | .sin => 5 | .cos => 6 | .tanh => 7

/-- One sub-element of a special-function instruction (R202): SCALE on the exact result, one rounding to
nearest even. -/
def specialElem (f : SpecialFn) (p : FParam) (c : Nat) (m : Option Modifier) : Nat × Flags :=
  let x := decodeFloat p c
  let x := match m with | some m => x.clause m.negA m.absA | none => x
  match specialValue f x with
  | some (v, fl) => post p v fl m false
  | none => (Config.specialCode f.number (1 + p.ebits + p.mbits) c % 2 ^ (1 + p.ebits + p.mbits), flagNX)

end Sys2Proof.Machine
end

