-- ==== Sys2Proof/Machine/Flags.lean ====
section
/-! DEFINITION. Flag computations and sub-element arithmetic that set them: packed types, data-typed integers,
comparisons, classification, conversion between register elements, and the combination steps of reductions. -/

namespace Sys2Proof.Machine

/-! ### Sub-elements (R52) -/

/-- The number of sub-elements of a float type. -/
def ftyCount : FTy → Nat
  | .f32 => 1
  | .f16 | .bf16 => 2

/-- The format of a float type. -/
def ftyParam : FTy → FParam
  | .f32 => fpF32
  | .f16 => fpF16
  | .bf16 => fpBF16

/-- The format code of a float type. -/
def ftyFmt : FTy → Fmt
  | .f32 => .f32
  | .f16 => .f16
  | .bf16 => .bf16

/-- The format of a data-typed integer type. -/
def digFmt : DigTy → Fmt
  | .i32 => .i32
  | .i16x2 => .i16
  | .i8x4 => .i8
  | .i4x8 => .i4
  | .u8x4 => .u8

/-- Sub-element k of width w of a register. -/
def elem (w k : Nat) (x : Word) : Nat := x.toNat / 2 ^ (w * k) % 2 ^ w

/-- A register from sub-elements of width w, the lowest first, and the union of their flags. -/
def packElems (w : Nat) (es : List (Nat × Flags)) : Word × Flags :=
  (BitVec.ofNat 32 ((es.zipIdx.map fun p => p.1.1 * 2 ^ (w * p.2)).sum), es.foldl (fun f p => f ||| p.2) flag0)

/-- Applies a sub-element function to every sub-element of width w of three registers. -/
def mapElems (w n : Nat) (f : Nat → Nat → Nat → Nat × Flags) (a b c : Word) : Word × Flags :=
  packElems w ((List.range n).map fun k => f (elem w k a) (elem w k b) (elem w k c))

/-! ### Float arithmetic (R199) -/

/-- The operations of majors 0x14 to 0x16 (R161). -/
inductive FloatOp where
  | add | sub | mul | fma | min | max | cpys
  deriving DecidableEq, Repr

/-- The sign that FCPYS copies: that of vb, under its own clauses, a NaN's included (R199). -/
def copiedSign (p : FParam) (cb : Nat) (m : Option Modifier) : Bool :=
  let s := signBit p cb
  match m with
  | none => s
  | some m => (if m.absB then false else s) != m.negB

/-- The magnitude of a with a given sign. -/
def FVal.withSign (x : FVal) (neg : Bool) : FVal :=
  match x with
  | .inf _ => .inf neg
  | .num v => .num { v with neg := neg }
  | .nan => .nan
  | .absent => .absent

/-- One sub-element of float arithmetic (R199): the codes of va, vb and the old vd. -/
def floatElem (o : FloatOp) (p : FParam) (m : Option Modifier) (ca cb cc : Nat) : Nat × Flags :=
  let cl := fun (x : FVal) (neg abs : Modifier → Bool) =>
    match m with
    | some m => x.clause (neg m) (abs m)
    | none => x
  let rnd := match m with | some m => m.rnd | none => .nearest
  let a := cl (decodeFloat p ca) Modifier.negA Modifier.absA
  let b := cl (decodeFloat p cb) Modifier.negB Modifier.absB
  match o with
  | .add => ident p a b (fsum a b rnd) m
  | .sub => strict p a b (fsum a b.neg rnd) m
  | .mul => ident p a b (fprod a b) m
  | .fma => ffma p a b (cl (decodeFloat p cc) Modifier.negC Modifier.absC) m
  | .min => ident p a b (fminimum a b, flag0) m
  | .max => ident p a b (fmaximum a b, flag0) m
  | .cpys => strict p a b (a.withSign (copiedSign p cb m), flag0) m

/-- Float arithmetic on a register of a type. -/
def floatWord (o : FloatOp) (y : FTy) (m : Option Modifier) (a b c : Word) : Word × Flags :=
  mapElems (32 / ftyCount y) (ftyCount y) (floatElem o (ftyParam y) m) a b c

/-- A special function on a register of a type (R202). -/
def specialWord (f : SpecialFn) (y : FTy) (m : Option Modifier) (a : Word) : Word × Flags :=
  mapElems (32 / ftyCount y) (ftyCount y) (fun x _ _ => specialElem f (ftyParam y) x m) a 0 0

/-! ### Comparison and classification (R200, R201) -/

/-- One comparison of sub-elements (R200). -/
def fcmpElem (c : FCond) (p : FParam) (m : Option Modifier) (ca cb : Nat) : Bool × Flags :=
  let a := decodeFloat p ca
  let b := decodeFloat p cb
  let a := match m with | some m => a.clause m.negA m.absA | none => a
  let b := match m with | some m => b.clause m.negB m.absB | none => b
  if a.isAbsent || b.isAbsent then (false, flag0)
  else if a.isNan || b.isNan then
    match c with
    | .eq => (false, flag0)
    | .ne | .unord => (true, flag0)
    | .lt | .le => (false, flagNV)
  else
    let lt := fun (x y : FVal) =>
      match x, y with
      | .num u, .num v => u.lt v
      | _, _ => x.below y
    match c with
    | .eq => (!lt a b && !lt b a, flag0)
    | .ne => (lt a b || lt b a, flag0)
    | .lt => (lt a b, flag0)
    | .le => (!lt b a, flag0)
    | .unord => (false, flag0)

/-- FCMP: bit k is the condition of sub-element k (R200). -/
def fcmpWord (c : FCond) (y : FTy) (m : Option Modifier) (a b : Word) : Word × Flags :=
  let n := ftyCount y
  let w := 32 / n
  packElems 1 ((List.range n).map fun k =>
    let r := fcmpElem c (ftyParam y) m (elem w k a) (elem w k b)
    (r.1.toNat, r.2))

/-- The class bit of a code (R201). -/
def fclassElem (p : FParam) (c : Nat) : Nat :=
  match decodeFloat p c with
  | .absent => 2 ^ 9
  | .nan => 2 ^ 8
  | .inf true => 2 ^ 0
  | .inf false => 2 ^ 7
  | .num x =>
    if x.m = 0 then (if x.neg then 2 ^ 3 else 2 ^ 4)
    else if x.m < 2 ^ p.mbits then (if x.neg then 2 ^ 2 else 2 ^ 5)
    else (if x.neg then 2 ^ 1 else 2 ^ 6)

/-- FCLASS (R201). -/
def fclassWord (y : FTy) (a : Word) : Word :=
  (mapElems (32 / ftyCount y) (ftyCount y) (fun c _ _ => (fclassElem (ftyParam y) c, flag0)) a 0 0).1

/-- ABST: bit k tells whether sub-element k is absent (R201). -/
def abstWord (y : FTy) (a : Word) : Word :=
  let n := ftyCount y
  (packElems 1 ((List.range n).map fun k =>
    ((decodeFloat (ftyParam y) (elem (32 / n) k a)).isAbsent.toNat, flag0))).1

/-! ### Data-typed integers (R58, R192) -/

/-- A present integer, or none for an absent code. -/
def intOf (f : Fmt) (c : Nat) : Option Int :=
  match fmtClass f with
  | .int w lo _ a => if c % 2 ^ w = a then none else some (if lo < 0 then signedOf w c else c % 2 ^ w)
  | _ => none

/-- Clamps to the present range, setting SAT when it moves the value (R58). -/
def saturate (f : Fmt) (v : Int) : Nat × Flags :=
  match fmtClass f with
  | .int w lo hi _ =>
    if hi < v then (patternOf w hi, flagSAT)
    else if v < lo then (patternOf w lo, flagSAT)
    else (patternOf w v, flag0)
  | _ => (0, flag0)

/-- The operations of majors 0x08 to 0x0B (R192). -/
inductive DigOp where
  | add | sub | mul | mad | min | max
  deriving DecidableEq, Repr

/-- The sign clauses on a present integer (R69, R192). -/
def intClause (neg abs : Bool) (v : Int) : Int :=
  let u : Int := if abs then v.natAbs else v
  if neg then -u else u

/-- One sub-element of a data-typed instruction (R67, R192). -/
def digElem (o : DigOp) (f : Fmt) (m : Option Modifier) (ca cb cc : Nat) : Nat × Flags :=
  let cl := fun (x : Option Int) (neg abs : Modifier → Bool) =>
    match m with
    | some m => x.map (intClause (neg m) (abs m))
    | none => x
  let a := cl (intOf f ca) Modifier.negA Modifier.absA
  let b := cl (intOf f cb) Modifier.negB Modifier.absB
  let c := cl (intOf f cc) Modifier.negC Modifier.absC
  let pass := fun (g : Int → Int → Int) =>
    match a, b with
    | some x, some y => some (g x y)
    | some x, none => some x
    | none, y => y
  let r : Option Int :=
    match o with
    | .add => pass (· + ·)
    | .mul => pass (· * ·)
    | .min => pass min
    | .max => pass max
    | .sub =>
      match a, b with
      | some x, some y => some (x - y)
      | _, _ => none
    | .mad =>
      match a, b, c with
      | some x, some y, some z => some (x * y + z)
      | some x, some y, none => some (x * y)
      | _, _, z => z
  match r with
  | none => (absentCode f, flag0)
  | some v => saturate f v

/-- A data-typed instruction on a register. -/
def digWord (o : DigOp) (y : DigTy) (m : Option Modifier) (a b c : Word) : Word × Flags :=
  let f := digFmt y
  mapElems (fmtWidth f) (32 / fmtWidth f) (digElem o f m) a b c

/-! ### Conversion and elements in registers (R203 to R210) -/

/-- CVT of one lane (R203). -/
def cvtWord (x : OpCvt) (t : Codebook) (a : Word) : Word × Flags :=
  let v := decodeFmt x.src t a.toNat
  let sc : Int := match x.m with | some m => m.scale.toInt | none => 0
  let rnd := match x.m with | some m => m.rnd | none => .nearest
  let v := match v with | .num u => .num (u.scale sc) | _ => v
  let r := convert v x.dst t rnd x.sat
  (BitVec.ofNat 32 r.1, r.2)

/-- CVTS of one lane: the element or the value in va and the block scale in va+1 (R204). -/
def cvtsWord (x : OpCvt) (t : Codebook) (a s : Word) : Word × Flags :=
  let rnd := match x.m with | some m => m.rnd | none => .nearest
  if x.src.scaled then
    let (v, fl) := scaledValue x.src t (a.toNat % 2 ^ fmtWidth x.src) s
    let r := convert v x.dst t rnd x.sat
    (BitVec.ofNat 32 r.1, fl ||| r.2)
  else
    let r := encodeScaled x.dst t (decodeFmt x.src t a.toNat) s rnd x.sat
    (BitVec.ofNat 32 r.1, r.2)

/-- The number of elements of a format in a register (R205). -/
def regCount (f : Fmt) : Nat := 32 / fmtWidth f

/-- Whether PACK and UNPK take the format code and the element index (R206). -/
def packOk (ctl : Word) : Bool :=
  match Fmt.ofCode (ctl.extractLsb' 0 5) with
  | none => false
  | some f => f != .f32 && f != .i32 && !f.machine && decide ((ctl.extractLsb' 8 4).toNat < regCount f)

/-- PACK: element k of vd replaced by the low bits of va (R206). -/
def packWord (a ctl d : Word) : Word :=
  match Fmt.ofCode (ctl.extractLsb' 0 5) with
  | none => d
  | some f =>
    let w := fmtWidth f
    let sh := w * (ctl.extractLsb' 8 4).toNat
    let mask : Word := BitVec.ofNat 32 ((2 ^ w - 1) * 2 ^ sh)
    (d &&& ~~~mask) ||| ((a <<< sh) &&& mask)

/-- UNPK: element k of va, zero-extended (R206). -/
def unpkWord (a ctl : Word) : Word :=
  match Fmt.ofCode (ctl.extractLsb' 0 5) with
  | none => a
  | some f => BitVec.ofNat 32 (elem (fmtWidth f) (ctl.extractLsb' 8 4).toNat a)

/-- The format of a codebook field (R208). -/
def cbFmt : CbFmt → Fmt
  | .cb4 => .cb4
  | .cb3 => .cb3
  | .cb2 => .cb2

/-- CBENC of one lane: the index, the residual and the flags (R208). -/
def cbencWord (x : OpCbenc) (t : Codebook) (a : Word) : Word × Word × Flags :=
  let v := decodeFloat (ftyParam x.src) a.toNat
  match fmtClass (cbFmt x.f) with
  | .codebook _ n =>
    let (i, fl) := encodeCodebook t n v
    let res : Nat :=
      if i = n then fpF32.absentCode
      else
        match v with
        | .inf s => infCode fpF32 s
        | _ => (convert (fsum v (t.entry i).neg .nearest).1 .f32 t .nearest false).1
    (BitVec.ofNat 32 i, BitVec.ofNat 32 res, fl)
  | _ => (0, 0, flag0)

/-- One BF16 half of CBDEC: an absent index gives 0xFFFF and a NaN entry the canonical NaN (R209). -/
def cbdecHalf (f : Fmt) (t : Codebook) (i : Nat) : Nat :=
  match decodeFmt f t i with
  | .absent => fpBF16.absentCode
  | .nan => fpBF16.nanCode
  | _ => (t.getD i 0xFFFF).toNat

/-- CBDEC of one lane (R209). -/
def cbdecWord (x : OpCbdec) (t : Codebook) (a : Word) : Word :=
  let f := cbFmt x.f
  let w := fmtWidth f
  (packElems 16 [(cbdecHalf f t (elem w (2 * x.p.toNat) a), flag0),
    (cbdecHalf f t (elem w (2 * x.p.toNat + 1) a), flag0)]).1

/-- ABSM: elements whose mask bit is 0 become absent (R210). -/
def absmWord (f : Fmt) (a d : Word) : Word :=
  let w := fmtWidth f
  let n := regCount f
  let hi := d.toNat / 2 ^ (w * n)
  BitVec.ofNat 32 (hi * 2 ^ (w * n)) |||
    (packElems w ((List.range n).map fun k =>
      (if a.getLsbD k then elem w k d else absentCode f, flag0))).1

/-- ABSC: bit k tells whether element k is present (R210). -/
def abscWord (f : Fmt) (a : Word) : Word :=
  let w := fmtWidth f
  (packElems 1 ((List.range (regCount f)).map fun k =>
    ((elem w k a != absentCode f).toNat, flag0))).1

/-! ### Combination steps of reductions (R75, R214) -/

/-- The format of a reduction type. -/
def redFmt : RedTy → Fmt
  | .f32 => .f32
  | .f16x2 => .f16
  | .bf16x2 => .bf16
  | .i32 => .i32
  | .i16x2 => .i16
  | .i8x4 => .i8
  | .i4x8 => .i4
  | .u8x4 => .u8

/-- One combination step on two codes of a format: the identity rule, then one rounding or saturation (R75);
a bitwise result equal to the absent pattern is written as the lowest present code, or 0xFE for .U8, and sets
SAT (R214). -/
def redElem (o : RedOp) (f : Fmt) (x y : Nat) : Nat × Flags :=
  match fmtClass f with
  | .float p =>
    let op : FloatOp := match o with | .mul => .mul | .min => .min | .max => .max | _ => .add
    floatElem op p none x y 0
  | .int _ lo _ ab =>
    match o with
    | .add => digElem .add f none x y 0
    | .mul => digElem .mul f none x y 0
    | .min => digElem .min f none x y 0
    | .max => digElem .max f none x y 0
    | .and | .or | .xor =>
      if x = ab then (y, flag0)
      else if y = ab then (x, flag0)
      else
        let r := match o with | .and => x &&& y | .or => x ||| y | _ => x ^^^ y
        if r = ab then (if lo < 0 then ab + 1 else ab - 1, flagSAT) else (r, flag0)
  | _ => (0, flag0)

end Sys2Proof.Machine
end

