-- ==== Sys2Proof/Machine/Integer.lean ====
section
/-! DEFINITION. Machine-word integer arithmetic, the 16-bit forms and data-typed integers (R153, R185 to R197). -/

namespace Sys2Proof.Machine

/-! ### Word functions -/

/-- Bytes of BSWZ (R187): result byte i of the pair hi:lo under a control word. -/
def bswzByte (lo hi ctl : Word) (i : Nat) : BitVec 8 :=
  let j := (ctl >>> (3 * i)).toNat % 8
  let x : BitVec 8 := ((hi ++ lo : DWord) >>> (8 * j)).setWidth 8
  let x := if ctl.getLsbD (12 + i) then 0 else x
  if ctl.getLsbD (16 + i) then ~~~x else x

/-- BSWZ (R187). -/
def bswzWord (lo hi ctl : Word) : Word := bswzByte lo hi ctl 3 ++ bswzByte lo hi ctl 2 ++ bswzByte lo hi ctl 1 ++ bswzByte lo hi ctl 0

/-- The number of one bits (R190). -/
def popcWord (a : Word) : Word := BitVec.ofNat 32 (((List.range 32).filter fun i => a.getLsbD i).length)

/-- Leading zeros, 32 for zero (R190). -/
def clzWord (a : Word) : Word := BitVec.ofNat 32 (if a = 0 then 32 else 31 - Nat.log2 a.toNat)

/-- Trailing zeros, 32 for zero (R190). -/
def ctzWord (a : Word) : Word := BitVec.ofNat 32 (((List.range 32).takeWhile fun i => !a.getLsbD i).length)

/-- The bits in reverse order (R190). -/
def brevWord (a : Word) : Word := maskOf fun i => a.getLsbD (31 - i)

/-- The magnitude as .S32; the lowest value stays (R190). -/
def iabsWord (a : Word) : Word := if a.getLsbD 31 then -a else a

/-- The position and length of a bit field (R190). -/
def fieldPos (b : Word) : Nat := b.toNat % 32

/-- The length of a bit field (R190). -/
def fieldLen (b : Word) : Nat := min (b.toNat / 256 % 64) 32

/-- BFX.U (R190). -/
def bfxUWord (a b : Word) : Word := BitVec.ofNat 32 (a.toNat / 2 ^ fieldPos b % 2 ^ fieldLen b)

/-- BFX.S (R190): bits above bit 31 read as bit 31, then the field is sign-extended. -/
def bfxSWord (a b : Word) : Word :=
  let n := fieldLen b
  if n = 0 then 0
  else
    let v := (a.sshiftRight (fieldPos b)).toNat % 2 ^ n
    if v / 2 ^ (n - 1) % 2 = 1 then BitVec.ofNat 32 (v + (2 ^ 32 - 2 ^ n)) else BitVec.ofNat 32 v

/-- BFI (R190): bits pos to min(pos + len, 32) - 1 of d become the low bits of a. -/
def bfiWord (a b d : Word) : Word :=
  let p := fieldPos b
  let n := fieldLen b
  let mask := maskOf fun i => decide (p ≤ i) && decide (i < p + n)
  (d &&& ~~~mask) ||| ((a <<< p) &&& mask)

/-- The exact product as signed numbers, 64 bits (R189). -/
def mulS (a b : Word) : DWord := a.signExtend 64 * b.signExtend 64

/-- The exact product as unsigned numbers, 64 bits (R189). -/
def mulU (a b : Word) : DWord := a.setWidth 64 * b.setWidth 64

/-- The upper half of a 64-bit value. -/
def hiHalf (p : DWord) : Word := p.extractLsb' 32 32

/-- The lower half of a 64-bit value. -/
def loHalf (p : DWord) : Word := p.extractLsb' 0 32

/-- A truth value as a predicate register (R28). -/
def boolWord (b : Bool) : Word := if b then 1 else 0

/-- The conditions of ICMP on words (R191). -/
def icmpWord (c : IcmpCond) (a b : Word) (a64 b64 : DWord) : Bool :=
  match c with
  | .eq => a == b
  | .ne => a != b
  | .ltS => a.slt b
  | .leS => a.sle b
  | .ltU => a.ult b
  | .leU => a.ule b
  | .eq64 => a64 == b64
  | .lt64U => a64.ult b64

/-- The conditions of CMPI (R195). -/
def cmpiWord (c : CmpiCond) (a b : Word) : Bool :=
  match c with
  | .eq => a == b
  | .ne => a != b
  | .ltS => a.slt b
  | .leS => a.sle b
  | .ltU => a.ult b
  | .leU => a.ule b

/-! ### Shapes -/

/-- An instruction that writes one register a function of va, vb and the old vd. -/
def alu3 (s : State) (i : Instr) (x : OpA) (f : Word → Word → Word → Word) : Host.Outcome State Fault Refusal :=
  issue s i fun c => .next (finish s c x.m x.t
    [(x.d.toNat, fun l => f (c.reg x.a.toNat l) (c.reg x.b.toNat l) (c.reg x.d.toNat l))] flag0)

/-- An instruction that writes one register a function of the pair va:va+1 and vb. -/
def aluPair (s : State) (i : Instr) (x : OpA) (f : DWord → Word → Word) : Host.Outcome State Fault Refusal :=
  issue s i fun c => .next (finish s c x.m x.t
    [(x.d.toNat, fun l => f (c.pair x.a.toNat l) (c.reg x.b.toNat l))] flag0)

/-- The two halves of a 64-bit result for a pair of registers (R28). -/
def pairWrites (d : Nat) (f : Nat → DWord) : Writes := [(d, fun l => loHalf (f l)), (d + 1, fun l => hiHalf (f l))]

/-- A 64-bit shift (R188). -/
def aluShift64 (s : State) (i : Instr) (x : OpA) (f : DWord → Nat → DWord) : Host.Outcome State Fault Refusal :=
  issue s i fun c => .next (finish s c x.m x.t
    (pairWrites x.d.toNat fun l => f (c.pair x.a.toNat l) ((c.reg x.b.toNat l).toNat % 64)) flag0)

/-- A multiplication with a 64-bit result (R189). -/
def aluWide (s : State) (i : Instr) (x : OpA) (f : Word → Word → DWord) : Host.Outcome State Fault Refusal :=
  issue s i fun c => .next (finish s c x.m x.t
    (pairWrites x.d.toNat fun l => f (c.reg x.a.toNat l) (c.reg x.b.toNat l)) flag0)

/-- An instruction with one source. -/
def alu1 (s : State) (i : Instr) (x : OpA2) (f : Word → Word) : Host.Outcome State Fault Refusal :=
  issue s i fun c => .next (finish s c x.m x.t [(x.d.toNat, fun l => f (c.reg x.a.toNat l))] flag0)

/-- A 16-bit instruction on machine words (R153). -/
def half2 (s : State) (i : Instr) (x : OpH) (f : Word → Word → Word) : Host.Outcome State Fault Refusal :=
  issue s i fun c => .next (finish s c none false
    [(x.d.toNat, fun l => f (c.reg x.d.toNat l) (c.reg x.s.toNat l))] flag0)

/-- A 16-bit instruction in the arithmetic of F32 (R153). -/
def halfF (s : State) (i : Instr) (x : OpH) (o : FloatOp) : Host.Outcome State Fault Refusal :=
  issue s i fun c =>
    let r := fun l => floatWord o .f32 none (c.reg x.d.toNat l) (c.reg x.s.toNat l) 0
    .next (finish s c none false [(x.d.toNat, fun l => (r l).1)]
      ((c.act none).foldl (fun f l => f ||| (r l).2) flag0))

/-- An instruction with an 11-bit immediate (R193). -/
def aluImm (s : State) (i : Instr) (x : OpI) (f : Word → Word → Word) : Host.Outcome State Fault Refusal :=
  issue s i fun c => .next (finish s c x.m false [(x.d.toNat, fun l => f (c.reg x.a.toNat l) (x.i.signExtend 32))] flag0)

/-- A shift by an immediate (R194). -/
def aluShiftImm (s : State) (i : Instr) (x : OpISh) (f : Word → Nat → Word) : Host.Outcome State Fault Refusal :=
  issue s i fun c => .next (finish s c x.m false [(x.d.toNat, fun l => f (c.reg x.a.toNat l) x.n.toNat)] flag0)

/-- The lanes whose operands an instruction computes on: the lowest active lane alone in the uniform form. -/
def Ctx.srcLanes (c : Ctx) (m : Option Modifier) : List Nat := if isUniform m then (c.act m).take 1 else c.act m

/-- The union of the flags that the computing lanes raise (R72). -/
def Ctx.flagsOf (c : Ctx) (m : Option Modifier) (f : Nat → Flags) : Flags :=
  (c.srcLanes m).foldl (fun r l => r ||| f l) flag0

/-- A data-typed integer instruction (R192). -/
def aluDig (s : State) (i : Instr) (o : DigOp) (y : DigTy) (d a b : Nat) (t : Bool) (m : Option Modifier) :
    Host.Outcome State Fault Refusal :=
  issue s i fun c =>
    let r := fun l => digWord o y m (c.reg a l) (c.reg b l) (c.reg d l)
    .next (finish s c m t [(d, fun l => (r l).1)] (c.flagsOf m fun l => (r l).2))

/-! ### The 16-bit forms (R153) -/

/-- MOV: vd := vs (R153). -/
def execMov16 (x : OpH) (s : State) : Host.Outcome State Fault Refusal :=
  half2 s (.mov16 x) x (fun _ b => b)

/-- ADD (R153, R186). -/
def execAdd16 (x : OpH) (s : State) : Host.Outcome State Fault Refusal :=
  half2 s (.add16 x) x (fun a b => a + b)

/-- SUB (R153, R186). -/
def execSub16 (x : OpH) (s : State) : Host.Outcome State Fault Refusal :=
  half2 s (.sub16 x) x (fun a b => a - b)

/-- AND (R153, R187). -/
def execAnd16 (x : OpH) (s : State) : Host.Outcome State Fault Refusal :=
  half2 s (.and16 x) x (fun a b => a &&& b)

/-- OR (R153, R187). -/
def execOr16 (x : OpH) (s : State) : Host.Outcome State Fault Refusal :=
  half2 s (.or16 x) x (fun a b => a ||| b)

/-- XOR (R153, R187). -/
def execXor16 (x : OpH) (s : State) : Host.Outcome State Fault Refusal :=
  half2 s (.xor16 x) x (fun a b => a ^^^ b)

/-- SHL (R153, R188). -/
def execShl16 (x : OpH) (s : State) : Host.Outcome State Fault Refusal :=
  half2 s (.shl16 x) x (fun a b => a <<< (b.toNat % 32))

/-- SHR, logical (R153, R188). -/
def execShr16 (x : OpH) (s : State) : Host.Outcome State Fault Refusal :=
  half2 s (.shr16 x) x (fun a b => a >>> (b.toNat % 32))

/-- ADDI5: vd := vd + sign_extend(imm5) (R153). -/
def execAddi5 (x : OpH) (s : State) : Host.Outcome State Fault Refusal :=
  half2 s (.addi5 x) x fun a _ => a + x.s.signExtend 32

/-- MOVI5: vd := sign_extend(imm5) (R153). -/
def execMovi5 (x : OpH) (s : State) : Host.Outcome State Fault Refusal :=
  half2 s (.movi5 x) x fun _ _ => x.s.signExtend 32

/-- FADD.F32 in form H (R153, R199). -/
def execFadd16 (x : OpH) (s : State) : Host.Outcome State Fault Refusal :=
  halfF s (.fadd16 x) x .add

/-- FMUL.F32 in form H (R153, R199). -/
def execFmul16 (x : OpH) (s : State) : Host.Outcome State Fault Refusal :=
  halfF s (.fmul16 x) x .mul

/-- FMAX.F32 in form H (R153, R199). -/
def execFmax16 (x : OpH) (s : State) : Host.Outcome State Fault Refusal :=
  halfF s (.fmax16 x) x .max

/-- FMIN.F32 in form H (R153, R199). -/
def execFmin16 (x : OpH) (s : State) : Host.Outcome State Fault Refusal :=
  halfF s (.fmin16 x) x .min

/-- IMUL: MUL.LO (R153, R189). -/
def execImul16 (x : OpH) (s : State) : Host.Outcome State Fault Refusal :=
  half2 s (.imul16 x) x fun a b => a * b

/-- NOP: no effect; it counts as one instruction (R33, R153). -/
def execNop (s : State) : Host.Outcome State Fault Refusal :=
  issue s .nop fun c => .next (finishPlain s c)

/-! ### Form A (R186 to R191) -/

/-- ADD (R186). -/
def execAdd (x : OpA) (s : State) : Host.Outcome State Fault Refusal :=
  alu3 s (.add x) x fun a b _ => a + b

/-- SUB (R186). -/
def execSub (x : OpA) (s : State) : Host.Outcome State Fault Refusal :=
  alu3 s (.sub x) x fun a b _ => a - b

/-- ADDC: the carry out of va + vb (R186). -/
def execAddc (x : OpA) (s : State) : Host.Outcome State Fault Refusal :=
  alu3 s (.addc x) x fun a b _ => boolWord (decide (2 ^ 32 ≤ a.toNat + b.toNat))

/-- SUBB: the borrow of va - vb (R186). -/
def execSubb (x : OpA) (s : State) : Host.Outcome State Fault Refusal :=
  alu3 s (.subb x) x fun a b _ => boolWord (a.ult b)

/-- MIN.S (R186). -/
def execMinS (x : OpA) (s : State) : Host.Outcome State Fault Refusal :=
  alu3 s (.minS x) x fun a b _ => if b.slt a then b else a

/-- MAX.S (R186). -/
def execMaxS (x : OpA) (s : State) : Host.Outcome State Fault Refusal :=
  alu3 s (.maxS x) x fun a b _ => if a.slt b then b else a

/-- MIN.U (R186). -/
def execMinU (x : OpA) (s : State) : Host.Outcome State Fault Refusal :=
  alu3 s (.minU x) x fun a b _ => if b.ult a then b else a

/-- MAX.U (R186). -/
def execMaxU (x : OpA) (s : State) : Host.Outcome State Fault Refusal :=
  alu3 s (.maxU x) x fun a b _ => if a.ult b then b else a

/-- AND (R187). -/
def execAnd (x : OpA) (s : State) : Host.Outcome State Fault Refusal :=
  alu3 s (.and x) x fun a b _ => a &&& b

/-- OR (R187). -/
def execOr (x : OpA) (s : State) : Host.Outcome State Fault Refusal :=
  alu3 s (.or x) x fun a b _ => a ||| b

/-- XOR (R187). -/
def execXor (x : OpA) (s : State) : Host.Outcome State Fault Refusal :=
  alu3 s (.xor x) x fun a b _ => a ^^^ b

/-- ANDN (R187). -/
def execAndn (x : OpA) (s : State) : Host.Outcome State Fault Refusal :=
  alu3 s (.andn x) x fun a b _ => a &&& ~~~b

/-- ORN (R187). -/
def execOrn (x : OpA) (s : State) : Host.Outcome State Fault Refusal :=
  alu3 s (.orn x) x fun a b _ => a ||| ~~~b

/-- XNOR (R187). -/
def execXnor (x : OpA) (s : State) : Host.Outcome State Fault Refusal :=
  alu3 s (.xnor x) x fun a b _ => ~~~(a ^^^ b)

/-- SEL: va if bit 0 of the old vd is 1, else vb (R187). -/
def execSel (x : OpA) (s : State) : Host.Outcome State Fault Refusal :=
  alu3 s (.sel x) x fun a b d => if d.getLsbD 0 then a else b

/-- BSWZ: bytes of va:va+1 by the control word vb (R187). -/
def execBswz (x : OpA) (s : State) : Host.Outcome State Fault Refusal :=
  aluPair s (.bswz x) x fun p ctl => bswzWord (loHalf p) (hiHalf p) ctl

/-- SHL (R188). -/
def execShl (x : OpA) (s : State) : Host.Outcome State Fault Refusal :=
  alu3 s (.shl x) x fun a b _ => a <<< (b.toNat % 32)

/-- SHR (R188). -/
def execShr (x : OpA) (s : State) : Host.Outcome State Fault Refusal :=
  alu3 s (.shr x) x fun a b _ => a >>> (b.toNat % 32)

/-- SAR (R188). -/
def execSar (x : OpA) (s : State) : Host.Outcome State Fault Refusal :=
  alu3 s (.sar x) x fun a b _ => a.sshiftRight (b.toNat % 32)

/-- ROL (R188). -/
def execRol (x : OpA) (s : State) : Host.Outcome State Fault Refusal :=
  alu3 s (.rol x) x fun a b _ => a.rotateLeft (b.toNat % 32)

/-- SHL64 of the pair va:va+1 by vb bits 5:0 (R188). -/
def execShl64 (x : OpA) (s : State) : Host.Outcome State Fault Refusal :=
  aluShift64 s (.shl64 x) x fun p n => p <<< n

/-- SHR64 of the pair va:va+1 by vb bits 5:0 (R188). -/
def execShr64 (x : OpA) (s : State) : Host.Outcome State Fault Refusal :=
  aluShift64 s (.shr64 x) x fun p n => p >>> n

/-- SAR64 of the pair va:va+1 by vb bits 5:0 (R188). -/
def execSar64 (x : OpA) (s : State) : Host.Outcome State Fault Refusal :=
  aluShift64 s (.sar64 x) x fun p n => p.sshiftRight n

/-- FSHF: bits n + 31 to n of va:va+1 (R188). -/
def execFshf (x : OpA) (s : State) : Host.Outcome State Fault Refusal :=
  aluPair s (.fshf x) x fun p b => loHalf (p >>> (b.toNat % 32))

/-- MUL.LO (R189). -/
def execMulLo (x : OpA) (s : State) : Host.Outcome State Fault Refusal :=
  alu3 s (.mulLo x) x fun a b _ => a * b

/-- MUL.HI.S (R189). -/
def execMulHiS (x : OpA) (s : State) : Host.Outcome State Fault Refusal :=
  alu3 s (.mulHiS x) x fun a b _ => hiHalf (mulS a b)

/-- MUL.HI.U (R189). -/
def execMulHiU (x : OpA) (s : State) : Host.Outcome State Fault Refusal :=
  alu3 s (.mulHiU x) x fun a b _ => hiHalf (mulU a b)

/-- MAD.LO (R189). -/
def execMadLo (x : OpA) (s : State) : Host.Outcome State Fault Refusal :=
  alu3 s (.madLo x) x fun a b d => d + a * b

/-- MAD.HI.S (R189). -/
def execMadHiS (x : OpA) (s : State) : Host.Outcome State Fault Refusal :=
  alu3 s (.madHiS x) x fun a b d => d + hiHalf (mulS a b)

/-- MAD.HI.U (R189). -/
def execMadHiU (x : OpA) (s : State) : Host.Outcome State Fault Refusal :=
  alu3 s (.madHiU x) x fun a b d => d + hiHalf (mulU a b)

/-- MUL.WIDE.S: the whole signed product in vd:vd+1 (R189). -/
def execMulWideS (x : OpA) (s : State) : Host.Outcome State Fault Refusal :=
  aluWide s (.mulWideS x) x mulS

/-- MUL.WIDE.U: the whole unsigned product in vd:vd+1 (R189). -/
def execMulWideU (x : OpA) (s : State) : Host.Outcome State Fault Refusal :=
  aluWide s (.mulWideU x) x mulU

/-- POPC (R190). -/
def execPopc (x : OpA2) (s : State) : Host.Outcome State Fault Refusal :=
  alu1 s (.popc x) x popcWord

/-- CLZ (R190). -/
def execClz (x : OpA2) (s : State) : Host.Outcome State Fault Refusal :=
  alu1 s (.clz x) x clzWord

/-- CTZ (R190). -/
def execCtz (x : OpA2) (s : State) : Host.Outcome State Fault Refusal :=
  alu1 s (.ctz x) x ctzWord

/-- BREV (R190). -/
def execBrev (x : OpA2) (s : State) : Host.Outcome State Fault Refusal :=
  alu1 s (.brev x) x brevWord

/-- BFX.U (R190). -/
def execBfxU (x : OpA) (s : State) : Host.Outcome State Fault Refusal :=
  alu3 s (.bfxU x) x fun a b _ => bfxUWord a b

/-- BFX.S (R190). -/
def execBfxS (x : OpA) (s : State) : Host.Outcome State Fault Refusal :=
  alu3 s (.bfxS x) x fun a b _ => bfxSWord a b

/-- BFI (R190). -/
def execBfi (x : OpA) (s : State) : Host.Outcome State Fault Refusal :=
  alu3 s (.bfi x) x fun a b d => bfiWord a b d

/-- IABS (R190). -/
def execIabs (x : OpA2) (s : State) : Host.Outcome State Fault Refusal :=
  alu1 s (.iabs x) x iabsWord

/-- ICMP: 1 if the condition holds, else 0 (R191). -/
def execIcmp (x : OpIcmp) (s : State) : Host.Outcome State Fault Refusal :=
  issue s (.icmp x) fun c => .next (finish s c x.m x.t
    [(x.d.toNat, fun l => boolWord (icmpWord x.c (c.reg x.a.toNat l) (c.reg x.b.toNat l)
      (c.pair x.a.toNat l) (c.pair x.b.toNat l)))] flag0)

/-! ### Data-typed integers (R192) -/

/-- DADD (R192). -/
def execDadd (x : OpDigT) (s : State) : Host.Outcome State Fault Refusal :=
  aluDig s (.dadd x) .add x.y x.d.toNat x.a.toNat x.b.toNat x.t x.m

/-- DSUB (R192). -/
def execDsub (x : OpDigT) (s : State) : Host.Outcome State Fault Refusal :=
  aluDig s (.dsub x) .sub x.y x.d.toNat x.a.toNat x.b.toNat x.t x.m

/-- DMUL (R192). -/
def execDmul (x : OpDig) (s : State) : Host.Outcome State Fault Refusal :=
  aluDig s (.dmul x) .mul x.y x.d.toNat x.a.toNat x.b.toNat false x.m

/-- DMAD (R192). -/
def execDmad (x : OpDig) (s : State) : Host.Outcome State Fault Refusal :=
  aluDig s (.dmad x) .mad x.y x.d.toNat x.a.toNat x.b.toNat false x.m

/-- DMIN (R192). -/
def execDmin (x : OpDig) (s : State) : Host.Outcome State Fault Refusal :=
  aluDig s (.dmin x) .min x.y x.d.toNat x.a.toNat x.b.toNat false x.m

/-- DMAX (R192). -/
def execDmax (x : OpDig) (s : State) : Host.Outcome State Fault Refusal :=
  aluDig s (.dmax x) .max x.y x.d.toNat x.a.toNat x.b.toNat false x.m

/-! ### Immediates and addresses (R193 to R197) -/

/-- ADDI (R193). -/
def execAddi (x : OpI) (s : State) : Host.Outcome State Fault Refusal :=
  aluImm s (.addi x) x fun a b => a + b

/-- ANDI (R193). -/
def execAndi (x : OpI) (s : State) : Host.Outcome State Fault Refusal :=
  aluImm s (.andi x) x fun a b => a &&& b

/-- ORI (R193). -/
def execOri (x : OpI) (s : State) : Host.Outcome State Fault Refusal :=
  aluImm s (.ori x) x fun a b => a ||| b

/-- XORI (R193). -/
def execXori (x : OpI) (s : State) : Host.Outcome State Fault Refusal :=
  aluImm s (.xori x) x fun a b => a ^^^ b

/-- SHLI (R194). -/
def execShli (x : OpISh) (s : State) : Host.Outcome State Fault Refusal :=
  aluShiftImm s (.shli x) x fun a n => a <<< n

/-- SHRI (R194). -/
def execShri (x : OpISh) (s : State) : Host.Outcome State Fault Refusal :=
  aluShiftImm s (.shri x) x fun a n => a >>> n

/-- SARI (R194). -/
def execSari (x : OpISh) (s : State) : Host.Outcome State Fault Refusal :=
  aluShiftImm s (.sari x) x fun a n => a.sshiftRight n

/-- CMPI: va against sign_extend(imm8) (R195). -/
def execCmpi (x : OpCmpi) (s : State) : Host.Outcome State Fault Refusal :=
  issue s (.cmpi x) fun c => .next (finish s c x.m false
    [(x.d.toNat, fun l => boolWord (cmpiWord x.c (c.reg x.a.toNat l) (x.i.signExtend 32)))] flag0)

/-- MOVW: zero_extend(imm16) (R196). -/
def execMovw (x : OpW) (s : State) : Host.Outcome State Fault Refusal :=
  issue s (.movw x) fun c => .next (finish s c x.m false [(x.d.toNat, fun _ => x.i.setWidth 32)] flag0)

/-- MOVT: imm16 above the low half of vd (R196). -/
def execMovt (x : OpW) (s : State) : Host.Outcome State Fault Refusal :=
  issue s (.movt x) fun c => .next (finish s c x.m false
    [(x.d.toNat, fun l => x.i ++ (c.reg x.d.toNat l).extractLsb' 0 16)] flag0)

/-- MOVS: sign_extend(imm16) (R196). -/
def execMovs (x : OpW) (s : State) : Host.Outcome State Fault Refusal :=
  issue s (.movs x) fun c => .next (finish s c x.m false [(x.d.toNat, fun _ => x.i.signExtend 32)] flag0)

/-- LEA: va:va+1 + (sign_extend(vb) << sh), modulo 2^64; no memory is accessed (R197). -/
def execLea (x : OpLea) (s : State) : Host.Outcome State Fault Refusal :=
  issue s (.lea x) fun c => .next (finish s c x.m x.t
    (pairWrites x.d.toNat fun l => c.pair x.a.toNat l + ((c.reg x.b.toNat l).signExtend 64 <<< x.h.toNat)) flag0)

end Sys2Proof.Machine
end

