-- ==== Sys2Proof/Machine/Memory.lean ====
section
/-! DEFINITION. Loads, stores, atomics and the phase instructions (R218 to R226), and the landing of loads. -/

namespace Sys2Proof.Machine

/-! ### Effective addresses and their checks (R218) -/

/-- The effective address of a lane: what EADDR reports, the group and offset that locks compare, whether it is
misaligned or outside its space, and its place where no translation is needed. -/
structure Ea where
  lane : Nat
  va : DWord
  gid : Nat
  off : Nat
  mis : Bool
  prot : Bool
  loc : Option Loc
  deriving DecidableEq, Repr

/-- The effective address of n bytes that a lane forms from an address operand and an offset (R82, R83, R88, R218). Where
the offset of an N access carries out of bits 28:0, the address reported holds the sum, carry and all (DESIGN CHOICE,
log 70). -/
def Ctx.ea (s : State) (c : Ctx) (p : Space) (a : Nat) (off : DWord) (n l : Nat) : Ea :=
  match p with
  | .s =>
    let o := (c.reg a l).toNat + off.toNat
    ⟨l, BitVec.ofNat 64 o, c.grp.gid, o, decide (o % n ≠ 0), decide (c.grp.sBytes < o + n), some (.sram c.grp.gid o)⟩
  | .n =>
    let v := (c.reg a l).toNat
    let o := v % 2 ^ 29 + off.toNat
    let va := BitVec.ofNat 64 (v / 2 ^ 29 * 2 ^ 29 + o)
    match s.member? c.grp (v / 2 ^ 29) with
    | none => ⟨l, va, c.grp.gid, o, decide (o % n ≠ 0), true, none⟩
    | some g => ⟨l, va, g.gid, o, decide (o % n ≠ 0), decide (g.nBytes < o + n) || decide (2 ^ 29 < o + n), some (.nram g.gid o)⟩
  | .g =>
    let va := c.pair a l + off
    ⟨l, va, 0, va.toNat, decide (va.toNat % n ≠ 0), !canonical va, none⟩

/-- The number of a space in the range-lock table. -/
def spaceNum (p : Space) : Nat := p.code.toNat

/-- Whether an announcement record that a core locks is still pending (R96); one that no longer translates counts as
pending. -/
def State.recordPending (s : State) (core asid lo : Nat) : Bool :=
  match s.translate core asid .read (BitVec.ofNat 64 lo) with
  | .bad _ => true
  | .ok a => decide ((s.home (a + 4)).toNat = 1)

/-- Whether an access of a group meets a range that its core has locked (R96, R322). -/
def State.lockedAt (s : State) (g : Group) (p : Space) (e : Ea) (n : Nat) : Bool :=
  (s.core g.core).locks.any fun k =>
    if k.space = 4 then
      p == .g && k.asid == g.asid && meets k.lo k.len e.off n && s.recordPending g.core g.asid k.lo
    else k.hit (spaceNum p) g.asid e.off n

/-- What the checks of an access give: an exception taken, or the places of its lanes and the lanes whose address
missed translation (which only kind 1 leaves, R317). -/
inductive Checked where
  | trap (s : State)
  | go (s : State) (acc : List (Ea × Loc)) (miss : List (Ea × XFault))

/-- The places of effective addresses, and those that miss translation. -/
def State.places (s : State) (g : Group) (wr : Bool) : List Ea → List (Ea × Loc) × List (Ea × XFault)
  | [] => ([], [])
  | e :: r =>
    let q := s.places g wr r
    match e.loc with
    | some l => ((e, l) :: q.1, q.2)
    | none =>
      match s.translate g.core g.asid (if wr then .write else .read) e.va with
      | .ok a => ((e, .phys a) :: q.1, q.2)
      | .bad f => (q.1, (e, f) :: q.2)

/-- The core that the race detector blames for an access, if any (R151). -/
def State.raceOf (s : State) (g : Group) (x : Ea × Loc) : Option Nat :=
  match x.2 with
  | .phys a => if isPeer a then none else s.racer g.part g.core a
  | _ => none

/-- Marks the sector of an access as reported to its core. -/
def State.raceMark (s : State) (g : Group) (x : Ea × Loc) : State :=
  match x.2 with
  | .phys a => s.raceReported g.core a
  | _ => s

/-- A logged race report: an answered entry at TAIL, dropped where that entry is pending (R323). -/
def State.logRace (s : State) (g : Group) (w : Warp) (epc va : DWord) (d : Nat) (wr : Bool) : State :=
  let p := s.part g.part
  let i := p.fqTail
  if s.fqPending p i then s
  else
    let f : FaultReq := ⟨va, epc, ownerWord g.core w.slot 0, g.asid, BitVec.ofNat 32 d, 4, 15, 0, 0, wr, false, g.core / 128,
      .warp g.gid w.idx⟩
    let s := s.hardLand portCore g.part (putAt (p.fqEntry i) (natBytes 32 (f.entry 1 2)))
    s.setPart g.part (p.setFq ((i + 1) % p.fqCap) (p.fqctl.getLsbD 12))

/-- Logs every race of an access, lane by lane (R323). -/
def State.logRaces (s : State) (c : Ctx) (wr : Bool) : List (Ea × Loc) → State
  | [] => s
  | x :: r =>
    match s.raceOf c.grp x with
    | none => s.logRaces c wr r
    | some d => ((s.logRace c.grp c.warp c.cur.pc x.1.va d wr).raceMark c.grp x).logRaces c wr r

/-- The race check of a plain access: the RACE trap of the lowest lane that fails it, or log entries (R151, R323). -/
def checkRaces (s : State) (c : Ctx) (wr : Bool) (acc : List (Ea × Loc)) (miss : List (Ea × XFault)) : Checked :=
  if (s.part c.grp.part).racecfg.getLsbD 1 then .go (s.logRaces c wr acc) acc miss
  else
    match findBy (fun x => (s.raceOf c.grp x).isSome) acc with
    | none => .go s acc miss
    | some x => .trap (raise (s.raceMark c.grp x) c 4 (BitVec.ofNat 32 ((s.raceOf c.grp x).getD 0)) x.1.va)

/-- The checks of an access, over every lane in turn: alignment, protection, translation, range locks and, for a plain
access, races (R218, R317). A store of kind 1 that misses translation is deferred whole before its locks are checked. -/
def checkAccess (s : State) (c : Ctx) (p : Space) (n : Nat) (wr plain : Bool) (es : List Ea) : Checked :=
  match findBy (fun e => e.mis) es with
  | some e => .trap (raise s c 0x26 0 e.va)
  | none =>
    match findBy (fun e => e.prot) es with
    | some e => .trap (raise s c 0x25 0 e.va)
    | none =>
      let q := s.places c.grp wr es
      match q.2 with
      | [] =>
        match findBy (fun e => s.lockedAt c.grp p e n) es with
        | some e => .trap (raise s c 3 0 e.va)
        | none => if plain && p == .g then checkRaces s c wr q.1 [] else .go s q.1 []
      | (e, f) :: r =>
        if !c.kindOne then .trap (xlatTrap s c wr f)
        else if wr then .go s q.1 ((e, f) :: r)
        else
          match findBy (fun x => s.lockedAt c.grp p x.1 n) q.1 with
          | some x => .trap (raise s c 3 0 x.1.va)
          | none => if plain then checkRaces s c wr q.1 ((e, f) :: r) else .go s q.1 ((e, f) :: r)

/-! ### Reading -/

/-- The number in n bytes of a place as a load of a core reads it for a partition (R84, R138). -/
def State.loadNat (s : State) (c part : Nat) (l : Loc) (n : Nat) : Nat :=
  match l with
  | .phys a => readNat (s.farByte c part) a n
  | _ => s.locNat l n

/-- The partition of a group. -/
def State.partOfGroup (s : State) (gid : Nat) : Nat := ((s.group? gid).map fun g => g.part).getD 0xFF

/-- Whether n bytes of the home copy of a place reach a sector marked as poisoned (R348). -/
def State.locMarked (s : State) (l : Loc) (n : Nat) : Bool :=
  match l with
  | .phys a => (List.range n).any fun i => s.marked (a + i)
  | .sram g a => match s.group? g with
    | some x => (List.range n).any fun i => smGet 0 x.sSpoil ((a + i) / 32) != 0
    | none => false
  | .nram g a => match s.group? g with
    | some x => (List.range n).any fun i => smGet 0 x.nSpoil ((a + i) / 32) != 0
    | none => false

/-- Marks the sectors that n bytes of a place reach (R348). -/
def State.markLoc (s : State) (l : Loc) (n : Nat) : State :=
  let secs := fun (a : Nat) => ((List.range n).map fun i => (a + i) / 32).eraseDups
  match l with
  | .phys a => s.spoilFar (wholeMarks (secs (rawAddr a)))
  | .sram g a => s.updGroup g fun x => { x with sSpoil := addSpoil x.sSpoil (secs a) }
  | .nram g a => s.updGroup g fun x => { x with nSpoil := addSpoil x.nSpoil (secs a) }

/-- Whether a load of a core for a partition reads a sector marked as poisoned (R219, R348). -/
def State.spoiledAt (s : State) (c part : Nat) (l : Loc) (n : Nat) : Bool :=
  match l with
  | .phys a => (List.range n).any fun i => s.markFor c part (sectorOf (a + i)) != 0
  | _ => s.locMarked l n

/-- The lanes of a value in flight that an access serves have their value; `bad` marks it poisoned. -/
def Fly.answer (f : Fly) (mask : Word) (vs : List Word) (bad : Bool) : Fly :=
  let f := (lanesOf mask).foldl (fun f l => f.put l vs) f
  if bad then
    { f with poison := f.poison ++ f.vals.flatMap fun p => (lanesOf mask).map fun l => regKey p.1 l }
  else f

/-- Removes an access from those still to be made. -/
def Fly.drop (f : Fly) (t : Todo) : Fly := { f with todo := f.todo.filter fun x => x != t }

/-- An access waits until it may be tried again. -/
def Fly.hold (f : Fly) (t : Todo) : Fly :=
  { f with todo := f.todo.map fun x => if x = t then { x with waiting := true } else x }

/-- Whether some port of the module is linked: no other way leads in or out (R1, R353). -/
def State.linked (s : State) : Bool := !s.boot.links.isEmpty

/-- Sends a message through the ports; one that finds no port linked is lost. -/
def State.send (s : State) (m : Message) : State := if s.linked then { s with messages := s.messages ++ [m] } else s

/-- Sends a message of a kind to a destination in a traffic class, under no peer entry (R298, R330). Kinds: 0 remote
write, 1 remote read, 2 remote atomic, 3 endpoint message, 4 watch registration, 5 watch notification, 6 announcement,
7 reply to a command, 8 storage command, 9 wake, 10 watch cancel, 11 answer to a remote operation, 12 reply to a
management message. -/
def State.sendMessage (s : State) (kind dest tc : Nat) (ws : List DWord) : State := s.send ⟨kind, dest, tc, none, 0, 0, 0, 0, ws⟩

/-- The remote address and the peer entry of an address in a peer window. -/
def peerRemote (a : Nat) : Nat := a % peerBase
def peerIndex (a : Nat) : Nat := a / peerBase - 1

/-- The fields of a peer-table entry, by the number of a window (R331). -/
def State.peerFields (s : State) (k : Nat) : PeerEntry :=
  let e := s.homeNat (s.peerEntry (k / 256) (k % 256)) 32
  ⟨e / 2 ^ 128, e / 2 ^ 112 % 2 ^ 16, e / 2 ^ 104 % 2 ^ 8, e / 2 ^ 72 % 2 ^ 32, e / 2 ^ 64 % 2 ^ 3, e % 2 ^ 8⟩

/-- The class and the ordered flow that an instruction names itself; loads, stores and atomics take the entry's. -/
abbrev Lane := Nat × Option Nat

/-- Sends a message under a peer entry for a context, in the class and flow named or else in the entry's (R331). -/
def State.sendPeer (s : State) (kind k : Nat) (lane : Option Lane) (asid : Nat) (ws : List DWord) : State :=
  let e := s.peerFields k
  let l := lane.getD (e.tc, some e.flow)
  s.send ⟨kind, e.peer, l.1, l.2, e.rasid, e.rpart, e.job, asid, ws⟩

/-- Sends a storage command in a capsule on reliable ordered delivery in class 6, on the flow of its queue pair (R262, R338). -/
def State.sendCapsule (s : State) (dest flow asid : Nat) (ws : List DWord) : State := s.send ⟨8, dest, 6, some flow, 0, 0, 0, asid, ws⟩

/-- Answers a command message on its own flow, on reliable ordered delivery (R298). Flow 0 is the firmware core's own and needs no
port. -/
def State.sendReply (s : State) (flow : Nat) (ws : List DWord) : State :=
  let m : Message := ⟨7, flow, 6, some flow, 0, 0, 0, 0, ws⟩
  if flow = 0 then { s with messages := s.messages ++ [m] } else s.send m

/-- Bytes as 64-bit words of a message. -/
def packData (bs : List Byte) : List DWord :=
  (List.range ((bs.length + 7) / 8)).map fun i => BitVec.ofNat 64 (bytesNat ((bs.drop (8 * i)).take 8))

/-- A network operation on behalf of a group: `k` is its kind, `ls` its words by lane. -/
def State.netOp (s : State) (g : Group) (widx k : Nat) (args : List Word) (ls : List (List Word)) (mask : Word)
    (fly : Nat) : State :=
  { s with
    ops := s.ops ++ [⟨s.uid, .net k, g.gid, widx, g.core, g.asid, args, ls, mask, fly, 0, none, [], [], s.tick47 / 47, false, false, none, g.part, s.payer g.part⟩]
    uid := s.uid + 1 }

/-- Asks a peer for the line of an address (R223): network operations of kind 7 fill a line of the phase cache. They know the
writes to peers that are still on their way, whose bytes the line may not show. -/
def State.askLine (s : State) (g : Group) (widx a fly : Nat) : State :=
  let line := a / 128
  let flying := (s.ops.filter fun o => o.kind == .net 6).map fun o => o.id
  let t := s.netOp g widx 7 [] [[BitVec.ofNat 32 line, BitVec.ofNat 32 (line / 2 ^ 32), BitVec.ofNat 32 (line / 2 ^ 64)]] 0 fly
  let known := { t with ops := updateBy (fun o => o.id == s.uid) (fun o => { o with snap := flying }) t.ops }
  known.sendPeer 1 (peerIndex a) none g.asid [BitVec.ofNat 64 (128 * (peerRemote a / 128)), 128]

/-- The lanes of an access of a load read its place; those of an absent peer line ask for it first (R223). -/
def State.readTodo (s : State) (g : Group) (w : Warp) (id : Nat) (f : Fly) (t : Todo) (l : Loc) : State :=
  let absent := match l with
    | .phys a => isPeer a && ((s.core g.core).peerLine? (a / 128)).isNone
    | _ => false
  let n := f.size.bytes
  match l with
  | .phys a =>
    if absent then
      let asked := f.todo.any fun y => y.waiting && (match y.loc with | some (.phys b) => b / 128 == a / 128 | _ => false)
      let s := s.updFly id fun f => { f with todo := { t with loc := some l, waiting := true } :: (f.drop t).todo }
      if asked then s else s.askLine g w.idx a id
    else s.updFly id fun f => (f.drop t).answer t.mask (f.size.words (s.loadNat g.core g.part l n)) (s.spoiledAt g.core g.part l n)
  | _ => s.updFly id fun f => (f.drop t).answer t.mask (f.size.words (s.loadNat g.core g.part l n)) (s.spoiledAt g.core g.part l n)

/-- An access of a load misses translation, at first or again at its replay: an entry of kind 1, one for each granule
(R317, R321). Only the accesses of a deferring user warp are made in this way. -/
def State.missTodo (s : State) (g : Group) (w : Warp) (id : Nat) (f : Fly) (t : Todo) (x : XFault) : State :=
  let again := f.todo.any fun y => y.waiting && y.loc.isNone && y.va.toNat / 65536 == t.va.toNat / 65536
  let s := s.updFly id fun f => f.hold t
  if again then s else s.postFault g.part (g.faultOne w.slot false x (.load id (t.va.toNat / 65536)))

/-- The race check of a replayed access (R151): its load has retired, so the report is a log entry (log 57). -/
def State.raceReplay (s : State) (g : Group) (w : Warp) (f : Fly) (t : Todo) (l : Loc) : State :=
  let x : Ea × Loc := (⟨0, t.va, 0, t.va.toNat, false, false, none⟩, l)
  match s.raceOf g x with
  | none => s
  | some d => (s.logRace g w f.pc t.va d false).raceMark g x

/-- Tries an access of a load that has still to be made: one whose place is known reads it; another is translated again,
misses, meets a lock, or reads. -/
def State.tryLoad (s : State) (g : Group) (w : Warp) (id : Nat) (t : Todo) : State :=
  match s.fly? id, t.loc with
  | none, _ => s
  | some f, some l => s.readTodo g w id f t l
  | some f, none =>
    match s.translate g.core g.asid .read t.va with
    | .bad x => s.missTodo g w id f t x
    | .ok a =>
      let e : Ea := ⟨0, t.va, 0, t.va.toNat, false, false, none⟩
      if s.lockedAt g .g e f.size.bytes then s
      else (s.raceReplay g w f t (.phys a)).readTodo g w id f t (.phys a)

/-- Whether an access may be tried: it waits neither for an answer nor for an earlier write of its warp. -/
def Todo.free (t : Todo) : Bool := !t.waiting && t.behind == 0

/-! ### Memory-writing instructions in issue order (R46, R144, R226) -/

/-- Whether writes to one place and a load from another touch one byte. -/
def Loc.meets (l : Loc) (n : Nat) (k : Loc) (m : Nat) : Bool :=
  match l, k with
  | .phys a, .phys b => Machine.meets a n b m
  | .sram g a, .sram h b => g == h && Machine.meets a n b m
  | .nram g a, .nram h b => g == h && Machine.meets a n b m
  | _, _ => false

/-- Whether a transaction of a batch may change bytes of scratch that a load reads. -/
def Batch.reaches (b : Batch) (l : Loc) (n : Nat) : Bool :=
  b.txs.any fun t =>
    match b.kind, t.loc, l with
    | .ann _, .sram g _, .sram h _ => g == h
    | .ann _, .nram _ _, .nram _ _ => true
    | .atom _ true, k, _ => !(match l with | .phys _ => true | _ => false) && k.meets 8 l n
    | .atom _ false, k, _ => !(match l with | .phys _ => true | _ => false) && k.meets 4 l n
    | .fset, k, _ | .fclr, k, _ => !(match l with | .phys _ => true | _ => false) && k.meets 8 l n
    | _, _, _ => false

/-- Whether what an instruction still does reaches bytes that a load reads (R46). -/
def Act.reaches (a : Act) (l : Loc) (n : Nat) : Bool :=
  match a with
  | .store ws => ws.any fun p => p.1.meets p.2.length l n
  | .send _ bs => bs.any fun b => b.reaches l n
  | .release _ acq _ => acq
  | .fence => true
  | .spawn _ | .call _ _ _ _ => false

/-- The batches of a warp that wait for the landing of a release, on the core where the warp issued them. -/
def State.gatedBatches (s : State) (gid widx : Nat) : List Batch :=
  s.cores.flatMap fun p => p.2.relq.flatMap fun r => r.after.filterMap fun a =>
    match a with
    | .send b => if b.gid == gid && b.widx == widx then some b else none
    | _ => none

/-- The batches of a warp whose transactions have not been performed, reads of futures apart. -/
def State.openBatches (s : State) (gid widx : Nat) : List Batch :=
  (s.batches.filter fun b => b.gid == gid && b.widx == widx && (match b.kind with | .fget _ | .migr _ => false | _ => true))
    ++ s.gatedBatches gid widx

/-- The latest unperformed write of a warp that a load of n bytes at a place must follow; 0 where there is none (R46). -/
def State.writeBehind (s : State) (gid widx : Nat) (l : Loc) (n : Nat) : Nat :=
  let bs := (s.openBatches gid widx).filter fun b => b.reaches l n
  let qs := s.queue.filter fun q => q.gid == gid && q.widx == widx && q.act.reaches l n
  ((bs.map fun b => b.id) ++ qs.map fun q => q.id).getLast?.getD 0

/-- Whether a write that performs, or sends its batches, later than the present one would have to: an earlier transaction
of the warp is unperformed, at home or at a peer. -/
def State.unperformed (s : State) (gid widx : Nat) : Bool :=
  !(s.openBatches gid widx).isEmpty || s.ops.any fun o => o.kind == .net 8 && o.gid == gid && o.widx == widx && !o.orphan

/-- Whether a fence of a warp must wait besides: for reads of futures and of scratch (R146). -/
def State.unread (s : State) (gid widx : Nat) : Bool :=
  (s.batches.any fun b => b.gid == gid && b.widx == widx)
    || s.flys.any fun f => f.gid == gid && f.widx == widx && f.todo.any fun t => (match t.loc with
        | some (.sram _ _) | some (.nram _ _) => true
        | _ => false)

/-- Whether an instruction orders what stands before it in its warp as a FENCE does (R139, R143, R146). -/
def Act.fences (a : Act) : Bool :=
  match a with
  | .fence => true
  | .release x acq _ => acq || decide (scopeNum x < 3)
  | .send (some x) _ => decide (scopeNum x < 3)
  | _ => false

/-- Whether a warp has captured, before a number, a memory-writing instruction or a read that a FENCE must follow (R46, R146). -/
def State.capturedBefore (s : State) (gid widx born : Nat) : Bool :=
  match s.warp? gid widx with
  | some w => w.closures.any fun k => decide (k.born < born) && k.runs fun i => i.memWriting || i.fenced
  | none => false

/-- Whether what an instruction does must still wait for earlier work of its warp, the queue apart. -/
def State.gated (s : State) (gid widx born : Nat) (a : Act) : Bool :=
  s.unperformed gid widx || (a.fences && (s.unread gid widx || s.capturedBefore gid widx born))

/-- The latest instruction in the queue that orders the accesses of its warp as a FENCE does; 0 where there is none (R146). -/
def State.fenceBehind (s : State) (gid widx : Nat) : Nat :=
  ((s.queue.filter fun q => q.gid == gid && q.widx == widx && q.act.fences).map fun q => q.id).getLast?.getD 0

/-- The closure of a warp that runs now. -/
def State.running? (s : State) (gid widx : Nat) : Option Closure :=
  match s.cur with
  | some c => if c.gid = gid ∧ c.widx = widx then c.clo.bind fun k => (s.warp? gid widx).bind fun w => w.closure? k else none
  | none => none

/-- The order number of what a warp does now: the capture order of the closure that runs, or the next unique number (R46). -/
def State.bornNow (s : State) (gid widx : Nat) : Nat :=
  match s.running? gid widx with
  | some k => k.born
  | none => s.uid

/-! ### Writing -/

/-- The number in consecutive registers of a lane. -/
def Ctx.regNat (c : Ctx) (r l : Nat) : Nat → Nat
  | 0 => 0
  | n + 1 => (c.reg r l).toNat + 2 ^ 32 * c.regNat (r + 1) l n

/-- A store to a place of scratch. -/
def State.storeLocal (s : State) (l : Loc) (bs : List Byte) : State :=
  match l with
  | .phys _ => s
  | .sram g a => s.updGroup g fun x =>
      { x with sMem := smSets 0 x.sMem (putAt a bs), sSpoil := clearSpoil x.sSpoil (putAt a bs) }
  | .nram g a => s.updGroup g fun x =>
      { x with nMem := smSets 0 x.nMem (putAt a bs), nSpoil := clearSpoil x.nSpoil (putAt a bs) }

/-- The far bytes of a list of stores, in lane order. -/
def farWrites (ws : List (Loc × List Byte)) : List (Nat × Byte) :=
  ws.flatMap fun p => match p.1 with | .phys a => putAt a p.2 | _ => []

/-- Performs the stores of an instruction in ascending lane order (R84, R137, R221). -/
def State.perform (s : State) (g : Group) (ws : List (Loc × List Byte)) : State :=
  let s := ws.foldl (fun s p => s.storeLocal p.1 p.2) s
  let fs := farWrites ws
  if fs.isEmpty then s
  else (s.storeFar g.core g.gid g.asid g.part fs []).raceStore g.part g.core g.gid ((fs.map fun p => p.1).filter fun a => !isPeer a)

/-! ### Batches to the engines, and the turn of an instruction (R46, R90, R91, R144) -/

/-- The engine numbers from which on the module's ports stand for the engines of peers, by the number of a window. -/
def portEngine : Nat := 0xFFFF

/-- The engine that serves a place: one of the module, or the home engine of a peer behind its window (R90). -/
def State.serverOf (s : State) (l : Loc) : Nat :=
  match l with
  | .phys a => if isPeer a then portEngine + peerIndex a else s.locEngine l
  | _ => s.locEngine l

/-- Whether a place lies in a peer window. -/
def Loc.peer (l : Loc) : Bool :=
  match l with
  | .phys a => isPeer a
  | _ => false

/-- The batches of an instruction: its lanes by engine (R91, R224). -/
def State.batchesOf (s : State) (g : Group) (widx fly : Nat) (k : TxKind) (txs : List Tx) : List Batch :=
  let es := (txs.map fun t => s.serverOf t.loc).eraseDups
  es.zipIdx.map fun p => ⟨s.uid + p.2, p.1, g.core, g.gid, widx, fly, k, txs.filter fun t => s.serverOf t.loc == p.1⟩

/-- What an atomic at a peer does, as a word of its message: 0 fetch-and-add, 1 compare-and-swap; bit 1 for 64 bits. -/
def atomCode (cas w64 : Bool) : DWord := (if cas then 1 else 0) + (if w64 then 2 else 0)

/-- Sends a batch to its engine. One for a peer window becomes a network operation of kind 8, which goes out as remote atomics in
the order of its flow (R90, R224, R260, R333): it holds the code, the number of the window, and three words of 64 bits a lane. -/
def State.sendBatch (s : State) (b : Batch) : State :=
  if portEngine ≤ b.engine then
    match s.group? b.gid with
    | none => s
    | some g =>
      let code : DWord := match b.kind with | .atom o w => atomCode (decide (o = .cas)) w | _ => 0
      let far : Tx → DWord := fun t => match t.loc with | .phys a => BitVec.ofNat 64 (peerRemote a) | _ => 0
      let words := b.txs.flatMap fun t => [far t, t.y, t.n].flatMap fun (v : DWord) => [v.setWidth 32, (v >>> 32).setWidth 32]
      s.netOp g b.widx 8 ([code.setWidth 32, BitVec.ofNat 32 (b.engine - portEngine)] ++ words)
        [b.txs.map fun t => BitVec.ofNat 32 t.lane] 0 b.fly
  else { s with batches := s.batches ++ [b] }

/-- A release of a group's core at a scope, in the place that it has kept among those of the core, or in the next (R139). -/
def State.releaseIn (s : State) (g : Group) (keep : Option Nat) (scope : Nat) (after : List After) : State :=
  match keep with
  | some id =>
    if (s.core g.core).relq.any fun r => r.id == id then s.closeRelease g.core id after
    else s.release g.core (g.domain scope) g.part scope after
  | none => s.release g.core (g.domain scope) g.part scope after

/-- Sends the batches of an instruction, at once or after the landing of a release at a scope (R143): one below gang scope lands
in its place among those of the core, too. -/
def State.sendBatches (s : State) (g : Group) (rel : Option Scope) (bs : List Batch) (keep : Option Nat) : State :=
  match rel with
  | none => bs.foldl State.sendBatch s
  | some x => s.releaseIn g keep (scopeNum x) (bs.map After.send)

/-- Whether a release leaves nothing behind: one below gang scope that nothing awaits only orders its warp's accesses (R139). -/
def localOnly (x : Scope) (after : List After) : Bool := decide (scopeNum x < 3) && after.isEmpty

/-- A release of a group's core at a scope (R139, R147). -/
def State.releaseOf (s : State) (g : Group) (x : Scope) (after : List After) (keep : Option Nat) : State :=
  if localOnly x after then s else s.releaseIn g keep (scopeNum x) after

/-- The scope of the release with a place among those of its core that an instruction performs, if it performs one. -/
def Act.releases (a : Act) : Option Nat :=
  match a with
  | .release x _ after => if localOnly x after then none else some (scopeNum x)
  | .send (some x) _ => some (scopeNum x)
  | _ => none

/-- What a memory-writing instruction does when its turn has come; `keep` names the place that its release has kept. -/
def State.act (s : State) (g : Group) (a : Act) (keep : Option Nat) : State :=
  match a with
  | .store ws => s.perform g ws
  | .send rel bs => s.sendBatches g rel bs keep
  | .release x acq after =>
    let s := s.releaseOf g x after keep
    if acq then s.acquireAt g (scopeNum x) else s
  | .fence => s
  | .spawn ids =>
    let k := s.core g.core
    s.setCore g.core { k with tasks := k.tasks.map fun t => if ids.contains t.id then { t with held := false } else t }
  | .call die payer bytes words => (s.engineWrite g.core bytes).serviceAppend die (some payer) words

/-- Puts an instruction into the queue, before those of its warp that were issued after it: the fences of landings may stand
there (R46, R232, R234). -/
def enqueue (q : Queued) : List Queued → List Queued
  | [] => [q]
  | x :: r => if x.gid = q.gid ∧ x.widx = q.widx ∧ q.born < x.born then q :: x :: r else x :: enqueue q r

/-- What a memory-writing instruction of a warp does: at once, or in its turn behind the earlier ones that have not
performed, which holds up neither its issue nor its retirement (R46, R144). A release that waits keeps its place among those of
the core (R139). -/
def State.doAct (s : State) (g : Group) (widx : Nat) (a : Act) : State :=
  let born := s.bornNow g.gid widx
  if (s.queue.any fun q => q.gid == g.gid && q.widx == widx && decide (q.born ≤ born)) || s.gated g.gid widx born a then
    match a.releases with
    | some n =>
      { (s.openRelease g.core (g.domain n) g.part n) with
        queue := enqueue ⟨s.uid + 1, born, some s.uid, g.gid, widx, a⟩ s.queue, uid := s.uid + 2 }
    | none => { s with queue := enqueue ⟨s.uid, born, none, g.gid, widx, a⟩ s.queue, uid := s.uid + 1 }
  else s.act g a none

/-- The acquire of a warp at a scope: below gang scope it acts as a FENCE in the order of the warp's accesses (R225, R232,
R234); that of a landing at the moment of the landing (DEDUCED, log 93). -/
def State.acquireFor (s : State) (g : Group) (widx : Nat) (x : Scope) : State :=
  if scopeNum x < 3 then s.doAct g widx .fence else s.acquireAt g (scopeNum x)

/-- What an instruction of the queue does: for a saved group with the far stores that the group keeps as its core's own at
that moment (R48, R281). -/
def State.actOf (s : State) (g : Group) (q : Queued) : State :=
  if g.stat != .saved then s.act g q.act q.rel
  else
    let s := ((s.storeKept g.core g.kept).updGroup g.gid fun x => { x with kept := [] }).act g q.act q.rel
    s.keepStores g

/-- Sends the reads of an FGET, which is no memory-writing instruction. -/
def State.sendReads (s : State) (g : Group) (bs : List Batch) : State :=
  { s with uid := s.uid + bs.length }.sendBatches g none bs none

/-- Places a lane of an FGET that has still to be read: one of a known place is read there (R146); another is translated again
(R219). -/
def State.placeFuture (s : State) (g : Group) (w : Warp) (id : Nat) (f : Fly) (t : Todo) : State × List Tx :=
  let txs := fun (l : Loc) => (s.updFly id fun f => f.drop t, (lanesOf t.mask).map fun n => (⟨n, l, 0, 0⟩ : Tx))
  match t.loc with
  | some l => txs l
  | none =>
    match s.translate g.core g.asid .read t.va with
    | .bad x =>
      let again := f.todo.any fun y => y.waiting && y.va.toNat / 65536 == t.va.toNat / 65536
      let s := s.updFly id fun f => f.hold t
      (if again then s else s.postFault g.part (g.faultOne w.slot false x (.load id (t.va.toNat / 65536))), [])
    | .ok a =>
      if s.lockedAt g .g ⟨0, t.va, 0, t.va.toNat, false, false, none⟩ 8 || isPeer a then (s, []) else txs (.phys a)

/-- Tries some lanes of an FGET; those of one engine are one batch (R91). -/
def State.tryFutures (s : State) (g : Group) (w : Warp) (id : Nat) (wait : Bool) (ts : List Todo) : State :=
  let q := ts.foldl (fun (p : State × List Tx) t =>
    match p.1.fly? id with
    | none => p
    | some f => let r := p.1.placeFuture g w id f t; (r.1, p.2 ++ r.2)) (s, [])
  if q.2.isEmpty then q.1 else q.1.sendReads g (q.1.batchesOf g w.idx id (.fget wait) q.2)

/-- Tries some accesses of a load, or some lanes of an FGET. -/
def State.tryTodos (s : State) (g : Group) (w : Warp) (id : Nat) (ts : List Todo) : State :=
  match (s.fly? id).bind fun f => f.future with
  | some wait => s.tryFutures g w id wait ts
  | none => ts.foldl (fun s t => s.tryLoad g w id t) s

/-- Tries every access of a load, or every lane of an FGET, that may be tried. -/
def State.tryFree (s : State) (g : Group) (w : Warp) (id : Nat) : State :=
  match s.fly? id with
  | none => s
  | some f => s.tryTodos g w id (f.todo.filter Todo.free)

/-- Loads and reads of futures that follow a write or a fence of their warp may read, now that it has performed, those of a group
on a core at once. -/
def State.follow (s : State) (key : Nat) : State :=
  let mine := s.flys.filter fun f => f.todo.any fun t => t.behind == key
  mine.foldl (fun s f =>
    match s.group? f.gid, s.warp? f.gid f.widx with
    | some g, some w =>
      let ready := fun (t : Todo) => if t.behind = key then { t with behind := 0 } else t
      let s := s.updFly f.id fun f => { f with todo := f.todo.map ready }
      if g.stat = .saved then s
      else s.tryTodos g w f.id ((f.todo.filter fun t => t.behind == key).map ready)
    | _, _ => s) s

/-- The first instruction of the queue whose turn has come: no earlier one of its warp stands before it. -/
def State.nextQueued (s : State) : Option (Queued × Group) :=
  s.queue.foldr (fun q r =>
    match s.group? q.gid with
    | none => r
    | some g =>
      let head := findBy (fun x => x.gid == q.gid && x.widx == q.widx) s.queue
      let live := g.stat == .run || g.stat == .draining || g.stat == .saved
      if (head.map fun x => x.id) == some q.id && live && !s.gated q.gid q.widx q.born q.act then some (q, g) else r) none

/-- Instructions of the queue whose turn has come take effect. -/
def State.drainQueue (s : State) : Nat → State
  | 0 => s
  | fuel + 1 =>
    match s.nextQueued with
    | none => s
    | some (q, g) => (({ s with queue := s.queue.filter fun x => x.id != q.id }.actOf g q).follow q.id).drainQueue fuel

/-! ### Loads (R219, R220, R222) -/

/-- The lanes whose accesses an instruction makes: its active lanes, or the lowest in the uniform form (R220). -/
def Ctx.accLanes (c : Ctx) (m : Option Modifier) : List Nat := if isUniform m then (c.act m).take 1 else c.act m

/-- The lanes that an access of a lane serves. -/
def Ctx.served (c : Ctx) (m : Option Modifier) (l : Nat) : Word := if isUniform m then c.actMask m else 1#32 <<< l

/-- A load (R219, R220). -/
def doLoad (s : State) (c : Ctx) (m : Option Modifier) (p : Space) (z : LdSize) (rs : List Nat) (ea : Nat → Ea) : State :=
  let ls := c.accLanes m
  if ls.isEmpty then finish s c m false [] flag0
  else
    match checkAccess s c p z.bytes false true (ls.map ea) with
    | .trap t => t
    | .go s acc miss =>
      let f0 := { flyFor (c.actMask m) rs none with size := z }
      let behind := fun (l : Loc) => s.writeBehind c.cur.gid c.cur.widx l z.bytes
      let at_ := acc.map fun x =>
        (⟨c.served m x.1.lane, x.1.va, some x.2, behind x.2, false⟩ : Todo)
      let f := { f0 with todo := at_ ++ miss.map fun x => ⟨c.served m x.1.lane, x.1.va, none, 0, false⟩ }
      let key := c.key s
      let s := (addFly s c f).tryFree c.grp c.warp key
      finishPending s c key (!miss.isEmpty) (c.actMask m) rs

/-- LD (R220). -/
def execLd (x : OpLd) (s : State) : Host.Outcome State Fault Refusal :=
  issue s (.ld x) fun c =>
    .next (doLoad s c x.m x.p x.z (span x.d.toNat x.z.regs)
      fun l => c.ea s x.p x.a.toNat (BitVec.ofNat 64 (x.o.toNat * x.z.bytes)) x.z.bytes l)

/-- The offset of an indexed access: signed in space G, unsigned in S and N (R218). -/
def Ctx.index (c : Ctx) (p : Space) (b l : Nat) : DWord :=
  if p = .g then (c.reg b l).signExtend 64 else (c.reg b l).setWidth 64

/-- LDX (R222). -/
def execLdx (x : OpX) (s : State) : Host.Outcome State Fault Refusal :=
  issue s (.ldx x) fun c =>
    .next (doLoad s c x.m x.p .b32 [x.d.toNat] fun l => c.ea s x.p x.a.toNat (c.index x.p x.b.toNat l) 4 l)

/-! ### Stores (R219, R221, R222) -/

/-- A store of n bytes (R219, R221). -/
def doStore (s : State) (c : Ctx) (i : Instr) (m : Option Modifier) (p : Space) (n : Nat) (ea : Nat → Ea)
    (val : Nat → Nat) : State :=
  let ls := c.act m
  if ls.isEmpty then finishPlain s c
  else
    match checkAccess s c p n true true (ls.map ea) with
    | .trap t => t
    | .go s acc miss =>
      let ws := acc.map fun x => (x.2, natBytes n (val x.1.lane))
      if miss.isEmpty then finishPlain (s.doAct c.grp c.cur.widx (.store ws)) c
      else deferStore s c i (miss.map fun x => x.2)

/-- ST (R221). -/
def execSt (x : OpSt) (s : State) : Host.Outcome State Fault Refusal :=
  issue s (.st x) fun c =>
    .next (doStore s c (.st x) x.m x.p x.z.bytes
      (fun l => c.ea s x.p x.a.toNat (BitVec.ofNat 64 (x.o.toNat * x.z.bytes)) x.z.bytes l)
      fun l => c.regNat x.d.toNat l x.z.regs)

/-- STX (R222). -/
def execStx (x : OpX) (s : State) : Host.Outcome State Fault Refusal :=
  issue s (.stx x) fun c =>
    .next (doStore s c (.stx x) x.m x.p 4 (fun l => c.ea s x.p x.a.toNat (c.index x.p x.b.toNat l) 4 l)
      fun l => (c.reg x.d.toNat l).toNat)

/-! ### Atomics (R90, R91, R224) -/

/-- The operands of a lane's ATOM: y and, for CAS, n (R155, R224). -/
def Ctx.atomArgs (c : Ctx) (x : OpAtom) (l : Nat) : DWord × DWord :=
  if x.w64 then (c.pair x.d.toNat l, if x.o = .cas then c.pair (x.d.toNat + 2) l else 0)
  else ((c.reg x.d.toNat l).setWidth 64, if x.o = .cas then (c.reg (x.d.toNat + 1) l).setWidth 64 else 0)

/-- A batched instruction on memory: the destination is in flight until every lane has its answer (R91, R224). -/
def doBatched (s : State) (c : Ctx) (rel : Option Scope) (k : TxKind) (mask : Word) (rs : List Nat) (txs : List Tx) : State :=
  let key := c.key s
  let s := addFly s c { flyFor mask rs none with left := txs.length }
  let bs := s.batchesOf c.grp c.cur.widx key k txs
  finishPending ({ s with uid := s.uid + bs.length }.doAct c.grp c.cur.widx (.send rel bs)) c key false mask rs

/-- ATOM (R224): with REL its transactions follow the landing of the core's release at the scope (R143). -/
def execAtom (x : OpAtom) (s : State) : Host.Outcome State Fault Refusal :=
  issue s (.atom x) fun c =>
    let n := if x.w64 then 8 else 4
    let ls := c.act x.m
    let ea := fun l => c.ea s x.p x.a.toNat 0 n l
    if ls.isEmpty then .next (finishPlain s c)
    else
      match checkAccess s c x.p n true false (ls.map ea) with
      | .trap t => .next t
      | .go s acc miss =>
        let peer := findBy (fun (q : Ea × Loc) => q.2.peer) acc
        if !miss.isEmpty then .next (deferStore s c (.atom x) (miss.map fun q => q.2))
        else
          match (if x.o = .add ∨ x.o = .cas then none else peer) with
          | some q => .next (raise s c 0x25 0 q.1.va)
          | none =>
            .next (doBatched s c (if x.rel then some x.s else none) (.atom x.o x.w64) (c.actMask x.m)
              (span x.d.toNat x.outRegs) (acc.map fun q => ⟨q.1.lane, q.2, (c.atomArgs x q.1.lane).1, (c.atomArgs x q.1.lane).2⟩))

/-! ### Phases and fences (R225) -/

/-- A phase instruction: one effect for the warp if any lane is active, in the order of its memory-writing instructions
(R46, R225). -/
def phase (s : State) (i : Instr) (m : Option Modifier) (x : Scope) (f : Ctx → State) : Host.Outcome State Fault Refusal :=
  issue s i fun c =>
    .next (if (c.act m).isEmpty then finishPlain s c
      else if x = .gang ∧ c.grp.members ≤ 1 ∧ !c.grp.isGang ∧ i.fenceOnly then illegal s c
      else finishPlain (f c) c)

/-- PHASE.REL (R139, R225): it retires at once. -/
def execPhaseRel (x : OpScope) (s : State) : Host.Outcome State Fault Refusal :=
  phase s (.phaseRel x) x.m x.s fun c => s.doAct c.grp c.cur.widx (.release x.s false [])

/-- PHASE.ACQ (R141, R142, R225): below gang scope it acts as a FENCE. -/
def execPhaseAcq (x : OpAcq) (s : State) : Host.Outcome State Fault Refusal :=
  phase s (.phaseAcq x) x.m x.s fun c =>
    s.acquireFor c.grp c.cur.widx x.s

/-- PHASE.AR: a release, then an acquire (R141, R225). -/
def execPhaseAr (x : OpScope) (s : State) : Host.Outcome State Fault Refusal :=
  phase s (.phaseAr x) x.m x.s fun c => s.doAct c.grp c.cur.widx (.release x.s true [])

/-- FENCE (R22, R146, R225): the accesses of the warp before it perform before those after it, and nothing becomes
visible. At gang scope it is valid in a gang only. -/
def execFence (x : OpScope) (s : State) : Host.Outcome State Fault Refusal :=
  phase s (.fence x) x.m x.s fun c => s.doAct c.grp c.cur.widx .fence

/-! ### LOAD_LANDING (R40, R219) -/

/-- The lanes of a value in flight that are ready land: they are written, but for lanes that have exited (R174) unless a closure
issued it (R45), and a landing performs its acquire. -/
def State.landFly (s : State) (g : Group) (f : Fly) : State :=
  let rest := f.mask &&& ~~~f.ready
  let s :=
    match f.acq with
    | some x => s.acquireFor g f.widx x
    | none => s
  let bad := f.poison.filter fun k => f.ready.getLsbD (k % 32)
  let s := s.updWarp f.gid f.widx fun w =>
    let w := (w.deliver (if f.whole then f.ready else f.ready &&& w.landLanes f.id) f.vals).addPoison bad
    if rest = 0 then w.landed f.id else w
  if rest = 0 then { s with flys := s.flys.filter fun y => y.id != f.id }
  else s.updFly f.id fun f => { f with mask := rest, ready := 0 }

/-- The state after the accesses of a value in flight that may be tried are tried, where its group is on a core. -/
def State.retryFly (s : State) (id : Nat) : State :=
  match s.fly? id with
  | none => s
  | some f =>
    match s.group? f.gid, s.warp? f.gid f.widx with
    | some g, some w => if g.stat = .saved ∨ g.stat = .moving then s else s.tryFree g w id
    | _, _ => s

end Sys2Proof.Machine
end

