-- ==== Sys2Proof/Machine/Announce.lean ====
section
/-! DEFINITION. Announced operations (05, 16): objects and records, the steps of R98 and R99, the drive of R100 and
R104, and the instructions ANN, ANN.HLP and ANNQ (R227, R228). -/

namespace Sys2Proof.Machine

/-! ### Places (R93, R109) -/

/-- Why an address of an announced operation has no place: a translation fault, or PROTECTION. -/
structure StepFault where
  addr : DWord
  xf : Option XFault
  wr : Bool
  deriving DecidableEq, Repr

/-- The place of a record, or of an object in space G: neither may lie in a peer window (R93, R96). -/
def State.farPlace (s : State) (g : Group) (wr : Bool) (va : DWord) : Except StepFault Nat :=
  if !canonical va then .error ⟨va, none, wr⟩
  else
    match s.translate g.core g.asid (if wr then .write else .read) va with
    | .bad f => .error ⟨va, some f, wr⟩
    | .ok a => if isPeer a then .error ⟨va, none, wr⟩ else .ok a

/-- The place of n bytes of an object in a space (R93). -/
def State.objPlace (s : State) (g : Group) (p : Space) (wr : Bool) (a : DWord) (n : Nat) : Except StepFault Loc :=
  match p with
  | .s => if a.toNat + n ≤ g.sBytes then .ok (.sram g.gid a.toNat) else .error ⟨a, none, wr⟩
  | .n =>
    match s.member? g (a.toNat / 2 ^ 29) with
    | none => .error ⟨a, none, wr⟩
    | some m =>
      let o := a.toNat % 2 ^ 29
      if o + n ≤ m.nBytes then .ok (.nram m.gid o) else .error ⟨a, none, wr⟩
  | .g => (s.farPlace g wr a).map Loc.phys

/-- The scope of an object (R106). -/
def objScope (p : Space) : Scope :=
  match p with
  | .s => .group
  | .n => .gang
  | .g => .device

/-! ### Records (R96) -/

/-- The fields of a record. -/
structure Rec where
  seq : Nat
  state : Nat
  op : Nat
  step : Nat
  width : Nat
  object : DWord
  pred : DWord
  op0 : Nat
  op1 : Nat
  result : Nat
  next : DWord
  deriving DecidableEq, Repr

/-- The record at a physical address. -/
def State.readRec (s : State) (q : Nat) : Rec :=
  let n := fun (o k : Nat) => s.homeNat (q + o) k
  ⟨n 0 4, n 4 1, n 5 1, n 6 1, n 7 1, BitVec.ofNat 64 (n 8 8), BitVec.ofNat 64 (n 16 8), n 24 8, n 32 8, n 40 8, BitVec.ofNat 64 (n 56 8)⟩

/-- Writes a field of n bytes of a record on behalf of a core. -/
def State.setRec (s : State) (c q o n v : Nat) : State := s.engineWrite c (putAt (q + o) (natBytes n v))

/-! ### The steps (R98) -/

/-- Whether an operation code is a container's. -/
def isContainer (op : Nat) : Bool := decide (0x10 ≤ op)

/-- The retire step of an operation. -/
def lastStep (op : Nat) : Nat := if isContainer op then 4 else 3

/-- Whether a container operation succeeds, from what step 1 recorded (R98). -/
def Rec.succeeds (r : Rec) : Bool :=
  let lo := r.op1 % 2 ^ 32
  let hi := r.op1 / 2 ^ 32
  let cap := 2 ^ r.width
  match r.op with
  | 0x10 => decide (lo < cap)
  | 0x11 => decide (0 < lo)
  | 0x12 => decide ((lo + 2 ^ 32 - hi) % 2 ^ 32 < cap)
  | 0x13 => decide (lo ≠ hi)
  | _ => true

/-- The slot that step 2 of a container operation names, as an offset from the header (R95). -/
def Rec.slot (r : Rec) : Nat :=
  let lo := r.op1 % 2 ^ 32
  let hi := r.op1 / 2 ^ 32
  let cap := 2 ^ r.width
  match r.op with
  | 0x10 => 24 + 8 * lo
  | 0x11 => 24 + 8 * (lo - 1)
  | 0x12 => 32 + 8 * (lo % cap)
  | _ => 32 + 8 * (hi % cap)

/-- The cell that step 3 of a container operation names, as an offset from the header. -/
def Rec.cell (r : Rec) : Nat := if r.op = 0x12 then 24 else 16

/-- The lines of the object that step k of a record names: offset, bytes, and whether it writes (R98, R269). -/
def Rec.line (r : Rec) (k : Nat) : Option (Nat × Nat × Bool) :=
  if lastStep r.op ≤ k then some (0, 16, true)
  else if !isContainer r.op then some (16, 8, decide (k = 2))
  else
    match k with
    | 1 => some (16, if 0x12 ≤ r.op then 16 else 8, false)
    | 2 => if r.succeeds then some (r.slot, 8, r.op == 0x10 || r.op == 0x12) else none
    | _ => if r.succeeds then some (r.cell, 8, true) else none

/-- The new value of a counter cell at step 2 (R98): the old value in `r.result`. -/
def Rec.counterValue (r : Rec) (now : Nat) : Option Nat :=
  let x := r.result % 2 ^ 32
  let y := r.op0 % 2 ^ 32
  match r.op with
  | 1 => some (AtomOp.add.apply 4 x y 0)
  | 2 => some (x &&& y)
  | 3 => some (x ||| y)
  | 4 => some (x ^^^ y)
  | 5 => some (AtomOp.min.apply 4 x y 0)
  | 6 => some (AtomOp.max.apply 4 x y 0)
  | 7 => some y
  | 8 => if x = y then some (r.op1 % 2 ^ 32) else none
  | _ => some now

/-- Writes a cell when its stamp is older than a sequence number and step (R94, R99). -/
def State.writeCell (s : State) (c : Nat) (l : Loc) (seq k v : Nat) : State :=
  let w := s.locNat l 8
  let ss := w / 2 ^ 40
  let st := w / 2 ^ 32 % 256
  if ss < seq ∨ (ss = seq ∧ st < k) then
    s.locWrite c l 0 (natBytes 8 (v % 2 ^ 32 + 2 ^ 32 * k + 2 ^ 40 * seq))
  else s

/-- The effect of step k before the retire step: the record fields and the cell (R98). `l` is the line it names. -/
def State.applyStep (s : State) (c q : Nat) (r : Rec) (k : Nat) (l : Option Loc) : State :=
  let word := fun (o : Nat) => match l with | some l => s.locNat (l.plus o) 4 | none => 0
  if !isContainer r.op then
    if k = 1 then s.setRec c q 40 8 (word 0)
    else
      match l, r.counterValue (word 0) with
      | some l, some v => s.writeCell c l r.seq 2 v
      | _, _ => s
  else
    match k with
    | 1 =>
      let o1 := if 0x12 ≤ r.op then word 0 * 2 ^ 32 + word 8 else word 0
      let ok := ({ r with op1 := o1 } : Rec).succeeds
      let s := s.setRec c q 32 8 o1
      if !ok then s.setRec c q 40 8 0xFFFFFFFF
      else if r.op = 0x10 ∨ r.op = 0x12 then s.setRec c q 40 8 (o1 % 2 ^ 32)
      else s
    | 2 =>
      match l with
      | none => s
      | some l => if r.op = 0x10 ∨ r.op = 0x12 then s.writeCell c l r.seq 2 r.op0 else s.setRec c q 40 8 (word 0)
    | _ =>
      match l with
      | none => s
      | some l =>
        let lo := r.op1 % 2 ^ 32
        let v := if r.op = 0x11 then lo - 1 else if r.op = 0x13 then r.op1 / 2 ^ 32 + 1 else lo + 1
        s.writeCell c l r.seq 3 v

/-- A step transaction (R99) on the record at a physical address, by a sender that expects a sequence number. -/
def State.txnStep (s : State) (c q k seq : Nat) (l : Option Loc) : State :=
  let r := s.readRec q
  if r.seq ≠ seq ∨ r.step + 1 ≠ k ∨ r.state ≠ 1 then s
  else if k < lastStep r.op then (s.applyStep c q r k l).setRec c q 6 1 k
  else
    let s :=
      match l with
      | some l => if s.locNat (l.plus 4) 4 + 1 = r.seq then s.locWrite c l 4 (natBytes 4 r.seq) else s
      | none => s
    let failed := isContainer r.op && !r.succeeds
    (s.setRec c q 6 1 k).setRec c q 4 1 (if failed then 3 else 2)

/-! ### Driving (R100, R104, R105, R109) -/

/-- A drive of the state. -/
def State.drive? (s : State) (id : Nat) : Option Drive := findBy (fun d => d.id == id) s.drives

/-- Changes a drive. -/
def State.setDrive (s : State) (d : Drive) : State := { s with drives := replaceBy (fun x => x.id == d.id) d s.drives }

/-- The record of a lane of a warp (R96). -/
def Warp.recordAt (w : Warp) (lane : Nat) : DWord := w.annbase + BitVec.ofNat 64 (64 * lane)

/-- Whether the instruction of a drive stands at its PC, waiting for it. -/
def Warp.waitsFor (w : Warp) (d : Drive) : Bool :=
  match d.clo with
  | some k => (w.closure? k).isSome
  | none => w.splits.any fun x => x.busy.isSome && x.pc == d.pc && x.mask.getLsbD d.lane

/-- The split in which a lane of a warp stands. -/
def Warp.splitOf (w : Warp) (lane : Nat) : Option Split := findBy (fun x => x.mask.getLsbD lane) w.splits

/-- Whether a drive belongs to an instruction that stands at its PC in a warp, or to a closure. -/
def Drive.of (d : Drive) (gid widx : Nat) (pc : DWord) (clo : Option Nat) : Bool :=
  d.gid == gid && d.widx == widx && d.sync && d.pc == pc && d.clo == clo

/-- Interrupts an ANN or ANN.HLP that holds its split (R108, R268): its re-execution starts from the records, and ANN.HLP
from its header read. A lane of ANN that has its result keeps it. -/
def State.interrupt (s : State) (d : Drive) : State :=
  s.dropDrives fun e => e.of d.gid d.widx d.pc d.clo && e.help == d.help && (e.help || e.stage != .done)

/-- A fault met by a drive before its transaction (R109, R317): ANN_STEP_FAULT of the waiting instruction, or an entry
of kind 2 for the driver. -/
def State.driveFault (s : State) (g : Group) (w : Warp) (d : Drive) (estep seq : Nat) (f : StepFault) : State :=
  if d.sync then
    let sp := w.splitOf d.lane
    let mask := match d.clo with
      | some k => ((w.closure? k).map fun x => x.mask).getD 0
      | none => (sp.map fun x => x.mask).getD 0
    let num := (sp.map fun x => x.num).getD 0
    let s := (s.interrupt d).updWarp g.gid w.idx fun w => w.updSplit num fun x => { x with busy := none }
    takeTrap s ⟨g.gid, w.idx, num, d.clo, d.pc, 4, 0, 0, mask, w.tile, w.cb, [], [], false⟩
      ⟨if f.xf.isSome then 0x29 else 0x25, d.pc, f.addr, BitVec.ofNat 32 seq, estep, f.xf, f.wr, false⟩
  else
    let s := s.setDrive { d with parked := true }
    let x : XFault := f.xf.getD ⟨15, 0, f.addr⟩
    s.postFault g.part ⟨f.addr, 0, ownerWord g.core w.slot 0, g.asid, BitVec.ofNat 32 seq, x.cause, x.reason, x.level, 2,
      f.wr, false, g.core / 128, .drive d.id⟩

/-- Counts a transaction of a drive (R102, R104). -/
def State.countTxn (s : State) (d : Drive) : State :=
  if d.help then s
  else s.updWarp d.gid d.widx fun w => { w with annCount := smSet 0 w.annCount d.lane (smGet 0 w.annCount d.lane + 1) }

/-- A drive ends with its result pair: %steps receives the count (R102, R104), and a driver's pair is ready to land. -/
def State.endDrive (s : State) (d : Drive) (out : Word × Word) : State :=
  let s := s.setDrive { d with stage := .done, out := out }
  let s := s.updWarp d.gid d.widx fun w =>
    if d.help then { w with steps := smSet 0 w.steps d.lane (BitVec.ofNat 32 d.count) }
    else { w with
      steps := smSet 0 w.steps d.lane (smGet 0 w.annCount d.lane)
      annCount := smSet 0 w.annCount d.lane 0
      annLive := w.annLive &&& ~~~(1#32 <<< d.lane) }
  if d.sync then s else s.updFly d.fly fun f => f.put d.lane [out.1, out.2]

/-- The lock of a pending record (R96). -/
def recordLock (asid gid : Nat) (qa : DWord) : Lock := ⟨0, 4, asid, gid, qa.toNat, 64⟩

/-- Removes the lock of a lane's record from a core. -/
def State.unlockRecord (s : State) (core asid : Nat) (qa : DWord) : State :=
  let k := s.core core
  s.setCore core { k with locks := k.locks.filter fun l => !(l.space == 4 && l.asid == asid && l.lo == qa.toNat) }

/-- The tail swap (transaction 1 of R100), with the link kept beside the header (R269). The core of the warp locks the record; for
a saved group the core that receives it does (R96). -/
def State.swap (s : State) (g : Group) (w : Warp) (d : Drive) (q : Nat) (h : Loc) : State :=
  let d := { d with count := d.count + 1 }
  let s := s.countTxn d
  let ts := s.locNat h 4
  let hs := s.locNat (h.plus 4) 4
  let pr := s.locNat (h.plus 8) 8
  if ts = 0xFFFFFF then s.endDrive d (0xFFFFFFFF, 2)
  else
    let seq := ts + 1
    let ahead := decide (hs < ts)
    let qa := w.recordAt d.lane
    let owner := ownerWord g.core w.slot d.lane
    let body := seq + 2 ^ 32 + 2 ^ 40 * d.op + 2 ^ 56 * d.width + 2 ^ 64 * d.obj.toNat
      + 2 ^ 128 * (if ahead then pr else 0) + 2 ^ 192 * d.x0.toNat + 2 ^ 256 * d.x1.toNat + 2 ^ 384 * owner.toNat
    let s := s.engineWrite g.core (putAt q (natBytes 64 body))
    let s :=
      match findBy (fun (k : Link) => k.hdr == h) s.links with
      | some k => if ahead then s.setRec g.core k.record 56 8 qa.toNat else s
      | none => s
    let page := fun (va : DWord) => s.pageOf g.core g.asid va
    let link : Link := ⟨h, g.asid, if d.space = .g then some (page d.obj) else none, q, page qa⟩
    let s := { s with links := s.links.filter (fun (k : Link) => k.hdr != h) ++ [link] }
    let s := s.locWrite g.core h 0 (natBytes 4 seq)
    let s := s.locWrite g.core h 8 (natBytes 8 qa.toNat)
    let k := s.core g.core
    let s := if g.stat = .saved then s else s.setCore g.core { k with locks := k.locks ++ [recordLock g.asid g.gid qa] }
    let s := s.updWarp g.gid w.idx fun w => { w with annLive := w.annLive ||| (1#32 <<< d.lane) }
    let mark := fun (p : Pend) => if p.id = d.fly then { p with event := true } else p
    let s := if d.sync then s else s.updWarp g.gid w.idx fun w => { w with pend := w.pend.map mark }
    s.setDrive { d with stage := .walk, cursor := qa, xs := seq, t0 := seq }

/-- The collection (transaction 2 of R100). -/
def State.collect (s : State) (g : Group) (w : Warp) (d : Drive) (q : Nat) : State :=
  let r := s.readRec q
  let s := (s.countTxn d).setRec g.core q 4 1 0
  (s.unlockRecord g.core g.asid (w.recordAt d.lane)).endDrive d (BitVec.ofNat 32 r.result, if r.state = 2 then 0 else 1)

/-- Where a walk starts: the lane's own record, or the record that the header named (R100, R104). -/
def Drive.home (d : Drive) (w : Warp) : DWord := if d.help then d.top else w.recordAt d.lane

/-- ANN.HLP has seen by its own answer the completion of the record with a sequence number: it ends, or goes on as told
(R104). -/
def State.helped (s : State) (d : Drive) (sq : Nat) (next : Drive) : State :=
  let seen := max d.seen (min sq d.t0)
  let n := d.carried + 1
  if d.t0 ≤ sq ∨ d.limit ≤ n then s.endDrive d (BitVec.ofNat 32 (min d.limit (seen - d.h0)), 0)
  else s.setDrive { next with seen := seen, carried := n }

/-- What a drive does with an answer about the driven record: step, state, next and sequence number (R100, R104). One with
another sequence number shows that the driven record was complete and its lane has reused it. -/
def State.learn (s : State) (w : Warp) (d : Drive) (step st : Nat) (nx : DWord) (sq : Nat) : State :=
  let again := { d with stage := .walk, cursor := d.home w, xs := d.t0, want := 0 }
  let onward := { d with stage := .step, cursor := nx, xs := d.xs + 1, want := 0 }
  if sq ≠ d.xs then (if d.help then s.helped d d.xs again else s.setDrive again)
  else if st = 1 then s.setDrive { d with stage := .step, want := step + 1 }
  else if d.help then s.helped d sq (if nx = 0 then again else onward)
  else if d.cursor = d.home w then s.setDrive { d with stage := .collect }
  else s.setDrive (if nx = 0 then again else onward)

/-- A drive has walked as far as it can: it asks for the next step of the record where it stands, whatever the walk read of
it, which is no transaction (R97, R100). -/
def State.walkEnds (s : State) (d : Drive) (step : Nat) : State := s.setDrive { d with stage := .step, want := step + 1 }

/-- One walk read of a drive (R100, R104). The walk follows records still pending; a help ends when it reads that the record
with sequence number t0 is complete, or that its lane has reused it. Of a re-executed ANN whose own record does not translate at
its first read, no rule gives ESTEP or EAUX: the model reports 0xFE and 0 (DESIGN CHOICE, log 58). -/
def State.walkRead (s : State) (g : Group) (w : Warp) (d : Drive) : State :=
  match s.farPlace g false d.cursor with
  | .error f => s.driveFault g w d 0xFE d.xs f
  | .ok x =>
    let r := s.readRec x
    let start := d.cursor == d.home w
    let d := if start && !d.help then { d with want := 0 } else d
    if d.help && start && r.seq != d.t0 then s.endDrive d (BitVec.ofNat 32 (min d.limit (d.t0 - d.h0)), 0)
    else if d.help && start && r.state != 1 then s.endDrive d (BitVec.ofNat 32 (min d.limit (d.seen - d.h0)), 0)
    else if !d.help && start && r.state != 1 then s.setDrive { d with stage := .collect, t0 := r.seq }
    else
      let d := if start && !d.help then { d with xs := r.seq, t0 := r.seq } else d
      if r.pred = 0 then s.walkEnds d r.step
      else
        match s.farPlace g false r.pred with
        | .error f => s.driveFault g w d 0xFE (r.seq - 1) f
        | .ok y =>
          let p := s.readRec y
          if p.seq + 1 = r.seq ∧ p.object = r.object ∧ p.state = 1 then s.setDrive { d with cursor := r.pred, xs := d.xs - 1 }
          else s.walkEnds d r.step

/-- The next transaction of a drive that has walked: its place and its record, with the addresses translated in the order of R269,
or the fault that it meets, with the step and the sequence number to report (R109). A lane whose own record is complete
collects. Where the record does not translate before its step is known, the step reported is 1 (log 58). -/
def State.nextTxn (s : State) (g : Group) (w : Warp) (d : Drive) : Except (Drive × Nat × Nat × StepFault) (Drive × Loc × Nat) :=
  let own :=
    match s.farPlace g false (w.recordAt d.lane) with
    | .ok q => !d.help && (s.readRec q).state != 1
    | .error _ => false
  if d.stage = .collect ∨ own = true then
    match s.farPlace g true (w.recordAt d.lane) with
    | .error f => .error ({ d with stage := .collect }, 0xFF, d.t0, f)
    | .ok q => .ok ({ d with stage := .collect }, .phys q, q)
  else
    match s.farPlace g true d.cursor with
    | .error f => .error (d, max d.want 1, d.xs, f)
    | .ok q =>
      let r := s.readRec q
      let d := { d with want := if d.want = 0 then r.step + 1 else d.want }
      match (if r.seq = d.xs then r.line d.want else none) with
      | none => .ok (d, .phys q, q)
      | some (o, n, wr) =>
        match s.objPlace g d.space wr (r.object + BitVec.ofNat 64 o) n with
        | .error f => .error (d, d.want, d.xs, f)
        | .ok l => .ok (d, l, q)

/-- The faults of some drives: the first of a waiting instruction traps it, and those of the driver are queued (R109). -/
def State.driveFaults (s : State) (g : Group) (w : Warp) : List (Drive × Nat × Nat × StepFault) → State
  | [] => s
  | (d, e, n, f) :: r => if d.sync then s.driveFault g w d e n f else (s.driveFault g w d e n f).driveFaults g w r

/-- Sends the next transactions of some drives of one instruction: those of one engine are one batch (R91). A waiting
instruction that meets a fault sends none. -/
def State.askAll (s : State) (g : Group) (w : Warp) (ds : List Drive) : State :=
  let rs := ds.map fun d => s.nextTxn g w d
  let bad := rs.filterMap fun r => match r with | .error x => some x | .ok _ => none
  let good := rs.filterMap fun r => match r with | .ok x => some x | .error _ => none
  if bad.any fun x => x.1.sync then s.driveFaults g w bad
  else
    let s := good.foldl (fun s x => s.setDrive { x.1 with asked := true }) (s.driveFaults g w bad)
    match ds with
    | [] => s
    | d :: _ =>
      let bs := s.batchesOf g d.widx 0 (.ann d.stage) (good.map fun x => ⟨x.1.lane, x.2.1, BitVec.ofNat 64 x.1.id, BitVec.ofNat 64 x.2.2⟩)
      { s with uid := s.uid + bs.length }.sendBatches g none bs none

/-- Whether two drives are those of lanes of one instruction. -/
def Drive.with (d e : Drive) : Bool :=
  d.gid == e.gid && d.widx == e.widx && d.sync == e.sync && d.help == e.help && d.pc == e.pc && d.clo == e.clo && d.fly == e.fly

/-- The drives of an instruction that are under way, by lane. -/
def State.peers (s : State) (d : Drive) : List Drive :=
  (s.drives.filter fun e => d.with e && e.stage != .done && !e.parked).foldl (fun l e => insertBy (fun x => x.lane) e l) []

/-- Whether a drive has walked, and its next transaction has still to be sent. -/
def Drive.walkedTo (d : Drive) : Bool := (d.stage == .step || d.stage == .collect) && !d.asked

/-- One walk read of a drive, or the sending of the next transactions of its instruction, which go out together (R91). Of a saved
group, a drive only collects. The tail swap and the header read have been sent at issue. -/
def State.driveStep (s : State) (g : Group) (w : Warp) (d : Drive) : State :=
  if g.stat = .saved then s.askAll g w [{ d with stage := .collect }]
  else if d.stage = .walk then s.walkRead g w d
  else s.askAll g w (s.peers d)

/-- Whether a drive may make its next move: it awaits no engine, nor another lane of its instruction before a transaction; one
that holds its instruction moves while that stands at its PC in a warp that issues it; and a drive of a saved warp only collects
a record that another party has completed (R48, R108). -/
def State.driveEnabled (s : State) (g : Group) (w : Warp) (d : Drive) : Bool :=
  let completed :=
    match s.farPlace g true (w.recordAt d.lane) with
    | .ok q => decide (2 ≤ (s.readRec q).state)
    | .error _ => false
  let handler := match w.inh with | some v => some v | none => w.inu
  let standing := w.susp.isNone && w.waitsFor d && (match handler, d.clo with
    | none, _ => true
    | some v, none => (w.splitOf d.lane).any fun x => x.num == v.split
    | some _, some _ => false)
  d.stage != .done && d.stage != .swap && d.stage != .header && !d.asked && !d.parked && (!d.sync || standing)
    && (((g.stat == .run || g.stat == .draining) && (d.stage == .walk || (s.peers d).all Drive.walkedTo))
      || (g.stat == .saved && !d.sync && !d.help && completed))

/-- ANN_DRIVER_STEP: a drive makes one walk read or sends its next transaction (R97, R100, R104, R105). -/
def execAnnDriverStep (drive : Nat) (s : State) : Host.Outcome State Fault Refusal :=
  match s.drive? drive with
  | none => .refused (.notEnabled "ANN_DRIVER_STEP")
  | some d =>
    match s.group? d.gid, s.warp? d.gid d.widx with
    | some g, some w =>
      if s.driveEnabled g w d then
        .next (s.driveStep g w d)
      else .refused (.notEnabled "ANN_DRIVER_STEP")
    | _, _ => .refused (.notEnabled "ANN_DRIVER_STEP")

/-- The engine's side of a transaction of an announced operation (R97 to R100, R104): what its drive has asked for. -/
def State.serveAnn (s : State) (t : Tx) : State :=
  match s.drive? t.y.toNat with
  | none => s
  | some d0 =>
    match s.group? d0.gid, s.warp? d0.gid d0.widx with
    | some g, some w =>
      let d := { d0 with asked := false }
      let q := t.n.toNat
      match d0.stage with
      | .swap => s.swap g w d q t.loc
      | .header =>
        let h := t.loc
        let d := { d with
          count := d.count + 1, t0 := s.locNat h 4, h0 := s.locNat (h.plus 4) 4, top := BitVec.ofNat 64 (s.locNat (h.plus 8) 8) }
        if d.t0 = d.h0 ∨ d.top = 0 then s.endDrive d (0, 0)
        else s.setDrive { d with stage := .walk, cursor := d.top, xs := d.t0, seen := d.h0 }
      | .step =>
        let r := s.readRec q
        let l := if r.seq = d.xs then (r.line d.want).map fun _ => t.loc else none
        let d := { d with count := d.count + 1 }
        let s := (s.countTxn d).txnStep g.core q d.want d.xs l
        let a := s.readRec q
        s.learn w d a.step a.state a.next a.seq
      | .collect => s.collect g w d q
      | .walk | .done => s
    | _, _ => s

/-! ### ANN and ANN.HLP (R227, R228) -/

/-- The header address of a lane. -/
def Ctx.header (c : Ctx) (p : Space) (a l : Nat) : DWord := if p = .g then c.pair a l else (c.reg a l).setWidth 64

/-- The record code of an operation (R227). -/
def annCode (o : AnnOp) : Nat := let n := o.code.toNat; if n ≤ 8 then n + 1 else n + 7

/-- The width that a lane supplies; 0 for a counter (R101). -/
def Ctx.annWidth (c : Ctx) (x : OpAnn) (l : Nat) : Nat :=
  if isContainer (annCode x.o) then (c.reg (2 * x.b.toNat + 1) l).toNat % 32 else 0

/-- The lane's drive that stands at the instruction (R100, R108). -/
def State.driveOf (s : State) (c : Ctx) (help : Bool) (l : Nat) : Option Drive :=
  findBy (fun d => d.gid == c.cur.gid && d.widx == c.cur.widx && d.lane == l && d.sync && d.help == help
    && d.pc == c.cur.pc && d.clo == c.cur.clo) s.drives

/-- MISALIGNED_ACCESS of the lowest lane whose record is not 64-byte aligned (R82, R227), as %annbase of a restored image may
leave it; it comes before the checks of the header (DESIGN CHOICE, log 58). -/
def recordTrap (s : State) (c : Ctx) (ls : List Nat) : Option State :=
  (findBy (fun l => (c.warp.recordAt l).toNat % 64 != 0) ls).map fun l => raise s c 0x26 0 (c.warp.recordAt l)

/-- The checks of a header in each of some lanes, in the order of R218 and R227. -/
def headerTrap (s : State) (c : Ctx) (p : Space) (a : Nat) (ls : List Nat) : Option State :=
  let bad := fun (f : DWord → Bool) => findBy (fun l => f (c.header p a l)) ls
  match bad fun h => decide (h.toNat % 16 ≠ 0) with
  | some l => some (raise s c 0x26 0 (c.header p a l))
  | none =>
    let outside := fun (h : DWord) =>
      match s.objPlace c.grp p false h 16 with
      | .error f => f.xf.isNone
      | .ok _ => false
    match bad outside with
    | some l => some (raise s c 0x25 0 (c.header p a l))
    | none =>
      let locked := fun (l : Nat) =>
        let h := c.header p a l
        let e : Ea := match p with
          | .n => ⟨l, h, ((s.member? c.grp (h.toNat / 2 ^ 29)).map fun m => m.gid).getD c.grp.gid, h.toNat % 2 ^ 29, false, false, none⟩
          | .s => ⟨l, h, c.grp.gid, h.toNat, false, false, none⟩
          | .g => ⟨l, h, 0, h.toNat, false, false, none⟩
        s.lockedAt c.grp p e 16
      match findBy locked ls with
      | some l => some (raise s c 3 0 (c.header p a l))
      | none => none

/-- What the record and the header of a lane's announcement give (R109, R227, R269): the places of both, an exception of
the step before the tail swap, or a record that is not idle. -/
inductive SwapPlace where
  | ok (q : Nat) (h : Loc)
  | fault (f : StepFault)
  | busy

/-- Translates a lane's record, then its header, and reads the record's state (R100, R269). -/
def Ctx.swapPlace (s : State) (c : Ctx) (p : Space) (a l : Nat) : SwapPlace :=
  match s.farPlace c.grp true (c.warp.recordAt l) with
  | .error f => .fault f
  | .ok q =>
    if (s.readRec q).state ≠ 0 then .busy
    else
      match s.objPlace c.grp p true (c.header p a l) 16 with
      | .error f => .fault f
      | .ok h => .ok q h

/-- The exception of the first of some lanes whose record and header have no places or whose record is not idle (R100,
R109): ANN_STEP_FAULT with ESTEP 0, PROTECTION, or ILLEGAL. -/
def swapTrap (s : State) (c : Ctx) (p : Space) (a : Nat) : List Nat → Option State
  | [] => none
  | l :: r =>
    match c.swapPlace s p a l with
    | .ok _ _ => swapTrap s c p a r
    | .fault f =>
      some (takeTrap s c.cur ⟨if f.xf.isSome then 0x29 else 0x25, c.cur.pc, f.addr, 0, 0, f.xf, true, false⟩)
    | .busy => some (illegal s c)

/-- The exception of the first of some lanes whose header ANN.HLP cannot read (R109): ESTEP and EAUX are 0, for no record
is driven yet (DESIGN CHOICE, log 58). -/
def readTrap (s : State) (c : Ctx) (p : Space) (a : Nat) : List Nat → Option State
  | [] => none
  | l :: r =>
    match s.objPlace c.grp p false (c.header p a l) 16 with
    | .ok _ => readTrap s c p a r
    | .error f =>
      some (takeTrap s c.cur ⟨if f.xf.isSome then 0x29 else 0x25, c.cur.pc, f.addr, 0, 0, f.xf, false, false⟩)

/-- A new drive of a lane. -/
def Ctx.newDrive (s : State) (c : Ctx) (help sync : Bool) (p : Space) (a op limit fly dreg : Nat) (l i : Nat)
    (x0 x1 : Word) (width : Nat) : Drive where
  id := s.uid + i
  gid := c.cur.gid
  widx := c.cur.widx
  lane := l
  help := help
  sync := sync
  pc := c.cur.pc
  split := c.cur.split
  clo := c.cur.clo
  space := p
  obj := c.header p a l
  op := op
  x0 := x0
  x1 := x1
  width := width
  fly := fly
  dreg := dreg
  stage := if help then .header else if c.warp.annLive.getLsbD l then .walk else .swap
  cursor := if help then 0 else c.warp.recordAt l
  xs := 0
  want := 0
  h0 := 0
  t0 := 0
  top := 0
  seen := 0
  carried := 0
  limit := limit
  count := 0
  asked := help || !c.warp.annLive.getLsbD l
  parked := false
  out := (0, 0)

/-- Holds the issuing split at its instruction until its drives end. -/
def hold (s : State) (c : Ctx) (k : Nat) : State :=
  { s.updWarp c.cur.gid c.cur.widx fun w => w.updSplit c.cur.split fun x => { x with busy := some k } with cur := none }

/-- The first requests of new drives: the tail swaps of lanes without a live announcement, or the header reads. -/
def Ctx.firstTxs (s : State) (c : Ctx) (help : Bool) (p : Space) (a : Nat) (made : List Drive) : List Tx :=
  (made.filter fun d => d.asked).filterMap fun d =>
    if help then
      match s.objPlace c.grp p false (c.header p a d.lane) 16 with
      | .ok h => some ⟨d.lane, h, BitVec.ofNat 64 d.id, 0⟩
      | .error _ => none
    else
      match c.swapPlace s p a d.lane with
      | .ok q h => some ⟨d.lane, h, BitVec.ofNat 64 d.id, BitVec.ofNat 64 q⟩
      | _ => none

/-- Starts drives and sends their first requests, those of one engine as one batch (R91): tail swaps in the order of the
warp's memory-writing instructions and, with REL, after the landing of a release (R106). -/
def startDrives (s : State) (c : Ctx) (help : Bool) (rel : Option Scope) (p : Space) (a : Nat) (made : List Drive) : State :=
  let txs := c.firstTxs s help p a made
  let s := { s with drives := s.drives ++ made, uid := s.uid + made.length }
  let bs := s.batchesOf c.grp c.cur.widx 0 (.ann (if help then .header else .swap)) txs
  let s := { s with uid := s.uid + bs.length }
  if bs.isEmpty then s
  else if help then s.sendBatches c.grp none bs none
  else s.doAct c.grp c.cur.widx (.send rel bs)

/-- The waiting form of ANN and ANN.HLP: it starts the drives of the lanes that have none, and when all have ended writes
their results. -/
def waitDrives (s : State) (c : Ctx) (help : Bool) (p : Space) (a : Nat) (ls : List Nat) (acq rel : Option Scope)
    (check : List Nat → Option State) (mk : Nat → Nat → Drive) (ws : (Nat → Word × Word) → Writes) (m : Option Modifier) : State :=
  let new := ls.filter fun l => (s.driveOf c help l).isNone
  match check new with
  | some t => t
  | none =>
    let made := new.zipIdx.map fun q => mk q.1 q.2
    let s1 := startDrives s c help rel p a made
    if ls.all fun l => match s1.driveOf c help l with | some d => d.stage == .done | none => false then
      let out := fun (l : Nat) => match s1.driveOf c help l with | some d => d.out | none => (0, 0)
      let s2 := { s1 with drives := s1.drives.filter fun d => !(d.of c.cur.gid c.cur.widx c.cur.pc c.cur.clo && ls.contains d.lane) }
      let s2 := match acq with | some x => s2.acquireFor c.grp c.cur.widx x | none => s2
      let s3 := s2.updWarp c.cur.gid c.cur.widx fun w => w.updSplit c.cur.split fun x => { x with busy := none }
      finish s3 c m false (ws out) flag0
    else if c.streamed then hold s1 c 0
    else { s1 with cur := none }

/-- Whether some lane's announcement of a value in flight has still to perform its tail swap. -/
def State.swapping (s : State) (key : Nat) : Bool := s.drives.any fun d => d.fly == key && !d.sync && d.stage == .swap

/-- Whether the request of a drive waits for the landing of a release, which holds up no retirement (R144). -/
def State.swapGated (s : State) (id : Nat) : Bool := s.cores.any fun p => p.2.relq.any fun r => r.after.any fun a =>
  match a with
  | .send b => (match b.kind with | .ann _ => true | _ => false) && b.txs.any fun t => t.y.toNat == id
  | _ => false

/-- Whether the deferring ANN of a value in flight must wait at its PC: a tail swap of it has still to be performed, and waits for
no landing (R105, R144). -/
def State.swapHeld (s : State) (key : Nat) : Bool :=
  s.drives.any fun d => d.fly == key && !d.sync && d.stage == .swap && !s.swapGated d.id

/-- The deferring ANN after its tail swaps (R105): it retires, and its pair is event-pending. -/
def retireAnn (s : State) (c : Ctx) (m : Option Modifier) (key d : Nat) : State :=
  let t := s.updWarp c.cur.gid c.cur.widx fun w => w.updSplit c.cur.split fun x => { x with busy := none }
  finishPending t c key (!s.swapping key) (c.actMask m) (pair d)

/-- ANN (R227): in non-deferring mode the instruction waits for its results (R100); in deferring mode it retires after
its tail swaps, the announcement driver performs the drive and the pair lands (R105). Where the swaps wait for the
landing of a release, the deferring form does not: its pair is latency-pending until then (R144). LD, POP and DEQ record an operand0 of 0 (log 67). -/
def execAnn (x : OpAnn) (s : State) : Host.Outcome State Fault Refusal :=
  issue s (.ann x) fun c =>
    let ls := c.act x.m
    let a := 2 * x.a.toNat
    let b := 2 * x.b.toNat
    let d := 2 * x.d.toNat
    let wide := isContainer (annCode x.o)
    let sc := objScope x.p
    let rel := if x.ord.getLsbD 0 then some sc else none
    let acq := if x.ord.getLsbD 1 then some sc else none
    let sync := if c.streamed then (match c.split.busy with
      | some k => k == 0
      | none => !c.deferring || ls.any fun l => (s.driveOf c false l).isSome) else !c.deferring
    let op0 := fun l => if x.o = .ld ∨ x.o = .pop ∨ x.o = .deq then 0 else c.reg b l
    let op1 := fun l => if x.o = .cas then c.reg (b + 1) l else 0
    let badWidth := fun l => wide && (c.annWidth x l == 0 || decide (16 < c.annWidth x l))
    let fresh := fun (ls : List Nat) => ls.filter fun l => !c.warp.annLive.getLsbD l
    let check := fun (ls : List Nat) =>
      if ls.isEmpty then none
      else if c.warp.annbase = 0 then some (illegal s c)
      else if ls.any badWidth then some (illegal s c)
      else
        match recordTrap s c ls with
        | some t => some t
        | none =>
          match headerTrap s c x.p a ls with
          | some t => some t
          | none => swapTrap s c x.p a (fresh ls)
    if ls.isEmpty then .next (finishPlain s c)
    else if sync then
      .next (waitDrives s c false x.p a ls acq rel check
        (fun l i => c.newDrive s false true x.p a (annCode x.o) 0 0 d l i (op0 l) (op1 l) (c.annWidth x l))
        (fun out => [(d, fun l => (out l).1), (d + 1, fun l => (out l).2)]) x.m)
    else
      match (if c.streamed then c.split.busy else none) with
      | some key => .next (if s.swapHeld key then { s with cur := none } else retireAnn s c x.m key d)
      | none =>
        match check ls with
        | some t => .next t
        | none =>
          let mask := c.actMask x.m
          let key := c.key s
          let s1 := addFly s c (flyFor mask (pair d) acq)
          let made := ls.zipIdx.map fun p =>
            c.newDrive s1 false false x.p a (annCode x.o) 0 key d p.1 p.2 (op0 p.1) (op1 p.1) (c.annWidth x p.1)
          let s2 := startDrives s1 c false rel x.p a made
          .next (if c.streamed && s2.swapHeld key then hold s2 c key
            else finishPending s2 c key (!s2.swapping key) mask (pair d))

/-- ANN.HLP (R104, R228): the instruction waits, in either mode, and writes the number of records it saw complete. -/
def execAnnHlp (x : OpHlp) (s : State) : Host.Outcome State Fault Refusal :=
  issue s (.annHlp x) fun c =>
    let ls := c.act x.m
    let a := 2 * x.a.toNat
    let check := fun (ls : List Nat) =>
      match headerTrap s c x.p a ls with
      | some t => some t
      | none => readTrap s c x.p a ls
    if ls.isEmpty then .next (finishPlain s c)
    else
      .next (waitDrives s c true x.p a ls none none check
        (fun l i => c.newDrive s true true x.p a 0 (x.n.toNat + 1) 0 (2 * x.d.toNat) l i 0 0 0)
        (fun out => [(2 * x.d.toNat, fun l => (out l).1)]) x.m)

/-- Whether a lane's tail swap has still to be performed and waits for no landing: an ANN that stands before ANNQ in its warp has
retired only after it (R105, R144). -/
def State.unswapped (s : State) (c : Ctx) (lane : Nat) : Bool :=
  s.drives.any fun d => d.gid == c.cur.gid && d.widx == c.cur.widx && d.lane == lane && !d.help && d.stage == .swap && !s.swapGated d.id

/-- The place of a lane's own record as ANNQ reads it: none where it has none, which raises nothing (R228). -/
def Ctx.ownRecord (s : State) (c : Ctx) (l : Nat) : Option Nat :=
  match s.farPlace c.grp false (c.warp.recordAt l) with
  | .ok q => some q
  | .error _ => none

/-- ANNQ (R105, R228): the state, op, step and width of the lane's own record, and its result, with no transaction; it
waits for the tail swap of the lane's own announcement. Nothing constrains what it reads of a record that has no place
(log 59). -/
def execAnnq (x : OpAnnq) (s : State) : Host.Outcome State Fault Refusal :=
  issue s (.annq x) fun c =>
    let d := 2 * x.d.toNat
    let ls := c.act x.m
    if ls.isEmpty then .next (finishPlain s c)
    else if c.warp.annbase = 0 then .next (illegal s c)
    else if ls.any (s.unswapped c) then .next { s with cur := none }
    else
      let at_ := fun (l o k : Nat) => match c.ownRecord s l with
        | some q => BitVec.ofNat 32 (s.homeNat (q + o) 4)
        | none => Config.freeWord (s.free + 2 * l + k)
      .next (finish { s with free := s.free + 64 } c x.m false [(d, fun l => at_ l 4 0), (d + 1, fun l => at_ l 40 1)] flag0)

end Sys2Proof.Machine
end

