-- ==== Sys2Proof/Machine/Barrier.lean ====
section
/-! DEFINITION. Named barriers (R147, R229 to R232). -/

namespace Sys2Proof.Machine

/-- A barrier as a group sees it: the group that holds its state, its key there, and the state; none while the group
has not initialised it (R229, R230). -/
def State.barOf (s : State) (g : Group) (b : Nat) : Option (Group × Nat × Bar) :=
  let own := smGet Bar.fresh g.bars b
  let gang :=
    match s.barHome? g with
    | none => none
    | some m =>
      let x := smGet Bar.fresh m.bars (16 + b)
      if x.init ∧ x.inits.contains g.member then some (m, 16 + b, x) else none
  match gang with
  | some x => some x
  | none => if own.init then some (g, b, own) else none

/-- Changes the state of a barrier. -/
def State.setBar (s : State) (gid key : Nat) (x : Bar) : State :=
  s.updGroup gid fun g => { g with bars := smSet Bar.fresh g.bars key x }

/-- The scope of a barrier (R147). -/
def Bar.scope (x : Bar) : Scope := if x.gang then .gang else .group

/-- Whether a phase number lies before the current phase. -/
def Bar.past (x : Bar) (p : Word) : Bool := (p - x.ph).msb

/-- What the observation of a completed phase does to the warp's counters (R232). -/
def Warp.observe (w : Warp) (b : Nat) : Warp :=
  let o := smGet 0 w.obsp b + 1
  let a := smGet 0 w.arvp b
  { w with obsp := smSet 0 w.obsp b o, arvp := smSet 0 w.arvp b (if (a - o).msb then o else a) }

/-- Lands the BAR.PNDs that wait for a phase (R232): the value is ready, and the counters advance. -/
def State.landPnds (s : State) (b : Nat) : List BarWait → State
  | [] => s
  | x :: r =>
    let s := s.updFly x.fly fun f => f.answer f.mask [x.phase] false
    (s.updWarp x.gid x.widx fun w => w.observe b).landPnds b r

/-- Completes phases while the current one is complete (R229). -/
def State.advanceBar (s : State) (gid key : Nat) : Nat → State
  | 0 => s
  | fuel + 1 =>
    match s.group? gid with
    | none => s
    | some g =>
      let x := smGet Bar.fresh g.bars key
      if x.init ∧ x.count ≤ x.ta0 ∧ x.ea0 = x.ee0 then
        let hit := x.pnds.filter fun p => p.phase == x.ph
        let x' := { x with
          ph := x.ph + 1, ta0 := x.ta1, ee0 := x.ee1, ea0 := x.ea1, ta1 := 0, ee1 := 0, ea1 := 0
          pnds := x.pnds.filter fun p => p.phase != x.ph }
        ((s.setBar gid key x').landPnds (key % 16) hit).advanceBar gid key fuel
      else s

/-- An arrival tagged with a phase is counted; one whose phase has completed adds nothing (R231). -/
def State.arrive (s : State) (gid key : Nat) (tag : Word) : State :=
  match s.group? gid with
  | none => s
  | some g =>
    let x := smGet Bar.fresh g.bars key
    let x' :=
      if tag = x.ph then { x with ta0 := x.ta0 + 1 }
      else if tag = x.ph + 1 then { x with ta1 := x.ta1 + 1 }
      else x
    (s.setBar gid key x').advanceBar gid key 3

/-- An engine arrival: toward the lower phase whose arrivals are below its expectations (R231). -/
def State.engineArrive (s : State) (g : Group) (b : Nat) : State :=
  match s.barOf g b with
  | none => s
  | some (o, key, x) =>
    let x' :=
      if x.ea0 < x.ee0 then { x with ea0 := x.ea0 + 1 }
      else if x.ea1 < x.ee1 then { x with ea1 := x.ea1 + 1 }
      else x
    (s.setBar o.gid key x').advanceBar o.gid key 3

/-- A BAR instruction on an initialised barrier: no effect with no active lane, and ILLEGAL on an uninitialised barrier
or in a gathered task warp (R25, R229). -/
def barrier (s : State) (i : Instr) (b : Nat) (m : Option Modifier) (f : Ctx → Group → Nat → Bar → State) :
    Host.Outcome State Fault Refusal :=
  issue s i fun c =>
    .next (if (c.act m).isEmpty then finishPlain s c
      else if c.warp.task then illegal s c
      else
        match s.barOf c.grp b with
        | none => illegal s c
        | some (o, key, x) => f c o key x)

/-- BAR.INIT (R229, R230). -/
def execBarInit (x : OpBarInit) (s : State) : Host.Outcome State Fault Refusal :=
  issue s (.barInit x) fun c =>
    let b := x.k.toNat
    let v := c.reg x.a.toNat (c.low x.m)
    let local_ := smGet Bar.fresh c.grp.bars b
    let isGang := match s.barOf c.grp b with | some (_, k, _) => decide (16 ≤ k) | none => false
    .next (if (c.act x.m).isEmpty then finishPlain s c
      else if c.warp.task then illegal s c
      else if v.toNat = 0 ∨ 1024 < v.toNat then raise s c 0x20 v 0
      else if x.gang then
        if c.grp.members ≤ 1 ∧ !c.grp.isGang then illegal s c
        else
          match s.barHome? c.grp with
          | none => illegal s c
          | some m =>
            let y := smGet Bar.fresh m.bars (16 + b)
            if !y.init then
              finishPlain (s.setBar m.gid (16 + b)
                { Bar.fresh with init := true, gang := true, count := v.toNat, inits := [c.grp.member] }) c
            else if y.count ≠ v.toNat then illegal s c
            else finishPlain (s.setBar m.gid (16 + b)
              { y with inits := y.inits.filter (· != c.grp.member) ++ [c.grp.member] }) c
      else if isGang then illegal s c
      else if local_.init ∧ local_.ta0 + local_.ee0 + local_.ea0 + local_.ta1 + local_.ee1 + local_.ea1 ≠ 0 then illegal s c
      else finishPlain (s.setBar c.grp.gid b { local_ with init := true, count := v.toNat }) c)

/-- BAR.ARV: one arrival of the warp, counted when its release lands (R147, R231). -/
def execBarArv (x : OpBar) (s : State) : Host.Outcome State Fault Refusal :=
  barrier s (.barArv x) x.k.toNat x.m fun c o key y =>
    let b := x.k.toNat
    let tag := smGet 0 c.warp.arvp b
    if 2 ≤ (tag - smGet 0 c.warp.obsp b).toNat then illegal s c
    else
      let s := s.updWarp c.cur.gid c.cur.widx fun w => { w with arvp := smSet 0 w.arvp b (tag + 1) }
      finishPlain (s.doAct c.grp c.cur.widx (.release y.scope false [.arrive o.gid key tag])) c

/-- BAR.ADD: engine expectations of phase ARVP, or of the current phase where that has completed (R231). -/
def execBarAdd (x : OpBarS) (s : State) : Host.Outcome State Fault Refusal :=
  barrier s (.barAdd x) x.k.toNat x.m fun c o key y =>
    let v := (c.reg x.r.toNat (c.low x.m)).toNat
    let a := smGet 0 c.warp.arvp x.k.toNat
    let now := a == y.ph || y.past a
    if v = 0 ∨ 255 < v then illegal s c
    else if now then
      if 255 < y.ee0 + v then illegal s c else finishPlain (s.setBar o.gid key { y with ee0 := y.ee0 + v }) c
    else if a = y.ph + 1 then
      if 255 < y.ee1 + v then illegal s c else finishPlain (s.setBar o.gid key { y with ee1 := y.ee1 + v }) c
    else illegal s c

/-- BAR.TST: whether phase OBSP has completed; on 1 it is observed (R147, R232). -/
def execBarTst (x : OpBarS) (s : State) : Host.Outcome State Fault Refusal :=
  barrier s (.barTst x) x.k.toNat x.m fun c _ _ y =>
    let b := x.k.toNat
    let done := y.past (smGet 0 c.warp.obsp b)
    let s := if done then
        (s.acquireFor c.grp c.cur.widx y.scope).updWarp c.cur.gid c.cur.widx fun w => w.observe b
      else s
    finish s c x.m false [(x.r.toNat, fun _ => boolWord done)] flag0

/-- BAR.PND: vd lands the phase number when phase OBSP completes; ILLEGAL in non-deferring mode (R35, R232). -/
def execBarPnd (x : OpBarS) (s : State) : Host.Outcome State Fault Refusal :=
  barrier s (.barPnd x) x.k.toNat x.m fun c o key y =>
    if !c.deferring then illegal s c
    else
      let b := x.k.toNat
      let ph := smGet 0 c.warp.obsp b
      let id := c.key s
      let mask := c.actMask x.m
      let s := addFly s c (flyFor mask [x.r.toNat] (some y.scope))
      let w : BarWait := ⟨c.cur.gid, c.cur.widx, id, ph⟩
      let s := if y.past ph then s.landPnds b [w] else s.setBar o.gid key { y with pnds := y.pnds ++ [w] }
      finishPending s c id true mask [x.r.toNat]

end Sys2Proof.Machine
end

