-- ==== Sys2Proof/Machine/Signals.lean ====
section
/-! DEFINITION. What the engine instructions share (R246 to R249): single-lane issue, signal pairs, engine writes to
scratch, and the end of an operation. -/

namespace Sys2Proof.Machine

/-- Whether a word names a barrier and not a completion word (R247). -/
def Signal.isBarrier (x : Signal) : Bool := !x.sig.getLsbD 31

/-- The signalling operations of a group that are outstanding toward a barrier, over all engines (R247). -/
def State.signalsTo (s : State) (g : Group) (b : Nat) : Nat :=
  let toward := fun (x : Option Signal) =>
    match x with
    | some y => y.isBarrier && y.gid == g.gid && decide (y.sig.toNat % 16 = b)
    | none => false
  (s.ops.filter fun o => toward o.signal).length
    + (s.cores.flatMap fun p => p.2.mx.queue.filter fun q => toward q.signal).length
    + (s.savedMx.flatMap fun p => p.2.queue.filter fun q => toward q.signal).length
    + (s.dies.filter fun p => toward p.2.scrub.signal).length

/-- What the check of a signal pair at issue gives (R247): the signal, an issue status, or ILLEGAL. -/
inductive SigCheck where
  | ok (x : Signal)
  | status (n : Nat)
  | illegal
  deriving DecidableEq, Repr

/-- The engine expectations of a barrier that no arrival has yet met (R229, R247). -/
def Bar.awaited (x : Bar) : Nat := x.ee0 + x.ee1 - (x.ea0 + x.ea1)

/-- Checks the signal pair of an instruction of a group (R246, R247). Of the engine expectations those count that no arrival
has yet met (DESIGN CHOICE, log 71). -/
def State.checkSignal (s : State) (g : Group) (sig val : Word) : SigCheck :=
  if sig.getLsbD 31 then
    let w := sig.toNat % 2 ^ 20
    if sig.extractLsb' 20 11 != 0 then .status 2
    else if 0xFFFFFF00 ≤ val.toNat ∨ w % 4 ≠ 0 then .status 2
    else if g.sBytes < w + 4 then .status 4
    else .ok ⟨sig, val, g.gid⟩
  else if sig.extractLsb' 4 27 != 0 then .status 2
  else
    let b := sig.toNat % 16
    match s.barOf g b with
    | none => .illegal
    | some (_, _, x) => if x.awaited ≤ s.signalsTo g b then .illegal else .ok ⟨sig, val, g.gid⟩

/-- Gives a signal with a completion status (R247): an engine arrival, or a store of the engine to the completion word.
The signal of a group that has ended is given to nobody. -/
def State.giveSignal (s : State) (x : Signal) (status : Nat) : State :=
  match s.group? x.gid with
  | none => s
  | some g =>
    if x.isBarrier then s.engineArrive g (x.sig.toNat % 16)
    else
      let v : Word := if status = 0 then x.val else 0xFFFFFF00 + BitVec.ofNat 32 status
      s.storeLocal (.sram g.gid (x.sig.toNat % 2 ^ 20)) (natBytes 4 v.toNat)

/-- Gives the signal of an operation that owes one. -/
def State.giveSignal? (s : State) (x : Option Signal) (status : Nat) : State :=
  match x with
  | some y => s.giveSignal y status
  | none => s

/-- An instruction of exactly one active lane (R123, R246): no effect with none, and ILLEGAL with more. -/
def single (s : State) (i : Instr) (k : Ctx → Nat → Host.Outcome State Fault Refusal) : Host.Outcome State Fault Refusal :=
  issue s i fun c =>
    match c.act i.modifier with
    | [] => .next (finishPlain s c)
    | [l] => k c l
    | ls => .next (raise s c 0x20 (BitVec.ofNat 32 ls.length) 0)

/-- Completes an instruction whose only result is a status in every active lane. -/
def finishStatus (s : State) (c : Ctx) (m : Option Modifier) (d n : Nat) : State :=
  finish s c m false [(d, fun _ => BitVec.ofNat 32 n)] flag0

/-- An engine operation of the issuing warp, as read at issue; it has no landing, lock or signal yet. -/
def Ctx.engOp (s : State) (c : Ctx) (k : OpKind) (m : Option Modifier) (args : List Word) : EngOp where
  id := s.uid
  kind := k
  gid := c.grp.gid
  widx := c.cur.widx
  core := c.grp.core
  asid := c.grp.asid
  args := args
  lanes := []
  mask := c.actMask m
  fly := 0
  dreg := 0
  signal := none
  snap := (s.core c.grp.core).contained
  cb := c.cur.cb
  sent := s.tick47 / 47
  parked := false
  orphan := false
  out := none
  part := c.grp.part
  payer := s.payer c.grp.part

/-- Starts an engine operation and registers its locks under its number (R322). -/
def State.startOp (s : State) (o : EngOp) (ls : List Lock) : State :=
  { s.lock o.core ls with ops := s.ops ++ [o], uid := s.uid + 1 }

/-- Ends an engine operation: its ranges are unlocked, then its signal is given (R127, R247). -/
def State.endOp (s : State) (o : EngOp) (status : Nat) : State :=
  (({ s with ops := s.ops.filter fun x => x.id != o.id }).unlock o.core o.id).giveSignal? o.signal status

/-- The value in flight of an operation that lands words in its registers, the same in every lane of its mask; lanes
that have exited discard theirs (R248, R249). -/
def State.landWords (s : State) (fly : Nat) (ws : List Word) : State :=
  s.updFly fly fun f => { f with vals := f.vals.zipIdx.map fun p => (p.1.1, List.replicate 32 (ws.getD p.2 0)), ready := f.mask, left := 0 }

/-- The number in n consecutive registers of a lane, lowest first, as words. -/
def Ctx.words (c : Ctx) (r n l : Nat) : List Word := (List.range n).map fun i => c.reg (r + i) l

/-- The 64-bit value of two words. -/
def join64 (lo hi : Word) : DWord := hi ++ lo

/-- The number of a list of words, the lowest first. -/
def wordsNat (ws : List Word) : Nat := bytesNat (ws.flatMap fun w => natBytes 4 w.toNat)

/-- Bits lo to lo + n - 1 of a number. -/
def bitsOf (v lo n : Nat) : Nat := v / 2 ^ lo % 2 ^ n

end Sys2Proof.Machine
end

