-- ==== Sys2Proof/Machine/Matrix.lean ====
section
/-! DEFINITION. The matrix instructions (06, R246 to R252): reservations, the queue, and the checks at issue. -/

namespace Sys2Proof.Machine

/-! ### Tensors in memory (R52, R62) -/

/-- The elements of a packing group of elements of width w. -/
def packGroup (w : Nat) : Nat :=
  match w with
  | 2 | 6 => 4
  | 3 => 8
  | 4 => 2
  | _ => 1

/-- The bytes of a row of n elements of width w, its last group filled up (R52). -/
def rowBytes (w n : Nat) : Nat := (n + packGroup w - 1) / packGroup w * (packGroup w * w / 8)

/-- The code of element k of a row at an address. -/
def packedElem (rd : Nat → Byte) (a w k : Nat) : Nat :=
  let bit := w * k
  readNat rd (a + bit / 8) ((bit % 8 + w + 7) / 8) / 2 ^ (bit % 8) % 2 ^ w

/-- The bytes of a row of codes, its unused slots filled with the absent code (R52). -/
def packRow (f : Fmt) (cs : List Nat) : List Byte :=
  let w := fmtWidth f
  let n := rowBytes w cs.length
  let slots := n * 8 / w
  natBytes n ((((cs ++ List.replicate (slots - cs.length) (absentCode f)).zipIdx).map fun p => p.1 % 2 ^ w * 2 ^ (w * p.2)).sum)

/-- The block length of a block-length code (R62). -/
def blockLen (blk : Nat) : Nat := 16 * 2 ^ (blk % 4)

/-- The format of a code, .F32 for a reserved one, which no check lets through. -/
def fmtAt (n : Nat) : Fmt := (Fmt.ofCode (BitVec.ofNat 5 n)).getD .f32

/-- The blocks of n elements in a format; 0 for an unscaled format. -/
def blocksIn (f : Fmt) (blk n : Nat) : Nat := if f.scaled then (n + blockLen blk - 1) / blockLen blk else 0

/-- The exact sum of values, NaN and infinities by IEEE 754. Where a NaN stands among infinities of both signs the spec
does not say whether NV is set; here the fold decides, from the last value to the first: NV is set where two infinities of
opposite sign meet before the NaN does (DESIGN CHOICE, log 63). -/
def sumExact : List FVal → FVal × Flags
  | [] => (.zero, flag0)
  | [x] => (x, flag0)
  | x :: r =>
    let q := sumExact r
    let z := fsum x q.1 .nearest
    (z.1, z.2 ||| q.2)

/-! ### Reservations (R111, R265) -/

/-- The size of an operand buffer. -/
def opbufSize : Nat := 0x40000

/-- The reservation with an id. -/
def Matrix.resv? (x : Matrix) (id : Nat) : Option Resv := findBy (fun r => r.id == id) x.resv

/-- Whether a queued MRELS frees an id, which a later command may not name (R111). -/
def Matrix.releasing (x : Matrix) (id : Nat) : Bool :=
  x.queue.any fun q => q.kind == .rels && decide ((q.args.getD 0 0).toNat = id)

/-- The reservation that a command may name. -/
def Matrix.named (x : Matrix) (id : Nat) : Option Resv := if x.releasing id then none else x.resv? id

/-- The byte range of a reservation in the operand buffer. -/
def Resv.lo (r : Resv) : Nat := 1024 * r.base
def Resv.bytes (r : Resv) : Nat := 1024 * r.len

/-- The reservation of a record (R111). -/
def resvOf (v : Nat) : Resv where
  id := 0
  weights := decide (bitsOf v 33 1 = 1)
  fmt := bitsOf v 28 5
  base := bitsOf v 20 8
  len := bitsOf v 11 9
  blk := bitsOf v 34 2
  scaleBase := 32 * bitsOf v 36 13
  cbBase := 32 * bitsOf v 49 13

/-- The failure of a reservation on an engine for a group, in the order of R111; none for success. -/
def Matrix.resvFailure (x : Matrix) (gid : Nat) (r : Resv) : Option Nat :=
  let cbk := match fmtClass (fmtAt r.fmt) with | .codebook _ _ => true | _ => false
  if 23 < r.fmt || (cbk && decide (opbufSize < r.cbBase + 32)) then some 4
  else if r.len = 0 ∨ 256 < r.base + r.len ∨ r.bytes ≤ r.scaleBase then some 5
  else if !(match x.owner with | some o => o == gid | none => true) then some 1
  else if x.resv.any fun y => meets y.base y.len r.base r.len then some 2
  else if 16 ≤ x.resv.length then some 3
  else none

/-- The lowest free reservation id (R265). -/
def Matrix.freeId (x : Matrix) : Nat := (findBy (fun i => (x.resv? i).isNone) (List.range 16)).getD 0

/-- The matrix engine of the issuing core. -/
def Ctx.mx (s : State) (c : Ctx) : Matrix := (s.core c.grp.core).mx

/-- Changes a core's matrix engine. -/
def State.updMx (s : State) (core : Nat) (f : Matrix → Matrix) : State :=
  let k := s.core core
  s.setCore core { k with mx := f k.mx }

/-- A matrix instruction: no effect with no active lane, and MACHINE_CHECK where the engine of its group owes one
(R122, R348). -/
def matrix (s : State) (i : Instr) (k : Ctx → Host.Outcome State Fault Refusal) : Host.Outcome State Fault Refusal :=
  issue s i fun c =>
    if (c.act i.modifier).isEmpty then .next (finishPlain s c)
    else if (c.mx s).check && (c.mx s).owner == some c.grp.gid then
      let v := s.freeValue
      .next (raise (v.2.updMx c.grp.core fun x => { x with check := false }) c 0x28 v.1 0)
    else k c

/-- MRESV (R111). -/
def execMresv (x : OpE2) (s : State) : Host.Outcome State Fault Refusal :=
  matrix s (.mresv x) fun c =>
    let v := (c.pair x.a.toNat (c.low x.m)).toNat
    let r := resvOf v
    let mx := c.mx s
    if bitsOf v 62 2 ≠ 0 ∨ bitsOf v 0 11 ≠ 0 then .next (raise s c 0x20 (BitVec.ofNat 32 v) 0)
    else
      match mx.resvFailure c.grp.gid r with
      | some e => .next (finishStatus s c x.m x.d.toNat (0x80000000 + e))
      | none =>
        let s := s.updMx c.grp.core fun y => { y with owner := some c.grp.gid, resv := y.resv ++ [{ r with id := y.freeId }] }
        .next (finishStatus s c x.m x.d.toNat mx.freeId)

/-! ### Queued commands (R110) -/

/-- A command of the issuing instruction. -/
def Ctx.mcmd (s : State) (c : Ctx) (k : MKind) (args : List Word) (m : Option Modifier) : MCmd where
  id := s.uid
  gid := c.grp.gid
  widx := c.cur.widx
  kind := k
  args := args
  table := []
  mask := c.actMask m
  fly := 0
  cb := c.cur.cb
  signal := none

/-- Puts a command into the queue of a core. -/
def State.pushMx (s : State) (core : Nat) (q : MCmd) : State :=
  { s.updMx core fun x => { x with queue := x.queue ++ [q] } with uid := s.uid + 1 }

/-- Whether the queue of the issuing core is full, so that a command interlocks (R110). -/
def Ctx.mxFull (s : State) (c : Ctx) : Bool := decide (16 ≤ (c.mx s).queue.length)

/-- Queues a command, or interlocks on a full queue (R110, R264). -/
def queueCmd (s : State) (c : Ctx) (q : MCmd) (f : Matrix → Matrix) : State :=
  if c.mxFull s then { s with cur := none }
  else finishPlain ((s.pushMx c.grp.core q).updMx c.grp.core f) c

/-- A queued matrix instruction: ILLEGAL for a group that does not hold the engine (R250). -/
def matrixOwned (s : State) (i : Instr) (k : Ctx → Host.Outcome State Fault Refusal) : Host.Outcome State Fault Refusal :=
  matrix s i fun c => if (c.mx s).owner == some c.grp.gid then k c else .next (illegal s c)

/-- MRELS (R111, R250). -/
def execMrels (x : OpBar) (s : State) : Host.Outcome State Fault Refusal :=
  matrixOwned s (.mrels x) fun c =>
    .next (match (c.mx s).named x.k.toNat with
      | none => illegal s c
      | some _ => queueCmd s c (c.mcmd s .rels [x.k.setWidth 32] x.m) id)

/-- MSCL (R114, R250). -/
def execMscl (x : OpSrc) (s : State) : Host.Outcome State Fault Refusal :=
  matrixOwned s (.mscl x) fun c => .next (queueCmd s c (c.mcmd s .scl [c.reg x.a.toNat (c.low x.m)] x.m) id)

/-- Whether an operand-buffer range meets one that a live copy is writing (R92, R112). -/
def Ctx.opLocked (s : State) (c : Ctx) (lo n : Nat) : Bool := decide (0 < n) && (s.core c.grp.core).locked 3 c.grp.asid lo n

/-- The bytes of a weight tile of a format. -/
def weightBytes (f : Fmt) : Nat := 128 * rowBytes (fmtWidth f) 128

/-- The place of the scale of weight tile j of n, and of its block scales, from the start of a reservation (R112). -/
def Resv.tileScale (r : Resv) (j : Nat) : Nat := r.scaleBase + 4 * j
def Resv.blockScales (r : Resv) (n j : Nat) : Nat := r.scaleBase + 4 * n + 4 * (j * (128 * blocksIn (fmtAt r.fmt) r.blk 128))

/-- The end of the scales of weight tiles 0 to n - 1, from the start of a reservation. -/
def Resv.weightScaleEnd (r : Resv) (n : Nat) : Nat := r.blockScales n n

/-- The codebook table of a reservation, as a range of the operand buffer; a reservation without one has none (R111). -/
def Resv.bookRange (r : Resv) : List (Nat × Nat) :=
  match fmtClass (fmtAt r.fmt) with
  | .codebook _ _ => [(r.cbBase, 32)]
  | _ => []

/-- MLDS (R112, R114, R250): an MLDS takes the tile scales of its reservation to end with its own (log 20). -/
def execMlds (x : OpBarS) (s : State) : Host.Outcome State Fault Refusal :=
  matrixOwned s (.mlds x) fun c =>
    let v := (c.reg x.r.toNat (c.low x.m)).toNat
    let o := 128 * bitsOf v 0 16
    let j := bitsOf v 16 10
    if bitsOf v 26 6 ≠ 0 then .next (raise s c 0x20 (BitVec.ofNat 32 v) 0)
    else
      match (c.mx s).named x.k.toNat with
      | none => .next (illegal s c)
      | some r =>
        let n := weightBytes (fmtAt r.fmt)
        let blocks := 4 * (128 * blocksIn (fmtAt r.fmt) r.blk 128)
        let used := [(r.lo + o, n), (r.lo + r.tileScale j, 4), (r.lo + r.blockScales (j + 1) j, blocks)] ++ r.bookRange
        if !r.weights then .next (illegal s c)
        else
          match findBy (fun (p : Nat × Nat) => c.opLocked s p.1 p.2) used with
          | some p => .next (raise s c 3 0 (BitVec.ofNat 64 p.1))
          | none =>
            if r.bytes < o + n ∨ r.bytes < r.weightScaleEnd (j + 1) then .next (raise s c 8 0 0)
            else .next (queueCmd s c (c.mcmd s .lds [x.k.setWidth 32, BitVec.ofNat 32 v] x.m) id)

/-- MSWP (R114, R250). -/
def execMswp (x : OpM) (s : State) : Host.Outcome State Fault Refusal :=
  matrixOwned s (.mswp x) fun c => .next (queueCmd s c (c.mcmd s .swp [] x.m) id)

/-- MZERO (R118, R250). -/
def execMzero (x : OpSrc) (s : State) : Host.Outcome State Fault Refusal :=
  matrixOwned s (.mzero x) fun c =>
    let w := c.reg x.a.toNat (c.low x.m)
    let v := w.toNat
    .next (if bitsOf v 18 14 ≠ 0 then raise s c 0x20 w 0
      else if 512 < bitsOf v 0 9 + bitsOf v 9 9 + 1 then raise s c 8 0 0
      else queueCmd s c (c.mcmd s .zero [w] x.m) id)

/-- MCHN (R119, R250): a gang of fewer members raises ILLEGAL. -/
def execMchn (x : OpBar) (s : State) : Host.Outcome State Fault Refusal :=
  matrixOwned s (.mchn x) fun c =>
    .next (if c.grp.members < x.k.toNat then illegal s c
      else queueCmd s c (c.mcmd s .chn [x.k.setWidth 32] x.m) fun y => { y with steps := [] })

/-- The status word of an engine (R121). -/
def Matrix.statusWord (x : Matrix) : Word := x.stat ||| BitVec.ofNat 32 (x.queue.length * 2 ^ 19)

/-- MSTAT (R121, R250). -/
def execMstat (x : OpStat) (s : State) : Host.Outcome State Fault Refusal :=
  matrixOwned s (.mstat x) fun c =>
    let v := (c.mx s).statusWord
    let s := if x.c then s.updMx c.grp.core fun y => { y with stat := y.stat &&& ~~~0x1F } else s
    .next (finish s c x.m false [(x.d.toNat, fun _ => v)] flag0)

/-! ### Loops (R117, R118, R251) -/

/-- The fields of a loop descriptor (R117). -/
structure LoopDesc where
  ainc : Nat
  winc : Nat
  aoff : Nat
  woff : Nat
  ksteps : Nat
  mrows : Nat
  row0 : Nat
  aid : Nat
  wid : Nat
  zero : Bool
  mbz : Nat
  deriving DecidableEq, Repr

/-- The loop descriptor in four words. -/
def loopDesc (ws : List Word) : LoopDesc :=
  let v := wordsNat ws
  ⟨bitsOf v 112 16, bitsOf v 96 16, bitsOf v 80 16, bitsOf v 64 16, bitsOf v 54 10 + 1, bitsOf v 45 9 + 1, bitsOf v 36 9,
    bitsOf v 32 4, bitsOf v 28 4, decide (bitsOf v 27 1 = 1), bitsOf v 0 27⟩

/-- The groups of a loop, as rows and weight offset: MLOOP has one (R117, R118). -/
def LoopDesc.groups (d : LoopDesc) (table : List (Nat × Nat)) : List (Nat × Nat) :=
  if table.isEmpty then [(d.mrows, d.woff)] else table

/-- The rows of a loop. -/
def rowsOf (gs : List (Nat × Nat)) : Nat := (gs.map fun p => p.1).sum

/-- Whether a format belongs to the tree class (R113). -/
def treeClass (f : Fmt) : Bool := f == .f32 || f == .f16 || f == .bf16

/-- Whether a format is an unscaled integer format (R113). -/
def plainInt (f : Fmt) : Bool := [Fmt.i32, .i16, .i8, .u8, .i6, .i4, .u4, .i2].contains f

/-- Whether two operand formats may be multiplied (R113). -/
def pairingOk (a w : Fmt) : Bool := (!treeClass a && !treeClass w) || (treeClass a && a == w)

/-- Whether the accumulation of two formats is in integer mode (R113). -/
def integerMode (a w : Fmt) : Bool := plainInt a && plainInt w

/-- The place of activation row i of tile j, in a loop of t rows, from the start of a reservation (R112). -/
def LoopDesc.actRow (d : LoopDesc) (r : Resv) (j i : Nat) : Nat :=
  128 * (d.aoff + j * d.ainc) + i * rowBytes (fmtWidth (fmtAt r.fmt)) 128

/-- The place of the scale of activation row i of tile j, and of its block scales (R112). -/
def Resv.rowScale (r : Resv) (t j i : Nat) : Nat := r.scaleBase + 4 * (j * t + i)
def Resv.rowBlocks (r : Resv) (k t j i : Nat) : Nat :=
  r.scaleBase + 4 * (k * t) + 4 * ((j * t + i) * blocksIn (fmtAt r.fmt) r.blk 128)

/-- The ranges of a weight reservation that a loop names (R112); scales are ignored in integer mode (R113). -/
def LoopDesc.weightRanges (d : LoopDesc) (r : Resv) (ints : Bool) (gs : List (Nat × Nat)) : List (Nat × Nat) :=
  let n := weightBytes (fmtAt r.fmt)
  let used := gs.filter fun p => decide (0 < p.1)
  (if ints then [] else [(r.scaleBase, r.weightScaleEnd d.ksteps - r.scaleBase)])
    ++ used.flatMap fun p => (List.range d.ksteps).map fun j => (128 * (p.2 + j * d.winc), n)

/-- The row scales and block scales of an activation reservation that a loop of t rows names. R112 gives row m of tile j the index
j × MROWS + m, and R118 has an MGRP ignore MROWS: for an MGRP the sum of its group rows stands in its place (DEDUCED, log 20). -/
def LoopDesc.actScales (d : LoopDesc) (r : Resv) (t : Nat) : Nat × Nat := (r.scaleBase, r.rowBlocks d.ksteps t d.ksteps 0 - r.scaleBase)

/-- The ranges of an activation reservation that a loop names. -/
def LoopDesc.actRanges (d : LoopDesc) (r : Resv) (ints : Bool) (t : Nat) : List (Nat × Nat) :=
  let n := t * rowBytes (fmtWidth (fmtAt r.fmt)) 128
  (if ints then [] else [d.actScales r t])
    ++ (List.range d.ksteps).map fun j => (128 * (d.aoff + j * d.ainc), n)

/-- The chain that a command issued now runs in: that of the last queued MCHN, or the present one (R119). -/
def Matrix.chainAhead (x : Matrix) : Nat :=
  match (x.queue.filter fun q => q.kind == .chn).getLast? with
  | some q => (q.args.getD 0 0).toNat
  | none => x.chain

/-- What a chain step records of a loop (R119). -/
def LoopDesc.record (d : LoopDesc) (table : List (Nat × Nat)) : List Nat :=
  [d.ksteps, if table.isEmpty then d.mrows else 0, d.row0] ++ table.flatMap fun p => [p.1, p.2]

/-- The MCHNs of a length that wait in the queue of an engine: a chain forms when every member's has come to its head (R119). -/
def Matrix.unformed (x : Matrix) (n : Nat) : Nat :=
  (x.queue.filter fun q => q.kind == .chn && decide ((q.args.getD 0 0).toNat = n)).length

/-- The matrix engine of another member of the chain that a loop issued now runs in, where it has issued its MCHN of the
same formation: as many of that length wait in its queue (R119). -/
def Ctx.chainMate (s : State) (c : Ctx) (m : Nat) : Option Matrix :=
  let x := c.mx s
  let n := x.chainAhead
  match (if n ≤ 1 ∨ n ≤ c.grp.member ∨ n ≤ m ∨ m = c.grp.member then none else s.member? c.grp m) with
  | none => none
  | some g =>
    let y := (s.core g.core).mx
    if y.owner == some g.gid && y.chainAhead == n && y.unformed n == x.unformed n then some y else none

/-- Whether another member of a chain has issued its next step with other parameters (R119). -/
def Ctx.chainDiffers (s : State) (c : Ctx) (n : Nat) (rec : List Nat) : Bool :=
  let k := (c.mx s).steps.length
  (List.range n).any fun m =>
    match c.chainMate s m with
    | some y => decide (k < y.steps.length) && y.steps.getD k [] != rec
    | none => false

/-- The queued loop of a chain step of an engine, among those that follow its last MCHN: a step stays in the queue until every
member has issued it (R119). -/
def Matrix.stepCmd (x : Matrix) (k : Nat) : Option MCmd :=
  let ls := (x.queue.reverse.takeWhile fun q => q.kind != .chn).reverse.filter fun q => q.kind == .loop || q.kind == .grp
  if x.steps.length - ls.length ≤ k then ls[k - (x.steps.length - ls.length)]? else none

/-- The formats that other members' loops of a step multiply with: the activations that member 0 has issued for this
step, or on member 0 the weights of the members that have issued it (R113, R119). -/
def Ctx.chainFmts (s : State) (c : Ctx) : List Fmt :=
  let k := (c.mx s).steps.length
  let one := fun (m : Nat) (acts : Bool) =>
    match c.chainMate s m with
    | none => none
    | some y => (y.stepCmd k).bind fun q =>
      (y.resv? (if acts then (loopDesc q.args).aid else (loopDesc q.args).wid)).map fun r => fmtAt r.fmt
  if c.grp.member = 0 then ((List.range (c.mx s).chainAhead).drop 1).filterMap fun m => one m false
  else (one 0 true).toList

/-- Whether a loop runs behind member 0 of a chain (R119). -/
def Ctx.follows (s : State) (c : Ctx) : Bool := decide (0 < c.grp.member) && decide (c.grp.member < (c.mx s).chainAhead)

/-- The row scales of member 0's loop that a follower's pass in an F32 mode reads, where member 0 has issued that loop: its core,
its reservation and the range in it (R112, R117, R119). -/
def Ctx.leadScales (s : State) (c : Ctx) (w : Resv) : Option (Nat × Resv × (Nat × Nat)) :=
  if !c.follows s then none
  else
    match c.chainMate s 0, s.member? c.grp 0 with
    | some y, some g =>
      match y.stepCmd (c.mx s).steps.length with
      | none => none
      | some q =>
        let d := loopDesc q.args
        match y.resv? d.aid with
        | none => none
        | some a =>
          if integerMode (fmtAt a.fmt) (fmtAt w.fmt) then none else some (g.core, a, d.actScales a (rowsOf (d.groups q.table)))
    | _, _ => none

/-- The checks of MLOOP and MGRP at issue, in the order of R251: an exception taken, or nothing. `ill` adds what is
ILLEGAL in the group table, and `tbl` the checks of its read. Behind member 0 of a chain the weights meet member 0's
activations: their pairing and mode are those of member 0's loop where it has issued it (R113, R119). The member's own AID,
which is never read, must name an activation reservation of an allowed pairing with its own tiles in range all the same
(DEDUCED, log 20): R113 and R117 exempt no member. Member 0's row scales are ignored where every known pass of the step is in
integer mode; a follower that reads them in another mode checks them too. -/
def checkLoop (s : State) (c : Ctx) (d : LoopDesc) (table : List (Nat × Nat)) (ill : Bool) (tbl tlock : Option State) :
    Option State :=
  let mx := c.mx s
  let gs := d.groups table
  let t := rowsOf gs
  let n := mx.chainAhead
  match mx.named d.wid, mx.named d.aid with
  | none, _ => some (illegal s c)
  | _, none => some (illegal s c)
  | some w, some a =>
    let mates := c.chainFmts s
    let pairs := if c.grp.member = 0 then mates.map fun f => (fmtAt a.fmt, f) else mates.map fun f => (f, fmtAt w.fmt)
    if d.mbz ≠ 0 ∨ !w.weights ∨ a.weights ∨ ((fmtAt a.fmt, fmtAt w.fmt) :: pairs).any fun p => !pairingOk p.1 p.2 then
      some (illegal s c)
    else
      match tbl with
      | some e => some e
      | none =>
        if ill then some (illegal s c)
        else
          let own := integerMode (fmtAt a.fmt) (fmtAt w.fmt)
          let ints := if c.follows s then (match mates with | f :: _ => integerMode f (fmtAt w.fmt) | [] => false) else own
          let wr := d.weightRanges w ints gs
          let ar := d.actRanges a (own && pairs.all fun p => integerMode p.1 p.2) t
          let lead := c.leadScales s w
          let named := (wr.map fun p => (w.lo + p.1, p.2)) ++ w.bookRange ++ (ar.map fun p => (a.lo + p.1, p.2)) ++ a.bookRange
          let held := match lead with
            | some p => if (s.core p.1).locked 3 c.grp.asid (p.2.1.lo + p.2.2.1) p.2.2.2 then some (p.2.1.lo + p.2.2.1) else none
            | none => none
          match tlock with
          | some e => some e
          | none =>
            match ((findBy (fun (p : Nat × Nat) => c.opLocked s p.1 p.2) named).map fun p => p.1).orElse fun _ => held with
            | some p => some (raise s c 3 0 (BitVec.ofNat 64 p))
            | none =>
              let outside := fun (r : Resv) (p : Nat × Nat) => decide (r.bytes < p.1 + p.2)
              let far := match lead with | some p => outside p.2.1 p.2.2 | none => false
              if decide (512 < d.row0 + t) || wr.any (outside w) || ar.any (outside a) || far
                  || c.chainDiffers s n (d.record table) then some (raise s c 8 0 0)
              else none

/-- Queues a loop that passed its checks. -/
def queueLoop (s : State) (c : Ctx) (k : MKind) (ws : List Word) (d : LoopDesc) (table : List (Nat × Nat)) (m : Option Modifier) : State :=
  queueCmd s c { c.mcmd s k ws m with table := table } fun y => { y with steps := y.steps ++ [d.record table] }

/-- MLOOP (R117, R251). -/
def execMloop (x : OpSrc) (s : State) : Host.Outcome State Fault Refusal :=
  matrixOwned s (.mloop x) fun c =>
    let ws := c.words x.a.toNat 4 (c.low x.m)
    let d := loopDesc ws
    .next (match checkLoop s c d [] false none none with
      | some e => e
      | none => queueLoop s c .loop ws d [] x.m)

/-- MGRP (R118, R251): the table is read at issue as an S load of the lowest active lane. -/
def execMgrp (x : OpMgrp) (s : State) : Host.Outcome State Fault Refusal :=
  matrixOwned s (.mgrp x) fun c =>
    let l := c.low x.m
    let ws := c.words x.a.toNat 4 l
    let d := loopDesc ws
    let v := (c.reg x.b.toNat l).toNat
    let o := bitsOf v 0 20
    let n := bitsOf v 20 4 + 1
    let va := BitVec.ofNat 64 o
    let bad := bitsOf v 24 8 ≠ 0
    let tbl := if o % 4 ≠ 0 then some (raise s c 0x26 0 va)
      else if c.grp.sBytes < o + 4 * n then some (raise s c 0x25 0 va) else none
    let tlock := if (s.core c.grp.core).locked 0 c.grp.asid o (4 * n) then some (raise s c 3 0 va) else none
    let words := (List.range n).map fun i => s.locNat (.sram c.grp.gid (o + 4 * i)) 4
    let table := words.map fun w => (bitsOf w 16 10, bitsOf w 0 16)
    .next (if bad then illegal s c
      else match checkLoop s c d table (words.any fun w => decide (bitsOf w 26 6 ≠ 0)) tbl tlock with
        | some e => e
        | none => queueLoop s c .grp ws d table x.m)

/-! ### Drains (R120, R252) -/

/-- The fields of a drain word (R252). -/
structure DrainWord where
  scratch : Bool
  fmt : Nat
  mode : Nat
  colq : Nat
  rows : Nat
  row : Nat
  mbz : Nat
  deriving DecidableEq, Repr

/-- The drain word in a register. -/
def drainWord (w : Word) : DrainWord :=
  let v := w.toNat
  ⟨decide (bitsOf v 27 1 = 1), bitsOf v 22 5, bitsOf v 20 2, bitsOf v 18 2, bitsOf v 9 9 + 1, bitsOf v 0 9, bitsOf v 28 4⟩

/-- Whether a drain word raises ILLEGAL (R252): `wide` tells whether the instruction reads four registers. -/
def DrainWord.bad (d : DrainWord) (wide : Bool) : Bool :=
  decide (d.mbz ≠ 0) || d.mode == 3 || (decide (18 < d.fmt) && d.fmt != 24 && d.fmt != 25)
    || (!d.scratch && d.rows != 1) || (d.scratch && !wide)

/-- The bytes of one drained row of the scratch form. -/
def DrainWord.rowLen (d : DrainWord) : Nat := if d.mode = 2 then 512 else rowBytes (fmtWidth (fmtAt d.fmt)) 128

/-- The range of scratch that a queued drain locks on its core until it completes (R252, R322). -/
def MCmd.locks (q : MCmd) (asid : Nat) : List Lock :=
  let d := drainWord (q.args.getD 0 0)
  if q.kind = .drn ∧ d.scratch = true then [⟨q.id, 0, asid, q.gid, (q.args.getD 1 0).toNat, d.rows * d.rowLen⟩] else []

/-- MDRN (R120, R252). -/
def execMdrn (x : OpE2) (s : State) : Host.Outcome State Fault Refusal :=
  matrixOwned s (.mdrn x) fun c =>
    let l := c.low x.m
    let a := x.a.toNat
    let ws := if a % 4 = 0 then c.words a 4 l else [c.reg a l]
    let d := drainWord (ws.getD 0 0)
    let core := c.grp.core
    if d.bad (decide (a % 4 = 0)) then .next (illegal s c)
    else if !d.scratch && !c.deferring then .next (illegal s c)
    else if 512 < d.row + d.rows then .next (raise s c 8 0 0)
    else if !d.scratch then
      if c.mxFull s then .next { s with cur := none }
      else
        let key := c.key s
        let s1 := addFly s c (flyFor (c.actMask x.m) [x.d.toNat] none)
        .next (finishPending (s1.pushMx core { c.mcmd s1 .drn ws x.m with fly := key }) c key true (c.actMask x.m) [x.d.toNat])
    else
      let o := (ws.getD 1 0).toNat
      let n := d.rows * d.rowLen
      let st := fun (k : Nat) => finishStatus s c x.m x.d.toNat k
      if o % 16 ≠ 0 then .next (st 2)
      else
        match s.checkSignal c.grp (ws.getD 2 0) (ws.getD 3 0) with
        | .illegal => .next (raise s c 0x20 (ws.getD 2 0) 0)
        | .status k => .next (st k)
        | .ok sig =>
          if c.grp.sBytes < o + n then .next (st 4)
          else if !s.lockRoom core 1 then .next (st 1)
          else if c.mxFull s then .next { s with cur := none }
          else
            let q := { c.mcmd s .drn ws x.m with signal := some sig }
            let s1 := (s.pushMx core q).lock core (q.locks c.grp.asid)
            .next (finishStatus s1 c x.m x.d.toNat 0)

end Sys2Proof.Machine
end

