-- ==== Sys2Proof/Machine/Copy.lean ====
section
/-! DEFINITION. The copy engine (R123 to R128, R253, R254). A copy is performed whole when it completes. -/

namespace Sys2Proof.Machine

/-! ### Records read at issue -/

/-- What the read of a record gives: an exception or a wait, or the state and the record as a number. -/
inductive RecordRead where
  | stop (s : State)
  | go (s : State) (v : Nat)

/-- The operation of a core that has asked a peer for a line. -/
def State.askedLine (s : State) (core line : Nat) : Option Nat :=
  (findBy (fun o => o.core == core && o.kind == .net 7 &&
    o.lanes == [[BitVec.ofNat 32 line, BitVec.ofNat 32 (line / 2 ^ 32), BitVec.ofNat 32 (line / 2 ^ 64)]]) s.ops).map fun o => o.id

/-- Reads a record of n bytes as a far load of a lane (R218, R219, R253): in deferring mode a record whose page is absent
defers the instruction, and one whose line of a peer window is absent captures it behind the arrival of the line: vd stays
pending until the record is read. In non-deferring mode the split waits. -/
def farRecord (s : State) (c : Ctx) (i : Instr) (a n l : Nat) : RecordRead :=
  match checkAccess s c .g n false true [c.ea s .g a 0 n l] with
  | .trap t => .stop t
  | .go s acc miss =>
    match acc with
    | (_, .phys p) :: _ =>
      if isPeer p && ((s.core c.grp.core).peerLine? (p / 128)).isNone then
        let q := match s.askedLine c.grp.core (p / 128) with
          | some id => (s, id)
          | none => (s.askLine c.grp c.cur.widx p 0, s.uid)
        .stop (if c.deferring then captureBehind q.1 c i [] [q.2] else { q.1 with cur := none })
      else .go s (readNat (s.farByte c.grp.core c.grp.part) p n)
    | _ => .stop (deferAccess s c i false (miss.map fun q => q.2))

/-! ### Layout records (R124, R125) -/

/-- A layout record: box extents, extents and strides by dimension, those beyond the rank as 1 and 0. -/
structure Layout where
  base : DWord
  rank : Nat
  fmt : Nat
  cfmt : Nat
  swz : Nat
  blk : Nat
  mbz : Nat
  scoff : Int
  box : List Nat
  dim : List Nat
  stride : List Nat
  deriving DecidableEq, Repr

/-- The layout record of a number. -/
def layoutOf (v : Nat) : Layout :=
  let rank := bitsOf v 64 3
  let per := fun (d : Nat) (f : Nat → Nat) => (List.range 5).map fun i => if i < rank then f i else d
  { base := BitVec.ofNat 64 v, rank := rank, fmt := bitsOf v 67 5, cfmt := bitsOf v 72 5, swz := bitsOf v 77 2, blk := bitsOf v 79 2
    mbz := bitsOf v 81 31, scoff := signedOf 40 (bitsOf v 112 40)
    box := per 1 fun i => bitsOf v (152 + 8 * i) 8 + 1
    dim := per 1 fun i => bitsOf v (192 + 32 * i) 32
    stride := (List.range 5).map fun i => if 0 < i ∧ i < rank then bitsOf v (352 + 40 * (i - 1)) 40 else 0 }

/-- A copy: its record, its coordinates and its direction. -/
structure CopyBox where
  lay : Layout
  at_ : List Int
  store : Bool
  deriving DecidableEq, Repr

/-- The format on the far side and that on the scratch or operand-buffer side. -/
def CopyBox.far (x : CopyBox) : Fmt := fmtAt x.lay.fmt
def CopyBox.near (x : CopyBox) : Fmt := fmtAt x.lay.cfmt

/-- A coordinate; 0 for a dimension beyond the rank (R124). -/
def CopyBox.coord (x : CopyBox) (i : Nat) : Int := if i < x.lay.rank then x.at_.getD i 0 else 0

/-- The rows of a box as indices b1 to b4, b1 fastest (R125). -/
def CopyBox.rows (x : CopyBox) : List (List Nat) :=
  let n := fun i => List.range (x.lay.box.getD i 1)
  (n 4).flatMap fun d => (n 3).flatMap fun c => (n 2).flatMap fun b => (n 1).map fun a => [a, b, c, d]

/-- Whether an index of a dimension lies in the tensor. -/
def CopyBox.inDim (x : CopyBox) (i : Nat) (v : Int) : Bool := decide (0 ≤ v) && decide (v < (x.lay.dim.getD i 1 : Nat))

/-- The tensor indices 1 to 4 of a row. -/
def CopyBox.index (x : CopyBox) (b : List Nat) : List Int := (List.range 4).map fun i => x.coord (i + 1) + (b.getD i 0 : Nat)

/-- Whether a row lies in the tensor. -/
def CopyBox.rowIn (x : CopyBox) (b : List Nat) : Bool := (x.index b).zipIdx.all fun p => x.inDim (p.2 + 1) p.1

/-- The elements of a row that lie in the tensor, as the first b0 and the number. -/
def CopyBox.span (x : CopyBox) : Nat × Nat :=
  let c := x.coord 0
  let n : Int := (x.lay.box.getD 0 1 : Nat)
  let lo := max 0 (-c)
  let hi := min n ((x.lay.dim.getD 0 1 : Nat) - c)
  (lo.toNat, (hi - lo).toNat)

/-- The far address of the row of some indices (R125). -/
def CopyBox.rowAddr (x : CopyBox) (ix : List Int) : DWord :=
  x.lay.base + BitVec.ofInt 64 ((ix.zipIdx.map fun (p : Int × Nat) => p.1 * ((x.lay.stride.getD (p.2 + 1) 0 : Nat) : Int)).sum)

/-- The blocks of a tensor row, and the far address of the scale of a block (R62, R124). -/
def CopyBox.scaleAddr (x : CopyBox) (ix : List Int) (b : Nat) : DWord :=
  let d := fun i => (x.lay.dim.getD i 1 : Int)
  let row := ((ix.getD 3 0 * d 3 + ix.getD 2 0) * d 2 + ix.getD 1 0) * d 1 + ix.getD 0 0
  x.lay.base + BitVec.ofInt 64 (x.lay.scoff + 4 * (row * (blocksIn x.far x.lay.blk (x.lay.dim.getD 0 1) : Nat) + (b : Nat)))

/-- Whether the scales of a copy go with it: a scaled format to itself. -/
def CopyBox.raw (x : CopyBox) : Bool := x.far.scaled && x.far == x.near

/-- The near side in bytes: a row, the element region, and the region with its scales (R125). -/
def CopyBox.rowLen (x : CopyBox) : Nat := rowBytes (fmtWidth x.near) (x.lay.box.getD 0 1)
def CopyBox.elemLen (x : CopyBox) : Nat := x.rowLen * x.rows.length
def CopyBox.rowBlocks (x : CopyBox) : Nat := blocksIn x.near x.lay.blk (x.lay.box.getD 0 1)
def CopyBox.nearLen (x : CopyBox) : Nat := x.elemLen + 4 * x.rowBlocks * x.rows.length

/-- The layout status of the far side of a record alone: rank, must-be-zero bits and the alignment of c0 to its packing group and
block; strides are whole bytes as the record holds them (R124, R125, R253). -/
def CopyBox.shapeBad (x : CopyBox) : Bool :=
  decide (x.lay.rank = 0) || decide (5 < x.lay.rank) || decide (x.lay.mbz ≠ 0)
    || decide (x.coord 0 % (packGroup (fmtWidth x.far) : Nat) ≠ 0)
    || (x.far.scaled && decide (x.coord 0 % (blockLen x.lay.blk : Nat) ≠ 0))

/-- The layout status of a record for a copy: its shape, and the blocks and scales of a scaled format (R62, R125). -/
def CopyBox.layoutBad (x : CopyBox) : Bool :=
  let b := blockLen x.lay.blk
  let scaled := x.far.scaled || x.near.scaled
  x.shapeBad
    || (scaled && (decide (x.coord 0 % (b : Nat) ≠ 0) || decide (x.lay.box.getD 0 1 % b ≠ 0)
      || decide ((x.lay.base + BitVec.ofInt 64 x.lay.scoff).toNat % 4 ≠ 0)))

/-- Whether a format code is that of a tensor format. -/
def tensorFmt (n : Nat) : Bool := decide (n ≤ 23)

/-- Whether a conversion is allowed (R126). -/
def pairOk (src dst : Fmt) : Bool :=
  if src.scaled then dst == src || dst == .f32 || dst == .f16 || dst == .bf16 else !dst.scaled

/-- The format on the side that a copy reads, and on the one that it writes. -/
def CopyBox.src (x : CopyBox) : Fmt := if x.store then x.near else x.far
def CopyBox.dst (x : CopyBox) : Fmt := if x.store then x.far else x.near

/-- The lowest far byte of the in-tensor elements and their extent, as a range of virtual addresses (R127). -/
def CopyBox.farRange (x : CopyBox) : Option (Nat × Nat) :=
  let sp := x.span
  let w := fmtWidth x.far
  let ends := (List.range 4).map fun i =>
    let c := x.coord (i + 1)
    let lo := max 0 c
    let hi := min (c + (x.lay.box.getD (i + 1) 1 : Nat) - 1) ((x.lay.dim.getD (i + 1) 1 : Nat) - 1)
    (lo, hi)
  if sp.2 = 0 ∨ ends.any (fun p => decide (p.2 < p.1)) then none
  else
    let x0 := (x.coord 0 + (sp.1 : Nat)).toNat
    let a := (x.rowAddr (ends.map fun p => p.1)).toNat + x0 * w / 8
    let b := (x.rowAddr (ends.map fun p => p.2)).toNat + ((x0 + sp.2) * w + 7) / 8
    some (a, b - a)

/-! ### Issue (R123, R253) -/

/-- The copies, gathers and migrations of a core, which share its queue (R254). -/
def State.copyQueue (s : State) (core : Nat) : List EngOp :=
  s.ops.filter fun o => o.core == core && (o.kind == .cpy || o.kind == .kvg || o.kind == .migr)

/-- The region of a group's scratch that holds a range whole, with its swizzle; 0 outside every region (R86). None for a
range that no single region or none of the rest holds. -/
def Group.swizzleAt (g : Group) (lo n : Nat) : Option Nat :=
  match g.sRegions.filter fun r => meets r.base r.size lo n with
  | [] => some 0
  | [r] => if r.base ≤ lo ∧ lo + n ≤ r.base + r.size then some r.swizzle else none
  | _ => none

/-- A DEST word (R253). -/
structure Dest where
  kind : Nat
  rid : Nat
  off : Nat
  mbz : Bool
  deriving DecidableEq, Repr

/-- The DEST word of a register. -/
def destOf (w : Word) : Dest :=
  let v := w.toNat
  let k := bitsOf v 30 2
  ⟨k, bitsOf v 26 4, bitsOf v 0 20, decide (bitsOf v 20 6 ≠ 0) || (k == 0 && decide (bitsOf v 26 4 ≠ 0)) || (k == 1 && decide (bitsOf v 18 2 ≠ 0))⟩

/-- The issue status of a copy to or from a place (R123): layout, format, bounds, busy, in that order; 0 to accept. -/
def copyStatus (s : State) (c : Ctx) (x : CopyBox) (d : Dest) (sig : SigCheck) : Nat :=
  let n := x.nearLen
  let mx := c.mx s
  let swz := if d.kind = 0 then c.grp.swizzleAt d.off n else some x.lay.swz
  let inside := match d.kind with
    | 0 => decide (d.off + n ≤ c.grp.sBytes)
    | _ => match mx.named d.rid with
      | some r => mx.owner == some c.grp.gid && decide (d.off + n ≤ r.bytes)
      | none => false
  let sigStatus := match sig with | .status k => k | _ => 0
  let locks := 1 + (if x.farRange.isSome then 1 else 0)
  if x.layoutBad || d.mbz || decide (1 < d.kind) || (x.store && d.kind == 1) || decide (d.off % 16 ≠ 0)
      || swz != some x.lay.swz || sigStatus == 2 then 2
  else if !tensorFmt x.lay.fmt || !tensorFmt x.lay.cfmt || !pairOk x.src x.dst then 3
  else if !inside || sigStatus == 4 then 4
  else if 32 ≤ (s.copyQueue c.grp.core).length || !s.lockRoom c.grp.core locks then 1
  else 0

/-- What a copy keeps of its operands: its record and the words vb to vb+5, then the direction. -/
def copyArgs (v : Nat) (ws : List Word) (dir : Word) : List Word :=
  ((List.range 16).map fun i => BitVec.ofNat 32 (v / 2 ^ (32 * i))) ++ ws.take 6 ++ [dir]

/-- The box of a copy in progress. -/
def EngOp.box (o : EngOp) : CopyBox :=
  ⟨layoutOf (wordsNat (o.args.take 16)), (List.range 5).map fun i => (o.args.getD (16 + i) 0).toInt, o.args.getD 22 0 == 1⟩

/-- The DEST word of a copy in progress. -/
def EngOp.dest (o : EngOp) : Dest := destOf (o.args.getD 21 0)

/-- CPY.L and CPY.S. -/
def doCopy (s : State) (i : Instr) (x : OpE) (store : Bool) : Host.Outcome State Fault Refusal :=
  single s i fun c l =>
    match farRecord s c i x.a.toNat 64 l with
    | .stop t => .next t
    | .go s v =>
      let ws := c.words x.b.toNat 8 l
      let box : CopyBox := ⟨layoutOf v, (ws.take 5).map fun w => w.toInt, store⟩
      let d := destOf (ws.getD 5 0)
      let sig := s.checkSignal c.grp (ws.getD 6 0) (ws.getD 7 0)
      match sig with
      | .illegal => .next (raise s c 0x20 (ws.getD 6 0) 0)
      | _ =>
        let st := copyStatus s c box d sig
        if st ≠ 0 then .next (finishStatus s c x.m x.d.toNat st)
        else
          let o := { c.engOp s .cpy x.m (copyArgs v ws (if store then 1 else 0)) with
            signal := match sig with | .ok y => some y | _ => none }
          let near : Lock := match d.kind with
            | 0 => ⟨o.id, 0, c.grp.asid, c.grp.gid, d.off, box.nearLen⟩
            | _ => ⟨o.id, 3, c.grp.asid, c.grp.gid, (match (c.mx s).named d.rid with | some r => r.lo | none => 0) + d.off, box.nearLen⟩
          let far := match box.farRange with
            | some p => [(⟨o.id, 2, c.grp.asid, c.grp.gid, p.1, p.2⟩ : Lock)]
            | none => []
          .next (finishStatus (s.startOp o (near :: far)) c x.m x.d.toNat 0)

/-- CPY.L (R253). -/
def execCpyL (x : OpE) (s : State) : Host.Outcome State Fault Refusal := doCopy s (.cpyL x) x false

/-- CPY.S (R253). -/
def execCpyS (x : OpE) (s : State) : Host.Outcome State Fault Refusal := doCopy s (.cpyS x) x true

/-- CPYP (R253): a prefetch of the box, with the checks of the far side alone. -/
def execCpyp (x : OpE) (s : State) : Host.Outcome State Fault Refusal :=
  single s (.cpyp x) fun c l =>
    match farRecord s c (.cpyp x) x.a.toNat 64 l with
    | .stop t => .next t
    | .go s v =>
      let ws := c.words x.b.toNat 5 l
      let lay := layoutOf v
      let box : CopyBox := ⟨{ lay with cfmt := lay.fmt }, ws.map fun w => w.toInt, false⟩
      let st := if box.shapeBad then 2 else if !tensorFmt lay.fmt then 3
        else if 32 ≤ (s.copyQueue c.grp.core).length then 1 else 0
      if st ≠ 0 then .next (finishStatus s c x.m x.d.toNat st)
      else .next (finishStatus (s.startOp (c.engOp s .cpy x.m (copyArgs v (ws ++ [0]) 2)) []) c x.m x.d.toNat 0)

/-- CPYQ (R254). -/
def execCpyq (x : OpStat) (s : State) : Host.Outcome State Fault Refusal :=
  issue s (.cpyq x) fun c =>
    if (c.act x.m).isEmpty then .next (finishPlain s c)
    else
      let v := c.grp.copyStat ||| BitVec.ofNat 32 ((s.copyQueue c.grp.core).length * 2 ^ 16)
      let s := if x.c then s.updGroup c.cur.gid fun g => { g with copyStat := 0 } else s
      .next (finish s c x.m false [(x.d.toNat, fun _ => v)] flag0)

/-! ### COPY_COMPLETION (R125 to R128) -/

/-- The spaces that an operation of the copy queue writes. -/
def EngOp.writes (o : EngOp) (space : Nat) : Bool :=
  match o.kind with
  | .cpy => if o.args.getD 22 0 == 1 then space == 2 else space != 2
  | .kvg => space == 0
  | _ => false

/-- Whether an operation must wait for an earlier live copy of its core, whose range, far ranges in 32-byte sectors,
overlaps its own where one of the two writes (R127, R128). -/
def State.copyWaits (s : State) (o : EngOp) : Bool :=
  let ls := (s.core o.core).locks
  (s.copyQueue o.core).any fun p => decide (p.id < o.id) && ls.any fun a => a.op == p.id && ls.any fun b =>
    b.op == o.id && a.hit b.space b.asid (if b.space = 2 then 32 * (b.lo / 32) else b.lo)
      (if b.space = 2 then 32 * ((b.lo + b.len + 31) / 32) - 32 * (b.lo / 32) else b.len) && (p.writes a.space || o.writes a.space)

/-- The byte that an engine reads for a core and a partition: the core's snapshot as it was at issue, with the core's own stores
(R128, R260). A byte of a peer window that the core does not hold comes from outside, and nothing constrains it. -/
def State.engByte (s : State) (core part : Nat) (snap : List Nat) (a : Nat) : Byte :=
  let k := s.core core
  match k.own part a with
  | some b => b
  | none =>
    if isPeer a then
      match k.peerLine? (a / 128) with
      | some bs => bs.getD (a % 128) 0
      | none => Config.freeByte (Nat.pair s.free a)
    else
      let mine := (s.log.filter fun l => l.core == core && l.num != 0).map fun l => l.idx
      s.snapByte (snap ++ mine) a

/-- Translations of virtual bytes, as a table. -/
abbrev VaMap := List (Nat × Nat)

/-- The address of a virtual byte in a table of translations. -/
def vaAt (m : VaMap) (va : Nat) : Nat := (m.find? fun p => p.1 == va / 65536).elim 0 fun p => p.2 + va % 65536

/-- The addresses at which a range enters each of its 64 KiB granules, in order. -/
def granulesOf (p : Nat × Nat) : List Nat :=
  if p.2 = 0 then []
  else (List.range ((p.1 + p.2 - 1) / 65536 - p.1 / 65536 + 1)).map fun i => max p.1 (65536 * (p.1 / 65536 + i))

/-- Translates the granules of a list of virtual ranges, each at the first address touched in it (R317, R319). -/
def State.mapRanges (s : State) (core asid : Nat) (acc : Access) (rs : List (Nat × Nat)) : Except XFault VaMap :=
  let first := (rs.flatMap granulesOf).foldr (fun a r => a :: r.filter fun b => b / 65536 != a / 65536) []
  match s.translateAll core asid acc (first.map (BitVec.ofNat 64)) with
  | .error f => .error f
  | .ok as => .ok (first.zipWith (fun a p => (a / 65536, p - a % 65536)) as)

/-- The pieces of a far range that lie in peer windows: the number of the window, the remote address, and the part of the
range. -/
def peerPieces (m : VaMap) (lo len : Nat) : List (Nat × Nat × Nat × Nat) :=
  ((granulesOf (lo, len)).map fun a =>
    let p := vaAt m a
    (p, a - lo, min len (65536 * (a / 65536 + 1) - lo) - (a - lo))).filterMap fun q =>
      if isPeer q.1 then some (peerIndex q.1, peerRemote q.1, q.2.1, q.2.2) else none

/-- Asks the peers of a far range for its bytes (R128, R131, R132). -/
def State.askRange (s : State) (asid : Nat) (m : VaMap) (lo len : Nat) : State :=
  (peerPieces m lo len).foldl (fun s q => s.sendPeer 1 q.1 none asid [BitVec.ofNat 64 q.2.1, BitVec.ofNat 64 q.2.2.2]) s

/-- Asks the peers of some far ranges for their bytes. -/
def State.askRanges (s : State) (asid : Nat) (m : VaMap) (rs : List (Nat × Nat)) : State :=
  rs.foldl (fun s p => s.askRange asid m p.1 p.2) s

/-- Whether bytes that only a port could bring cannot come: some lie in a peer window and no port is linked (R1). -/
def State.cutOff (s : State) (m : VaMap) : Bool := !s.linked && m.any fun p => isPeer p.2

/-- Stops an engine operation on a translation fault of kind 3, with its locks held (R128, R317). -/
def State.parkOp (s : State) (o : EngOp) (wr : Bool) (f : XFault) : State :=
  match s.group? o.gid with
  | none => s
  | some g =>
    let slot := match g.warp? o.widx with | some w => w.slot | none => 0
    let s := { s with ops := updateBy (fun x => x.id == o.id) (fun x => { x with parked := true }) s.ops }
    s.postFault g.part { g.faultOne slot wr f (.op o.id) with kind := 3 }

/-- The slots of a far row that a copy touches: the elements of the box in the tensor and, for a store that reaches the
end of the row, the unused slots of the row's last packing group, which it fills with the absent code (R52, R125). -/
def CopyBox.slots (x : CopyBox) : Nat :=
  let n := x.span.2
  let pg := packGroup (fmtWidth x.far)
  if x.store ∧ (x.lay.dim.getD 0 1 : Int) ≤ x.coord 0 + (x.span.1 + n : Nat) then (n + pg - 1) / pg * pg else n

/-- The far ranges of the elements and scales of a box. -/
def CopyBox.farBytes (x : CopyBox) : List (Nat × Nat) :=
  let sp := x.span
  let w := fmtWidth x.far
  let x0 := (x.coord 0 + (sp.1 : Nat)).toNat
  if sp.2 = 0 then []
  else
    (x.rows.filter x.rowIn).flatMap fun b =>
      let ix := x.index b
      let el := ((x.rowAddr ix).toNat + x0 * w / 8, ((x0 + x.slots) * w + 7) / 8 - x0 * w / 8)
      let blk := blockLen x.lay.blk
      if x.far.scaled then
        [el, ((x.scaleAddr ix (x0 / blk)).toNat, 4 * ((x0 + sp.2 + blk - 1) / blk - x0 / blk))]
      else [el]

/-- The flags of a conversion that CPYQ's status gathers (R254). -/
def copyFlags (f : Flags) : Word := (f &&& 0b010111).setWidth 32

/-- One element converted (R126): the code, its flags. -/
def convertElem (src dst : Fmt) (t : Codebook) (code : Nat) (scale : Word) : Nat × Flags :=
  if src.scaled && src == dst then (code, flag0)
  else if src.scaled then
    let v := scaledValue src t code scale
    let r := convert v.1 dst t .nearest false
    (r.1, v.2 ||| r.2)
  else convert (decodeFmt src t code) dst t .nearest false

/-- What a CPY.L writes on the near side: bytes from its start, the flags, and the bytes that came from poisoned far
bytes, those of scales among them. `rd` reads a far virtual byte, `bad` tells whether it is poisoned. -/
def CopyBox.loadBytes (x : CopyBox) (t : Codebook) (rd : Nat → Byte) (bad : Nat → Bool) : List Byte × Word × List Nat :=
  let n := x.lay.box.getD 0 1
  let w := fmtWidth x.far
  let wn := fmtWidth x.near
  let blk := blockLen x.lay.blk
  let sp := x.span
  let cell := fun (b : List Nat) (i : Nat) =>
    if x.rowIn b ∧ sp.1 ≤ i ∧ i < sp.1 + sp.2 then
      let ix := x.index b
      let x0 := (x.coord 0 + (i : Nat)).toNat
      let a := (x.rowAddr ix).toNat
      let sa := (x.scaleAddr ix (x0 / blk)).toNat
      let sc : Word := if x.far.scaled then BitVec.ofNat 32 (readNat rd sa 4) else 0
      let r := convertElem x.far x.near t (packedElem rd a w x0) sc
      (r.1, copyFlags r.2, bad (a + x0 * w / 8) || bad (a + (x0 * w + w - 1) / 8) || (x.far.scaled && bad sa))
    else (absentCode x.near, 32, false)
  let rows := x.rows.map fun b => (List.range n).map (cell b)
  let elems := rows.flatMap fun r => packRow x.near (r.map fun p => p.1)
  let scales := if x.raw then
      x.rows.flatMap fun b => (List.range x.rowBlocks).flatMap fun j =>
        let i := j * blk
        if x.rowIn b ∧ sp.1 ≤ i ∧ i < sp.1 + sp.2 then
          let a := (x.scaleAddr (x.index b) ((x.coord 0 + (i : Nat)).toNat / blk)).toNat
          [(natBytes 4 (readNat rd a 4), bad a)]
        else [(List.replicate 4 0xFF, false)]
    else []
  let fl := rows.foldl (fun f r => r.foldl (fun f p => f ||| p.2.1) f) 0
  let spoil := (rows.zipIdx.flatMap fun r => (r.1.zipIdx.filter fun p => p.1.2.2).map fun p => r.2 * x.rowLen + p.2 * wn / 8)
    ++ (scales.zipIdx.filter fun p => p.1.2).map fun p => x.elemLen + 4 * p.2
  (elems ++ scales.flatMap (fun p => p.1), fl, spoil)

/-- What a CPY.S writes in far memory: virtual bytes, the flags, and the virtual bytes that came from poisoned scratch.
`rd` reads a byte of the box in scratch, `old` a far virtual byte. -/
def CopyBox.storeBytes (x : CopyBox) (t : Codebook) (rd old : Nat → Byte) (bad : Nat → Bool) : List (Nat × Byte) × Word × List Nat :=
  let w := fmtWidth x.far
  let wn := fmtWidth x.near
  let blk := blockLen x.lay.blk
  let sp := x.span
  let dim0 := x.lay.dim.getD 0 1
  let one := fun (r : List Nat × Nat) =>
    let ix := x.index r.1
    let a := (x.rowAddr ix).toNat
    let first := (x.coord 0 + (sp.1 : Nat)).toNat
    let cells := (List.range sp.2).map fun k =>
      let i := sp.1 + k
      let sa := x.elemLen + 4 * (r.2 * x.rowBlocks + i / blk)
      let sc : Word := if x.near.scaled then BitVec.ofNat 32 (readNat rd sa 4) else 0
      let q := convertElem x.near x.far t (packedElem rd (r.2 * x.rowLen) wn i) sc
      (q.1, copyFlags q.2, bad (r.2 * x.rowLen + i * wn / 8) || bad (r.2 * x.rowLen + (i * wn + wn - 1) / 8)
        || (x.near.scaled && bad sa))
    -- the slots of the last packing group: absent beyond the tensor, as they were within it (R52, R125)
    let codes := (List.range (x.slots + packGroup w)).map fun k =>
      if k < sp.2 then (cells.getD k (0, 0, false)).1
      else if dim0 ≤ first + k then absentCode x.far
      else packedElem old a w (first + k)
    let el := putAt (a + first * w / 8) ((packRow x.far codes).take ((x.slots * w + 7) / 8))
    let scales := if x.raw then
        (List.range x.rowBlocks).flatMap fun j =>
          let i := j * blk
          if sp.1 ≤ i ∧ i < sp.1 + sp.2 then
            let near := x.elemLen + 4 * (r.2 * x.rowBlocks + j)
            [((x.scaleAddr ix ((x.coord 0 + (i : Nat)).toNat / blk)).toNat, natBytes 4 (readNat rd near 4), bad near)]
          else []
      else []
    (el ++ scales.flatMap (fun p => putAt p.1 p.2.1), cells.foldl (fun f p => f ||| p.2.1) 0,
      ((cells.zipIdx.filter fun p => p.1.2.2).map fun p => a + (first + p.2) * w / 8)
        ++ (scales.filter fun p => p.2.2).map fun p => p.1)
  let rs := (x.rows.zipIdx.filter fun r => x.rowIn r.1).map one
  if sp.2 = 0 then ([], 0, [])
  else (rs.flatMap fun r => r.1, rs.foldl (fun f r => f ||| r.2.1) 0, rs.flatMap fun r => r.2.2)

/-- The core on whose behalf an engine stores: the present one of its group (R248). -/
def State.opCore (s : State) (o : EngOp) : Nat :=
  match s.group? o.gid with
  | some g => if g.stat == .saved then o.core else g.core
  | none => o.core

/-- Gathers the flags of a copy in its group's status (R254). -/
def State.copyFlagged (s : State) (gid : Nat) (f : Word) : State :=
  s.updGroup gid fun g => { g with copyStat := g.copyStat ||| f }

/-- Changes the matrix engine of a group: its core's, or the one that its saved group keeps (R248). -/
def State.updMxOf (s : State) (gid core : Nat) (f : Matrix → Matrix) : State :=
  if s.savedMx.any fun p => p.1 == gid then { s with savedMx := s.savedMx.map fun p => if p.1 == gid then (gid, f p.2) else p }
  else s.updMx core f

/-- Completes a CPY.L. -/
def State.endLoadCopy (s : State) (o : EngOp) (m : VaMap) : State :=
  let x := o.box
  let d := o.dest
  let part := s.partOfGroup o.gid
  let r := x.loadBytes o.cb (fun va => s.engByte o.core part o.snap (vaAt m va)) fun va =>
    s.markFor o.core part (sectorOf (vaAt m va)) != 0
  let s := (s.copyFlagged o.gid r.2.1)
  let s := { s with free := s.free + 1 }
  let bad := !r.2.2.isEmpty
  let s := match d.kind with
    | 0 =>
      let s := s.storeLocal (.sram o.gid d.off) r.1
      s.updGroup o.gid fun g => { g with sSpoil := addSpoil g.sSpoil (r.2.2.map fun i => (d.off + i) / 32) }
    | _ => s.updMxOf o.gid (s.opCore o) fun y =>
      let lo := (match y.resv? d.rid with | some z => z.lo | none => 0) + d.off
      { y with opbuf := smSets 0 y.opbuf (putAt lo r.1), check := y.check || bad }
  s.endOp o (if bad then 5 else 0)

/-- Completes a CPY.S: its writes are stores of the issuing core (R128). -/
def State.endStoreCopy (s : State) (o : EngOp) (m : VaMap) : State :=
  let x := o.box
  let d := o.dest
  let rd := fun i => s.locByte (.sram o.gid d.off) i
  let badAt := fun i => match s.group? o.gid with | some g => smGet 0 g.sSpoil ((d.off + i) / 32) != 0 | none => false
  let part := s.partOfGroup o.gid
  let r := x.storeBytes o.cb rd (fun va => s.farByte o.core part (vaAt m va)) badAt
  let ws := r.1.map fun p => (vaAt m p.1, p.2)
  let core := s.opCore o
  let s := ((s.copyFlagged o.gid r.2.1).storeFar core o.gid o.asid part ws (r.2.2.map fun a => sectorOf (vaAt m a))).raceStore part core
    o.gid ((ws.map fun p => p.1).filter fun a => !isPeer a)
  s.endOp o (if r.2.2.isEmpty then 0 else 5)

/-- COPY_COMPLETION: a copy's last payload byte is written, its ranges are unlocked and its signal is given (R127); a
translation fault on its far side stops it (R128), and bytes of a peer window come through a port (R1). A prefetch has requested its last line (R253). -/
def execCopyCompletion (op : Nat) (s : State) : Host.Outcome State Fault Refusal :=
  match s.op? op with
  | none => .refused (.notEnabled "COPY_COMPLETION")
  | some o =>
    if o.kind != .cpy || o.parked || s.copyWaits o then .refused (.notEnabled "COPY_COMPLETION")
    else if o.args.getD 22 0 == 2 then .next { s with ops := s.ops.filter fun x => x.id != op }
    else
      let x := o.box
      match s.mapRanges o.core o.asid (if x.store then .write else .read) x.farBytes with
      | .error f => .next (s.parkOp o x.store f)
      | .ok m =>
        if x.store then .next (s.endStoreCopy o m)
        else if s.cutOff m then .refused (.notEnabled "COPY_COMPLETION")
        else .next ((s.askRanges o.asid m x.farBytes).endLoadCopy o m)

end Sys2Proof.Machine
end

