-- ==== Sys2Proof/Machine/Future.lean ====
section
/-! DEFINITION. Futures (R233 to R236). -/

namespace Sys2Proof.Machine

/-- The scope of a future (R233). -/
def futureScope (p : Space) : Scope := objScope p

/-- Whether a captured instruction is an FGET. -/
def Closure.isFget (k : Closure) : Bool :=
  match decode k.iword k.mword with
  | .ok (.fget _, _) => true
  | _ => false

/-- The deferring FGETs of a warp that have neither landed in every lane nor been cancelled, captured ones among them
(R236). -/
def State.openFgets (s : State) (gid widx : Nat) : Nat :=
  (s.flys.filter fun f => f.gid == gid && f.widx == widx && f.future == some true).length
    + (match s.warp? gid widx with | some w => (w.closures.filter Closure.isFget).length | none => 0)

/-- The transactions of a future instruction on the places of its lanes. -/
def futureTxs (acc : List (Ea × Loc)) (y : Nat → DWord) : List Tx :=
  acc.map fun x => ⟨x.1.lane, x.2, y x.1.lane, 0⟩

/-- The checks of a future instruction; a future in a peer window raises PROTECTION (R233). -/
def checkFuture (s : State) (c : Ctx) (p : Space) (wr : Bool) (es : List Ea) : Checked :=
  match checkAccess s c p 8 wr false es with
  | .trap t => .trap t
  | .go s' acc miss =>
    match findBy (fun (x : Ea × Loc) => x.2.peer) acc with
    | some x => .trap (raise s c 0x25 0 x.1.va)
    | none => .go s' acc miss

/-- FGET in non-deferring mode has all its answers (R234): it writes every lane, or raises FUTURE_EMPTY for the lowest
lane whose future was empty. -/
def endFget (s : State) (c : Ctx) (x : OpFut) (f : Fly) : State :=
  let s1 := { s with flys := s.flys.filter fun y => y.id != f.id }
  let s1 := s1.updWarp c.cur.gid c.cur.widx fun w => w.updSplit c.cur.split fun sp => { sp with busy := none }
  match findBy (fun l => !f.ready.getLsbD l) (c.act x.m) with
  | some l => raise s1 c 1 (BitVec.ofNat 32 l) (c.ea s x.p x.a.toNat 0 8 l).va
  | none =>
    let vs := match f.vals with | v :: _ => v.2 | [] => []
    (finish (s1.acquireFor c.grp c.cur.widx (futureScope x.p)) c x.m false [(x.d.toNat, fun l => vs.getD l 0)] flag0).updWarp
      c.cur.gid c.cur.widx fun w => w.addPoison f.poison

/-- FGET (R234): one transaction a lane, of S and N after an earlier fence of the warp has performed (R146). In non-deferring mode
the instruction waits for every answer; in deferring mode a lane with an empty future is registered as a waiter. -/
def execFget (x : OpFut) (s : State) : Host.Outcome State Fault Refusal :=
  issue s (.fget x) fun c =>
    let ls := c.act x.m
    let mask := c.actMask x.m
    let rs := [x.d.toNat]
    if ls.isEmpty then .next (finishPlain s c)
    else
      match (c.split.busy.bind s.fly?).filter fun f => f.future == some false with
      | some f => .next (if f.left = 0 then endFget s c x f else { s with cur := none })
      | none =>
        match checkFuture s c x.p false (ls.map fun l => c.ea s x.p x.a.toNat 0 8 l) with
        | .trap t => .next t
        | .go s1 acc miss =>
          let key := c.key s1
          let fence := s1.fenceBehind c.cur.gid c.cur.widx
          let behind := fun (l : Loc) => match l with | .phys _ => 0 | _ => fence
          let todo := (acc.map fun q => (⟨1#32 <<< q.1.lane, q.1.va, some q.2, behind q.2, false⟩ : Todo))
            ++ miss.map fun q => ⟨1#32 <<< q.1.lane, q.1.va, none, 0, false⟩
          let fl := { flyFor mask rs (some (futureScope x.p)) with
            left := if c.deferring then 0 else acc.length, future := some c.deferring, todo := todo }
          if !c.deferring then .next (hold ((addFly s1 c fl).tryFree c.grp c.warp key) c key)
          else if c.streamed ∧ 8 ≤ s.openFgets c.cur.gid c.cur.widx then .next (raise s c 5 0x100 0)
          else .next (finishPending ((addFly s1 c fl).tryFree c.grp c.warp key) c key (!miss.isEmpty) mask rs)

/-- FSET (R235): its transactions follow the landing of a release at the future's scope; vd receives 1 in the lane that
filled its future, else 0. -/
def execFset (x : OpFut) (s : State) : Host.Outcome State Fault Refusal :=
  issue s (.fset x) fun c =>
    let ls := c.act x.m
    if ls.isEmpty then .next (finishPlain s c)
    else
      match checkFuture s c x.p true (ls.map fun l => c.ea s x.p x.a.toNat 0 8 l) with
      | .trap t => .next t
      | .go s1 acc miss =>
        if !miss.isEmpty then .next (deferStore s1 c (.fset x) (miss.map fun q => q.2))
        else
          .next (doBatched s1 c (some (futureScope x.p)) .fset (c.actMask x.m) [x.d.toNat]
            (futureTxs acc fun l => (c.reg x.d.toNat l).setWidth 64))

/-- FCLR (R235). -/
def execFclr (x : OpFut) (s : State) : Host.Outcome State Fault Refusal :=
  issue s (.fclr x) fun c =>
    let ls := c.act x.m
    if ls.isEmpty then .next (finishPlain s c)
    else
      match checkFuture s c x.p true (ls.map fun l => c.ea s x.p x.a.toNat 0 8 l) with
      | .trap t => .next t
      | .go s1 acc miss =>
        if !miss.isEmpty then .next (deferStore s1 c (.fclr x) (miss.map fun q => q.2))
        else .next (doBatched s1 c none .fclr (c.actMask x.m) [] (futureTxs acc fun _ => 0))

/-! ### The engine's side (R234, R235) -/

/-- A lane's answer arrives in a value in flight. -/
def Fly.take (f : Fly) (lane : Nat) (vs : List Word) : Fly := { f.put lane vs with left := f.left - 1 }

/-- A registered waiter's value arrives. -/
def State.wakeWaiters (s : State) (l : Loc) (v : Word) : State :=
  let hit := s.waiters.filter fun w => w.loc == l
  let s := { s with waiters := s.waiters.filter fun w => w.loc != l }
  hit.foldl (fun s w => s.updFly w.fly fun f => f.put w.lane [v]) s

/-- Whether every lane that a value in flight still covers has exited, or its warp has ended (R236): a closure's FGET lands for
the lanes that it captured (R45). -/
def State.abandoned (s : State) (id : Nat) : Bool :=
  match s.fly? id with
  | none => true
  | some f =>
    match s.warp? f.gid f.widx with
    | none => true
    | some w => w.ended || (!f.whole && f.mask &&& w.landLanes id == 0)

/-- Cancels an FGET: nothing of it lands (R236). -/
def State.cancelFget (s : State) (id : Nat) : State :=
  match s.fly? id with
  | none => s
  | some f =>
    { s with flys := s.flys.filter fun x => x.id != id, waiters := s.waiters.filter fun x => x.fly != id }.updWarp f.gid f.widx
      fun w => w.landed id

/-- FGET's transaction: the value of a full future, a registration, which lanes that have all exited make no longer (R236), or
an empty answer (R234). -/
def State.serveFget (s : State) (b : Batch) (t : Tx) (wait : Bool) : State :=
  let w := s.locNat t.loc 8
  if s.locMarked t.loc 8 then s.updFly b.fly fun f => f.take t.lane [BitVec.ofNat 32 w]
  else if w / 2 ^ 32 % 2 = 1 then s.updFly b.fly fun f => f.take t.lane [BitVec.ofNat 32 w]
  else if wait && s.abandoned b.fly then s.cancelFget b.fly
  else if wait then
    let reg : Waiter := ⟨t.loc, b.gid, b.widx, t.lane, b.fly⟩
    let mark := fun (p : Pend) => if p.id = b.fly then { p with event := true } else p
    let s := { s with waiters := s.waiters ++ [reg] }
    s.updWarp b.gid b.widx fun w => { w with pend := w.pend.map mark }
  else s.updFly b.fly fun f => { f with left := f.left - 1 }

/-- FSET's transaction (R235). -/
def State.serveFset (s : State) (b : Batch) (t : Tx) : State :=
  let w := s.locNat t.loc 8
  if w / 2 ^ 32 % 2 = 1 then s.updFly b.fly fun f => f.take t.lane [0]
  else
    let v := (t.y.setWidth 32 : Word)
    let s := s.locWrite b.core t.loc 0 (natBytes 8 (w / 2 ^ 33 * 2 ^ 33 + 2 ^ 32 + v.toNat))
    (s.wakeWaiters t.loc v).updFly b.fly fun f => f.take t.lane [1]

/-- FCLR's transaction (R235). -/
def State.serveFclr (s : State) (b : Batch) (t : Tx) : State :=
  let w := s.locNat t.loc 8
  let e := (w / 2 ^ 40 + 1) % 2 ^ 24
  let s := s.locWrite b.core t.loc 0 (natBytes 8 (e * 2 ^ 40 + w % 2 ^ 40 / 2 ^ 33 * 2 ^ 33 + w % 2 ^ 32))
  s.updFly b.fly fun f => f.take t.lane []

/-- The waiters that a plain write has filled: the lane lands the value (R234). -/
def State.filledWaiter (s : State) (engine : Nat) : Option Waiter :=
  findBy (fun w => s.locEngine w.loc == engine && decide (s.locNat w.loc 8 / 2 ^ 32 % 2 = 1)) s.waiters

end Sys2Proof.Machine
end

