-- ==== Sys2Proof/Machine/Kv.lean ====
section
/-! DEFINITION. The KV residency map (R129, R130), gathers, map writes and migrations (R131, R132, R255 to R257), and
decode attention (R133, R134, R258). -/

namespace Sys2Proof.Machine

/-! ### The map (R129, R130) -/

/-- A map descriptor. -/
structure KvDesc where
  mapbase : Nat
  seqs : Nat
  heads : Nat
  blocks : Nat
  btok : Nat
  dhead : Nat
  fmt : Nat
  blk : Nat
  mbz : Nat
  deriving DecidableEq, Repr

/-- The map descriptor of a number. -/
def kvDesc (v : Nat) : KvDesc :=
  ⟨bitsOf v 192 64, bitsOf v 168 24, bitsOf v 160 8 + 1, bitsOf v 136 24, 16 * 2 ^ bitsOf v 134 2, bitsOf v 132 2, bitsOf v 127 5,
    bitsOf v 125 2, bitsOf v 0 125⟩

/-- Whether a descriptor is rejected (R129). -/
def KvDesc.rejected (d : KvDesc) : Bool :=
  !([1, 2, 3, 4, 19].contains d.fmt) || d.dhead == 3 || decide (d.mbz ≠ 0) || decide (d.mapbase % 64 ≠ 0)

/-- The head dimension. -/
def KvDesc.dim (d : KvDesc) : Nat := 64 * 2 ^ d.dhead

/-- The element format. -/
def KvDesc.format (d : KvDesc) : Fmt := fmtAt d.fmt

/-- The bytes of a row, of a region and of its scales. -/
def KvDesc.rowLen (d : KvDesc) : Nat := rowBytes (fmtWidth d.format) d.dim
def KvDesc.regionLen (d : KvDesc) : Nat := d.btok * d.rowLen
def KvDesc.scaleLen (d : KvDesc) : Nat := 4 * d.btok * blocksIn d.format d.blk d.dim

/-- The bytes of K or V with its scales, and of a block. -/
def KvDesc.halfLen (d : KvDesc) : Nat := d.regionLen + d.scaleLen
def KvDesc.blockLen (d : KvDesc) : Nat := 2 * d.halfLen

/-- The part of a block that SEL names, and the length of a tile (R255). -/
def KvDesc.tilePart (d : KvDesc) (sel : Nat) : Nat × Nat :=
  match sel with
  | 1 => (0, d.halfLen)
  | 2 => (d.halfLen, d.halfLen)
  | 3 => (0, d.blockLen)
  | _ => (0, 0)

/-- A tile of absent codes and absent scales (R131). -/
def KvDesc.absentTile (d : KvDesc) (sel : Nat) : List Byte :=
  let half := (List.range d.btok).flatMap (fun _ => packRow d.format (List.replicate d.dim (absentCode d.format)))
    ++ List.replicate d.scaleLen 0xFF
  match sel with
  | 1 | 2 => half
  | 3 => half ++ half
  | _ => []

/-- The virtual address of the entry of a sequence, head and block, where they are in range (R130). -/
def KvDesc.entry (d : KvDesc) (q h j : Nat) : Option Nat :=
  if q < d.seqs ∧ h < d.heads ∧ j < d.blocks then some (d.mapbase + 8 * ((q * d.heads + h) * d.blocks + j)) else none

/-- The fields of a map entry. -/
def entryTier (e : Nat) : Nat := bitsOf e 62 2
def entryMapped (e : Nat) : Bool := decide (bitsOf e 61 1 = 1)
def entryMoving (e : Nat) : Bool := decide (bitsOf e 60 1 = 1)
def entryReserved (e : Nat) : Nat := bitsOf e 57 3
def entryLoc (e : Nat) : Nat := (BitVec.signExtend 64 (BitVec.ofNat 57 e)).toNat

/-- The entry word of a lane: head and block share a register (R255). -/
def KvDesc.entryOf (d : KvDesc) (q hj : Word) : Option Nat := d.entry q.toNat (hj.toNat % 256) (hj.toNat / 256)

/-! ### KVG (R131, R255) -/

/-- The gathers of a core. -/
def State.gathers (s : State) (core : Nat) : Nat := (s.ops.filter fun o => o.core == core && o.kind == .kvg).length

/-- KVG. -/
def execKvg (x : OpE) (s : State) : Host.Outcome State Fault Refusal :=
  issue s (.kvg x) fun c =>
    let ls := c.act x.m
    let l := c.low x.m
    let b := x.b.toNat
    let ctl := (c.reg (b + 2) l).toNat
    let scratch := decide (bitsOf ctl 22 1 = 1)
    if ls.isEmpty then .next (finishPlain s c)
    else if !scratch && !c.deferring then .next (illegal s c)
    else
      match farRecord s c (.kvg x) x.a.toNat 32 l with
      | .stop t => .next t
      | .go s v =>
        let d := kvDesc v
        let dst := bitsOf ctl 0 20
        let sel := bitsOf ctl 20 2
        let n := ls.length * (d.tilePart sel).2
        let arr := (c.reg (b + 3) l).toNat
        let sig := if scratch then s.checkSignal c.grp (c.reg (b + 4) l) (c.reg (b + 5) l) else .ok ⟨0, 0, 0⟩
        let mask := c.actMask x.m
        let answer := fun (k : Nat) =>
          if scratch then finishStatus s c x.m x.d.toNat k
          else finishFly s c true (flyOf mask [(x.d.toNat, List.replicate 32 (BitVec.ofNat 32 k))] none)
        let bad := d.rejected || decide (bitsOf ctl 23 9 ≠ 0) || sel == 0 || decide (dst % 16 ≠ 0) || decide (c.grp.sBytes < dst + n)
          || (scratch && (decide (arr % 4 ≠ 0) || decide (c.grp.sBytes < arr + 128)))
          || (match sig with | .status _ => true | _ => false)
        match sig with
        | .illegal => .next (raise s c 0x20 (c.reg (b + 4) l) 0)
        | _ =>
          if bad then .next (answer 6)
          else if 8 ≤ s.gathers c.grp.core ∨ 32 ≤ (s.copyQueue c.grp.core).length ∨ !s.lockRoom c.grp.core 1 then .next (answer 7)
          else
            let words := ((List.range 8).map fun i => BitVec.ofNat 32 (v / 2 ^ (32 * i))) ++ [BitVec.ofNat 32 ctl, BitVec.ofNat 32 arr]
            let key := c.key s
            let s1 := if scratch then s else addFly s c (flyFor mask [x.d.toNat] none)
            let o0 := c.engOp s1 .kvg x.m words
            let lock : Lock := ⟨o0.id, 0, c.grp.asid, c.grp.gid, dst, n⟩
            let o := { o0 with
              fly := if scratch then 0 else key
              signal := if scratch then (match sig with | .ok y => some y | _ => none) else none
              lanes := (List.range 32).map fun k => [c.reg b k, c.reg (b + 1) k] }
            let s2 := s1.startOp o [lock]
            .next (if scratch then finishStatus s2 c x.m x.d.toNat 0 else finishPending s2 c key true mask [x.d.toNat])

/-- What a gather finds for a lane: its status, and the virtual address of the part of the block that it reads. -/
def State.gatherLane (s : State) (d : KvDesc) (m : VaMap) (q hj : Word) (sel : Nat) : Nat × Option (Nat × Bool) :=
  match d.entryOf q hj with
  | none => (4, none)
  | some a =>
    let e := s.homeNat (vaAt m a) 8
    if !entryMapped e then (1, none)
    else if entryMoving e then (3, none)
    else if entryTier e = 3 then (2, none)
    else (0, some (entryLoc e + (d.tilePart sel).1, entryTier e == 2))

/-- The lanes of a gather whose map entries come from poisoned data (R348). -/
def State.gatherBad (s : State) (o : EngOp) (d : KvDesc) (m : VaMap) : List Nat :=
  (lanesOf o.mask).filter fun l =>
    let ws := o.lanes.getD l []
    match d.entryOf (ws.getD 0 0) (ws.getD 1 0) with
    | some a => s.marked (vaAt m a)
    | none => false

/-- Completes a gather whose ranges all translate: `m` maps the entries and `b` the blocks. A read from a peer succeeds
or fails as nothing constrains, and fails where no port is linked (R1, R131). -/
def State.endGather (s : State) (o : EngOp) (d : KvDesc) (m b : VaMap) : State :=
  let ctl := (o.args.getD 8 0).toNat
  let arr := (o.args.getD 9 0).toNat
  let sel := bitsOf ctl 20 2
  let dst := bitsOf ctl 0 20
  let n := (d.tilePart sel).2
  let fails := Config.freeWord s.free
  let out := (lanesOf o.mask).zipIdx.map fun p =>
    let ws := o.lanes.getD p.1 []
    let r := s.gatherLane d m (ws.getD 0 0) (ws.getD 1 0) sel
    match r.2 with
    | none => (p, r.1, d.absentTile sel, [])
    | some (va, tier2) =>
      let remote := tier2 || isPeer (vaAt b va)
      if remote && (!s.linked || fails.getLsbD p.1) then (p, 5, d.absentTile sel, [])
      else
        let at_ := fun i => vaAt b (va + i)
        let byte := fun i => if isPeer (at_ i) then Config.freeByte (Nat.pair s.free (at_ i)) else s.home (at_ i)
        (p, 0, (List.range n).map byte, (List.range n).filter fun i => s.marked (at_ i))
  let lost := s.gatherBad o d m
  let s := { s with free := s.free + 1 }
  let bad := out.flatMap fun q => q.2.2.2.map fun i => (dst + q.1.2 * n + i) / 32
  let s := out.foldl (fun s q => s.storeLocal (.sram o.gid (dst + q.1.2 * n)) q.2.2.1) s
  let mark := fun (s : State) (xs : List Nat) => s.updGroup o.gid fun g => { g with sSpoil := addSpoil g.sSpoil xs }
  let s := mark s bad
  let status := fun l => match findBy (fun (q : (Nat × Nat) × Nat × List Byte × List Nat) => q.1.1 == l) out with
    | some q => q.2.1
    | none => 0
  if bitsOf ctl 22 1 = 1 then
    let s := out.foldl (fun s q => s.storeLocal (.sram o.gid (arr + 4 * q.1.1)) (natBytes 4 q.2.1)) s
    (mark s (lost.map fun l => (arr + 4 * l) / 32)).endOp o (if bad.isEmpty && lost.isEmpty then 0 else 5)
  else
    let s := s.endOp o 0
    s.updFly o.fly fun f =>
      { f with
        vals := f.vals.map fun p => (p.1, lanes32 fun l => BitVec.ofNat 32 (status l))
        ready := f.mask
        poison := f.vals.flatMap fun p => lost.map fun l => regKey p.1 l }

/-- KVG_COMPLETION (R131): entries at their home engines, blocks at their home copies; a translation fault stops the
gather (R317). -/
def execKvgCompletion (op : Nat) (s : State) : Host.Outcome State Fault Refusal :=
  match s.op? op with
  | none => .refused (.notEnabled "KVG_COMPLETION")
  | some o =>
    if o.kind != .kvg || o.parked || s.copyWaits o then .refused (.notEnabled "KVG_COMPLETION")
    else
      let d := kvDesc (wordsNat (o.args.take 8))
      let sel := bitsOf (o.args.getD 8 0).toNat 20 2
      let es := (lanesOf o.mask).filterMap fun l =>
        let ws := o.lanes.getD l []
        (d.entryOf (ws.getD 0 0) (ws.getD 1 0)).map fun a => (a, 8)
      match s.mapRanges o.core o.asid .read es with
      | .error f => .next (s.parkOp o false f)
      | .ok m =>
        let blocks := (lanesOf o.mask).filterMap fun l =>
          let ws := o.lanes.getD l []
          (s.gatherLane d m (ws.getD 0 0) (ws.getD 1 0) sel).2.map fun p => (p.1, (d.tilePart sel).2)
        match s.mapRanges o.core o.asid .read blocks with
        | .error f => .next (s.parkOp o false f)
        | .ok b => .next ((s.askRanges o.asid b blocks).endGather o d m b)

/-! ### KVMAP (R256) -/

/-- An effective address for a map entry. -/
def entryEa (l a : Nat) : Ea :=
  let va := BitVec.ofNat 64 a
  ⟨l, va, 0, va.toNat, decide (a % 8 ≠ 0), !canonical va, none⟩

/-- KVMAP: its transactions follow the landing of a release at device scope. The spec does not say what becomes of an
entry that lies in a peer window: here it raises PROTECTION, as MIGR's does, and a gather or attention reads it as
unmapped (DESIGN CHOICE, log 61). -/
def execKvmap (x : OpE) (s : State) : Host.Outcome State Fault Refusal :=
  issue s (.kvmap x) fun c =>
    let ls := c.act x.m
    let b := x.b.toNat
    let new := fun l => c.pair (b + 2) l
    if ls.isEmpty then .next (finishPlain s c)
    else if ls.any fun l => entryMoving (new l).toNat || decide (entryReserved (new l).toNat ≠ 0) then .next (illegal s c)
    else
      match farRecord s c (.kvmap x) x.a.toNat 32 (c.low x.m) with
      | .stop t => .next t
      | .go s v =>
        let d := kvDesc v
        let place := fun l => if d.rejected then none else d.entryOf (c.reg b l) (c.reg (b + 1) l)
        let es := ls.filterMap fun l => (place l).map fun a => entryEa l a
        match checkAccess s c .g 8 true false es with
        | .trap t => .next t
        | .go s acc miss =>
          match findBy (fun (q : Ea × Loc) => q.2.peer) acc with
          | some q => .next (raise s c 0x25 0 q.1.va)
          | none =>
            if !miss.isEmpty then .next (deferStore s c (.kvmap x) (miss.map fun q => q.2))
            else
              let mask := c.actMask x.m
              let rs := pair x.d.toNat
              let key := c.key s
              let out := ls.filter fun l => (place l).isNone
              let f0 := { flyFor mask rs none with left := acc.length }
              let s := addFly s c (out.foldl (fun f l => f.put l [0xFFFFFFFF, 0xFFFFFFFF]) f0)
              let bs := s.batchesOf c.grp c.cur.widx key .kvmap (acc.map fun q => ⟨q.1.lane, q.2, new q.1.lane, 0⟩)
              let s := { s with uid := s.uid + bs.length }.doAct c.grp c.cur.widx (.send (some .device) bs)
              .next (finishPending s c key false mask rs)

/-- KVMAP's transaction: the new entry is written unless the old one is moving; the old one is the answer. -/
def State.serveKvmap (s : State) (b : Batch) (t : Tx) : State :=
  let e := s.locNat t.loc 8
  let s := if entryMoving e then s else s.locWrite b.core t.loc 0 (natBytes 8 t.y.toNat)
  s.updFly b.fly fun f => f.take t.lane [BitVec.ofNat 32 e, BitVec.ofNat 32 (e / 2 ^ 32)]

/-! ### MIGR (R132, R257) -/

/-- MIGR: one transaction sets MOVING; the migration itself completes later. -/
def execMigr (x : OpE) (s : State) : Host.Outcome State Fault Refusal :=
  single s (.migr x) fun c l =>
    let b := x.b.toNat
    let ws := c.words b 6 l
    let new := (join64 (ws.getD 2 0) (ws.getD 3 0)).toNat
    match farRecord s c (.migr x) x.a.toNat 32 l with
    | .stop t => .next t
    | .go s v =>
      let d := kvDesc v
      let mask := c.actMask x.m
      let now := fun (k : Nat) => finishFly s c false (flyOf mask [(x.d.toNat, List.replicate 32 (BitVec.ofNat 32 k))] none)
      match s.checkSignal c.grp (ws.getD 4 0) (ws.getD 5 0) with
      | .illegal => .next (raise s c 0x20 (ws.getD 4 0) 0)
      | .status k => .next (now k)
      | .ok sig =>
        if d.rejected || !entryMapped new || entryMoving new || decide (entryReserved new ≠ 0) then .next (now 4)
        else
          match d.entryOf (ws.getD 0 0) (ws.getD 1 0) with
          | none => .next (now 3)
          | some a =>
            if 32 ≤ (s.copyQueue c.grp.core).length then .next (now 2)
            else
              match checkAccess s c .g 8 true false [entryEa l a] with
              | .trap t => .next t
              | .go s acc miss =>
                match acc with
                | [] => .next (deferAccess s c (.migr x) true (miss.map fun q => q.2))
                | (_, loc) :: _ =>
                  if loc.peer then .next (raise s c 0x25 0 (BitVec.ofNat 64 a))
                  else
                    let key := c.key s
                    let s1 := addFly s c { flyFor mask [x.d.toNat] none with left := 1 }
                    let o := { c.engOp s1 .migr x.m (((List.range 8).map fun i => BitVec.ofNat 32 (v / 2 ^ (32 * i))) ++ ws.take 4) with
                      signal := some sig, fly := key }
                    let s2 := s1.startOp o []
                    let bs := s2.batchesOf c.grp c.cur.widx key (.migr o.id) [⟨l, loc, 0, 0⟩]
                    let s3 := { s2 with uid := s2.uid + bs.length }.sendBatches c.grp none bs none
                    .next (finishPending s3 c key false mask [x.d.toNat])

/-- Whether a migration's transaction has set MOVING. -/
def EngOp.accepted (o : EngOp) : Bool := decide (12 < o.args.length)

/-- MIGR's transaction: MOVING is set, or the migration is turned away (R132, R257). -/
def State.serveMigr (s : State) (b : Batch) (t : Tx) (op : Nat) : State :=
  let e := s.locNat t.loc 8
  let k := if !entryMapped e then 3 else if entryMoving e then 1 else 0
  let s := s.updFly b.fly fun f => f.take t.lane [BitVec.ofNat 32 k]
  if k ≠ 0 then { s with ops := s.ops.filter fun o => o.id != op }
  else
    let s := s.locWrite b.core t.loc 0 (natBytes 8 (e + 2 ^ 60))
    let s := { s with ops := updateBy (fun o => o.id == op) (fun o => { o with args := o.args ++ [1] }) s.ops }
    match s.op? op with
    | none => s
    | some o =>
      let len := (kvDesc (wordsNat (o.args.take 8))).blockLen
      if entryTier e = 3 then s.sendCapsule 0 0 o.asid [2, BitVec.ofNat 64 (entryLoc e), BitVec.ofNat 64 len]
      else
        match s.mapRanges o.core o.asid .read [(entryLoc e, len)] with
        | .error _ => s
        | .ok m => s.askRange o.asid m (entryLoc e) len

/-- The bytes of a block at its present place; those of a peer or of storage come from outside (R132). -/
def State.blockBytes (s : State) (d : KvDesc) (e : Nat) (m : VaMap) : List Byte :=
  (List.range d.blockLen).map fun i =>
    let va := entryLoc e + i
    let a := vaAt m va
    if entryTier e = 3 then Config.freeByte (Nat.pair s.free va)
    else if isPeer a then Config.freeByte (Nat.pair s.free a) else s.home a

/-- Writes a block at its target: home copies, remote writes to a peer, or a write command of the storage engine, the last
two with the block's bytes (R132). -/
def State.placeBlock (s : State) (core asid new : Nat) (m : VaMap) (bs : List Byte) : State :=
  if entryTier new = 3 then
    s.sendCapsule 0 0 asid ([1, BitVec.ofNat 64 (entryLoc new), BitVec.ofNat 64 bs.length] ++ packData bs)
  else
    let ws := bs.zipIdx.map fun p => (vaAt m (entryLoc new + p.2), p.1)
    let s := s.engineWrite core (ws.filter fun w => !isPeer w.1)
    (peerPieces m (entryLoc new) bs.length).foldl (fun s q =>
      s.sendPeer 0 q.1 none asid ([BitVec.ofNat 64 q.2.1, BitVec.ofNat 64 q.2.2.2] ++ packData ((bs.drop q.2.2.1).take q.2.2.2))) s

/-- MIGR_COMPLETION: the block is copied and the new entry is written in one write, or the old entry is restored with
MOVING clear and the failure of a peer or of storage is reported (R132, R257). Bytes of a peer or of storage come and go through
a port (R1). -/
def execMigrCompletion (op : Nat) (status : Nat) (s : State) : Host.Outcome State Fault Refusal :=
  match s.op? op with
  | none => .refused (.notEnabled "MIGR_COMPLETION")
  | some o =>
    let d := kvDesc (wordsNat (o.args.take 8))
    let new := (join64 (o.args.getD 10 0) (o.args.getD 11 0)).toNat
    if o.kind != .migr || o.parked || !o.accepted then .refused (.notEnabled "MIGR_COMPLETION")
    else
      match d.entryOf (o.args.getD 8 0) (o.args.getD 9 0) with
      | none => .refused (.notEnabled "MIGR_COMPLETION")
      | some a =>
        match s.mapRanges o.core o.asid .write [(a, 8)] with
        | .error f => .next (s.parkOp o true f)
        | .ok m =>
          let old := s.homeNat (vaAt m a) 8
          let entry := fun (s : State) (e : Nat) => s.engineWrite o.core (putAt (vaAt m a) (natBytes 8 e))
          if status ≠ 0 then
            if 3 < status || (decide (entryTier old < 2) && decide (entryTier new < 2)) then .refused (.notEnabled "MIGR_COMPLETION")
            else .next ((entry s (old - 2 ^ 60)).endOp o status)
          else
            match s.mapRanges o.core o.asid .read (if entryTier old = 3 then [] else [(entryLoc old, d.blockLen)]) with
            | .error f => .next (s.parkOp o false f)
            | .ok ms =>
              match s.mapRanges o.core o.asid .write (if entryTier new = 3 then [] else [(entryLoc new, d.blockLen)]) with
              | .error f => .next (s.parkOp o true f)
              | .ok mt =>
                if !s.linked && (entryTier old == 3 || entryTier new == 3 || s.cutOff ms || s.cutOff mt) then
                  .refused (.notEnabled "MIGR_COMPLETION")
                else
                  let bad := (List.range d.blockLen).filter fun i => entryTier old != 3 && s.marked (vaAt ms (entryLoc old + i))
                  let s1 := { s.placeBlock o.core o.asid new mt (s.blockBytes d old ms) with free := s.free + 1 }
                  let s1 := if entryTier new = 3 then s1
                    else s1.spoilFar (wholeMarks (bad.map fun i => sectorOf (vaAt mt (entryLoc new + i))))
                  .next ((entry s1 new).endOp o (if bad.isEmpty then 0 else 5))

/-! ### ADEC (R133, R134, R258) -/

/-- What a rejected ADEC lands (R258); so does one that the range-lock table has no room for (log 60). -/
def skipped (rs : List Nat) : List (Nat × List Word) :=
  rs.zipIdx.map fun p => (p.1, List.replicate 32 (if p.2 = 2 then 0 else 0xFFFFFFFF))

/-- ADEC. -/
def execAdec (x : OpE) (s : State) : Host.Outcome State Fault Refusal :=
  issue s (.adec x) fun c =>
    let l := c.low x.m
    let ws := c.words x.b.toNat 3 l
    let query := (ws.getD 0 0).toNat
    let list := (ws.getD 1 0).toNat
    let n := (ws.getD 2 0).toNat
    if (c.act x.m).isEmpty then .next (finishPlain s c)
    else if !c.deferring || n = 0 || 1024 < n then .next (illegal s c)
    else
      match farRecord s c (.adec x) x.a.toNat 32 l with
      | .stop t => .next t
      | .go s v =>
        let d := kvDesc v
        let rs := span x.d.toNat (4 + d.dim / 32)
        let mask := c.actMask x.m
        let outside := fun (o k : Nat) => decide (c.grp.sBytes < o + k)
        if c.warp.window ≤ x.d.toNat + 3 + d.dim / 32 then .next (illegal s c)
        else if query % 4 ≠ 0 then .next (raise s c 0x26 0 (BitVec.ofNat 64 query))
        else if list % 4 ≠ 0 then .next (raise s c 0x26 0 (BitVec.ofNat 64 list))
        else if outside query (4 * d.dim) then .next (raise s c 0x25 0 (BitVec.ofNat 64 query))
        else if outside list (4 * n) then .next (raise s c 0x25 0 (BitVec.ofNat 64 list))
        else if d.rejected then
          .next (finishFly s c true (flyOf mask (skipped rs) none))
        else if 8 ≤ (s.ops.filter fun o => o.core == c.grp.core && o.kind == .adec).length then .next { s with cur := none }
        else if !(c.extraWaits (rs.drop 4)).isEmpty then .next (captureBehind s c (.adec x) (rs.drop 4) (c.extraWaits (rs.drop 4)))
        else if !s.lockRoom c.grp.core 2 then .next (finishFly s c true (flyOf mask (skipped rs) none))
        else
          let key := c.key s
          let s1 := addFly s c (flyFor mask rs none)
          let o := { c.engOp s1 .adec x.m (((List.range 8).map fun i => BitVec.ofNat 32 (v / 2 ^ (32 * i))) ++ ws) with fly := key }
          let s2 := s1.startOp o [⟨o.id, 0, c.grp.asid, c.grp.gid, query, 4 * d.dim⟩, ⟨o.id, 0, c.grp.asid, c.grp.gid, list, 4 * n⟩]
          .next (finishPending s2 c key true mask rs)

/-- The destinations that the operands of an instruction give beside those that its word names, where its operands are
ready (R258, R259). -/
def Ctx.extraDsts (s : State) (c : Ctx) (i : Instr) : List Nat :=
  let l := c.low i.modifier
  let form := fun (d b : Nat) =>
    if c.ready (b + 3) && decide (bitsOf (c.reg (b + 3) l).toNat 12 1 = 1) then [d + 1] else []
  match i with
  | .nwr x => form x.d.toNat x.b.toNat
  | .nrd x => form x.d.toNat x.b.toNat
  | .nsnd x => form x.d.toNat x.b.toNat
  | .strd x => form x.d.toNat x.b.toNat
  | .stwr x => form x.d.toNat x.b.toNat
  | .stfl x => form x.d.toNat x.b.toNat
  | .adec x =>
    if c.ready x.a.toNat && c.ready (x.a.toNat + 1) then
      match farRecord s c i x.a.toNat 32 l with
      | .go _ v => (span x.d.toNat (4 + (kvDesc v).dim / 32)).drop 4
      | .stop _ => []
    else []
  | _ => []

/-- The absent word of .F32. -/
def absF32 : Word := 0xFFFFFFFF

/-- F32 arithmetic of R134, one rounding to nearest even, absent operands by R67. -/
def f32op (o : FloatOp) (x y : Word) : Word := BitVec.ofNat 32 (floatElem o fpF32 none x.toNat y.toNat 0).1

/-- e^x, x not 0, at a precision: x = n ln 2 + r. -/
def expAt (P : Nat) (x : Exact) : Option Exact :=
  let Q := P + 32
  let v : Int := if x.neg then -(fixOf Q x) else fixOf Q x
  let n := v / fixLn2 Q
  (widen P (fixExp Q (v - n * fixLn2 Q) / 2 ^ 32)).map fun y => y.scale n

/-- e(x) of R134: exp correctly rounded to F32 (log 6). -/
def expF32 (x : Word) : Word :=
  match decodeFloat fpF32 x.toNat with
  | .absent => absF32
  | .nan => BitVec.ofNat 32 fpF32.nanCode
  | .inf n => if n then 0 else BitVec.ofNat 32 (infCode fpF32 false)
  | .num v =>
    if v.m = 0 then 0x3F800000
    else if Exact.lt ⟨false, 256, 0, false⟩ { v with neg := false } then
      if v.neg then 0 else BitVec.ofNat 32 (infCode fpF32 false)
    else
      match refine (fun P => expAt P v) 8 (startPrec v) with
      | some y => BitVec.ofNat 32 (roundFloat fpF32 y .nearest false).1
      | none => BitVec.ofNat 32 (Config.specialCode 8 32 x.toNat)

/-- A partial result (m, l, acc) of attention; m absent for the absent triple. -/
structure Triple where
  m : Word
  l : Word
  acc : List Word
  deriving DecidableEq, Repr

/-- The absent triple (R78). -/
def Triple.absent (d : Nat) : Triple := ⟨absF32, absF32, List.replicate d absF32⟩

/-- lse_merge (R134). -/
def lseMerge (x y : Triple) : Triple :=
  if x.m = absF32 then y
  else if y.m = absF32 then x
  else
    let m := f32op .max x.m y.m
    let a := expF32 (f32op .sub x.m m)
    let b := expF32 (f32op .sub y.m m)
    let sc := fun (v w : Word) => if v = absF32 then v else f32op .mul v w
    ⟨m, f32op .add (f32op .mul x.l a) (f32op .mul y.l b), (x.acc.zip y.acc).map fun p => f32op .add (sc p.1 a) (sc p.2 b)⟩

/-- An element of a block as a value, with the scale of its block in a scaled format. -/
def KvDesc.elemAt (d : KvDesc) (rd : Nat → Byte) (region p k : Nat) : FVal :=
  let f := d.format
  let code := packedElem rd (region + p * d.rowLen) (fmtWidth f) k
  if f.scaled then
    let nb := blocksIn f d.blk d.dim
    (scaledValue f [] code (BitVec.ofNat 32 (readNat rd (region + d.regionLen + 4 * (p * nb + k / Sys2Proof.Machine.blockLen d.blk)) 4))).1
  else decodeFmt f [] code

/-- The score of a token: the exact sum of its present products, rounded once (R134). -/
def KvDesc.score (d : KvDesc) (q : List Word) (rd : Nat → Byte) (p : Nat) : Word :=
  let ps := (List.range d.dim).filterMap fun k =>
    let a := decodeFloat fpF32 (q.getD k 0).toNat
    let b := d.elemAt rd 0 p k
    if a.isAbsent || b.isAbsent then none else some (fprod a b).1
  if ps.isEmpty then absF32
  else BitVec.ofNat 32 (convert (sumExact ps).1 .f32 [] .nearest false).1

/-- Folds a block into a triple and a count of contributing tokens (R134). -/
def KvDesc.foldBlock (d : KvDesc) (q : List Word) (rd : Nat → Byte) (t : Triple × Nat) : Triple × Nat :=
  (List.range d.btok).foldl (fun t p =>
    let s := d.score q rd p
    if s = absF32 then t
    else
      let v := (List.range d.dim).map fun k => BitVec.ofNat 32 (convert (d.elemAt rd d.halfLen p k) .f32 [] .nearest false).1
      (lseMerge t.1 ⟨s, 0x3F800000, v⟩, t.2 + 1)) t

/-- The listed entries of an attention, in list order: the virtual address of each, where it is in range. -/
def KvDesc.listed (d : KvDesc) (ix : List Nat) : List (Option Nat) :=
  ix.map fun i => if i < d.seqs * d.heads * d.blocks then some (d.mapbase + 8 * i) else none

/-- The blocks that an attention reads, in list order: those that an entry maps to HBM and that are not moving (R133). -/
def State.attended (s : State) (m : VaMap) (es : List (Option Nat)) : List (Option Nat) :=
  es.map fun a =>
    match a with
    | none => none
    | some a =>
      let e := s.homeNat (vaAt m a) 8
      if entryMapped e && !entryMoving e && entryTier e == 1 then some (entryLoc e) else none

/-- The result of an attention: the triple, the contributing tokens and the skipped blocks (R133, R134). -/
def State.attend (s : State) (d : KvDesc) (q : List Word) (bs : List (Option Nat)) (b : VaMap) : Triple × Nat × Nat :=
  let here := bs.filterMap fun x => x
  let stack := fun va => (stackOf (vaAt b va)).getD 16
  let parts := (List.range 16).map fun k =>
    (here.filter fun va => stack va == k).foldl (fun t va =>
      d.foldBlock q (fun i => s.home (vaAt b (va + i))) t) (Triple.absent d.dim, 0)
  let t := match parts with
    | p :: r => r.foldl (fun (t x : Triple × Nat) => (lseMerge t.1 x.1, t.2 + x.2)) p
    | [] => (Triple.absent d.dim, 0)
  (t.1, t.2, bs.length - (here.filter fun va => decide (stack va < 16)).length)

/-- Whether scratch of a group holds the memory poison mark in some of n bytes. -/
def State.scratchMarked (s : State) (gid lo n : Nat) : Bool :=
  match s.group? gid with
  | some g => (List.range n).any fun i => smGet 0 g.sSpoil ((lo + i) / 32) != 0
  | none => false

/-- What of an attention's results comes from poisoned data (R348): its counts, where its list or an entry does, and the triple,
where the query or a block does, too. -/
def State.attendBad (s : State) (o : EngOp) (d : KvDesc) (m : VaMap) (es : List (Option Nat)) (b : VaMap) (bs : List (Option Nat)) :
    Bool × Bool :=
  let list := s.scratchMarked o.gid (o.args.getD 9 0).toNat (4 * (o.args.getD 10 0).toNat)
    || es.any fun a => match a with | some x => s.marked (vaAt m x) | none => false
  let data := s.scratchMarked o.gid (o.args.getD 8 0).toNat (4 * d.dim)
    || bs.any fun a => match a with | some x => (List.range d.blockLen).any fun i => s.marked (vaAt b (x + i)) | none => false
  (list, list || data)

/-- ADEC_COMPLETION (R133, R134). -/
def execAdecCompletion (op : Nat) (s : State) : Host.Outcome State Fault Refusal :=
  match s.op? op with
  | none => .refused (.notEnabled "ADEC_COMPLETION")
  | some o =>
    if o.kind != .adec || o.parked then .refused (.notEnabled "ADEC_COMPLETION")
    else
      let d := kvDesc (wordsNat (o.args.take 8))
      let word := fun a => s.locNat (.sram o.gid a) 4
      let q := (List.range d.dim).map fun i => BitVec.ofNat 32 (word ((o.args.getD 8 0).toNat + 4 * i))
      let ix := (List.range (o.args.getD 10 0).toNat).map fun i => word ((o.args.getD 9 0).toNat + 4 * i)
      let es := d.listed ix
      match s.mapRanges o.core o.asid .read (es.filterMap fun a => a.map fun x => (x, 8)) with
      | .error f => .next (s.parkOp o false f)
      | .ok m =>
        let bs := s.attended m es
        match s.mapRanges o.core o.asid .read (bs.filterMap fun a => a.map fun x => (x, d.blockLen)) with
        | .error f => .next (s.parkOp o false f)
        | .ok b =>
          let r := s.attend d q bs b
          let none_ := r.2.1 = 0
          let at_ := fun (i l : Nat) =>
            match i with
            | 0 => if none_ then absF32 else r.1.m
            | 1 => if none_ then absF32 else r.1.l
            | 2 => BitVec.ofNat 32 r.2.1
            | 3 => BitVec.ofNat 32 r.2.2
            | k + 4 => if none_ then absF32 else r.1.acc.getD (32 * k + l) absF32
          let bad := s.attendBad o d m es b bs
          let s := s.endOp o 0
          .next (s.updFly o.fly fun f =>
            { f with
              vals := f.vals.zipIdx.map fun p => (p.1.1, lanes32 fun l => at_ p.2 l)
              ready := f.mask
              poison := f.vals.zipIdx.flatMap fun p =>
                if (if p.2 = 3 then bad.1 else bad.2) then (lanesOf f.mask).map fun l => regKey p.1.1 l else [] })

end Sys2Proof.Machine
end

