-- ==== Sys2Proof/Machine/Engine.lean ====
section
/-! DEFINITION. The home atomic engines (R90, R91): which batch is served next, and what each transaction does. -/

namespace Sys2Proof.Machine

/-- ATOM's transaction: the location is changed and its old value is the lane's answer (R90, R224). -/
def State.serveAtom (s : State) (b : Batch) (t : Tx) (o : AtomOp) (w64 : Bool) : State :=
  let n := if w64 then 8 else 4
  let old := s.locNat t.loc n
  let new := o.apply n old (t.y.toNat % 2 ^ (8 * n)) (t.n.toNat % 2 ^ (8 * n))
  (s.locWrite b.core t.loc 0 (natBytes n new)).updFly b.fly fun f =>
    f.take t.lane [BitVec.ofNat 32 old, BitVec.ofNat 32 (old / 2 ^ 32)]

/-- The bytes of its place that a transaction reads. -/
def TxKind.bytes (k : TxKind) : Nat :=
  match k with
  | .atom _ w64 => if w64 then 8 else 4
  | .ann _ => 0
  | _ => 8

/-- One lane's transaction on its place. -/
def State.serveOne (s : State) (b : Batch) (t : Tx) : State :=
  match b.kind with
  | .atom o w64 => s.serveAtom b t o w64
  | .fget wait => s.serveFget b t wait
  | .fset => s.serveFset b t
  | .fclr => s.serveFclr b t
  | .kvmap => s.serveKvmap b t
  | .migr op => s.serveMigr b t op
  | .ann _ => s.serveAnn t

/-- One lane's transaction. One that reads poisoned bytes leaves its sector marked and poisons the lane's answer (R348). -/
def State.serveTx (s : State) (b : Batch) (t : Tx) : State :=
  let s1 := s.serveOne b t
  if s.locMarked t.loc b.kind.bytes then
    (s1.markLoc t.loc b.kind.bytes).updFly b.fly fun f =>
      if f.ready.getLsbD t.lane then { f with poison := f.poison ++ f.vals.map fun p => regKey p.1 t.lane } else f
  else s1

/-- The 128-byte line of a place. -/
def Loc.line (l : Loc) : Loc :=
  match l with
  | .phys a => .phys (128 * (rawAddr a / 128))
  | .sram g a => .sram g (128 * (a / 128))
  | .nram g a => .nram g (128 * (a / 128))

/-- The hot-line store of an engine after a transaction on a place: it holds the 64 lines used last (R6, R90, log 87). -/
def Engine.touch (e : Engine) (l : Loc) : Engine :=
  let ls := (e.hot.filter fun x => x != l.line) ++ [l.line]
  { e with hot := ls.drop (ls.length - 64) }

/-- The local batch that an engine serves next: its cores are taken round-robin after the one last served (R91). -/
def State.nextLocal (s : State) (engine last : Nat) : Option Batch :=
  let mine := s.batches.filter fun b => b.engine == engine
  match findBy (fun k => mine.any fun b => b.core == 8 * engine + (last + 1 + k) % 8) (List.range 8) with
  | none => none
  | some k => findBy (fun b => b.core == 8 * engine + (last + 1 + k) % 8) mine

/-- The oldest request from outside the cluster. -/
def State.nextOutside (s : State) (engine : Nat) : Option Batch :=
  findBy (fun b => b.engine == engine && b.core / 8 != engine) s.batches

/-- The batch that an engine serves next, and whether it comes from outside: where both kinds wait they alternate
(R91). -/
def State.nextBatch (s : State) (engine : Nat) : Option (Batch × Bool) :=
  let e := smGet Engine.fresh s.engines engine
  match s.nextLocal engine e.lastLocal, s.nextOutside engine with
  | some b, none => some (b, false)
  | none, some b => some (b, true)
  | some b, some c => if e.lastRemote then some (b, false) else some (c, true)
  | none, none => none

/-- Serves a batch whole, its lanes in ascending order (R91). -/
def State.serveBatch (s : State) (engine : Nat) (b : Batch) (outside : Bool) : State :=
  let e := smGet Engine.fresh s.engines engine
  let e' : Engine := b.txs.foldl (fun e t => e.touch t.loc)
    { e with lastLocal := if outside then e.lastLocal else b.core % 8, lastRemote := outside }
  let s := { s with
    batches := s.batches.filter fun x => x.id != b.id
    engines := smSet Engine.fresh s.engines engine e' }
  (b.txs.foldl (fun s t => s.serveTx b t) s).follow b.id

/-- HOME_ENGINE_TRANSACTION: an engine lands the value of a future that a write has filled (R234), or serves its next
batch (R91). -/
def execHomeEngineTransaction (engine : Nat) (s : State) : Host.Outcome State Fault Refusal :=
  match s.filledWaiter engine with
  | some w => .next (s.wakeWaiters w.loc (BitVec.ofNat 32 (s.locNat w.loc 4)))
  | none =>
    match s.nextBatch engine with
    | some (b, outside) => .next (s.serveBatch engine b outside)
    | none => .refused (.notEnabled "HOME_ENGINE_TRANSACTION")

end Sys2Proof.Machine
end

