-- ==== Sys2Proof/Machine/Float.lean ====
section
/-! DEFINITION. Floating point, comparison, classification and special functions (R198 to R202). -/

namespace Sys2Proof.Machine

/-- Float arithmetic on a type (R199). -/
def aluFloat (s : State) (i : Instr) (o : FloatOp) (y : FTy) (x : OpA) : Host.Outcome State Fault Refusal :=
  issue s i fun c =>
    let r := fun l => floatWord o y x.m (c.reg x.a.toNat l) (c.reg x.b.toNat l) (c.reg x.d.toNat l)
    .next (finish s c x.m x.t [(x.d.toNat, fun l => (r l).1)] (c.flagsOf x.m fun l => (r l).2))

/-- A special function (R202). -/
def aluSpecial (s : State) (i : Instr) (f : SpecialFn) (x : OpTyT) : Host.Outcome State Fault Refusal :=
  issue s i fun c =>
    let r := fun l => specialWord f x.y x.m (c.reg x.a.toNat l)
    .next (finish s c x.m x.t [(x.d.toNat, fun l => (r l).1)] (c.flagsOf x.m fun l => (r l).2))

/-- FADD.F32 (R199). -/
def execFaddF32 (x : OpA) (s : State) : Host.Outcome State Fault Refusal :=
  aluFloat s (.faddF32 x) .add .f32 x

/-- FSUB.F32 (R199). -/
def execFsubF32 (x : OpA) (s : State) : Host.Outcome State Fault Refusal :=
  aluFloat s (.fsubF32 x) .sub .f32 x

/-- FMUL.F32 (R199). -/
def execFmulF32 (x : OpA) (s : State) : Host.Outcome State Fault Refusal :=
  aluFloat s (.fmulF32 x) .mul .f32 x

/-- FFMA.F32 (R199). -/
def execFfmaF32 (x : OpA) (s : State) : Host.Outcome State Fault Refusal :=
  aluFloat s (.ffmaF32 x) .fma .f32 x

/-- FMIN.F32 (R199). -/
def execFminF32 (x : OpA) (s : State) : Host.Outcome State Fault Refusal :=
  aluFloat s (.fminF32 x) .min .f32 x

/-- FMAX.F32 (R199). -/
def execFmaxF32 (x : OpA) (s : State) : Host.Outcome State Fault Refusal :=
  aluFloat s (.fmaxF32 x) .max .f32 x

/-- FCPYS.F32 (R199). -/
def execFcpysF32 (x : OpA) (s : State) : Host.Outcome State Fault Refusal :=
  aluFloat s (.fcpysF32 x) .cpys .f32 x

/-- FADD.F16x2 (R199). -/
def execFaddF16x2 (x : OpA) (s : State) : Host.Outcome State Fault Refusal :=
  aluFloat s (.faddF16x2 x) .add .f16 x

/-- FSUB.F16x2 (R199). -/
def execFsubF16x2 (x : OpA) (s : State) : Host.Outcome State Fault Refusal :=
  aluFloat s (.fsubF16x2 x) .sub .f16 x

/-- FMUL.F16x2 (R199). -/
def execFmulF16x2 (x : OpA) (s : State) : Host.Outcome State Fault Refusal :=
  aluFloat s (.fmulF16x2 x) .mul .f16 x

/-- FFMA.F16x2 (R199). -/
def execFfmaF16x2 (x : OpA) (s : State) : Host.Outcome State Fault Refusal :=
  aluFloat s (.ffmaF16x2 x) .fma .f16 x

/-- FMIN.F16x2 (R199). -/
def execFminF16x2 (x : OpA) (s : State) : Host.Outcome State Fault Refusal :=
  aluFloat s (.fminF16x2 x) .min .f16 x

/-- FMAX.F16x2 (R199). -/
def execFmaxF16x2 (x : OpA) (s : State) : Host.Outcome State Fault Refusal :=
  aluFloat s (.fmaxF16x2 x) .max .f16 x

/-- FCPYS.F16x2 (R199). -/
def execFcpysF16x2 (x : OpA) (s : State) : Host.Outcome State Fault Refusal :=
  aluFloat s (.fcpysF16x2 x) .cpys .f16 x

/-- FADD.BF16x2 (R199). -/
def execFaddBf16x2 (x : OpA) (s : State) : Host.Outcome State Fault Refusal :=
  aluFloat s (.faddBf16x2 x) .add .bf16 x

/-- FSUB.BF16x2 (R199). -/
def execFsubBf16x2 (x : OpA) (s : State) : Host.Outcome State Fault Refusal :=
  aluFloat s (.fsubBf16x2 x) .sub .bf16 x

/-- FMUL.BF16x2 (R199). -/
def execFmulBf16x2 (x : OpA) (s : State) : Host.Outcome State Fault Refusal :=
  aluFloat s (.fmulBf16x2 x) .mul .bf16 x

/-- FFMA.BF16x2 (R199). -/
def execFfmaBf16x2 (x : OpA) (s : State) : Host.Outcome State Fault Refusal :=
  aluFloat s (.ffmaBf16x2 x) .fma .bf16 x

/-- FMIN.BF16x2 (R199). -/
def execFminBf16x2 (x : OpA) (s : State) : Host.Outcome State Fault Refusal :=
  aluFloat s (.fminBf16x2 x) .min .bf16 x

/-- FMAX.BF16x2 (R199). -/
def execFmaxBf16x2 (x : OpA) (s : State) : Host.Outcome State Fault Refusal :=
  aluFloat s (.fmaxBf16x2 x) .max .bf16 x

/-- FCPYS.BF16x2 (R199). -/
def execFcpysBf16x2 (x : OpA) (s : State) : Host.Outcome State Fault Refusal :=
  aluFloat s (.fcpysBf16x2 x) .cpys .bf16 x

/-- FCMP: bit k is the condition of sub-element k (R200). -/
def execFcmp (x : OpFcmp) (s : State) : Host.Outcome State Fault Refusal :=
  issue s (.fcmp x) fun c =>
    let r := fun l => fcmpWord x.c x.y x.m (c.reg x.a.toNat l) (c.reg x.b.toNat l)
    .next (finish s c x.m false [(x.d.toNat, fun l => (r l).1)] (c.flagsOf x.m fun l => (r l).2))

/-- FCLASS (R201). -/
def execFclass (x : OpTy) (s : State) : Host.Outcome State Fault Refusal :=
  issue s (.fclass x) fun c => .next (finish s c x.m false [(x.d.toNat, fun l => fclassWord x.y (c.reg x.a.toNat l))] flag0)

/-- ABST (R201). -/
def execAbst (x : OpTy) (s : State) : Host.Outcome State Fault Refusal :=
  issue s (.abst x) fun c => .next (finish s c x.m false [(x.d.toNat, fun l => abstWord x.y (c.reg x.a.toNat l))] flag0)

/-- FRCP (R202). -/
def execFrcp (x : OpTyT) (s : State) : Host.Outcome State Fault Refusal :=
  aluSpecial s (.frcp x) .rcp x

/-- FRSQ (R202). -/
def execFrsq (x : OpTyT) (s : State) : Host.Outcome State Fault Refusal :=
  aluSpecial s (.frsq x) .rsq x

/-- FSQRT (R202). -/
def execFsqrt (x : OpTyT) (s : State) : Host.Outcome State Fault Refusal :=
  aluSpecial s (.fsqrt x) .sqrt x

/-- FEXP2 (R202). -/
def execFexp2 (x : OpTyT) (s : State) : Host.Outcome State Fault Refusal :=
  aluSpecial s (.fexp2 x) .exp2 x

/-- FLOG2 (R202). -/
def execFlog2 (x : OpTyT) (s : State) : Host.Outcome State Fault Refusal :=
  aluSpecial s (.flog2 x) .log2 x

/-- FSIN (R202). -/
def execFsin (x : OpTyT) (s : State) : Host.Outcome State Fault Refusal :=
  aluSpecial s (.fsin x) .sin x

/-- FCOS (R202). -/
def execFcos (x : OpTyT) (s : State) : Host.Outcome State Fault Refusal :=
  aluSpecial s (.fcos x) .cos x

/-- FTANH (R202). -/
def execFtanh (x : OpTyT) (s : State) : Host.Outcome State Fault Refusal :=
  aluSpecial s (.ftanh x) .tanh x

end Sys2Proof.Machine
end

