-- ==== Sys2Proof/Machine/Convert.lean ====
section
/-! DEFINITION. Conversion, narrow elements in registers, the warp's codebook and absence masks (R203 to R210). -/

namespace Sys2Proof.Machine

/-- CVT (R203), through the codebook in force. -/
def execCvt (x : OpCvt) (s : State) : Host.Outcome State Fault Refusal :=
  issue s (.cvt x) fun c =>
    let r := fun l => cvtWord x c.cur.cb (c.reg x.a.toNat l)
    .next (finish s c x.m false [(x.d.toNat, fun l => (r l).1)] (c.flagsOf x.m fun l => (r l).2))

/-- CVTS (R204): the element or the value in va, the block scale in va+1. -/
def execCvts (x : OpCvt) (s : State) : Host.Outcome State Fault Refusal :=
  issue s (.cvts x) fun c =>
    let r := fun l => cvtsWord x c.cur.cb (c.reg x.a.toNat l) (c.reg (x.a.toNat + 1) l)
    .next (finish s c x.m false [(x.d.toNat, fun l => (r l).1)] (c.flagsOf x.m fun l => (r l).2))

/-- PACK and UNPK (R206): a bad format code or index in any active lane raises ILLEGAL with EAUX the control word of
the lowest such lane. -/
def aluPack (s : State) (i : Instr) (x : OpE) (f : Word → Word → Word → Word) : Host.Outcome State Fault Refusal :=
  issue s i fun c =>
    match findBy (fun l => !packOk (c.reg x.b.toNat l)) (c.act x.m) with
    | some l => .next (raise s c 0x20 (c.reg x.b.toNat l) 0)
    | none => .next (finish s c x.m false
        [(x.d.toNat, fun l => f (c.reg x.a.toNat l) (c.reg x.b.toNat l) (c.reg x.d.toNat l))] flag0)

/-- PACK: element k of vd becomes the low bits of va (R206). -/
def execPack (x : OpE) (s : State) : Host.Outcome State Fault Refusal := aluPack s (.pack x) x packWord

/-- UNPK: element k of va, zero-extended (R206). -/
def execUnpk (x : OpE) (s : State) : Host.Outcome State Fault Refusal := aluPack s (.unpk x) x fun a ctl _ => unpkWord a ctl

/-- The table with entries 2j and 2j + 1 replaced (R207). -/
def Codebook.put (t : Codebook) (j : Nat) (v : Word) : Codebook :=
  (t.set (2 * j) (v.extractLsb' 0 16)).set (2 * j + 1) (v.extractLsb' 16 16)

/-- CBSET: two entries of the warp's table, from the lowest active lane; no active lane writes none (R207). -/
def execCbset (x : OpCbset) (s : State) : Host.Outcome State Fault Refusal :=
  issue s (.cbset x) fun c =>
    let v := c.reg x.a.toNat (c.low x.m)
    let s1 := finishPlain s c
    .next (if (c.act x.m).isEmpty then s1
      else s1.updWarp c.cur.gid c.cur.widx fun w => { w with cb := Codebook.put w.cb x.j.toNat v })

/-- CBGET: two entries of the table in force, to every active lane (R207). -/
def execCbget (x : OpCbget) (s : State) : Host.Outcome State Fault Refusal :=
  issue s (.cbget x) fun c =>
    let e := fun i => c.cur.cb.getD i (0xFFFF : BitVec 16)
    .next (finish s c x.m false [(x.d.toNat, fun _ => e (2 * x.j.toNat + 1) ++ e (2 * x.j.toNat))] flag0)

/-- CBENC: the index in vd and the residual in vd+1 (R208). -/
def execCbenc (x : OpCbenc) (s : State) : Host.Outcome State Fault Refusal :=
  issue s (.cbenc x) fun c =>
    let r := fun l => cbencWord x c.cur.cb (c.reg x.a.toNat l)
    .next (finish s c x.m false [(x.d.toNat, fun l => (r l).1), (x.d.toNat + 1, fun l => (r l).2.1)]
      (c.flagsOf x.m fun l => (r l).2.2))

/-- CBDEC: a pair of indices decoded to BF16x2 (R209). -/
def execCbdec (x : OpCbdec) (s : State) : Host.Outcome State Fault Refusal :=
  issue s (.cbdec x) fun c =>
    .next (finish s c x.m false [(x.d.toNat, fun l => cbdecWord x c.cur.cb (c.reg x.a.toNat l))] flag0)

/-- ABSM: elements of vd whose bit of va is 0 become absent (R210). -/
def execAbsm (x : OpFmt) (s : State) : Host.Outcome State Fault Refusal :=
  issue s (.absm x) fun c =>
    .next (finish s c x.m false [(x.d.toNat, fun l => absmWord x.f (c.reg x.a.toNat l) (c.reg x.d.toNat l))] flag0)

/-- ABSC: the present elements of va (R210). -/
def execAbsc (x : OpFmt) (s : State) : Host.Outcome State Fault Refusal :=
  issue s (.absc x) fun c => .next (finish s c x.m false [(x.d.toNat, fun l => abscWord x.f (c.reg x.a.toNat l))] flag0)

end Sys2Proof.Machine
end

