-- ==== Sys2Proof/Machine/Tile.lean ====
section
/-! DEFINITION. Tile operations: shuffles, votes, reductions, scans and argument reductions (R15, R74 to R78, R211 to
R216). -/

namespace Sys2Proof.Machine

/-- The lowest lane of the tile of a lane (R15). -/
def Ctx.tileBase (c : Ctx) (l : Nat) : Nat := l - l % c.cur.tile

/-- The participants of the tile of a lane (R211). -/
def Ctx.members (c : Ctx) (m : Option Modifier) (l : Nat) : List Nat :=
  (c.act m).filter fun k => decide (c.tileBase l ≤ k) && decide (k < c.tileBase l + c.cur.tile)

/-- The tiles that have a participant, by their lowest lanes. -/
def Ctx.tiles (c : Ctx) (m : Option Modifier) : List Nat := ((c.act m).map fun l => c.tileBase l).eraseDups

/-- The fill pattern of a shuffle (R212); none for a type above 4. -/
def shflFill (ft : Nat) : Option Word :=
  match ft with
  | 0 => some 0xFFFFFFFF
  | 1 => some 0x80000000
  | 2 => some 0x80008000
  | 3 => some 0x80808080
  | 4 => some 0x88888888
  | _ => none

/-- The tile-local index that a lane reads (R212). -/
def shflIndex (k : ShflMode) (i d : Nat) (first : Nat) : Int :=
  match k with
  | .idx => d
  | .up => (i : Int) - d
  | .down => i + d
  | .xor => (i ^^^ d : Nat)
  | .bcast => first

/-- SHFL (R212). -/
def execShfl (x : OpShfl) (s : State) : Host.Outcome State Fault Refusal :=
  issue s (.shfl x) fun c =>
    let ft := fun l => (c.reg x.b.toNat l).toNat / 256 % 8
    if (c.act x.m).any fun l => (shflFill (ft l)).isNone then .next (illegal s c)
    else
      .next (finish s c x.m x.t [(x.d.toNat, fun l =>
        let b := c.tileBase l
        let j := shflIndex x.k (l - b) ((c.reg x.b.toNat l).toNat % 32) ((c.members x.m l).headD b - b)
        if 0 ≤ j ∧ j < c.cur.tile ∧ (c.act x.m).contains (b + j.toNat) then c.reg x.a.toNat (b + j.toNat)
        else (shflFill (ft l)).getD 0)] flag0)

/-- The result of a vote for a lane (R213). -/
def Ctx.vote (c : Ctx) (x : OpVote) (l : Nat) : Word :=
  let ps := c.members x.m l
  let bit := fun k => (c.reg x.a.toNat k).getLsbD 0
  match x.k with
  | .all => boolWord (ps.all bit)
  | .any => boolWord (ps.any bit)
  | .ballot => maskOf fun k => ps.contains k && bit k
  | .matchAll => maskOf fun k => ps.contains k && c.reg x.a.toNat k == c.reg x.a.toNat l
  | .elect => boolWord (ps.headD l == l)
  | .count => BitVec.ofNat 32 (ps.filter bit).length

/-- VOTE (R213). -/
def execVote (x : OpVote) (s : State) : Host.Outcome State Fault Refusal :=
  issue s (.vote x) fun c => .next (finish s c x.m x.t [(x.d.toNat, c.vote x)] flag0)

/-! ### Reductions and scans -/

/-- A code with a NaN in its canonical form: a reduction or scan that passes one through unchanged writes that (R54). -/
def canonCode (f : Fmt) (n : Nat) : Nat :=
  match fmtClass f with
  | .float p => if decodeFloat p n = .nan then p.nanCode else n
  | _ => n

/-- The codes of sub-element k in a tile: absent for the lanes that take no part (R74). -/
def Ctx.column (c : Ctx) (x : OpRed) (base k : Nat) : List Nat :=
  let f := redFmt x.y
  (List.range c.cur.tile).map fun i =>
    if (c.act x.m).contains (base + i) then canonCode f (elem (fmtWidth f) k (c.reg x.a.toNat (base + i))) else absentCode f

/-- One step of the butterfly at distance d (R75). -/
def redStep (o : RedOp) (f : Fmt) (d : Nat) (xs : List Nat) : List Nat × Flags :=
  let r := (List.range xs.length).map fun i =>
    redElem o f (xs.getD (min i (i ^^^ d)) 0) (xs.getD (max i (i ^^^ d)) 0)
  (r.map fun p => p.1, r.foldl (fun g p => g ||| p.2) flag0)

/-- The butterfly: the value that every position holds at the end, and the flags of its steps (R75). -/
def redAll (o : RedOp) (f : Fmt) : Nat → Nat → List Nat → List Nat × Flags
  | 0, _, xs => (xs, flag0)
  | n + 1, d, xs =>
    let r := redStep o f d xs
    let q := redAll o f n (2 * d) r.1
    (q.1, r.2 ||| q.2)

/-- One step of a scan at distance d (R76): `reach i` tells whether the result of position i reaches a participant. -/
def scanStep (o : RedOp) (f : Fmt) (d : Nat) (parts : List Nat) (xs : List Nat) : List Nat × Flags :=
  let r := (List.range xs.length).map fun i =>
    if i < d then (xs.getD i 0, flag0)
    else
      let p := redElem o f (xs.getD (i - d) 0) (xs.getD i 0)
      (p.1, if parts.any fun j => decide (i ≤ j) && decide ((j - i) % (2 * d) = 0) then p.2 else flag0)
  (r.map fun p => p.1, r.foldl (fun g p => g ||| p.2) flag0)

/-- The doubling order of a scan (R76). -/
def scanAll (o : RedOp) (f : Fmt) (parts : List Nat) : Nat → Nat → List Nat → List Nat × Flags
  | 0, _, xs => (xs, flag0)
  | n + 1, d, xs =>
    let r := scanStep o f d parts xs
    let q := scanAll o f parts n (2 * d) r.1
    (q.1, r.2 ||| q.2)

/-- The bits of a count field of a type (R74). -/
def countWidth (y : RedTy) : Nat :=
  match y with
  | .f32 | .i32 => 32
  | .f16x2 | .bf16x2 | .i16x2 => 16
  | _ => 8

/-- The number of sub-elements of a type. -/
def redCount (y : RedTy) : Nat := 32 / fmtWidth (redFmt y)

/-- The registers that a reduction or a scan writes: the value, and the counts in the layout of R74. `val k l` and
`cnt k l` are the value and the count of sub-element k in lane l. -/
def redWrites (x : OpRed) (val cnt : Nat → Nat → Nat) : Writes :=
  let n := redCount x.y
  let cw := countWidth x.y
  let per := 32 / cw
  (x.d.toNat, fun l => (packElems (32 / n) ((List.range n).map fun k => (val k l, flag0))).1)
    :: (List.range ((n + per - 1) / per)).map fun j =>
      (x.d.toNat + 1 + j, fun l =>
        (packElems cw (((List.range per).filter fun q => decide (per * j + q < n)).map fun q => (cnt (per * j + q) l, flag0))).1)

/-- The number of present codes among the first n of a column (R74, R76). -/
def presentIn (f : Fmt) (xs : List Nat) (n : Nat) : Nat := ((xs.take n).filter fun c => c != absentCode f).length

/-- What RED leaves for sub-element k of the tile at a base: a value for each lane, and the flags of its steps (R75, R214). -/
def Ctx.redRun (c : Ctx) (x : OpRed) (base k : Nat) : List Nat × Flags :=
  redAll x.o (redFmt x.y) (Nat.log2 c.cur.tile) 1 (c.column x base k)

/-- What SCAN leaves for sub-element k of the tile at a base (R76, R215). -/
def Ctx.scanRun (c : Ctx) (x : OpRed) (base k : Nat) : List Nat × Flags :=
  scanAll x.o (redFmt x.y) ((c.members x.m base).map fun l => l - base) (Nat.log2 c.cur.tile) 1 (c.column x base k)

/-- The flags that the runs over every tile and sub-element raise together. -/
def Ctx.runFlags (c : Ctx) (x : OpRed) (run : Nat → Nat → List Nat × Flags) : Flags :=
  (c.tiles x.m).foldl (fun g b => (List.range (redCount x.y)).foldl (fun g k => g ||| (run b k).2) g) flag0

/-- The registers that RED writes (R74, R214). -/
def Ctx.redResult (c : Ctx) (x : OpRed) : Writes :=
  redWrites x (fun k l => (c.redRun x (c.tileBase l) k).1.getD (l - c.tileBase l) 0)
    (fun k l => presentIn (redFmt x.y) (c.column x (c.tileBase l) k) c.cur.tile)

/-- The registers that SCAN writes (R76, R215). -/
def Ctx.scanResult (c : Ctx) (x : OpRed) : Writes :=
  redWrites x (fun k l => (c.scanRun x (c.tileBase l) k).1.getD (l - c.tileBase l) 0)
    (fun k l => presentIn (redFmt x.y) (c.column x (c.tileBase l) k) (l - c.tileBase l + 1))

/-- RED (R214): the butterfly over each tile. -/
def execRed (x : OpRed) (s : State) : Host.Outcome State Fault Refusal :=
  issue s (.red x) fun c => .next (finish s c x.m false (c.redResult x) (c.runFlags x (c.redRun x)))

/-- SCAN (R215): the inclusive prefix within each tile. -/
def execScan (x : OpRed) (s : State) : Host.Outcome State Fault Refusal :=
  issue s (.scan x) fun c => .next (finish s c x.m false (c.scanResult x) (c.runFlags x (c.scanRun x)))

/-! ### Argument reductions (R77, R216) -/

/-- Whether a form looks for the maximum. -/
def argIsMax : ArgKind → Bool
  | .maxF32 | .maxF16 | .maxS32 => true
  | _ => false

/-- The value that a form reads from a register (R216). -/
def argValue (k : ArgKind) (v : Word) : Word :=
  match k with
  | .maxF16 | .minF16 => (v.extractLsb' 0 16).setWidth 32
  | _ => v

/-- The rank of a present value in the total order of R77, negative infinity lowest and every NaN highest; none for
an absent value. -/
def argRank (k : ArgKind) (v : Word) : Option Int :=
  let fl := fun (p : FParam) (w : Nat) =>
    let c := (argValue k v).toNat
    match decodeFloat p c with
    | .absent => none
    | .nan => some (2 ^ 40 : Int)
    | _ => some (if signBit p c then -((c % 2 ^ (w - 1) : Nat) : Int) - 1 else ((c : Nat) : Int))
  match k with
  | .maxF32 | .minF32 => fl fpF32 32
  | .maxF16 | .minF16 => fl fpF16 16
  | .maxS32 | .minS32 => some v.toInt

/-- Whether candidate a (rank, index, lane) beats b: the better rank, then the lower index, then the lower lane. -/
def argBeats (isMax : Bool) (a b : Int × Nat × Nat) : Bool :=
  if a.1 = b.1 then decide (a.2.1 < b.2.1) || (a.2.1 == b.2.1 && decide (a.2.2 < b.2.2))
  else if isMax then decide (b.1 < a.1) else decide (a.1 < b.1)

/-- The candidates of a tile, with their ranks, indices and lanes. -/
def Ctx.candidates (c : Ctx) (x : OpArg) (l : Nat) : List (Int × Nat × Nat) :=
  (c.members x.m l).filterMap fun k => (argRank x.k (c.reg x.a.toNat k)).map fun r => (r, (c.reg x.b.toNat k).toNat, k)

/-- The winner among candidates. -/
def argWinner (isMax : Bool) (cs : List (Int × Nat × Nat)) : Option (Int × Nat × Nat) :=
  cs.foldl (fun r p => match r with | none => some p | some q => if argBeats isMax p q then some p else some q) none

/-- ARG (R216): the chosen value bit for bit, its index, the count and the chosen lane. -/
def execArg (x : OpArg) (s : State) : Host.Outcome State Fault Refusal :=
  issue s (.arg x) fun c =>
    let win := fun l => argWinner (argIsMax x.k) (c.candidates x l)
    let none3 : Word := 0xFFFFFFFF
    .next (finish s c x.m false
      [(x.d.toNat, fun l => match win l with
          | some p => argValue x.k (c.reg x.a.toNat p.2.2)
          | none => argValue x.k 0xFFFFFFFF),
       (x.d.toNat + 1, fun l => match win l with | some p => c.reg x.b.toNat p.2.2 | none => none3),
       (x.d.toNat + 2, fun l => BitVec.ofNat 32 (c.candidates x l).length),
       (x.d.toNat + 3, fun l => match win l with | some p => BitVec.ofNat 32 p.2.2 | none => none3)] flag0)

end Sys2Proof.Machine
end

