-- ==== Sys2Proof/Machine/Control.lean ====
section
/-! DEFINITION. Control transfer, program traps, pending state and the special registers (R168 to R184). -/

namespace Sys2Proof.Machine

/-! ### Moving splits -/

/-- Completes a control instruction: a change of the warp, after its split has been counted (R33). -/
def finishMove (s : State) (c : Ctx) (f : Warp → Warp) : State :=
  { s.updWarp c.cur.gid c.cur.widx fun w => f (w.updSplit c.cur.split Split.tick) with cur := none }

/-- The warp with its split at an address, not reached by a branch. -/
def Warp.placeAt (w : Warp) (n : Nat) (pc : DWord) : Warp := w.updSplit n fun x => { x with pc := pc }

/-- Moves the whole split to a branch target, after the checks of the target (R12, R156). -/
def jumpTo (s : State) (c : Ctx) (target : DWord) : State :=
  match s.badTarget c.grp target with
  | some x => targetTrap s c.cur x
  | none => finishMove s c fun w => (w.placeAt c.cur.split target).settle c.cur.split

/-- Goes on at the next instruction. -/
def fallThrough (s : State) (c : Ctx) : State := finishMove s c fun w => w.placeAt c.cur.split c.next

/-- Goes on at the next instruction of BRA and BRC, where the split merges as at a target (R169). -/
def fallMerge (s : State) (c : Ctx) : State :=
  finishMove s c fun w => (w.placeAt c.cur.split c.next).settle c.cur.split

/-- Settles each split of a list that still exists (R12). -/
def Warp.settleAll (w : Warp) (ns : List Nat) : Warp := ns.foldl (fun w n => w.settle n) w

/-- Divides the split among targets in ascending order; a push onto a full stack raises ILLEGAL (R10 to R12). -/
def divideTo (s : State) (c : Ctx) (ts : List (DWord × Word)) : State :=
  if c.warp.overflows c.cur.split ts.length then raise s c 0x20 (BitVec.ofNat 32 c.cur.split) 0
  else
    finishMove s c fun w =>
      let w' := w.divide c.cur.split ts
      let new := (w'.splits.map fun x => x.num).filter fun n => (w.split? n).isNone
      w'.settleAll (c.cur.split :: new)

/-- BRA: the lowest active lane decides for the split (R169). -/
def execBra (x : OpBr) (s : State) : Host.Outcome State Fault Refusal :=
  issue s (.bra x) fun c =>
    .next (if condHolds x.c (c.reg x.a.toNat (c.low none)) then jumpTo s c (c.target x.o) else fallMerge s c)

/-- BRC: every active lane decides for itself; the split divides when the lanes disagree (R10, R169). -/
def execBrc (x : OpBr) (s : State) : Host.Outcome State Fault Refusal :=
  issue s (.brc x) fun c =>
    let taken := maskOf fun l => c.cur.mask.getLsbD l && condHolds x.c (c.reg x.a.toNat l)
    let t := c.target x.o
    .next (
      if taken = 0 then fallMerge s c
      else if taken = c.cur.mask ∨ t = c.next then jumpTo s c t
      else
        match s.badTarget c.grp t with
        | some b => targetTrap s c.cur b
        | none =>
          let rest := c.cur.mask &&& ~~~taken
          divideTo s c (if t.ult c.next then [(t, taken), (c.next, rest)] else [(c.next, rest), (t, taken)]))

/-- CALL: the link pair receives the address after the CALL, and the split moves to the target (R170). -/
def execCall (x : OpBrA) (s : State) : Host.Outcome State Fault Refusal :=
  issue s (.call x) fun c =>
    let t := c.target x.o
    match s.badTarget c.grp t with
    | some b => .next (targetTrap s c.cur b)
    | none => .next (finishMove s c fun w =>
        ((c.write none false (pairWrites x.a.toNat fun _ => c.next) w).placeAt c.cur.split t).settle c.cur.split)

/-- RET: the whole split goes to the target of the lowest active lane (R171). -/
def execRet (x : OpR) (s : State) : Host.Outcome State Fault Refusal :=
  issue s (.ret x) fun c => .next (jumpTo s c (c.pair x.r.toNat (c.low none)))

/-- The distinct targets of the lanes of a split, ascending, each with its lanes (R10, R171). -/
def Ctx.targets (c : Ctx) (r : Nat) : List (DWord × Word) :=
  let ts := ((c.act none).map fun l => c.pair r l).eraseDups
  (ts.foldl (fun acc t => insertBy (fun p : DWord × Word => p.1.toNat)
    (t, maskOf fun l => c.cur.mask.getLsbD l && c.pair r l == t) acc) [])

/-- BRX: every lane goes to its own target (R171). -/
def execBrx (x : OpR) (s : State) : Host.Outcome State Fault Refusal :=
  issue s (.brx x) fun c =>
    match s.badTargets c.grp ((c.act none).map fun l => c.pair x.r.toNat l) with
    | some b => .next (targetTrap s c.cur b)
    | none =>
      match c.targets x.r.toNat with
      | [(t, _)] => .next (jumpTo s c t)
      | ts => .next (divideTo s c ts)

/-- JOIN: the splits that stand at it merge, and the merged split goes on (R12, R172). -/
def execJoin (s : State) : Host.Outcome State Fault Refusal :=
  issue s .join fun c => .next (finishMove s c fun w =>
    let r := w.mergeAt c.cur.split 4
    let w := r.1.updSplit r.2.1 fun x => { x.popOwn x.stack with pc := c.next }
    r.2.2.foldl (fun w k => w.refill k []) w)

/-- YLD: the warp is not ready until a pending register lands or 256 cycles pass; with nothing pending and no live
closure it is a no-op (R50, R173). -/
def execYld (s : State) : Host.Outcome State Fault Refusal :=
  issue s .yld fun c => .next (finishMove s c fun w =>
    let w := w.placeAt c.cur.split c.next
    if w.pend.isEmpty && w.closures.isEmpty then w
    else { w with yld := some ((s.cycles (c.grp.core / 128)).toNat + 256) })

/-- The handle of a sheaf buffer in a generation (R326). -/
def sheafHandle (die gen idx : Nat) : Word := BitVec.ofNat 32 (die * 2 ^ 29 + gen * 2 ^ 10 + idx)

/-- Whether what an instruction still does is the call of one of some handles. -/
def Act.callOf (hs : List Word) (a : Act) : Bool :=
  match a with
  | .call _ _ _ ws => hs.contains (ws.getD 2 0)
  | _ => false

/-- What lanes leave behind when they end: FGET registrations and sheaves that cover only ended lanes, and that no live
closure awaits, are cancelled, and what was pending on them is pending no longer (R45, R174, R236, R326). A call of such a sheaf
that still follows earlier writes of the warp is made no more: its buffer is free. -/
def State.afterExit (s : State) (gid widx : Nat) : State :=
  match s.group? gid with
  | none => s
  | some g =>
    match g.warp? widx with
    | none => s
    | some w =>
      let live := w.alive
      let awaited := fun (key : Nat) => w.closures.any fun k => k.waits.contains key
      let mine := fun (a b : Nat) (m : Word) (key : Nat) => a == gid && b == widx && m &&& live == 0 && !awaited key
      let gone := fun (f : Fly) => mine f.gid f.widx f.mask f.id && (s.waiters.any fun x => x.fly == f.id)
      let dead := s.flys.filter gone
      let spent := fun (x : Sheaf) => x.live && mine x.gid x.widx x.mask x.fly
      let ended := s.dies.flatMap fun d => (d.2.sheafs.filter fun p => spent p.2).map fun p => p.2.fly
      let hs := s.dies.flatMap fun d => (d.2.sheafs.filter fun p => spent p.2).map fun p => sheafHandle d.1 p.2.gen p.1
      let keys := dead.map (fun f => f.id) ++ ended
      let close := fun (p : Nat × Sheaf) => if spent p.2 then (p.1, p.2.close) else p
      let s := { s with dies := s.dies.map fun (d : Nat × Die) => (d.1, { d.2 with sheafs := d.2.sheafs.map close }) }
      let s := { s with
        flys := s.flys.filter fun f => !keys.contains f.id
        queue := s.queue.filter fun q => !q.act.callOf hs
        waiters := s.waiters.filter fun x => !keys.contains x.fly }
      s.updWarp gid widx fun w => keys.foldl (fun w k => w.landed k) w

/-- The issuing split ends some lanes (R174): a split that runs a user handler ends the handler too. -/
def endLanes (s : State) (c : Ctx) (lanes : Word) : State :=
  let s1 := finishMove s c fun w =>
    let w := (w.placeAt c.cur.split c.next).exitLanes c.cur.split lanes
    match w.inu with
    | some sv => if sv.split = c.cur.split then { w with inu := none } else w
    | none => w
  s1.afterExit c.cur.gid c.cur.widx

/-- EXIT: every active lane of the split leaves the warp (R174). -/
def execExit (s : State) : Host.Outcome State Fault Refusal :=
  issue s .exit fun c => .next (endLanes s c c.cur.mask)

/-- TRAPX: the TRAPX user trap, with EAUX the code, EADDR the TRAPX and EPC the next instruction (R176). -/
def execTrapx (x : OpR) (s : State) : Host.Outcome State Fault Refusal :=
  issue s (.trapx x) fun c =>
    .next (takeTrap (s.updWarp c.cur.gid c.cur.widx fun w => w.updSplit c.cur.split Split.tick) c.cur
      ⟨6, c.next, c.cur.pc, x.r.setWidth 32, 0, none, false, false⟩)

/-- BRK: the TRAPX user trap with EAUX 0x100 at the BRK itself (R177). -/
def execBrk (s : State) : Host.Outcome State Fault Refusal :=
  issue s .brk fun c => .next (raise s c 6 0x100 c.cur.pc)

/-- URET: back to the EPC of the record, with the mask and the bypass of the entry (R178). -/
def execUret (s : State) : Host.Outcome State Fault Refusal :=
  issue s .uret fun c =>
    match c.warp.inu with
    | none => .next (illegal s c)
    | some sv =>
      match s.translate c.grp.core c.grp.asid .read c.warp.userSlot with
      | .bad f => .next (xlatTrap s c false f)
      | .ok a =>
        let epc := BitVec.ofNat 64 (readNat (s.farByte c.grp.core c.grp.part) a 8)
        match s.badTarget c.grp epc with
        | some b => .next (targetTrap s c.cur b)
        | none => .next { (s.updWarp c.cur.gid c.cur.widx fun w =>
            { w.updSplit sv.split fun x => { x with pc := epc, mask := sv.mask, bypass := sv.bypass } with inu := none }).resumesAt
              c.cur.gid c.cur.widx sv.mask epc with cur := none }

/-- BPND: a uniform branch on the pending bit of a register (R179). -/
def execBpnd (x : OpBpnd) (s : State) : Host.Outcome State Fault Refusal :=
  issue s (.bpnd x) fun c =>
    .next (if c.warp.pending x.a.toNat != x.rdy then jumpTo s c (c.target x.o) else fallThrough s c)

/-- A vote branch on bit 0 of va over the whole split (R180). -/
def voteBranch (s : State) (i : Instr) (x : OpBrA) (f : List Bool → Bool) : Host.Outcome State Fault Refusal :=
  issue s i fun c =>
    .next (if f ((c.act none).map fun l => (c.reg x.a.toNat l).getLsbD 0) then jumpTo s c (c.target x.o) else fallThrough s c)

/-- BALL: taken when every bit is 1 (R180). -/
def execBall (x : OpBrA) (s : State) : Host.Outcome State Fault Refusal := voteBranch s (.ball x) x fun bs => bs.all id

/-- BANY: taken when some bit is 1 (R180). -/
def execBany (x : OpBrA) (s : State) : Host.Outcome State Fault Refusal := voteBranch s (.bany x) x fun bs => bs.any id

/-- BNONE: taken when no bit is 1 (R180). -/
def execBnone (x : OpBrA) (s : State) : Host.Outcome State Fault Refusal := voteBranch s (.bnone x) x fun bs => !bs.any id

/-! ### Special registers (R30, R181) -/

/-- The value of a special register in a lane, as a 64-bit number (R30, R181). -/
def Ctx.ureg (s : State) (c : Ctx) (r : UReg) (l : Nat) : DWord :=
  let n := fun (k : Nat) => BitVec.ofNat 64 k
  match r with
  | .lane => n l
  | .warp => n c.warp.idx
  | .group => n c.grp.member
  | .gang => n c.grp.gang
  | .core => n (c.grp.core % 128)
  | .die => n (c.grp.core / 128)
  | .tile => n c.cur.tile
  | .role => n c.warp.role
  | .split => n c.split.num
  | .mask => c.cur.mask.setWidth 64
  | .targ => smGet 0 c.warp.targ l
  | .uvec => c.warp.uvec
  | .ucause => c.warp.ucause.setWidth 64
  | .dmode => n c.grp.dmode.toNat
  | .steps => (smGet 0 c.warp.steps l).setWidth 64
  | .fflags => (c.warp.fflags &&& 0x3F3F).setWidth 64
  | .annbase => c.warp.annbase
  | .cycles => s.cycles (c.grp.core / 128)
  | .ticks => s.ticks
  | .phasef => n c.grp.phasef.toNat

/-- MFU: a special register into vd, or into the pair vd:vd+1 (R181). -/
def execMfu (x : OpMfu) (s : State) : Host.Outcome State Fault Refusal :=
  issue s (.mfu x) fun c =>
    .next (finish s c x.m false
      (if x.r.wide then pairWrites x.d.toNat (c.ureg s x.r)
       else [(x.d.toNat, fun l => loHalf (c.ureg s x.r l))]) flag0)

/-- Whether a lane of the warp holds an announced operation that has not been collected (R31). -/
def State.uncollected (s : State) (c : Ctx) : Bool :=
  c.warp.annLive != 0 || s.drives.any fun d => d.gid == c.cur.gid && d.widx == c.cur.widx && !d.help && !d.sync

/-- MTU: the value of the lowest active lane into a writable special register (R31, R71, R145, R181). -/
def execMtu (x : OpMtu) (s : State) : Host.Outcome State Fault Refusal :=
  issue s (.mtu x) fun c =>
    let l := c.low none
    let v := c.pair x.a.toNat l
    let wv := c.reg x.a.toNat l
    let upd := fun (f : Warp → Warp) => (finishPlain s c).updWarp c.cur.gid c.cur.widx f
    match x.r with
    | .uvec =>
      .next (if v.extractLsb' 0 2 != 0 then raise s c 0x26 0 v else upd fun w => { w with uvec := v })
    | .annbase =>
      .next (if s.uncollected c then illegal s c
        else if v.extractLsb' 0 6 != 0 then raise s c 0x26 0 v
        else upd fun w => { w with annbase := v })
    | .fflags => .next (upd fun w => { w with fflags := wv &&& 0x3F3F })
    | .phasef =>
      .next (if wv.getLsbD 0 then finishPlain s c
        else (finishPlain s c).updGroup c.cur.gid fun g => { g with phasef := false })
    | _ => .next (illegal s c)

/-- TILE: the width from the lowest active lane, 2, 4, 8, 16 or 32 (R16, R182). -/
def execTile (x : OpSrc) (s : State) : Host.Outcome State Fault Refusal :=
  issue s (.tile x) fun c =>
    let v := c.reg x.a.toNat (c.low none)
    .next (if [2, 4, 8, 16, 32].contains v.toNat then
        (finishPlain s c).updWarp c.cur.gid c.cur.widx fun w => { w with tile := v.toNat }
      else raise s c 0x20 v 0)

/-- Whether some warp of a group holds a live closure or an event-pending register (R39). -/
def Group.deferred (g : Group) : Bool := g.warps.any fun w => !w.closures.isEmpty || w.pend.any fun p => p.event

/-- DMODE: the mode of the group from bit 0 of the lowest active lane (R39, R183). -/
def execDmode (x : OpSrc) (s : State) : Host.Outcome State Fault Refusal :=
  issue s (.dmode x) fun c =>
    let on := (c.reg x.a.toNat (c.low none)).getLsbD 0
    .next (if !on && c.grp.deferred then illegal s c
      else (finishPlain s c).updGroup c.cur.gid fun g => { g with dmode := on })

/-- The closure word of DQRY (R184). -/
def Warp.closureWord (w : Warp) : Word :=
  let evp := (((w.pend.filter fun p => p.event).map fun p => p.reg).eraseDups).length
  BitVec.ofNat 32 ((w.closures.map fun c => 2 ^ c.idx + (if c.run.isSome then 2 ^ (8 + c.idx) else 0)).sum + 2 ^ 16 * evp)

/-- DQRY: the pending bits of 32 registers and the closure word; a pending destination raises ILLEGAL (R184). -/
def execDqry (x : OpDqry) (s : State) : Host.Outcome State Fault Refusal :=
  issue s (.dqry x) fun c =>
    let w := c.warp
    let bits := maskOf fun i => decide (32 * x.j.toNat + i < w.window) && w.pending (32 * x.j.toNat + i)
    .next (if c.streamed && (w.pending x.d.toNat || w.pending (x.d.toNat + 1)) then illegal s c
      else finish s c x.m false [(x.d.toNat, fun _ => bits), (x.d.toNat + 1, fun _ => w.closureWord)] flag0)

end Sys2Proof.Machine
end

