-- ==== Sys2Proof/Machine/MatrixRun.lean ====
section
/-! DEFINITION. The sequencer of a matrix engine (R110, R114 to R120, R122): commands at the head of the queue, passes
and drains. -/

namespace Sys2Proof.Machine

/-! ### Pass sums (R115, R116) -/

/-- Sticky bits of MSTAT (R121). -/
def mNV : Word := 1
def mOF : Word := 2
def mSAT : Word := 4
def mCSAT : Word := 8

/-- MSTAT's bits for flags of a step. -/
def mFlags (f : Flags) : Word := (if f &&& flagNV = 0 then 0 else mNV) ||| (if f &&& flagOF = 0 then 0 else mOF)

/-- The pass scale of R115 from its four factors, and whether a NaN arose. -/
def passScale (sa sw ba bw : Word) : FVal × Flags :=
  let d := fun (w : Word) => decodeFloat fpF32 w.toNat
  if (d sa).isAbsent || (d sw).isAbsent || (d ba).isAbsent || (d bw).isAbsent then (.absent, flag0)
  else
    let p := fprod (d sa) (d sw)
    let q := fprod p.1 (d ba)
    let r := fprod q.1 (d bw)
    let nv := (p.2 ||| q.2 ||| r.2) &&& flagNV
    match r.1 with
    | .num x => (decodeFloat fpF32 (roundFloat fpF32 x .nearest false).1, nv)
    | v => (v, nv)

/-- A significand of 28 bits, truncated toward zero. -/
def trunc28 (x : FVal) : FVal :=
  match x with
  | .num v =>
    let q := v.e + bitLen v.m - 28
    if v.m = 0 ∨ q ≤ v.e then x else .num ⟨v.neg, (roundTo v q .zero).1, q, false⟩
  | _ => x

/-- A sum node of the tree: the identity where an operand is missing (R116). -/
def treeNode (a b : Option FVal) : Option FVal × Flags :=
  match a, b with
  | none, none => (none, flag0)
  | some x, none => (some (trunc28 x), flag0)
  | none, some y => (some (trunc28 y), flag0)
  | some x, some y => let z := fsum x y .nearest; (some (trunc28 z.1), z.2)

/-- One level of the tree. -/
def treeLevel : List (Option FVal) → List (Option FVal) × Flags
  | a :: b :: r =>
    let n := treeNode a b
    let q := treeLevel r
    (n.1 :: q.1, n.2 ||| q.2)
  | l => (l, flag0)

/-- The balanced binary tree over the products of a pass. -/
def treeSum : Nat → List (Option FVal) → Option FVal × Flags
  | 0, l => (l.headD none, flag0)
  | n + 1, l =>
    let q := treeLevel l
    let z := treeSum n q.1
    (z.1, q.2 ||| z.2)

/-- A sum times its scale (R116). -/
def scaledSum (x s : FVal) : FVal × Flags := fprod x s

/-- What a pass needs of an operand at a column or row: its decoded elements, its tile or row scale and its block
scales. -/
structure Operand where
  fmt : Fmt
  blk : Nat
  elems : List FVal
  scale : Word
  blocks : List Word
  deriving DecidableEq, Repr

/-- The block scale at element k; 1.0 for an unscaled format (R115). -/
def Operand.blockAt (x : Operand) (k : Nat) : Word :=
  if x.fmt.scaled then x.blocks.getD (k / blockLen x.blk) 0 else 0x3F800000

/-- Whether the block scale at element k is present. -/
def Operand.blockOk (x : Operand) (k : Nat) : Bool := !(decodeFloat fpF32 (x.blockAt k).toNat).isAbsent

/-- The common block length of two operands (R115). -/
def commonBlock (a w : Operand) : Nat :=
  min (if a.fmt.scaled then blockLen a.blk else 128) (if w.fmt.scaled then blockLen w.blk else 128)

/-- The present products of elements lo to lo + n - 1; the scale is there for a present scale only (R116). -/
def products (a w : Operand) (lo n : Nat) : List (Option (FVal × Flags)) :=
  (List.range n).map fun i =>
    let k := lo + i
    let x := a.elems.getD k .absent
    let y := w.elems.getD k .absent
    if x.isAbsent || y.isAbsent || !a.blockOk k || !w.blockOk k then none else some (fprod x y)

/-- The promoted sum of a pass in a floating-point mode, its count and its bits of MSTAT (R116). -/
def passFloat (a w : Operand) : Word × Nat × Word :=
  let n := commonBlock a w
  let blocks := (List.range (128 / n)).map fun b =>
    let s := passScale a.scale w.scale (a.blockAt (b * n)) (w.blockAt (b * n))
    let ps := products a w (b * n) n
    (s, if s.1.isAbsent then ps.map fun _ => none else ps)
  let count := (blocks.map fun b => (b.2.filter fun p => p.isSome).length).sum
  let prodFlags := blocks.foldl (fun f b => b.2.foldl (fun f p => match p with | some q => f ||| q.2 | none => f) f) flag0
  let value : FVal × Flags :=
    if treeClass a.fmt then
      match blocks with
      | (s, ps) :: _ =>
        let t := treeSum 7 (ps.map fun p => p.map fun q => q.1)
        match t.1 with
        | none => (.zero, flag0)
        | some x => let z := scaledSum x s.1; (z.1, t.2 ||| z.2 ||| s.2)
      | [] => (.zero, flag0)
    else
      let vs := (blocks.filter fun b => b.2.any fun p => p.isSome).map fun b =>
        let t := sumExact (b.2.filterMap fun p => p.map fun q => q.1)
        let z := scaledSum t.1 b.1.1
        (z.1, t.2 ||| z.2 ||| b.1.2)
      let z := sumExact (vs.map fun v => v.1)
      (z.1, vs.foldl (fun f v => f ||| v.2) z.2)
  if count = 0 then (0, 0, 0)
  else
    let r : Nat × Flags :=
      match value.1 with
      | .num x => if x.m = 0 then (0, flag0) else roundFloat fpF32 x .nearest false
      | .inf s => (infCode fpF32 s, flag0)
      | _ => (fpF32.nanCode, flag0)
    (BitVec.ofNat 32 r.1, count, mFlags (prodFlags ||| value.2 ||| r.2))

/-- The accumulator after a floating-point pass (R116): an absent accumulator takes the promoted value, as the identity
rule has it (R67). -/
def accFloat (acc promoted : Word) : Word × Word :=
  let x := decodeFloat fpF32 acc.toNat
  let y := decodeFloat fpF32 promoted.toNat
  if x.isAbsent then (promoted, 0)
  else
    let z := fsum x y .nearest
    let r : Nat × Flags :=
      match z.1 with
      | .num v => roundFloat fpF32 v .nearest false
      | .inf s => (infCode fpF32 s, flag0)
      | _ => (fpF32.nanCode, flag0)
    (BitVec.ofNat 32 r.1, mFlags (z.2 ||| r.2))

/-- The exact integer sum of a pass in integer mode, and its count (R116). -/
def passInt (a w : Operand) : Int × Nat :=
  let ps := (products a w 0 128).filterMap fun p => p
  let v := fun (x : FVal) => match x with | .num y => y.atScale 0 | _ => 0
  ((ps.map fun p => v p.1).sum, ps.length)

/-- The accumulator after an integer pass (R58, R116). -/
def accInt (acc : Word) (v : Int) : Word × Word :=
  let r := saturate .i32 (acc.toInt + v)
  (BitVec.ofNat 32 r.1, if r.2 &&& flagSAT = 0 then 0 else mSAT)

/-- One element of a pass: the accumulator, the count and the bits of MSTAT. A pairing that R113 does not allow, which a
chain may meet only where a reservation has been freed and made anew under a queued loop, gives a value that nothing
constrains (log 21). -/
def passElem (free : Word) (a w : Operand) (acc cnt : Word) : Word × Word × Word :=
  let add := fun (n : Nat) =>
    let v := cnt.toNat + n
    if 0xFFFFFFFF ≤ v then ((0xFFFFFFFF : Word), if n = 0 then 0 else mCSAT) else (BitVec.ofNat 32 v, 0)
  if !pairingOk a.fmt w.fmt then (free, cnt, 0)
  else if integerMode a.fmt w.fmt then
    let p := passInt a w
    let r := accInt acc p.1
    let n := add p.2
    (r.1, n.1, r.2 ||| n.2)
  else
    let p := passFloat a w
    let r := accFloat acc p.1
    let n := add p.2.1
    (r.1, n.1, p.2.2 ||| r.2 ||| n.2)

/-! ### Reading the operand buffer -/

/-- A byte of the operand buffer. -/
def Matrix.opByte (x : Matrix) (a : Nat) : Byte := smGet 0 x.opbuf a

/-- A word of the operand buffer. -/
def Matrix.opWord (x : Matrix) (a : Nat) : Word := BitVec.ofNat 32 (readNat x.opByte a 4)

/-- The codebook table of a reservation (R60, R111). -/
def Matrix.table (x : Matrix) (r : Resv) : Codebook := (List.range 16).map fun i => BitVec.ofNat 16 (readNat x.opByte (r.cbBase + 2 * i) 2)

/-- Loads a weight tile at an offset of a reservation, with its scale and its block scales (R112, R114). -/
def Matrix.loadPlane (x : Matrix) (r : Resv) (off j n : Nat) : Plane :=
  let f := fmtAt r.fmt
  let nb := 128 * blocksIn f r.blk 128
  { fmt := r.fmt, blk := r.blk, cb := x.table r, src := some (r.id, off, j, n)
    bytes := (List.range (weightBytes f)).map fun i => x.opByte (r.lo + off + i)
    scale := x.opWord (r.lo + r.tileScale j)
    blocks := (List.range nb).map fun i => x.opWord (r.lo + r.blockScales n j + 4 * i) }

/-- Column n of a plane. -/
def Plane.column (p : Plane) (n : Nat) : Operand :=
  let f := fmtAt p.fmt
  let w := fmtWidth f
  let nb := blocksIn f p.blk 128
  { fmt := f, blk := p.blk, scale := p.scale
    elems := (List.range 128).map fun k =>
      decodeFmt (Fmt.element f) p.cb (packedElem (fun i => p.bytes.getD i 0) (k * rowBytes w 128) w n)
    blocks := (List.range nb).map fun b => p.blocks.getD (n * nb + b) 0 }

/-- Activation row i of tile j of a loop (R112). -/
def Matrix.activation (x : Matrix) (d : LoopDesc) (r : Resv) (t j i : Nat) : Operand :=
  let f := fmtAt r.fmt
  let cb := x.table r
  { fmt := f, blk := r.blk, scale := x.opWord (r.lo + r.rowScale t j i)
    elems := (List.range 128).map fun k =>
      decodeFmt (Fmt.element f) cb (packedElem x.opByte (r.lo + d.actRow r j i) (fmtWidth f) k)
    blocks := (List.range (blocksIn f r.blk 128)).map fun b => x.opWord (r.lo + r.rowBlocks d.ksteps t j i + 4 * b) }

/-! ### MATRIX_PASS (R116 to R119) -/

/-- Clears rows: values +0, counts 0, mode .F32 (R113, R118). -/
def Matrix.clearRows (x : Matrix) (row n : Nat) : Matrix :=
  let out := fun (k : Nat) => decide (k / 128 < row) || decide (row + n ≤ k / 128)
  { x with
    acc := x.acc.filter fun p => out p.1
    cnt := x.cnt.filter fun p => out p.1
    mode := x.mode.filter fun p => decide (p.1 < row) || decide (row + n ≤ p.1) }

/-- The groups of a queued loop. -/
def MCmd.groups (q : MCmd) : List (Nat × Nat) := (loopDesc q.args).groups q.table

/-- Where a loop starts: its first group with a row; none where it has no row. -/
def MCmd.start (q : MCmd) : Option MRun :=
  (findBy (fun i => decide (0 < (q.groups.getD i (0, 0)).1)) (List.range q.groups.length)).map fun i => ⟨i, 0, 0⟩

/-- The place after a pass: rows, then steps, then groups (R116 to R118). -/
def MCmd.nextRun (q : MCmd) (p : MRun) : Option MRun :=
  let d := loopDesc q.args
  if p.row + 1 < (q.groups.getD p.grp (0, 0)).1 then some { p with row := p.row + 1 }
  else if p.step + 1 < d.ksteps then some ⟨p.grp, p.step + 1, 0⟩
  else
    (findBy (fun i => decide (p.grp < i) && decide (0 < (q.groups.getD i (0, 0)).1)) (List.range q.groups.length)).map fun i =>
      ⟨i, 0, 0⟩

/-- The head command. -/
def Matrix.head? (x : Matrix) : Option MCmd := x.queue.head?

/-- Removes the head command. -/
def Matrix.pop (x : Matrix) : Matrix := { x with queue := x.queue.drop 1, run := none, drain := false }

/-- The cores that run a chain step with a core, member 0's first; the core itself outside a chain (R119). -/
def State.chainCores (s : State) (core : Nat) : List Nat :=
  let x := (s.core core).mx
  match (if x.chain ≤ 1 then none else x.owner.bind s.group?) with
  | none => [core]
  | some g => if x.chain ≤ g.member then [core]
      else (List.range x.chain).filterMap fun m => (s.member? g m).map fun y => y.core

/-- The passes of one row on one core, with the activations of the core at the head of its chain. R114 says that a loop loads each
tile after the first while a pass runs: here the first, too, is loaded from WID when its pass starts, so a tile or scale that
MSWP made active reaches no pass of a loop; and every group of an MGRP takes the tile scale of the K step (DEDUCED, log 20). -/
def State.passOn (s : State) (lead : Nat) (p : MRun) (core : Nat) : State :=
  let x := (s.core core).mx
  let y := (s.core lead).mx
  match x.head?, y.head? with
  | some q, some ql =>
    let d := loopDesc q.args
    let dl := loopDesc ql.args
    match x.resv? d.wid, y.resv? dl.aid with
    | some w, some a =>
      let t := rowsOf q.groups
      let before := rowsOf (q.groups.take p.grp)
      let i := before + p.row
      let x := if p.row = 0 then
          { x with shadow := x.active, active := x.loadPlane w (128 * ((q.groups.getD p.grp (0, 0)).2 + p.step * d.winc)) p.step d.ksteps }
        else x
      let op := y.activation dl a t p.step i
      let row := d.row0 + i
      let free := Config.freeWord
      let out := (List.range 128).map fun n =>
        let k := 128 * row + n
        (k, passElem (free (s.free + n)) op (x.active.column n) (smGet 0 x.acc k) (smGet 0 x.cnt k))
      let ints := integerMode op.fmt (fmtAt x.active.fmt)
      let x := { x with
        acc := smSets 0 x.acc (out.map fun o => (o.1, o.2.1))
        cnt := smSets 0 x.cnt (out.map fun o => (o.1, o.2.2.1))
        mode := smSet 0 x.mode row (if ints then 1 else 0)
        stat := out.foldl (fun st o => st ||| o.2.2.2) x.stat }
      { s.updMx core fun _ => x with free := s.free + 128 }
    | _, _ => s
  | _, _ => s

/-- Writes an integrity event to the ring of a die, ISEQ last; a ring at 0 counts only (R350). `unit` is the core of the
die, or 0xFF. -/
def State.logEvent (s : State) (die unit kind part : Nat) (addr : DWord) (detail : Nat) : State :=
  let d := s.die die
  let n := d.intEvents + 1
  let s := s.setDie die { d with intEvents := n }
  if d.intlog = 0 then s
  else s.engineWrite (128 * die) (putAt (d.intlog.toNat + 32 * (n % 1024))
    (natBytes 32 (detail + 2 ^ 64 * part + 2 ^ 80 * unit + 2 ^ 88 * kind + 2 ^ 96 * n + 2 ^ 128 * addr.toNat
      + 2 ^ 192 * s.ticks.toNat)))

/-- A residue mismatch of a pass (R122): a spare column and a repeat, or with no spare left a discarded queue and a
machine check. Which column it was nothing constrains (log 22). The spec does not say what becomes of drains in the
discarded queue: here their ranges are unlocked, their registers stay pending and they give no signal (DESIGN CHOICE,
log 65). R350 gives no layout of DETAIL: here its bits 31:0 hold the column and the bits from 32 on the number of the spare, and
ADDR is 0 (DESIGN CHOICE, log 22). -/
def State.residuePass (s : State) (core : Nat) : State × Bool :=
  let x := (s.core core).mx
  if !x.residue then (s, true)
  else
    let spare := (x.stat.extractLsb' 16 3).toNat
    let part := match x.owner.bind s.group? with | some g => g.part | none => 0xFFFF
    if spare < 4 then
      let v := s.freeValue
      let s := v.2.updMx core fun y => { y with residue := false, stat := (y.stat + 0x10000) ||| 0x10 }
      (s.logEvent (core / 128) (core % 128) 5 part 0 (v.1.toNat % 128 + 2 ^ 32 * (spare + 1)), true)
    else
      let locked := x.queue.map fun q => q.id
      let s := s.updMx core fun y => { y with residue := false, queue := [], run := none, drain := false, check := true }
      (locked.foldl (fun s id => s.unlock core id) s, false)

/-- The residue checks of a pass on the cores of a chain: the state, and the cores whose check holds or was repaired. -/
def State.residuePasses (s : State) : List Nat → State × List Nat
  | [] => (s, [])
  | k :: r =>
    let q := s.residuePass k
    let t := q.1.residuePasses r
    (t.1, if q.2 then k :: t.2 else t.2)

/-- MATRIX_PASS: one row of the loop at the head of a core's queue, on every member of its chain (R116, R119). A mismatch
that no spare repairs writes nothing for the pass on any member; it ends the step on the cores whose queue it discards,
and on all of them where it is that of member 0, whose activations they stream (R122). -/
def execMatrixPass (core : Nat) (s : State) : Host.Outcome State Fault Refusal :=
  let x := (s.core core).mx
  let cores := (s.chainCores core).filter fun k => (s.core k).mx.run.isSome
  match (if cores.head? = some core then x.run else none), x.head? with
  | some p, some q =>
    let r := s.residuePasses cores
    if r.2 = cores then
      let s1 := cores.foldl (fun s k => s.passOn core p k) r.1
      match q.nextRun p with
      | some p' => .next (cores.foldl (fun s k => s.updMx k fun y => { y with run := some p' }) s1)
      | none => .next (cores.foldl (fun s k => s.updMx k Matrix.pop) s1)
    else if r.2.contains core then .next r.1
    else .next (r.2.foldl (fun s k => s.updMx k Matrix.pop) r.1)
  | _, _ => .refused (.notEnabled "MATRIX_PASS")

/-! ### MATRIX_COMMAND_HEAD (R110, R114, R118, R119) -/

/-- Whether a live copy writes a range of a core's operand buffer. -/
def State.copying (s : State) (core lo n : Nat) : Bool := (s.core core).locks.any fun l => l.space == 3 && meets l.lo l.len lo n

/-- Whether every core of a chain has a command of a kind of a group's gang at its head. -/
def State.allAtHead (s : State) (gid : Nat) (cores : List Nat) (f : MCmd → Bool) : Bool :=
  let gang := fun (g : Group) => (g.launch, g.gang)
  cores.all fun k => match (s.core k).mx.head? with
    | some q => f q && ((s.group? q.gid).map gang) == (s.group? gid).map gang
    | none => false

/-- The cores of the members below n of a group's gang. -/
def State.memberCores (s : State) (gid n : Nat) : List Nat :=
  match s.group? gid with
  | none => []
  | some g => (List.range n).filterMap fun m => (s.member? g m).map fun y => y.core

/-- What the head command does when it can be performed; none where it must wait. R119 does not say which member's MCHN 1
dissolves a chain: here that of any one member does, on all of them, and one that finds no chain does nothing else (DESIGN
CHOICE, log 21). -/
def State.matrixHead (s : State) (core : Nat) : Option State :=
  let x := (s.core core).mx
  match x.head? with
  | none => none
  | some q =>
    let pop := fun (f : Matrix → Matrix) => some (s.updMx core fun y => (f y).pop)
    if x.run.isSome || x.drain then none
    else
      match q.kind with
      | .rels =>
        let id := (q.args.getD 0 0).toNat
        match x.resv? id with
        | none => pop fun y => y
        | some r =>
          if s.copying core r.lo r.bytes then none
          else
            pop fun y =>
              let rest := y.resv.filter fun z => z.id != id
              if rest.isEmpty then { y with resv := [], owner := none, chain := 1, steps := [] } else { y with resv := rest }
      | .scl => pop fun y => { y with shadow := { y.shadow with scale := q.args.getD 0 0 } }
      | .lds =>
        let v := (q.args.getD 1 0).toNat
        match x.resv? (q.args.getD 0 0).toNat with
        | none => pop fun y => y
        | some r => pop fun y => { y with shadow := x.loadPlane r (128 * bitsOf v 0 16) (bitsOf v 16 10) (bitsOf v 16 10 + 1) }
      | .swp => pop fun y => { y with active := y.shadow, shadow := y.active }
      | .zero =>
        let v := (q.args.getD 0 0).toNat
        pop fun y => y.clearRows (bitsOf v 0 9) (bitsOf v 9 9 + 1)
      | .chn =>
        let n := (q.args.getD 0 0).toNat
        match s.group? q.gid with
        | none => pop fun y => y
        | some g =>
          let cores := s.memberCores q.gid n
          if n ≤ 1 then
            let s := (s.chainCores core).foldl (fun s k => s.updMx k fun y => { y with chain := 1 }) s
            some (s.updMx core Matrix.pop)
          else if n ≤ g.member then pop fun y => y
          else if s.allAtHead q.gid cores (fun q => q.kind == .chn && q.args.getD 0 0 == BitVec.ofNat 32 n) then
            some (cores.foldl (fun s k => s.updMx k fun y => { y.pop with chain := n }) s)
          else none
      | .loop | .grp =>
        let cores := s.chainCores core
        if cores.head? != some core then none
        else if s.allAtHead q.gid cores (fun q => q.kind == .loop || q.kind == .grp) then
          let begin_ := fun (s : State) (k : Nat) => s.updMx k fun y =>
            match y.head? with
            | some ql =>
              let d := loopDesc ql.args
              let y := { y with shadow := Plane.empty }
              if d.zero then y.clearRows d.row0 (rowsOf ql.groups) else y
            | none => y
          let s := cores.foldl begin_ s
          match q.start with
          | some p => some (cores.foldl (fun s k => s.updMx k fun y => { y with run := some p }) s)
          | none => some (cores.foldl (fun s k => s.updMx k Matrix.pop) s)
        else none
      | .drn => some (s.updMx core fun y => { y with drain := true })

/-- MATRIX_COMMAND_HEAD: the sequencer performs the command at the head of a core's queue (R110). -/
def execMatrixCommandHead (core : Nat) (s : State) : Host.Outcome State Fault Refusal :=
  match s.matrixHead core with
  | some s' => .next s'
  | none => .refused (.notEnabled "MATRIX_COMMAND_HEAD")

/-! ### DRAIN_COMPLETION (R79, R120, R252) -/

/-- A value divided by a count and converted with one rounding (R79); an inexact quotient meets the entries of a
codebook through the products of the entries with the count. -/
def convertMean (v : FVal) (c : Nat) (f : Fmt) (t : Codebook) : Nat :=
  match v with
  | .num x =>
    match fmtClass f with
    | .codebook _ n => (encodeScaledCodebook t n x ⟨false, c, 0, false⟩).1
    | _ => (convert (.num (x.divNat c)) f t .nearest false).1
  | _ => (convert v f t .nearest false).1

/-- One drained element (R79, R120): the count as .U32, or the value in the drain's format. -/
def drainElem (d : DrainWord) (t : Codebook) (ints : Bool) (acc cnt : Word) : Nat :=
  if d.mode = 2 then cnt.toNat
  else
    let f := fmtAt d.fmt
    if cnt = 0 then absentCode f
    else
      let v := if ints then .num (Exact.ofInt acc.toInt 0 false) else decodeFloat fpF32 acc.toNat
      if d.mode = 1 then convertMean v cnt.toNat f t else (convert v f t .nearest false).1

/-- The drained elements of a row from column c0. -/
def Matrix.drained (x : Matrix) (d : DrainWord) (t : Codebook) (row c0 n : Nat) : List Nat :=
  let ints := smGet 0 x.mode row == 1
  (List.range n).map fun i =>
    let k := 128 * row + c0 + i
    drainElem d t ints (smGet 0 x.acc k) (smGet 0 x.cnt k)

/-- What a drain does at its end: it lands its register, or writes its rows, unlocks them and gives its signal. -/
def State.endDrain (s : State) (core : Nat) (q : MCmd) : State :=
  let x := (s.core core).mx
  let d := drainWord (q.args.getD 0 0)
  let s1 := s.updMx core Matrix.pop
  if d.scratch then
    let o := (q.args.getD 1 0).toNat
    let bytes := (List.range d.rows).flatMap fun r =>
      let cs := x.drained d q.cb (d.row + r) 0 128
      if d.mode = 2 then cs.flatMap fun v => natBytes 4 v else packRow (fmtAt d.fmt) cs
    ((s1.storeLocal (.sram q.gid o) bytes).unlock core q.id).giveSignal? q.signal 0
  else
    let cs := x.drained d q.cb d.row (32 * d.colq) 32
    s1.updFly q.fly fun f =>
      { f with vals := f.vals.map fun p => (p.1, cs.map fun v => BitVec.ofNat 32 v), ready := f.mask, left := 0 }

/-- DRAIN_COMPLETION: the drain at the head of a core's queue has written its last element (R120). -/
def execDrainCompletion (core : Nat) (s : State) : Host.Outcome State Fault Refusal :=
  let x := (s.core core).mx
  match x.drain, x.head? with
  | true, some q => .next (s.endDrain core q)
  | _, _ => .refused (.notEnabled "DRAIN_COMPLETION")

end Sys2Proof.Machine
end

