-- ==== Sys2Proof/Machine/Image.lean ====
section
/-! DEFINITION. The save image (R277 to R281): what CSAVE and CMIGR write, and what CLOAD and CMIGR read back. A field is
a byte offset, a length in bytes and a number. What the image does not hold (which landing a pending register awaits)
stays with the group in the saved-group table. -/

namespace Sys2Proof.Machine

/-- A field of an image. -/
abbrev Field := Nat × Nat × Nat

/-- The writes of some fields from a base; bytes of zero are left out, since the area is cleared first. -/
def fieldWrites (base : Nat) (fs : List Field) : List (Nat × Byte) :=
  fs.flatMap fun f => if f.2.2 = 0 then [] else putAt (base + f.1) (natBytes f.2.1 f.2.2)

/-- The residue of a word: its value mod 3, or 0b11 where it is poisoned (R29, R348). -/
def residue2 (v : Word) (bad : Bool) : Nat := if bad then 3 else v.toNat % 3

/-- Whether the uniform words 8 to 15 of a closure hold its codebook (R280). -/
def Closure.takesCodebook (k : Closure) : Bool :=
  match k.instr with
  | some (.cvt _) | some (.cvts _) | some (.cbenc _) | some (.cbdec _) => true
  | _ => false

/-! ### Writing a warp (R278 to R280) -/

/-- The 512-byte record of a closure (R280). With a codebook in words 8 to 15, UCNT counts these eight beside the operands
(log 77). -/
def Closure.record (k : Closure) : Nat :=
  let slot := fun (p : (Nat × List Word) × Nat) =>
    2 ^ (224 + 7 * p.2) * p.1.1 + ((List.range 32).map fun l =>
      let v := p.1.2.getD l 0
      2 ^ (832 + 1024 * p.2 + 32 * l) * v.toNat
        + 2 ^ (3904 + 64 * p.2 + 2 * l) * residue2 v (k.pois.contains (regKey p.1.1 l))).sum
  let base := match k.unif with | p :: _ => p.1 | [] => 0
  let uni := (k.unif.map fun p =>
    2 ^ (320 + 32 * (p.1 - base)) * p.2.toNat + 2 ^ (264 + 2 * (p.1 - base)) * residue2 p.2 (k.pois.contains (regKey p.1 0))).sum
  let cnt := (k.unif.map fun p => p.1 - base + 1).foldl max 0
  let book := if k.takesCodebook then
      ((List.range 8).map fun i =>
        let v := (k.cb.getD (2 * i + 1) 0xFFFF) ++ (k.cb.getD (2 * i) 0xFFFF)
        2 ^ (576 + 32 * i) * v.toNat + 2 ^ (280 + 2 * i) * residue2 v false).sum else 0
  k.iword.toNat + 2 ^ 32 * k.mword.toNat + 2 ^ 64 * k.pc.toNat + 2 ^ 128 * k.mask.toNat + 2 ^ 160 * (k.run.getD 0 % 2 ^ 32)
    + 2 ^ 192 * k.tile + 2 ^ 200 + 2 ^ 201 * k.run.isSome.toNat + 2 ^ 202 * k.csplit
    + 2 ^ 208 * k.dregs.headD 0 + 2 ^ 215 * (!k.dregs.isEmpty).toNat + 2 ^ 216 * k.dregs.length
    + 2 ^ 245 * base + 2 ^ 252 * (cnt + (if k.takesCodebook then 8 else 0)) + uni + book + ((k.lanes.zipIdx).map slot).sum

/-- A bypass entry (R279). -/
def Bypass.entry (b : Bypass) : Nat :=
  b.reg + 2 ^ 7 + 2 ^ 8 * b.count + ((List.range 32).map fun l =>
    let v := b.vals.getD l 0
    2 ^ (128 + 32 * l) * v.toNat + 2 ^ (64 + 2 * l) * residue2 v (b.poison.getLsbD l)).sum

/-- The bypass of a split, in an area of the image: its three places hold the oldest three of the live entries (log 68). -/
def bypassFields (area s : Nat) (bs : List Bypass) : List Field :=
  (bs.take 3).zipIdx.map fun p => (area + 0x1E0 * s + 0xA0 * p.2, 160, p.1.entry)

/-- A split and its stack, bottom first (R279). -/
def Split.fields (x : Split) : List Field :=
  let at_ := 0x100 + 0x90 * x.num
  (at_, 16, x.pc.toNat + 2 ^ 64 * x.mask.toNat + 2 ^ 96 * x.stack.length)
    :: x.stack.reverse.zipIdx.map fun p => (at_ + 16 + 16 * p.2, 16, p.1.pc.toNat + 2 ^ 64 * p.1.mask.toNat)

/-- The lanes whose partial count is valid. -/
def Warp.stepValid (w : Warp) : Word := maskOf fun l => (w.annCount.any fun p => p.1 == l) || w.annLive.getLsbD l

/-- The warp header (R278). -/
def Warp.header (w : Warp) : Nat :=
  w.window + 2 ^ 8 * w.tile + (w.splits.map fun x => 2 ^ (16 + x.num)).sum
    + 2 ^ 24 * w.inh.isSome.toNat + 2 ^ 25 * w.inu.isSome.toNat + 2 ^ 26 * w.susp.isSome.toNat
    + 2 ^ 32 * w.fflags.toNat + 2 ^ 64 * w.uvec.toNat + 2 ^ 128 * w.annbase.toNat + 2 ^ 192 * w.kscr0.toNat
    + 2 ^ 256 * w.kscr1.toNat + 2 ^ 320 * w.stepValid.toNat + 2 ^ 352 * w.annLive.toNat
    + ((List.range 128).map fun r => if w.pending r then 2 ^ (384 + r) else 0).sum
    + 2 ^ 512 * w.nextLs + 2 ^ 576 * w.closureWord.toNat
    + ((List.range 16).map fun b => 2 ^ (1024 + 64 * b) * (smGet 0 w.obsp b).toNat + 2 ^ (1056 + 64 * b) * (smGet 0 w.arvp b).toNat).sum

/-- The bypass that a trap entry saved, with the number of its split. -/
def Warp.savedBypass (w : Warp) : Option (Nat × List Bypass) :=
  match w.inh, w.inu with
  | some x, _ => some (x.split, x.bypass)
  | none, some x => some (x.split, x.bypass)
  | none, none => none

/-- The image of a warp (R278); `rec` is its trap record. -/
def Warp.image (w : Warp) (rec : Nat) : List Field :=
  [(0, 256, w.header)]
    ++ w.splits.flatMap (fun x => x.fields)
    ++ w.splits.flatMap (fun x => bypassFields 0x340 x.num x.bypass)
    ++ (match w.savedBypass with | some p => bypassFields 0xAC0 p.1 p.2 | none => [])
    ++ (List.range 16).map (fun i => (0x1240 + 2 * i, 2, (w.cb.getD i 0xFFFF).toNat))
    ++ [(0x1260, 64, rec)]
    ++ (List.range 32).map (fun l => (0x12A0 + 4 * l, 4, (smGet 0 w.steps l).toNat))
    ++ (List.range 32).map (fun l => (0x1320 + 4 * l, 4, (smGet 0 w.annCount l).toNat))
    ++ w.closures.map (fun k => (0x1400 + 0x200 * k.idx, 512, k.record))
    ++ (List.range w.window).map (fun r => (0x2400 + 8 * r, 8, ((List.range 32).map fun l =>
        2 ^ (2 * l) * residue2 (w.reg r l) (w.poisoned r l)).sum))
    ++ (w.regs.filter fun p => decide (p.1 < 32 * w.window)).map fun p => (0x2800 + 4 * p.1, 4, p.2.toNat)

/-! ### Writing a group (R277, R281) -/

/-- The landing number of a core's latest acquire (R281). -/
def State.acqNumber (s : State) (core : Nat) : Nat :=
  ((s.log.filter fun l => decide (l.idx ≤ (s.core core).acqIdx)).map fun l => l.num).foldl max 0

/-- The state of an initialised barrier as a group block holds it. -/
def Bar.entry (x : Bar) : Nat :=
  2 ^ 11 + 2 ^ 12 * x.gang.toNat + x.count + 2 ^ 32 * x.ph.toNat + 2 ^ 64 * x.ta0 + 2 ^ 80 * x.ee0 + 2 ^ 88 * x.ea0 + 2 ^ 96 * x.ta1
    + 2 ^ 112 * x.ee1 + 2 ^ 120 * x.ea1

/-- The key under which a group's own block keeps barrier b: member 0's holds the gang's, whether or not member 0 has
initialised it, before a group barrier of the same number (R230, log 86). -/
def Group.barKey (g : Group) (b : Nat) : Nat := if g.member = 0 ∧ (smGet Bar.fresh g.bars (16 + b)).init then 16 + b else b

/-- A barrier as the group block holds it: the gang's state in member 0's block only. -/
def State.barField (s : State) (g : Group) (b : Nat) : Nat :=
  let own := smGet Bar.fresh g.bars (g.barKey b)
  match s.barOf g b with
  | some (o, _, x) => if o.gid ≠ g.gid then 2 ^ 11 + 2 ^ 12 * x.gang.toNat else own.entry
  | none => if own.init then own.entry else 0

/-- The group block (R281). -/
def State.groupBlock (s : State) (g : Group) (matrix : Bool) : Nat :=
  g.warps.length + 2 ^ 8 * g.dmode.toNat + 2 ^ 9 * g.phasef.toNat + 2 ^ 10 * matrix.toNat + 2 ^ 32 * (g.sBytes / 4096)
    + 2 ^ 40 * (g.nBytes / 4096) + 2 ^ 48 * g.member + 2 ^ 64 * s.acqNumber g.core
    + 2 ^ 128 * (s.relCount g.core % 2 ^ 32) + ((g.pools.zipIdx).map fun p => 2 ^ (160 + 8 * p.2) * p.1).sum
    + ((List.range 16).map fun b => 2 ^ (512 + 512 * b) * s.barField g b).sum

/-- The size of a group's image (R277). -/
def Group.imageSize (g : Group) (matrix : Bool) : Nat := 0xD1000 + g.sBytes + g.nBytes + (if matrix then 0xC1000 else 0)

/-- Whether a group holds its core's matrix engine. -/
def State.holdsMatrix (s : State) (g : Group) : Bool := (s.core g.core).mx.owner == some g.gid

/-- The offset of the matrix section. -/
def Group.matrixAt (g : Group) : Nat := 0xD1000 + g.sBytes + g.nBytes

/-- The operand buffer, accumulator values and counts of a matrix engine, from the start of its section (R277). -/
def Matrix.fields (x : Matrix) (at_ : Nat) : List Field :=
  x.opbuf.map (fun p => (at_ + p.1, 1, p.2.toNat)) ++ x.acc.map (fun p => (at_ + 0x40000 + 4 * p.1, 4, p.2.toNat))
    ++ x.cnt.map fun p => (at_ + 0x80000 + 4 * p.1, 4, p.2.toNat)

/-- The trap record of a warp as memory holds it: its trap slot, or the user slot of a user handler alone (R278). -/
def State.recordOf (s : State) (g : Group) (w : Warp) : Nat :=
  if w.inh.isSome || w.susp.isSome then readNat (s.farByte g.core g.part) (s.trapSlot g.core w.slot) 64
  else if w.inu.isSome then
    match s.translate g.core g.asid .read w.userSlot with
    | .ok a => readNat (s.farByte g.core g.part) a 64
    | .bad _ => 0
  else 0

/-- The fields of a group's image. -/
def State.imageOf (s : State) (g : Group) : List Field :=
  let m := s.holdsMatrix g
  [(0, 4096, s.groupBlock g m)]
    ++ g.warps.flatMap (fun w => (w.image (s.recordOf g w)).map fun f => (0x1000 + 0x6800 * w.idx + f.1, f.2))
    ++ g.sMem.map (fun p => (0xD1000 + p.1, 1, p.2.toNat)) ++ g.nMem.map (fun p => (0xD1000 + g.sBytes + p.1, 1, p.2.toNat))
    ++ (if m then (s.core g.core).mx.fields g.matrixAt else [])

/-- Clears bytes of physical memory in every view of it, whatever the keys under which they were written (R292, R314). -/
def State.clearRaw (s : State) (lo n : Nat) : State :=
  let out := fun (a : Nat) => !(decide (lo ≤ a) && decide (a < lo + n))
  { s with
    mem := s.mem.filter fun p => out p.1
    base := s.base.filter fun p => out p.1
    log := s.log.map fun l => { l with writes := l.writes.filter fun w => out (rawAddr w.1) }
    seals := s.seals.filter fun p => out (128 * p.1)
    spoiled := s.spoiled.filter fun p => out (32 * p.1) }

/-- Writes the image of a group at a physical base (R277). The layout of the engine state's 4 KiB is not given: its
bytes are free values (log 24). -/
def State.writeImage (s : State) (g : Group) (base : Nat) : State :=
  let m := s.holdsMatrix g
  let s1 := (s.clearRaw base (g.imageSize m)).writeRaw (fieldWrites base (s.imageOf g))
  if m then
    let at_ := base + g.matrixAt + 0xC0000
    { s1.writeRaw ((List.range 4096).map fun i => (at_ + i, Config.freeByte (Nat.pair s1.free (at_ + i)))) with free := s1.free + 1 }
  else s1

/-! ### Reading an image back -/

/-- The number in n bytes of an image. -/
def State.imageNat (s : State) (base o n : Nat) : Nat := s.homeNat (base + o) n

/-- A number of an image as a table of words, zeros left out. -/
def State.imageWords (s : State) (base n : Nat) : List (Nat × Word) :=
  (List.range n).filterMap fun i =>
    let v := BitVec.ofNat 32 (s.imageNat base (4 * i) 4)
    if v = 0 then none else some (i, v)

/-- Reads a split (R279); its bypass follows. An instruction at which it waits is kept beside the image. -/
def State.readSplit (s : State) (base n : Nat) (bys : List Bypass) (busy : Option Nat) : Split :=
  let o := 0x100 + 0x90 * n
  let v := s.imageNat base o 16
  let depth := min (v / 2 ^ 96 % 16) 8
  let st := (List.range depth).map fun i =>
    let x := s.imageNat base (o + 16 + 16 * i) 16
    (⟨BitVec.ofNat 64 x, BitVec.ofNat 32 (x / 2 ^ 64)⟩ : Frame)
  ⟨n, BitVec.ofNat 64 v, BitVec.ofNat 32 (v / 2 ^ 64), st.reverse, bys, busy⟩

/-- Reads the live bypass entries of a split from an area (R279). -/
def State.readBypass (s : State) (base area n : Nat) : List Bypass :=
  (List.range 3).filterMap fun j =>
    let v := s.imageNat base (area + 0x1E0 * n + 0xA0 * j) 160
    if v / 2 ^ 7 % 2 = 1 then
      some ⟨v % 2 ^ 7, v / 2 ^ 8 % 4, lanes32 fun l => BitVec.ofNat 32 (v / 2 ^ (128 + 32 * l)),
        maskOf fun l => decide (v / 2 ^ (64 + 2 * l) % 4 = 3)⟩
    else none

/-- Reads a closure's record over the closure that the group kept (R280); one that is no longer live is gone. -/
def State.readClosure (s : State) (base : Nat) (k : Closure) : Option Closure :=
  let v := s.imageNat base (0x1400 + 0x200 * k.idx) 512
  let ub := v / 2 ^ 245 % 2 ^ 7
  if v / 2 ^ 200 % 2 = 0 then none
  else
    some { k with
      iword := BitVec.ofNat 32 v
      mword := BitVec.ofNat 32 (v / 2 ^ 32)
      pc := BitVec.ofNat 64 (v / 2 ^ 64)
      mask := BitVec.ofNat 32 (v / 2 ^ 128)
      run := if v / 2 ^ 201 % 2 = 1 then some (v / 2 ^ 160 % 2 ^ 32) else none
      tile := v / 2 ^ 192 % 2 ^ 8
      csplit := v / 2 ^ 202 % 4
      lanes := k.lanes.zipIdx.map fun p => (v / 2 ^ (224 + 7 * p.2) % 2 ^ 7, lanes32 fun l => BitVec.ofNat 32 (v / 2 ^ (832 + 1024 * p.2 + 32 * l)))
      unif := k.unif.map fun p => (p.1, BitVec.ofNat 32 (v / 2 ^ (320 + 32 * (p.1 - ub))))
      cb := if k.takesCodebook then (List.range 16).map fun i => BitVec.ofNat 16 (v / 2 ^ (576 + 16 * i)) else k.cb }

/-- Keeps what a trap entry saved while its flag is set in the image, with the bypass of the image. -/
def TrapSave.reload (t : Option TrapSave) (flag : Bool) (bys : List Bypass) : Option TrapSave :=
  if flag then t.map fun x => { x with bypass := bys } else none

/-- Reads a warp's image over the warp that the group kept (R278). -/
def State.readWarp (s : State) (base : Nat) (w : Warp) : Warp :=
  let h := s.imageNat base 0 256
  let bit := fun (i : Nat) => decide (h / 2 ^ i % 2 = 1)
  let dw := fun (i : Nat) => BitVec.ofNat 64 (h / 2 ^ i)
  let win := h % 2 ^ 8
  let saved := fun (t : Option TrapSave) => match t with | some x => s.readBypass base 0xAC0 x.split | none => []
  { w with
    window := win
    tile := h / 2 ^ 8 % 2 ^ 8
    splits := ((List.range 4).filter fun n => bit (16 + n)).map fun n =>
      s.readSplit base n (s.readBypass base 0x340 n) ((findBy (fun x => x.num == n) w.splits).bind fun x => x.busy)
    inh := TrapSave.reload w.inh (bit 24) (saved w.inh)
    inu := TrapSave.reload w.inu (bit 25) (saved (if w.inh.isSome then none else w.inu))
    susp := if bit 26 then w.susp else none
    fflags := BitVec.ofNat 32 (h / 2 ^ 32) &&& 0x3F3F
    uvec := dw 64
    annbase := dw 128
    kscr0 := dw 192
    kscr1 := dw 256
    annLive := BitVec.ofNat 32 (h / 2 ^ 352)
    pend := w.pend.filter fun p => bit (384 + p.reg)
    nextLs := (dw 512).toNat
    obsp := (List.range 16).filterMap fun b => let v := BitVec.ofNat 32 (h / 2 ^ (1024 + 64 * b)); if v = 0 then none else some (b, v)
    arvp := (List.range 16).filterMap fun b => let v := BitVec.ofNat 32 (h / 2 ^ (1056 + 64 * b)); if v = 0 then none else some (b, v)
    cb := (List.range 16).map fun i => BitVec.ofNat 16 (s.imageNat base (0x1240 + 2 * i) 2)
    steps := s.imageWords (base + 0x12A0) 32
    annCount := (s.imageWords (base + 0x1320) 32).filter fun p => bit (320 + p.1)
    closures := w.closures.filterMap (s.readClosure base)
    regs := s.imageWords (base + 0x2800) (32 * win)
    poison := (List.range (32 * win)).filter fun k =>
      decide (s.imageNat base (0x2400 + 8 * (k / 32)) 8 / 2 ^ (2 * (k % 32)) % 4 = 3) }

/-- Bytes of an image as cells, zeros left out. -/
def State.imageCells (s : State) (base n : Nat) : List Host.Cell :=
  (s.mem.filter fun p => decide (base ≤ p.1) && decide (p.1 < base + n)).map fun p => (p.1 - base, p.2)

/-- Reads a barrier over the one that the group kept (R281). -/
def readBar (v : Nat) (x : Bar) : Bar :=
  { x with
    init := decide (v / 2 ^ 11 % 2 = 1)
    gang := decide (v / 2 ^ 12 % 2 = 1)
    count := v % 2 ^ 11
    ph := BitVec.ofNat 32 (v / 2 ^ 32)
    ta0 := v / 2 ^ 64 % 2 ^ 11
    ee0 := v / 2 ^ 80 % 2 ^ 8
    ea0 := v / 2 ^ 88 % 2 ^ 8
    ta1 := v / 2 ^ 96 % 2 ^ 11
    ee1 := v / 2 ^ 112 % 2 ^ 8
    ea1 := v / 2 ^ 120 % 2 ^ 8 }

/-- Reads a group's image over the group that was kept (R277, R281). -/
def State.readGroup (s : State) (g : Group) : Group :=
  let b := s.imageNat g.image 0 4096
  let keep := fun (bars : List (Nat × Bar)) (i : Nat) =>
    let x := smGet Bar.fresh g.bars (g.barKey i)
    if x.init then smSet Bar.fresh bars (g.barKey i) (readBar (b / 2 ^ (512 + 512 * i) % 2 ^ 512) x) else bars
  { g with
    dmode := decide (b / 2 ^ 8 % 2 = 1)
    phasef := decide (b / 2 ^ 9 % 2 = 1)
    pools := (List.range 4).map fun q => b / 2 ^ (160 + 8 * q) % 2 ^ 8
    bars := (List.range 16).foldl keep g.bars
    acqln := b / 2 ^ 64 % 2 ^ 64
    warps := g.warps.map fun w => s.readWarp (g.image + 0x1000 + 0x6800 * w.idx) w
    sMem := s.imageCells (g.image + 0xD1000) g.sBytes
    nMem := s.imageCells (g.image + 0xD1000 + g.sBytes) g.nBytes }

/-- Reads a matrix section over the engine that was kept; its planes are loaded anew from the operand buffer, but for the scale,
which the engine state holds (R114, R277). -/
def State.readMatrix (s : State) (g : Group) (x : Matrix) : Matrix :=
  let at_ := g.image + g.matrixAt
  let x := { x with
    opbuf := s.imageCells at_ 0x40000
    acc := s.imageWords (at_ + 0x40000) 65536
    cnt := s.imageWords (at_ + 0x80000) 65536 }
  let plane := fun (p : Plane) =>
    match p.src with
    | none => p
    | some (rid, off, j, n) => match x.resv? rid with | some r => { x.loadPlane r off j n with scale := p.scale } | none => p
  { x with active := plane x.active, shadow := plane x.shadow }

end Sys2Proof.Machine
end

