-- ==== Sys2Proof/Machine/Place.lean ====
section
/-! DEFINITION. Room on a core: warp slots, register windows and scratch (R17, R26, R27, R81, R302), new warps, and the
gathering of tasks (R25, R237). -/

namespace Sys2Proof.Machine

/-- Whether a group has ended, its release landed, and is kept only for its gang's barriers (R230). -/
def Group.gone (g : Group) : Bool := g.stat == .ended && g.warps.isEmpty

/-- The warps that hold a slot of a core. -/
def State.slotHolders (s : State) (core : Nat) : List Warp :=
  (s.residents core).flatMap fun g => g.warps.filter fun w => !w.ended

/-- The register windows of an issue partition of a core, as base and size. -/
def State.windows (s : State) (core q : Nat) : List (Nat × Nat) :=
  ((s.slotHolders core).filter fun w => w.slot % 4 == q).map fun w => (w.wbase, w.window)

/-- The registers that the groups of a core hold in their pools of an issue partition (R19). -/
def State.pooled (s : State) (core q : Nat) : Nat := ((s.residents core).map fun g => 8 * g.pools.getD q 0).sum

/-- Whether a window of n registers fits at a base. -/
def windowFits (used : List (Nat × Nat)) (base n : Nat) : Bool :=
  decide (base + n ≤ 1024) && used.all fun u => !meets u.1 u.2 base n

/-- The lowest base at which a window of n registers fits in a file of 1,024, pooled granules held back (R27). -/
def fitWindow (used : List (Nat × Nat)) (pool n : Nat) : Option Nat :=
  if 1024 < (used.map fun u => u.2).sum + pool + n then none
  else findBy (fun b => windowFits used b n) ((List.range 128).map (8 * ·))

/-- Slots and windows of r registers for warps on a list of issue partitions; `got` are those already placed. -/
def State.placeOn (s : State) (core r : Nat) (got : List (Nat × Nat)) : List Nat → Option (List (Nat × Nat))
  | [] => some got
  | q :: qs =>
    let taken := ((s.slotHolders core).map fun w => w.slot) ++ got.map fun p => p.1
    let used := s.windows core q ++ (got.filter fun p => p.1 % 4 == q).map fun p => (p.2, r)
    match findBy (fun x => x % 4 == q && !taken.contains x) (List.range 64), fitWindow used (s.pooled core q) r with
    | some slot, some base => s.placeOn core r (got ++ [(slot, base)]) qs
    | _, _ => none

/-- The issue partitions of n new warps, warp i on partition i + k mod 4 (R17). -/
def dealt (n k : Nat) : List Nat := (List.range n).map fun i => (i + k) % 4

/-- Slots and windows for the warps of a new group on a core, if there is room. -/
def State.placeWarps (s : State) (core n r : Nat) : Option (List (Nat × Nat)) :=
  match findBy (fun k => (s.placeOn core r [] (dealt n k)).isSome) [0, 1, 2, 3] with
  | some k => s.placeOn core r [] (dealt n k)
  | none => none

/-- Whether a core has scratch for so many bytes more: 2 MiB in all (R81). -/
def State.scratchRoom (s : State) (core n : Nat) : Bool :=
  decide (s.scratchHeld core + n ≤ 0x200000)

/-- A warp at its start (R17, R18, R32): the active lanes of its only split at the entry. -/
def newWarp (idx slot role window base : Nat) (entry : DWord) (mask : Word) (tile : Nat) (task : Bool)
    (targ : List (Nat × DWord)) : Warp where
  idx := idx
  slot := slot
  role := role
  window := window
  regs := []
  poison := []
  pend := []
  splits := [⟨0, entry, mask, [], [], none⟩]
  tile := tile
  uvec := 0
  annbase := 0
  ucause := 0
  fflags := 0
  steps := []
  annLive := 0
  annCount := []
  closures := []
  nextLs := 0
  cb := Codebook.initial
  obsp := []
  arvp := []
  kscr0 := 0
  kscr1 := 0
  inh := none
  inu := none
  susp := none
  yld := none
  targ := targ
  task := task
  wbase := base
  readySince := none
  lastIssue := 0
  ended := false

/-- The scratch regions of one space: each starts where the one before it ends (R86, R266). -/
def regionsOf (inN : Bool) (ds : List Scratch) : List Region :=
  (ds.filter fun d => d.inN == inN).foldl
    (fun rs d => rs ++ [⟨(rs.map fun r => r.size).sum, d.size, d.swizzle⟩]) []

/-- The issue priority of a launch's groups: 3 for a service group (R304). -/
def Launch.issuePrio (l : Launch) : Nat := if l.kernel then 3 else l.desc.prio

/-- A group at its start, without warps (R8, R19, R39, R86, R229). -/
def newGroup (gid : Nat) (l : Launch) (core gang member members place : Nat) (sB nB : Nat) (now : Nat) : Group where
  gid := gid
  launch := l.id
  gang := gang
  member := member
  members := members
  isGang := decide (1 < l.desc.gsize)
  core := core
  place := place
  asid := l.desc.asid
  part := l.part
  kernel := l.kernel
  prio := l.issuePrio
  stat := .run
  regsPer := l.desc.regs
  entry := l.desc.entry
  dmode := false
  phasef := false
  pools := [0, 0, 0, 0]
  bars := []
  sBytes := sB
  nBytes := nB
  sMem := []
  nMem := []
  sRegions := if sB = 0 then [] else regionsOf false l.desc.regions
  nRegions := if nB = 0 then [] else regionsOf true l.desc.regions
  sSpoil := []
  nSpoil := []
  copyStat := 0
  warps := []
  image := 0
  kept := []
  acqln := 0
  since := now
  restored := none

/-! ### Tasks (R25, R237) -/

/-- The tasks that the next warp of a core gathers: up to 32 of one launch and entry, in spawn order, once 32 wait or
the oldest has waited 256 cycles. A task that follows unperformed writes of its spawner is not there yet (R226). -/
def State.gathered (s : State) (core : Nat) : List Task :=
  let ts := (s.core core).tasks.filter fun t => !t.held
  let now := (s.cycles (core / 128)).toNat
  let same := fun (t : Task) => (ts.filter fun x => x.entry == t.entry && x.launch == t.launch).take 32
  match findBy (fun t => (same t).length == 32 || decide (t.born + 256 ≤ now)) ts with
  | some t => same t
  | none => []

/-- Forms a task warp, where there is room on the core (R25): it is a group of its own and no member of a gang (R22). -/
def State.gather (s : State) (core : Nat) : Option State :=
  match s.gathered core with
  | [] => none
  | t :: r =>
    match s.launch? t.launch with
    | none => none
    | some l =>
      if (s.core core).held.isSome then none
      else
        match s.placeWarps core 1 l.desc.regs with
        | some [(slot, base)] =>
          let ts := t :: r
          let mask := maskOf fun i => decide (i < ts.length)
          let targ := ts.zipIdx.foldl (fun m p => smSet 0 m p.2 p.1.targ) []
          let w := newWarp 0 slot 0 l.desc.regs base t.entry mask 32 true targ
          let g := { newGroup s.uid l core 0 0 1 0xFF 0 0 (s.tick47 / 47) with warps := [w], entry := t.entry, isGang := false }
          let k := s.core core
          let k' := { k with tasks := k.tasks.filter fun x => !(ts.any fun y => y.id == x.id) }
          some { s.setCore core k' with groups := s.groups ++ [g], uid := s.uid + 1 }
        | _ => none

/-- PARTIAL_TASK_WARP_TIMEOUT: a task warp is formed from the oldest tasks of a core (R25). -/
def execPartialTaskWarpTimeout (core : Nat) (s : State) : Host.Outcome State Fault Refusal :=
  match s.gather core with
  | some s' => .next s'
  | none => .refused (.notEnabled "PARTIAL_TASK_WARP_TIMEOUT")

end Sys2Proof.Machine
end

