-- ==== Sys2Proof/Machine/Sync.lean ====
section
/-! DEFINITION. Tasks, feeds, service calls and register re-division (R19, R20, R237 to R244). -/

namespace Sys2Proof.Machine

/-! ### Tasks (R237, R238) -/

/-- TSPAWN: each active lane in turn places one task in the core's pool of 1,024 (R237). -/
def execTspawn (x : OpE) (s : State) : Host.Outcome State Fault Refusal :=
  issue s (.tspawn x) fun c =>
    let ls := c.act x.m
    let entry := fun l => c.pair x.a.toNat l
    let arg := fun l => c.pair x.b.toNat l
    match findBy (fun l => (entry l).extractLsb' 0 2 != 0) ls with
    | some l => .next (raise s c 0x21 0 (entry l))
    | none =>
      match findBy (fun l => (arg l).extractLsb' 0 6 != 0) ls with
      | some l => .next (raise s c 0x26 0 (arg l))
      | none =>
        let k := s.core c.grp.core
        let room := 1024 - k.tasks.length
        let now := (s.cycles (c.grp.core / 128)).toNat
        let new := (ls.take room).zipIdx.map fun p => (⟨s.uid + p.2, true, entry p.1, arg p.1, c.grp.launch, c.grp.gid, now⟩ : Task)
        let placed := ls.take room
        let s1 := { s.setCore c.grp.core { k with tasks := k.tasks ++ new } with uid := s.uid + new.length }
        let s1 := s1.doAct c.grp c.cur.widx (.spawn (new.map fun t => t.id))
        .next (finish s1 c x.m false [(x.d.toNat, fun l => boolWord (!placed.contains l))] flag0)

/-- TEND: the active lanes of a gathered task warp end their tasks (R238). -/
def execTend (x : OpM) (s : State) : Host.Outcome State Fault Refusal :=
  issue s (.tend x) fun c =>
    .next (if !c.warp.task then illegal s c else endLanes s c (c.actMask x.m))

/-! ### Feeds (R239 to R242, R308, R309) -/

/-- The feed that a handle names in a table of a context (R308). -/
def State.feedNamed (s : State) (core asid : Nat) (table : DWord) (h : Nat) : Except XFault (Option (Nat × State)) :=
  if 15 < h then .ok none
  else
    let va := table + BitVec.ofNat 64 (8 * h)
    match s.translate core asid .read va with
    | .bad x => .error x
    | .ok a =>
      let desc := BitVec.ofNat 64 (s.homeNat a 8)
      if desc = 0 then .ok none
      else
        match s.openFeed core asid desc with
        | .error x => .error x
        | .ok q => .ok (some q)

/-- What a handle names for a group (R308): nothing, a feed of its launch, or the service feed for the root service
context, whose handle 0 names it where its launch has no table of feeds. -/
def State.feedOf (s : State) (g : Group) (h : Nat) : Except XFault (Option (Nat × State)) :=
  let table := match s.launch? g.launch with | some l => l.desc.feedtab | none => 0
  if table = 0 then
    if h = 0 ∧ g.kernel ∧ g.part = 0xFF then .ok (some (s.service (g.core / 128))) else .ok none
  else s.feedNamed g.core g.asid table h

/-- Writes a record's ring slot in memory (R308). -/
def State.writeRing (s : State) (core : Nat) (f : Feed) (seq : Nat) (ws : List Word) : State :=
  if f.asid = serviceAsid then s
  else
    match s.translate core f.asid .write (f.slotAt seq) with
    | .ok a => s.engineWrite core (putAt a (ws.flatMap fun w => natBytes 4 w.toNat))
    | .bad _ => s

/-- A wake of an unmapped feed: WAKEP is set and the descriptor's address goes to the firmware's mailbox, that of the core's die or,
for the front end, that of die 0 (R309, log 72). -/
def State.wakeFeed (s : State) (core num : Nat) : State :=
  match s.feed? num with
  | none => s
  | some f =>
    if f.mapped.isSome then s
    else ((s.setFeed { f with wakep := true }).saveFeed core num).notify (if core < portCore then core / 128 else 0) f.desc

/-- Appends a record to a feed with room, its bytes to be released (R240, R299); an unmapped feed is woken. -/
def State.appendFeed (s : State) (core : Nat) (f : Feed) (ws : List Word) : State :=
  let s := (s.setFeed (f.append ws false)).writeRing core f f.tail (recordWords ws f.tail)
  if f.mapped.isSome then s else s.wakeFeed core f.num

/-- Whether some record of a feed is unretired (R240, status 2). -/
def Feed.unretired (f : Feed) : Bool := f.recs.any fun r => !r.retired

/-- FAPP (R240): one record for the split, poppable once a device-scope release has landed. -/
def execFapp (x : OpE) (s : State) : Host.Outcome State Fault Refusal :=
  issue s (.fapp x) fun c =>
    if (c.act x.m).isEmpty then .next (finishPlain s c)
    else
      let l := c.low x.m
      let ws := (List.range 16).map fun i => c.reg (x.b.toNat + i) l
      let done := fun (s : State) (v : Nat) => finish s c x.m false [(x.d.toNat, fun _ => BitVec.ofNat 32 v)] flag0
      match s.feedOf c.grp (c.reg x.a.toNat l).toNat with
      | .error f => .next (xlatTrap s c true f)
      | .ok none => .next (done s 3)
      | .ok (some (num, s1)) =>
        match s1.feed? num with
        | none => .next (done s1 3)
        | some f =>
          if f.full then .next (done s1 1)
          else
            let st := if recordBar ws ∧ f.unretired then 2 else 0
            let s2 := (s1.appendFeed c.grp.core f ws).doAct c.grp c.cur.widx (.release .device false [.record num f.tail])
            .next (done s2 (256 * f.tail + st))

/-- FPOP (R241): one record for the split. -/
def execFpop (x : OpE2) (s : State) : Host.Outcome State Fault Refusal :=
  issue s (.fpop x) fun c =>
    if (c.act x.m).isEmpty then .next (finishPlain s c)
    else
      let l := c.low x.m
      let mask := c.actMask x.m
      let rs := span x.d.toNat 16
      let land := fun (s : State) (ws : List Word) (acq : Option Scope) =>
        finishFly s c false (flyOf mask (rs.zipIdx.map fun p => (p.1, List.replicate 32 (ws.getD p.2 0))) acq)
      let empty := List.replicate 16 (0xFFFFFFFF : Word)
      match s.feedOf c.grp (c.reg x.a.toNat l).toNat with
      | .error f => .next (xlatTrap s c false f)
      | .ok none => .next (raise s c 0x25 0 0)
      | .ok (some (num, s1)) =>
        match s1.feed? num with
        | none => .next (raise s1 c 0x25 0 0)
        | some f =>
          let take := match f.nextRec with
            | some r => if f.pops.isEmpty ∧ (f.mapped.isSome ∨ !c.deferring) then some r else none
            | none => none
          match take with
          | some r =>
            let key := c.key s1
            let s2 := (s1.setFeed { f.start r with bound := f.bound ++ [(key, r.seq)] })
            let s3 := if f.mapped.isSome then s2 else s2.saveFeed c.grp.core num
            .next (land s3 r.words (some .device))
          | none =>
            if !c.deferring then .next (land s1 empty none)
            else if 64 ≤ f.pops.length then
              .next (land (if f.mapped.isSome then s1 else s1.wakeFeed c.grp.core num) empty none)
            else
              let key := c.key s1
              let s2 := addFly s1 c (flyFor mask rs (some .device))
              let p : RegPop := ⟨c.cur.gid, c.cur.widx, key, (ownerWord c.grp.core c.warp.slot 0).toNat + 2 ^ 32 * c.grp.asid⟩
              let s3 := s2.setFeed { f with pops := f.pops ++ [p] }
              let s4 := if f.mapped.isSome then s3 else s3.wakeFeed c.grp.core num
              .next (finishPending s4 c key true mask rs)

/-- Whether a record has been popped: it has started, and it is not bound to a pop that has still to land (R241). -/
def Feed.popped (f : Feed) (r : FeedRec) : Bool := r.started && !(f.bound.any fun b => b.2 == r.seq)

/-- FRET (R242): a device-scope release, whose landing marks the popped record as retired. -/
def execFret (x : OpE) (s : State) : Host.Outcome State Fault Refusal :=
  issue s (.fret x) fun c =>
    if (c.act x.m).isEmpty then .next (finishPlain s c)
    else
      let l := c.low x.m
      let seq := (c.reg x.b.toNat l).toNat % 2 ^ 24
      let done := fun (s : State) (v : Word) => finish s c x.m false [(x.d.toNat, fun _ => v)] flag0
      let rel := fun (s : State) (after : List After) => s.doAct c.grp c.cur.widx (.release .device false after)
      match s.feedOf c.grp (c.reg x.a.toNat l).toNat with
      | .error f => .next (xlatTrap s c true f)
      | .ok none => .next (done (rel s []) 3)
      | .ok (some (num, s1)) =>
        match s1.feed? num with
        | none => .next (done (rel s1 []) 3)
        | some f =>
          match findBy (fun r => r.seq == seq && f.popped r && !r.retiring && !r.retired) f.recs with
          | none => .next (done (rel s1 []) 1)
          | some _ =>
            let f' := { f with recs := updateBy (fun r => r.seq == seq) (fun r => { r with retiring := true }) f.recs }
            .next (done (rel (s1.setFeed f') [.retire num seq]) 0)

/-! ### Service calls (R243, R325 to R328) -/

/-- The clusters of a die that a partition holds (R343). -/
def Part.clustersOn (p : Part) (die : Nat) : Nat := (p.clusters.filter fun k => k / 16 == die).length

/-- Whether a class is served (R328). -/
def classServed (k : Nat) : Bool := decide (k ≤ 8) || (decide (64 ≤ k) && decide (k ≤ 127) && Config.siteClass k)

/-- The share of a per-die pool that a partition has: places of clusters that no partition holds stay unused (R343). -/
def State.share (s : State) (part die size : Nat) : Nat := size * (s.part part).clustersOn die / 16

/-- The lowest sheaf buffer of a die that is free. -/
def Die.freeSheaf (d : Die) : Option Nat := findBy (fun i => !(smGet Sheaf.free d.sheafs i).live) (List.range 1024)

/-- The live sheaf buffers of a die that a partition's share counts. -/
def State.sheavesOf (s : State) (die payer : Nat) : Nat :=
  ((s.die die).sheafs.filter fun p => p.2.live && p.2.payer == payer).length

/-- Whether the share of sheaf buffers or of the service feed that a call is charged to is full (R325, R327, R343). -/
def State.callFull (s : State) (die payer : Nat) : Bool :=
  decide (s.share payer die 1024 ≤ s.sheavesOf die payer) || decide (s.share payer die 3840 ≤ s.noticePlaces die payer)

/-- The bytes of a sheaf (R325). -/
def sheafBytes (s : State) (c : Ctx) (mask handle : Word) (cls : Nat) (args : List (List Word)) : List Byte :=
  natBytes 64 (handle.toNat + 2 ^ 32 * cls + 2 ^ 40 * c.grp.part + 2 ^ 48 * c.grp.asid
      + 2 ^ 64 * (ownerWord c.grp.core c.warp.slot 0).toNat + 2 ^ 96 * mask.toNat + 2 ^ 128 * s.ticks.toNat)
    ++ (List.range 32).flatMap fun l => (args.getD l []).flatMap fun w => natBytes 4 w.toNat

/-- SVC (R243): the active lanes' arguments go in one sheaf to the service feed of the die, and the answer pair is
event-pending; a refused call lands the rejected pair. -/
def execSvc (x : OpE) (s : State) : Host.Outcome State Fault Refusal :=
  issue s (.svc x) fun c =>
    let mask := c.actMask x.m
    let cls := x.b.toNat
    let die := c.grp.core / 128
    let rs := pair x.d.toNat
    if !c.deferring then .next (illegal s c)
    else if (c.act x.m).isEmpty then .next (finishPlain s c)
    else
      let s1 := s.doAct c.grp c.cur.widx (.release .device false [])
      let payer := s1.payer c.grp.part
      match (if s1.callFull die payer || !classServed cls then none else (s1.die die).freeSheaf) with
      | none =>
        .next (finishFly s1 c true (flyOf mask (rs.map fun r => (r, List.replicate 32 0xFFFFFFFF)) (some .device)))
      | some i =>
        let old := smGet Sheaf.free (s1.die die).sheafs i
        let gen := old.gen
        let handle := sheafHandle die gen i
        let args := (List.range 32).map fun l =>
          (List.range 4).map fun j => if mask.getLsbD l then c.reg (x.a.toNat + j) l else 0
        let key := c.key s1
        let s2 := addFly s1 c (flyFor mask rs (some .device))
        let d := s2.die die
        let sh : Sheaf := ⟨true, gen, c.cur.gid, c.cur.widx, mask, cls, args, key, c.grp.asid, c.grp.part, payer, old.past⟩
        let s3 := s2.setDie die { d with sheafs := smSet Sheaf.free d.sheafs i sh }
        let at_ := Config.sheafArea die + 576 * i
        let s5 := s3.doAct c.grp c.cur.widx (.call die payer (putAt at_ (sheafBytes s c mask handle cls args))
          [0x80000002, 0, handle, BitVec.ofNat 32 c.grp.part, BitVec.ofNat 32 at_, BitVec.ofNat 32 (at_ / 2 ^ 32)])
        .next (finishPending s5 c key true mask rs)

/-! ### Register re-division (R19, R20, R244) -/

/-- The registers that an RGIVE releases. -/
def Warp.released (w : Warp) (k : Nat) : List Nat := span (w.window - 8 * k) (8 * k)

/-- RGIVE (R19, R244). -/
def execRgive (x : OpGive) (s : State) : Host.Outcome State Fault Refusal :=
  issue s (.rgive x) fun c =>
    let k := x.k.toNat
    let rs := c.warp.released k
    if c.warp.window < 8 * k + 8 then .next (illegal s c)
    else
      match findBy (fun r => c.warp.eventPending r || c.warp.held r) rs with
      | some r => .next (raise s c 2 (BitVec.ofNat 32 r) 0)
      | none =>
        if rs.any c.warp.pending then .next { s with cur := none }
        else
          let q := c.warp.slot % 4
          let s1 := (finishPlain s c).updGroup c.cur.gid fun g => { g with pools := g.pools.set q (g.pools.getD q 0 + k) }
          .next (s1.updWarp c.cur.gid c.cur.widx fun w => { w with
            window := w.window - 8 * k
            poison := w.poison.filter fun key => decide (key / 32 < w.window - 8 * k) })

/-- Packs the windows of an issue partition of a core, in slot order: what in-core compaction reaches (R27). -/
def State.packWindows (s : State) (core q : Nat) : State :=
  let ws := ((s.residents core).flatMap fun g => (g.warps.filter fun w => !w.ended && w.slot % 4 == q).map fun w => (g.gid, w.idx, w.window))
  (ws.foldl (fun p w => (p.1.updWarp w.1 w.2.1 fun x => { x with wbase := p.2 }, p.2 + w.2.2)) (s, 0)).1

/-- RCLAIM (R20, R244): granules from the pool, which read zero; the window is relocated where it must be. -/
def execRclaim (x : OpClaim) (s : State) : Host.Outcome State Fault Refusal :=
  issue s (.rclaim x) fun c =>
    let k := x.k.toNat
    let q := c.warp.slot % 4
    let n := c.warp.window + 8 * k
    let have_ := c.grp.pools.getD q 0
    if 128 < n then .next (illegal s c)
    else if have_ < k then .next (finish s c none false [(x.d.toNat, fun _ => 0)] flag0)
    else
      let s1 := finish s c none false [(x.d.toNat, fun _ => 1)] flag0
      let s2 := s1.updGroup c.cur.gid fun g => { g with pools := g.pools.set q (have_ - k) }
      let others := ((s.residents c.grp.core).flatMap fun g =>
        (g.warps.filter fun w => !w.ended && w.slot % 4 == q && !(g.gid == c.cur.gid && w.idx == c.cur.widx)).map fun w =>
          (w.wbase, w.window))
      let f := fun (base : Nat) (w : Warp) => { w with
        wbase := base
        window := n
        regs := w.regs.filter fun p => decide (p.1 / 32 < c.warp.window) }
      if windowFits others c.warp.wbase n then .next (s2.updWarp c.cur.gid c.cur.widx (f c.warp.wbase))
      else
        match fitWindow others 0 n with
        | some b => .next (s2.updWarp c.cur.gid c.cur.widx (f b))
        | none => .next ((s2.updWarp c.cur.gid c.cur.widx (f c.warp.wbase)).packWindows c.grp.core q)

end Sys2Proof.Machine
end

