-- ==== Sys2Proof/Machine/Network.lean ====
section
/-! DEFINITION. The network and storage instructions (R246 to R248, R259 to R263) and their completions, with orphans
(R339, R340). What a peer or a target answers is an argument of the completion. -/

namespace Sys2Proof.Machine

/-! ### Issue -/

/-- Network operations by kind: 0 NWR, 1 NRD, 2 NATM, 3 NSND, 4 NWATCH; 6 a store to a peer window that a system-scope
release sends, 7 the fill of a peer line, 8 an ATOM to a peer window. -/
def OpKind.netKind : OpKind → Option Nat
  | .net k => some k
  | _ => none

/-- The network commands outstanding on a die that a partition's share counts, those that drain as orphans among them (R343). -/
def State.netQueue (s : State) (die part : Nat) : Nat :=
  (s.ops.filter fun o => decide (o.core / 128 = die) && (match o.kind with | .net k => decide (k ≤ 3) | _ => false)
    && o.payer == part).length

/-- The storage commands outstanding on a die that a partition's share counts, those that drain as orphans among them (R343). -/
def State.storageQueue (s : State) (die part : Nat) : Nat :=
  (s.ops.filter fun o => decide (o.core / 128 = die) && (match o.kind with | .storage _ => true | _ => false)
    && o.payer == part).length

/-- Whether the share of a network queue that the issuing warp's commands are charged to is full (R259, R343). -/
def Ctx.netFull (s : State) (c : Ctx) : Bool :=
  let die := c.grp.core / 128
  let p := s.payer c.grp.part
  decide (s.share p die 256 ≤ s.netQueue die p)

/-- Whether the share of a storage queue that the issuing warp's commands are charged to is full (R262, R343). -/
def Ctx.storageFull (s : State) (c : Ctx) : Bool :=
  let die := c.grp.core / 128
  let p := s.payer c.grp.part
  decide (s.share p die 128 ≤ s.storageQueue die p)

/-- The remote operand of a network instruction (R259): the address in a peer window, or an exception. -/
def remoteOperand (s : State) (c : Ctx) (i : Instr) (a l : Nat) (wr : Bool) : Except State Nat :=
  let va := c.pair a l
  if !canonical va then .error (raise s c 0x25 0 va)
  else
    match s.translate c.grp.core c.grp.asid (if wr then .write else .read) va with
    | .bad f => .error (if c.kindOne then deferAccess s c i wr [f] else xlatTrap s c wr f)
    | .ok p => if isPeer p then .ok p else .error (raise s c 0x25 0 va)

/-- Whether a local address is one that a network or storage operation may name (R259). -/
def badLocal (s : State) (c : Ctx) (laddr : DWord) (wr : Bool) : Bool :=
  if !canonical laddr then true
  else match s.translate c.grp.core c.grp.asid (if wr then .write else .read) laddr with
    | .ok p => isPeer p
    | .bad _ => false

/-- What a network or storage operation keeps: LADDR, LEN, CTRL, the operand words, the remote address and the .DLV or
.FUA bit. -/
def netArgs (ws : List Word) (remote : Nat) (v : Bool) : List Word :=
  ws.take 8 ++ [BitVec.ofNat 32 remote, BitVec.ofNat 32 (remote / 2 ^ 32), BitVec.ofNat 32 (remote / 2 ^ 64), if v then 1 else 0]

/-- The fields of an operation in progress. -/
def EngOp.laddr (o : EngOp) : Nat := (join64 (o.args.getD 0 0) (o.args.getD 1 0)).toNat
def EngOp.len (o : EngOp) : Nat := (o.args.getD 2 0).toNat
def EngOp.remote (o : EngOp) : Nat := wordsNat ((o.args.drop 8).take 3)
def EngOp.delivered (o : EngOp) : Bool := o.args.getD 11 0 == 1

/-- The traffic class and the ordered flow that CTRL names (R259). -/
def EngOp.lane (o : EngOp) : Lane :=
  let ctl := (o.args.getD 3 0).toNat
  (bitsOf ctl 9 3, if bitsOf ctl 8 1 = 1 then some (bitsOf ctl 0 8) else none)

/-- Whether the operation has been handed off, or its watch registered. -/
def EngOp.handed (o : EngOp) : Bool := decide (12 < o.args.length)

/-- Marks an operation as handed off. -/
def State.handOff (s : State) (o : EngOp) : State :=
  { s with ops := updateBy (fun x => x.id == o.id) (fun x => { x with args := x.args ++ [1], signal := none }) s.ops }

/-- A network or storage operation of the issuing warp: one of a closure has the closure's number, which a release may await
(R150). -/
def Ctx.netOp (s t : State) (c : Ctx) (k : OpKind) (m : Option Modifier) (args : List Word) : EngOp :=
  let o := { c.engOp t k m args with payer := s.payer c.grp.part }
  match c.cur.clo.bind c.warp.closure? with
  | some x => { o with id := x.id }
  | none => o

/-- Starts an operation that passed its checks: with a signal, or with a pair that lands. `n` registers land. -/
def startNet (s : State) (c : Ctx) (m : Option Modifier) (d n : Nat) (k : OpKind) (args : List Word) (reg event : Bool)
    (sig : Option Signal) (locks : Nat → List Lock) : State :=
  if reg then
    let key := c.key s
    let rs := span d n
    let s1 := addFly s c (flyFor (c.actMask m) rs none)
    let o := { c.netOp s s1 k m args with fly := key }
    finishPending (s1.startOp o (locks o.id)) c key event (c.actMask m) rs
  else
    let o := { c.netOp s s k m args with signal := sig }
    finishStatus (s.startOp o (locks o.id)) c m d 0

/-- An issue failure: a status, or in the register form a pair that lands at once (R259). -/
def failNet (s : State) (c : Ctx) (m : Option Modifier) (d : Nat) (reg : Bool) (k : Nat) : State :=
  if reg then finishFly s c true (flyOf (c.actMask m) [(d, List.replicate 32 (BitVec.ofNat 32 k)), (d + 1, List.replicate 32 0)] none)
  else finishStatus s c m d k

/-- The lock of a far range (R322). -/
def farLock (c : Ctx) (lo n : Nat) (id : Nat) : List Lock := if n = 0 then [] else [⟨id, 2, c.grp.asid, c.grp.gid, lo, n⟩]

/-- Whether a register form lands a pair that is odd or reaches beyond the window (R26, R28, R259). -/
def Ctx.badPair (c : Ctx) (d : Nat) : Bool := decide (d % 2 = 1) || decide (c.warp.window ≤ d + 1)

/-- NWR, NRD and NSND (R259, R260): kind 0, 1 or 3. `target` gives the remote address or handle, an issue status, or an
exception. -/
def doNet (s : State) (i : Instr) (d b k maxLen : Nat) (v : Bool) (target : Ctx → Nat → Except State (Option Nat)) :
    Host.Outcome State Fault Refusal :=
  single s i fun c l =>
    let m := i.modifier
    let ws := c.words b 8 l
    let laddr := (join64 (ws.getD 0 0) (ws.getD 1 0))
    let len := (ws.getD 2 0).toNat
    let ctl := (ws.getD 3 0).toNat
    let reg := decide (bitsOf ctl 12 1 = 1)
    if reg && (!c.deferring || c.badPair d) then .next (illegal s c)
    else
      match target c l with
      | .error t => .next t
      | .ok tgt =>
        let sig := if reg then SigCheck.ok ⟨0, 0, 0⟩ else s.checkSignal c.grp (ws.getD 4 0) (ws.getD 5 0)
        match sig with
        | .illegal => .next (raise s c 0x20 (ws.getD 4 0) 0)
        | _ =>
          let sigSt := match sig with | .status n => n | _ => 0
          let fail := fun n => Host.Outcome.next (failNet s c m d reg n)
          if badLocal s c laddr (k == 1) then .next (raise s c 0x25 0 laddr)
          else if bitsOf ctl 15 17 ≠ 0 ∨ 6 ≤ bitsOf ctl 9 3 ∨ laddr.toNat % 4 ≠ 0 ∨ len % 4 ≠ 0 ∨ sigSt = 2 then fail 2
          else if tgt.isNone ∨ maxLen < len ∨ sigSt = 4 then fail 4
          else if c.netFull s || !s.lockRoom c.grp.core 1 then fail 1
          else
            if reg && !(c.extraWaits [d + 1]).isEmpty then .next (captureBehind s c i [d + 1] (c.extraWaits [d + 1]))
            else .next (startNet s c m d 2 (.net k) (netArgs ws (tgt.getD 0) v) reg true
              (match sig with | .ok y => some y | _ => none) (farLock c laddr.toNat len))

/-- NWR (R260). -/
def execNwr (x : OpNet) (s : State) : Host.Outcome State Fault Refusal :=
  doNet s (.nwr x) x.d.toNat x.b.toNat 0 0x1000000 x.v fun c l => (remoteOperand s c (.nwr x) x.a.toNat l true).map some

/-- NRD (R260). -/
def execNrd (x : OpE) (s : State) : Host.Outcome State Fault Refusal :=
  doNet s (.nrd x) x.d.toNat x.b.toNat 1 0x1000000 true fun c l => (remoteOperand s c (.nrd x) x.a.toNat l false).map some

/-- The connection that a handle names for a context. -/
def State.conn? (s : State) (asid h : Nat) : Option Conn := findBy (fun x => x.handle == h && x.asid == asid) s.conns

/-- NSND (R260): an unknown handle has the bounds status. -/
def execNsnd (x : OpNet) (s : State) : Host.Outcome State Fault Refusal :=
  doNet s (.nsnd x) x.d.toNat x.b.toNat 3 65536 x.v fun c l =>
    .ok ((s.conn? c.grp.asid (c.reg x.a.toNat l).toNat).map fun y => y.handle)

/-- NATM (R259, R260): the old value and the status land. -/
def execNatm (x : OpNet) (s : State) : Host.Outcome State Fault Refusal :=
  single s (.natm x) fun c l =>
    let ws := c.words x.b.toNat 8 l
    let ctl := (ws.getD 3 0).toNat
    let d := x.d.toNat
    if bitsOf ctl 12 1 = 1 ∧ !c.deferring then .next (illegal s c)
    else match remoteOperand s c (.natm x) x.a.toNat l true with
    | .error t => .next t
    | .ok p =>
      let bad := bitsOf ctl 15 17 ≠ 0 ∨ 6 ≤ bitsOf ctl 9 3
      let now := fun (k : Nat) => finishFly s c c.deferring (flyOf (c.actMask x.m)
        [(d, List.replicate 32 0), (d + 1, List.replicate 32 0), (d + 2, List.replicate 32 (BitVec.ofNat 32 k))] none)
      if bad then .next (now 2)
      else if c.netFull s then .next (now 1)
      else .next (startNet s c x.m d 3 (.net 2) (netArgs ws p x.v) true c.deferring none fun _ => [])

/-- NWATCH (R261). -/
def execNwatch (x : OpE2) (s : State) : Host.Outcome State Fault Refusal :=
  single s (.nwatch x) fun c l =>
    if !c.deferring then .next (illegal s c)
    else
      match remoteOperand s c (.nwatch x) x.a.toNat l false with
      | .error t => .next t
      | .ok p =>
        .next (startNet s c x.m x.d.toNat 1 (.net 4) (netArgs (List.replicate 8 0) p false) true true none fun _ => [])

/-! ### Storage (R262, R263) -/

/-- The namespace that a handle names for a context. -/
def State.namespace? (s : State) (asid h : Nat) : Option Namespace :=
  findBy (fun x => x.handle == h && x.asid == asid) s.namespaces

/-- The commands outstanding in the queue pair of a handle on a die (R338). -/
def State.queuePair (s : State) (die asid h : Nat) : Nat :=
  (s.ops.filter fun o => decide (o.core / 128 = die) && o.asid == asid && (match o.kind with | .storage _ => true | _ => false)
    && decide ((o.args.getD 3 0).toNat = h)).length

/-- STRD, STWR and STFL: kind 0, 1 or 2. -/
def doStorage (s : State) (i : Instr) (d a b k : Nat) (fua : Bool) : Host.Outcome State Fault Refusal :=
  single s i fun c l =>
    let m := i.modifier
    let ws := c.words b 8 l
    let laddr := (join64 (ws.getD 0 0) (ws.getD 1 0))
    let nblk := (ws.getD 2 0).toNat
    let ctl := (ws.getD 3 0).toNat
    let reg := decide (bitsOf ctl 12 1 = 1)
    let h := (c.reg a l).toNat
    if reg && (!c.deferring || c.badPair d) then .next (illegal s c)
    else
      let sig := if reg then SigCheck.ok ⟨0, 0, 0⟩ else s.checkSignal c.grp (ws.getD 4 0) (ws.getD 5 0)
      match sig with
      | .illegal => .next (raise s c 0x20 (ws.getD 4 0) 0)
      | _ =>
        let sigSt := match sig with | .status n => n | _ => 0
        let fail := fun n => Host.Outcome.next (failNet s c m d reg n)
        let data := k != 2
        if data && badLocal s c laddr (k == 0) then .next (raise s c 0x25 0 laddr)
        else if ctl ≠ 4096 * bitsOf ctl 12 1 ∨ (data && decide (laddr.toNat % 64 ≠ 0)) ∨ sigSt = 2 then fail 2
        else
          match s.namespace? c.grp.asid h with
          | none => fail 4
          | some ns =>
            let len := if data then nblk * ns.block else 0
            if sigSt = 4 ∨ (data && (decide (nblk = 0) || decide (512 < nblk) || decide (0x200000 < len))) then fail 4
            else if c.storageFull s = true
                ∨ 128 ≤ s.queuePair (c.grp.core / 128) c.grp.asid h ∨ (data && !s.lockRoom c.grp.core 1) then fail 1
            else
              let args := [ws.getD 0 0, ws.getD 1 0, BitVec.ofNat 32 len, BitVec.ofNat 32 h, ws.getD 6 0, ws.getD 7 0,
                BitVec.ofNat 32 nblk, 0, 0, 0, 0, if fua then 1 else 0]
              if reg && !(c.extraWaits [d + 1]).isEmpty then .next (captureBehind s c i [d + 1] (c.extraWaits [d + 1]))
              else .next (startNet s c m d 2 (.storage k) args reg true (match sig with | .ok y => some y | _ => none)
                (farLock c laddr.toNat len))

/-- STRD (R262). -/
def execStrd (x : OpE) (s : State) : Host.Outcome State Fault Refusal :=
  doStorage s (.strd x) x.d.toNat x.a.toNat x.b.toNat 0 false

/-- STWR (R262). -/
def execStwr (x : OpNet) (s : State) : Host.Outcome State Fault Refusal :=
  doStorage s (.stwr x) x.d.toNat x.a.toNat x.b.toNat 1 x.v

/-- STFL (R262, R263). -/
def execStfl (x : OpE) (s : State) : Host.Outcome State Fault Refusal :=
  doStorage s (.stfl x) x.d.toNat x.a.toNat x.b.toNat 2 false

/-! ### Orphans (R339, R340) -/

/-- Logs an orphan completion: into its partition's ring and the root's, OSEQ written last (R340). -/
def State.logOrphan (s : State) (kind asid part : Nat) (ref : DWord) (status nvst : Nat) : State :=
  let n := s.orphans + 1
  let entry := natBytes 32 (nvst * 2 ^ 48 + status * 2 ^ 64 + kind * 2 ^ 72 + asid * 2 ^ 80 + n * 2 ^ 96 + ref.toNat * 2 ^ 128
    + s.ticks.toNat * 2 ^ 192)
  let put := fun (s : State) (p : Nat) =>
    let log := (s.part p).orphlog
    if log = 0 then s else s.engineWrite 0 (putAt (log.toNat + 32 * (n % 1024)) entry)
  let s := put { s with orphans := n } part
  if part = 0xFF then s else put s 0xFF

/-- Ends an operation of a context that has ended: its completion is discarded and logged (R339). -/
def State.dropOrphan (s : State) (o : EngOp) (kind status nvst : Nat) : State :=
  let ref := if o.kind.netKind == some 4 then BitVec.ofNat 64 (peerRemote o.remote) else BitVec.ofNat 64 o.laddr
  (({ s with ops := s.ops.filter fun x => x.id != o.id }).unlock o.core o.id).logOrphan kind o.asid o.part ref status nvst

/-- Ends an operation with a status: its pair lands, or its signal is given (R259, R262). -/
def State.endNet (s : State) (o : EngOp) (status : Nat) (second : Nat) : State :=
  let s := s.endOp o status
  if o.fly = 0 then s else s.landWords o.fly [BitVec.ofNat 32 status, BitVec.ofNat 32 second]

/-- The bytes that an operation sends: the issuing core's snapshot at issue with its own stores (R260). -/
def State.outgoing (s : State) (o : EngOp) (m : VaMap) : List Byte :=
  (List.range o.len).map fun i => s.engByte o.core o.part o.snap (vaAt m (o.laddr + i))

/-- Whether some byte that an operation sends is poisoned (R348). -/
def State.outgoingBad (s : State) (o : EngOp) (m : VaMap) : Bool :=
  (List.range o.len).any fun i => s.markFor o.core o.part (sectorOf (vaAt m (o.laddr + i))) != 0

/-- Writes incoming data at LADDR as stores of the issuing core (R260). -/
def State.incoming (s : State) (o : EngOp) (m : VaMap) (bs : List Byte) : State :=
  let ws := bs.zipIdx.map fun p => (vaAt m (o.laddr + p.2), p.1)
  (s.storeFar (s.opCore o) o.gid o.asid o.part ws []).raceStore o.part (s.opCore o) o.gid (ws.map fun p => p.1)

/-- The peer window that a network operation names. -/
def EngOp.window (o : EngOp) : Nat := if o.kind == .net 8 then (o.args.getD 1 0).toNat else peerIndex o.remote

/-- The module that an operation goes to. -/
def State.target (s : State) (o : EngOp) : Nat :=
  if o.kind == .net 3 then ((s.conn? o.asid o.remote).map fun y => y.peer).getD 0 else (s.peerFields o.window).peer

/-- The class and the flow of a network operation: those of CTRL, or for an ATOM those of its peer entry (R259, R331). -/
def State.laneOf (s : State) (o : EngOp) : Lane :=
  if o.kind == .net 8 then ((s.peerFields o.window).tc, some (s.peerFields o.window).flow) else o.lane

/-- The network operations that an ordered flow keeps in issue order. -/
def ordered (k : Nat) : Bool := decide (k ≤ 3) || k == 8

/-- Whether an operation must wait before it goes out: on one ordered flow operations go out in issue order (R149,
R260), one core's storage commands on overlapping blocks of a handle perform in issue order, and a flush follows every
earlier write of its core (R262, R263). -/
def State.sendWaits (s : State) (o : EngOp) : Bool :=
  let lba := fun (x : EngOp) => (join64 (x.args.getD 4 0) (x.args.getD 5 0)).toNat
  let n := fun (x : EngOp) => (x.args.getD 6 0).toNat
  s.ops.any fun p => decide (p.id < o.id) &&
    match o.kind, p.kind with
    | .net k, .net j =>
      ordered k && ordered j && (s.laneOf o).2.isSome && s.laneOf p == s.laneOf o && p.out.isNone && !p.orphan
        && s.target p == s.target o
    | .storage k, .storage j =>
      p.core == o.core && p.args.getD 3 0 == o.args.getD 3 0 && p.asid == o.asid
        && (if k = 2 then j == 1 else j != 2 && meets (lba p) (n p) (lba o) (n o))
    | _, _ => false

/-- Sends a storage command with its data (R338): opcode, NSID, LBA, NLB and CDW12's FUA bit. -/
def State.sendStorage (s : State) (o : EngOp) (k : Nat) (bs : List Byte) : State :=
  match s.namespace? o.asid (o.args.getD 3 0).toNat with
  | none => s
  | some ns =>
    let nlb := BitVec.ofNat 64 ((o.args.getD 6 0).toNat - 1)
    let at_ := join64 (o.args.getD 4 0) (o.args.getD 5 0)
    let fua : DWord := if o.delivered then 2 ^ 30 else 0
    s.sendCapsule ns.target ns.handle o.asid (match k with
      | 0 => [2, BitVec.ofNat 64 ns.nsid, at_, nlb]
      | 1 => [1, BitVec.ofNat 64 ns.nsid, at_, nlb, fua] ++ packData bs
      | _ => [0, BitVec.ofNat 64 ns.nsid])

/-- Sends the message of a network operation (R260). -/
def State.sendNet (s : State) (o : EngOp) (k : Nat) (bs : List Byte) : State :=
  let w := peerIndex o.remote
  let r := BitVec.ofNat 64 (peerRemote o.remote)
  let ctl := (o.args.getD 3 0).toNat
  match k with
  | 0 => s.sendPeer 0 w (some o.lane) o.asid ([r, BitVec.ofNat 64 o.len] ++ packData bs)
  | 1 => s.sendPeer 1 w (some o.lane) o.asid [r, BitVec.ofNat 64 o.len]
  | 2 => s.sendPeer 2 w (some o.lane) o.asid [atomCode (bitsOf ctl 14 1 == 1) (bitsOf ctl 13 1 == 1), r,
      join64 (o.args.getD 4 0) (o.args.getD 5 0), join64 (o.args.getD 6 0) (o.args.getD 7 0)]
  | 3 =>
    match s.conn? o.asid o.remote with
    | some y => s.send ⟨3, y.peer, o.lane.1, o.lane.2, 0, 0, 0, o.asid, [BitVec.ofNat 64 y.remote, BitVec.ofNat 64 o.len] ++ packData bs⟩
    | none => s
  | 8 => s.sendPeer 2 o.window none o.asid ((o.args.getD 0 0).setWidth 64 ::
      (List.range ((o.args.length - 2) / 2)).map fun i => join64 (o.args.getD (2 * i + 2) 0) (o.args.getD (2 * i + 3) 0))
  | _ => s.sendPeer 4 w (some (6, none)) o.asid [r, BitVec.ofNat 64 o.id]

/-- Whether a message carries bytes of the operation's own range. -/
def OpKind.carries (k : OpKind) : Bool := k == .net 0 || k == .net 3 || k == .storage 1

/-- Lets an operation go out; one that carries data reads its range first, and a fault parks it (R128, R260). -/
def State.goOut (s : State) (o : EngOp) : State :=
  let post := fun (s : State) (bs : List Byte) =>
    match o.kind with
    | .net k => s.sendNet o k bs
    | .storage k => s.sendStorage o k bs
    | _ => s
  let mark := fun (s : State) (bad : Bool) =>
    { s with ops := updateBy (fun x => x.id == o.id) (fun x => { x with out := some bad }) s.ops }
  if o.kind.carries then
    match s.mapRanges o.core o.asid .read [(o.laddr, o.len)] with
    | .error f => s.parkOp o false f
    | .ok m => { mark (post s (s.outgoing o m)) (s.outgoingBad o m) with free := s.free + 1 }
  else mark (post s []) false

/-- The oldest operation that may go out now. -/
def State.nextOut (s : State) : Option EngOp :=
  findBy (fun o => o.out.isNone && !o.parked && !o.orphan && (match o.kind with | .net k => decide (k ≤ 4) || k == 8 | .storage _ => true | _ => false)
    && !s.sendWaits o) s.ops

/-- Lets every operation go out that may. -/
def State.sendOps (s : State) : Nat → State
  | 0 => s
  | fuel + 1 =>
    match s.nextOut with
    | none => s
    | some o => (s.goOut o).sendOps fuel

/-! ### NETWORK_COMPLETION and NETWORK_TIMEOUT (R223, R224, R259, R260) -/

/-- The peer line that an operation of kind 7 asks for. -/
def EngOp.line (o : EngOp) : Nat := match o.lanes with | ws :: _ => wordsNat ws | [] => 0

/-- Whether an access of a load waits for a peer line. -/
def Todo.onLine (t : Todo) (line : Nat) : Bool :=
  match t.loc with
  | some (.phys a) => t.waiting && a / 128 == line
  | _ => false

/-- The lines that a phase cache of 256 KiB holds (R6). -/
def phaseCacheLines : Nat := 2048

/-- A core's phase cache takes a peer line in; beyond its 2,048 lines the oldest is evicted (R6, R223). -/
def Core.cacheLine (k : Core) (line : Nat) (data : List Byte) : Core :=
  let ls := (k.peerLines.filter fun p => p.1 != line) ++ [(line, data)]
  { k with peerLines := ls.drop (ls.length - phaseCacheLines) }

/-- Closures that await an operation wake. -/
def State.wakeAll (s : State) (id : Nat) : State :=
  { s with groups := s.groups.map fun g => { g with warps := g.warps.map fun w => w.wake id } }

/-- Fills a line of a core's phase cache and lets the loads and records that wait for it read it (R223, R253). Of the core's own
stores to the line it does not show those that were on their way when it was asked for, and later ones (R138). -/
def State.fillLine (s : State) (o : EngOp) (data : List Byte) : State :=
  let k := s.core o.core
  let unseen := fun (x : Nat × Byte × Nat) => x.1 / 128 != o.line || o.snap.contains x.2.2 || decide (o.id < x.2.2)
  let s := s.setCore o.core { k.cacheLine o.line data with peerOwn := k.peerOwn.filter unseen }
  let s := { s with ops := s.ops.filter fun x => x.id != o.id }.wakeAll o.id
  let free := fun (t : Todo) => if t.onLine o.line then { t with waiting := false } else t
  s.updFly o.fly fun f => { f with todo := f.todo.map free }

/-- A remote read that fails poisons the lanes that wait for it (R223); their values nothing constrains. A record that waits for it
is asked for again (DESIGN CHOICE, log 83). -/
def State.failLine (s : State) (o : EngOp) : State :=
  let v := s.freeValue
  let s := { v.2 with ops := v.2.ops.filter fun x => x.id != o.id }.wakeAll o.id
  s.updFly o.fly fun f =>
    (f.todo.filter fun t => t.onLine o.line).foldl (fun f t =>
      (f.drop t).answer t.mask (f.vals.map fun _ => v.1) true) f

/-- The answers of an ATOM to a peer window: 8 bytes a lane (R224). -/
def State.remoteAnswers (s : State) (o : EngOp) (data : List Byte) (bad : Bool) : State :=
  let ls := match o.lanes with | ws :: _ => ws | [] => []
  let v := s.freeValue
  let s := { v.2 with ops := v.2.ops.filter fun x => x.id != o.id }
  ls.zipIdx.foldl (fun s p =>
    let n := bytesNat ((data.drop (8 * p.2)).take 8)
    let l := p.1.toNat
    let ws := if bad then [v.1, v.1] else [BitVec.ofNat 32 n, BitVec.ofNat 32 (n / 2 ^ 32)]
    let mark := fun (f : Fly) => if bad then { f with poison := f.poison ++ f.vals.map fun q => regKey q.1 l } else f
    s.updFly o.fly fun f => mark (f.take l ws)) s

/-- What completes a network operation with a status; none where it does not happen so. `late` tells of no answer. A
watch that is cancelled or orphaned stays until its notification, which is logged (R337, R339). -/
def State.completeNet (s : State) (o : EngOp) (k status : Nat) (data : List Byte) (late : Bool) : Option State :=
  let gone := { s with ops := s.ops.filter fun x => x.id != o.id }
  if o.parked || (o.out.isNone && (decide (k ≤ 4) || k == 8) && !late) then none
  else if k = 4 ∧ o.handed then none
  else if o.orphan then
    if k = 4 ∧ status = 0 then some (s.handOff o)
    else if k = 4 ∧ (s.context o.asid).state != .quarantined then some gone
    else some (s.dropOrphan o 2 status 0)
  else
    match k with
    | 0 | 3 =>
      let st := if o.out == some true then 5 else status
      if o.handed then some gone
      else if late then some (s.endNet o 2 0)
      else if o.delivered then some (s.endNet o st 0)
      else if status ≠ 0 then none
      else
        let s2 := s.unlock o.core o.id
        let s3 := (s2.handOff o).giveSignal? o.signal st
        some (if o.fly = 0 then s3 else s3.landWords o.fly [BitVec.ofNat 32 st, 0])
    | 1 =>
      if status ≠ 0 then some (s.endNet o status 0)
      else if data.length ≠ o.len then none
      else
        match s.mapRanges o.core o.asid .write [(o.laddr, o.len)] with
        | .error f => some (s.parkOp o true f)
        | .ok m => some ((s.incoming o m data).endNet o 0 0)
    | 2 =>
      let n := bytesNat (data.take 8)
      let hi := if (o.args.getD 3 0).getLsbD 13 then n / 2 ^ 32 else 0
      let v : List Word := if status = 0 then [BitVec.ofNat 32 n, BitVec.ofNat 32 hi, 0] else [0, 0, BitVec.ofNat 32 status]
      some (gone.landWords o.fly v)
    | 4 => if status = 0 then some (s.handOff o) else some (gone.landWords o.fly [BitVec.ofNat 32 status])
    | 6 => some gone
    | 7 => if status = 0 then (if data.length = 128 then some (s.fillLine o data) else none) else some (s.failLine o)
    | 8 => some (s.remoteAnswers o data (decide (status ≠ 0)))
    | _ => none

/-- NETWORK_COMPLETION: a local hand-off, an acknowledgement, or the data of an answer (R260). -/
def execNetworkCompletion (op status : Nat) (data : List Byte) (s : State) : Host.Outcome State Fault Refusal :=
  match s.op? op with
  | none => .refused (.notEnabled "NETWORK_COMPLETION")
  | some o =>
    match (if 1 < status ∨ !s.linked then none else o.kind.netKind.bind fun k => s.completeNet o k status data false) with
    | some t => .next t
    | none => .refused (.notEnabled "NETWORK_COMPLETION")

/-- The ticks after which an operation without an answer is unreachable (R259, R262). -/
def netLimit : Nat := 10000000

/-- NETWORK_TIMEOUT: no acknowledgement within 100 ms (R259). -/
def execNetworkTimeout (op : Nat) (s : State) : Host.Outcome State Fault Refusal :=
  match s.op? op with
  | none => .refused (.notEnabled "NETWORK_TIMEOUT")
  | some o =>
    match (if s.tick47 / 47 < o.sent + netLimit then none else o.kind.netKind.bind fun k => s.completeNet o k 2 [] true) with
    | some t => .next t
    | none => .refused (.notEnabled "NETWORK_TIMEOUT")

/-! ### STORAGE_COMPLETION and STORAGE_TIMEOUT (R262, R263) -/

/-- What completes a storage operation; none where it does not happen so. `late` tells of no completion. -/
def State.completeStorage (s : State) (o : EngOp) (k status nvst : Nat) (data : List Byte) (late : Bool) : Option State :=
  if o.parked || (o.out.isNone && !late) then none
  else if o.orphan then some (s.dropOrphan o 1 status nvst)
  else if status ≠ 0 then some (s.endNet o status (if status = 1 then nvst else 0))
  else
    match k with
    | 0 =>
      if data.length ≠ o.len then none
      else
        match s.mapRanges o.core o.asid .write [(o.laddr, o.len)] with
        | .error f => some (s.parkOp o true f)
        | .ok m => some ((s.incoming o m data).endNet o 0 0)
    | _ => some (s.endNet o (if o.out == some true then 5 else 0) 0)

/-- STORAGE_COMPLETION: an NVMe completion with its status and, for a read, its data. -/
def execStorageCompletion (op status nvst : Nat) (data : List Byte) (s : State) : Host.Outcome State Fault Refusal :=
  match s.op? op with
  | none => .refused (.notEnabled "STORAGE_COMPLETION")
  | some o =>
    match (if status = 2 ∨ 3 < status ∨ !s.linked then none
      else match o.kind with | .storage k => s.completeStorage o k status nvst data false | _ => none) with
    | some t => .next t
    | none => .refused (.notEnabled "STORAGE_COMPLETION")

/-- STORAGE_TIMEOUT: no completion within 100 ms (R262). -/
def execStorageTimeout (op : Nat) (s : State) : Host.Outcome State Fault Refusal :=
  match s.op? op with
  | none => .refused (.notEnabled "STORAGE_TIMEOUT")
  | some o =>
    match (if s.tick47 / 47 < o.sent + netLimit then none
      else match o.kind with | .storage k => s.completeStorage o k 2 0 [] true | _ => none) with
    | some t => .next t
    | none => .refused (.notEnabled "STORAGE_TIMEOUT")

end Sys2Proof.Machine
end

