-- ==== Sys2Proof/Machine/Remote.lean ====
section
/-! DEFINITION. What other modules ask of this one (R332 to R337): remote writes, reads and atomics, endpoint messages,
landing rings, and watches. Each event performs the request and answers its sender. -/

namespace Sys2Proof.Machine

/-! ### Admission (R332) -/

/-- Whether a partition holds a valid peer entry for the sender of a request, with its ASID and job key. -/
def State.peerAdmits (s : State) (r : RemoteReq) : Bool :=
  (s.part r.part).live && (List.range 256).any fun i =>
    s.peerValid r.part i &&
      (let f := s.peerFields (256 * r.part + i)
       f.peer == r.peer && f.rasid == r.senderAsid && f.job == r.job)

/-- Whether an ASID is live in a partition. -/
def State.liveAsid (s : State) (asid part : Nat) : Bool :=
  (s.context asid).state == .live && (s.context asid).part == part

/-- The translations of the bytes of an admitted request; none where it is rejected. No byte may lie in a peer window. -/
def State.admitted (s : State) (r : RemoteReq) (acc : Access) (n : Nat) : Option VaMap :=
  if !s.peerAdmits r || !s.liveAsid r.asid r.part || !canonical r.addr then none
  else
    match s.mapRanges portCore r.asid acc [(r.addr.toNat, n)] with
    | .error _ => none
    | .ok m => if m.any fun p => isPeer p.2 then none else some m

/-- Answers the sender of a request, in the request's class: a status, then data. -/
def State.answer (s : State) (r : RemoteReq) (status : Nat) (ws : List DWord) : State :=
  s.sendMessage 11 r.peer r.tc (BitVec.ofNat 64 status :: ws)

/-! ### Watches (R150, R337) -/

/-- Notifies the watchers of the lines that landed writes touch; a watch ends when it lands. -/
def State.notifyWatches (s : State) (ws : List (Nat × Byte)) : State :=
  let hit := s.watchHits ws
  let s := { s with watches := s.watches.filter fun w => !hit.contains w }
  hit.foldl (fun s w => s.sendMessage 5 w.peer 6 [BitVec.ofNat 64 w.token, 0]) s

/-- The port's stores of a message land as one device-scope release of the port (R149). The race detector names cores as
writers, and the spec does not say what it holds after a port's write: here the sector's shadow state goes, so that no race with
the port is reported (DESIGN CHOICE, log 84). -/
def State.portLand (s : State) (part : Nat) (ws : List (Nat × Byte)) : State :=
  let s1 := s.hardLand (portOf part) part ws
  let secs := (ws.map fun w => sectorOf w.1).eraseDups
  ({ s1 with shadow := s1.shadow.filter fun p => !secs.contains p.1 }).notifyWatches ws

/-! ### Landing rings and endpoints (R334 to R336) -/

/-- Whether two records name one ring or endpoint: handles are scoped by context and partition (R328). -/
def Endpoint.same (e x : Endpoint) : Bool := x.handle == e.handle && x.ring == e.ring && x.asid == e.asid && x.part == e.part

/-- Changes an endpoint. -/
def State.setEndpoint (s : State) (e : Endpoint) : State := { s with endpoints := replaceBy e.same e s.endpoints }

/-- Whether the last record of a slot has not been retired. -/
def State.slotHeld (s : State) (e : Endpoint) (k : Nat) : Bool :=
  match findBy (fun p => p.1 == k) e.slots, s.feed? e.feed with
  | some p, some f => f.recs.any fun r => r.seq == p.2 && !r.retired
  | _, _ => false

/-- The record of a frame (R335). -/
def Endpoint.record (e : Endpoint) (ticks : DWord) (bytes status : Nat) : List Word :=
  let va := e.base + BitVec.ofNat 64 (e.next % e.frames * e.size)
  [e.tag, 0, BitVec.ofNat 32 e.next, BitVec.ofNat 32 (e.next / 2 ^ 32), va.setWidth 32, (va >>> 32).setWidth 32,
    BitVec.ofNat 32 bytes, BitVec.ofNat 32 status, ticks.setWidth 32, (ticks >>> 32).setWidth 32, BitVec.ofNat 32 e.drops]

/-- Ends the current frame of an endpoint: one record is appended to its feed, whose bytes have landed, and the next
frame begins. A record that finds the feed full is dropped and counted (log 23). -/
def State.endFrame (s : State) (e : Endpoint) (status : Nat) : State :=
  match s.feed? e.feed with
  | none => s.setEndpoint { e with next := e.next + 1, count := 0, drops := e.drops + 1 }
  | some f =>
    if f.full then s.setEndpoint { e with next := e.next + 1, count := 0, drops := e.drops + 1 }
    else
      let seq := f.tail
      let s1 := s.appendFeed 0 f (e.record s.ticks e.count status)
      let s2 := match s1.feed? e.feed with
        | some y => (s1.setFeed (y.land seq)).serveFeed e.feed 64
        | none => s1
      let k := e.next % e.frames
      s2.setEndpoint { e with
        next := e.next + 1, count := 0, drops := 0
        slots := (e.slots.filter fun p => p.1 != k) ++ [(k, seq)] }

/-- The landing ring of a context that some of n bytes from an address reach. -/
def State.ringAt (s : State) (asid : Nat) (va : DWord) (n : Nat) : Option Endpoint :=
  findBy (fun e => e.ring && e.asid == asid && meets e.base.toNat (e.frames * e.size) va.toNat n) s.endpoints

/-- A rejected write of a ring: one drop is counted. -/
def State.ringDrop (s : State) (e : Endpoint) : State := s.setEndpoint { e with drops := e.drops + 1 }

/-- Bytes for the current slot of a ring, from an offset in it: those that pass the frame's size are rejected, which
counts one drop; the others land (R335). The state and its status. -/
def State.ringStore (s : State) (e : Endpoint) (part off : Nat) (ws : List (Nat × Byte)) : State × Nat :=
  let fit := ws.take (min (e.size - off) (e.size - e.count))
  let e' := { e with count := e.count + fit.length }
  let s1 := (if fit.isEmpty then s else s.portLand part fit).setEndpoint e'
  let s2 := if fit.length < ws.length then s1.ringDrop e' else s1
  let e2 := if fit.length < ws.length then { e' with drops := e'.drops + 1 } else e'
  (if e'.count = e.size then s2.endFrame e2 0 else s2, if fit.length < ws.length then 1 else 0)

/-- A remote write of bytes of a landing ring, from an offset in it (R335): the state and its status. -/
def State.ringWrite (s : State) (r : RemoteReq) (e : Endpoint) (off : Nat) (ws : List (Nat × Byte)) : State × Nat :=
  let k := off / e.size
  if r.peer ≠ e.src ∨ r.tc ≠ e.tc ∨ r.flow ≠ e.flow ∨ !r.ordered then (s, 1)
  else if s.slotHeld e k then (s.ringDrop e, 1)
  else if k = e.next % e.frames then s.ringStore e r.part (off % e.size) ws
  else if k = (e.next + 1) % e.frames then
    let s := s.endFrame e 1
    match findBy e.same s.endpoints with
    | some e' => s.ringStore e' r.part (off % e.size) ws
    | none => (s, 1)
  else (s.ringDrop e, 1)

/-- The bytes of an admitted remote write land as one release of the port, those of a landing ring as its frame (R149,
R335); the sender is answered. -/
def State.landWrite (s : State) (r : RemoteReq) (data : List Byte) : State :=
  match s.admitted r .write data.length with
  | none => s.answer r 1 []
  | some m =>
    let ws := data.zipIdx.map fun p => (vaAt m (r.addr.toNat + p.2), p.1)
    match s.ringAt r.asid r.addr data.length with
    | none => (s.portLand r.part ws).answer r 0 []
    | some e =>
      let before := e.base.toNat - r.addr.toNat
      let s1 := if before = 0 then s else s.portLand r.part (ws.take before)
      let q := s1.ringWrite r e (r.addr.toNat + before - e.base.toNat) (ws.drop before)
      q.1.answer r q.2 []

/-- Whether two requests travel on one ordered flow of one sender (R149). -/
def sameFlow (r q : RemoteReq) : Bool := r.ordered && q.ordered && r.peer == q.peer && r.tc == q.tc && r.flow == q.flow

/-- Whether a remote write that has arrived must wait: for the peat of its partition, or for an earlier write of its
ordered flow (R144, R149). -/
def State.writeWaits (s : State) (r : RemoteReq) (earlier : List Inbound) : Bool :=
  s.peatFull r.part [] || earlier.any fun x => sameFlow x.req r

/-- The first waiting remote write whose turn has come. -/
def State.nextInbound (s : State) (earlier : List Inbound) : List Inbound → Option (Inbound × List Inbound)
  | [] => none
  | x :: r => if s.writeWaits x.req earlier then s.nextInbound (earlier ++ [x]) r else some (x, earlier ++ r)

/-- The frame of an endpoint that a message fills (R332, R336): its bytes land as one release of the port, and its sender is
answered. -/
def State.landMessage (s : State) (r : RemoteReq) (endpoint : Nat) (data : List Byte) : State :=
  match findBy (fun e => !e.ring && e.handle == endpoint && e.part == r.part) s.endpoints with
  | none => s.answer r 1 []
  | some e =>
    if !s.peerAdmits r || !s.liveAsid e.asid e.part then s.answer r 1 []
    else if s.slotHeld e (e.next % e.frames) ∨ e.size < data.length then (s.ringDrop e).answer r 1 []
    else
      let va := e.base.toNat + e.next % e.frames * e.size
      match s.mapRanges portCore e.asid .write [(va, data.length)] with
      | .error _ => s.answer r 1 []
      | .ok m =>
        if m.any fun p => isPeer p.2 then s.answer r 1 []
        else
          let ws := data.zipIdx.map fun p => (vaAt m (va + p.2), p.1)
          let e' := { e with count := data.length }
          (((s.portLand e.part ws).setEndpoint e').endFrame e' 0).answer r 0 []

/-- What has arrived lands. -/
def State.landInbound (s : State) (x : Inbound) : State :=
  match x.endpoint with
  | none => s.landWrite x.req x.data
  | some n => s.landMessage x.req n x.data

/-- Waiting remote writes and messages whose turn has come land. -/
def State.landInbox (s : State) : Nat → State
  | 0 => s
  | fuel + 1 =>
    match s.nextInbound [] s.inbox with
    | none => s
    | some (x, rest) => ({ s with inbox := rest }.landInbound x).landInbox fuel

/-- Whether a request travels in a class that carries program traffic: class 7 carries management only, and class 6 no remote
write, read or atomic (R330). A packet of another class is dropped without a reply (DEDUCED, log 91). -/
def programClass (r : RemoteReq) : Bool := decide (r.tc ≤ 5)

/-- What has arrived lands in the order of its flow, while the peat of the partition has room; until then it waits (R144, R149). -/
def State.arriveIn (s : State) (x : Inbound) : State :=
  if s.writeWaits x.req s.inbox then { s with inbox := s.inbox ++ [x] } else s.landInbound x

/-- REMOTE_WRITE_ARRIVAL (R149, R330, R332, R335): the bytes land as one release of the port. -/
def execRemoteWriteArrival (r : RemoteReq) (data : List Byte) (s : State) : Host.Outcome State Fault Refusal :=
  if !s.linked then .refused (.notEnabled "REMOTE_WRITE_ARRIVAL")
  else if !programClass r then .next s
  else .next (s.arriveIn ⟨r, data, none⟩)

/-- REMOTE_READ_ARRIVAL (R332): the home copies of the bytes; status 5 tells of poisoned data (R348). -/
def execRemoteReadArrival (r : RemoteReq) (len : Nat) (s : State) : Host.Outcome State Fault Refusal :=
  if !s.linked then .refused (.notEnabled "REMOTE_READ_ARRIVAL")
  else if !programClass r then .next s
  else match s.admitted r .read len with
  | none => .next (s.answer r 1 [])
  | some m =>
    let at_ := fun i => vaAt m (r.addr.toNat + i)
    let bad := (List.range len).any fun i => s.marked (at_ i)
    .next (s.answer r (if bad then 5 else 0) (packData ((List.range len).map fun i => s.home (at_ i))))

/-- Whether a remote request may be served next by an engine (R91): no request from outside its cluster waits before
it, and where a local batch waits the engine last served a local one. -/
def State.remoteTurn (s : State) (engine : Nat) : Bool :=
  let mine := s.batches.filter fun b => b.engine == engine
  !(mine.any fun b => decide (b.core / 8 ≠ engine))
    && (!(mine.any fun b => b.core / 8 == engine) || !(smGet Engine.fresh s.engines engine).lastRemote)

/-- REMOTE_ATOMIC_ARRIVAL (R332, R333): fetch-and-add or compare-and-swap at the home engine; the old value is the
answer. -/
def execRemoteAtomicArrival (r : RemoteReq) (cas w64 : Bool) (y n : DWord) (s : State) : Host.Outcome State Fault Refusal :=
  let k := if w64 then 8 else 4
  if !s.linked then .refused (.notEnabled "REMOTE_ATOMIC_ARRIVAL")
  else if !programClass r then .next s
  else match (if r.addr.toNat % k ≠ 0 then none else s.admitted r .write k) with
  | none => .next (s.answer r 1 [])
  | some m =>
    let a := vaAt m r.addr.toNat
    let e := engineOf a
    if !s.remoteTurn e || s.inbox.any (fun x => sameFlow x.req r) then .refused (.notEnabled "REMOTE_ATOMIC_ARRIVAL")
    else
      let old := s.homeNat a k
      let o : AtomOp := if cas then .cas else .add
      let new := o.apply k old (y.toNat % 2 ^ (8 * k)) (n.toNat % 2 ^ (8 * k))
      let x := (smGet Engine.fresh s.engines e).touch (.phys a)
      let bad := s.locMarked (.phys a) k
      let s := { s with engines := smSet Engine.fresh s.engines e { x with lastRemote := true } }
      let s := s.engineWrite (portOf r.part) (putAt a (natBytes k new))
      .next ((if bad then s.markLoc (.phys a) k else s).answer r (if bad then 5 else 0) [BitVec.ofNat 64 old])

/-- Whether a class carries messages to an endpoint: classes 0 to 5, and class 6 those to the service (R330). -/
def State.messageClass (s : State) (r : RemoteReq) (endpoint : Nat) : Bool :=
  programClass r || (r.tc == 6 && s.endpoints.any fun e => !e.ring && e.handle == endpoint && e.part == r.part && e.asid == serviceAsid)

/-- ENDPOINT_MESSAGE_ARRIVAL (R149, R330, R332, R336): a message is one frame of its endpoint, in the order of its flow. -/
def execEndpointMessageArrival (r : RemoteReq) (endpoint : Nat) (data : List Byte) (s : State) :
    Host.Outcome State Fault Refusal :=
  if !s.linked then .refused (.notEnabled "ENDPOINT_MESSAGE_ARRIVAL")
  else if !s.messageClass r endpoint then .next s
  else .next (s.arriveIn ⟨r, data, some endpoint⟩)

/-! ### Watches (R261, R337) -/

/-- WATCH_REGISTRATION_ARRIVAL: the watch of an admitted line enters the table of 4,096, or finds it full. Watch traffic travels
in class 6 (R330). -/
def execWatchRegistrationArrival (r : RemoteReq) (token : Nat) (s : State) : Host.Outcome State Fault Refusal :=
  if !s.linked then .refused (.notEnabled "WATCH_REGISTRATION_ARRIVAL")
  else if r.tc != 6 then .next s
  else match s.admitted r .read 1 with
  | none => .next (s.answer r 1 [])
  | some m =>
    if 4096 ≤ s.watches.length then .next (s.answer r 1 [])
    else
      let w : Watch := ⟨s.uid, 128 * (vaAt m r.addr.toNat / 128), r.peer, token % 2 ^ 32, r.part⟩
      .next (({ s with watches := s.watches ++ [w], uid := s.uid + 1 }).answer r 0 [])

/-- WATCH_NOTIFICATION_ARRIVAL: the watch lands its status; one whose warp or context has ended is discarded and logged
as an orphan (R337, R339). -/
def execWatchNotificationArrival (op status : Nat) (s : State) : Host.Outcome State Fault Refusal :=
  match s.op? op with
  | none => .refused (.notEnabled "WATCH_NOTIFICATION_ARRIVAL")
  | some o =>
    if o.kind != .net 4 || !o.handed || decide (2 < status) || !s.linked then .refused (.notEnabled "WATCH_NOTIFICATION_ARRIVAL")
    else if o.orphan || (s.context o.asid).state == .quarantined then .next (s.dropOrphan o 4 status 0)
    else
      .next (({ s with ops := s.ops.filter fun x => x.id != op }).landWords o.fly [BitVec.ofNat 32 status])

/-- WATCH_CANCEL: the watches of a watcher under a token are removed; one that has already landed is there no more. -/
def execWatchCancel (peer token : Nat) (s : State) : Host.Outcome State Fault Refusal :=
  if !s.linked then .refused (.notEnabled "WATCH_CANCEL")
  else .next { s with watches := s.watches.filter fun w => !(w.peer == peer && w.token == token) }

end Sys2Proof.Machine
end

