-- ==== Sys2Proof/Machine/Landing.lean ====
section
/-! DEFINITION. Landings and endings: the landing of values (R40, R48), of releases and what waits for them (R139, R143,
R150), forced acquires (R145), the end of warps, groups and launches (R45, R148, R249, R307), and the end of a context
(R290, R293). -/

namespace Sys2Proof.Machine

/-! ### Feeds -/

/-- A feed has changed: a mapped one serves its pops, an unmapped one is written back to memory (R308). -/
def State.touchFeed (s : State) (core num : Nat) : State :=
  match s.feed? num with
  | none => s
  | some f => if f.mapped.isSome then s.serveFeed num 64 else s.saveFeed core num

/-- Pops that are cancelled before their records have landed: registered ones end, and bound records return to the head
of their feed (R241). -/
def State.cancelPops (s : State) (flys : List Nat) : State :=
  let one := fun (s : State) (f : Feed) =>
    if (f.pops.any fun p => flys.contains p.fly) || (f.bound.any fun p => flys.contains p.1) then
      let s := s.syncFeed 0 f.num
      match s.feed? f.num with
      | none => s
      | some f =>
        let f' := { f with pops := f.pops.filter fun p => !flys.contains p.fly }
        (s.setFeed (f'.giveBack flys)).touchFeed 0 f.num
    else s
  s.feeds.foldl one s

/-- A popped record has landed: it is bound to its pop no longer (R241). -/
def State.popLanded (s : State) (fly : Nat) : State :=
  { s with feeds := s.feeds.map fun f => { f with bound := f.bound.filter fun p => p.1 != fly } }

/-! ### LOAD_LANDING (R40, R48, R219) -/

/-- LOAD_LANDING: the accesses that may be tried are tried, and the lanes whose values are here land, once every
answer that they await has come. While a group is being moved its landings wait (R288); the answers of an FGET in
non-deferring mode land with the instruction itself (R234). -/
def execLoadLanding (fly : Nat) (s : State) : Host.Outcome State Fault Refusal :=
  match s.fly? fly with
  | none => .refused (.notEnabled "LOAD_LANDING")
  | some f =>
    match s.group? f.gid, s.warp? f.gid f.widx with
    | some g, some w =>
      let s1 := s.retryFly fly
      match s1.fly? fly with
      | none => .refused (.notEnabled "LOAD_LANDING")
      | some f1 =>
        if g.stat = .moving ∨ (w.splits.any fun x => x.busy == some fly) = true then .refused (.notEnabled "LOAD_LANDING")
        else if f1.left = 0 ∧ f1.ready ≠ 0 then
          let s2 := s1.landFly g f1
          if f1.mask &&& ~~~f1.ready = 0 then
            let s3 := s2.popLanded fly
            .next { s3 with drives := s3.drives.filter fun d => d.fly != fly || d.sync || d.help }
          else .next s2
        else if f1 = f then .refused (.notEnabled "LOAD_LANDING")
        else .next s1
    | _, _ => .next { s with flys := s.flys.filter fun x => x.id != fly }

/-! ### RELEASE_LANDING (R139, R143, R144, R150) -/

/-- The answer pair of an SVCRET reaches its caller, or finds it gone and is logged as an orphan (R294, R326, R340). -/
def State.landAnswer (s : State) (op : Nat) : State :=
  match s.op? op with
  | none => s
  | some o =>
    let h := (o.args.getD 0 0).toNat
    let die := h / 2 ^ 29
    let d := s.die die
    let x := smGet Sheaf.free d.sheafs (h % 2 ^ 10)
    let s := { s with ops := s.ops.filter fun y => y.id != op }
    if x.live && x.gen == h / 2 ^ 10 % 2 ^ 19 then
      let s := s.setDie die { d with sheafs := smSet Sheaf.free d.sheafs (h % 2 ^ 10) x.close }
      let val := fun (j l : Nat) => if o.mask.getLsbD l then (o.lanes.getD l []).getD j 0xFFFFFFFF else 0xFFFFFFFF
      s.updFly x.fly fun f => { f with vals := f.vals.zipIdx.map fun p => (p.1.1, lanes32 (val p.2)), ready := f.mask }
    else s.logOrphan 3 (o.args.getD 1 0).toNat (o.args.getD 2 0).toNat (BitVec.ofNat 64 h) 0 0

/-- The end of a group whose release has landed. While its gang goes on, what member 0 holds for the gang, its gang
barriers, is kept (R230); with the last member the gang ends. -/
def State.endGang (s : State) (g : Group) : State :=
  let ours := fun (x : Group) => x.launch == g.launch && x.gang == g.gang && x.place != 0xFF
  if g.place == 0xFF then { s with groups := s.groups.filter fun x => x.gid != g.gid }
  else if s.groups.any fun x => ours x && x.gid != g.gid && !x.gone then
    s.updGroup g.gid fun x => { x with warps := [], sMem := [], nMem := [] }
  else
    { s with groups := s.groups.filter fun x => !ours x }.updLaunch g.launch fun l => { l with live := l.live - 1, done := l.done + 1 }

/-- What waited for a release and now happens. -/
def State.runAfter (s : State) (core : Nat) (a : After) : State :=
  match a with
  | .send b => s.sendBatch b
  | .arrive gid bar phase => s.arrive gid bar phase
  | .record feed seq =>
    let s := s.syncFeed core feed
    match s.feed? feed with
    | some f => (s.setFeed (f.land seq)).touchFeed core feed
    | none => s
  | .retire feed seq =>
    let s := s.syncFeed core feed
    match s.feed? feed with
    | some f => (s.setFeed (f.retire seq)).touchFeed core feed
    | none => s
  | .tlbinv op => { s with ops := updateBy (fun o => o.id == op) (fun o => { o with parked := false }) s.ops }
  | .answer op => s.landAnswer op
  | .reply launch dest ws =>
    (s.sendReply dest ws).updLaunch launch fun l => { l with held := false }
  | .groupEnd gid =>
    match s.group? gid with
    | some g => s.endGang g
    | none => s
  | .over _ => s

/-- Runs the actions that waited for a release, in order. -/
def State.runAfters (s : State) (core : Nat) (as : List After) : State := as.foldl (fun s a => s.runAfter core a) s

/-- Runs of consecutive addresses among the stores of a group: the first store of each, and its bytes. -/
def peerRuns : List FarStore → List (FarStore × List Byte)
  | [] => []
  | x :: r =>
    match peerRuns r with
    | (y, bs) :: t =>
      if y.addr = x.addr + 1 ∧ y.gid = x.gid ∧ y.asid = x.asid then (x, x.byte :: bs) :: t else (x, [x.byte]) :: (y, bs) :: t
    | [] => [(x, [x.byte])]

/-- The stores of a release that lie in peer windows. -/
def Core.peerStores (k : Core) (r : Release) : List FarStore := k.stores.filter fun x => r.ords.contains x.ord && isPeer x.addr

/-- Sends stores of a core to peer windows as remote writes, each on behalf of its group and its context (R150, R223): the state
and the operations that their release awaits. The core's loads go on returning them (R138). -/
def State.sendPeerStores (s : State) (core : Nat) (xs : List FarStore) : State × List Nat :=
  (peerRuns xs).foldl (fun p q =>
    let s := p.1
    let x := q.1
    let o : EngOp := ⟨s.uid, .net 6, x.gid, 0, core, x.asid, [], [], 0, 0, 0, none, [], [], s.tick47 / 47, false, false, none, x.part, s.payer x.part⟩
    let k := s.core core
    let mine := q.2.zipIdx.map fun b => (x.addr + b.2, b.1, o.id)
    let old := k.peerOwn.filter fun x => !(mine.any fun y => y.1 == x.1)
    let s := s.setCore core { k with peerOwn := old ++ mine }
    (({ s with ops := s.ops ++ [o], uid := s.uid + 1 }).sendPeer 0 (peerIndex x.addr) none x.asid
      ([BitVec.ofNat 64 (peerRemote x.addr), BitVec.ofNat 64 q.2.length] ++ packData q.2), p.2 ++ [o.id])) (s, [])

/-- Lands the head release of a core and runs what waited for it. One of system scope lands its own set first; the rest
follows when every network operation before it has been acknowledged (R150). None where it may not land: one that still follows
earlier work of its warp is not complete. -/
def State.landRelease (s : State) (core : Nat) : Option State :=
  match (s.core core).relq with
  | [] => none
  | r :: _ =>
    let watched := r.scope == 5 && !(s.watchHits r.writes).isEmpty
    let pop := fun (s : State) => let k := s.core core; s.setCore core { k with relq := k.relq.drop 1 }
    if r.isOpen then none
    else if r.scope < 3 then some ((pop s).runAfters core r.after)
    else if r.scope = 7 then
      if s.netOpen r.waits then none
      else some (((pop s).notifyWatches r.writes).runAfters core r.after)
    else if s.peatFull r.part r.writes then none
    else if r.scope = 6 ∨ watched then
      let q := (s.landHead r).sendPeerStores core ((s.core core).peerStores r)
      let k := q.1.core core
      some (q.1.setCore core { k with relq := { r with scope := 7, ords := [], waits := r.waits ++ q.2 } :: k.relq })
    else some ((s.landHead r).runAfters core r.after)

/-- RELEASE_LANDING (R139, R140): the oldest release of a core lands. -/
def execReleaseLanding (core : Nat) (s : State) : Host.Outcome State Fault Refusal :=
  match s.landRelease core with
  | some t => .next t
  | none => .refused (.notEnabled "RELEASE_LANDING")

/-- FORCED_ACQUIRE (R145): more than 2^16 releases have landed since the core's latest acquire. -/
def execForcedAcquire (core : Nat) (s : State) : Host.Outcome State Fault Refusal :=
  if s.relCount core ≤ 65536 then .refused (.notEnabled "FORCED_ACQUIRE")
  else
    let s := s.acquire core deviceDomain
    .next { s with groups := updateBy (fun g => g.core == core && g.onCore) (fun g => { g with phasef := true }) s.groups }

/-! ### YLD_TIMEOUT, WARP_END (R45, R50) -/

/-- YLD_TIMEOUT: the 256 cycles of a YLD have passed (R50). -/
def execYldTimeout (gid widx : Nat) (s : State) : Host.Outcome State Fault Refusal :=
  match s.group? gid, s.warp? gid widx with
  | some g, some w =>
    match w.yld with
    | some t =>
      if t ≤ (s.cycles (g.core / 128)).toNat then .next (s.updWarp gid widx fun w => { w with yld := none })
      else .refused (.notEnabled "YLD_TIMEOUT")
    | none => .refused (.notEnabled "YLD_TIMEOUT")
  | _, _ => .refused (.notEnabled "YLD_TIMEOUT")

/-- Whether a warp may end: it has no split, no closure, no unperformed store or other write and no announced operation
to collect (R45). -/
def State.warpOver (s : State) (g : Group) (w : Warp) : Bool :=
  !w.ended && w.splits.isEmpty && w.closures.isEmpty && w.annLive == 0
    && !(s.queue.any fun q => q.gid == g.gid && q.widx == w.idx)
    && !(s.drives.any fun d => d.gid == g.gid && d.widx == w.idx && !d.help && d.stage != .done)
    && (g.stat == .run || g.stat == .draining)

/-- Cancels the watches of a warp: the watcher tells the target, and a notification on its way becomes an orphan
(R261, R337). -/
def State.cancelWatches (s : State) (mine : EngOp → Bool) : State :=
  let hit := s.ops.filter fun o => o.kind == .net 4 && !o.orphan && mine o
  let s := hit.foldl (fun s o => s.sendPeer 10 (peerIndex o.remote) (some (6, none)) o.asid [BitVec.ofNat 64 o.id]) s
  { s with ops := s.ops.map fun o => if hit.any fun x => x.id == o.id then { o with orphan := true } else o }

/-- WARP_END (R45, R236, R241): the warp slot is released, and the warp's registrations, pops and watches are
cancelled. -/
def execWarpEnd (gid widx : Nat) (s : State) : Host.Outcome State Fault Refusal :=
  match s.group? gid, s.warp? gid widx with
  | some g, some w =>
    if s.warpOver g w then
      let flys := (s.flys.filter fun f => f.gid == gid && f.widx == widx).map fun f => f.id
      let pops := flys.filter fun k => s.feeds.any fun f => (f.pops.any fun p => p.fly == k) || f.bound.any fun p => p.1 == k
      let waits := flys.filter fun k => s.waiters.any fun x => x.fly == k
      let s := s.cancelPops pops
      let s := { s with
        waiters := s.waiters.filter fun x => !waits.contains x.fly
        flys := s.flys.filter fun f => !(pops ++ waits).contains f.id
        drives := s.drives.filter fun d => !(d.gid == gid && d.widx == widx) }
      let s := s.cancelWatches fun o => o.gid == gid && o.widx == widx
      let s := s.updWarp gid widx fun w => { w with ended := true }
      .next (s.updGroup gid fun g => if g.warps.all fun w => w.ended then { g with stat := .draining } else g)
    else .refused (.notEnabled "WARP_END")
  | _, _ => .refused (.notEnabled "WARP_END")

/-! ### GROUP_END (R148, R249) -/

/-- Whether an operation of a group holds its end (R249): until it has completed, or for a network write or send without
.DLV until it has been handed off and has given its signal (R148, R260). -/
def EngOp.holdsGroup (o : EngOp) : Bool :=
  match o.kind with
  | .net 0 | .net 3 => !o.orphan && (!o.handed || o.delivered)
  | .net 6 | .net 7 => false
  | .cpy | .kvg | .migr | .adec | .net _ | .storage _ => !o.orphan
  | _ => false

/-- Whether engine work of a group is outstanding (R148, R249): its commands in the matrix queue, whether or not it still holds
the engine, operations, transactions on their way, or announced operations. -/
def State.busyGroup (s : State) (g : Group) : Bool :=
  (s.ops.any fun o => o.gid == g.gid && o.holdsGroup)
    || ((s.core g.core).mx.queue.any fun q => q.gid == g.gid)
    || (s.batches.any fun b => b.gid == g.gid)
    || (s.queue.any fun q => q.gid == g.gid)
    || (s.drives.any fun d => d.gid == g.gid)
    || s.cores.any fun p => p.2.relq.any fun r => r.after.any fun a => (match a with | .send b => b.gid == g.gid | _ => false)

/-- Frees the matrix engine of a core; the drains of its queue hold no lock any longer (R110, R322). The sticky bits of
MSTAT stay, as the accumulators do: the spec says nothing of them when the owner changes (DESIGN CHOICE, log 64). -/
def State.freeMatrix (s : State) (core : Nat) : State :=
  ((s.core core).mx.queue.foldl (fun s q => s.unlock core q.id) s).updMx core fun x => { Matrix.fresh with acc := x.acc, cnt := x.cnt, mode := x.mode, opbuf := x.opbuf, stat := x.stat }

/-- The bind record of a group is FREE again. -/
def State.freeBind (s : State) (gid : Nat) : State :=
  { s with binds := s.binds.filter fun p => !(p.2.gid == gid && p.2.state != 0 && p.2.state != 1 && p.2.state != 2) }

/-- GROUP_END: every warp has ended and no engine work is outstanding; the group's release is performed, and its
scratch, its matrix engine and its place are free (R249). -/
def execGroupEnd (gid : Nat) (s : State) : Host.Outcome State Fault Refusal :=
  match s.group? gid with
  | none => .refused (.notEnabled "GROUP_END")
  | some g =>
    if g.stat != .draining || s.busyGroup g then .refused (.notEnabled "GROUP_END")
    else
      let s := if s.holdsMatrix g then s.freeMatrix g.core else s
      let s := s.release g.core (g.domain 5) g.part 5 [.groupEnd gid]
      let s := { s with flys := s.flys.filter fun f => f.gid != gid, waiters := s.waiters.filter fun w => w.gid != gid }
      .next ((s.updGroup gid fun g => { g with stat := .ended }).freeBind gid)

/-! ### LAUNCH_COMPLETION_RECORD (R307) -/

/-- Whether everything that a launch issued is over (R148): every released store of its context has landed, on whichever core it
was released; for a launch that was terminated its last releases have landed, and its storage and network operations have drained, those of the network as far as their hand-off or, with .DLV,
their acknowledgement. -/
def State.launchOver (s : State) (l : Launch) : Bool :=
  !(s.cores.any fun p => p.2.stores.any fun x => x.asid == l.desc.asid && x.cov.isSome && !x.landed && !isPeer x.addr) &&
  if l.terminated then
    !(s.cores.any fun p => p.2.relq.any fun r => r.after.contains (.over l.id))
      && !(s.ops.any fun o => o.asid == l.desc.asid && o.orphan && match o.kind with
        | .storage _ => true
        | .net 0 | .net 3 => !o.handed || o.delivered
        | .net 2 => true
        | _ => false)
  else
    (l.waitingGangs.isEmpty && !(s.groups.any fun g => g.launch == l.id)
      && !(s.cores.any fun p => p.2.tasks.any fun t => t.launch == l.id)
      && !(s.binds.any fun p => p.2.launch == l.id && p.2.state != 0))

/-- The words of a completion record. -/
def Launch.record (l : Launch) (ticks : DWord) : Nat :=
  (if l.terminated then 2 else 1) + 2 ^ 64 * (l.id % 2 ^ 32) + 2 ^ 96 * (l.done % 2 ^ 32)
    + 2 ^ 128 * ((l.tstart.getD 0) % 2 ^ 64) + 2 ^ 192 * ticks.toNat

/-- Drops the cached translations that satisfy a test on every core and die. -/
def State.dropTlb (s : State) (f : TlbEntry → Bool) : State :=
  let core := fun (p : Nat × Core) => (p.1, { p.2 with tlb := p.2.tlb.filter fun e => !f e })
  let die := fun (p : Nat × Die) => (p.1, { p.2 with tlb := p.2.tlb.filter fun e => !f e })
  { s with cores := s.cores.map core, dies := s.dies.map die }

/-- Whether a miss has a place in the table: a walk of its key is in flight, or its partition's share has room (R316,
R343). -/
def walkRoom (share : Nat → Nat) (ms : List Miss) (m : Miss) : Bool :=
  let walks := (ms.filter fun x => x.walking && x.part == m.part).map fun x => x.key
  (ms.any fun x => x.walking && x.key == m.key) || decide (walks.eraseDups.length < share m.part)

/-- The waiting misses that now find a place, in arrival order. -/
def startWalks (share : Nat → Nat) (ms : List Miss) : List Miss :=
  ms.foldl (fun r m => if !m.walking && walkRoom share r m then r.map fun x => if x = m then { x with walking := true } else x else r) ms

/-- A share of the walk-merging table of a die. -/
def State.walkShare (s : State) (die part : Nat) : Nat := s.share part die 256

/-- Drops the cached translations and the misses of an address space; misses of others that waited find their places (R316,
R324). -/
def State.dropAsid (s : State) (asid : Nat) : State :=
  let t := s.dropTlb fun e => e.asid == asid
  { t with dies := t.dies.map fun p =>
      (p.1, { p.2 with misses := startWalks (s.walkShare p.1) (p.2.misses.filter fun m => m.asid != asid) }) }

/-- Posts the faults that were held for want of a free entry, in fault order (R320). -/
def State.repost (s : State) (part : Nat) : State :=
  let p := s.part part
  let s := s.setPart part { p.setFq p.fqTail false with waiting := [] }
  p.waiting.foldl (fun s f => s.postFault part f) s

/-- A write of STATE := 2 to an entry of a fault queue. -/
def State.answered (s : State) (p : Part) (i : Nat) : List (Nat × Byte) :=
  putAt (p.fqEntry i) (natBytes 1 (s.homeNat (p.fqEntry i) 1 / 4 * 4 + 2))

/-- The pending queue entries of a context are answered, in one release of the fault hardware, and their parties have ended (R321,
R358). -/
def State.answerAll (s : State) (part asid : Nat) : State :=
  let p := s.part part
  let hit := (List.range p.fqCap).filter fun i => s.fqPending p i && decide (s.homeNat (p.fqEntry i + 10) 2 = asid)
  let s := if hit.isEmpty then s else s.hardLand portCore part (hit.flatMap fun i => s.answered p i)
  s.setPart part { p with
    parties := p.parties.filter fun q => !hit.contains q.1
    waiting := p.waiting.filter fun f => f.asid != asid }

/-- What the fault queue holds of a context whose ASID is freed: entries that are still pending, whose parties have all ended, are
answered, so that no new launch receives them (R324, log 85). -/
def State.settleFaults (s : State) (asid : Nat) : State :=
  let part := (s.context asid).part
  let p := s.part part
  if (List.range p.fqCap).any fun i => s.fqPending p i && decide (s.homeNat (p.fqEntry i + 10) 2 = asid) then
    (s.answerAll part asid).repost part
  else s

/-- An ASID with no launch in progress is free again, unless it is quarantined; neither a translation nor a fault entry of it
outlives its context (R324). -/
def State.freeAsid (s : State) (asid : Nat) : State :=
  let x := s.context asid
  if x.state = .live ∧ !(s.launches.any fun l => l.desc.asid == asid && !l.recorded) then
    ((s.settleFaults asid).dropAsid asid).setContext asid { x with state := .free, root := 0 }
  else s

/-- LAUNCH_COMPLETION_RECORD: the record is written under the launch's ASID, bytes 8 to 31 first, and the command's source
is told where its flow is still open, that is while a port is linked (log 62); a fault on it is posted with OWNER 0 and
the write waits (R307). -/
def execLaunchCompletionRecord (launch : Nat) (s : State) : Host.Outcome State Fault Refusal :=
  match s.launch? launch with
  | none => .refused (.notEnabled "LAUNCH_COMPLETION_RECORD")
  | some l =>
    if l.recorded || l.parked || !s.launchOver l then .refused (.notEnabled "LAUNCH_COMPLETION_RECORD")
    else
      match s.translate portCore l.desc.asid .write l.desc.crec with
      | .bad f =>
        let s := s.updLaunch launch fun l => { l with parked := true }
        .next (s.postFault l.part ⟨f.va, 0, 0, l.desc.asid, 0, f.cause, f.reason, f.level, 3, true, false, 0, .crec launch⟩)
      | .ok a =>
        let v := l.record s.ticks
        let bs := natBytes 32 v
        let ws := putAt (a + 8) (bs.drop 8) ++ putAt a (bs.take 8)
        let part := fun (s : State) (o n : Nat) => s.sendPeer 0 (peerIndex a) none l.desc.asid
          ([BitVec.ofNat 64 (peerRemote a + o), BitVec.ofNat 64 n] ++ packData ((bs.drop o).take n))
        let s := if isPeer a then part (part s 8 24) 0 8 else s.portLand l.part ws
        let s := s.updLaunch launch fun l => { l with recorded := true }
        .next ((s.sendReply l.flow (0 :: (List.range 4).map fun i => BitVec.ofNat 64 (v / 2 ^ (64 * i)))).freeAsid l.desc.asid)

/-! ### The end of a context (R290, R293, R324, R361) -/

/-- An ASID enters quarantine (R296, R324): its cached translations, its misses and its registrations go, and its outstanding network
and storage operations become orphans. -/
def State.quarantine (s : State) (asid : Nat) : State :=
  let s := s.dropAsid asid
  let gone := fun (gid : Nat) => (match s.group? gid with | some g => g.asid == asid | none => false)
  let lose := fun (o : EngOp) =>
    if o.asid == asid && (match o.kind with | .net _ | .storage _ => true | _ => false) then
      { o with orphan := true, parked := false }
    else o
  let s := { s with
    waiters := s.waiters.filter fun w => !gone w.gid
    ops := s.ops.map lose }
  s.setContext asid { s.context asid with state := .quarantined }

/-- Ends the operations that save, load or move a group: their signals carry status 1 (R288). -/
def State.endMoves (s : State) (gid : Nat) : State :=
  (s.ops.filter fun o => (o.kind == .save || o.kind == .load || o.kind == .move) && o.lanes.any fun l => l.headD 0 == BitVec.ofNat 32 gid).foldl
    (fun s o => s.endOp o 1) s

/-- What a release still has to do once a group of a launch has been stopped: the launch awaits its landing (R148). -/
def After.stopped (gid launch : Nat) (a : After) : Option After :=
  match a with
  | .send b => if b.gid = gid then none else some a
  | .arrive g _ _ => if g = gid then none else some a
  | .groupEnd g => if g = gid then some (.over launch) else some a
  | _ => some a

/-- The commands of a group leave the matrix queue of its core, and their drains' locks go (R110, R290, R322). -/
def State.dropCmds (s : State) (g : Group) : State :=
  let mine := (s.core g.core).mx.queue.filter fun q => q.gid == g.gid
  if mine.isEmpty then s
  else (mine.foldl (fun s q => s.unlock g.core q.id) s).updMx g.core fun x =>
    { x with queue := x.queue.filter fun q => q.gid != g.gid, run := none, drain := false }

/-- The releases of a group's waiting instructions that have a place on its core are issued there, with the stores performed so
far: the group leaves the core (R48, R139). -/
def State.closeReleases (s : State) (g : Group) : State :=
  (s.queue.filter fun q => q.gid == g.gid).foldl (fun s q =>
    match q.rel with
    | some id => s.closeRelease g.core id []
    | none => s) s

/-- Stops a group at once: its warps and engine work are gone, its network and storage operations drain as orphans, and
its far stores are released (R148, R249, R290). -/
def State.stopNow (s : State) (g : Group) : State :=
  let gid := g.gid
  let flys := (s.flys.filter fun f => f.gid == gid).map fun f => f.id
  let s := (s.endMoves gid).cancelPops flys
  let s := s.cancelWatches fun o => o.gid == gid
  let s := if s.holdsMatrix g then s.freeMatrix g.core else s.dropCmds g
  let dead := s.ops.filter fun o => o.gid == gid && (match o.kind with | .cpy | .kvg | .migr | .adec => true | _ => false)
  let s := dead.foldl (fun s o => ({ s with ops := s.ops.filter fun x => x.id != o.id }).unlock o.core o.id) s
  let k := s.core g.core
  let s := s.setCore g.core { k with locks := k.locks.filter fun x => x.space != 4 || x.gid != gid }
  let s := s.closeReleases g
  let cut := fun (r : Release) => { r with after := r.after.filterMap (After.stopped gid g.launch) }
  let cutCore := fun (p : Nat × Core) => (p.1, { p.2 with relq := p.2.relq.map cut })
  let shut := fun (q : Nat × Sheaf) => if q.2.live && q.2.gid == gid then (q.1, q.2.close) else q
  let shutDie := fun (p : Nat × Die) => (p.1, { p.2 with sheafs := p.2.sheafs.map shut })
  let s := { s with
    flys := s.flys.filter fun f => f.gid != gid
    queue := s.queue.filter fun q => q.gid != gid
    batches := s.batches.filter fun b => b.gid != gid
    waiters := s.waiters.filter fun w => w.gid != gid
    drives := s.drives.filter fun x => x.gid != gid
    savedMx := s.savedMx.filter fun p => p.1 != gid
    cores := s.cores.map cutCore
    dies := s.dies.map shutDie }
  let s := if g.onCore || !g.kept.isEmpty then (s.storeKept g.core g.kept).release g.core (g.domain 5) g.part 5 [.over g.launch] else s
  let s := { s with groups := s.groups.filter fun x => x.gid != gid }
  s.freeBind gid

/-- Ends a context (FQANS TERMINATE, PART RESET): every group stops, its launches are terminated and its ASID enters
quarantine. -/
def State.endContext (s : State) (asid : Nat) : State :=
  let s := (s.groups.filter fun g => g.asid == asid).foldl (fun s g => s.stopNow g) s
  let mine := fun (l : Launch) => l.desc.asid == asid && !l.recorded
  let ids := (s.launches.filter mine).map fun l => l.id
  let cut := fun (p : Nat × Core) => (p.1, { p.2 with
    tasks := p.2.tasks.filter fun t => !ids.contains t.launch
    held := p.2.held.filter fun h => !ids.contains h.1 })
  let s := { s with
    launches := updateBy mine (fun l => { l with terminated := true, waitingGangs := [], live := 0, parked := false }) s.launches
    cores := s.cores.map cut
    binds := s.binds.filter fun p => !ids.contains p.2.launch
    backoffs := s.backoffs.filter fun b => !ids.contains b.launch }
  s.quarantine asid

end Sys2Proof.Machine
end

