-- ==== Sys2Proof/Machine/Context.lean ====
section
/-! DEFINITION. Saving, restoring and moving groups: CSAVE, CLOAD, CMIGR and their completion (R287, R288), what a landing
does to a saved group's image (R48, R282), and eviction (R306). -/

namespace Sys2Proof.Machine

/-- A system instruction acts once, on the operands of its lowest active lane (R283). -/
def sysInstr (s : State) (i : Instr) (k : Ctx → Nat → Host.Outcome State Fault Refusal) : Host.Outcome State Fault Refusal :=
  issue s i fun c => k c (c.low none)

/-- Completes a system instruction with a status in vd. -/
def sysStatus (s : State) (c : Ctx) (d n : Nat) : Host.Outcome State Fault Refusal := .next (finishStatus s c none d n)

/-- Completes a system instruction with a status in vd and a word in vd+1. -/
def sysPair (s : State) (c : Ctx) (d n : Nat) (v : Word) : Host.Outcome State Fault Refusal :=
  .next (finish s c none false [(d, fun _ => BitVec.ofNat 32 n), (d + 1, fun _ => v)] flag0)

/-- Whether an issuer of a partition is the root (R284, R360). -/
def Group.root (g : Group) : Bool := g.part == 0xFF

/-- Whether ranges cover every byte from lo to hi, in at most so many pieces. -/
def covered (rs : List (Nat × Nat)) : Nat → Nat → Nat → Bool
  | 0, lo, hi => decide (hi ≤ lo)
  | k + 1, lo, hi =>
    if hi ≤ lo then true
    else
      match findBy (fun r : Nat × Nat => decide (r.1 ≤ lo) && decide (lo < r.1 + r.2)) rs with
      | none => false
      | some r => covered rs k (r.1 + r.2) hi

/-- Whether a partition owns a physical range; the root may name any outside a hole (R284). -/
def State.owns (s : State) (part lo n : Nat) : Bool :=
  physRangeOk lo n && (part == 0xFF || covered (s.part part).ranges 16 lo (lo + n))

/-! ### Handles (R287) -/

/-- The core that a handle names, and its warp slot; none for a malformed handle. -/
def handleOf (h : Word) : Option (Nat × Nat) :=
  let v := h.toNat
  if v / 2 ^ 21 ≠ 0 ∨ v % 32 ≠ 0 then none else some (v / 2 ^ 11, v / 2 ^ 5 % 64)

/-- The lowest warp slot of a group. -/
def Group.lowSlot (g : Group) : Nat := (g.warps.map fun w => w.slot).foldl min 64

/-- The resident group that a handle names. -/
def State.groupAt (s : State) (core slot : Nat) : Option Group :=
  findBy (fun g => g.core == core && g.onCore && g.lowSlot == slot) s.groups

/-- The members of a group's gang, in order. -/
def State.gangOf (s : State) (g : Group) : List Group := (List.range g.members).filterMap fun m => s.member? g m

/-- The physical base of a member's image. -/
def imageBase (va stride m : Nat) : Nat := va + m * stride * 4096

/-- Whether the images of a gang lie in memory of a partition, and its stride covers the largest (R287). -/
def State.imagesOk (s : State) (part va stride : Nat) (gs : List Group) (size : Group → Nat) : Bool :=
  decide (va % 4096 = 0) && gs.all (fun g => s.owns part (imageBase va stride g.member) (size g))
    && (decide (gs.length ≤ 1) || gs.all fun g => decide (size g ≤ stride * 4096))

/-! ### Stopping and placing -/

/-- The count of spare columns that an array uses: it belongs to the core, whatever group holds the engine (R122). -/
def spareBits : Word := 0x70000

/-- An engine of a core without a group's state, for a group. -/
def Matrix.cleared (x : Matrix) (gid : Nat) : Matrix := { Matrix.fresh with owner := some gid, stat := x.stat &&& spareBits }

/-- The range locks of the drains in a matrix queue. -/
def Matrix.locks (x : Matrix) (asid : Nat) : List Lock := x.queue.flatMap fun q => q.locks asid

/-- Stops a group and writes its image; its unreleased far stores and its matrix engine's state go with it, and the core
holds the locks of its announcement records and of its queued drains no longer (R96, R281, R288, R322). -/
def State.packGroup (s : State) (gid base : Nat) : State :=
  match s.group? gid with
  | none => s
  | some g =>
    let m := s.holdsMatrix g
    let s1 := ((s.closeReleases g).writeImage g base).keepStores g
    let k := s1.core g.core
    let drains := if m then k.mx.queue.map fun q => q.id else []
    let s2 := s1.setCore g.core { k with
      locks := k.locks.filter fun x => !(x.space == 4 && x.gid == gid) && !drains.contains x.op }
    let s3 := if m then ({ s2 with savedMx := s2.savedMx ++ [(gid, k.mx)] }).updMx g.core fun x => x.cleared gid else s2
    s3.updGroup gid fun g => { g with
      stat := .moving
      image := base
      acqln := s.acqNumber g.core }

/-- The registers that a warp's block takes when its group is restored (R302). -/
def Group.blockSize (g : Group) : Nat := (g.warps.map fun w => w.window).foldl max g.regsPer

/-- The warps of a group that still hold a slot. -/
def Group.held (g : Group) : List Warp := g.warps.filter fun w => !w.ended

/-- The slots and windows of a restored group on a core: each warp keeps its issue partition (R19). -/
def State.placeHeld (s : State) (g : Group) (core : Nat) : Option (List (Nat × Nat)) :=
  s.placeOn core g.blockSize [] (g.held.map fun w => w.slot % 4)

/-- Whether a core has room for a group, as CLOAD and CMIGR need it (R288): slots, scratch, aligned register blocks, and
a free matrix engine where the group had one. -/
def State.roomFor (s : State) (g : Group) (core : Nat) : Bool :=
  (s.placeHeld g core).isSome && s.scratchRoom core (g.sBytes + g.nBytes)
    && (!(s.savedMx.any fun p => p.1 == g.gid) && !(s.holdsMatrix g) || (s.core core).mx.owner.isNone)
    && ((s.core core).held.isNone)

/-- The lowest group place of a core whose bind record is FREE. -/
def State.freePlace (s : State) (core : Nat) : Nat :=
  (findBy (fun n => (smGet Bind.free s.binds (64 * core + n)).state == 0) (List.range 64)).getD 0

/-- Puts a stopped group onto a core: its slots, blocks, bind record and matrix engine are reserved there. -/
def State.placeGroup (s : State) (gid core place : Nat) : State :=
  match s.group? gid with
  | none => s
  | some g =>
    let ps := (s.placeHeld g core).getD []
    let at_ := g.held.zip ps
    let move := fun (w : Warp) => match findBy (fun (p : Warp × Nat × Nat) => p.1.idx == w.idx) at_ with
      | some p => { w with slot := p.2.1, wbase := p.2.2 }
      | none => w
    let s := s.updGroup gid fun g => { g with stat := .moving, core := core, place := place, warps := g.warps.map move }
    let b : Bind := ⟨g.launch, BitVec.ofNat 64 g.image, g.gang, g.asid, g.part, g.member, g.members - 1, g.prio, g.kernel, 5, 0, gid⟩
    let s := { s with binds := smSet Bind.free s.binds (64 * core + place) b }
    if s.savedMx.any fun p => p.1 == gid then s.updMx core fun x => x.cleared gid else s

/-- A saved, suspended warp that FQANS has answered resumes by its image's record (R275, R282). -/
def State.resumeAnswered (s : State) (gid widx base : Nat) : State :=
  match s.group? gid, s.warp? gid widx with
  | some g, some w =>
    match w.susp with
    | some sv => if sv.answered then trapReturn s g w (readSlot s.home (base + 0x1260)) else s
    | none => s
  | _, _ => s

/-- The drives of a restored group go on from their records (R100, R108, R268): what held an instruction starts anew with
it, ANN.HLP from its header read, and the driver walks from the lane's own record. -/
def State.redrive (s : State) (gid : Nat) : State :=
  let s := s.dropDrives fun d => d.gid == gid && d.sync && (d.help || d.stage != .done)
  let own := fun (d : Drive) => match s.warp? d.gid d.widx with | some w => w.recordAt d.lane | none => d.cursor
  let driven := fun (d : Drive) => d.gid == gid && !d.sync && !d.asked && (d.stage == .walk || d.stage == .step)
  let anew := fun (d : Drive) => { d with stage := .walk, cursor := own d, xs := 0, want := 0 }
  { s with drives := updateBy driven anew s.drives }

/-- The locks of a group's pending announcement records are registered on its core (R96). -/
def State.relockRecords (s : State) (g : Group) : State :=
  s.lock g.core (g.warps.flatMap fun w => (lanesOf w.annLive).map fun l => recordLock g.asid g.gid (w.recordAt l))

/-- Restores a group from its image on the core where it has been placed (R281, R288): its trap slots, its private
stores, of which the core is now the writer, its acquire, its matrix engine, the locks of its records and drains, and its
drives. -/
def State.unpackGroup (s : State) (gid : Nat) : State :=
  match s.group? gid with
  | none => s
  | some g =>
    let g1 := { s.readGroup g with stat := if g.warps.all fun w => w.ended then .draining else .run, restored := some (s.tick47 / 47) }
    let s1 := s.updGroup gid fun _ => g1
    let slotted := g1.warps.filter fun w => w.inh.isSome || w.susp.isSome
    let s2 := slotted.foldl (fun s w =>
      s.writeSlot g1 w (natBytes 64 (s.homeNat (g.image + 0x1000 + 0x6800 * w.idx + 0x1260) 64))) s1
    let s3 := (s2.storeKept g.core g.kept).raceMove g.core gid (g.kept.map fun x => x.addr)
    let s4 := if s3.acqNumber g.core < g.acqln then s3.acquire g.core deviceDomain else s3
    let newer := s4.log.any fun l => decide (g.acqln < l.num) && (s4.core g.core).contained.contains l.idx
    let s5 := ((s4.updGroup gid fun g => { g with kept := [], phasef := g.phasef || newer }).relockRecords g1).redrive gid
    let s6 := match findBy (fun p => p.1 == gid) s5.savedMx with
      | some p =>
        let x := s5.readMatrix g p.2
        (({ s5 with savedMx := s5.savedMx.filter fun q => q.1 != gid }).updMx g.core fun y =>
          { x with stat := (x.stat &&& ~~~spareBits) ||| (y.stat &&& spareBits) }).lock g.core (x.locks g.asid)
      | none => s5
    g1.warps.foldl (fun s w => s.resumeAnswered gid w.idx (g.image + 0x1000 + 0x6800 * w.idx)) s6

/-! ### CSAVE, CLOAD, CMIGR (R287, R288) -/

/-- The groups that an operation acts on. -/
def EngOp.gids (o : EngOp) : List Nat := o.lanes.map fun l => (l.headD 0).toNat

/-- The entries of a partition's saved-group table: its saved groups, and those whose save is in progress. -/
def State.savedCount (s : State) (part : Nat) : Nat :=
  (s.groups.filter fun g => g.part == part && (g.stat == .saved || s.ops.any fun o => o.kind == .save && o.gids.contains g.gid)).length

/-- The words of the descriptor group that the three share: the stride, and whether a field that must be 0 is not. -/
def ctxStride (ws : List Word) : Nat := (ws.getD 2 0).toNat % 2 ^ 16
def ctxBad (ws : List Word) : Bool := decide (2 ^ 16 ≤ (ws.getD 2 0).toNat) || ws.getD 3 0 != 0

/-- A save, load or move in progress, with the groups that it acts on. -/
def Ctx.ctxOp (s : State) (c : Ctx) (k : OpKind) (gids : List Nat) (sig : Signal) : EngOp :=
  { c.engOp s k none [] with lanes := gids.map fun g => [BitVec.ofNat 32 g], signal := some sig }

/-- The gang that CSAVE and CMIGR name, or their status (R287, R288). -/
def State.toSave (s : State) (c : Ctx) (ws : List Word) (va : Nat) : Except Nat (List Group) :=
  match handleOf (ws.getD 0 0) with
  | none => .error 2
  | some (core, slot) =>
    match s.groupAt core slot with
    | none => .error 3
    | some g =>
      let gs := s.gangOf g
      if g.kernel || (!c.grp.root && g.part != c.grp.part) then .error 3
      else if g.member ≠ 0 then .error 2
      else if !s.imagesOk c.grp.part va (ctxStride ws) gs (fun g => g.imageSize (s.holdsMatrix g)) then .error 4
      else if gs.any fun g => g.stat == .moving then .error 1
      else .ok gs

/-- CSAVE (R288). -/
def execCsave (x : OpSys) (s : State) : Host.Outcome State Fault Refusal :=
  sysInstr s (.csave x) fun c l =>
    let ws := c.words x.b.toNat 8 l
    let va := (c.pair x.a.toNat l).toNat
    match s.checkSignal c.grp (ws.getD 4 0) (ws.getD 5 0) with
    | .illegal => .next (raise s c 0x20 (ws.getD 4 0) 0)
    | .status k => sysStatus s c x.d.toNat k
    | .ok sig =>
      if ctxBad ws then sysStatus s c x.d.toNat 2
      else
        match s.toSave c ws va with
        | .error k => sysStatus s c x.d.toNat k
        | .ok gs =>
          if 1024 < s.savedCount (gs.headD c.grp).part + gs.length then sysStatus s c x.d.toNat 1
          else
            let o := c.ctxOp s .save (gs.map fun g => g.gid) sig
            let s1 := gs.foldl (fun s g => s.packGroup g.gid (imageBase va (ctxStride ws) g.member)) (s.startOp o [])
            sysStatus s1 c x.d.toNat 0

/-- The core that the destination handle of CLOAD and CMIGR names. -/
def destCore (h : Word) : Option Nat :=
  match handleOf h with
  | some (core, slot) => if slot = 0 then some core else none
  | none => none

/-- Whether n members placed from a core on lie in one cluster (R21). -/
def oneCluster (core n : Nat) : Bool := core / 8 == (core + n - 1) / 8

/-- Whether the members of a gang that are left, each at its place from a core on, lie in one cluster (R21, R288). -/
def membersFit (core : Nat) (gs : List Group) : Bool := gs.all fun y => oneCluster core (y.member + 1)

/-- Places the members of a gang on consecutive cores. -/
def State.placeGang (s : State) (core : Nat) (gs : List Group) : State :=
  gs.foldl (fun s g => s.placeGroup g.gid (core + g.member) (s.freePlace (core + g.member))) s

/-- CLOAD (R288). -/
def execCload (x : OpSys) (s : State) : Host.Outcome State Fault Refusal :=
  sysInstr s (.cload x) fun c l =>
    let ws := c.words x.b.toNat 8 l
    let va := (c.pair x.a.toNat l).toNat
    match s.checkSignal c.grp (ws.getD 4 0) (ws.getD 5 0) with
    | .illegal => .next (raise s c 0x20 (ws.getD 4 0) 0)
    | .status k => sysStatus s c x.d.toNat k
    | .ok sig =>
      match (if ctxBad ws then none else destCore (ws.getD 1 0)) with
      | none => sysStatus s c x.d.toNat 2
      | some core =>
        match findBy (fun g => g.stat == .saved && g.member == 0 && g.image == va && (c.grp.root || g.part == c.grp.part)) s.groups with
        | none => sysStatus s c x.d.toNat 3
        | some g =>
          let gs := s.gangOf g
          if !s.imagesOk c.grp.part va (ctxStride ws) gs (fun y => y.imageSize (s.savedMx.any fun p => p.1 == y.gid)) then
            sysStatus s c x.d.toNat 4
          else if gs.any fun y => y.image != imageBase va (ctxStride ws) y.member || y.stat != .saved then sysStatus s c x.d.toNat 3
          else if !membersFit core gs then sysStatus s c x.d.toNat 2
          else if !(gs.all fun y => s.roomFor y (core + y.member)) then sysStatus s c x.d.toNat 1
          else
            let o := c.ctxOp s .load (gs.map fun y => y.gid) sig
            sysStatus ((s.startOp o []).placeGang core gs) c x.d.toNat 0

/-- CMIGR (R288): the members are stopped, and their places at the destination are reserved, at once. -/
def execCmigr (x : OpSys) (s : State) : Host.Outcome State Fault Refusal :=
  sysInstr s (.cmigr x) fun c l =>
    let ws := c.words x.b.toNat 8 l
    let va := (c.pair x.a.toNat l).toNat
    match s.checkSignal c.grp (ws.getD 4 0) (ws.getD 5 0) with
    | .illegal => .next (raise s c 0x20 (ws.getD 4 0) 0)
    | .status k => sysStatus s c x.d.toNat k
    | .ok sig =>
      match (if ctxBad ws then none else destCore (ws.getD 1 0)) with
      | none => sysStatus s c x.d.toNat 2
      | some core =>
        match s.toSave c ws va with
        | .error k => sysStatus s c x.d.toNat k
        | .ok gs =>
          if !membersFit core gs then sysStatus s c x.d.toNat 2
          else if !(gs.all fun y => s.roomFor y (core + y.member)) then sysStatus s c x.d.toNat 1
          else
            let o := c.ctxOp s .move (gs.map fun y => y.gid) sig
            let stop := fun (s : State) (g : Group) =>
              let s := (s.packGroup g.gid (imageBase va (ctxStride ws) g.member)).freeBind g.gid
              if s.holdsMatrix g then s.freeMatrix g.core else s
            sysStatus ((gs.foldl stop (s.startOp o [])).placeGang core gs) c x.d.toNat 0

/-- A group has been saved: its core's resources are free (R288). -/
def State.endSave (s : State) (gid : Nat) : State :=
  match s.group? gid with
  | none => s
  | some g =>
    let s := if s.holdsMatrix g then s.freeMatrix g.core else s
    (s.updGroup gid fun g => { g with stat := .saved }).freeBind gid

/-- An evicted gang, once its last member has been saved, goes to the head of its launch's queue (R306): from then on it waits
(R304). -/
def State.requeue (s : State) (gid : Nat) : State :=
  match s.group? gid with
  | none => s
  | some g =>
    if s.groups.any fun x => x.launch == g.launch && x.gang == g.gang && x.place != 0xFF && x.stat != .saved && x.stat != .ended then s
    else s.updLaunch g.launch fun l => { l with
      waitingGangs := g.gang :: l.waitingGangs
      live := l.live - 1
      waitFrom := if l.waitingGangs.isEmpty then s.tick47 / 47 else l.waitFrom }

/-- Whether a save is an eviction's, whose record names no signal. -/
def EngOp.evicts (o : EngOp) : Bool := o.args == [1]

/-- CONTEXT_IMAGE_COMPLETION: the last byte of the image has been written (CSAVE, eviction) or read (CLOAD, CMIGR). -/
def execContextImageCompletion (op : Nat) (s : State) : Host.Outcome State Fault Refusal :=
  match s.op? op with
  | none => .refused (.notEnabled "CONTEXT_IMAGE_COMPLETION")
  | some o =>
    match o.kind with
    | .save =>
      let s1 := o.gids.foldl State.endSave s
      .next ((if o.evicts then s1.requeue (o.gids.headD 0) else s1).endOp o 0)
    | .load | .move => .next ((o.gids.foldl State.unpackGroup s).endOp o 0)
    | _ => .refused (.notEnabled "CONTEXT_IMAGE_COMPLETION")

/-! ### What lands in a saved group goes into its image (R48, R282, R288) -/

/-- Whether a group stands in its image: from its stop until its restore completes. -/
def Group.away (g : Group) : Bool := g.stat == .saved || g.stat == .moving

/-- The matrix engine that a group has saved. -/
def State.mxOf (s : State) (gid : Nat) : Option Matrix := (findBy (fun p => p.1 == gid) s.savedMx).map fun p => p.2

/-- The fields of a saved group's image that a landing may change. -/
def State.keptFields (s : State) (g : Group) : List Field :=
  let mx := match s.mxOf g.gid with | some x => x.fields g.matrixAt | none => []
  let ws := g.warps.flatMap fun w => (w.image 0).map fun f => (0x1000 + 0x6800 * w.idx + f.1, f.2)
  (List.range 16).map (fun b => (64 + 64 * b, 64, s.barField g b)) ++ ws
    ++ g.sMem.map (fun p => (0xD1000 + p.1, 1, p.2.toNat)) ++ g.nMem.map (fun p => (0xD1000 + g.sBytes + p.1, 1, p.2.toNat)) ++ mx

/-- Writes into the image of a group that stands in it what an event has changed of the group. -/
def State.syncImage (old new : State) (g : Group) : State :=
  match old.group? g.gid with
  | none => new
  | some h =>
    if !g.away || !h.away || decide (g = h ∧ new.mxOf g.gid = old.mxOf g.gid) then new
    else
      let fs := new.keptFields g
      let gs := old.keptFields h
      let gone := (gs.filter fun f => !(fs.any fun x => x.1 == f.1)).map fun f => (f.1, f.2.1, 0)
      let chg := gone ++ fs.filter fun f => !gs.contains f
      new.writeRaw (chg.flatMap fun f => putAt (g.image + f.1) (natBytes f.2.1 f.2.2))

/-- Writes into the images of the groups that stand in them what an event has changed of these. -/
def State.syncImages (old new : State) : State := new.groups.foldl (fun s g => State.syncImage old s g) new

end Sys2Proof.Machine
end

