-- ==== Sys2Proof/Machine/System.lean ====
section
/-! DEFINITION. System registers, the return from a kernel trap, translations, fault answers, sheaf answers, feed slots and
address-space ids: MFSR, MTSR, TRET, TLBINV, FQANS, SVCRET, FMAP and ASIDQ (R271, R283 to R290, R294 to R296). -/

namespace Sys2Proof.Machine

/-! ### MFSR and MTSR (R271, R285) -/

/-- KSTAT of the issuing warp (R271). -/
def Ctx.kstat (c : Ctx) : Nat :=
  c.grp.kernel.toNat + 2 * c.warp.inh.isSome.toNat + 4 * c.warp.inu.isSome.toNat + 8 * c.warp.susp.isSome.toNat

/-- The value of a system register for the issuing warp (R271). -/
def Ctx.sreg (s : State) (c : Ctx) (r : SReg) : DWord :=
  let d := s.die (c.grp.core / 128)
  let p := s.part c.grp.part
  match r with
  | .kstat => BitVec.ofNat 64 c.kstat
  | .kvec => d.kvec
  | .ktrb => d.ktrb
  | .kscr0 => c.warp.kscr0
  | .kscr1 => c.warp.kscr1
  | .ctxid => BitVec.ofNat 64 (c.grp.asid + 2 ^ 16 * c.grp.part)
  | .ptroot => (s.context c.grp.asid).root
  | .fqbase => p.fqbase
  | .fqctl => p.fqctl.setWidth 64
  | .racecfg => p.racecfg.setWidth 64
  | .orphlog => p.orphlog
  | .peatq => p.peatq.setWidth 64
  | .scrubpos => d.scrubpos
  | .intlog => d.intlog
  | .fwmbx => d.fwmbx
  | .ready => d.ready.setWidth 64

/-- MFSR (R285). -/
def execMfsr (x : OpMfsr) (s : State) : Host.Outcome State Fault Refusal :=
  sysInstr s (.mfsr x) fun c _ =>
    let v := c.sreg s x.r
    .next (finish s c none false
      (if x.r.wide then pairWrites x.d.toNat fun _ => v else [(x.d.toNat, fun _ => loHalf v)]) flag0)

/-- Whether a partition's fault queue holds an unanswered entry. -/
def State.fqBusy (s : State) (part : Nat) : Bool :=
  let p := s.part part
  (List.range p.fqCap).any fun i => s.fqPending p i

/-- Changes the issuing die. -/
def Ctx.setDie (s : State) (c : Ctx) (f : Die → Die) : State :=
  s.setDie (c.grp.core / 128) (f (s.die (c.grp.core / 128)))

/-- Changes the issuer's partition. -/
def Ctx.setPart (s : State) (c : Ctx) (f : Part → Part) : State := s.setPart c.grp.part (f (s.part c.grp.part))

/-- MTSR (R285). -/
def execMtsr (x : OpMtsr) (s : State) : Host.Outcome State Fault Refusal :=
  sysInstr s (.mtsr x) fun c l =>
    let v := c.pair x.a.toNat l
    let w := c.reg x.a.toNat l
    let bad := Host.Outcome.next (raise s c 0x20 (loHalf v) 0)
    let ok := fun (s : State) => Host.Outcome.next (finishPlain s c)
    match x.r with
    | .kvec => if v.extractLsb' 0 2 != 0 then bad else ok (c.setDie s fun d => { d with kvec := v })
    | .ktrb => if v.toNat % 0x80000 ≠ 0 ∨ !physRangeOk v.toNat 0x80000 then bad else ok (c.setDie s fun d => { d with ktrb := v })
    | .kscr0 => ok (s.updWarp c.cur.gid c.cur.widx fun w => { w with kscr0 := v })
    | .kscr1 => ok (s.updWarp c.cur.gid c.cur.widx fun w => { w with kscr1 := v })
    | .ptroot =>
      if v.toNat % 0x200000 ≠ 0 ∨ !physRangeOk v.toNat 0x200000 then bad
      else
        let die := c.grp.core / 128
        let drop := fun (t : List TlbEntry) => t.filter fun e => e.asid != c.grp.asid
        let core := fun (p : Nat × Core) => if p.1 / 128 = die then (p.1, { p.2 with tlb := drop p.2.tlb }) else p
        let s1 := s.setContext c.grp.asid { s.context c.grp.asid with root := v }
        let s2 := c.setDie s1 fun d => { d with tlb := drop d.tlb }
        ok { s2 with cores := s2.cores.map core }
    | .fqbase =>
      if s.fqBusy c.grp.part then .next (raise s c 0x20 7 0)
      else if !physOk v.toNat then bad
      else ok (c.setPart s fun p => { p with fqbase := v, parties := [] })
    | .fqctl =>
      if s.fqBusy c.grp.part then .next (raise s c 0x20 8 0)
      else if 12 < w.toNat % 16 then .next (illegal s c)
      else ok (c.setPart s fun p => { { p with fqctl := w &&& 0xF }.setFq 0 (p.fqctl.getLsbD 12) with parties := [] })
    | .racecfg => ok (c.setPart s fun p => { p with racecfg := w &&& 3 })
    | .orphlog => ok (c.setPart s fun p => { p with orphlog := v })
    | .peatq => ok (c.setPart s fun p => { p with peatq := w })
    | .intlog => ok (c.setDie s fun d => { d with intlog := v })
    | .fwmbx => ok (s.notify (c.grp.core / 128) v)
    | .kstat | .ctxid | .scrubpos | .ready => .next (illegal s c)

/-! ### TRET (R275, R286) -/

/-- TRET: the slot is read as the warp's own core sees it. -/
def execTret (s : State) : Host.Outcome State Fault Refusal :=
  sysInstr s .tret fun c _ =>
    if c.warp.inh.isNone then .next (illegal s c)
    else
      let r := readSlot (s.farByte c.grp.core c.grp.part) (s.trapSlot c.grp.core c.warp.slot)
      if r.bad then .next (illegal s c)
      else .next (trapReturn { s with cur := none } c.grp c.warp r)

/-! ### TLBINV (R289) -/

/-- The bytes of a page of a SIZE. -/
def invSize (z : Nat) : Nat := if z = 0 then 2 ^ 16 else if z = 1 then 2 ^ 21 else 2 ^ 30

/-- TLBINV: after the landing of a release at device scope the entries are removed, and vd lands (R144). -/
def execTlbinv (x : OpSys) (s : State) : Host.Outcome State Fault Refusal :=
  sysInstr s (.tlbinv x) fun c l =>
    let va := c.pair x.a.toNat l
    let ctl := (c.reg x.b.toNat l).toNat
    let kind := bitsOf ctl 16 2
    let size := bitsOf ctl 18 2
    let asid := bitsOf ctl 0 16
    if bitsOf ctl 20 12 ≠ 0 ∨ kind = 3 ∨ (kind = 0 ∧ size = 3) then sysStatus s c x.d.toNat 2
    else if kind = 0 ∧ va.toNat % invSize size ≠ 0 then sysStatus s c x.d.toNat 4
    else if kind ≠ 2 ∧ !c.grp.root ∧ (s.context asid).part ≠ c.grp.part then sysStatus s c x.d.toNat 3
    else
      let key := c.key s
      let mask := c.actMask none
      let s1 := addFly s c (flyFor mask [x.d.toNat] none)
      let args := [va.setWidth 32, (va >>> 32).setWidth 32, c.reg x.b.toNat l, BitVec.ofNat 32 c.grp.part]
      let o := { c.engOp s1 .tlbinv none args with fly := key, parked := true }
      let s2 := (s1.startOp o []).doAct c.grp c.cur.widx (.release .device false [.tlbinv o.id])
      .next (finishPending s2 c key false mask [x.d.toNat])

/-- Whether a translation of an address range of a context is named by an invalidation. -/
def EngOp.names (o : EngOp) (asid part lo n : Nat) : Bool :=
  let va := (join64 (o.args.getD 0 0) (o.args.getD 1 0)).toNat
  let ctl := (o.args.getD 2 0).toNat
  match bitsOf ctl 16 2 with
  | 0 => asid == bitsOf ctl 0 16 && meets lo n va (invSize (bitsOf ctl 18 2))
  | 1 => asid == bitsOf ctl 0 16
  | _ => part == (o.args.getD 3 0).toNat

/-- Whether a kept announcement link, or the header that it stands beside, lies on a removed page (R269, R289). -/
def State.linkNamed (s : State) (o : EngOp) (k : Link) : Bool :=
  let named := fun (p : Nat × Nat) => o.names k.asid (s.context k.asid).part p.1 p.2
  named k.recPage || (match k.hdrPage with | some h => named h | none => false)

/-- The accesses that have been translated and have still to perform, by their groups: transactions at an engine or behind
a release, what a warp's earlier writes hold back, and loads. -/
def State.translated (s : State) : List Nat :=
  let behind := fun (r : Release) => r.after.filterMap fun a => match a with | .send b => some b.gid | _ => none
  let held := fun (q : Queued) => match q.act with | .send _ _ => some q.gid | .store _ => some q.gid | _ => none
  let load := fun (f : Fly) =>
    if f.todo.any (fun t => match t.loc with | some (.phys _) => true | _ => false) then some f.gid else none
  (s.batches.map fun b => b.gid) ++ (s.cores.flatMap fun p => p.2.relq.flatMap behind) ++ s.queue.filterMap held
    ++ s.flys.filterMap load

/-- Whether some access of the contexts that an invalidation names has still to perform. -/
def State.accessPending (s : State) (o : EngOp) : Bool :=
  s.translated.any fun gid => match s.group? gid with
    | some g => (match bitsOf (o.args.getD 2 0).toNat 16 2 with
      | 2 => g.part == (o.args.getD 3 0).toNat
      | _ => g.asid == bitsOf (o.args.getD 2 0).toNat 0 16)
    | none => false

/-- TLBINV_COMPLETION: the release has landed; the entries and links are removed, every access through them has
performed, and vd lands 0 (R289). A walk in flight reads the tables when it completes, so it is repeated by that. -/
def execTlbinvCompletion (op : Nat) (s : State) : Host.Outcome State Fault Refusal :=
  match s.op? op with
  | none => .refused (.notEnabled "TLBINV_COMPLETION")
  | some o =>
    if o.kind != .tlbinv || o.parked || s.accessPending o then .refused (.notEnabled "TLBINV_COMPLETION")
    else
      let s1 := s.dropTlb fun e => o.names e.asid e.part e.vbase e.size
      let s2 := { s1 with
        links := s1.links.filter fun k => !s.linkNamed o k
        ops := s1.ops.filter fun y => y.id != op }
      .next (s2.landWords o.fly [0])

/-! ### FQANS (R275, R290, R320, R321) -/

/-- Releases one party of an answered entry; false where its record fails the check of a return. -/
def State.releaseParty (s : State) (p : Party) : State × Bool :=
  match p with
  | .warp gid widx =>
    match s.group? gid, s.warp? gid widx with
    | some g, some w =>
      if g.stat = .saved ∨ g.stat = .moving then
        let r := readSlot s.home (g.image + 0x1000 + 0x6800 * widx + 0x1260)
        if r.bad then (s, false)
        else
          let mark := fun (w : Warp) => { w with susp := w.susp.map fun v => { v with answered := true } }
          (s.updWarp gid widx mark, true)
      else
        let r := readSlot s.home (s.trapSlot g.core w.slot)
        if r.bad then (s, false) else (trapReturn s g w r, true)
    | _, _ => (s, true)
  | .closure gid widx key => (s.updWarp gid widx fun w => w.wake key, true)
  | .load fly granule =>
    let free := fun (t : Todo) => if t.va.toNat / 65536 = granule then { t with waiting := false } else t
    (s.updFly fly fun f => { f with todo := f.todo.map free }, true)
  | .drive id =>
    match s.drive? id with
    | some d => (s.setDrive { d with parked := false }, true)
    | none => (s, true)
  | .op id => ({ s with ops := updateBy (fun o => o.id == id) (fun o => { o with parked := false }) s.ops }, true)
  | .crec launch => (s.updLaunch launch fun l => { l with parked := false }, true)

/-- Releases the parties of an entry in order: the state and the parties that stay. -/
def State.releaseParties (s : State) : List Party → State × List Party
  | [] => (s, [])
  | p :: r =>
    let q := s.releaseParty p
    let t := q.1.releaseParties r
    (t.1, if q.2 then t.2 else p :: t.2)

/-- What the answer word and the entry index of FQANS name: the partition, or a status (R290). -/
def fqTarget (s : State) (c : Ctx) (idx vb : Nat) : Except Nat Nat :=
  let other := bitsOf vb 16 1 = 1
  let part := if other then bitsOf vb 8 8 else c.grp.part
  if 2 ≤ bitsOf vb 0 2 ∨ bitsOf vb 2 6 ≠ 0 ∨ bitsOf vb 17 15 ≠ 0 ∨ (!other ∧ bitsOf vb 8 8 ≠ 0) then .error 2
  else if other ∧ !c.grp.root then .error 3
  else if !(s.part part).live then .error 3
  else if (s.part part).fqCap ≤ idx then .error 4
  else if !s.fqPending (s.part part) idx then .error 1
  else .ok part

/-- The release of FQANS: it waits for the earlier writes of its warp and the earlier releases of its core, performs its own and lets it land (R290); the
state to wait in, or the state after the landing. -/
def fqRelease (s : State) (c : Ctx) : Except State State :=
  let behind := s.queue.any fun q => q.gid == c.cur.gid && q.widx == c.cur.widx
  if behind || !(s.core c.grp.core).relq.isEmpty then .error { s with cur := none }
  else
    let s1 := s.releaseOf c.grp .device [] none
    match (s1.core c.grp.core).relq with
    | [r] => if r.scope = 5 then .ok (s1.landHead r) else .error { s1 with cur := none }
    | _ => .error { s1 with cur := none }

/-- Sets STATE of an entry to answered, in one release of the fault hardware (R358). -/
def State.answerEntry (s : State) (part idx : Nat) : State := s.hardLand portCore part (s.answered (s.part part) idx)

/-- FQANS with RESUME (R290). -/
def execFqansResume (x : OpSys) (s : State) : Host.Outcome State Fault Refusal :=
  sysInstr s (.fqansResume x) fun c l =>
    let idx := (c.reg x.a.toNat l).toNat
    match fqRelease s c with
    | .error t => .next t
    | .ok s1 =>
      match fqTarget s1 c idx (c.reg x.b.toNat l).toNat with
      | .error k => sysPair s1 c x.d.toNat k 0
      | .ok part =>
        let ps := ((findBy (fun (q : Nat × List Party) => q.1 == idx) (s1.part part).parties).map fun q => q.2).getD []
        let r := s1.releaseParties ps
        let s2 := r.1.setPart part { r.1.part part with
          parties := ((r.1.part part).parties.filter fun q => q.1 != idx) ++ (if r.2.isEmpty then [] else [(idx, r.2)]) }
        let n := BitVec.ofNat 32 (ps.length - r.2.length)
        if r.2.isEmpty then sysPair ((s2.answerEntry part idx).repost part) c x.d.toNat 0 n
        else sysPair s2 c x.d.toNat 2 n

/-- FQANS with TERMINATE (R290, R321): the faulting context ends. -/
def execFqansTerminate (x : OpSys) (s : State) : Host.Outcome State Fault Refusal :=
  sysInstr s (.fqansTerminate x) fun c l =>
    let idx := (c.reg x.a.toNat l).toNat
    match fqRelease s c with
    | .error t => .next t
    | .ok s1 =>
      match fqTarget s1 c idx (c.reg x.b.toNat l).toNat with
      | .error k => sysPair s1 c x.d.toNat k 0
      | .ok part =>
        let p := s1.part part
        let asid := s1.homeNat (p.fqEntry idx + 10) 2
        let ps := ((findBy (fun (q : Nat × List Party) => q.1 == idx) p.parties).map fun q => q.2).getD []
        let crecs := ps.filterMap fun q => match q with | .crec l => some l | _ => none
        let s2 := crecs.foldl (fun s k => s.updLaunch k fun l => { l with recorded := true, parked := false }) s1
        let s3 := (s2.endContext asid).answerAll part asid
        sysPair (s3.repost part) c x.d.toNat 0 (BitVec.ofNat 32 ps.length)

/-! ### SVCRET (R294, R326, R328) -/

/-- The words of n bytes of a parameter record of a context, as a core reads them; none where they do not translate. -/
def State.paramNat (s : State) (core asid n : Nat) (p : DWord) : Option Nat :=
  match s.mapRanges core asid .read [(p.toNat, n)] with
  | .ok m => some (readNat (fun va => s.farByte core (s.context asid).part (vaAt m va)) p.toNat n)
  | .error _ => none

/-- Whether a descriptor of a landing ring is malformed (R334): BASE is not 4 KiB aligned in the global SRAM window, FSIZE is
no multiple of 64 up to 64 MiB, or LOGN, TC or a reserved bit is out of its range. -/
def State.ringMalformed (s : State) (core d : Nat) : Bool :=
  let base := bitsOf d 448 64
  let size := bitsOf d 224 32
  let outside := match s.translate core (bitsOf d 176 16) .write (BitVec.ofNat 64 base) with
    | .ok a => decide (sramEnd ≤ a)
    | .bad _ => true
  decide (base % 4096 ≠ 0) || decide (size = 0) || decide (size % 64 ≠ 0) || decide (2 ^ 26 < size) || decide (16 < bitsOf d 168 8)
    || decide (5 < bitsOf d 157 3) || decide (bitsOf d 0 156 ≠ 0) || outside

/-- A landing ring or endpoint from its descriptor (R334); a malformed one makes none. -/
def State.newEndpoint (s : State) (core handle caller part d : Nat) : State :=
  let asid := bitsOf d 176 16
  if s.ringMalformed core d then s else
  match s.openFeed core asid (BitVec.ofNat 64 (bitsOf d 384 64)) with
  | .error _ => s
  | .ok (num, s1) =>
    let e : Endpoint :=
      { handle := handle, owner := caller, ring := decide (bitsOf d 156 1 = 0), feed := num, asid := asid, part := part
        base := BitVec.ofNat 64 (bitsOf d 448 64), frames := 2 ^ bitsOf d 168 8, size := bitsOf d 224 32
        tag := BitVec.ofNat 32 (bitsOf d 192 32), src := bitsOf d 256 128, tc := bitsOf d 157 3, flow := bitsOf d 160 8
        next := 0, count := 0, drops := 0, slots := [] }
    { s1 with endpoints := s1.endpoints ++ [e] }

/-- What an answer with status 0 makes known to the ports and the storage queues: a namespace, a connection, an
endpoint, a ring, or that a handle is closed (R328; log 27). -/
def State.registerHandle (s : State) (core : Nat) (x : Sheaf) (handle : Nat) : State :=
  match s.group? x.gid with
  | none => s
  | some g =>
    let ws := x.args.getD (lowestLane x.mask) []
    let p := join64 (ws.getD 0 0) (ws.getD 1 0)
    let rd := fun (n : Nat) => s.paramNat core g.asid n p
    match x.cls with
    | 1 => match rd 256 with
      | some d =>
        let block := if (Config.freeWord s.free).getLsbD 0 then 4096 else 512
        { s with
          namespaces := s.namespaces ++ [⟨handle, g.asid, bitsOf d 0 128, bitsOf d 128 32, block⟩]
          free := s.free + 1 }
      | none => s
    | 2 => match rd 32 with
      | some d => { s with conns := s.conns ++ [⟨handle, g.asid, bitsOf d 0 128, bitsOf d 128 32, bitsOf d 160 8, bitsOf d 168 8⟩] }
      | none => s
    | 3 | 4 => match rd 64 with
      | some d => s.newEndpoint core handle g.asid g.part d
      | none => s
    | 8 =>
      let h := (ws.getD 0 0).toNat
      { s with
        namespaces := s.namespaces.filter fun n => !(n.handle == h && n.asid == g.asid)
        conns := s.conns.filter fun n => !(n.handle == h && n.asid == g.asid)
        endpoints := s.endpoints.filter fun n => !(n.handle == h && n.owner == g.asid) }
    | _ => s

/-- SVCRET: the answers follow the landing of a release at device scope; a handle that is not live, or already being
answered, returns 1 and the answer becomes an orphan. -/
def execSvcret (x : OpSys) (s : State) : Host.Outcome State Fault Refusal :=
  sysInstr s (.svcret x) fun c l =>
    let h := (c.reg x.a.toNat l).toNat
    let sh := smGet Sheaf.free (s.die (h / 2 ^ 29)).sheafs (h % 2 ^ 10)
    let gen := h / 2 ^ 10 % 2 ^ 19
    let owner := if sh.live ∧ sh.gen = gen then (sh.asid, sh.part)
      else match findBy (fun (p : Nat × Nat × Nat) => p.1 == gen) sh.past with | some p => p.2 | none => (c.grp.asid, c.grp.part)
    let again := s.ops.any fun o => o.kind == .answer && o.args.getD 0 0 == BitVec.ofNat 32 h
    if !sh.live || sh.gen != gen || again then
      sysStatus ((s.doAct c.grp c.cur.widx (.release .device false [])).logOrphan 3 owner.1 owner.2 (BitVec.ofNat 64 h) 0 0) c x.d.toNat 1
    else
      let o := { c.engOp s .answer none [BitVec.ofNat 32 h, BitVec.ofNat 32 owner.1, BitVec.ofNat 32 owner.2] with
        mask := c.cur.mask
        lanes := (List.range 32).map fun k => [c.reg x.b.toNat k, c.reg (x.b.toNat + 1) k] }
      let low := lowestLane sh.mask
      let s1 := s.startOp o []
      let s2 := if c.cur.mask.getLsbD low && c.reg (x.b.toNat + 1) low == 0 then
          s1.registerHandle c.grp.core sh (c.reg x.b.toNat low).toNat else s1
      sysStatus (s2.doAct c.grp c.cur.widx (.release .device false [.answer o.id])) c x.d.toNat 0

/-! ### FMAP (R295, R308) -/

/-- Whether a feed slot of a die belongs to a partition (R341); that of the service feed to the root (R327). -/
def State.ownsSlot (s : State) (part die slot : Nat) : Bool :=
  part == 0xFF || slot != 0 && (s.part part).slots.any fun r => r.1 == die && decide (r.2.1 ≤ slot) && decide (slot < r.2.1 + r.2.2)

/-- FMAP in one of its two operations: the checks, then a status that lands when the operation completes. The slot of the
service feed stays in use, and a slot that an operation is filling or emptying holds no feed for UNMAP (log 72). -/
def doFmap (s : State) (i : Instr) (x : OpSys) (unmap : Bool) : Host.Outcome State Fault Refusal :=
  sysInstr s i fun c l =>
    let va := c.pair x.a.toNat l
    let ctl := (c.reg x.b.toNat l).toNat
    let die := c.grp.core / 128
    let slot := bitsOf ctl 0 8
    let used := findBy (fun p => p.1 == slot) (s.die die).slots
    let busy := s.ops.any fun o => o.kind == .fmap && o.core / 128 == die && o.args.getD 1 0 == BitVec.ofNat 32 slot
    let moving := fun (num : Nat) => s.ops.any fun o => o.kind == .fmap && o.args.getD 2 0 == BitVec.ofNat 32 num
    if bitsOf ctl 9 23 ≠ 0 then sysStatus s c x.d.toNat 2
    else if va.toNat % 128 ≠ 0 ∨ !canonical va then sysStatus s c x.d.toNat 4
    else if !s.ownsSlot c.grp.part die slot then sysStatus s c x.d.toNat 3
    else
      let go := fun (s : State) (num : Nat) =>
        let key := c.key s
        let mask := c.actMask none
        let s1 := addFly s c (flyFor mask [x.d.toNat] none)
        let o := { c.engOp s1 .fmap none [if unmap then 1 else 0, BitVec.ofNat 32 slot, BitVec.ofNat 32 num] with fly := key }
        Host.Outcome.next (finishPending (s1.startOp o []) c key false mask [x.d.toNat])
      if unmap then
        match (if busy ∨ slot = 0 then none else used) with
        | none => sysStatus s c x.d.toNat 3
        | some p =>
          let other := match s.feed? p.2 with | some f => f.part != c.grp.part | none => false
          if !c.grp.root && other then sysStatus s c x.d.toNat 3 else go s p.2
      else if used.isSome || busy || slot == 0 then sysStatus s c x.d.toNat 1
      else
        match s.openFeed c.grp.core c.grp.asid va with
        | .error f => .next (xlatTrap s c true f)
        | .ok (num, s1) =>
          match s1.feed? num with
          | none => sysStatus s c x.d.toNat 3
          | some f =>
            if !c.grp.root && f.part != c.grp.part then sysStatus s c x.d.toNat 3
            else if f.mapped.isSome || moving num then sysStatus s c x.d.toNat 1
            else go s1 num

/-- FMAP with MAP (R295). -/
def execFmapMap (x : OpSys) (s : State) : Host.Outcome State Fault Refusal := doFmap s (.fmapMap x) x false

/-- FMAP with UNMAP (R295). -/
def execFmapUnmap (x : OpSys) (s : State) : Host.Outcome State Fault Refusal := doFmap s (.fmapUnmap x) x true

/-- FMAP_COMPLETION: a feed enters its slot, with a pending wake raised, or leaves it, its state written back to the
descriptor; vd lands 0 (R295). -/
def execFmapCompletion (op : Nat) (s : State) : Host.Outcome State Fault Refusal :=
  match s.op? op with
  | none => .refused (.notEnabled "FMAP_COMPLETION")
  | some o =>
    let die := o.core / 128
    let slot := (o.args.getD 1 0).toNat
    let num := (o.args.getD 2 0).toNat
    let s := if o.args.getD 0 0 = 0 then s.syncFeed o.core num else s
    match (if o.kind == .fmap then s.feed? num else none) with
    | none => .refused (.notEnabled "FMAP_COMPLETION")
    | some f =>
      let d := s.die die
      let s1 := { s with ops := s.ops.filter fun y => y.id != op }
      if o.args.getD 0 0 = 0 then
        let s2 := (s1.setFeed { f with mapped := some (die, slot), wakep := false }).setDie die { d with slots := d.slots ++ [(slot, num)] }
        .next (((s2.saveFeed o.core num).serveFeed num 64).landWords o.fly [0])
      else
        let s2 := (s1.setFeed { f with mapped := none }).setDie die { d with slots := d.slots.filter fun p => p.1 != slot }
        .next ((s2.saveFeed o.core num).landWords o.fly [0])

/-! ### ASIDQ (R296, R324, R361) -/

/-- The storage and network operations of an ASID that are outstanding; a watch that its warp has cancelled is none. -/
def State.asidOps (s : State) (asid : Nat) : Nat :=
  (s.ops.filter fun (o : EngOp) => o.asid == asid && (match o.kind with
    | OpKind.net k => !(k == 4 && o.orphan)
    | .storage _ => true
    | _ => false)).length

/-- ASIDQ: the checks that its operations share, and the count in vd+1. -/
def doAsidq (s : State) (i : Instr) (x : OpSys) (f : Nat → Nat → State × Nat) : Host.Outcome State Fault Refusal :=
  sysInstr s i fun c l =>
    let va := (c.reg x.a.toNat l).toNat
    let vb := (c.reg x.b.toNat l).toNat
    let asid := va % 2 ^ 16
    let n := s.asidOps asid
    let cnt := BitVec.ofNat 32 n
    if 2 ^ 16 ≤ va ∨ 3 ≤ vb then sysPair s c x.d.toNat 2 cnt
    else if !c.grp.root && (s.context asid).part != c.grp.part then sysPair s c x.d.toNat 3 cnt
    else
      let r := f asid n
      sysPair r.1 c x.d.toNat r.2 cnt

/-- ASIDQ ENTER (R296, R361). -/
def execAsidqEnter (x : OpSys) (s : State) : Host.Outcome State Fault Refusal :=
  doAsidq s (.asidqEnter x) x fun asid _ =>
    if s.groups.any fun g => g.asid == asid && g.stat != .ended then (s, 1)
    else if (s.context asid).state = .quarantined then (s, 0)
    else (s.quarantine asid, 0)

/-- ASIDQ QUERY (R296). -/
def execAsidqQuery (x : OpSys) (s : State) : Host.Outcome State Fault Refusal :=
  doAsidq s (.asidqQuery x) x fun _ _ => (s, 0)

/-- An ASID is free for a new context: what the old one named is gone, and a ring that it opened for another context's consumer
is not the new context's to close (R324, R328). -/
def State.leaveAsid (s : State) (asid : Nat) : State :=
  let s := { s with
    ops := s.ops.filter fun (o : EngOp) => !(o.asid == asid && o.kind == OpKind.net 4 && o.orphan)
    namespaces := s.namespaces.filter fun n => n.asid != asid
    conns := s.conns.filter fun n => n.asid != asid
    endpoints := (s.endpoints.filter fun (n : Endpoint) => n.asid != asid).map fun (n : Endpoint) => if n.owner = asid then { n with owner := 2 ^ 16 } else n }
  ((s.settleFaults asid).dropAsid asid).setContext asid { s.context asid with state := .free, root := 0 }

/-- ASIDQ LEAVE (R296): a live ASID is in a state that forbids it. -/
def execAsidqLeave (x : OpSys) (s : State) : Host.Outcome State Fault Refusal :=
  doAsidq s (.asidqLeave x) x fun asid n =>
    if 0 < n ∨ (s.context asid).state = .live then (s, 1) else (s.leaveAsid asid, 0)

end Sys2Proof.Machine
end

