-- ==== Sys2Proof/Machine/Partition.lean ====
section
/-! DEFINITION. Key slots, the scrub engine and partitions: KSLOT, SCRUB and PART with their events (R291 to R293, R341 to
R346, R353, R359, R362). -/

namespace Sys2Proof.Machine

/-- The number in n bytes of group scratch that KSLOT LOAD, SCRUB and PART ASSIGN read, as an S load of the issuing warp
(R359): a status of 4 where it is misaligned or outside the allocation, a RANGE_LOCK trap, or the number. -/
def scratchOperand (s : State) (c : Ctx) (o n : Nat) : Except (Option State) Nat :=
  if o % 16 ≠ 0 ∨ c.grp.sBytes < o + n then .error none
  else if (s.core c.grp.core).locked 0 c.grp.asid o n then .error (some (raise s c 3 0 (BitVec.ofNat 64 o)))
  else .ok (s.loadNat c.grp.core c.grp.part (.sram c.grp.gid o) n)

/-! ### KSLOT (R291) -/

/-- A key slot of a die. -/
def State.kslot (s : State) (die k : Nat) : KSlot := smGet KSlot.free (s.die die).kslots k

/-- Changes a key slot. -/
def State.setKslot (s : State) (die k : Nat) (x : KSlot) : State :=
  let d := s.die die
  s.setDie die { d with kslots := smSet KSlot.free d.kslots k x }

/-- The control word of KSLOT: the die and the slot, or none where it is malformed. -/
def kslotControl (v : Nat) : Option (Nat × Nat) :=
  if bitsOf v 11 21 ≠ 0 ∨ bitsOf v 6 2 = 3 then none else some (bitsOf v 8 3, bitsOf v 0 6)

/-- Whether an issuer may load or zeroise a slot: one that another partition owns is not its. -/
def KSlot.foreign (x : KSlot) (g : Group) : Bool := x.loaded && x.part != g.part && !g.root

/-- KSLOT LOAD: 32 bytes of data key and 32 bytes of tweak key. -/
def execKslotLoad (x : OpSys) (s : State) : Host.Outcome State Fault Refusal :=
  sysInstr s (.kslotLoad x) fun c l =>
    match kslotControl (c.reg x.b.toNat l).toNat with
    | none => sysPair s c x.d.toNat 2 0
    | some (die, k) =>
      match scratchOperand s c (c.reg x.a.toNat l).toNat 64 with
      | .error (some t) => .next t
      | .error none => sysPair s c x.d.toNat 4 0
      | .ok v =>
        let old := s.kslot die k
        if old.foreign c.grp then sysPair s c x.d.toNat 3 0
        else if old.loaded then sysPair s c x.d.toNat 1 0
        else
          sysPair (s.setKslot die k ⟨true, c.grp.part, natBytes 32 v, natBytes 32 (v / 2 ^ 256)⟩) c x.d.toNat 0 0

/-- A core loses stores that have not landed, without write-back: their releases land without them. -/
def Core.dropStores (k : Core) (gone : FarStore → Bool) : Core :=
  let ords := (k.stores.filter fun x => gone x && !x.landed).map fun x => x.ord
  let left := fun (r : Release) =>
    let xs := k.stores.filter fun x => r.ords.contains x.ord && !ords.contains x.ord
    { r with ords := xs.map fun x => x.ord, writes := xs.map fun x => (x.addr, x.byte), marks := marksOf [] xs }
  { k with
    stores := k.stores.filter fun x => !ords.contains x.ord
    relq := k.relq.map fun r => if r.ords.any ords.contains then left r else r }

/-- Lines are known anew from their home copies alone: no snapshot and no landing keeps bytes of them. -/
def State.settleLines (s : State) (ls : List Nat) : State :=
  { s with
    base := smSets 0 s.base (ls.flatMap fun n => putAt (128 * n) ((List.range 128).map fun i => smGet 0 s.mem (128 * n + i)))
    log := s.log.map fun l => { l with writes := l.writes.filter fun w => !ls.contains (rawAddr w.1 / 128) } }

/-- The cached lines that were deciphered with some key slots of a die are dropped without write-back (R291): what cores have
stored there and has not landed is gone, and what has landed is read from home memory anew, where it stands under the keys with
which it was written, not under those that the slot will hold (log 74). -/
def State.dropKeyLines (s : State) (die : Nat) (ks : List Nat) : State :=
  let hit := fun (a : Nat) => homeDie a == die && (match keySlot a with | some k => ks.contains k | none => false)
  let lines := (s.log.flatMap fun l => (l.writes.filter fun w => hit w.1).map fun w => rawAddr w.1 / 128).eraseDups
  let t := s.settleLines lines
  { t with cores := t.cores.map fun p => (p.1, p.2.dropStores fun x => hit x.addr) }

/-- Whether some access uses a key slot of a die and has still to perform: a transaction, a release, what a warp's earlier
writes hold back, or a load (R291). -/
def State.keyPending (s : State) (die k : Nat) : Bool :=
  let hit := fun (a : Nat) => homeDie a == die && keySlot a == some k
  let at_ := fun (l : Loc) => match l with | .phys a => hit a | _ => false
  let batch := fun (b : Batch) => b.txs.any fun t => at_ t.loc
  let behind := fun (a : After) => match a with | .send b => batch b | _ => false
  let held := fun (q : Queued) => match q.act with
    | .store ws => ws.any fun w => at_ w.1
    | .send _ bs => bs.any batch
    | _ => false
  (s.batches.any batch) || (s.queue.any held)
    || (s.flys.any fun f => f.todo.any fun t => match t.loc with | some l => at_ l | none => false)
    || s.cores.any fun p => p.2.relq.any fun r => (r.writes.any fun w => hit w.1) || r.after.any behind

/-- KSLOT ZERO: the keys are zeros, the slot's lines are dropped and it is free; vd lands when every access that uses it has
performed. -/
def execKslotZero (x : OpSys) (s : State) : Host.Outcome State Fault Refusal :=
  sysInstr s (.kslotZero x) fun c l =>
    match kslotControl (c.reg x.b.toNat l).toNat with
    | none => sysPair s c x.d.toNat 2 0
    | some (die, k) =>
      if (s.kslot die k).foreign c.grp then sysPair s c x.d.toNat 3 0
      else
        let key := c.key s
        let mask := c.actMask none
        let rs := [x.d.toNat, x.d.toNat + 1]
        let s1 := addFly ((s.setKslot die k KSlot.free).dropKeyLines die [k]) c (flyFor mask rs none)
        let o := { c.engOp s1 .kzero none [BitVec.ofNat 32 die, BitVec.ofNat 32 k] with fly := key }
        .next (finishPending (s1.startOp o []) c key false mask rs)

/-- KSLOT QUERY: whether the slot is loaded, and the partition that owns it. -/
def execKslotQuery (x : OpSys) (s : State) : Host.Outcome State Fault Refusal :=
  sysInstr s (.kslotQuery x) fun c l =>
    match kslotControl (c.reg x.b.toNat l).toNat with
    | none => sysPair s c x.d.toNat 2 0
    | some (die, k) =>
      let y := s.kslot die k
      sysPair s c x.d.toNat 0 (BitVec.ofNat 32 (y.loaded.toNat + 2 ^ 16 * y.part))

/-- KSLOT_ZERO_COMPLETION: no access that uses the slot has still to perform, and vd lands 0. -/
def execKslotZeroCompletion (op : Nat) (s : State) : Host.Outcome State Fault Refusal :=
  match s.op? op with
  | none => .refused (.notEnabled "KSLOT_ZERO_COMPLETION")
  | some o =>
    let die := (o.args.getD 0 0).toNat
    if o.kind != .kzero || s.keyPending die (o.args.getD 1 0).toNat then .refused (.notEnabled "KSLOT_ZERO_COMPLETION")
    else .next (({ s with ops := s.ops.filter fun y => y.id != op }).landWords o.fly [0, 0])

/-! ### SCRUB (R292, R362) -/

/-- Entries of 16 bytes in a number: a start and a length. -/
def rangeList (v : Nat) : Nat → List (Nat × Nat)
  | 0 => []
  | n + 1 => (v % 2 ^ 64, v / 2 ^ 64 % 2 ^ 64) :: rangeList (v / 2 ^ 128) n

/-- Ranges without the bytes from lo to lo + n. -/
def carve (rs : List (Nat × Nat)) (lo n : Nat) : List (Nat × Nat) :=
  rs.flatMap fun r =>
    if meets r.1 r.2 lo n then
      (if r.1 < lo then [(r.1, lo - r.1)] else []) ++ (if lo + n < r.1 + r.2 then [(lo + n, r.1 + r.2 - (lo + n))] else [])
    else [r]

/-- Whether a range of a scrub list is dirty memory of a die, in whole 4 KiB pages. -/
def State.scrubbable (s : State) (die : Nat) (r : Nat × Nat) : Bool :=
  decide (r.1 % 4096 = 0) && decide (r.2 % 4096 = 0) && physRangeOk r.1 r.2
    && homeDie r.1 == die && homeDie (r.1 + r.2 - 1) == die
    && covered s.dirty (s.dirty.length + 1) r.1 (r.1 + r.2)

/-- The entries of a scrub list that the engine has not finished. -/
def scrubLeft (rs : List (Nat × Nat)) (pos : Nat) : Nat :=
  match rs with
  | [] => 0
  | r :: t => if r.2 ≤ pos then scrubLeft t (pos - r.2) else 1 + t.length

/-- What the engine zeroes next: the address, and the range that this finishes. -/
def scrubNext (rs : List (Nat × Nat)) (pos : Nat) : Option (Nat × Option (Nat × Nat)) :=
  match rs with
  | [] => none
  | r :: t => if r.2 ≤ pos then scrubNext t (pos - r.2) else some (r.1 + pos, if r.2 ≤ pos + 4096 then some r else none)

/-- The group of SCRUB: the entries, the operation and the die; none where it is malformed. -/
def scrubControl (ws : List Word) : Option (Nat × Nat × Nat) :=
  let v := (ws.getD 0 0).toNat
  if bitsOf v 9 23 ≠ 0 ∨ 2 ≤ bitsOf v 4 2 ∨ ws.getD 1 0 ≠ 0 then none else some (bitsOf v 0 4 + 1, bitsOf v 4 2, bitsOf v 6 3)

/-- SCRUB START: only the root may issue it (R284). -/
def execScrubStart (x : OpSys) (s : State) : Host.Outcome State Fault Refusal :=
  sysInstr s (.scrubStart x) fun c l =>
    let ws := c.words x.b.toNat 4 l
    match scrubControl ws with
    | none => sysPair s c x.d.toNat 2 0
    | some (n, _, die) =>
      if !c.grp.root then sysPair s c x.d.toNat 3 0
      else
        match s.checkSignal c.grp (ws.getD 2 0) (ws.getD 3 0) with
        | .illegal => .next (raise s c 0x20 (ws.getD 2 0) 0)
        | .status k => sysPair s c x.d.toNat k 0
        | .ok sig =>
          match scratchOperand s c (c.reg x.a.toNat l).toNat (16 * n) with
          | .error (some t) => .next t
          | .error none => sysPair s c x.d.toNat 4 0
          | .ok v =>
            let rs := rangeList v n
            let d := s.die die
            if !(rs.all fun r => s.scrubbable die r) then sysPair s c x.d.toNat 4 0
            else if d.scrub.active then sysPair s c x.d.toNat 1 0
            else
              let y : Scrub := { d.scrub with active := true, list := rs, signal := some sig }
              sysPair (s.setDie die { d with scrubpos := 0, scrub := y }) c x.d.toNat 0 0

/-- SCRUB QUERY. -/
def execScrubQuery (x : OpSys) (s : State) : Host.Outcome State Fault Refusal :=
  sysInstr s (.scrubQuery x) fun c l =>
    match scrubControl (c.words x.b.toNat 4 l) with
    | none => sysPair s c x.d.toNat 2 0
    | some (_, _, die) =>
      if !c.grp.root then sysPair s c x.d.toNat 3 0
      else
        let d := s.die die
        let left := if d.scrub.active then scrubLeft d.scrub.list d.scrubpos.toNat else 0
        sysPair s c x.d.toNat 0 (BitVec.ofNat 32 (d.scrub.active.toNat + 16 * left))

/-- The engine's work after SCRUBPOS has reached its next boundary: the range it has finished is clean, and after the
last byte it stops and the signal follows. -/
def State.scrubPage (s : State) (die at_ : Nat) (fin : Option (Nat × Nat)) : State :=
  let s := s.clearRaw at_ 4096
  let d := s.die die
  let pos := d.scrubpos.toNat + 4096
  let s := match fin with
    | some r => { s with dirty := carve s.dirty r.1 r.2 }
    | none => s
  if (scrubNext d.scrub.list pos).isNone then
    let y : Scrub := { d.scrub with active := false, pausing := false, signal := none }
    (s.setDie die { d with scrubpos := BitVec.ofNat 64 pos, scrub := y }).giveSignal? d.scrub.signal 0
  else s.setDie die { d with scrubpos := BitVec.ofNat 64 pos }

/-- Whether the engine has reached the boundary at which the pause of a PART RESET begins: the first after the reset (R362). -/
def Die.atPause (d : Die) : Bool := d.scrub.pausing && d.scrubpos.toNat != d.scrub.resetAt

/-- SCRUB_PROGRESS: the next 4 KiB are zeros (R292); the page that is under way when a PART RESET is issued is finished (R362). -/
def execScrubProgress (die : Nat) (s : State) : Host.Outcome State Fault Refusal :=
  let d := s.die die
  match (if d.scrub.active && !d.atPause && !d.scrub.paused then scrubNext d.scrub.list d.scrubpos.toNat else none) with
  | some (a, fin) => .next (s.scrubPage die a fin)
  | none => .refused (.notEnabled "SCRUB_PROGRESS")

/-- SCRUB_PAUSE: the pause of a PART RESET begins, at the first boundary after it (R362). -/
def execScrubPause (die : Nat) (s : State) : Host.Outcome State Fault Refusal :=
  let d := s.die die
  if d.scrub.active && d.atPause && !d.scrub.paused then
    let y : Scrub := { d.scrub with pausing := false, paused := true }
    .next (s.setDie die { d with scrub := y })
  else .refused (.notEnabled "SCRUB_PAUSE")

/-- SCRUB_RESUME: the reset has finished; the engine goes on with the next byte (R362). -/
def execScrubResume (die : Nat) (s : State) : Host.Outcome State Fault Refusal :=
  let d := s.die die
  if d.scrub.paused then
    let y : Scrub := { d.scrub with paused := false }
    .next (s.setDie die { d with scrub := y })
  else .refused (.notEnabled "SCRUB_RESUME")

/-! ### PART (R293, R341) -/

/-- The numbers of the set bits of a number below n. -/
def bitsSet (v n : Nat) : List Nat := (List.range n).filter fun i => v.testBit i

/-- The partition that a descriptor describes (R341). -/
def partOf (v : Nat) : Part :=
  let cl := bitsSet (bitsOf v 320 128) 128
  { Part.absent with
    live := true
    peatq := BitVec.ofNat 32 (bitsOf v 256 32)
    clusters := cl
    ports := bitsOf v 304 16
    slots := ((cl.map fun k => k / 16).eraseDups).map fun d => (d, bitsOf v 296 8, bitsOf v 288 8)
    ranges := rangeList (v / 2 ^ 512) (bitsOf v 248 8)
    peer := bitsOf v 448 64 }

/-- Whether the header of a descriptor is malformed (R341). -/
def partHeaderBad (v : Nat) : Bool :=
  decide (bitsOf v 248 8 = 0) || decide (16 < bitsOf v 248 8) || decide (bitsOf v 0 248 ≠ 0)
    || decide (bitsOf v 448 64 % 8192 ≠ 0) || decide (256 < bitsOf v 296 8 + bitsOf v 288 8)

/-- Whether two partitions would share a resource. -/
def Part.clashes (x y : Part) : Bool :=
  (x.clusters.any fun k => y.clusters.contains k) || x.ports &&& y.ports != 0
    || (x.slots.any fun a => y.slots.any fun b => a.1 == b.1 && meets a.2.1 a.2.2 b.2.1 b.2.2)
    || (x.ranges.any fun a => y.ranges.any fun b => meets a.1 a.2 b.1 b.2)

/-- Whether the memory of a range is ready: the slices of every die that it touches, or its stack (R353). -/
def State.memoryReady (s : State) (r : Nat × Nat) : Bool :=
  match stackOf r.1 with
  | some n => (s.die (n / 2)).ready.getLsbD (3 + n % 2)
  | none => (List.range 8).all fun d =>
      !(decide (homeDie r.1 ≤ d) && decide (d ≤ homeDie (r.1 + r.2 - 1))) || (s.die d).ready.getLsbD 1

/-- Whether a cluster is withheld: one of its cores has failed its test (R353). -/
def State.withheld (s : State) (k : Nat) : Bool := s.boot.failed.any fun c => c / 8 == k

/-- The status of an ASSIGN whose descriptor has been read: the first of 2, 4, 3 and 1 that applies (R293). A withheld cluster is
in no free pool: here it counts as a resource that the partition cannot have, status 3 (R353, log 88). -/
def State.assignStatus (s : State) (p : Nat) (x : Part) : Nat :=
  if !(x.ranges.all fun r => decide (r.1 % 4096 = 0) && decide (r.2 % 4096 = 0) && physRangeOk r.1 r.2) then 4
  else if (x.clusters.any s.withheld) || s.parts.any fun q => q.1 != p && q.2.live && x.clashes q.2 then 3
  else if (s.part p).live || x.ranges.any fun r => !s.memoryReady r || s.dirty.any fun y => meets y.1 y.2 r.1 r.2 then 1
  else 0

/-- The checks that the operations of PART share: the control word, and the root's right to all but QUERY (R284). -/
def doPart (s : State) (i : Instr) (x : OpSys) (query : Bool) (k : Ctx → Nat → Nat → Host.Outcome State Fault Refusal) :
    Host.Outcome State Fault Refusal :=
  sysInstr s i fun c l =>
    let v := (c.reg x.b.toNat l).toNat
    if bitsOf v 10 22 ≠ 0 ∨ bitsOf v 0 8 = 0xFF then sysStatus s c x.d.toNat 2
    else if !query && !c.grp.root then sysStatus s c x.d.toNat 3
    else k c (bitsOf v 0 8) l

/-- PART ASSIGN. -/
def execPartAssign (x : OpSys) (s : State) : Host.Outcome State Fault Refusal :=
  doPart s (.partAssign x) x false fun c p l =>
    let va := (c.reg x.a.toNat l).toNat
    match scratchOperand s c va 64 with
    | .error (some t) => .next t
    | .error none => sysStatus s c x.d.toNat 4
    | .ok h =>
      if partHeaderBad h then sysStatus s c x.d.toNat 2
      else
        match scratchOperand s c va (64 + 16 * bitsOf h 248 8) with
        | .error (some t) => .next t
        | .error none => sysStatus s c x.d.toNat 4
        | .ok v =>
          let y := partOf v
          match s.assignStatus p y with
          | 0 => sysStatus (s.setPart p y) c x.d.toNat 0
          | k => sysStatus s c x.d.toNat k

/-- The ASIDs of the user contexts of a partition. -/
def State.userAsids (s : State) (p : Nat) : List Nat :=
  (((s.groups.filter fun g => g.part == p && !g.kernel).map fun g => g.asid)
    ++ (s.launches.filter fun l => l.part == p && !l.kernel && !l.recorded).map fun l => l.desc.asid).eraseDups

/-- The fault queue of a partition is cleared: every entry zero, TAIL 0, OVF clear, and nobody waits (R293). An FQBASE of 0
names no queue, and memory is left alone (R342, log 73). -/
def State.clearQueue (s : State) (p : Nat) : State :=
  let x := s.part p
  let s := if x.fqbase = 0 then s else s.hardLand portCore p (putAt x.fqbase.toNat (List.replicate (32 * x.fqCap) 0))
  s.setPart p { x.setFq 0 false with parties := [], waiting := [] }

/-- The watches on a partition's lines go, and each watcher lands status 2 (R337). -/
def State.dropWatches (s : State) (p : Nat) : State :=
  let hit := s.watches.filter fun w => w.part == p
  let s := { s with watches := s.watches.filter fun w => w.part != p }
  hit.foldl (fun s w => s.sendMessage 5 w.peer 6 [BitVec.ofNat 64 w.token, 2]) s

/-- The pause of the scrub engines on the dies of a partition has been asked for (R292, R362). -/
def State.askPause (s : State) (p : Nat) : State :=
  (((s.part p).clusters.map fun k => k / 16).eraseDups).foldl (fun s die =>
    let d := s.die die
    let y : Scrub := { d.scrub with pausing := d.scrub.active, resetAt := d.scrubpos.toNat }
    s.setDie die { d with scrub := y }) s

/-- RESETTING A PARTITION (R293): its user contexts end and its queue is cleared; it keeps its resources. -/
def State.resetPart (s : State) (p : Nat) : State :=
  (((s.userAsids p).foldl State.endContext (s.askPause p)).clearQueue p).dropWatches p

/-- PART RESET. -/
def execPartReset (x : OpSys) (s : State) : Host.Outcome State Fault Refusal :=
  doPart s (.partReset x) x false fun c p _ =>
    if !(s.part p).live then sysStatus s c x.d.toNat 3 else sysStatus (s.resetPart p) c x.d.toNat 0

/-- The feeds in the feed slots of a partition leave them, their state written back to their descriptors (R293, R295). -/
def State.freeSlots (s : State) (p : Nat) : State :=
  let mine := s.feeds.filter fun f => match f.mapped with | some (die, slot) => p != 0xFF && s.ownsSlot p die slot | none => false
  let s := mine.foldl (fun s f => (s.setFeed { f with mapped := none }).saveFeed (128 * (f.mapped.getD (0, 0)).1) f.num) s
  let gone := mine.map fun f => f.num
  { s with dies := s.dies.map fun (q : Nat × Die) => (q.1, { q.2 with slots := q.2.slots.filter fun x => !gone.contains x.2 }) }

/-- A partition is deleted: its key slots are zeroised, as KSLOT ZERO does, its lines are dropped without write-back (R344), its
feed slots are free, its memory is dirty, and what its contexts had opened is gone. -/
def State.releasePart (s : State) (p : Nat) : State :=
  let mine := fun (d : Die) => (d.kslots.filter fun k => k.2.part == p && k.2.loaded).map fun k => k.1
  let wipe := fun (q : Nat × Die) => (q.1, { q.2 with kslots := q.2.kslots.filter fun k => k.2.part != p })
  let s := s.dies.foldl (fun s q => s.dropKeyLines q.1 (mine q.2)) ((s.dropWatches p).freeSlots p)
  { s with
    dies := s.dies.map wipe
    cores := s.cores.map fun q => (q.1, q.2.dropStores fun x => x.part == p)
    dirty := s.dirty ++ (s.part p).ranges
    endpoints := s.endpoints.filter fun e => e.part != p
    parts := smSet Part.absent s.parts p Part.absent }

/-- PART RELEASE. -/
def execPartRelease (x : OpSys) (s : State) : Host.Outcome State Fault Refusal :=
  doPart s (.partRelease x) x false fun c p _ =>
    if !(s.part p).live then sysStatus s c x.d.toNat 3
    else if !(s.userAsids p).isEmpty then sysStatus s c x.d.toNat 1
    else sysStatus (s.releasePart p) c x.d.toNat 0

/-- PART QUERY: the issuer's own partition, or any for the root. -/
def execPartQuery (x : OpSys) (s : State) : Host.Outcome State Fault Refusal :=
  doPart s (.partQuery x) x true fun c p _ =>
    if (!c.grp.root ∧ p ≠ c.grp.part) ∨ !(s.part p).live then sysStatus s c x.d.toNat 3 else sysStatus s c x.d.toNat 0

end Sys2Proof.Machine
end

