-- ==== Sys2Proof/Machine/Launch.lean ====
section
/-! DEFINITION. Command messages, launches, bind records and admission (R298 to R306): LAUNCH, APPEND, the writes of bind
records, back-offs, compaction, aging and eviction. -/

namespace Sys2Proof.Machine

/-! ### Command messages (R298 to R300) -/

/-- The header of a command message (R298). -/
structure CmdHeader where
  token : DWord
  launch : Nat
  part : Nat
  handle : Nat
  nrec : Nat
  kind : Nat
  deriving DecidableEq, Repr

/-- The fields of a header. -/
def cmdHeader (h : BitVec 128) : CmdHeader :=
  ⟨h.extractLsb' 64 64, (h.extractLsb' 32 32).toNat, (h.extractLsb' 24 8).toNat, (h.extractLsb' 20 4).toNat,
    (h.extractLsb' 8 12).toNat, (h.extractLsb' 0 8).toNat⟩

/-- The 16 bytes of a reply: TOKEN, then the launch id, the first SEQ and the count of an append, and the status (R298), in a layout
that is the model's (log 62). -/
def CmdHeader.reply (h : CmdHeader) (status launch seq count : Nat) : List DWord :=
  [h.token, BitVec.ofNat 30 launch ++ BitVec.ofNat 24 seq ++ BitVec.ofNat 7 count ++ BitVec.ofNat 3 status]

/-- The fields of a launch descriptor (R300). -/
def launchDesc (v : Nat) : LaunchDesc where
  entry := BitVec.ofNat 64 (bitsOf v 960 64)
  crec := BitVec.ofNat 64 (bitsOf v 896 64)
  feedtab := BitVec.ofNat 64 (bitsOf v 832 64)
  imgpool := BitVec.ofNat 64 (bitsOf v 768 64)
  ngang := bitsOf v 736 32
  asid := bitsOf v 688 16
  roles := (List.range 4).map fun r => bitsOf v (664 + 6 * r) 6
  sgr := bitsOf v 648 8
  ngr := bitsOf v 640 8
  regs := bitsOf v 632 8
  warps := bitsOf v 626 6
  gsize := bitsOf v 623 3 + 1
  prio := bitsOf v 621 2
  tile := 2 ^ bitsOf v 618 3
  holdapp := decide (bitsOf v 617 1 = 1)
  regions := []

/-- A program arrives through a port (R1): its entry has these declarations from now on. Declarations that R86 forbids are no
program's. -/
def State.addProgram (s : State) (p : Program) : State :=
  if s.linked && scratchOk p.regions then
    { s with programs := p :: s.programs.filter fun x => !(x.asid == p.asid && x.entry == p.entry) }
  else s

/-- The descriptor of a launch, with the declarations of its entry (R81, R86). -/
def State.launchFor (s : State) (v : Nat) : LaunchDesc :=
  let d := launchDesc v
  { d with regions := ((findBy (fun p => p.asid == d.asid && p.entry == d.entry) s.programs).map fun p => p.regions).getD [] }

/-- Whether a descriptor is malformed: a reserved field that is not 0, or an address or code that its field does not
allow (R300, R307). -/
def descBad (v : Nat) : Bool :=
  let d := launchDesc v
  decide (bitsOf v 0 617 ≠ 0) || decide (bitsOf v 656 8 ≠ 0) || decide (bitsOf v 704 32 ≠ 0)
    || decide (bitsOf v 618 3 = 0) || decide (5 < bitsOf v 618 3)
    || decide (d.entry.toNat % 4 ≠ 0) || decide (d.imgpool.toNat % 4096 ≠ 0)
    || decide (d.crec.toNat % 32 ≠ 0) || !canonical d.crec

/-- Whether a launch has the wrong shape (R300). -/
def LaunchDesc.misshapen (d : LaunchDesc) : Bool :=
  (decide (d.roles.sum ≠ 0) && decide (d.roles.sum ≠ d.warps)) || decide (256 < d.sgr + d.ngr)
    || decide (d.regs % 8 ≠ 0) || decide (d.regs < 8) || decide (128 < d.regs)
    || decide (d.warps = 0) || decide (32 < d.warps) || decide (d.ngang = 0)

/-- The launches that fill a partition's queue. -/
def State.queued (s : State) (part : Nat) : Nat := (s.launches.filter fun l => l.part == part && !l.recorded).length

/-- Whether a command message can arrive: flow 0 is the firmware core's own, and any other comes through a port (R1). -/
def State.cmdOpen (s : State) (flow : Nat) : Bool := s.boot.up && (flow == 0 || s.linked)

/-- The status of a LAUNCH message; flow 0 is the firmware core's own, which alone names the root partition. -/
def State.launchStatus (s : State) (flow : Nat) (h : CmdHeader) (body : List Byte) : Nat :=
  let v := bytesNat body
  let d := launchDesc v
  let c := s.context d.asid
  if h.kind ≠ 1 ∨ body.length ≠ 128 ∨ h.launch ≠ 0 ∨ h.nrec ≠ 0 ∨ h.handle ≠ 0 ∨ descBad v then 2
  else if !(s.part h.part).live ∨ (h.part = 0xFF ∧ flow ≠ 0) ∨ c.state = .quarantined ∨ (c.state = .live ∧ c.part ≠ h.part) then 3
  else if d.misshapen then 4
  else if 256 ≤ s.queued h.part then 1
  else 0

/-- An accepted launch enters the queue under the next id, and its ASID is live (R300, R324). -/
def State.acceptLaunch (s : State) (flow part : Nat) (d : LaunchDesc) : State :=
  let l : Launch :=
    { id := s.nextLaunch, desc := d, part := part, kernel := false, waitingGangs := List.range d.ngang, live := 0, done := 0
      tstart := none, accepted := s.tick47 / 47, terminated := false, held := d.holdapp, recorded := false, parked := false
      flow := flow, aged := 0, evictor := false, waited := 0, waitFrom := s.tick47 / 47 }
  { s.setContext d.asid ⟨(s.context d.asid).root, part, .live⟩ with
    launches := s.launches ++ [l]
    nextLaunch := s.nextLaunch + 1 }

/-- LAUNCH: the message is checked, queued and answered (R298, R300). The `.scratch` declarations are those that came with
the program of its entry (log 30). -/
def execLaunch (flow : Nat) (hdr : BitVec 128) (body : List Byte) (s : State) : Host.Outcome State Fault Refusal :=
  let h := cmdHeader hdr
  if !s.cmdOpen flow then .refused (.notEnabled "LAUNCH")
  else
    match s.launchStatus flow h body with
    | 0 => .next ((s.acceptLaunch flow h.part (s.launchFor (bytesNat body))).sendReply flow (h.reply 0 s.nextLaunch 0 0))
    | k => .next (s.sendReply flow (h.reply k 0 0 0))

/-- The records of an APPEND's body. -/
def appendRecords (n : Nat) (body : List Byte) : List (List Word) :=
  (List.range n).map fun i => (List.range 16).map fun j => BitVec.ofNat 32 (bytesNat ((body.drop (64 * i + 4 * j)).take 4))

/-- Places records in a feed while it has room, each poppable once a release of the front end has landed (R299): the
state and how many were placed. The releases of a partition's appends wait for one another, and for no other partition's (R342). -/
def State.appendMany (s : State) (num part : Nat) : List (List Word) → State × Nat
  | [] => (s, 0)
  | ws :: r =>
    match s.feed? num with
    | none => (s, 0)
    | some f =>
      if f.full then (s, 0)
      else
        let q := ((s.appendFeed (portOf part) f ws).release (portOf part) deviceDomain part 5 [.record num f.tail]).appendMany num part r
        (q.1, q.2 + 1)

/-- Answers an APPEND that placed nothing; one that names a launch ends its hold (R300). -/
def State.refuseAppend (s : State) (flow : Nat) (h : CmdHeader) (status : Nat) : State :=
  (s.sendReply flow (h.reply status h.launch 0 0)).updLaunch h.launch fun l => if l.part = h.part then { l with held := false } else l

/-- The launch that an APPEND names. -/
def State.appendLaunch (s : State) (h : CmdHeader) : Option Launch :=
  match s.launch? h.launch with
  | some l => if l.part = h.part ∧ !l.recorded ∧ (s.part h.part).live then some l else none
  | none => none

/-- APPEND: the records are placed in message order, and the reply follows the landing of their releases (R299). A message
of another KIND, or with a body of another length than its header says, does nothing (R298). -/
def execAppend (flow : Nat) (hdr : BitVec 128) (body : List Byte) (s : State) : Host.Outcome State Fault Refusal :=
  let h := cmdHeader hdr
  if !s.cmdOpen flow then .refused (.notEnabled "APPEND")
  else if h.kind ≠ 2 ∨ body.length ≠ 64 * h.nrec then .next (s.sendReply flow (h.reply 2 h.launch 0 0))
  else if h.nrec = 0 ∨ 64 < h.nrec then .next (s.refuseAppend flow h 2)
  else
    match (if h.part = 0xFF ∧ flow ≠ 0 then none else s.appendLaunch h) with
    | none => .next (s.refuseAppend flow h 3)
    | some l =>
      match (if l.desc.feedtab = 0 then .ok none else s.feedNamed (portOf l.part) l.desc.asid l.desc.feedtab h.handle) with
      | .error _ | .ok none => .next (s.refuseAppend flow h 3)
      | .ok (some (num, s1)) =>
        let first := match s1.feed? num with | some f => f.tail | none => 0
        let q := s1.appendMany num l.part (appendRecords h.nrec body)
        let status := if q.2 = h.nrec then 0 else 1
        if q.2 = 0 then .next (q.1.refuseAppend flow h status)
        else .next (q.1.release (portOf l.part) deviceDomain l.part 5 [.reply l.id flow (h.reply status l.id first q.2)])

/-! ### Bind records (R301, R302) -/

/-- A bind record as the firmware core writes it (R301). -/
structure BindWord where
  ldesc : Nat
  image : DWord
  gang : Nat
  asid : Nat
  part : Nat
  core : Nat
  member : Nat
  nmem : Nat
  prio : Nat
  kernel : Bool
  state : Nat
  attempt : Nat
  deriving DecidableEq, Repr

/-- The fields of a bind record. -/
def bindWord (r : BitVec 256) : BindWord where
  ldesc := (r.extractLsb' 192 64).toNat
  image := r.extractLsb' 128 64
  gang := (r.extractLsb' 96 32).toNat
  asid := (r.extractLsb' 80 16).toNat
  part := (r.extractLsb' 72 8).toNat
  core := (r.extractLsb' 65 7).toNat
  member := (r.extractLsb' 62 3).toNat
  nmem := (r.extractLsb' 59 3).toNat
  prio := (r.extractLsb' 57 2).toNat
  kernel := r.getLsbD 56
  state := (r.extractLsb' 53 3).toNat
  attempt := (r.extractLsb' 0 16).toNat

/-- A record of the slot tables, by its die and its number there. -/
def bindKey (die slot : Nat) : Nat := 8192 * die + slot

/-- A bind record. -/
def State.bind (s : State) (key : Nat) : Bind := smGet Bind.free s.binds key

/-- Changes a bind record. -/
def State.setBind (s : State) (key : Nat) (b : Bind) : State := { s with binds := smSet Bind.free s.binds key b }

/-- The records of a gang that is being admitted: HOLD, HELD, REFUSED or COMMIT. -/
def State.admitting (s : State) (launch gang : Nat) : List (Nat × Bind) :=
  s.binds.filter fun p => p.2.launch == launch && p.2.gang == gang && decide (1 ≤ p.2.state) && decide (p.2.state ≤ 4)

/-- The ticks that gangs of a launch have waited for admission, those of its present wait among them (R304). -/
def State.waitedFor (s : State) (l : Launch) : Nat :=
  l.waited + (if l.waitingGangs.isEmpty then 0 else s.tick47 / 47 - l.waitFrom)

/-- The effective priority of a launch: its PRIO and one for each 50 ms that it has waited, whether or not the event of
that step has been taken (R304). -/
def State.effective (s : State) (l : Launch) : Nat := min 3 (l.desc.prio + max l.aged (s.waitedFor l / 5000000))

/-- The back-off of a gang that has been refused. -/
def State.backoff? (s : State) (launch gang : Nat) : Option Backoff :=
  findBy (fun b => b.launch == launch && b.gang == gang) s.backoffs

/-- Whether a gang waits out a back-off (R303). -/
def State.backingOff (s : State) (launch gang : Nat) : Bool :=
  match s.backoff? launch gang with
  | some b => !b.expired
  | none => false

/-- The saved member of an evicted gang (R306). -/
def State.evicted? (s : State) (launch gang member : Nat) : Option Group :=
  findBy (fun g => g.launch == launch && g.gang == gang && g.member == member && g.place != 0xFF && g.stat == .saved) s.groups

/-- Whether a member of an evicted gang has ended: it takes no place again. -/
def State.memberOver (s : State) (launch gang member : Nat) : Bool :=
  s.groups.any fun g => g.launch == launch && g.gang == gang && g.member == member && g.place != 0xFF && g.stat == .ended

/-- Whether a gang has been evicted. -/
def State.wasEvicted (s : State) (l : Launch) (gang : Nat) : Bool :=
  (List.range l.desc.gsize).any fun m => (s.evicted? l.id gang m).isSome

/-- The place of a gang in the order of admission: the priority of its launch; at one priority evicted gangs (R306), then
gangs whose back-offs have expired, by expiry (R303), then gangs not yet tried; then acceptance and the gang number
(R304). Where the rules meet, log 76. -/
def State.rank (s : State) (l : Launch) (gang : Nat) : Nat :=
  let place := fun (k t : Nat) => 2 ^ 192 * (3 * (3 - s.effective l) + k) + 2 ^ 96 * t + 2 ^ 32 * l.id + gang
  if s.wasEvicted l gang then place 0 0
  else
    match s.backoff? l.id gang with
    | some b => place 1 b.tick
    | none => place 2 0

/-- The gangs of a launch that may be tried. -/
def State.triable (s : State) (l : Launch) : List Nat :=
  if l.terminated || l.held then []
  else l.waitingGangs.filter fun g => !s.backingOff l.id g && (s.admitting l.id g).isEmpty

/-- The next gang of a launch that may be tried. -/
def State.nextGang (s : State) (l : Launch) : Option Nat :=
  (s.triable l).foldl (fun r g =>
    match r with
    | none => some g
    | some h => if s.rank l g < s.rank l h then some g else r) none

/-- Whether a gang is the next of its partition to be tried, or is being tried already. -/
def State.inOrder (s : State) (l : Launch) (gang : Nat) : Bool :=
  !(s.admitting l.id gang).isEmpty ||
    (s.nextGang l == some gang && s.launches.all fun x =>
      x.part != l.part || (match s.nextGang x with
        | some g => decide (s.rank l gang ≤ s.rank x g)
        | none => true))

/-- The number of a gang's next attempt; a bind record holds its low 16 bits (R301, log 76). -/
def State.nextAttempt (s : State) (launch gang : Nat) : Nat :=
  match s.backoff? launch gang with
  | some b => b.attempt + 1
  | none => 1

/-- Whether a bind record may carry its kernel flag: it belongs to a context as a whole, fixed when the context is
created, and the firmware core gives it to launches of its own alone (R270). -/
def State.modeAllowed (s : State) (r : BindWord) (l : Launch) : Bool :=
  let started := decide (0 < l.live + l.done) || s.binds.any fun p => p.2.launch == l.id && p.2.state != 0
  (!r.kernel || l.flow == 0) && (r.kernel == l.kernel || !started)

/-- Whether the firmware core may write a HOLD (R301, R302, R304, R360). -/
def State.holdAllowed (s : State) (core : Nat) (r : BindWord) (l : Launch) : Bool :=
  r.state == 1 && r.core == core % 128 && r.asid == l.desc.asid && r.part == l.part && r.nmem + 1 == l.desc.gsize
    && r.prio == (if r.kernel then 3 else l.desc.prio) && s.modeAllowed r l && decide (r.member ≤ r.nmem) && decide (r.member ≤ core)
    && oneCluster (core - r.member) (r.nmem + 1) && l.waitingGangs.contains r.gang
    && ((s.admitting l.id r.gang).all fun p => p.2.state == 2)
    && ((List.range r.member).all fun j => (s.admitting l.id r.gang).any fun p => p.1 / 64 == core - r.member + j)
    && !((s.admitting l.id r.gang).any fun p => p.1 / 64 == core || p.2.member == r.member)
    && r.attempt == s.nextAttempt l.id r.gang % 65536 && s.inOrder l r.gang
    && (r.part == 0xFF || (s.part r.part).clusters.contains (core / 8))
    && (r.part != 0xFF || !r.kernel || core % 128 == 0)
    && (match s.evicted? l.id r.gang r.member with
        | some g => decide (r.image.toNat = g.image)
        | none => r.image == 0)

/-- Whether a core has the slots, windows and scratch of a group of a launch (R302). -/
def State.fits (s : State) (core : Nat) (l : Launch) : Bool :=
  (s.placeWarps core l.desc.warps l.desc.regs).isSome && s.scratchRoom core (4096 * (l.desc.sgr + l.desc.ngr))

/-- Whether a core has all that a member needs; a core held for one gang has nothing for another (R302). -/
def State.holdRoom (s : State) (core : Nat) (r : BindWord) (l : Launch) : Bool :=
  match s.evicted? l.id r.gang r.member with
  | some g => s.roomFor g core
  | none => (s.core core).held.isNone && (s.memberOver l.id r.gang r.member || s.fits core l)

/-- The lowest base below its own to which the window of a warp may move (R27, R303). -/
def State.lowerBase (s : State) (g : Group) (w : Warp) : Option Nat :=
  let others := (s.residents g.core).flatMap fun y =>
    (y.warps.filter fun v => !v.ended && v.slot % 4 == w.slot % 4 && !(y.gid == g.gid && v.idx == w.idx)).map fun v => (v.wbase, v.window)
  findBy (fun b => decide (b < w.wbase) && windowFits others b w.window) ((List.range 128).map (8 * ·))

/-- The windows of a core that can move. -/
def State.movable (s : State) (core : Nat) : List (Nat × Nat × Nat) :=
  (s.residents core).flatMap fun g => g.held.filterMap fun w => (s.lowerBase g w).map fun b => (g.gid, w.idx, b)

/-- The compaction of a core's windows goes on while one of them can move (R302, R303). -/
def State.compacting (s : State) (core : Nat) (on : Bool) : State :=
  let k := s.core core
  s.setCore core { k with compact := on && !(s.movable core).isEmpty }

/-- The ticks of a back-off (R303). -/
def backoffTicks (gang attempt : Nat) : Nat := (16 + gang * 0x9E3779B9 % 2 ^ 32 / 2 ^ 28) * 2 ^ (min attempt 6 - 1)

/-- Once no member of a refused gang is HELD any more, its records are FREE and it backs off (R302, R303). -/
def State.backOff (s : State) (launch gang : Nat) : State :=
  let rs := s.admitting launch gang
  if (rs.any fun q => q.2.state == 2) || !(rs.any fun q => q.2.state == 3) then s
  else
    let a := s.nextAttempt launch gang
    { s with
      binds := s.binds.filter fun q => !(rs.any fun x => x.1 == q.1)
      backoffs := (s.backoffs.filter fun b => !(b.launch == launch && b.gang == gang))
        ++ [⟨launch, gang, a, s.tick47 / 47 + backoffTicks gang a, false⟩] }

/-- BIND_HOLD: dispatch reserves what the member needs and answers HELD, or answers REFUSED and starts the compaction of the
core's windows (R302). -/
def execBindHold (die slot : Nat) (rec : BitVec 256) (s : State) : Host.Outcome State Fault Refusal :=
  let r := bindWord rec
  let key := bindKey die slot
  let core := key / 64
  match s.launch? r.ldesc with
  | none => .refused (.notEnabled "BIND_HOLD")
  | some l =>
    if !s.boot.up || decide (8 ≤ die) || decide (8192 ≤ slot) || (s.bind key).state != 0 || !s.holdAllowed core r l then
      .refused (.notEnabled "BIND_HOLD")
    else
      let b : Bind := ⟨l.id, r.image, r.gang, r.asid, r.part, r.member, r.nmem, r.prio, r.kernel, 2, r.attempt, 0⟩
      if s.holdRoom core r l then
        let k := s.core core
        let s1 := (s.setBind key b).setCore core { k with held := some (l.id, r.gang) }
        .next (s1.updLaunch l.id fun x => { x with kernel := r.kernel })
      else .next (((s.setBind key { b with state := 3 }).backOff l.id r.gang).compacting core true)

/-- A reservation of a core is dropped. -/
def State.unhold (s : State) (core : Nat) : State :=
  let k := s.core core
  s.setCore core { k with held := none }

/-- BIND_FREE: a HELD record is FREE again (R302). -/
def execBindFree (die slot : Nat) (s : State) : Host.Outcome State Fault Refusal :=
  let key := bindKey die slot
  let b := s.bind key
  if !s.boot.up || b.state != 2 then .refused (.notEnabled "BIND_FREE")
  else .next (((s.setBind key Bind.free).unhold (key / 64)).backOff b.launch b.gang)

/-! ### Starting a gang (R17, R18, R302) -/

/-- The role of a warp: roles in declaration order, each with its count (R18). -/
def roleOf (counts : List Nat) (i : Nat) : Nat :=
  match counts with
  | [] => 0
  | n :: r => if i < n then 0 else if r.sum = 0 then 0 else 1 + roleOf r (i - n)

/-- Slots and windows for the warps of a group whose room is held; what fits in total fits after compaction. -/
def State.placeReserved (s : State) (core n r : Nat) : State × List (Nat × Nat) :=
  match s.placeWarps core n r with
  | some ps => (s, ps)
  | none =>
    let t := [0, 1, 2, 3].foldl (fun s q => s.packWindows core q) s
    (t, (t.placeWarps core n r).getD [])

/-- Starts the group of a fresh member, with all its warps at the entry. -/
def State.startGroup (s : State) (l : Launch) (key : Nat) (b : Bind) : State :=
  let core := key / 64
  let d := l.desc
  let q := (s.unhold core).placeReserved core d.warps d.regs
  let warps := q.2.zipIdx.map fun p =>
    newWarp p.2 p.1.1 (roleOf d.roles p.2) d.regs p.1.2 d.entry 0xFFFFFFFF d.tile false []
  let g := { newGroup q.1.uid l core b.gang b.member (b.nmem + 1) (key % 64) (4096 * d.sgr) (4096 * d.ngr) (q.1.tick47 / 47) with
    warps := warps, kernel := b.kernel, prio := b.prio }
  { q.1.setBind key { b with state := 5, gid := g.gid } with groups := q.1.groups ++ [g], uid := q.1.uid + 1 }

/-- The operation that restores the members of an evicted gang. -/
def State.restoreOp (s : State) (g : Group) (core : Nat) (gids : List Nat) : EngOp where
  id := s.uid
  kind := .load
  gid := g.gid
  widx := 0
  core := core
  asid := g.asid
  args := []
  lanes := gids.map fun k => [BitVec.ofNat 32 k]
  mask := 0
  fly := 0
  dreg := 0
  signal := none
  snap := []
  cb := Codebook.initial
  sent := s.tick47 / 47
  parked := false
  orphan := false
  out := none
  part := g.part
  payer := s.payer g.part

/-- Starts a member: fresh, or placed for its restore. -/
def State.startMember (s : State) (l : Launch) (p : Nat × Bind) : State :=
  match s.evicted? l.id p.2.gang p.2.member with
  | none =>
    if s.memberOver l.id p.2.gang p.2.member then (s.unhold (p.1 / 64)).setBind p.1 Bind.free else s.startGroup l p.1 p.2
  | some g => (s.unhold (p.1 / 64)).placeGroup g.gid (p.1 / 64) (p.1 % 64)

/-- All members of a gang start together. -/
def State.startGang (s : State) (l : Launch) (gang : Nat) : State :=
  let rs := s.admitting l.id gang
  let old := (List.range l.desc.gsize).filterMap fun m => s.evicted? l.id gang m
  let s1 := rs.foldl (fun s p => s.startMember l p) s
  let s2 := match old, rs with
    | g :: _, p :: _ =>
      let o := s1.restoreOp g (p.1 / 64) (old.map fun (x : Group) => x.gid)
      s1.startOp o []
    | _, _ => s1
  let s3 := { s2 with backoffs := s2.backoffs.filter fun b => !(b.launch == l.id && b.gang == gang) }
  s3.updLaunch l.id fun x =>
    let last := (x.waitingGangs.erase gang).isEmpty
    { x with
      waitingGangs := x.waitingGangs.erase gang
      waited := if last then s.waitedFor x else x.waited
      evictor := x.evictor && !last
      live := x.live + 1
      tstart := some (x.tstart.getD (s.tick47 / 47)) }

/-- BIND_COMMIT: once every member is HELD, each record is committed, and with the last of them the groups of all
members start in the same tick (R302). -/
def execBindCommit (die slot : Nat) (s : State) : Host.Outcome State Fault Refusal :=
  let key := bindKey die slot
  let b := s.bind key
  match s.launch? b.launch with
  | none => .refused (.notEnabled "BIND_COMMIT")
  | some l =>
    let rs := s.admitting b.launch b.gang
    if !s.boot.up || b.state != 2 || rs.length != b.nmem + 1 || rs.any fun p => p.2.state != 2 && p.2.state != 4 then
      .refused (.notEnabled "BIND_COMMIT")
    else
      let s1 := s.setBind key { b with state := 4 }
      if (s1.admitting b.launch b.gang).all fun p => p.2.state == 4 then .next (s1.startGang l b.gang) else .next s1

/-! ### Back-off, compaction and aging (R303, R304) -/

/-- ADMISSION_BACKOFF_EXPIRY: the earliest back-off among gangs of one priority ends (R303). -/
def execAdmissionBackoffExpiry (launch gang : Nat) (s : State) : Host.Outcome State Fault Refusal :=
  let prio := fun (n : Nat) => match s.launch? n with | some l => s.effective l | none => 0
  match s.backoff? launch gang with
  | none => .refused (.notEnabled "ADMISSION_BACKOFF_EXPIRY")
  | some b =>
    let sooner := s.backoffs.any fun x => !x.expired && prio x.launch == prio launch && decide (x.tick < b.tick)
    if b.expired || decide (s.tick47 / 47 < b.tick) || sooner then .refused (.notEnabled "ADMISSION_BACKOFF_EXPIRY")
    else .next { s with
      backoffs := updateBy (fun x => x.launch == launch && x.gang == gang) (fun x => { x with expired := true }) s.backoffs }

/-- WINDOW_COMPACTION: on a core whose windows are being compacted, one warp's window moves down to an aligned block that is
free (R27, R302, R303). -/
def execWindowCompaction (gid widx base : Nat) (s : State) : Host.Outcome State Fault Refusal :=
  match s.group? gid, s.warp? gid widx with
  | some g, some w =>
    let others := (s.residents g.core).flatMap fun y =>
      (y.warps.filter fun v => !v.ended && v.slot % 4 == w.slot % 4 && !(y.gid == gid && v.idx == widx)).map fun v => (v.wbase, v.window)
    if !(s.core g.core).compact || !g.onCore || w.ended || decide (base % 8 ≠ 0) || decide (w.wbase ≤ base)
        || !windowFits others base w.window then .refused (.notEnabled "WINDOW_COMPACTION")
    else .next ((s.updWarp gid widx fun w => { w with wbase := base }).compacting g.core true)
  | _, _ => .refused (.notEnabled "WINDOW_COMPACTION")

/-- PRIORITY_AGING: each 50 ms of waiting raises a launch's effective priority by one, to 3 at most (R304). -/
def execPriorityAging (launch : Nat) (s : State) : Host.Outcome State Fault Refusal :=
  match s.launch? launch with
  | none => .refused (.notEnabled "PRIORITY_AGING")
  | some l =>
    if l.terminated || l.waitingGangs.isEmpty || decide (3 ≤ l.desc.prio + l.aged)
        || decide (s.waitedFor l < 5000000 * (l.aged + 1)) then .refused (.notEnabled "PRIORITY_AGING")
    else .next (s.updLaunch launch fun x => { x with aged := x.aged + 1 })

/-- EVICTION_WAIT_EXPIRY: a launch that has waited 2 ms may evict (R306). -/
def execEvictionWaitExpiry (launch : Nat) (s : State) : Host.Outcome State Fault Refusal :=
  match s.launch? launch with
  | none => .refused (.notEnabled "EVICTION_WAIT_EXPIRY")
  | some l =>
    if l.terminated || l.evictor || l.waitingGangs.isEmpty || decide (s.tick47 / 47 < l.waitFrom + 200000) then
      .refused (.notEnabled "EVICTION_WAIT_EXPIRY")
    else .next (s.updLaunch launch fun x => { x with evictor := true })

/-! ### Eviction (R306) -/

/-- The stride, in 4 KiB units, at which the images of an evicted gang stand: the least that covers the largest of them
(log 78). -/
def State.evictStride (s : State) (gs : List Group) : Nat :=
  (gs.map fun g => (g.imageSize (s.holdsMatrix g) + 4095) / 4096).foldl max 0

/-- Whether a gang may be evicted in favour of a launch, by the conditions of R306 on the gang alone. -/
def State.evictable (s : State) (l : Launch) (gs : List Group) : Bool :=
  !gs.isEmpty && gs.all fun g =>
    (g.stat == .run || g.stat == .draining || g.stat == .ended) && !g.kernel && g.part == l.part && decide (g.prio < s.effective l)
      && (match s.launch? g.launch with | some x => x.desc.imgpool != 0 | none => false)
      && (match g.restored with | some t => decide (t + 1000000 ≤ s.tick47 / 47) | none => true)

/-- The cores of a partition's clusters. -/
def State.partCores (s : State) (part : Nat) : List Nat :=
  (if part = 0xFF then List.range 128 else (s.part part).clusters).flatMap fun k => (List.range 8).map (8 * k + ·)

/-- Whether a waiting gang would find a placement once some groups were gone: adjacent cores of one cluster with all that
its members need (R21, R302). -/
def State.placeable (s : State) (l : Launch) (gang : Nat) (gone : List Group) : Bool :=
  let t := { s with groups := s.groups.filter fun g => !(gone.any fun x => x.gid == g.gid) }
  let room := fun (core m : Nat) =>
    match s.evicted? l.id gang m with
    | some g => t.roomFor g core
    | none => s.memberOver l.id gang m || ((t.core core).held.isNone && t.fits core l)
  (s.partCores l.part).any fun c => oneCluster c l.desc.gsize && (List.range l.desc.gsize).all fun m => room (c + m) m

/-- Whether the eviction of a gang would complete the placement of a launch's next gang. -/
def State.completes (s : State) (l : Launch) (gs : List Group) : Bool :=
  match s.nextGang l with
  | some gang => s.evictable l gs && s.placeable l gang gs
  | none => false

/-- Whether a group is the first resident member of its gang, whose record stands for the gang's. -/
def State.leads (s : State) (g : Group) : Bool :=
  match findBy Group.onCore (s.gangOf g) with
  | some x => x.gid == g.gid
  | none => false

/-- The gang that the firmware core evicts for a launch, of those that complete its placement: the lowest priority, then
the one most recently admitted (R306). -/
def State.victim (s : State) (l : Launch) (g : Group) : Bool :=
  l.evictor && !l.terminated && s.completes l (s.gangOf g) && s.groups.all fun h =>
    !s.leads h || h.gid == g.gid || !s.completes l (s.gangOf h) || decide (g.prio < h.prio)
      || (g.prio == h.prio && decide (h.since ≤ g.since))

/-- The images of an evicted gang lie in its pool, in memory of its partition (R277, R306). -/
def State.evictInto (s : State) (gs : List Group) (image : Nat) : Bool :=
  (match gs with
    | [] => false
    | g :: _ =>
      (match s.launch? g.launch with | some l => decide (l.desc.imgpool.toNat ≤ image) | none => false)
        && s.imagesOk g.part image (s.evictStride gs) gs (fun g => g.imageSize (s.holdsMatrix g))
        && decide (s.savedCount g.part + gs.length ≤ 1024))

/-- The operation that saves an evicted gang. -/
def State.evictOp (s : State) (g : Group) (gs : List Group) : EngOp :=
  { s.restoreOp g g.core (gs.map fun x => x.gid) with kind := .save, args := [1] }

/-- BIND_EVICT, of the record of a gang's first resident member: the hardware saves the gang as CSAVE does, and the members' records will
be FREE (R306). -/
def execBindEvict (die slot : Nat) (image : DWord) (s : State) : Host.Outcome State Fault Refusal :=
  let key := bindKey die slot
  let b := s.bind key
  match s.group? b.gid with
  | none => .refused (.notEnabled "BIND_EVICT")
  | some g =>
    let gs := (s.gangOf g).filter fun x => x.onCore
    let chosen := s.launches.any fun l => s.victim l g
    if !s.boot.up || b.state != 5 || !s.leads g || !chosen || !s.evictInto gs image.toNat then .refused (.notEnabled "BIND_EVICT")
    else
      let s1 := s.setBind key { b with state := 6, image := image }
      let s2 := s1.startOp (s1.evictOp g gs) []
      .next (gs.foldl (fun t x => t.packGroup x.gid (imageBase image.toNat (s.evictStride gs) x.member)) s2)

end Sys2Proof.Machine
end

