-- ==== Sys2Proof/Machine/Boot.lean ====
section
/-! DEFINITION. Page walks, power, bring-up and management (R315, R316, R330, R347, R350 to R356). -/

namespace Sys2Proof.Machine

/-! ### PAGE_WALK (R315, R316) -/

/-- A TLB with one entry more; a full one first loses an entry that nothing constrains. -/
def tlbAdd (t : List TlbEntry) (size : Nat) (victim : Nat) (e : TlbEntry) : List TlbEntry :=
  (if t.length < size then t else t.eraseIdx (victim % t.length)) ++ [e]

/-- A core's TLB and its die's hold a translation. -/
def State.cacheIn (s : State) (core : Nat) (x : TlbEntry) : State :=
  let v := s.freeValue
  let k := v.2.core core
  let s1 := v.2.setCore core { k with tlb := if k.tlb.contains x then k.tlb else tlbAdd k.tlb 64 v.1.toNat x }
  let d := s1.die (core / 128)
  s1.setDie (core / 128) { d with tlb := if d.tlb.contains x then d.tlb else tlbAdd d.tlb 8192 (v.1.toNat / 64) x }

/-- A lookup of a core that misses in its TLB: the die's TLB serves it, or else the miss joins the walk of its key, starts
one, or waits for a share of the table (R315, R316): its partition's, or that of the partition for which the root works (R343). A
core has one miss of a key. -/
def State.miss (s : State) (core asid : Nat) (va : DWord) : State :=
  let d := s.die (core / 128)
  let m : Miss := ⟨core, asid, s.payer (s.context asid).part, va, false⟩
  if 1024 ≤ core ∨ (s.context asid).state ≠ .live ∨ !canonical va ∨ (tlbFind (s.core core).tlb asid va).isSome then s
  else match tlbFind d.tlb asid va with
    | some x => s.cacheIn core x
    | none =>
      if d.misses.any fun x => x.core == core && x.key == m.key then s
      else s.setDie (core / 128) { d with misses := d.misses ++ [{ m with walking := walkRoom (s.walkShare (core / 128)) d.misses m }] }

/-- The translation that a walk of an address space finds, where its leaf passes its checks (R313, R315). -/
def State.walked (s : State) (asid : Nat) (va : DWord) : Option TlbEntry :=
  match s.walk va 4 (s.context asid).root.toNat 0 with
  | .error _ => none
  | .ok (e, l) =>
    let n := 2 ^ pageBits l
    if (s.leafFault (s.context asid).part .read e (pageBits l) va).isSome then none
    else some ⟨asid, (s.context asid).part, va.toNat / n * n, n, e⟩

/-- Whether a completed walk of a key serves a miss: it joined the walk, or it waits and falls within the page found. -/
def Miss.servedBy (m : Miss) (key : Nat × BitVec 41) (x : Option TlbEntry) : Bool :=
  if m.walking then m.key == key
  else match x with
    | some e => m.asid == e.asid && decide (e.vbase ≤ m.va.toNat) && decide (m.va.toNat < e.vbase + e.size)
    | none => false

/-- PAGE_WALK: the walk that a miss of the core joined completes. It serves every joined miss and every waiting one within
the page that it found, whose cores cache the translation, and the misses that wait for the places it frees start their
walks (R315, R316). A walk that finds no page that may be cached caches nothing. -/
def execPageWalk (core asid : Nat) (va : DWord) (s : State) : Host.Outcome State Fault Refusal :=
  let die := core / 128
  let d := s.die die
  match findBy (fun m => m.walking && m.core == core && m.asid == asid && m.va == va) d.misses with
  | none => .refused (.notEnabled "PAGE_WALK")
  | some m =>
    let e := s.walked asid va
    let served := d.misses.filter fun x => x.servedBy m.key e
    let left := startWalks (s.walkShare die) (d.misses.filter fun x => !x.servedBy m.key e)
    let s1 := s.setDie die { d with misses := left }
    match e with
    | none => .next s1
    | some x => .next (served.foldl (fun s y => s.cacheIn y.core x) s1)

/-! ### Power (R351) -/

/-- The stretch step of a die changes, and the change is logged (R350, R351). -/
def State.setSag (s : State) (die k : Nat) (lasting : Bool) : State :=
  let d := s.die die
  (s.setDie die { d with sag := k, sagging := lasting, sagClear := s.tick47 / 47 }).logEvent die 0xFF 7 0xFFFF 0 k

/-- SAG_THRESHOLD_CROSSING: the sensor sets step k; a crossing to 0 tells that the sag has cleared. -/
def execSagThresholdCrossing (die k : Nat) (s : State) : Host.Outcome State Fault Refusal :=
  let d := s.die die
  if 8 ≤ die ∨ 4 < k then .refused (.notEnabled "SAG_THRESHOLD_CROSSING")
  else if k = 0 then
    if d.sagging then .next (s.setDie die { d with sagging := false, sagClear := s.tick47 / 47 })
    else .refused (.notEnabled "SAG_THRESHOLD_CROSSING")
  else if k = d.sag then .next (s.setDie die { d with sagging := true })
  else .next (s.setSag die k true)

/-- SAG_STEP_DOWN: 100 ticks after the sag has cleared, or after the last step, the step falls by one. -/
def execSagStepDown (die : Nat) (s : State) : Host.Outcome State Fault Refusal :=
  let d := s.die die
  if 8 ≤ die ∨ d.sagging = true ∨ d.sag = 0 ∨ s.tick47 / 47 < d.sagClear + 100 then .refused (.notEnabled "SAG_STEP_DOWN")
  else .next (s.setSag die (d.sag - 1) false)

/-! ### Bring-up (R352 to R355) -/

/-- The bytes of an image slot: half of the boot flash of 512 MiB (R6, R352, log 89). -/
def slotBytes : Nat := 0x10000000

/-- Whether an image may run: both of its signatures verify (R352). -/
def FlashImage.valid (x : FlashImage) : Bool := x.ed25519 && x.mldsa

/-- The slot that the boot ROM runs: a valid image, the higher version first (R352). -/
def Boot.choose (b : Boot) : Option Nat :=
  (b.images.filter fun p => FlashImage.valid p.2).foldl
    (fun r p => match r with
      | none => some p
      | some q => if q.2.version < p.2.version then some p else r) none |>.map fun p => p.1

/-- The image in a slot. -/
def Boot.image? (b : Boot) (slot : Nat) : Option FlashImage := (findBy (fun p => p.1 == slot) b.images).map fun p => p.2

/-- Sets a READY bit of a die (R353). -/
def State.setReady (s : State) (die bit : Nat) : State :=
  let d := s.die die
  s.setDie die { d with ready := d.ready ||| (1#32 <<< bit) }

/-! The device tree (R353, R354). -/

/-- Whether a stack has been trained: its READY bit is set. -/
def State.trained (s : State) (stack : Nat) : Bool := (s.die (stack / 2)).ready.getLsbD (3 + stack % 2)

/-- The version of the firmware that runs. -/
def State.fwVersion (s : State) : Nat := match s.boot.image? s.boot.slot with | some x => x.version | none => 0

/-- What the firmware core finds when it probes the dies: clusters without a failed core, trained stacks with their bytes, linked
ports, spare matrix columns in use, and the firmware's version (R354). -/
def State.probe (s : State) : DeviceTree where
  clusters := (List.range 128).filter fun k => !s.withheld k
  hbm := ((List.range 16).filter s.trained).map fun k => (k, stackSize)
  ports := s.boot.links
  spares := (s.cores.map fun p => (p.1, (p.2.mx.stat.extractLsb' 16 3).toNat)).filter fun p => p.2 != 0
  version := s.fwVersion

/-- The firmware core brings the device tree up to date (R354). -/
def State.updTree (s : State) : State := { s with boot := { s.boot with tree := s.probe } }

/-- The number whose bits at the places of a list are set. -/
def bitSet (xs : List Nat) : Nat := xs.foldl (fun v k => v ||| 2 ^ k) 0

/-- The bytes of a device tree, in a layout that is the model's (log 42): a bit for each cluster, the bytes of each stack or 0, a
bit for each port, the version, and three bits for each core's spare columns. -/
def DeviceTree.bytes (t : DeviceTree) : List Byte :=
  natBytes 16 (bitSet t.clusters) ++ ((List.range 16).flatMap fun k => natBytes 8 (smGet 0 t.hbm k)) ++ natBytes 2 (bitSet t.ports)
    ++ natBytes 4 t.version ++ natBytes 384 (t.spares.foldl (fun v p => v ||| p.2 * 2 ^ (3 * p.1)) 0)

/-- POWER_GOOD_BOOT: the firmware core runs a valid image, and the root's partition exists; with none the ports come up
for management only (R352, R353). -/
def execPowerGoodBoot (s : State) : Host.Outcome State Fault Refusal :=
  if s.boot.up || s.boot.mgmtOnly then .refused (.notEnabled "POWER_GOOD_BOOT")
  else
    match s.boot.choose with
    | none => .next { s with boot := { s.boot with mgmtOnly := true } }
    | some k =>
      let sched := match s.boot.image? k with | some x => x.sched | none => 0
      let s1 := { s with boot := { s.boot with up := true, slot := k, sched := sched } }
      let s2 := s1.setPart 0xFF { Part.absent with live := true }
      .next ((List.range 8).foldl (fun s d => s.setReady d 0) s2).updTree

/-- What a module reset leaves of a die: its scrub list and SCRUBPOS, which are always on (R292). -/
def Die.reset (d : Die) : Die :=
  { Die.fresh with
    scrubpos := d.scrubpos
    scrub := { d.scrub with pausing := false, resetAt := 0, paused := false } }

/-- RESETTING THE MODULE (R292, R353): everything is as from power-good but the flash, the scrub registers, what is dirty,
and the contents of HBM; the model's own counters go on. -/
def State.moduleReset (s : State) : State :=
  let hbm := s.mem.filter fun p => (stackOf p.1).isSome
  { State.reset with
    agenda := s.agenda
    free := s.free
    uid := s.uid
    messages := s.messages
    dies := s.dies.map fun p => (p.1, p.2.reset)
    dirty := s.dirty
    mem := hbm
    base := hbm
    seals := s.seals.filter fun p => (stackOf (128 * p.1)).isSome
    spoiled := s.spoiled.filter fun p => (stackOf (32 * p.1)).isSome
    boot := { Boot.fresh with images := s.boot.images, slot := s.boot.slot } }

/-- MODULE_RESET (R353). -/
def execModuleReset (s : State) : Host.Outcome State Fault Refusal := .next s.moduleReset

/-- The launch under which the model keeps the root service context of a die: no command message made it. -/
def rootLaunch (die now : Nat) : Launch where
  id := 2 ^ 32 + die
  desc :=
    { entry := Config.rootEntry die &&& ~~~3, crec := 0, feedtab := 0, imgpool := 0, ngang := 1
      asid := (Config.rootAsid die).toNat, roles := [0, 0, 0, 0], regions := [], sgr := 64, ngr := 0, regs := 64, warps := 8, gsize := 1
      prio := 3, tile := 32, holdapp := false }
  part := 0xFF
  kernel := true
  waitingGangs := []
  live := 1
  done := 0
  tstart := some now
  accepted := now
  terminated := false
  held := false
  recorded := true
  parked := false
  flow := 0
  aged := 0
  evictor := false
  waited := 0
  waitFrom := now

/-- The root service context of a die starts: one kernel group of 8 warps on core 0, in deferring mode (R329). -/
def State.startRoot (s : State) (die : Nat) : State :=
  let l := rootLaunch die (s.tick47 / 47)
  let core := 128 * die
  let place := s.freePlace core
  let asid := l.desc.asid
  let root := Config.rootTable die &&& ~~~0x1FFFFF
  let s1 := { s.setContext asid ⟨root, 0xFF, .live⟩ with launches := s.launches ++ [l] }
  let b : Bind := ⟨l.id, 0, 0, asid, 0xFF, 0, 0, 3, true, 5, 0, 0⟩
  let gid := s1.uid
  (s1.startGroup l (64 * core + place) b).updGroup gid fun g => { g with dmode := true }

/-- Whether a function of a die has become usable (R353): its stacks are trained by its core 0, whose cluster runs the service. -/
def State.functionUp (s : State) (die bit : Nat) : Bool :=
  match bit with
  | 0 | 1 => true
  | 3 | 4 => !s.boot.failed.contains (128 * die)
  | 2 => !(s.die die).scrub.active
  | 5 => s.boot.links.contains (2 * die)
  | 6 => s.boot.links.contains (2 * die + 1)
  | 7 => !s.withheld (16 * die) && (s.placeWarps (128 * die) 8 64).isSome && s.scratchRoom (128 * die) 0x40000
  | 8 => s.boot.address.isSome
  | 9 => s.boot.mgmt.isSome
  | _ => false

/-- READY_FUNCTION_UP: a READY bit sets, and only a module reset clears it; with SERVICE the root context runs. The device tree
follows (R354). -/
def execReadyFunctionUp (die bit : Nat) (s : State) : Host.Outcome State Fault Refusal :=
  if !s.boot.up || decide (8 ≤ die) || (s.die die).ready.getLsbD bit || !s.functionUp die bit then
    .refused (.notEnabled "READY_FUNCTION_UP")
  else
    let s1 := (s.setReady die bit).updTree
    .next (if bit = 7 then s1.startRoot die else s1)

/-- PORT_LINK_UP: the first port to link starts DHCPv6 (R355). -/
def execPortLinkUp (port : Nat) (s : State) : Host.Outcome State Fault Refusal :=
  if !(s.boot.up || s.boot.mgmtOnly) || decide (16 ≤ port) || s.boot.links.contains port then .refused (.notEnabled "PORT_LINK_UP")
  else
    let first := if s.boot.links.isEmpty then some (s.tick47 / 47) else s.boot.linkTick
    .next { s with boot := { s.boot with links := s.boot.links ++ [port], linkTick := first } }

/-- DHCPV6_REPLY: the module's address, and the scheduler's where the vendor option gives it (R355). -/
def execDhcpv6Reply (addr : Nat) (sched : Option Nat) (s : State) : Host.Outcome State Fault Refusal :=
  if s.boot.linkTick.isNone || s.boot.address.isSome then .refused (.notEnabled "DHCPV6_REPLY")
  else .next { s with boot := { s.boot with address := some addr, sched := sched.getD s.boot.sched } }

/-- ADDRESS_FALLBACK_TIMEOUT: 3 s after link with no reply the module configures its own address (R355). -/
def execAddressFallbackTimeout (addr : Nat) (s : State) : Host.Outcome State Fault Refusal :=
  match s.boot.linkTick with
  | none => .refused (.notEnabled "ADDRESS_FALLBACK_TIMEOUT")
  | some t =>
    if s.boot.address.isSome || decide (s.tick47 / 47 < t + 300000000) then .refused (.notEnabled "ADDRESS_FALLBACK_TIMEOUT")
    else .next { s with boot := { s.boot with address := some addr } }

/-! ### Announcement and management (R330, R356) -/

/-- The time between announcements: 1 s, and 100 ms once acknowledged (R356). -/
def Boot.interval (b : Boot) : Nat := if b.mgmt.isSome then 10000000 else 100000000

/-- The READY registers of the dies. -/
def State.readyAll (s : State) : List Word := (List.range 8).map fun d => (s.die d).ready

/-- The bytes of an announcement (R356). The bytes behind the device tree are free values (log 42). -/
def State.announcement (s : State) (addr : Nat) : List Byte :=
  let tree := s.boot.tree.bytes
  natBytes 4 0x4A524E01 ++ natBytes 8 Config.serial.toNat ++ natBytes 16 addr
    ++ (s.readyAll.flatMap fun w => natBytes 4 w.toNat) ++ natBytes 4 s.fwVersion ++ natBytes 8 s.boot.announce
    ++ tree ++ (List.range (952 - tree.length)).map fun i => Config.freeByte (Nat.pair s.free i)

/-- ANNOUNCE_TIMER: an announcement, or a heartbeat, is sent to the scheduler (R356). -/
def execAnnounceTimer (s : State) : Host.Outcome State Fault Refusal :=
  match s.boot.address with
  | none => .refused (.notEnabled "ANNOUNCE_TIMER")
  | some addr =>
    if !s.boot.up || (decide (0 < s.boot.announce) && decide (s.tick47 / 47 < s.boot.announceTick + s.boot.interval)) then
      .refused (.notEnabled "ANNOUNCE_TIMER")
    else
      let b := { s.boot with announce := s.boot.announce + 1, announceTick := s.tick47 / 47 }
      .next { s.sendMessage 6 s.boot.sched 6 (packData (s.announcement addr)) with boot := b, free := s.free + 1 }

/-- ANNOUNCE_ACK: the source of the first acknowledgement is the management address (R356). -/
def execAnnounceAck (src : Nat) (s : State) : Host.Outcome State Fault Refusal :=
  if s.boot.announce = 0 then .refused (.notEnabled "ANNOUNCE_ACK")
  else .next { s with boot := { s.boot with mgmt := some (s.boot.mgmt.getD src) } }

/-- Whether a class-7 message is accepted: only from the management address (R330). -/
def State.managed (s : State) (src : Nat) : Bool := s.boot.up && s.boot.mgmt == some src

/-- MGMT_QUERY: READY, the sag steps, temperatures that nothing constrains, the partitions, and the device tree (R354); from any
other address it is dropped without a reply (R330). -/
def execMgmtQuery (src : Nat) (s : State) : Host.Outcome State Fault Refusal :=
  if !s.managed src then .next s
  else
    let sags := (List.range 8).map fun d => BitVec.ofNat 64 (s.die d).sag
    let temps := (List.range 8).map fun d => (Config.freeWord (s.free + d)).setWidth 64
    let parts := (s.parts.filter fun p => p.2.live).map fun p => BitVec.ofNat 64 p.1
    .next { s.sendMessage 12 src 7 ((s.readyAll.map fun w => w.setWidth 64) ++ sags ++ temps ++ parts ++ packData s.boot.tree.bytes) with free := s.free + 8 }

/-- PRESET: PART RESET of a partition, for the management address (R330). -/
def execPreset (src part : Nat) (s : State) : Host.Outcome State Fault Refusal :=
  if !s.managed src || part == 0xFF || !(s.part part).live then .next s else .next (s.resetPart part)

/-- MRESET: a module reset, for the management address (R330). -/
def execMreset (src : Nat) (s : State) : Host.Outcome State Fault Refusal :=
  if !s.managed src then .next s else .next s.moduleReset

/-- FWSTAGE: the image is written to the slot that is not in use and verified at the next boot; in management-only mode
it is verified first (R330, R352). It comes through a port (R1, R353). One too large for a slot, half of the flash (log 89), is not
written. -/
def execFwstage (src : Nat) (img : FlashImage) (s : State) : Host.Outcome State Fault Refusal :=
  if !s.linked then .refused (.notEnabled "FWSTAGE")
  else if slotBytes < img.bytes then .next s
  else if s.managed src || (s.boot.mgmtOnly && FlashImage.valid img) then
    let k := 1 - s.boot.slot
    .next { s with boot := { s.boot with images := insertBy (fun p => p.1) (k, img) (s.boot.images.filter fun p => p.1 != k) } }
  else .next s

/-- UNSUPPORTED_PACKET_DROP: the packet is dropped and counted by its port (R330). -/
def execUnsupportedPacketDrop (port : Nat) (s : State) : Host.Outcome State Fault Refusal :=
  if 16 ≤ port then .refused (.notEnabled "UNSUPPORTED_PACKET_DROP")
  else .next { s with boot := { s.boot with portErrors := smSet 0 s.boot.portErrors port (smGet 0 s.boot.portErrors port + 1) } }

/-- CRC_FAILED_PACKET: the packet is discarded, to be resent, and the resend is logged (R347, R350). -/
def execCrcFailedPacket (port : Nat) (s : State) : Host.Outcome State Fault Refusal :=
  if 16 ≤ port then .refused (.notEnabled "CRC_FAILED_PACKET")
  else .next (s.logEvent (port / 2) 0xFF 6 0xFFFF 0 0)

end Sys2Proof.Machine
end

