-- ==== Sys2Proof/Machine/Issue.lean ====
section
/-! DEFINITION. Issue: fetching an instruction, what holds it, what captures it, and which split or closure of a warp goes
next (R14, R35 to R37, R41 to R46, R142, R152, R157, R160, R172, R274, R280). -/

namespace Sys2Proof.Machine

/-! ### Fetching (R152, R157, R159, R160) -/

/-- The word at an address, its two halves fetched in turn. -/
def State.fetchWord (s : State) (g : Group) (va : DWord) : Except (DWord × Nat × Option XFault) Word :=
  match s.fetchHalf g va with
  | .error (c, f) => .error (va, c, f)
  | .ok h0 =>
    match s.fetchHalf g (va + 2) with
    | .error (c, f) => .error (va + 2, c, f)
    | .ok h1 => .ok (h1 ++ h0)

/-- What a fetch gives: an instruction with its length and its two words, or the exception that it takes. -/
inductive Fetched where
  | bad (t : Trap)
  | ok (i : Instr) (len : Nat) (iword mword : Word)

/-- An exception of the fetch at a PC. -/
def fetchTrap (pc : DWord) (x : DWord × Nat × Option XFault) : Fetched :=
  .bad ⟨x.2.1, pc, x.1, 0, 0, x.2.2, false, x.2.2.isSome⟩

/-- The instruction of two words at a PC, in the order of R160. -/
def decodeAt (kernel : Bool) (pc : DWord) (w n : Word) : Fetched :=
  let mword := if isModifier n then n else 0
  if isModifier w then .bad ⟨0x22, pc, pc, 0, 0, none, false, false⟩
  else if majorOf w == 0x3E && !kernel then .bad ⟨0x23, pc, 0, w, 0, none, false, false⟩
  else
    match decode w mword with
    | .ok (i, len) => .ok i len w mword
    | .error _ => .bad ⟨0x20, pc, 0, w, 0, none, false, false⟩

/-- Fetches the instruction at a PC of a group. R160 lists no fault of a fetch: that of a word, and of the word after it, which
may be its modifier, comes before every check of the instruction (DESIGN CHOICE, log 82). -/
def State.fetchInstr (s : State) (g : Group) (pc : DWord) : Fetched :=
  match s.fetchHalf g pc with
  | .error (c, f) => fetchTrap pc (pc, c, f)
  | .ok h =>
    if !h.getLsbD 0 then
      match decodeHalf h with
      | some i => .ok i 2 (h.setWidth 32) 0
      | none => .bad ⟨0x20, pc, 0, h.setWidth 32, 0, none, false, false⟩
    else if pc.extractLsb' 0 2 != 0 then .bad ⟨0x20, pc, 0, h.setWidth 32, 0, none, false, false⟩
    else
      match s.fetchWord g pc with
      | .error x => fetchTrap pc x
      | .ok w =>
        match s.fetchWord g (pc + 4) with
        | .error x => fetchTrap pc x
        | .ok n => decodeAt g.kernel pc w n

/-- The branch or spawn that two words are but for what their encoding forbids: its target is checked before that (R156, R160,
R237). -/
def branchOf (w n : Word) : Option Instr :=
  let b := unpackB w
  let a := unpackA w
  let e := unpackE w
  match (majorOf w).toNat with
  | 0x24 => (Cond.ofCode b.cond).map fun k => .bra ⟨k, b.a, b.off⟩
  | 0x25 => (Cond.ofCode b.cond).map fun k => .brc ⟨k, b.a, b.off⟩
  | 0x26 => if b.cond = 0 then some (.call ⟨b.a, b.off⟩) else none
  | 0x27 =>
    if a.a.getLsbD 0 then none
    else if a.min = 0 then some (.ret ⟨a.a⟩)
    else if a.min = 1 then some (.brx ⟨a.a⟩)
    else none
  | 0x28 => if b.cond.toNat < 2 then some (.bpnd ⟨b.cond.getLsbD 0, b.a, b.off⟩) else none
  | 0x29 =>
    match b.cond.toNat with
    | 0 => some (.ball ⟨b.a, b.off⟩)
    | 1 => some (.bany ⟨b.a, b.off⟩)
    | 2 => some (.bnone ⟨b.a, b.off⟩)
    | _ => none
  | 0x34 => if e.sub = 0 ∧ !e.a.getLsbD 0 then some (.tspawn ⟨e.d, e.a, e.b, if isModifier n then unpackMod n else none⟩) else none
  | _ => none

/-! ### The rows that the control word selects (R289 to R296) -/

/-- The register of the control word that selects an instruction of major 0x3E among those of its word. -/
def Instr.controlReg : Instr → Option Nat
  | .fqansResume x | .kslotLoad x | .scrubStart x | .partAssign x | .fmapMap x | .asidqEnter x => some x.b.toNat
  | _ => none

/-- The instruction that a control word selects. -/
def Instr.select (v : Nat) (i : Instr) : Instr :=
  match i with
  | .fqansResume x => if bitsOf v 0 2 = 1 then .fqansTerminate x else i
  | .kslotLoad x => if bitsOf v 6 2 = 1 then .kslotZero x else if bitsOf v 6 2 = 2 then .kslotQuery x else i
  | .scrubStart x => if bitsOf v 4 2 = 1 then .scrubQuery x else i
  | .partAssign x =>
    if bitsOf v 8 2 = 1 then .partReset x
    else if bitsOf v 8 2 = 2 then .partRelease x
    else if bitsOf v 8 2 = 3 then .partQuery x
    else i
  | .fmapMap x => if bitsOf v 8 1 = 1 then .fmapUnmap x else i
  | .asidqEnter x => if bitsOf v 0 2 = 1 then .asidqQuery x else if bitsOf v 0 2 = 2 then .asidqLeave x else i
  | _ => i

/-- The instruction that a context runs, its control word read in the lowest active lane. -/
def Ctx.selected (c : Ctx) (i : Instr) : Instr :=
  match Instr.controlReg i with
  | some r => Instr.select (c.reg r (c.low none)).toNat i
  | none => i

/-- The instruction that the words of the issuing instruction give: what a step runs. -/
def State.curInstr (s : State) : Option Instr :=
  match issuer? s with
  | none => none
  | some c =>
    if c.cur.iword.getLsbD 0 then
      match decode c.cur.iword c.cur.mword with
      | .ok p => some (c.selected p.1)
      | .error _ => none
    else decodeHalf (c.cur.iword.setWidth 16)

/-! ### What holds an instruction -/

/-- Whether a split waits at its instruction: for the answers of an FGET, for the tail swaps of a deferring ANN, or for
the drives of an ANN or ANN.HLP (R100, R105, R234). -/
def State.splitBusy (s : State) (gid widx : Nat) (sp : Split) : Bool :=
  match sp.busy with
  | none => false
  | some 0 => s.drives.any fun d => d.of gid widx sp.pc none && sp.mask.getLsbD d.lane && d.stage != .done
  | some k => (match s.fly? k with | some f => f.left != 0 | none => false) || s.swapHeld k

/-! ### Where memory instructions reach (R46) -/

/-- What an instruction may access: bytes in a space, whole spaces, or all. -/
inductive Reach where
  | nothing
  | everything
  | spaces (l : List Space)
  | bytes (p : Space) (n : Nat) (es : List Ea)

/-- The lanes that an instruction may act for: its active lanes, or all of its mask while its predicate is pending. -/
def Ctx.mayAct (c : Ctx) (m : Option Modifier) : List Nat :=
  let known := match m with
    | some x => x.pred = 0 || (c.cur.ovr.any fun p => p.1 == x.pred.toNat) || c.ready x.pred.toNat
    | none => true
  if known then c.act m else lanesOf c.cur.mask

/-- The bytes that a load or a memory-writing instruction reaches. -/
def Ctx.reach (s : State) (c : Ctx) (i : Instr) : Reach :=
  match i with
  | .ld x => .bytes x.p x.z.bytes ((c.accLanes x.m).map fun l =>
      c.ea s x.p x.a.toNat (BitVec.ofNat 64 (x.o.toNat * x.z.bytes)) x.z.bytes l)
  | .ldx x => .bytes x.p 4 ((c.accLanes x.m).map fun l => c.ea s x.p x.a.toNat (c.index x.p x.b.toNat l) 4 l)
  | .st x => .bytes x.p x.z.bytes ((c.mayAct x.m).map fun l =>
      c.ea s x.p x.a.toNat (BitVec.ofNat 64 (x.o.toNat * x.z.bytes)) x.z.bytes l)
  | .stx x => .bytes x.p 4 ((c.mayAct x.m).map fun l => c.ea s x.p x.a.toNat (c.index x.p x.b.toNat l) 4 l)
  | .atom x => .bytes x.p (if x.w64 then 8 else 4) ((c.mayAct x.m).map fun l => c.ea s x.p x.a.toNat 0 (if x.w64 then 8 else 4) l)
  | .fset x | .fclr x => .bytes x.p 8 ((c.mayAct x.m).map fun l => c.ea s x.p x.a.toNat 0 8 l)
  | .ann x => .spaces [.g, x.p]
  | .kvmap _ => .spaces [.g]
  | .fence _ | .phaseAr _ | .phaseAcq _ => .everything
  | _ => .nothing

/-- Whether two instructions may touch one byte. -/
def Reach.meets : Reach → Reach → Bool
  | .nothing, _ | _, .nothing => false
  | .everything, _ | _, .everything => true
  | .spaces l, .bytes p _ _ | .bytes p _ _, .spaces l => l.contains p
  | .spaces _, .spaces _ => true
  | .bytes p n es, .bytes q m fs =>
    p == q && es.any fun e => fs.any fun f => e.gid == f.gid && Machine.meets e.off n f.off m

/-- The address registers of a memory instruction. -/
def Instr.addrOf : Instr → List Nat
  | .ld x => addrRegs x.p x.a.toNat
  | .st x => addrRegs x.p x.a.toNat
  | .ldx x | .stx x => addrRegs x.p x.a.toNat ++ [x.b.toNat]
  | .atom x => addrRegs x.p x.a.toNat
  | .fset x | .fclr x => addrRegs x.p x.a.toNat
  | _ => []

/-- Whether an instruction is a load of R46. -/
def Instr.isLoad : Instr → Bool
  | .ld _ | .ldx _ => true
  | _ => false

/-! ### Closures (R41, R44, R46) -/

/-- The record of the issuing instruction for the run of a closure (R44). -/
def Closure.cur (k : Closure) (gid widx : Nat) : Cur where
  gid := gid
  widx := widx
  split := k.csplit
  clo := some k.idx
  pc := k.pc
  len := if !k.iword.getLsbD 0 then 2 else if k.mword = 0 then 4 else 8
  iword := k.iword
  mword := k.mword
  mask := k.mask
  tile := k.tile
  cb := k.cb
  ovr := k.lanes ++ (k.unif.map fun p => (p.1, List.replicate 32 p.2)) ++ k.trans
  pois := k.pois
  noFp := k.noFp

/-- The context in which a closure would run now. -/
def closureCtx (g : Group) (w : Warp) (k : Closure) : Ctx := ⟨k.cur g.gid w.idx, g, w, ⟨k.csplit, k.pc, k.mask, [], [], none⟩⟩

/-- Whether an address of a closure is still pending. -/
def Closure.unknown (k : Closure) (w : Warp) (i : Instr) : Bool :=
  (Instr.addrOf i).any fun r =>
    !(k.lanes.any fun p => p.1 == r) && !(k.unif.any fun p => p.1 == r) && !(k.trans.any fun p => p.1 == r) && w.pend.any fun p => p.reg == r && k.waits.contains p.id

/-- The latest deferred memory-writing instruction, captured before a number, that a load must follow (R46). -/
def State.loadBehind (s : State) (c : Ctx) (i : Instr) (born : Nat) : Option Nat :=
  let mine := c.reach s i
  c.warp.closures.foldl (fun r k =>
    match k.instr with
    | some j =>
      if j.memWriting && decide (k.born < born) &&
          (k.unknown c.warp j || ((closureCtx c.grp c.warp k).reach s j).meets mine) then some k.id
      else r
    | none => r) none

/-- Whether an instruction is an ANN. -/
def Instr.isAnn : Instr → Bool
  | .ann _ => true
  | _ => false

/-- Whether an instruction performs an acquire that later accesses follow while it is captured (R106, R142). -/
def Instr.acquires : Instr → Bool
  | .phaseAcq _ => true
  | _ => false

/-- Whether an instruction is an ANN.ACQ. -/
def Instr.annAcq : Instr → Bool
  | .ann x => x.ord.getLsbD 1
  | _ => false

/-- The instructions that follow a captured acquire (R142). -/
def Instr.followsAcquire : Instr → Bool
  | .ld _ | .ldx _ | .atom _ | .ann _ => true
  | _ => false

/-- The registers whose pending values an instruction awaits: those that it reads, and those that it writes; of the
destinations of ANNQ, those of closures and those that are latency-pending (R35, R228). -/
def Ctx.awaited (c : Ctx) (i : Instr) (extra : List Nat) : List Pend :=
  let closed := fun (p : Pend) => !p.event || c.warp.closures.any fun k => k.did == p.id
  let writes := fun (p : Pend) => (i.dsts ++ extra).contains p.reg && (match i with | .annq _ => closed p | _ => true)
  c.warp.pend.filter fun p => (i.reads.contains p.reg && !c.bypassed p.reg) || writes p

/-- Whether the destinations of ANNQ are pending on latency alone: it interlocks and is not captured (R35, R228). -/
def Ctx.annqStalls (c : Ctx) (i : Instr) : Bool :=
  match i with
  | .annq _ => (c.awaited i []).any fun p => !p.event && i.dsts.contains p.reg
  | _ => false

/-- The pending pairs of earlier announcements of the lanes of a mask, and of ANN.ACQ where `acq` is set (R105, R106). -/
def State.annPairs (s : State) (c : Ctx) (acq : Bool) : List Nat :=
  let live := s.drives.filter fun d => d.gid == c.cur.gid && d.widx == c.cur.widx && !d.sync && !d.help
    && (if acq then (match s.fly? d.fly with | some f => f.acq.isSome | none => false) else c.cur.mask.getLsbD d.lane)
  let deferred := c.warp.closures.filter fun k =>
    if acq then k.runs Instr.annAcq else k.runs Instr.isAnn && k.mask &&& c.cur.mask != 0
  (live.map fun d => d.fly) ++ deferred.map fun k => k.did

/-- Whether an instruction of a group orders the accesses of its warp as a FENCE does: the arrival at a group barrier does, too
(R146, R147). -/
def State.fencesIn (s : State) (g : Group) (i : Instr) : Bool :=
  i.fences || (match i with
    | .barArv x => (match s.barOf g x.k.toNat with | some (_, _, y) => !y.gang | none => false)
    | _ => false)

/-- The latest captured fence of a warp that a read of a future in scratch follows (R146, R225). -/
def State.fenceAhead (s : State) (c : Ctx) (i : Instr) : List Nat :=
  match i with
  | .fget x =>
    if x.p = .g then []
    else
      ((c.warp.closures.filter fun k => match k.instr with | some j => s.fencesIn c.grp j | none => false).map fun k => k.id).getLast?.toList
  | _ => []

/-- What an instruction of deferring mode must follow; it is captured when there is anything (R41, R46, R105, R142, R146, R147,
R226, R280). -/
def State.captureWaits (s : State) (c : Ctx) (i : Instr) (extra : List Nat) : List Nat :=
  let pend := (c.awaited i extra).map fun p => p.id
  let holding := c.warp.closures.filter fun k => k.holds.any fun r => (i.dsts ++ extra).contains r
  let held := match i with | .annq _ => [] | _ => holding.map fun k => k.id
  let anns := if Instr.isAnn i then s.annPairs c false else []
  let acqs := if Instr.followsAcquire i then
      ((c.warp.closures.filter fun k => k.runs Instr.acquires).map fun k => k.id) ++ s.annPairs c true
    else []
  let mem := if i.memWriting then ((c.warp.closures.filter fun k => k.runs Instr.memWriting).map fun k => k.id).getLast?.toList else []
  let reads := if s.fencesIn c.grp i then (c.warp.closures.filter fun k => k.runs Instr.fenced).map fun k => k.id else []
  let ws := (pend ++ held ++ anns ++ acqs ++ mem ++ reads ++ s.fenceAhead c i).eraseDups
  if ws.isEmpty && Instr.isLoad i then (s.loadBehind c i s.uid).toList else ws

/-- The lowest event-pending or held register for which a never-captured instruction raises PENDING_BRANCH (R42). -/
def Ctx.branchPending (c : Ctx) (i : Instr) : Option Nat :=
  let ev := fun (r : Nat) => c.warp.eventPending r && ((i.reads.contains r && !c.bypassed r) || i.dsts.contains r)
  findBy (fun r => ev r || (i.dsts.contains r && c.warp.held r)) (List.range 128)

/-! ### Splits (R12, R14, R172, R175, R274) -/

/-- The splits that a warp offers, the lowest PC first; in a handler, the handler's alone. -/
def Warp.offered (w : Warp) : List Split :=
  match (match w.inh with | some v => some v | none => w.inu) with
  | some v => w.splits.filter fun x => x.num == v.split
  | none => w.splits.foldl (fun l x => insertBy (fun y => 4 * y.pc.toNat + y.num) x l) []

/-- Whether a JOIN stands at a PC of a group. -/
def State.joinAt (s : State) (g : Group) (pc : DWord) : Bool :=
  match s.fetchInstr g pc with
  | .ok .join _ _ _ => true
  | _ => false

/-- Splits that have come to stand at one JOIN merge there, and a split pops what its own stack holds of it (R12). -/
def State.mergeJoins (s : State) (g : Group) (w : Warp) : Warp :=
  if w.inh.isSome || w.inu.isSome then w
  else
    [0, 1, 2, 3].foldl (fun w n =>
      match w.split? n with
      | none => w
      | some sp =>
        let meeting := (w.splits.any fun o => o.num != n && o.pc == sp.pc) || (sp.stack.take 1).any fun f => f.pc == sp.pc
        if meeting && s.joinAt g sp.pc then w.settle n else w) w

/-- What a split does in its warp's issue slot: it waits, it takes an exception or is captured, or it runs. -/
inductive Plan where
  | stall
  | take (s : State)
  | run (c : Cur)

/-- The record of an instruction that a split issues. -/
def Split.cur (sp : Split) (gid : Nat) (w : Warp) (len : Nat) (iword mword : Word) : Cur where
  gid := gid
  widx := w.idx
  split := sp.num
  clo := none
  pc := sp.pc
  len := len
  iword := iword
  mword := mword
  mask := sp.mask
  tile := w.tile
  cb := w.cb
  ovr := []
  pois := []
  noFp := false

/-- Whether an instruction is a DQRY that neither follows a closure which holds a destination of it, nor is captured (R184,
R280). -/
def Ctx.dqryNow (c : Ctx) (i : Instr) : Bool :=
  match i with
  | .dqry _ => i.dsts.any c.warp.pending || !i.dsts.any c.warp.held
  | _ => false

/-- Whether an instruction runs without regard to what is pending: it will trap for its target, mode or window, or it
reads pending bits only (R160, R184). -/
def State.atOnce (s : State) (c : Ctx) (i : Instr) : Bool :=
  (s.earlyTarget c i).isSome || (i.privileged && !c.grp.kernel) || c.beyond i || c.split.busy.isSome || c.dqryNow i

/-- Whether an instruction that reads its operands from scratch as an S load waits for an earlier S store of its warp: a deferred
one, or one that has still to perform (R46, R84, R359). -/
def State.awaitsStore (s : State) (c : Ctx) (i : Instr) : Bool :=
  let l := c.low none
  let reads := fun (x : OpSys) (n : Nat) =>
    let o := (c.reg x.a.toNat l).toNat
    let mine : Reach := .bytes .s n [⟨l, BitVec.ofNat 64 o, c.grp.gid, o, false, false, none⟩]
    s.writeBehind c.cur.gid c.cur.widx (.sram c.grp.gid o) n != 0 ||
      c.warp.closures.any fun k => match k.instr with
        | some j => j.memWriting && (k.unknown c.warp j || ((closureCtx c.grp c.warp k).reach s j).meets mine)
        | none => false
  match i with
  | .kslotLoad x => reads x 64
  | .scrubStart x => reads x 256
  | .partAssign x => reads x 320
  | _ => false

/-- Whether an FGET would be the ninth of its warp, captured ones counted (R236). -/
def State.fgetFull (s : State) (c : Ctx) (i : Instr) : Bool :=
  match i with
  | .fget _ => decide (8 ≤ s.openFgets c.cur.gid c.cur.widx)
  | _ => false

/-- What happens to a decoded instruction of a split, in a state that names it as issuing (R35, R41 to R46). -/
def State.planInstr (s : State) (c : Ctx) (i : Instr) : Plan :=
  if s.atOnce c i then .run c.cur
  else if i.neverCaptured then
    match c.branchPending i with
    | some r => .take (raise s c 2 (BitVec.ofNat 32 r) 0)
    | none => if (c.awaited i []).isEmpty && !s.awaitsStore c i then .run c.cur else .stall
  else if c.deferring then
    let extra := c.extraDsts s i
    let ws := s.captureWaits c i extra
    if ws.isEmpty then .run c.cur
    else if c.annqStalls i then .stall
    else
      match s.fgetFull c i with
      | true => .take (raise s c 5 0x100 0)
      | false => .take (capture s c i extra ws false)
  else if (c.awaited i []).isEmpty then .run c.cur
  else .stall

/-- The bad target of a word whose encoding is ILLEGAL but which is a branch or a spawn but for that: it comes first (R160). -/
def State.rawTarget (s : State) (g : Group) (w : Warp) (sp : Split) (t : Trap) : Option (Nat × DWord × Option XFault) :=
  if t.cause = 0x20 ∧ t.eaux.getLsbD 0 = true ∧ sp.pc.extractLsb' 0 2 = 0 then
    match s.fetchWord g sp.pc, s.fetchWord g (sp.pc + 4) with
    | .ok v, .ok n => (branchOf v n).bind fun i => s.earlyTarget ⟨sp.cur g.gid w 4 v n, g, w, sp⟩ i
    | _, _ => none
  else none

/-- What a split of a warp does in the issue slot. -/
def State.planSplit (s : State) (g : Group) (w : Warp) (sp : Split) : Plan :=
  if s.splitBusy g.gid w.idx sp then .stall
  else
    match s.fetchInstr g sp.pc with
    | .bad t =>
      let cur := sp.cur g.gid w 4 0 0
      .take (match s.rawTarget g w sp t with | some x => targetTrap s cur x | none => takeTrap s cur t)
    | .ok i0 len iw mw =>
      let cur := sp.cur g.gid w len iw mw
      let c : Ctx := ⟨cur, g, w, sp⟩
      let lower := w.offered.any fun o => o.num != sp.num && o.pc.ult sp.pc
      match i0 with
      | .join => if lower then .stall else .run cur
      | _ => { s with cur := some cur }.planInstr c (c.selected i0)

/-- The first of some splits that does not wait. -/
def State.firstSplit (s : State) (g : Group) (w : Warp) : List Split → Option State
  | [] => none
  | sp :: r =>
    match s.planSplit g w sp with
    | .stall => s.firstSplit g w r
    | .take t => some t
    | .run c => some { s with cur := some c }

/-! ### A warp's issue slot (R36, R37) -/

/-- The runnable closure whose turn it is (R44). -/
def Warp.headClosure (w : Warp) : Option Closure :=
  w.closures.foldl (fun r k =>
    match k.run, r with
    | some _, none => some k
    | some n, some q => if n < q.run.getD 0 then some k else r
    | none, _ => r) none

/-- Whether a warp may use its issue slot at all: its group runs, and it is neither ended nor suspended (R36). -/
def issuing (g : Group) (w : Warp) : Bool := g.stat == .run && !w.ended && w.susp.isNone

/-- The state in which a closure is about to run: the issuing instruction is its own. A load that has only now learned
that it overlaps an earlier deferred store awaits it (R46). None while it waits. -/
def State.startClosure (s : State) (g : Group) (w : Warp) (k : Closure) : Option State :=
  match k.instr with
  | none => none
  | some i =>
    let c := closureCtx g w k
    let drives := s.drives.any fun d => d.gid == g.gid && d.widx == w.idx && d.clo == some k.idx && d.sync && d.stage != .done
    if drives then none
    else
      match (if Instr.isLoad i then s.loadBehind c i k.born else none) with
      | some id =>
        let wait := fun (x : Closure) => { x with run := none, waits := [id] }
        some (s.updWarp g.gid w.idx fun w => { w with closures := updateBy (fun x => x.idx == k.idx) wait w.closures })
      | none => some { s with cur := some c.cur }

/-- CLOSURE_RUN (R37, R44): the runnable closure whose turn it is takes the warp's issue slot; the step then executes its
captured instruction. -/
def execClosureRun (gid widx clo : Nat) (s : State) : Host.Outcome State Fault Refusal :=
  match s.group? gid, s.warp? gid widx with
  | some g, some w =>
    match w.headClosure with
    | some k =>
      if k.idx = clo ∧ issuing g w = true ∧ w.inh.isNone = true then
        match s.startClosure g w k with
        | some t => .next t
        | none => .refused (.notEnabled "CLOSURE_RUN")
      else .refused (.notEnabled "CLOSURE_RUN")
    | none => .refused (.notEnabled "CLOSURE_RUN")
  | _, _ => .refused (.notEnabled "CLOSURE_RUN")

/-- What a warp does with an issue slot: a closure goes before the stream; none while it is not ready (R36, R37, R50). -/
def State.issueWarp (s : State) (gid widx : Nat) : Option State :=
  match s.group? gid, s.warp? gid widx with
  | some g, some w =>
    if !issuing g w then none
    else
      match (if w.inh.isNone then w.headClosure else none) with
      | some k => s.startClosure g w k
      | none =>
        if w.yld.isSome then none
        else
          let w' := s.mergeJoins g w
          let s' := if w' = w then s else s.updWarp gid widx fun _ => w'
          match s'.group? gid with
          | some g' => s'.firstSplit g' w' w'.offered
          | none => none
  | _, _ => none

end Sys2Proof.Machine
end

