-- ==== Sys2Proof/Machine/Dispatch.lean ====
section
/-! DEFINITION. The dispatch: one arm per constructor of the instruction type, in the order of the opcode table. -/

namespace Sys2Proof.Machine

/-- What an instruction or event does in a state. -/
def exec (i : Instr) (s : State) : Host.Outcome State Fault Refusal :=
  match i with
  | .mov16 x => Sys2Proof.Machine.execMov16 x s
  | .add16 x => Sys2Proof.Machine.execAdd16 x s
  | .sub16 x => Sys2Proof.Machine.execSub16 x s
  | .and16 x => Sys2Proof.Machine.execAnd16 x s
  | .or16 x => Sys2Proof.Machine.execOr16 x s
  | .xor16 x => Sys2Proof.Machine.execXor16 x s
  | .shl16 x => Sys2Proof.Machine.execShl16 x s
  | .shr16 x => Sys2Proof.Machine.execShr16 x s
  | .addi5 x => Sys2Proof.Machine.execAddi5 x s
  | .movi5 x => Sys2Proof.Machine.execMovi5 x s
  | .fadd16 x => Sys2Proof.Machine.execFadd16 x s
  | .fmul16 x => Sys2Proof.Machine.execFmul16 x s
  | .fmax16 x => Sys2Proof.Machine.execFmax16 x s
  | .fmin16 x => Sys2Proof.Machine.execFmin16 x s
  | .imul16 x => Sys2Proof.Machine.execImul16 x s
  | .nop => Sys2Proof.Machine.execNop s
  | .add x => Sys2Proof.Machine.execAdd x s
  | .sub x => Sys2Proof.Machine.execSub x s
  | .addc x => Sys2Proof.Machine.execAddc x s
  | .subb x => Sys2Proof.Machine.execSubb x s
  | .minS x => Sys2Proof.Machine.execMinS x s
  | .maxS x => Sys2Proof.Machine.execMaxS x s
  | .minU x => Sys2Proof.Machine.execMinU x s
  | .maxU x => Sys2Proof.Machine.execMaxU x s
  | .and x => Sys2Proof.Machine.execAnd x s
  | .or x => Sys2Proof.Machine.execOr x s
  | .xor x => Sys2Proof.Machine.execXor x s
  | .andn x => Sys2Proof.Machine.execAndn x s
  | .orn x => Sys2Proof.Machine.execOrn x s
  | .xnor x => Sys2Proof.Machine.execXnor x s
  | .sel x => Sys2Proof.Machine.execSel x s
  | .bswz x => Sys2Proof.Machine.execBswz x s
  | .shl x => Sys2Proof.Machine.execShl x s
  | .shr x => Sys2Proof.Machine.execShr x s
  | .sar x => Sys2Proof.Machine.execSar x s
  | .rol x => Sys2Proof.Machine.execRol x s
  | .shl64 x => Sys2Proof.Machine.execShl64 x s
  | .shr64 x => Sys2Proof.Machine.execShr64 x s
  | .sar64 x => Sys2Proof.Machine.execSar64 x s
  | .fshf x => Sys2Proof.Machine.execFshf x s
  | .mulLo x => Sys2Proof.Machine.execMulLo x s
  | .mulHiS x => Sys2Proof.Machine.execMulHiS x s
  | .mulHiU x => Sys2Proof.Machine.execMulHiU x s
  | .madLo x => Sys2Proof.Machine.execMadLo x s
  | .madHiS x => Sys2Proof.Machine.execMadHiS x s
  | .madHiU x => Sys2Proof.Machine.execMadHiU x s
  | .mulWideS x => Sys2Proof.Machine.execMulWideS x s
  | .mulWideU x => Sys2Proof.Machine.execMulWideU x s
  | .popc x => Sys2Proof.Machine.execPopc x s
  | .clz x => Sys2Proof.Machine.execClz x s
  | .ctz x => Sys2Proof.Machine.execCtz x s
  | .brev x => Sys2Proof.Machine.execBrev x s
  | .bfxU x => Sys2Proof.Machine.execBfxU x s
  | .bfxS x => Sys2Proof.Machine.execBfxS x s
  | .bfi x => Sys2Proof.Machine.execBfi x s
  | .iabs x => Sys2Proof.Machine.execIabs x s
  | .icmp x => Sys2Proof.Machine.execIcmp x s
  | .dadd x => Sys2Proof.Machine.execDadd x s
  | .dsub x => Sys2Proof.Machine.execDsub x s
  | .dmul x => Sys2Proof.Machine.execDmul x s
  | .dmad x => Sys2Proof.Machine.execDmad x s
  | .dmin x => Sys2Proof.Machine.execDmin x s
  | .dmax x => Sys2Proof.Machine.execDmax x s
  | .addi x => Sys2Proof.Machine.execAddi x s
  | .andi x => Sys2Proof.Machine.execAndi x s
  | .ori x => Sys2Proof.Machine.execOri x s
  | .xori x => Sys2Proof.Machine.execXori x s
  | .shli x => Sys2Proof.Machine.execShli x s
  | .shri x => Sys2Proof.Machine.execShri x s
  | .sari x => Sys2Proof.Machine.execSari x s
  | .cmpi x => Sys2Proof.Machine.execCmpi x s
  | .movw x => Sys2Proof.Machine.execMovw x s
  | .movt x => Sys2Proof.Machine.execMovt x s
  | .movs x => Sys2Proof.Machine.execMovs x s
  | .lea x => Sys2Proof.Machine.execLea x s
  | .faddF32 x => Sys2Proof.Machine.execFaddF32 x s
  | .fsubF32 x => Sys2Proof.Machine.execFsubF32 x s
  | .fmulF32 x => Sys2Proof.Machine.execFmulF32 x s
  | .ffmaF32 x => Sys2Proof.Machine.execFfmaF32 x s
  | .fminF32 x => Sys2Proof.Machine.execFminF32 x s
  | .fmaxF32 x => Sys2Proof.Machine.execFmaxF32 x s
  | .fcpysF32 x => Sys2Proof.Machine.execFcpysF32 x s
  | .faddF16x2 x => Sys2Proof.Machine.execFaddF16x2 x s
  | .fsubF16x2 x => Sys2Proof.Machine.execFsubF16x2 x s
  | .fmulF16x2 x => Sys2Proof.Machine.execFmulF16x2 x s
  | .ffmaF16x2 x => Sys2Proof.Machine.execFfmaF16x2 x s
  | .fminF16x2 x => Sys2Proof.Machine.execFminF16x2 x s
  | .fmaxF16x2 x => Sys2Proof.Machine.execFmaxF16x2 x s
  | .fcpysF16x2 x => Sys2Proof.Machine.execFcpysF16x2 x s
  | .faddBf16x2 x => Sys2Proof.Machine.execFaddBf16x2 x s
  | .fsubBf16x2 x => Sys2Proof.Machine.execFsubBf16x2 x s
  | .fmulBf16x2 x => Sys2Proof.Machine.execFmulBf16x2 x s
  | .ffmaBf16x2 x => Sys2Proof.Machine.execFfmaBf16x2 x s
  | .fminBf16x2 x => Sys2Proof.Machine.execFminBf16x2 x s
  | .fmaxBf16x2 x => Sys2Proof.Machine.execFmaxBf16x2 x s
  | .fcpysBf16x2 x => Sys2Proof.Machine.execFcpysBf16x2 x s
  | .fcmp x => Sys2Proof.Machine.execFcmp x s
  | .fclass x => Sys2Proof.Machine.execFclass x s
  | .abst x => Sys2Proof.Machine.execAbst x s
  | .frcp x => Sys2Proof.Machine.execFrcp x s
  | .frsq x => Sys2Proof.Machine.execFrsq x s
  | .fsqrt x => Sys2Proof.Machine.execFsqrt x s
  | .fexp2 x => Sys2Proof.Machine.execFexp2 x s
  | .flog2 x => Sys2Proof.Machine.execFlog2 x s
  | .fsin x => Sys2Proof.Machine.execFsin x s
  | .fcos x => Sys2Proof.Machine.execFcos x s
  | .ftanh x => Sys2Proof.Machine.execFtanh x s
  | .cvt x => Sys2Proof.Machine.execCvt x s
  | .cvts x => Sys2Proof.Machine.execCvts x s
  | .pack x => Sys2Proof.Machine.execPack x s
  | .unpk x => Sys2Proof.Machine.execUnpk x s
  | .cbset x => Sys2Proof.Machine.execCbset x s
  | .cbenc x => Sys2Proof.Machine.execCbenc x s
  | .cbdec x => Sys2Proof.Machine.execCbdec x s
  | .cbget x => Sys2Proof.Machine.execCbget x s
  | .absm x => Sys2Proof.Machine.execAbsm x s
  | .absc x => Sys2Proof.Machine.execAbsc x s
  | .shfl x => Sys2Proof.Machine.execShfl x s
  | .vote x => Sys2Proof.Machine.execVote x s
  | .red x => Sys2Proof.Machine.execRed x s
  | .scan x => Sys2Proof.Machine.execScan x s
  | .arg x => Sys2Proof.Machine.execArg x s
  | .bra x => Sys2Proof.Machine.execBra x s
  | .brc x => Sys2Proof.Machine.execBrc x s
  | .call x => Sys2Proof.Machine.execCall x s
  | .ret x => Sys2Proof.Machine.execRet x s
  | .brx x => Sys2Proof.Machine.execBrx x s
  | .join => Sys2Proof.Machine.execJoin s
  | .yld => Sys2Proof.Machine.execYld s
  | .exit => Sys2Proof.Machine.execExit s
  | .trapx x => Sys2Proof.Machine.execTrapx x s
  | .uret => Sys2Proof.Machine.execUret s
  | .brk => Sys2Proof.Machine.execBrk s
  | .bpnd x => Sys2Proof.Machine.execBpnd x s
  | .ball x => Sys2Proof.Machine.execBall x s
  | .bany x => Sys2Proof.Machine.execBany x s
  | .bnone x => Sys2Proof.Machine.execBnone x s
  | .mfu x => Sys2Proof.Machine.execMfu x s
  | .mtu x => Sys2Proof.Machine.execMtu x s
  | .tile x => Sys2Proof.Machine.execTile x s
  | .dmode x => Sys2Proof.Machine.execDmode x s
  | .dqry x => Sys2Proof.Machine.execDqry x s
  | .ld x => Sys2Proof.Machine.execLd x s
  | .st x => Sys2Proof.Machine.execSt x s
  | .ldx x => Sys2Proof.Machine.execLdx x s
  | .stx x => Sys2Proof.Machine.execStx x s
  | .atom x => Sys2Proof.Machine.execAtom x s
  | .phaseRel x => Sys2Proof.Machine.execPhaseRel x s
  | .phaseAcq x => Sys2Proof.Machine.execPhaseAcq x s
  | .phaseAr x => Sys2Proof.Machine.execPhaseAr x s
  | .fence x => Sys2Proof.Machine.execFence x s
  | .ann x => Sys2Proof.Machine.execAnn x s
  | .annHlp x => Sys2Proof.Machine.execAnnHlp x s
  | .annq x => Sys2Proof.Machine.execAnnq x s
  | .barInit x => Sys2Proof.Machine.execBarInit x s
  | .barArv x => Sys2Proof.Machine.execBarArv x s
  | .barAdd x => Sys2Proof.Machine.execBarAdd x s
  | .barTst x => Sys2Proof.Machine.execBarTst x s
  | .barPnd x => Sys2Proof.Machine.execBarPnd x s
  | .fget x => Sys2Proof.Machine.execFget x s
  | .fset x => Sys2Proof.Machine.execFset x s
  | .fclr x => Sys2Proof.Machine.execFclr x s
  | .tspawn x => Sys2Proof.Machine.execTspawn x s
  | .partialTaskWarpTimeout core => Sys2Proof.Machine.execPartialTaskWarpTimeout core s
  | .tend x => Sys2Proof.Machine.execTend x s
  | .fapp x => Sys2Proof.Machine.execFapp x s
  | .fpop x => Sys2Proof.Machine.execFpop x s
  | .fret x => Sys2Proof.Machine.execFret x s
  | .svc x => Sys2Proof.Machine.execSvc x s
  | .rgive x => Sys2Proof.Machine.execRgive x s
  | .rclaim x => Sys2Proof.Machine.execRclaim x s
  | .mresv x => Sys2Proof.Machine.execMresv x s
  | .mrels x => Sys2Proof.Machine.execMrels x s
  | .mscl x => Sys2Proof.Machine.execMscl x s
  | .mlds x => Sys2Proof.Machine.execMlds x s
  | .mswp x => Sys2Proof.Machine.execMswp x s
  | .mzero x => Sys2Proof.Machine.execMzero x s
  | .mchn x => Sys2Proof.Machine.execMchn x s
  | .mstat x => Sys2Proof.Machine.execMstat x s
  | .mloop x => Sys2Proof.Machine.execMloop x s
  | .mgrp x => Sys2Proof.Machine.execMgrp x s
  | .mdrn x => Sys2Proof.Machine.execMdrn x s
  | .cpyL x => Sys2Proof.Machine.execCpyL x s
  | .cpyS x => Sys2Proof.Machine.execCpyS x s
  | .cpyp x => Sys2Proof.Machine.execCpyp x s
  | .cpyq x => Sys2Proof.Machine.execCpyq x s
  | .kvg x => Sys2Proof.Machine.execKvg x s
  | .kvmap x => Sys2Proof.Machine.execKvmap x s
  | .migr x => Sys2Proof.Machine.execMigr x s
  | .adec x => Sys2Proof.Machine.execAdec x s
  | .nwr x => Sys2Proof.Machine.execNwr x s
  | .nrd x => Sys2Proof.Machine.execNrd x s
  | .natm x => Sys2Proof.Machine.execNatm x s
  | .nsnd x => Sys2Proof.Machine.execNsnd x s
  | .nwatch x => Sys2Proof.Machine.execNwatch x s
  | .strd x => Sys2Proof.Machine.execStrd x s
  | .stwr x => Sys2Proof.Machine.execStwr x s
  | .stfl x => Sys2Proof.Machine.execStfl x s
  | .mfsr x => Sys2Proof.Machine.execMfsr x s
  | .mtsr x => Sys2Proof.Machine.execMtsr x s
  | .tret => Sys2Proof.Machine.execTret s
  | .csave x => Sys2Proof.Machine.execCsave x s
  | .cload x => Sys2Proof.Machine.execCload x s
  | .cmigr x => Sys2Proof.Machine.execCmigr x s
  | .tlbinv x => Sys2Proof.Machine.execTlbinv x s
  | .fqansResume x => Sys2Proof.Machine.execFqansResume x s
  | .fqansTerminate x => Sys2Proof.Machine.execFqansTerminate x s
  | .kslotLoad x => Sys2Proof.Machine.execKslotLoad x s
  | .kslotZero x => Sys2Proof.Machine.execKslotZero x s
  | .kslotQuery x => Sys2Proof.Machine.execKslotQuery x s
  | .scrubStart x => Sys2Proof.Machine.execScrubStart x s
  | .scrubQuery x => Sys2Proof.Machine.execScrubQuery x s
  | .partAssign x => Sys2Proof.Machine.execPartAssign x s
  | .partReset x => Sys2Proof.Machine.execPartReset x s
  | .partRelease x => Sys2Proof.Machine.execPartRelease x s
  | .partQuery x => Sys2Proof.Machine.execPartQuery x s
  | .svcret x => Sys2Proof.Machine.execSvcret x s
  | .fmapMap x => Sys2Proof.Machine.execFmapMap x s
  | .fmapUnmap x => Sys2Proof.Machine.execFmapUnmap x s
  | .asidqEnter x => Sys2Proof.Machine.execAsidqEnter x s
  | .asidqQuery x => Sys2Proof.Machine.execAsidqQuery x s
  | .asidqLeave x => Sys2Proof.Machine.execAsidqLeave x s
  | .loadLanding fly => Sys2Proof.Machine.execLoadLanding fly s
  | .closureRun gid widx clo => Sys2Proof.Machine.execClosureRun gid widx clo s
  | .yldTimeout gid widx => Sys2Proof.Machine.execYldTimeout gid widx s
  | .warpEnd gid widx => Sys2Proof.Machine.execWarpEnd gid widx s
  | .releaseLanding core => Sys2Proof.Machine.execReleaseLanding core s
  | .forcedAcquire core => Sys2Proof.Machine.execForcedAcquire core s
  | .homeEngineTransaction engine => Sys2Proof.Machine.execHomeEngineTransaction engine s
  | .annDriverStep drive => Sys2Proof.Machine.execAnnDriverStep drive s
  | .matrixCommandHead core => Sys2Proof.Machine.execMatrixCommandHead core s
  | .matrixPass core => Sys2Proof.Machine.execMatrixPass core s
  | .drainCompletion core => Sys2Proof.Machine.execDrainCompletion core s
  | .copyCompletion op => Sys2Proof.Machine.execCopyCompletion op s
  | .kvgCompletion op => Sys2Proof.Machine.execKvgCompletion op s
  | .migrCompletion op status => Sys2Proof.Machine.execMigrCompletion op status s
  | .adecCompletion op => Sys2Proof.Machine.execAdecCompletion op s
  | .groupEnd gid => Sys2Proof.Machine.execGroupEnd gid s
  | .launchCompletionRecord launch => Sys2Proof.Machine.execLaunchCompletionRecord launch s
  | .networkCompletion op status data => Sys2Proof.Machine.execNetworkCompletion op status data s
  | .networkTimeout op => Sys2Proof.Machine.execNetworkTimeout op s
  | .storageCompletion op status nvst data => Sys2Proof.Machine.execStorageCompletion op status nvst data s
  | .storageTimeout op => Sys2Proof.Machine.execStorageTimeout op s
  | .remoteWriteArrival r data => Sys2Proof.Machine.execRemoteWriteArrival r data s
  | .remoteReadArrival r len => Sys2Proof.Machine.execRemoteReadArrival r len s
  | .remoteAtomicArrival r cas w64 y n => Sys2Proof.Machine.execRemoteAtomicArrival r cas w64 y n s
  | .endpointMessageArrival r endpoint data => Sys2Proof.Machine.execEndpointMessageArrival r endpoint data s
  | .watchRegistrationArrival r token => Sys2Proof.Machine.execWatchRegistrationArrival r token s
  | .watchNotificationArrival op status => Sys2Proof.Machine.execWatchNotificationArrival op status s
  | .watchCancel peer token => Sys2Proof.Machine.execWatchCancel peer token s
  | .launch flow hdr body => Sys2Proof.Machine.execLaunch flow hdr body s
  | .append flow hdr body => Sys2Proof.Machine.execAppend flow hdr body s
  | .bindHold die slot rec => Sys2Proof.Machine.execBindHold die slot rec s
  | .bindCommit die slot => Sys2Proof.Machine.execBindCommit die slot s
  | .bindFree die slot => Sys2Proof.Machine.execBindFree die slot s
  | .bindEvict die slot image => Sys2Proof.Machine.execBindEvict die slot image s
  | .admissionBackoffExpiry launch gang => Sys2Proof.Machine.execAdmissionBackoffExpiry launch gang s
  | .windowCompaction gid widx base => Sys2Proof.Machine.execWindowCompaction gid widx base s
  | .priorityAging launch => Sys2Proof.Machine.execPriorityAging launch s
  | .evictionWaitExpiry launch => Sys2Proof.Machine.execEvictionWaitExpiry launch s
  | .pageWalk core asid va => Sys2Proof.Machine.execPageWalk core asid va s
  | .tlbinvCompletion op => Sys2Proof.Machine.execTlbinvCompletion op s
  | .kslotZeroCompletion op => Sys2Proof.Machine.execKslotZeroCompletion op s
  | .fmapCompletion op => Sys2Proof.Machine.execFmapCompletion op s
  | .contextImageCompletion op => Sys2Proof.Machine.execContextImageCompletion op s
  | .scrubProgress die => Sys2Proof.Machine.execScrubProgress die s
  | .scrubPause die => Sys2Proof.Machine.execScrubPause die s
  | .scrubResume die => Sys2Proof.Machine.execScrubResume die s
  | .sagThresholdCrossing die k => Sys2Proof.Machine.execSagThresholdCrossing die k s
  | .sagStepDown die => Sys2Proof.Machine.execSagStepDown die s
  | .powerGoodBoot => Sys2Proof.Machine.execPowerGoodBoot s
  | .moduleReset => Sys2Proof.Machine.execModuleReset s
  | .readyFunctionUp die bit => Sys2Proof.Machine.execReadyFunctionUp die bit s
  | .portLinkUp port => Sys2Proof.Machine.execPortLinkUp port s
  | .dhcpv6Reply addr sched => Sys2Proof.Machine.execDhcpv6Reply addr sched s
  | .addressFallbackTimeout addr => Sys2Proof.Machine.execAddressFallbackTimeout addr s
  | .announceTimer => Sys2Proof.Machine.execAnnounceTimer s
  | .announceAck src => Sys2Proof.Machine.execAnnounceAck src s
  | .mgmtQuery src => Sys2Proof.Machine.execMgmtQuery src s
  | .preset src part => Sys2Proof.Machine.execPreset src part s
  | .mreset src => Sys2Proof.Machine.execMreset src s
  | .fwstage src img => Sys2Proof.Machine.execFwstage src img s
  | .unsupportedPacketDrop port => Sys2Proof.Machine.execUnsupportedPacketDrop port s
  | .crcFailedPacket port => Sys2Proof.Machine.execCrcFailedPacket port s

end Sys2Proof.Machine
end

