-- ==== Sys2Proof/Machine/Schedule.lean ====
section
/-! DEFINITION. What a step is made of: mishaps of the hardware (R122, R315, R347 to R349), the order of issue (R305), the
internal events of a state, the clock (R7, R351), and a page of code. -/

namespace Sys2Proof.Machine

/-! ### Mishaps -/

/-- The partition that owns the line of a physical address; 0xFFFF where none does (R284, R350). -/
def State.ownerOf (s : State) (a : Nat) : Nat :=
  match findBy (fun p => p.2.live && p.2.ranges.any fun r => decide (r.1 ≤ a) && decide (a < r.1 + r.2)) s.parts with
  | some p => p.1
  | none => 0xFFFF

/-- The physical address of the line of an address, as an event logs it (R350). -/
def lineAddr (a : Nat) : DWord := BitVec.ofNat 64 (a / 128 * 128)

/-- A residue mismatch of what the drain at the head of a core's queue is about to write (R347): nothing is written, and
MACHINE_CHECK follows at the group's next matrix instruction (R122, log 90). -/
def State.failDrain (s : State) (core : Nat) (q : MCmd) : State :=
  (s.updMx core fun x => { x.pop with check := true }).unlock core q.id

/-- Whether an engine operation writes memory: a copy that is no prefetch, a gather to scratch, or a migration. -/
def EngOp.toMemory (o : EngOp) : Bool :=
  match o.kind with
  | .cpy => o.args.getD 22 0 != 2
  | .kvg => o.fly == 0
  | .migr => true
  | _ => false

/-- An engine operation ends with nothing written: its ranges are unlocked and it gives no signal (R347, log 90). -/
def State.cutOp (s : State) (o : EngOp) : State := ({ s with ops := s.ops.filter fun x => x.id != o.id }).unlock o.core o.id

/-- What a mishap of the hardware does; nothing for any other choice. -/
def State.mishap (s : State) (c : Choice) : State :=
  match c with
  | .evictTlb core =>
    let k := s.core core
    s.setCore core { k with tlb := k.tlb.drop 1 }
  | .evictLine core =>
    let k := s.core core
    s.setCore core { k with peerLines := k.peerLines.drop 1 }
  | .poison gid widx reg lane a =>
    match s.group? gid with
    | none => s
    | some g =>
      (s.updWarp gid widx fun w => w.addPoison [regKey reg lane]).logEvent (g.core / 128) (g.core % 128) 2 g.part (lineAddr a) 0
  | .spoil a => (s.spoilFar (wholeMarks [sectorOf a])).logEvent (homeDie a) 0xFF 2 (s.ownerOf a) (lineAddr a) 0
  | .corrected a => s.logEvent (homeDie a) 0xFF 1 (s.ownerOf a) (lineAddr a) 0
  | .coreFails core =>
    if s.boot.up || s.boot.mgmtOnly || decide (1024 ≤ core) then s
    else { s with boot := { s.boot with failed := insertBy (fun k => k) core (s.boot.failed.filter fun k => k != core) } }
  | .drainCheck core =>
    match (s.core core).mx.head? with
    | some q => if (s.core core).mx.drain && (drainWord (q.args.getD 0 0)).scratch then s.failDrain core q else s
    | none => s
  | .residue core => s.updMx core fun x => { x with residue := true }
  | _ => s

/-- Logs a pipe event at the issuing instruction (R350). -/
def State.logPipe (s : State) (kind : Nat) : State :=
  match issuer? s with
  | none => s
  | some c => s.logEvent (c.grp.core / 128) (c.grp.core % 128) kind c.grp.part c.cur.pc 0

/-- A residue mismatch whose retry succeeds (R349): it is logged, and the instruction goes on. -/
def State.pipeRetried (s : State) : State := s.logPipe 3

/-- The MACHINE_CHECK of the issuing instruction, with nothing written. -/
def State.checkFails (s : State) : State :=
  match issuer? s with
  | none => { s with cur := none }
  | some c =>
    let v := s.freeValue
    raise v.2 c 0x28 v.1 0

/-- A residue mismatch that recurs (R349): both events are logged, and the instruction raises MACHINE_CHECK. -/
def State.pipeFails (s : State) (_gid _widx : Nat) : State := ((s.logPipe 3).logPipe 4).checkFails

/-- Whether the issuing instruction brings register data to memory: a store, an atomic, or a write of a future, a record or an
entry (R347). -/
def State.curStores (s : State) : Bool :=
  match s.curInstr with
  | some (.st _) | some (.stx _) | some (.atom _) | some (.ann _) | some (.fset _) | some (.fapp _) | some (.svc _) | some (.kvmap _) => true
  | _ => false

/-! ### The order of issue (R305) -/

/-- The cycles of the die of a group. -/
def State.now (s : State) (g : Group) : Nat := (s.cycles (g.core / 128)).toNat

/-- The place of a warp in the order of R305: ready for 48 cycles or more, oldest first; then priority; then least
recently issued; then the lower slot. -/
def State.issueRank (s : State) (g : Group) (w : Warp) : Nat :=
  match w.readySince with
  | some t => if t + 48 ≤ s.now g then 64 * t + w.slot else 2 ^ 192 * (4 - g.prio) + 64 * w.lastIssue + w.slot
  | none => 2 ^ 192 * (4 - g.prio) + 64 * w.lastIssue + w.slot

/-- Whether a warp of a group is ready (R36). -/
def State.ready (s : State) (g : Group) (w : Warp) : Bool := (s.issueWarp g.gid w.idx).isSome

/-- Whether a warp goes before another: they share an issue partition of one core, and the order of R305 puts it first. -/
def State.precedes (s : State) (g : Group) (w : Warp) (h : Group) (v : Warp) : Bool :=
  g.core == h.core && w.slot % 4 == v.slot % 4 && decide (s.issueRank g w < s.issueRank h v)

/-- Whether a warp may use an issue slot of its partition now: no ready warp goes before it (R305). -/
def State.mayIssue (s : State) (gid widx : Nat) : Bool :=
  match s.group? gid, s.warp? gid widx with
  | some h, some v => s.groups.all fun g => g.warps.all fun w => !s.precedes g w h v || !s.ready g w
  | _, _ => false

/-- The warps that may use an issue slot now, with their ranks. -/
def State.readyWarps (s : State) : List (Nat × Nat × Nat) :=
  s.groups.flatMap fun g => g.warps.filterMap fun w =>
    if s.ready g w then some (2 ^ 6 * s.issueRank g w + g.core % 64, g.gid, w.idx) else none

/-- The warp that goes next: the first of its partition. -/
def State.bestWarp (s : State) : Option (Nat × Nat) :=
  (s.readyWarps.foldl (fun r p =>
    match r with
    | none => some p
    | some q => if p.1 < q.1 then some p else r) none).map fun p => p.2

/-- A warp has used an issue slot. -/
def State.noteIssue (s : State) (gid widx : Nat) : State :=
  match s.group? gid with
  | none => s
  | some g => s.updWarp gid widx fun w => { w with lastIssue := s.now g, readySince := none }

/-- Notes since when each warp has been ready without issuing (R305). -/
def State.noteReady (s : State) : State :=
  let note := fun (g : Group) (w : Warp) =>
    { w with readySince := if s.ready g w then some (w.readySince.getD (s.now g)) else none }
  { s with groups := s.groups.map fun g => { g with warps := g.warps.map (note g) } }

/-! ### Internal events -/

/-- The events that the module comes to by itself, under the names of their rows of the table. -/
inductive Event where
  | loadLanding (fly : Nat)
  | pageWalk (core asid : Nat) (va : DWord)
  | homeEngineTransaction (eng : Nat)
  | releaseLanding (core : Nat)
  | annDriverStep (drv : Nat)
  | drainCompletion (core : Nat)
  | matrixPass (core : Nat)
  | matrixCommandHead (core : Nat)
  | copyCompletion (op : Nat)
  | kvgCompletion (op : Nat)
  | migrCompletion (op : Nat)
  | adecCompletion (op : Nat)
  | contextImageCompletion (op : Nat)
  | tlbinvCompletion (op : Nat)
  | kslotZeroCompletion (op : Nat)
  | fmapCompletion (op : Nat)
  | warpEnd (gid widx : Nat)
  | groupEnd (gid : Nat)
  | launchCompletionRecord (launch : Nat)
  | yldTimeout (gid widx : Nat)
  | partialTaskWarpTimeout (core : Nat)
  | forcedAcquire (core : Nat)
  | scrubPause (die : Nat)
  | scrubResume (die : Nat)
  | scrubProgress (die : Nat)
  | networkTimeout (op : Nat)
  | storageTimeout (op : Nat)
  | admissionBackoffExpiry (launch gang : Nat)
  | priorityAging (launch : Nat)
  | evictionWaitExpiry (launch : Nat)
  | sagStepDown (die : Nat)
  | announceTimer
  | windowCompaction (gid widx base : Nat)

/-- What such an event does: the meaning of its row. -/
def Event.run (e : Event) (s : State) : Host.Outcome State Fault Refusal :=
  match e with
  | .loadLanding fly => execLoadLanding fly s
  | .pageWalk core asid va => execPageWalk core asid va s
  | .homeEngineTransaction eng => execHomeEngineTransaction eng s
  | .releaseLanding core => execReleaseLanding core s
  | .annDriverStep drv => execAnnDriverStep drv s
  | .drainCompletion core => execDrainCompletion core s
  | .matrixPass core => execMatrixPass core s
  | .matrixCommandHead core => execMatrixCommandHead core s
  | .copyCompletion op => execCopyCompletion op s
  | .kvgCompletion op => execKvgCompletion op s
  | .migrCompletion op => execMigrCompletion op 0 s
  | .adecCompletion op => execAdecCompletion op s
  | .contextImageCompletion op => execContextImageCompletion op s
  | .tlbinvCompletion op => execTlbinvCompletion op s
  | .kslotZeroCompletion op => execKslotZeroCompletion op s
  | .fmapCompletion op => execFmapCompletion op s
  | .warpEnd gid widx => execWarpEnd gid widx s
  | .groupEnd gid => execGroupEnd gid s
  | .launchCompletionRecord launch => execLaunchCompletionRecord launch s
  | .yldTimeout gid widx => execYldTimeout gid widx s
  | .partialTaskWarpTimeout core => execPartialTaskWarpTimeout core s
  | .forcedAcquire core => execForcedAcquire core s
  | .scrubPause die => execScrubPause die s
  | .scrubResume die => execScrubResume die s
  | .scrubProgress die => execScrubProgress die s
  | .networkTimeout op => execNetworkTimeout op s
  | .storageTimeout op => execStorageTimeout op s
  | .admissionBackoffExpiry launch gang => execAdmissionBackoffExpiry launch gang s
  | .priorityAging launch => execPriorityAging launch s
  | .evictionWaitExpiry launch => execEvictionWaitExpiry launch s
  | .sagStepDown die => execSagStepDown die s
  | .announceTimer => execAnnounceTimer s
  | .windowCompaction gid widx base => execWindowCompaction gid widx base s

/-- The events that end or drive an engine operation, by its kind; what a device must answer is not among them. -/
def EngOp.events (o : EngOp) : List Event :=
  match o.kind with
  | .cpy => [.copyCompletion o.id]
  | .kvg => [.kvgCompletion o.id]
  | .migr => [.migrCompletion o.id]
  | .adec => [.adecCompletion o.id]
  | .save | .load | .move => [.contextImageCompletion o.id]
  | .tlbinv => [.tlbinvCompletion o.id]
  | .kzero => [.kslotZeroCompletion o.id]
  | .fmap => [.fmapCompletion o.id]
  | .net _ | .storage _ | .answer => []

/-- The events of landings, engines and completions that a state may have, in the order in which they are tried. -/
def State.promptEvents (s : State) : List Event :=
  let es : List (List Event) := [
    (s.flys.map fun f => .loadLanding f.id),
    (s.dies.flatMap fun p => (p.2.misses.filter fun m => m.walking).map fun m => .pageWalk m.core m.asid m.va),
    (s.batches.map fun b => .homeEngineTransaction b.engine),
    ((s.cores.filter fun p => !p.2.relq.isEmpty).map fun p => .releaseLanding p.1),
    (s.drives.map fun d => .annDriverStep d.id),
    ((s.cores.filter fun p => !p.2.mx.queue.isEmpty).flatMap fun p =>
      [.drainCompletion p.1, .matrixPass p.1, .matrixCommandHead p.1]),
    (s.ops.flatMap fun o => o.events),
    (s.groups.flatMap fun g => (g.warps.filter fun w => w.splits.isEmpty).map fun w => .warpEnd g.gid w.idx),
    ((s.groups.filter fun g => g.stat == .draining).map fun g => .groupEnd g.gid),
    (s.launches.map fun l => .launchCompletionRecord l.id)]
  es.flatten

/-- The events that time brings, and the slower work of the hardware. -/
def State.timerEvents (s : State) : List Event :=
  let es : List (List Event) := [
    (s.groups.flatMap fun g => (g.warps.filter fun w => w.yld.isSome).map fun w => .yldTimeout g.gid w.idx),
    ((s.cores.filter fun p => !p.2.tasks.isEmpty).map fun p => .partialTaskWarpTimeout p.1),
    (s.cores.map fun p => .forcedAcquire p.1),
    ((s.dies.filter fun p => p.2.scrub.active || p.2.scrub.paused).flatMap fun p =>
      [.scrubPause p.1, .scrubResume p.1, .scrubProgress p.1]),
    (s.ops.flatMap fun o => match o.kind with
      | .net _ => [.networkTimeout o.id]
      | .storage _ => [.storageTimeout o.id]
      | _ => []),
    (s.backoffs.map fun b => .admissionBackoffExpiry b.launch b.gang),
    ((s.cores.filter fun p => p.2.compact).flatMap fun p => (s.movable p.1).map fun m => .windowCompaction m.1 m.2.1 m.2.2),
    ((s.launches.filter fun l => !l.waitingGangs.isEmpty).flatMap fun l => [.priorityAging l.id, .evictionWaitExpiry l.id]),
    ((s.dies.filter fun p => p.2.sag != 0).map fun p => .sagStepDown p.1),
    (if s.boot.address.isSome then [.announceTimer] else [])]
  es.flatten

/-! ### The clock (R7, R351) -/

/-- One unstretched clock: a die in stretch step k counts 8 - k eighths of a cycle, and the timer 5/47 of a period. -/
def State.tick (s : State) : State :=
  let one := fun (s : State) (n : Nat) =>
    let d := s.die n
    s.setDie n { d with cyc8 := d.cyc8 + (8 - d.sag) }
  (List.range 8).foldl one { s with tick47 := s.tick47 + 5 }

/-- What follows from a step without a further event: instructions whose turn has come perform, operations go out, and
waiting remote writes land. -/
def State.settle (s : State) : State :=
  let s := s.drainQueue s.queue.length
  let s := s.sendOps s.ops.length
  s.landInbox s.inbox.length

/-- The end of a step: what follows from it, which warps are ready, what it changed of saved groups in their images, and
the clock. -/
def State.endStep (old new : State) : State := (State.syncImages old { new.settle with cur := none }.noteReady).tick

/-! ### A page of code (log 28) -/

/-- The virtual and the physical address of the page of code. -/
def codePage : Nat := 0x10000

/-- The entry that maps the page of code: a writable, executable 64 KiB page of the first slice. -/
def codePte : DWord := BitVec.ofNat 64 (2 ^ 63 + 2 ^ 62 + 2 ^ 61 + 2 ^ 57 + codePage)

/-- The launch of the group that stands at the page of code. -/
def codeLaunch : Launch where
  id := 0
  desc :=
    { entry := BitVec.ofNat 64 codePage, crec := 0, feedtab := 0, imgpool := 0, ngang := 1, asid := 0, roles := [0, 0, 0, 0]
      sgr := 16, ngr := 16, regs := 128, warps := 1, gsize := 1, prio := 3, tile := 32, holdapp := false, regions := [] }
  part := 0xFF
  kernel := true
  waitingGangs := []
  live := 1
  done := 0
  tstart := none
  accepted := 0
  terminated := false
  held := false
  recorded := true
  parked := false
  flow := 0
  aged := 0
  evictor := false
  waited := 0
  waitFrom := 0

/-- The group whose only warp stands at the page of code. -/
def codeGroup (gid : Nat) : Group :=
  { newGroup gid codeLaunch 0 0 0 1 0 0x10000 0x10000 0 with
    warps := [newWarp 0 0 0 128 0 (BitVec.ofNat 64 codePage) 0xFFFFFFFF 32 false []] }

/-- The state with bytes at the start of the page of code, a group of one warp that stands there, and its turn next. -/
def State.placeCode (s : State) (bs : List Byte) : State :=
  let k := s.core 0
  let e : TlbEntry := ⟨0, 0xFF, codePage, 0x10000, codePte⟩
  let s1 := (s.writeRaw (putAt codePage bs)).setCore 0 { k with tlb := e :: k.tlb }
  { s1 with groups := s1.groups ++ [codeGroup s1.uid], agenda := .issue s1.uid 0 :: s1.agenda, uid := s1.uid + 1 }

end Sys2Proof.Machine
end

