-- ==== Sys2Proof/Machine/Step.lean ====
section
/-! DEFINITION. One step of the module: a choice of the agenda, or else the next internal event or issue slot, then the
clock (log 3, log 7); and how a word is placed where the next step fetches it. -/

namespace Sys2Proof.Machine

/-- Runs the instruction that a state names as issuing, if it names one. -/
def runCur (s : State) : Host.Outcome State Fault Refusal :=
  match s.curInstr with
  | some i => exec i s
  | none => .next { s with cur := none }

/-- The state in which a warp issues, where its turn has come (R305). -/
def State.takeTurn (s : State) (gid widx : Nat) : Option State :=
  if s.mayIssue gid widx then s.issueWarp gid widx else none

/-- What a choice does, before the clock; a choice that is not possible in the state is passed over. -/
def choose (c : Choice) (s : State) : Host.Outcome State Fault Refusal :=
  match c with
  | .event (.closureRun gid widx clo) =>
    if s.mayIssue gid widx then
      match exec (.closureRun gid widx clo) s with
      | .next t => runCur (t.noteIssue gid widx)
      | _ => .next s
    else .next s
  | .event i =>
    match exec i s with
    | .next t => runCur t
    | _ => .next s
  | .issue gid widx =>
    match s.takeTurn gid widx with
    | some t => runCur (t.noteIssue gid widx)
    | none => .next s
  | .pipe gid widx again =>
    match s.takeTurn gid widx with
    | some t => if again then .next (t.pipeFails gid widx) else runCur (t.pipeRetried.noteIssue gid widx)
    | none => .next s
  | .storeCheck gid widx =>
    match s.takeTurn gid widx with
    | some t => if t.curStores then .next t.checkFails else runCur (t.noteIssue gid widx)
    | none => .next s
  | .engineCheck op =>
    match s.op? op with
    | some o =>
      match (if o.toMemory && !o.parked then s.takeTurn o.gid o.widx else none) with
      | some t => .next (t.cutOp o).checkFails
      | none => .next s
    | none => .next s
  | .program p => .next (s.addProgram p)
  | .miss core asid va => .next (s.miss core asid va)
  | c => .next (s.mishap c)

/-- The first event of a list that can happen. -/
def firstEvent (s : State) : List Event → Option State
  | [] => none
  | e :: r =>
    match e.run s with
    | .next t => some t
    | _ => firstEvent s r

/-- What happens when the agenda leaves it open: landings and engine work, then issue and the slower timers by turns. -/
def stepFreely (s : State) : Host.Outcome State Fault Refusal :=
  match firstEvent s s.promptEvents with
  | some t => runCur t
  | none =>
    let issue := fun (_ : Unit) => match s.bestWarp with
      | some w => (s.issueWarp w.1 w.2).map fun t => t.noteIssue w.1 w.2
      | none => none
    let timers := fun (_ : Unit) => firstEvent s s.timerEvents
    let first := if s.tick47 % 2 = 0 then issue () else timers ()
    match first with
    | some t => runCur t
    | none =>
      match (if s.tick47 % 2 = 0 then timers () else issue ()) with
      | some t => runCur t
      | none => .next s

/-- One step of the module. -/
def step (s : State) : Host.Outcome State Fault Refusal :=
  let r := match s.agenda with
    | c :: rest => choose c { s with agenda := rest }
    | [] => stepFreely s
  match r with
  | .next t => .next (State.endStep s t)
  | .fault f => .fault f
  | .refused x => .refused x

/-- The state with an instruction's bits placed where the next step fetches: a warp of a kernel group at the start of a
mapped page, whose turn it is (log 28). -/
def State.withFetchWord (s : State) (nbits w : Nat) : State := s.placeCode (natBytes 16 (w % 2 ^ nbits))

end Sys2Proof.Machine
end

