-- ==== Sys2Proof/Laws/Encoding.lean ====
section
/-! SUPPORT. Laws of the encoding: each form of word is read back field by field, each code names its value, and each
major selects its part of the opcode map. -/

set_option linter.unusedSimpArgs false

namespace Sys2Proof

/-! ### Fields of joined words -/

theorem cut_right {n m k l : Nat} (x : BitVec n) (y : BitVec m) (h : k + l ≤ m) :
    (x ++ y).extractLsb' k l = y.extractLsb' k l := BitVec.extractLsb'_append_eq_of_add_le h

theorem cut_left {n m k l : Nat} (x : BitVec n) (y : BitVec m) (h : m ≤ k) :
    (x ++ y).extractLsb' k l = x.extractLsb' (k - m) l := BitVec.extractLsb'_append_eq_of_le h

theorem bit_left {n m k : Nat} (x : BitVec n) (y : BitVec m) (h : m ≤ k) : (x ++ y).getLsbD k = x.getLsbD (k - m) := by
  rw [BitVec.getLsbD_append, if_neg (by omega)]

theorem bit_right {n m k : Nat} (x : BitVec n) (y : BitVec m) (h : k < m) : (x ++ y).getLsbD k = y.getLsbD k := by
  rw [BitVec.getLsbD_append, if_pos h]

/-! ### Forms -/

theorem fieldsA (t : Bool) (min : BitVec 3) (b : BitVec 7) (a : BitVec 7) (d : BitVec 7) (maj : BitVec 6) :
    let w := (BitVec.ofBool t ++ min ++ b ++ a ++ d ++ maj ++ 1#1)
    w.extractLsb' 1 6 = maj ∧ w.extractLsb' 7 7 = d ∧ w.extractLsb' 14 7 = a ∧ w.extractLsb' 21 7 = b ∧ w.extractLsb' 28 3 = min ∧ w.getLsbD 31 = t ∧ w.getLsbD 0 = true := by
  intro w
  simp (disch := decide) only [w, cut_right, cut_left, bit_left, bit_right]
  simp

theorem unpackA_packA (r : RawA) : unpackA (packA r) = r := by
  obtain ⟨maj, d, a, b, min, t⟩ := r
  obtain ⟨hmaj, hd, ha, hb, hmin, ht, -⟩ := fieldsA t min b a d maj
  simp only [unpackA, packA, RawA.mk.injEq]
  exact ⟨hmaj, hd, ha, hb, hmin, ht⟩

theorem major_packA (r : RawA) : majorOf (packA r) = r.maj := congrArg RawA.maj (unpackA_packA r)

theorem low_packA (r : RawA) : (packA r).getLsbD 0 = true :=
  (fieldsA r.t r.min r.b r.a r.d r.maj).2.2.2.2.2.2

theorem fieldsE (sub : BitVec 4) (b : BitVec 7) (a : BitVec 7) (d : BitVec 7) (maj : BitVec 6) :
    let w := (sub ++ b ++ a ++ d ++ maj ++ 1#1)
    w.extractLsb' 1 6 = maj ∧ w.extractLsb' 7 7 = d ∧ w.extractLsb' 14 7 = a ∧ w.extractLsb' 21 7 = b ∧ w.extractLsb' 28 4 = sub ∧ w.getLsbD 0 = true := by
  intro w
  simp (disch := decide) only [w, cut_right, cut_left, bit_left, bit_right]
  simp

theorem unpackE_packE (r : RawE) : unpackE (packE r) = r := by
  obtain ⟨maj, d, a, b, sub⟩ := r
  obtain ⟨hmaj, hd, ha, hb, hsub, -⟩ := fieldsE sub b a d maj
  simp only [unpackE, packE, RawE.mk.injEq]
  exact ⟨hmaj, hd, ha, hb, hsub⟩

theorem major_packE (r : RawE) : majorOf (packE r) = r.maj := congrArg RawE.maj (unpackE_packE r)

theorem low_packE (r : RawE) : (packE r).getLsbD 0 = true :=
  (fieldsE r.sub r.b r.a r.d r.maj).2.2.2.2.2

theorem fieldsI (imm : BitVec 11) (a : BitVec 7) (d : BitVec 7) (maj : BitVec 6) :
    let w := (imm ++ a ++ d ++ maj ++ 1#1)
    w.extractLsb' 1 6 = maj ∧ w.extractLsb' 7 7 = d ∧ w.extractLsb' 14 7 = a ∧ w.extractLsb' 21 11 = imm ∧ w.getLsbD 0 = true := by
  intro w
  simp (disch := decide) only [w, cut_right, cut_left, bit_left, bit_right]
  simp

theorem unpackI_packI (r : RawI) : unpackI (packI r) = r := by
  obtain ⟨maj, d, a, imm⟩ := r
  obtain ⟨hmaj, hd, ha, himm, -⟩ := fieldsI imm a d maj
  simp only [unpackI, packI, RawI.mk.injEq]
  exact ⟨hmaj, hd, ha, himm⟩

theorem major_packI (r : RawI) : majorOf (packI r) = r.maj := congrArg RawI.maj (unpackI_packI r)

theorem low_packI (r : RawI) : (packI r).getLsbD 0 = true :=
  (fieldsI r.imm r.a r.d r.maj).2.2.2.2

theorem fieldsW (min2 : BitVec 2) (imm : BitVec 16) (d : BitVec 7) (maj : BitVec 6) :
    let w := (min2 ++ imm ++ d ++ maj ++ 1#1)
    w.extractLsb' 1 6 = maj ∧ w.extractLsb' 7 7 = d ∧ w.extractLsb' 14 16 = imm ∧ w.extractLsb' 30 2 = min2 ∧ w.getLsbD 0 = true := by
  intro w
  simp (disch := decide) only [w, cut_right, cut_left, bit_left, bit_right]
  simp

theorem unpackW_packW (r : RawW) : unpackW (packW r) = r := by
  obtain ⟨maj, d, imm, min2⟩ := r
  obtain ⟨hmaj, hd, himm, hmin2, -⟩ := fieldsW min2 imm d maj
  simp only [unpackW, packW, RawW.mk.injEq]
  exact ⟨hmaj, hd, himm, hmin2⟩

theorem major_packW (r : RawW) : majorOf (packW r) = r.maj := congrArg RawW.maj (unpackW_packW r)

theorem low_packW (r : RawW) : (packW r).getLsbD 0 = true :=
  (fieldsW r.min2 r.imm r.d r.maj).2.2.2.2

theorem fieldsB (off : BitVec 15) (cond : BitVec 3) (a : BitVec 7) (maj : BitVec 6) :
    let w := (off ++ cond ++ a ++ maj ++ 1#1)
    w.extractLsb' 1 6 = maj ∧ w.extractLsb' 7 7 = a ∧ w.extractLsb' 14 3 = cond ∧ w.extractLsb' 17 15 = off ∧ w.getLsbD 0 = true := by
  intro w
  simp (disch := decide) only [w, cut_right, cut_left, bit_left, bit_right]
  simp

theorem unpackB_packB (r : RawB) : unpackB (packB r) = r := by
  obtain ⟨maj, a, cond, off⟩ := r
  obtain ⟨hmaj, ha, hcond, hoff, -⟩ := fieldsB off cond a maj
  simp only [unpackB, packB, RawB.mk.injEq]
  exact ⟨hmaj, ha, hcond, hoff⟩

theorem major_packB (r : RawB) : majorOf (packB r) = r.maj := congrArg RawB.maj (unpackB_packB r)

theorem low_packB (r : RawB) : (packB r).getLsbD 0 = true :=
  (fieldsB r.off r.cond r.a r.maj).2.2.2.2

theorem fieldsM (off : BitVec 6) (size : BitVec 3) (space : BitVec 2) (a : BitVec 7) (d : BitVec 7) (maj : BitVec 6) :
    let w := (off ++ size ++ space ++ a ++ d ++ maj ++ 1#1)
    w.extractLsb' 1 6 = maj ∧ w.extractLsb' 7 7 = d ∧ w.extractLsb' 14 7 = a ∧ w.extractLsb' 21 2 = space ∧ w.extractLsb' 23 3 = size ∧ w.extractLsb' 26 6 = off ∧ w.getLsbD 0 = true := by
  intro w
  simp (disch := decide) only [w, cut_right, cut_left, bit_left, bit_right]
  simp

theorem unpackM_packM (r : RawM) : unpackM (packM r) = r := by
  obtain ⟨maj, d, a, space, size, off⟩ := r
  obtain ⟨hmaj, hd, ha, hspace, hsize, hoff, -⟩ := fieldsM off size space a d maj
  simp only [unpackM, packM, RawM.mk.injEq]
  exact ⟨hmaj, hd, ha, hspace, hsize, hoff⟩

theorem major_packM (r : RawM) : majorOf (packM r) = r.maj := congrArg RawM.maj (unpackM_packM r)

theorem low_packM (r : RawM) : (packM r).getLsbD 0 = true :=
  (fieldsM r.off r.size r.space r.a r.d r.maj).2.2.2.2.2.2

theorem fieldsC (sat : Bool) (sfmt : BitVec 5) (dfmt : BitVec 5) (a : BitVec 7) (d : BitVec 7) (maj : BitVec 6) :
    let w := (BitVec.ofBool sat ++ sfmt ++ dfmt ++ a ++ d ++ maj ++ 1#1)
    w.extractLsb' 1 6 = maj ∧ w.extractLsb' 7 7 = d ∧ w.extractLsb' 14 7 = a ∧ w.extractLsb' 21 5 = dfmt ∧ w.extractLsb' 26 5 = sfmt ∧ w.getLsbD 31 = sat ∧ w.getLsbD 0 = true := by
  intro w
  simp (disch := decide) only [w, cut_right, cut_left, bit_left, bit_right]
  simp

theorem unpackC_packC (r : RawC) : unpackC (packC r) = r := by
  obtain ⟨maj, d, a, dfmt, sfmt, sat⟩ := r
  obtain ⟨hmaj, hd, ha, hdfmt, hsfmt, hsat, -⟩ := fieldsC sat sfmt dfmt a d maj
  simp only [unpackC, packC, RawC.mk.injEq]
  exact ⟨hmaj, hd, ha, hdfmt, hsfmt, hsat⟩

theorem major_packC (r : RawC) : majorOf (packC r) = r.maj := congrArg RawC.maj (unpackC_packC r)

theorem low_packC (r : RawC) : (packC r).getLsbD 0 = true :=
  (fieldsC r.sat r.sfmt r.dfmt r.a r.d r.maj).2.2.2.2.2.2

theorem fieldsT (op : BitVec 4) (scope : BitVec 3) (rel : Bool) (w64 : Bool) (space : BitVec 2) (a : BitVec 7) (d : BitVec 7) (maj : BitVec 6) :
    let w := (op ++ scope ++ BitVec.ofBool rel ++ BitVec.ofBool w64 ++ space ++ a ++ d ++ maj ++ 1#1)
    w.extractLsb' 1 6 = maj ∧ w.extractLsb' 7 7 = d ∧ w.extractLsb' 14 7 = a ∧ w.extractLsb' 21 2 = space ∧ w.getLsbD 23 = w64 ∧ w.getLsbD 24 = rel ∧ w.extractLsb' 25 3 = scope ∧ w.extractLsb' 28 4 = op ∧ w.getLsbD 0 = true := by
  intro w
  simp (disch := decide) only [w, cut_right, cut_left, bit_left, bit_right]
  simp

theorem unpackT_packT (r : RawT) : unpackT (packT r) = r := by
  obtain ⟨maj, d, a, space, w64, rel, scope, op⟩ := r
  obtain ⟨hmaj, hd, ha, hspace, hw64, hrel, hscope, hop, -⟩ := fieldsT op scope rel w64 space a d maj
  simp only [unpackT, packT, RawT.mk.injEq]
  exact ⟨hmaj, hd, ha, hspace, hw64, hrel, hscope, hop⟩

theorem major_packT (r : RawT) : majorOf (packT r) = r.maj := congrArg RawT.maj (unpackT_packT r)

theorem low_packT (r : RawT) : (packT r).getLsbD 0 = true :=
  (fieldsT r.op r.scope r.rel r.w64 r.space r.a r.d r.maj).2.2.2.2.2.2.2.2

theorem fieldsN (op : BitVec 4) (ord : BitVec 2) (space : BitVec 2) (b : BitVec 5) (a : BitVec 6) (d : BitVec 6) (maj : BitVec 6) :
    let w := (op ++ ord ++ space ++ b ++ a ++ d ++ maj ++ 1#1)
    w.extractLsb' 1 6 = maj ∧ w.extractLsb' 7 6 = d ∧ w.extractLsb' 13 6 = a ∧ w.extractLsb' 19 5 = b ∧ w.extractLsb' 24 2 = space ∧ w.extractLsb' 26 2 = ord ∧ w.extractLsb' 28 4 = op ∧ w.getLsbD 0 = true := by
  intro w
  simp (disch := decide) only [w, cut_right, cut_left, bit_left, bit_right]
  simp

theorem unpackN_packN (r : RawN) : unpackN (packN r) = r := by
  obtain ⟨maj, d, a, b, space, ord, op⟩ := r
  obtain ⟨hmaj, hd, ha, hb, hspace, hord, hop, -⟩ := fieldsN op ord space b a d maj
  simp only [unpackN, packN, RawN.mk.injEq]
  exact ⟨hmaj, hd, ha, hb, hspace, hord, hop⟩

theorem major_packN (r : RawN) : majorOf (packN r) = r.maj := congrArg RawN.maj (unpackN_packN r)

theorem low_packN (r : RawN) : (packN r).getLsbD 0 = true :=
  (fieldsN r.op r.ord r.space r.b r.a r.d r.maj).2.2.2.2.2.2.2

/-! ### Codes -/

@[simp] theorem Space.ofCode_code (x : Space) : Space.ofCode x.code = some x := by cases x <;> rfl
@[simp] theorem Scope.ofCode_code (x : Scope) : Scope.ofCode x.code = some x := by cases x <;> rfl
@[simp] theorem Rnd.ofCode_code (x : Rnd) : Rnd.ofCode x.code = some x := by cases x <;> rfl
@[simp] theorem IcmpCond.ofCode_code (x : IcmpCond) : IcmpCond.ofCode x.code = some x := by cases x <;> rfl
@[simp] theorem CmpiCond.ofCode_code (x : CmpiCond) : CmpiCond.ofCode x.code = some x := by cases x <;> rfl
@[simp] theorem DigTy.ofCode_code (x : DigTy) : DigTy.ofCode x.code = some x := by cases x <;> rfl
@[simp] theorem FTy.ofCode_code (x : FTy) : FTy.ofCode x.code = some x := by cases x <;> rfl
@[simp] theorem CbFmt.ofCode_code (x : CbFmt) : CbFmt.ofCode x.code = some x := by cases x <;> rfl
@[simp] theorem FCond.ofCode_code (x : FCond) : FCond.ofCode x.code = some x := by cases x <;> rfl
@[simp] theorem Fmt.ofCode_code (x : Fmt) : Fmt.ofCode x.code = some x := by cases x <;> rfl
@[simp] theorem ShflMode.ofCode_code (x : ShflMode) : ShflMode.ofCode x.code = some x := by cases x <;> rfl
@[simp] theorem VoteMode.ofCode_code (x : VoteMode) : VoteMode.ofCode x.code = some x := by cases x <;> rfl
@[simp] theorem RedOp.ofCode_code (x : RedOp) : RedOp.ofCode x.code = some x := by cases x <;> rfl
@[simp] theorem RedTy.ofCode_code (x : RedTy) : RedTy.ofCode x.code = some x := by cases x <;> rfl
@[simp] theorem ArgKind.ofCode_code (x : ArgKind) : ArgKind.ofCode x.code = some x := by cases x <;> rfl
@[simp] theorem Cond.ofCode_code (x : Cond) : Cond.ofCode x.code = some x := by cases x <;> rfl
@[simp] theorem LdSize.ofCode_code (x : LdSize) : LdSize.ofCode x.code = some x := by cases x <;> rfl
@[simp] theorem StSize.ofCode_code (x : StSize) : StSize.ofCode x.code = some x := by cases x <;> rfl
@[simp] theorem AtomOp.ofCode_code (x : AtomOp) : AtomOp.ofCode x.code = some x := by cases x <;> rfl
@[simp] theorem AnnOp.ofCode_code (x : AnnOp) : AnnOp.ofCode x.code = some x := by cases x <;> rfl
@[simp] theorem UReg.ofCode_code (x : UReg) : UReg.ofCode x.code = some x := by cases x <;> rfl
@[simp] theorem SReg.ofCode_code (x : SReg) : SReg.ofCode x.code = some x := by cases x <;> rfl

@[simp] theorem fcmpOfSub_subOfFcmp (y : FTy) (c : FCond) : fcmpOfSub (subOfFcmp y c) = some (y, c) := by
  cases y <;> cases c <;> rfl

theorem subOfFcmp_ne (y : FTy) (c : FCond) : subOfFcmp y c ≠ 15 := by cases y <;> cases c <;> decide

theorem AnnOp.code_plain (o : AnnOp) : o.code.toNat ≠ 13 ∧ o.code.toNat ≠ 14 := by cases o <;> decide

/-! ### Joined fields of a register field -/

@[simp] theorem hi6_5 (x : BitVec 6) (y : BitVec 5) : (x ++ y).extractLsb' 5 6 = x := by
  rw [cut_left _ _ (by omega)]; simp

@[simp] theorem lo6_5 (x : BitVec 6) (y : BitVec 5) : (x ++ y).extractLsb' 0 5 = y := by
  rw [cut_right _ _ (by omega)]; simp

@[simp] theorem hi3_8 (x : BitVec 3) (y : BitVec 8) : (x ++ y).extractLsb' 8 3 = x := by
  rw [cut_left _ _ (by omega)]; simp

@[simp] theorem lo3_8 (x : BitVec 3) (y : BitVec 8) : (x ++ y).extractLsb' 0 8 = y := by
  rw [cut_right _ _ (by omega)]; simp

@[simp] theorem hi1_2 (x : BitVec 1) (y : BitVec 2) : (x ++ y).extractLsb' 2 1 = x := by
  rw [cut_left _ _ (by omega)]; simp

@[simp] theorem lo1_2 (x : BitVec 1) (y : BitVec 2) : (x ++ y).extractLsb' 0 2 = y := by
  rw [cut_right _ _ (by omega)]; simp

@[simp] theorem hi5_2 (x : BitVec 5) (y : BitVec 2) : (x ++ y).extractLsb' 2 5 = x := by
  rw [cut_left _ _ (by omega)]; simp

@[simp] theorem lo5_2 (x : BitVec 5) (y : BitVec 2) : (x ++ y).extractLsb' 0 2 = y := by
  rw [cut_right _ _ (by omega)]; simp

@[simp] theorem hi4_3 (x : BitVec 4) (y : BitVec 3) : (x ++ y).extractLsb' 3 4 = x := by
  rw [cut_left _ _ (by omega)]; simp

@[simp] theorem lo4_3 (x : BitVec 4) (y : BitVec 3) : (x ++ y).extractLsb' 0 3 = y := by
  rw [cut_right _ _ (by omega)]; simp

@[simp] theorem hi3_4 (x : BitVec 3) (y : BitVec 4) : (x ++ y).extractLsb' 4 3 = x := by
  rw [cut_left _ _ (by omega)]; simp

@[simp] theorem lo3_4 (x : BitVec 3) (y : BitVec 4) : (x ++ y).extractLsb' 0 4 = y := by
  rw [cut_right _ _ (by omega)]; simp

@[simp] theorem hi2_5 (x : BitVec 2) (y : BitVec 5) : (x ++ y).extractLsb' 5 2 = x := by
  rw [cut_left _ _ (by omega)]; simp

@[simp] theorem lo2_5 (x : BitVec 2) (y : BitVec 5) : (x ++ y).extractLsb' 0 5 = y := by
  rw [cut_right _ _ (by omega)]; simp

@[simp] theorem hi1_6 (x : BitVec 1) (y : BitVec 6) : (x ++ y).extractLsb' 6 1 = x := by
  rw [cut_left _ _ (by omega)]; simp

@[simp] theorem lo1_6 (x : BitVec 1) (y : BitVec 6) : (x ++ y).extractLsb' 0 6 = y := by
  rw [cut_right _ _ (by omega)]; simp

@[simp] theorem hi6_1 (x : BitVec 6) (y : BitVec 1) : (x ++ y).extractLsb' 1 6 = x := by
  rw [cut_left _ _ (by omega)]; simp

@[simp] theorem lo6_1 (x : BitVec 6) (y : BitVec 1) : (x ++ y).extractLsb' 0 1 = y := by
  rw [cut_right _ _ (by omega)]; simp

@[simp] theorem hi1_4 (x : BitVec 1) (y : BitVec 4) : (x ++ y).extractLsb' 4 1 = x := by
  rw [cut_left _ _ (by omega)]; simp

@[simp] theorem lo1_4 (x : BitVec 1) (y : BitVec 4) : (x ++ y).extractLsb' 0 4 = y := by
  rw [cut_right _ _ (by omega)]; simp

@[simp] theorem hi7_4 (x : BitVec 7) (y : BitVec 4) : (x ++ y).extractLsb' 4 7 = x := by
  rw [cut_left _ _ (by omega)]; simp

@[simp] theorem lo7_4 (x : BitVec 7) (y : BitVec 4) : (x ++ y).extractLsb' 0 4 = y := by
  rw [cut_right _ _ (by omega)]; simp

@[simp] theorem hi1_3 (x : BitVec 1) (y : BitVec 3) : (x ++ y).extractLsb' 3 1 = x := by
  rw [cut_left _ _ (by omega)]; simp

@[simp] theorem lo1_3 (x : BitVec 1) (y : BitVec 3) : (x ++ y).extractLsb' 0 3 = y := by
  rw [cut_right _ _ (by omega)]; simp

@[simp] theorem hi2_1 (x : BitVec 2) (y : BitVec 1) : (x ++ y).extractLsb' 1 2 = x := by
  rw [cut_left _ _ (by omega)]; simp

@[simp] theorem lo2_1 (x : BitVec 2) (y : BitVec 1) : (x ++ y).extractLsb' 0 1 = y := by
  rw [cut_right _ _ (by omega)]; simp

/-! ### The opcode map -/

theorem sel02 (w : BitVec 32) (m : Option Modifier) (h : majorOf w = 2) : decodeFields w m = decMaj02 (unpackA w) m := by
  unfold decodeFields; rw [h]; rfl
theorem sel03 (w : BitVec 32) (m : Option Modifier) (h : majorOf w = 3) : decodeFields w m = decMaj03 (unpackA w) m := by
  unfold decodeFields; rw [h]; rfl
theorem sel04 (w : BitVec 32) (m : Option Modifier) (h : majorOf w = 4) : decodeFields w m = decMaj04 (unpackA w) m := by
  unfold decodeFields; rw [h]; rfl
theorem sel05 (w : BitVec 32) (m : Option Modifier) (h : majorOf w = 5) : decodeFields w m = decMaj05 (unpackA w) m := by
  unfold decodeFields; rw [h]; rfl
theorem sel06 (w : BitVec 32) (m : Option Modifier) (h : majorOf w = 6) : decodeFields w m = decMaj06 (unpackA w) m := by
  unfold decodeFields; rw [h]; rfl
theorem sel07 (w : BitVec 32) (m : Option Modifier) (h : majorOf w = 7) : decodeFields w m = decMaj07 (unpackA w) m := by
  unfold decodeFields; rw [h]; rfl
theorem sel08 (w : BitVec 32) (m : Option Modifier) (h : majorOf w = 8) : decodeFields w m = decMaj08 (unpackA w) m := by
  unfold decodeFields; rw [h]; rfl
theorem sel09 (w : BitVec 32) (m : Option Modifier) (h : majorOf w = 9) : decodeFields w m = decMaj09 (unpackA w) m := by
  unfold decodeFields; rw [h]; rfl
theorem sel0A (w : BitVec 32) (m : Option Modifier) (h : majorOf w = 10) : decodeFields w m = decMaj0A (unpackA w) m := by
  unfold decodeFields; rw [h]; rfl
theorem sel0B (w : BitVec 32) (m : Option Modifier) (h : majorOf w = 11) : decodeFields w m = decMaj0B (unpackA w) m := by
  unfold decodeFields; rw [h]; rfl
theorem sel0C (w : BitVec 32) (m : Option Modifier) (h : majorOf w = 12) : decodeFields w m = decMaj0C (unpackI w) m := by
  unfold decodeFields; rw [h]; rfl
theorem sel0D (w : BitVec 32) (m : Option Modifier) (h : majorOf w = 13) : decodeFields w m = decMaj0D (unpackI w) m := by
  unfold decodeFields; rw [h]; rfl
theorem sel0E (w : BitVec 32) (m : Option Modifier) (h : majorOf w = 14) : decodeFields w m = decMaj0E (unpackI w) m := by
  unfold decodeFields; rw [h]; rfl
theorem sel0F (w : BitVec 32) (m : Option Modifier) (h : majorOf w = 15) : decodeFields w m = decMaj0F (unpackI w) m := by
  unfold decodeFields; rw [h]; rfl
theorem sel10 (w : BitVec 32) (m : Option Modifier) (h : majorOf w = 16) : decodeFields w m = decMaj10 (unpackI w) m := by
  unfold decodeFields; rw [h]; rfl
theorem sel11 (w : BitVec 32) (m : Option Modifier) (h : majorOf w = 17) : decodeFields w m = decMaj11 (unpackI w) m := by
  unfold decodeFields; rw [h]; rfl
theorem sel12 (w : BitVec 32) (m : Option Modifier) (h : majorOf w = 18) : decodeFields w m = decMaj12 (unpackW w) m := by
  unfold decodeFields; rw [h]; rfl
theorem sel13 (w : BitVec 32) (m : Option Modifier) (h : majorOf w = 19) : decodeFields w m = decMaj13 (unpackA w) m := by
  unfold decodeFields; rw [h]; rfl
theorem sel14 (w : BitVec 32) (m : Option Modifier) (h : majorOf w = 20) : decodeFields w m = decMaj14 (unpackA w) m := by
  unfold decodeFields; rw [h]; rfl
theorem sel15 (w : BitVec 32) (m : Option Modifier) (h : majorOf w = 21) : decodeFields w m = decMaj15 (unpackA w) m := by
  unfold decodeFields; rw [h]; rfl
theorem sel16 (w : BitVec 32) (m : Option Modifier) (h : majorOf w = 22) : decodeFields w m = decMaj16 (unpackA w) m := by
  unfold decodeFields; rw [h]; rfl
theorem sel17 (w : BitVec 32) (m : Option Modifier) (h : majorOf w = 23) : decodeFields w m = decMaj17 (unpackE w) m := by
  unfold decodeFields; rw [h]; rfl
theorem sel18 (w : BitVec 32) (m : Option Modifier) (h : majorOf w = 24) : decodeFields w m = decMaj18 (unpackA w) m := by
  unfold decodeFields; rw [h]; rfl
theorem sel19 (w : BitVec 32) (m : Option Modifier) (h : majorOf w = 25) : decodeFields w m = decMaj19 (unpackC w) m := by
  unfold decodeFields; rw [h]; rfl
theorem sel1A (w : BitVec 32) (m : Option Modifier) (h : majorOf w = 26) : decodeFields w m = decMaj1A (unpackC w) m := by
  unfold decodeFields; rw [h]; rfl
theorem sel1B (w : BitVec 32) (m : Option Modifier) (h : majorOf w = 27) : decodeFields w m = decMaj1B (unpackE w) m := by
  unfold decodeFields; rw [h]; rfl
theorem sel1C (w : BitVec 32) (m : Option Modifier) (h : majorOf w = 28) : decodeFields w m = decMaj1C (unpackE w) m := by
  unfold decodeFields; rw [h]; rfl
theorem sel1D (w : BitVec 32) (m : Option Modifier) (h : majorOf w = 29) : decodeFields w m = decMaj1D (unpackE w) m := by
  unfold decodeFields; rw [h]; rfl
theorem sel1E (w : BitVec 32) (m : Option Modifier) (h : majorOf w = 30) : decodeFields w m = decMaj1E (unpackA w) m := by
  unfold decodeFields; rw [h]; rfl
theorem sel1F (w : BitVec 32) (m : Option Modifier) (h : majorOf w = 31) : decodeFields w m = decMaj1F (unpackA w) m := by
  unfold decodeFields; rw [h]; rfl
theorem sel20 (w : BitVec 32) (m : Option Modifier) (h : majorOf w = 32) : decodeFields w m = decMaj20 (unpackE w) m := by
  unfold decodeFields; rw [h]; rfl
theorem sel21 (w : BitVec 32) (m : Option Modifier) (h : majorOf w = 33) : decodeFields w m = decMaj21 (unpackE w) m := by
  unfold decodeFields; rw [h]; rfl
theorem sel22 (w : BitVec 32) (m : Option Modifier) (h : majorOf w = 34) : decodeFields w m = decMaj22 (unpackE w) m := by
  unfold decodeFields; rw [h]; rfl
theorem sel24 (w : BitVec 32) (h : majorOf w = 36) : decodeFields w none = decMaj24 (unpackB w) := by
  unfold decodeFields; rw [h]; rfl
theorem sel25 (w : BitVec 32) (h : majorOf w = 37) : decodeFields w none = decMaj25 (unpackB w) := by
  unfold decodeFields; rw [h]; rfl
theorem sel26 (w : BitVec 32) (h : majorOf w = 38) : decodeFields w none = decMaj26 (unpackB w) := by
  unfold decodeFields; rw [h]; rfl
theorem sel27 (w : BitVec 32) (h : majorOf w = 39) : decodeFields w none = decMaj27 (unpackA w) := by
  unfold decodeFields; rw [h]; rfl
theorem sel28 (w : BitVec 32) (h : majorOf w = 40) : decodeFields w none = decMaj28 (unpackB w) := by
  unfold decodeFields; rw [h]; rfl
theorem sel29 (w : BitVec 32) (h : majorOf w = 41) : decodeFields w none = decMaj29 (unpackB w) := by
  unfold decodeFields; rw [h]; rfl
theorem sel2A (w : BitVec 32) (m : Option Modifier) (h : majorOf w = 42) : decodeFields w m = decMaj2A (unpackE w) m := by
  unfold decodeFields; rw [h]; rfl
theorem sel2C (w : BitVec 32) (m : Option Modifier) (h : majorOf w = 44) : decodeFields w m = decMaj2C (unpackM w) m := by
  unfold decodeFields; rw [h]; rfl
theorem sel2D (w : BitVec 32) (m : Option Modifier) (h : majorOf w = 45) : decodeFields w m = decMaj2D (unpackM w) m := by
  unfold decodeFields; rw [h]; rfl
theorem sel2E (w : BitVec 32) (m : Option Modifier) (h : majorOf w = 46) : decodeFields w m = decMaj2E (unpackA w) m := by
  unfold decodeFields; rw [h]; rfl
theorem sel2F (w : BitVec 32) (m : Option Modifier) (h : majorOf w = 47) : decodeFields w m = decMaj2F (unpackT w) m := by
  unfold decodeFields; rw [h]; rfl
theorem sel30 (w : BitVec 32) (m : Option Modifier) (h : majorOf w = 48) : decodeFields w m = decMaj30 (unpackE w) m := by
  unfold decodeFields; rw [h]; rfl
theorem sel31 (w : BitVec 32) (m : Option Modifier) (h : majorOf w = 49) : decodeFields w m = decMaj31 (unpackN w) m := by
  unfold decodeFields; rw [h]; rfl
theorem sel32 (w : BitVec 32) (m : Option Modifier) (h : majorOf w = 50) : decodeFields w m = decMaj32 (unpackE w) m := by
  unfold decodeFields; rw [h]; rfl
theorem sel33 (w : BitVec 32) (m : Option Modifier) (h : majorOf w = 51) : decodeFields w m = decMaj33 (unpackE w) m := by
  unfold decodeFields; rw [h]; rfl
theorem sel34 (w : BitVec 32) (m : Option Modifier) (h : majorOf w = 52) : decodeFields w m = decMaj34 (unpackE w) m := by
  unfold decodeFields; rw [h]; rfl
theorem sel35 (w : BitVec 32) (m : Option Modifier) (h : majorOf w = 53) : decodeFields w m = decMaj35 (unpackE w) m := by
  unfold decodeFields; rw [h]; rfl
theorem sel36 (w : BitVec 32) (m : Option Modifier) (h : majorOf w = 54) : decodeFields w m = decMaj36 (unpackE w) m := by
  unfold decodeFields; rw [h]; rfl
theorem sel37 (w : BitVec 32) (h : majorOf w = 55) : decodeFields w none = decMaj37 (unpackI w) := by
  unfold decodeFields; rw [h]; rfl
theorem sel38 (w : BitVec 32) (m : Option Modifier) (h : majorOf w = 56) : decodeFields w m = decMaj38 (unpackE w) m := by
  unfold decodeFields; rw [h]; rfl
theorem sel39 (w : BitVec 32) (m : Option Modifier) (h : majorOf w = 57) : decodeFields w m = decMaj39 (unpackE w) m := by
  unfold decodeFields; rw [h]; rfl
theorem sel3A (w : BitVec 32) (m : Option Modifier) (h : majorOf w = 58) : decodeFields w m = decMaj3A (unpackE w) m := by
  unfold decodeFields; rw [h]; rfl
theorem sel3B (w : BitVec 32) (m : Option Modifier) (h : majorOf w = 59) : decodeFields w m = decMaj3B (unpackE w) m := by
  unfold decodeFields; rw [h]; rfl
theorem sel3C (w : BitVec 32) (m : Option Modifier) (h : majorOf w = 60) : decodeFields w m = decMaj3C (unpackE w) m := by
  unfold decodeFields; rw [h]; rfl
theorem sel3D (w : BitVec 32) (m : Option Modifier) (h : majorOf w = 61) : decodeFields w m = decMaj3D (unpackE w) m := by
  unfold decodeFields; rw [h]; rfl
theorem sel3E (w : BitVec 32) (h : majorOf w = 62) : decodeFields w none = decMaj3E (unpackE w) := by
  unfold decodeFields; rw [h]; rfl

/-! ### Bytes and the modifier word -/

theorem wordOfBytes_bytesOfWord (w : BitVec 32) :
    wordOfBytes (w.extractLsb' 0 8) (w.extractLsb' 8 8) (w.extractLsb' 16 8) (w.extractLsb' 24 8) = w := by
  apply BitVec.eq_of_getLsbD_eq
  intro i hi
  simp only [wordOfBytes, BitVec.getLsbD_append, BitVec.getLsbD_extractLsb']
  by_cases h1 : i < 8
  · simp [h1]
  · by_cases h2 : i < 16
    · simp [h1, show i - 8 < 8 by omega, show 8 + (i - 8) = i by omega]
    · by_cases h3 : i < 24
      · simp [h1, show ¬ i - 8 < 8 by omega, show i - 8 - 8 < 8 by omega, show 16 + (i - 8 - 8) = i by omega]
      · simp [h1, show ¬ i - 8 < 8 by omega, show ¬ i - 8 - 8 < 8 by omega, show i - 8 - 8 - 8 < 8 by omega,
          show 24 + (i - 8 - 8 - 8) = i by omega]

theorem fieldsMod (rnd : BitVec 2) (scale : BitVec 5) (cC cB cA nC nB nA clamp sat ppol : Bool) (pred : BitVec 7) :
    let w := (0#2 ++ rnd ++ scale ++ BitVec.ofBool cC ++ BitVec.ofBool cB ++ BitVec.ofBool cA ++ BitVec.ofBool nC ++
      BitVec.ofBool nB ++ BitVec.ofBool nA ++ BitVec.ofBool clamp ++ BitVec.ofBool sat ++ BitVec.ofBool ppol ++ pred ++
      0x3F#6 ++ 1#1)
    w.getLsbD 0 = true ∧ w.extractLsb' 1 6 = 0x3F#6 ∧ w.extractLsb' 7 7 = pred ∧ w.getLsbD 14 = ppol ∧ w.getLsbD 15 = sat ∧
    w.getLsbD 16 = clamp ∧ w.getLsbD 17 = nA ∧ w.getLsbD 18 = nB ∧ w.getLsbD 19 = nC ∧ w.getLsbD 20 = cA ∧
    w.getLsbD 21 = cB ∧ w.getLsbD 22 = cC ∧ w.extractLsb' 23 5 = scale ∧ w.extractLsb' 28 2 = rnd ∧
    w.extractLsb' 30 2 = 0#2 := by
  intro w
  simp (disch := decide) only [w, cut_right, cut_left, bit_left, bit_right]
  simp

theorem packMod_spec (m : Modifier) : isModifier (packMod m) = true ∧ unpackMod (packMod m) = some m := by
  obtain ⟨h0, h1, h7, h14, h15, h16, h17, h18, h19, h20, h21, h22, h23, h28, h30⟩ := fieldsMod m.rnd.code m.scale m.absC
    m.absB m.absA m.negC m.negB m.negA m.clamp m.sat m.ppol m.pred
  constructor
  · show (_ && _ == _) = true
    unfold packMod majorOf
    rw [h0, h1]; rfl
  · unfold unpackMod packMod
    rw [h7, h14, h15, h16, h17, h18, h19, h20, h21, h22, h23, h28, h30]
    simp

end Sys2Proof
end

