-- ==== Sys2Proof/Laws/PerInstr.lean ====
section
/-! SUPPORT. The round trip of every instruction of the opcode table: the bytes that the encoder writes decode to the
instruction, and what follows them is left. -/

namespace Sys2Proof

/-! ### From words to bytes -/

/-- The word that a decoder would look at for a modifier word at the head of some bytes; missing bytes read as 0. -/
def headWord (l : List Byte) : BitVec 32 := wordOfBytes (l.getD 0 0) (l.getD 1 0) (l.getD 2 0) (l.getD 3 0)

namespace Laws.Roundtrip

/-- The round trip of one instruction: its bytes decode to it (to the first of the rows that share its word, which a
control word tells apart at issue), whatever follows; after a 32-bit word without modifier word none may follow. -/
def Statement (i : Instr) : Prop :=
  i.encoded = true → i.wf = true → ∀ rest,
    (i.half = none → i.modifier = none → isModifier (headWord rest) = false) →
    decodeBytes (encode i ++ rest) = .ok (i.firstRow, rest)

theorem ofWord {i : Instr} {w : BitVec 32} (hw : i.word = w) (hh : i.half = none) (low : w.getLsbD 0 = true)
    (maj : majorOf w ≠ 0x3F) (hd : decodeFields w i.modifier = some i.firstRow) (hf : i.wf = true → i.firstRow.wf = true) :
    Statement i := by
  intro he h rest hr
  have hm : isModifier w = false := by
    have : (majorOf w == 0x3F) = false := by simpa using maj
    unfold isModifier; rw [this, Bool.and_false]
  have wf := hf h
  unfold encode
  rw [hh]
  simp only [he, if_true, hw]
  cases hmod : i.modifier with
  | none =>
    rw [hmod] at hd
    have hr := hr hh hmod
    unfold headWord at hr
    simp only [bytesOfWord, List.append_nil, List.cons_append, List.nil_append, decodeBytes]
    simp only [List.getD_cons_zero, List.getD_cons_succ, wordOfBytes_bytesOfWord]
    unfold decode
    rw [hm, hr, hd, if_pos low]
    simp [wf]
  | some x =>
    rw [hmod] at hd
    obtain ⟨h1, h2⟩ := packMod_spec x
    simp only [bytesOfWord, List.cons_append, List.nil_append, decodeBytes]
    simp only [List.getD_cons_zero, List.getD_cons_succ, wordOfBytes_bytesOfWord]
    unfold decode
    rw [hm, h1, h2, if_pos low]
    simp [hd, wf]

theorem ofHalf {i : Instr} {h : BitVec 16} (hh : i.half = some h) (low : h.getLsbD 0 = false)
    (hd : decodeHalf h = some i.firstRow) : Statement i := by
  intro _ _ rest _
  unfold encode
  rw [hh]
  simp only [List.cons_append, List.nil_append, decodeBytes]
  have key : ∀ a b : Byte, (wordOfBytes (h.extractLsb' 0 8) (h.extractLsb' 8 8) a b).extractLsb' 0 16 = h := by
    intro a b
    apply BitVec.eq_of_getLsbD_eq
    intro k hk
    simp only [wordOfBytes, BitVec.getLsbD_extractLsb', BitVec.getLsbD_append]
    by_cases h1 : k < 8
    · simp [h1, hk]
    · simp [h1, hk, show k - 8 < 8 by omega, show 8 + (k - 8) = k by omega]
  have low' : ∀ a b : Byte, (wordOfBytes (h.extractLsb' 0 8) (h.extractLsb' 8 8) a b).getLsbD 0 = false := by
    intro a b
    rw [← low]
    unfold wordOfBytes
    rw [bit_right _ _ (by omega), BitVec.getLsbD_extractLsb']
    simp
  unfold decode
  rw [low', key]
  simp [hd]

theorem viaA {i : Instr} (r : RawA) (f : RawA → Option Instr) (hw : i.word = packA r) (hh : i.half = none)
    (maj : r.maj ≠ 0x3F) (sel : ∀ w, majorOf w = r.maj → decodeFields w i.modifier = f (unpackA w))
    (hd : f r = some i.firstRow) (hf : i.wf = true → i.firstRow.wf = true) : Statement i :=
  ofWord hw hh (low_packA r) (by rw [major_packA]; exact maj)
    (by rw [sel _ (major_packA r), unpackA_packA]; exact hd) hf

theorem viaE {i : Instr} (r : RawE) (f : RawE → Option Instr) (hw : i.word = packE r) (hh : i.half = none)
    (maj : r.maj ≠ 0x3F) (sel : ∀ w, majorOf w = r.maj → decodeFields w i.modifier = f (unpackE w))
    (hd : f r = some i.firstRow) (hf : i.wf = true → i.firstRow.wf = true) : Statement i :=
  ofWord hw hh (low_packE r) (by rw [major_packE]; exact maj)
    (by rw [sel _ (major_packE r), unpackE_packE]; exact hd) hf

theorem viaI {i : Instr} (r : RawI) (f : RawI → Option Instr) (hw : i.word = packI r) (hh : i.half = none)
    (maj : r.maj ≠ 0x3F) (sel : ∀ w, majorOf w = r.maj → decodeFields w i.modifier = f (unpackI w))
    (hd : f r = some i.firstRow) (hf : i.wf = true → i.firstRow.wf = true) : Statement i :=
  ofWord hw hh (low_packI r) (by rw [major_packI]; exact maj)
    (by rw [sel _ (major_packI r), unpackI_packI]; exact hd) hf

theorem viaW {i : Instr} (r : RawW) (f : RawW → Option Instr) (hw : i.word = packW r) (hh : i.half = none)
    (maj : r.maj ≠ 0x3F) (sel : ∀ w, majorOf w = r.maj → decodeFields w i.modifier = f (unpackW w))
    (hd : f r = some i.firstRow) (hf : i.wf = true → i.firstRow.wf = true) : Statement i :=
  ofWord hw hh (low_packW r) (by rw [major_packW]; exact maj)
    (by rw [sel _ (major_packW r), unpackW_packW]; exact hd) hf

theorem viaB {i : Instr} (r : RawB) (f : RawB → Option Instr) (hw : i.word = packB r) (hh : i.half = none)
    (maj : r.maj ≠ 0x3F) (sel : ∀ w, majorOf w = r.maj → decodeFields w i.modifier = f (unpackB w))
    (hd : f r = some i.firstRow) (hf : i.wf = true → i.firstRow.wf = true) : Statement i :=
  ofWord hw hh (low_packB r) (by rw [major_packB]; exact maj)
    (by rw [sel _ (major_packB r), unpackB_packB]; exact hd) hf

theorem viaM {i : Instr} (r : RawM) (f : RawM → Option Instr) (hw : i.word = packM r) (hh : i.half = none)
    (maj : r.maj ≠ 0x3F) (sel : ∀ w, majorOf w = r.maj → decodeFields w i.modifier = f (unpackM w))
    (hd : f r = some i.firstRow) (hf : i.wf = true → i.firstRow.wf = true) : Statement i :=
  ofWord hw hh (low_packM r) (by rw [major_packM]; exact maj)
    (by rw [sel _ (major_packM r), unpackM_packM]; exact hd) hf

theorem viaC {i : Instr} (r : RawC) (f : RawC → Option Instr) (hw : i.word = packC r) (hh : i.half = none)
    (maj : r.maj ≠ 0x3F) (sel : ∀ w, majorOf w = r.maj → decodeFields w i.modifier = f (unpackC w))
    (hd : f r = some i.firstRow) (hf : i.wf = true → i.firstRow.wf = true) : Statement i :=
  ofWord hw hh (low_packC r) (by rw [major_packC]; exact maj)
    (by rw [sel _ (major_packC r), unpackC_packC]; exact hd) hf

theorem viaT {i : Instr} (r : RawT) (f : RawT → Option Instr) (hw : i.word = packT r) (hh : i.half = none)
    (maj : r.maj ≠ 0x3F) (sel : ∀ w, majorOf w = r.maj → decodeFields w i.modifier = f (unpackT w))
    (hd : f r = some i.firstRow) (hf : i.wf = true → i.firstRow.wf = true) : Statement i :=
  ofWord hw hh (low_packT r) (by rw [major_packT]; exact maj)
    (by rw [sel _ (major_packT r), unpackT_packT]; exact hd) hf

theorem viaN {i : Instr} (r : RawN) (f : RawN → Option Instr) (hw : i.word = packN r) (hh : i.half = none)
    (maj : r.maj ≠ 0x3F) (sel : ∀ w, majorOf w = r.maj → decodeFields w i.modifier = f (unpackN w))
    (hd : f r = some i.firstRow) (hf : i.wf = true → i.firstRow.wf = true) : Statement i :=
  ofWord hw hh (low_packN r) (by rw [major_packN]; exact maj)
    (by rw [sel _ (major_packN r), unpackN_packN]; exact hd) hf

theorem packH_spec (x : OpH) (k : BitVec 4) : (packH x k).getLsbD 0 = false ∧ (packH x k).getLsbD 15 = false ∧
    (packH x k).extractLsb' 1 4 = k ∧ (packH x k).extractLsb' 5 5 = x.d ∧ (packH x k).extractLsb' 10 5 = x.s := by
  unfold packH
  generalize x.s = s
  generalize x.d = d
  have h : let w := (0#1 ++ s ++ d ++ k ++ 0#1)
      w.getLsbD 0 = false ∧ w.getLsbD 15 = false ∧ w.extractLsb' 1 4 = k ∧ w.extractLsb' 5 5 = d ∧ w.extractLsb' 10 5 = s := by
    intro w
    simp (disch := decide) only [w, cut_right, cut_left, bit_left, bit_right]
    simp
  exact h

theorem viaH {i : Instr} (x : OpH) (k : BitVec 4) (hh : i.half = some (packH x k))
    (hd : ∀ h : BitVec 16, h.getLsbD 15 = false → h.extractLsb' 1 4 = k → h.extractLsb' 5 5 = x.d → h.extractLsb' 10 5 = x.s →
      decodeHalf h = some i.firstRow) : Statement i := by
  obtain ⟨h0, h15, h1, h5, h10⟩ := packH_spec x k
  exact ofHalf hh h0 (hd _ h15 h1 h5 h10)

/-! ### One lemma per constructor -/

theorem mov16 (x : OpH) : Statement (.mov16 x) := viaH x 0 rfl fun h h15 h1 h5 h10 => by
  unfold decodeHalf; rw [h15, h1, h5, h10]; rfl
theorem add16 (x : OpH) : Statement (.add16 x) := viaH x 1 rfl fun h h15 h1 h5 h10 => by
  unfold decodeHalf; rw [h15, h1, h5, h10]; rfl
theorem sub16 (x : OpH) : Statement (.sub16 x) := viaH x 2 rfl fun h h15 h1 h5 h10 => by
  unfold decodeHalf; rw [h15, h1, h5, h10]; rfl
theorem and16 (x : OpH) : Statement (.and16 x) := viaH x 3 rfl fun h h15 h1 h5 h10 => by
  unfold decodeHalf; rw [h15, h1, h5, h10]; rfl
theorem or16 (x : OpH) : Statement (.or16 x) := viaH x 4 rfl fun h h15 h1 h5 h10 => by
  unfold decodeHalf; rw [h15, h1, h5, h10]; rfl
theorem xor16 (x : OpH) : Statement (.xor16 x) := viaH x 5 rfl fun h h15 h1 h5 h10 => by
  unfold decodeHalf; rw [h15, h1, h5, h10]; rfl
theorem shl16 (x : OpH) : Statement (.shl16 x) := viaH x 6 rfl fun h h15 h1 h5 h10 => by
  unfold decodeHalf; rw [h15, h1, h5, h10]; rfl
theorem shr16 (x : OpH) : Statement (.shr16 x) := viaH x 7 rfl fun h h15 h1 h5 h10 => by
  unfold decodeHalf; rw [h15, h1, h5, h10]; rfl
theorem addi5 (x : OpH) : Statement (.addi5 x) := viaH x 8 rfl fun h h15 h1 h5 h10 => by
  unfold decodeHalf; rw [h15, h1, h5, h10]; rfl
theorem movi5 (x : OpH) : Statement (.movi5 x) := viaH x 9 rfl fun h h15 h1 h5 h10 => by
  unfold decodeHalf; rw [h15, h1, h5, h10]; rfl
theorem fadd16 (x : OpH) : Statement (.fadd16 x) := viaH x 10 rfl fun h h15 h1 h5 h10 => by
  unfold decodeHalf; rw [h15, h1, h5, h10]; rfl
theorem fmul16 (x : OpH) : Statement (.fmul16 x) := viaH x 11 rfl fun h h15 h1 h5 h10 => by
  unfold decodeHalf; rw [h15, h1, h5, h10]; rfl
theorem fmax16 (x : OpH) : Statement (.fmax16 x) := viaH x 12 rfl fun h h15 h1 h5 h10 => by
  unfold decodeHalf; rw [h15, h1, h5, h10]; rfl
theorem fmin16 (x : OpH) : Statement (.fmin16 x) := viaH x 13 rfl fun h h15 h1 h5 h10 => by
  unfold decodeHalf; rw [h15, h1, h5, h10]; rfl
theorem imul16 (x : OpH) : Statement (.imul16 x) := viaH x 14 rfl fun h h15 h1 h5 h10 => by
  unfold decodeHalf; rw [h15, h1, h5, h10]; rfl
theorem nop : Statement .nop := ofHalf (h := 0x001E#16) rfl rfl rfl
theorem add (x : OpA) : Statement (.add x) :=
  viaA ⟨2, x.d, x.a, x.b, 0, x.t⟩ (decMaj02 · x.m) rfl rfl (show (2 : BitVec 6) ≠ 0x3F by decide) (fun w h => sel02 w _ h) rfl id
theorem sub (x : OpA) : Statement (.sub x) :=
  viaA ⟨2, x.d, x.a, x.b, 1, x.t⟩ (decMaj02 · x.m) rfl rfl (show (2 : BitVec 6) ≠ 0x3F by decide) (fun w h => sel02 w _ h) rfl id
theorem addc (x : OpA) : Statement (.addc x) :=
  viaA ⟨2, x.d, x.a, x.b, 2, x.t⟩ (decMaj02 · x.m) rfl rfl (show (2 : BitVec 6) ≠ 0x3F by decide) (fun w h => sel02 w _ h) rfl id
theorem subb (x : OpA) : Statement (.subb x) :=
  viaA ⟨2, x.d, x.a, x.b, 3, x.t⟩ (decMaj02 · x.m) rfl rfl (show (2 : BitVec 6) ≠ 0x3F by decide) (fun w h => sel02 w _ h) rfl id
theorem minS (x : OpA) : Statement (.minS x) :=
  viaA ⟨2, x.d, x.a, x.b, 4, x.t⟩ (decMaj02 · x.m) rfl rfl (show (2 : BitVec 6) ≠ 0x3F by decide) (fun w h => sel02 w _ h) rfl id
theorem maxS (x : OpA) : Statement (.maxS x) :=
  viaA ⟨2, x.d, x.a, x.b, 5, x.t⟩ (decMaj02 · x.m) rfl rfl (show (2 : BitVec 6) ≠ 0x3F by decide) (fun w h => sel02 w _ h) rfl id
theorem minU (x : OpA) : Statement (.minU x) :=
  viaA ⟨2, x.d, x.a, x.b, 6, x.t⟩ (decMaj02 · x.m) rfl rfl (show (2 : BitVec 6) ≠ 0x3F by decide) (fun w h => sel02 w _ h) rfl id
theorem maxU (x : OpA) : Statement (.maxU x) :=
  viaA ⟨2, x.d, x.a, x.b, 7, x.t⟩ (decMaj02 · x.m) rfl rfl (show (2 : BitVec 6) ≠ 0x3F by decide) (fun w h => sel02 w _ h) rfl id
theorem and (x : OpA) : Statement (.and x) :=
  viaA ⟨3, x.d, x.a, x.b, 0, x.t⟩ (decMaj03 · x.m) rfl rfl (show (3 : BitVec 6) ≠ 0x3F by decide) (fun w h => sel03 w _ h) rfl id
theorem or (x : OpA) : Statement (.or x) :=
  viaA ⟨3, x.d, x.a, x.b, 1, x.t⟩ (decMaj03 · x.m) rfl rfl (show (3 : BitVec 6) ≠ 0x3F by decide) (fun w h => sel03 w _ h) rfl id
theorem xor (x : OpA) : Statement (.xor x) :=
  viaA ⟨3, x.d, x.a, x.b, 2, x.t⟩ (decMaj03 · x.m) rfl rfl (show (3 : BitVec 6) ≠ 0x3F by decide) (fun w h => sel03 w _ h) rfl id
theorem andn (x : OpA) : Statement (.andn x) :=
  viaA ⟨3, x.d, x.a, x.b, 3, x.t⟩ (decMaj03 · x.m) rfl rfl (show (3 : BitVec 6) ≠ 0x3F by decide) (fun w h => sel03 w _ h) rfl id
theorem orn (x : OpA) : Statement (.orn x) :=
  viaA ⟨3, x.d, x.a, x.b, 4, x.t⟩ (decMaj03 · x.m) rfl rfl (show (3 : BitVec 6) ≠ 0x3F by decide) (fun w h => sel03 w _ h) rfl id
theorem xnor (x : OpA) : Statement (.xnor x) :=
  viaA ⟨3, x.d, x.a, x.b, 5, x.t⟩ (decMaj03 · x.m) rfl rfl (show (3 : BitVec 6) ≠ 0x3F by decide) (fun w h => sel03 w _ h) rfl id
theorem sel (x : OpA) : Statement (.sel x) :=
  viaA ⟨3, x.d, x.a, x.b, 6, x.t⟩ (decMaj03 · x.m) rfl rfl (show (3 : BitVec 6) ≠ 0x3F by decide) (fun w h => sel03 w _ h) rfl id
theorem bswz (x : OpA) : Statement (.bswz x) :=
  viaA ⟨3, x.d, x.a, x.b, 7, x.t⟩ (decMaj03 · x.m) rfl rfl (show (3 : BitVec 6) ≠ 0x3F by decide) (fun w h => sel03 w _ h) rfl id
theorem shl (x : OpA) : Statement (.shl x) :=
  viaA ⟨4, x.d, x.a, x.b, 0, x.t⟩ (decMaj04 · x.m) rfl rfl (show (4 : BitVec 6) ≠ 0x3F by decide) (fun w h => sel04 w _ h) rfl id
theorem shr (x : OpA) : Statement (.shr x) :=
  viaA ⟨4, x.d, x.a, x.b, 1, x.t⟩ (decMaj04 · x.m) rfl rfl (show (4 : BitVec 6) ≠ 0x3F by decide) (fun w h => sel04 w _ h) rfl id
theorem sar (x : OpA) : Statement (.sar x) :=
  viaA ⟨4, x.d, x.a, x.b, 2, x.t⟩ (decMaj04 · x.m) rfl rfl (show (4 : BitVec 6) ≠ 0x3F by decide) (fun w h => sel04 w _ h) rfl id
theorem rol (x : OpA) : Statement (.rol x) :=
  viaA ⟨4, x.d, x.a, x.b, 3, x.t⟩ (decMaj04 · x.m) rfl rfl (show (4 : BitVec 6) ≠ 0x3F by decide) (fun w h => sel04 w _ h) rfl id
theorem shl64 (x : OpA) : Statement (.shl64 x) :=
  viaA ⟨4, x.d, x.a, x.b, 4, x.t⟩ (decMaj04 · x.m) rfl rfl (show (4 : BitVec 6) ≠ 0x3F by decide) (fun w h => sel04 w _ h) rfl id
theorem shr64 (x : OpA) : Statement (.shr64 x) :=
  viaA ⟨4, x.d, x.a, x.b, 5, x.t⟩ (decMaj04 · x.m) rfl rfl (show (4 : BitVec 6) ≠ 0x3F by decide) (fun w h => sel04 w _ h) rfl id
theorem sar64 (x : OpA) : Statement (.sar64 x) :=
  viaA ⟨4, x.d, x.a, x.b, 6, x.t⟩ (decMaj04 · x.m) rfl rfl (show (4 : BitVec 6) ≠ 0x3F by decide) (fun w h => sel04 w _ h) rfl id
theorem fshf (x : OpA) : Statement (.fshf x) :=
  viaA ⟨4, x.d, x.a, x.b, 7, x.t⟩ (decMaj04 · x.m) rfl rfl (show (4 : BitVec 6) ≠ 0x3F by decide) (fun w h => sel04 w _ h) rfl id
theorem mulLo (x : OpA) : Statement (.mulLo x) :=
  viaA ⟨5, x.d, x.a, x.b, 0, x.t⟩ (decMaj05 · x.m) rfl rfl (show (5 : BitVec 6) ≠ 0x3F by decide) (fun w h => sel05 w _ h) rfl id
theorem mulHiS (x : OpA) : Statement (.mulHiS x) :=
  viaA ⟨5, x.d, x.a, x.b, 1, x.t⟩ (decMaj05 · x.m) rfl rfl (show (5 : BitVec 6) ≠ 0x3F by decide) (fun w h => sel05 w _ h) rfl id
theorem mulHiU (x : OpA) : Statement (.mulHiU x) :=
  viaA ⟨5, x.d, x.a, x.b, 2, x.t⟩ (decMaj05 · x.m) rfl rfl (show (5 : BitVec 6) ≠ 0x3F by decide) (fun w h => sel05 w _ h) rfl id
theorem madLo (x : OpA) : Statement (.madLo x) :=
  viaA ⟨5, x.d, x.a, x.b, 3, x.t⟩ (decMaj05 · x.m) rfl rfl (show (5 : BitVec 6) ≠ 0x3F by decide) (fun w h => sel05 w _ h) rfl id
theorem madHiS (x : OpA) : Statement (.madHiS x) :=
  viaA ⟨5, x.d, x.a, x.b, 4, x.t⟩ (decMaj05 · x.m) rfl rfl (show (5 : BitVec 6) ≠ 0x3F by decide) (fun w h => sel05 w _ h) rfl id
theorem madHiU (x : OpA) : Statement (.madHiU x) :=
  viaA ⟨5, x.d, x.a, x.b, 5, x.t⟩ (decMaj05 · x.m) rfl rfl (show (5 : BitVec 6) ≠ 0x3F by decide) (fun w h => sel05 w _ h) rfl id
theorem mulWideS (x : OpA) : Statement (.mulWideS x) :=
  viaA ⟨5, x.d, x.a, x.b, 6, x.t⟩ (decMaj05 · x.m) rfl rfl (show (5 : BitVec 6) ≠ 0x3F by decide) (fun w h => sel05 w _ h) rfl id
theorem mulWideU (x : OpA) : Statement (.mulWideU x) :=
  viaA ⟨5, x.d, x.a, x.b, 7, x.t⟩ (decMaj05 · x.m) rfl rfl (show (5 : BitVec 6) ≠ 0x3F by decide) (fun w h => sel05 w _ h) rfl id
theorem popc (x : OpA2) : Statement (.popc x) :=
  viaA ⟨6, x.d, x.a, 0, 0, x.t⟩ (decMaj06 · x.m) rfl rfl (show (6 : BitVec 6) ≠ 0x3F by decide) (fun w h => sel06 w _ h) rfl id
theorem clz (x : OpA2) : Statement (.clz x) :=
  viaA ⟨6, x.d, x.a, 0, 1, x.t⟩ (decMaj06 · x.m) rfl rfl (show (6 : BitVec 6) ≠ 0x3F by decide) (fun w h => sel06 w _ h) rfl id
theorem ctz (x : OpA2) : Statement (.ctz x) :=
  viaA ⟨6, x.d, x.a, 0, 2, x.t⟩ (decMaj06 · x.m) rfl rfl (show (6 : BitVec 6) ≠ 0x3F by decide) (fun w h => sel06 w _ h) rfl id
theorem brev (x : OpA2) : Statement (.brev x) :=
  viaA ⟨6, x.d, x.a, 0, 3, x.t⟩ (decMaj06 · x.m) rfl rfl (show (6 : BitVec 6) ≠ 0x3F by decide) (fun w h => sel06 w _ h) rfl id
theorem bfxU (x : OpA) : Statement (.bfxU x) :=
  viaA ⟨6, x.d, x.a, x.b, 4, x.t⟩ (decMaj06 · x.m) rfl rfl (show (6 : BitVec 6) ≠ 0x3F by decide) (fun w h => sel06 w _ h) rfl id
theorem bfxS (x : OpA) : Statement (.bfxS x) :=
  viaA ⟨6, x.d, x.a, x.b, 5, x.t⟩ (decMaj06 · x.m) rfl rfl (show (6 : BitVec 6) ≠ 0x3F by decide) (fun w h => sel06 w _ h) rfl id
theorem bfi (x : OpA) : Statement (.bfi x) :=
  viaA ⟨6, x.d, x.a, x.b, 6, x.t⟩ (decMaj06 · x.m) rfl rfl (show (6 : BitVec 6) ≠ 0x3F by decide) (fun w h => sel06 w _ h) rfl id
theorem iabs (x : OpA2) : Statement (.iabs x) :=
  viaA ⟨6, x.d, x.a, 0, 7, x.t⟩ (decMaj06 · x.m) rfl rfl (show (6 : BitVec 6) ≠ 0x3F by decide) (fun w h => sel06 w _ h) rfl id
theorem icmp (x : OpIcmp) : Statement (.icmp x) :=
  viaA ⟨7, x.d, x.a, x.b, x.c.code, x.t⟩ (decMaj07 · x.m) rfl rfl (show (7 : BitVec 6) ≠ 0x3F by decide) (fun w h => sel07 w _ h) (by simp [decMaj07, Instr.firstRow]) id
theorem dadd (x : OpDigT) : Statement (.dadd x) :=
  viaA ⟨8, x.d, x.a, x.b, x.y.code, x.t⟩ (decMaj08 · x.m) rfl rfl (show (8 : BitVec 6) ≠ 0x3F by decide) (fun w h => sel08 w _ h) (by simp [decMaj08, Instr.firstRow]) id
theorem dsub (x : OpDigT) : Statement (.dsub x) :=
  viaA ⟨9, x.d, x.a, x.b, x.y.code, x.t⟩ (decMaj09 · x.m) rfl rfl (show (9 : BitVec 6) ≠ 0x3F by decide) (fun w h => sel09 w _ h) (by simp [decMaj09, Instr.firstRow]) id
theorem dmul (x : OpDig) : Statement (.dmul x) :=
  viaA ⟨10, x.d, x.a, x.b, x.y.code, false⟩ (decMaj0A · x.m) rfl rfl (show (10 : BitVec 6) ≠ 0x3F by decide) (fun w h => sel0A w _ h) (by simp [decMaj0A, Instr.firstRow]) id
theorem dmad (x : OpDig) : Statement (.dmad x) :=
  viaA ⟨10, x.d, x.a, x.b, x.y.code, true⟩ (decMaj0A · x.m) rfl rfl (show (10 : BitVec 6) ≠ 0x3F by decide) (fun w h => sel0A w _ h) (by simp [decMaj0A, Instr.firstRow]) id
theorem dmin (x : OpDig) : Statement (.dmin x) :=
  viaA ⟨11, x.d, x.a, x.b, x.y.code, false⟩ (decMaj0B · x.m) rfl rfl (show (11 : BitVec 6) ≠ 0x3F by decide) (fun w h => sel0B w _ h) (by simp [decMaj0B, Instr.firstRow]) id
theorem dmax (x : OpDig) : Statement (.dmax x) :=
  viaA ⟨11, x.d, x.a, x.b, x.y.code, true⟩ (decMaj0B · x.m) rfl rfl (show (11 : BitVec 6) ≠ 0x3F by decide) (fun w h => sel0B w _ h) (by simp [decMaj0B, Instr.firstRow]) id
theorem addi (x : OpI) : Statement (.addi x) :=
  viaI ⟨12, x.d, x.a, x.i⟩ (decMaj0C · x.m) rfl rfl (show (12 : BitVec 6) ≠ 0x3F by decide) (fun w h => sel0C w _ h) rfl id
theorem andi (x : OpI) : Statement (.andi x) :=
  viaI ⟨13, x.d, x.a, x.i⟩ (decMaj0D · x.m) rfl rfl (show (13 : BitVec 6) ≠ 0x3F by decide) (fun w h => sel0D w _ h) rfl id
theorem ori (x : OpI) : Statement (.ori x) :=
  viaI ⟨14, x.d, x.a, x.i⟩ (decMaj0E · x.m) rfl rfl (show (14 : BitVec 6) ≠ 0x3F by decide) (fun w h => sel0E w _ h) rfl id
theorem xori (x : OpI) : Statement (.xori x) :=
  viaI ⟨15, x.d, x.a, x.i⟩ (decMaj0F · x.m) rfl rfl (show (15 : BitVec 6) ≠ 0x3F by decide) (fun w h => sel0F w _ h) rfl id
theorem shli (x : OpISh) : Statement (.shli x) :=
  viaI ⟨16, x.d, x.a, (0#6 ++ x.n)⟩ (decMaj10 · x.m) rfl rfl (show (16 : BitVec 6) ≠ 0x3F by decide) (fun w h => sel10 w _ h) (by simp [decMaj10, Instr.firstRow]) id
theorem shri (x : OpISh) : Statement (.shri x) :=
  viaI ⟨16, x.d, x.a, (1#6 ++ x.n)⟩ (decMaj10 · x.m) rfl rfl (show (16 : BitVec 6) ≠ 0x3F by decide) (fun w h => sel10 w _ h) (by simp [decMaj10, Instr.firstRow]) id
theorem sari (x : OpISh) : Statement (.sari x) :=
  viaI ⟨16, x.d, x.a, (2#6 ++ x.n)⟩ (decMaj10 · x.m) rfl rfl (show (16 : BitVec 6) ≠ 0x3F by decide) (fun w h => sel10 w _ h) (by simp [decMaj10, Instr.firstRow]) id
theorem cmpi (x : OpCmpi) : Statement (.cmpi x) :=
  viaI ⟨17, x.d, x.a, (x.c.code ++ x.i)⟩ (decMaj11 · x.m) rfl rfl (show (17 : BitVec 6) ≠ 0x3F by decide) (fun w h => sel11 w _ h) (by simp [decMaj11, Instr.firstRow]) id
theorem movw (x : OpW) : Statement (.movw x) :=
  viaW ⟨18, x.d, x.i, 0⟩ (decMaj12 · x.m) rfl rfl (show (18 : BitVec 6) ≠ 0x3F by decide) (fun w h => sel12 w _ h) rfl id
theorem movt (x : OpW) : Statement (.movt x) :=
  viaW ⟨18, x.d, x.i, 1⟩ (decMaj12 · x.m) rfl rfl (show (18 : BitVec 6) ≠ 0x3F by decide) (fun w h => sel12 w _ h) rfl id
theorem movs (x : OpW) : Statement (.movs x) :=
  viaW ⟨18, x.d, x.i, 2⟩ (decMaj12 · x.m) rfl rfl (show (18 : BitVec 6) ≠ 0x3F by decide) (fun w h => sel12 w _ h) rfl id
theorem lea (x : OpLea) : Statement (.lea x) :=
  viaA ⟨19, x.d, x.a, x.b, (0#1 ++ x.h), x.t⟩ (decMaj13 · x.m) rfl rfl (show (19 : BitVec 6) ≠ 0x3F by decide) (fun w h => sel13 w _ h) (by simp [decMaj13, Instr.firstRow]) id
theorem faddF32 (x : OpA) : Statement (.faddF32 x) :=
  viaA ⟨20, x.d, x.a, x.b, 0, x.t⟩ (decMaj14 · x.m) rfl rfl (show (20 : BitVec 6) ≠ 0x3F by decide) (fun w h => sel14 w _ h) rfl id
theorem fsubF32 (x : OpA) : Statement (.fsubF32 x) :=
  viaA ⟨20, x.d, x.a, x.b, 1, x.t⟩ (decMaj14 · x.m) rfl rfl (show (20 : BitVec 6) ≠ 0x3F by decide) (fun w h => sel14 w _ h) rfl id
theorem fmulF32 (x : OpA) : Statement (.fmulF32 x) :=
  viaA ⟨20, x.d, x.a, x.b, 2, x.t⟩ (decMaj14 · x.m) rfl rfl (show (20 : BitVec 6) ≠ 0x3F by decide) (fun w h => sel14 w _ h) rfl id
theorem ffmaF32 (x : OpA) : Statement (.ffmaF32 x) :=
  viaA ⟨20, x.d, x.a, x.b, 3, x.t⟩ (decMaj14 · x.m) rfl rfl (show (20 : BitVec 6) ≠ 0x3F by decide) (fun w h => sel14 w _ h) rfl id
theorem fminF32 (x : OpA) : Statement (.fminF32 x) :=
  viaA ⟨20, x.d, x.a, x.b, 4, x.t⟩ (decMaj14 · x.m) rfl rfl (show (20 : BitVec 6) ≠ 0x3F by decide) (fun w h => sel14 w _ h) rfl id
theorem fmaxF32 (x : OpA) : Statement (.fmaxF32 x) :=
  viaA ⟨20, x.d, x.a, x.b, 5, x.t⟩ (decMaj14 · x.m) rfl rfl (show (20 : BitVec 6) ≠ 0x3F by decide) (fun w h => sel14 w _ h) rfl id
theorem fcpysF32 (x : OpA) : Statement (.fcpysF32 x) :=
  viaA ⟨20, x.d, x.a, x.b, 6, x.t⟩ (decMaj14 · x.m) rfl rfl (show (20 : BitVec 6) ≠ 0x3F by decide) (fun w h => sel14 w _ h) rfl id
theorem faddF16x2 (x : OpA) : Statement (.faddF16x2 x) :=
  viaA ⟨21, x.d, x.a, x.b, 0, x.t⟩ (decMaj15 · x.m) rfl rfl (show (21 : BitVec 6) ≠ 0x3F by decide) (fun w h => sel15 w _ h) rfl id
theorem fsubF16x2 (x : OpA) : Statement (.fsubF16x2 x) :=
  viaA ⟨21, x.d, x.a, x.b, 1, x.t⟩ (decMaj15 · x.m) rfl rfl (show (21 : BitVec 6) ≠ 0x3F by decide) (fun w h => sel15 w _ h) rfl id
theorem fmulF16x2 (x : OpA) : Statement (.fmulF16x2 x) :=
  viaA ⟨21, x.d, x.a, x.b, 2, x.t⟩ (decMaj15 · x.m) rfl rfl (show (21 : BitVec 6) ≠ 0x3F by decide) (fun w h => sel15 w _ h) rfl id
theorem ffmaF16x2 (x : OpA) : Statement (.ffmaF16x2 x) :=
  viaA ⟨21, x.d, x.a, x.b, 3, x.t⟩ (decMaj15 · x.m) rfl rfl (show (21 : BitVec 6) ≠ 0x3F by decide) (fun w h => sel15 w _ h) rfl id
theorem fminF16x2 (x : OpA) : Statement (.fminF16x2 x) :=
  viaA ⟨21, x.d, x.a, x.b, 4, x.t⟩ (decMaj15 · x.m) rfl rfl (show (21 : BitVec 6) ≠ 0x3F by decide) (fun w h => sel15 w _ h) rfl id
theorem fmaxF16x2 (x : OpA) : Statement (.fmaxF16x2 x) :=
  viaA ⟨21, x.d, x.a, x.b, 5, x.t⟩ (decMaj15 · x.m) rfl rfl (show (21 : BitVec 6) ≠ 0x3F by decide) (fun w h => sel15 w _ h) rfl id
theorem fcpysF16x2 (x : OpA) : Statement (.fcpysF16x2 x) :=
  viaA ⟨21, x.d, x.a, x.b, 6, x.t⟩ (decMaj15 · x.m) rfl rfl (show (21 : BitVec 6) ≠ 0x3F by decide) (fun w h => sel15 w _ h) rfl id
theorem faddBf16x2 (x : OpA) : Statement (.faddBf16x2 x) :=
  viaA ⟨22, x.d, x.a, x.b, 0, x.t⟩ (decMaj16 · x.m) rfl rfl (show (22 : BitVec 6) ≠ 0x3F by decide) (fun w h => sel16 w _ h) rfl id
theorem fsubBf16x2 (x : OpA) : Statement (.fsubBf16x2 x) :=
  viaA ⟨22, x.d, x.a, x.b, 1, x.t⟩ (decMaj16 · x.m) rfl rfl (show (22 : BitVec 6) ≠ 0x3F by decide) (fun w h => sel16 w _ h) rfl id
theorem fmulBf16x2 (x : OpA) : Statement (.fmulBf16x2 x) :=
  viaA ⟨22, x.d, x.a, x.b, 2, x.t⟩ (decMaj16 · x.m) rfl rfl (show (22 : BitVec 6) ≠ 0x3F by decide) (fun w h => sel16 w _ h) rfl id
theorem ffmaBf16x2 (x : OpA) : Statement (.ffmaBf16x2 x) :=
  viaA ⟨22, x.d, x.a, x.b, 3, x.t⟩ (decMaj16 · x.m) rfl rfl (show (22 : BitVec 6) ≠ 0x3F by decide) (fun w h => sel16 w _ h) rfl id
theorem fminBf16x2 (x : OpA) : Statement (.fminBf16x2 x) :=
  viaA ⟨22, x.d, x.a, x.b, 4, x.t⟩ (decMaj16 · x.m) rfl rfl (show (22 : BitVec 6) ≠ 0x3F by decide) (fun w h => sel16 w _ h) rfl id
theorem fmaxBf16x2 (x : OpA) : Statement (.fmaxBf16x2 x) :=
  viaA ⟨22, x.d, x.a, x.b, 5, x.t⟩ (decMaj16 · x.m) rfl rfl (show (22 : BitVec 6) ≠ 0x3F by decide) (fun w h => sel16 w _ h) rfl id
theorem fcpysBf16x2 (x : OpA) : Statement (.fcpysBf16x2 x) :=
  viaA ⟨22, x.d, x.a, x.b, 6, x.t⟩ (decMaj16 · x.m) rfl rfl (show (22 : BitVec 6) ≠ 0x3F by decide) (fun w h => sel16 w _ h) rfl id
theorem fcmp (x : OpFcmp) : Statement (.fcmp x) :=
  viaE ⟨23, x.d, x.a, x.b, subOfFcmp x.y x.c⟩ (decMaj17 · x.m) rfl rfl (show (23 : BitVec 6) ≠ 0x3F by decide) (fun w h => sel17 w _ h) (by
    simp only [decMaj17, subOfFcmp_ne, if_false, fcmpOfSub_subOfFcmp]
    rfl) id
theorem fclass (x : OpTy) : Statement (.fclass x) :=
  viaE ⟨23, x.d, x.a, 0#4 ++ 0#1 ++ x.y.code, 15⟩ (decMaj17 · x.m) rfl rfl (show (23 : BitVec 6) ≠ 0x3F by decide) (fun w h => sel17 w _ h) (by
    simp only [decMaj17]
    simp (disch := decide) only [cut_left, cut_right, bit_left, bit_right]
    simp [Instr.firstRow]) id
theorem abst (x : OpTy) : Statement (.abst x) :=
  viaE ⟨23, x.d, x.a, 0#4 ++ 1#1 ++ x.y.code, 15⟩ (decMaj17 · x.m) rfl rfl (show (23 : BitVec 6) ≠ 0x3F by decide) (fun w h => sel17 w _ h) (by
    simp only [decMaj17]
    simp (disch := decide) only [cut_left, cut_right, bit_left, bit_right]
    simp [Instr.firstRow]) id
theorem frcp (x : OpTyT) : Statement (.frcp x) :=
  viaA ⟨24, x.d, x.a, (0#5 ++ x.y.code), 0, x.t⟩ (decMaj18 · x.m) rfl rfl (show (24 : BitVec 6) ≠ 0x3F by decide) (fun w h => sel18 w _ h) (by simp [decMaj18, Instr.firstRow]) id
theorem frsq (x : OpTyT) : Statement (.frsq x) :=
  viaA ⟨24, x.d, x.a, (0#5 ++ x.y.code), 1, x.t⟩ (decMaj18 · x.m) rfl rfl (show (24 : BitVec 6) ≠ 0x3F by decide) (fun w h => sel18 w _ h) (by simp [decMaj18, Instr.firstRow]) id
theorem fsqrt (x : OpTyT) : Statement (.fsqrt x) :=
  viaA ⟨24, x.d, x.a, (0#5 ++ x.y.code), 2, x.t⟩ (decMaj18 · x.m) rfl rfl (show (24 : BitVec 6) ≠ 0x3F by decide) (fun w h => sel18 w _ h) (by simp [decMaj18, Instr.firstRow]) id
theorem fexp2 (x : OpTyT) : Statement (.fexp2 x) :=
  viaA ⟨24, x.d, x.a, (0#5 ++ x.y.code), 3, x.t⟩ (decMaj18 · x.m) rfl rfl (show (24 : BitVec 6) ≠ 0x3F by decide) (fun w h => sel18 w _ h) (by simp [decMaj18, Instr.firstRow]) id
theorem flog2 (x : OpTyT) : Statement (.flog2 x) :=
  viaA ⟨24, x.d, x.a, (0#5 ++ x.y.code), 4, x.t⟩ (decMaj18 · x.m) rfl rfl (show (24 : BitVec 6) ≠ 0x3F by decide) (fun w h => sel18 w _ h) (by simp [decMaj18, Instr.firstRow]) id
theorem fsin (x : OpTyT) : Statement (.fsin x) :=
  viaA ⟨24, x.d, x.a, (0#5 ++ x.y.code), 5, x.t⟩ (decMaj18 · x.m) rfl rfl (show (24 : BitVec 6) ≠ 0x3F by decide) (fun w h => sel18 w _ h) (by simp [decMaj18, Instr.firstRow]) id
theorem fcos (x : OpTyT) : Statement (.fcos x) :=
  viaA ⟨24, x.d, x.a, (0#5 ++ x.y.code), 6, x.t⟩ (decMaj18 · x.m) rfl rfl (show (24 : BitVec 6) ≠ 0x3F by decide) (fun w h => sel18 w _ h) (by simp [decMaj18, Instr.firstRow]) id
theorem ftanh (x : OpTyT) : Statement (.ftanh x) :=
  viaA ⟨24, x.d, x.a, (0#5 ++ x.y.code), 7, x.t⟩ (decMaj18 · x.m) rfl rfl (show (24 : BitVec 6) ≠ 0x3F by decide) (fun w h => sel18 w _ h) (by simp [decMaj18, Instr.firstRow]) id
theorem cvt (x : OpCvt) : Statement (.cvt x) :=
  viaC ⟨25, x.d, x.a, x.dst.code, x.src.code, x.sat⟩ (decMaj19 · x.m) rfl rfl (show (25 : BitVec 6) ≠ 0x3F by decide) (fun w h => sel19 w _ h) (by simp [decMaj19, Instr.firstRow]) id
theorem cvts (x : OpCvt) : Statement (.cvts x) :=
  viaC ⟨26, x.d, x.a, x.dst.code, x.src.code, x.sat⟩ (decMaj1A · x.m) rfl rfl (show (26 : BitVec 6) ≠ 0x3F by decide) (fun w h => sel1A w _ h) (by simp [decMaj1A, Instr.firstRow]) id
theorem pack (x : OpE) : Statement (.pack x) :=
  viaE ⟨27, x.d, x.a, x.b, 0⟩ (decMaj1B · x.m) rfl rfl (show (27 : BitVec 6) ≠ 0x3F by decide) (fun w h => sel1B w _ h) rfl id
theorem unpk (x : OpE) : Statement (.unpk x) :=
  viaE ⟨27, x.d, x.a, x.b, 1⟩ (decMaj1B · x.m) rfl rfl (show (27 : BitVec 6) ≠ 0x3F by decide) (fun w h => sel1B w _ h) rfl id
theorem cbset (x : OpCbset) : Statement (.cbset x) :=
  viaE ⟨28, 0, x.a, (0#4 ++ x.j), 0⟩ (decMaj1C · x.m) rfl rfl (show (28 : BitVec 6) ≠ 0x3F by decide) (fun w h => sel1C w _ h) (by simp [decMaj1C, Instr.firstRow]) id
theorem cbenc (x : OpCbenc) : Statement (.cbenc x) :=
  viaE ⟨28, x.d, x.a, (0#3 ++ x.src.code ++ x.f.code), 1⟩ (decMaj1C · x.m) rfl rfl (show (28 : BitVec 6) ≠ 0x3F by decide) (fun w h => sel1C w _ h) (by
    simp only [decMaj1C]
    simp (disch := decide) only [cut_left, cut_right, bit_left, bit_right]
    simp [Instr.firstRow]) id
theorem cbdec (x : OpCbdec) : Statement (.cbdec x) :=
  viaE ⟨28, x.d, x.a, (0#2 ++ x.p ++ x.f.code), 2⟩ (decMaj1C · x.m) rfl rfl (show (28 : BitVec 6) ≠ 0x3F by decide) (fun w h => sel1C w _ h) (by
    simp only [decMaj1C]
    simp (disch := decide) only [cut_left, cut_right, bit_left, bit_right]
    simp [Instr.firstRow]) id
theorem cbget (x : OpCbget) : Statement (.cbget x) :=
  viaE ⟨28, x.d, 0, (0#4 ++ x.j), 3⟩ (decMaj1C · x.m) rfl rfl (show (28 : BitVec 6) ≠ 0x3F by decide) (fun w h => sel1C w _ h) (by simp [decMaj1C, Instr.firstRow]) id
theorem absm (x : OpFmt) : Statement (.absm x) :=
  viaE ⟨29, x.d, x.a, (0#2 ++ x.f.code), 0⟩ (decMaj1D · x.m) rfl rfl (show (29 : BitVec 6) ≠ 0x3F by decide) (fun w h => sel1D w _ h) (by simp [decMaj1D, Instr.firstRow]) id
theorem absc (x : OpFmt) : Statement (.absc x) :=
  viaE ⟨29, x.d, x.a, (0#2 ++ x.f.code), 1⟩ (decMaj1D · x.m) rfl rfl (show (29 : BitVec 6) ≠ 0x3F by decide) (fun w h => sel1D w _ h) (by simp [decMaj1D, Instr.firstRow]) id
theorem shfl (x : OpShfl) : Statement (.shfl x) :=
  viaA ⟨30, x.d, x.a, x.b, x.k.code, x.t⟩ (decMaj1E · x.m) rfl rfl (show (30 : BitVec 6) ≠ 0x3F by decide) (fun w h => sel1E w _ h) (by simp [decMaj1E, Instr.firstRow]) id
theorem vote (x : OpVote) : Statement (.vote x) :=
  viaA ⟨31, x.d, x.a, 0, x.k.code, x.t⟩ (decMaj1F · x.m) rfl rfl (show (31 : BitVec 6) ≠ 0x3F by decide) (fun w h => sel1F w _ h) (by simp [decMaj1F, Instr.firstRow]) id
theorem red (x : OpRed) : Statement (.red x) :=
  viaE ⟨32, x.d, x.a, (0#4 ++ x.y.code), x.o.code⟩ (decMaj20 · x.m) rfl rfl (show (32 : BitVec 6) ≠ 0x3F by decide) (fun w h => sel20 w _ h) (by simp [decMaj20, Instr.firstRow]) id
theorem scan (x : OpRed) : Statement (.scan x) :=
  viaE ⟨33, x.d, x.a, (0#4 ++ x.y.code), x.o.code⟩ (decMaj21 · x.m) rfl rfl (show (33 : BitVec 6) ≠ 0x3F by decide) (fun w h => sel21 w _ h) (by simp [decMaj21, Instr.firstRow]) id
theorem arg (x : OpArg) : Statement (.arg x) :=
  viaE ⟨34, x.d, x.a, x.b, x.k.code⟩ (decMaj22 · x.m) rfl rfl (show (34 : BitVec 6) ≠ 0x3F by decide) (fun w h => sel22 w _ h) (by simp [decMaj22, Instr.firstRow]) id
theorem bra (x : OpBr) : Statement (.bra x) :=
  viaB ⟨36, x.a, x.c.code, x.o⟩ decMaj24 rfl rfl (show (36 : BitVec 6) ≠ 0x3F by decide) sel24 (by simp [decMaj24, Instr.firstRow]) id
theorem brc (x : OpBr) : Statement (.brc x) :=
  viaB ⟨37, x.a, x.c.code, x.o⟩ decMaj25 rfl rfl (show (37 : BitVec 6) ≠ 0x3F by decide) sel25 (by simp [decMaj25, Instr.firstRow]) id
theorem call (x : OpBrA) : Statement (.call x) :=
  viaB ⟨38, x.a, 0, x.o⟩ decMaj26 rfl rfl (show (38 : BitVec 6) ≠ 0x3F by decide) sel26 rfl id
theorem ret (x : OpR) : Statement (.ret x) :=
  viaA ⟨39, 0, x.r, 0, 0, false⟩ decMaj27 rfl rfl (show (39 : BitVec 6) ≠ 0x3F by decide) sel27 rfl id
theorem brx (x : OpR) : Statement (.brx x) :=
  viaA ⟨39, 0, x.r, 0, 1, false⟩ decMaj27 rfl rfl (show (39 : BitVec 6) ≠ 0x3F by decide) sel27 rfl id
theorem join  : Statement .join :=
  viaA ⟨39, 0, 0, 0, 2, false⟩ decMaj27 rfl rfl (show (39 : BitVec 6) ≠ 0x3F by decide) sel27 rfl id
theorem yld  : Statement .yld :=
  viaA ⟨39, 0, 0, 0, 3, false⟩ decMaj27 rfl rfl (show (39 : BitVec 6) ≠ 0x3F by decide) sel27 rfl id
theorem exit  : Statement .exit :=
  viaA ⟨39, 0, 0, 0, 4, false⟩ decMaj27 rfl rfl (show (39 : BitVec 6) ≠ 0x3F by decide) sel27 rfl id
theorem trapx (x : OpR) : Statement (.trapx x) :=
  viaA ⟨39, 0, 0, x.r, 5, false⟩ decMaj27 rfl rfl (show (39 : BitVec 6) ≠ 0x3F by decide) sel27 rfl id
theorem uret  : Statement .uret :=
  viaA ⟨39, 0, 0, 0, 6, false⟩ decMaj27 rfl rfl (show (39 : BitVec 6) ≠ 0x3F by decide) sel27 rfl id
theorem brk  : Statement .brk :=
  viaA ⟨39, 0, 0, 0, 7, false⟩ decMaj27 rfl rfl (show (39 : BitVec 6) ≠ 0x3F by decide) sel27 rfl id
theorem bpnd (x : OpBpnd) : Statement (.bpnd x) :=
  viaB ⟨40, x.a, (0#2 ++ BitVec.ofBool x.rdy), x.o⟩ decMaj28 rfl rfl (show (40 : BitVec 6) ≠ 0x3F by decide) sel28 (by
    simp only [decMaj28]
    simp (disch := decide) only [cut_left, cut_right, bit_left, bit_right]
    simp [Instr.firstRow]) id
theorem ball (x : OpBrA) : Statement (.ball x) :=
  viaB ⟨41, x.a, 0, x.o⟩ decMaj29 rfl rfl (show (41 : BitVec 6) ≠ 0x3F by decide) sel29 rfl id
theorem bany (x : OpBrA) : Statement (.bany x) :=
  viaB ⟨41, x.a, 1, x.o⟩ decMaj29 rfl rfl (show (41 : BitVec 6) ≠ 0x3F by decide) sel29 rfl id
theorem bnone (x : OpBrA) : Statement (.bnone x) :=
  viaB ⟨41, x.a, 2, x.o⟩ decMaj29 rfl rfl (show (41 : BitVec 6) ≠ 0x3F by decide) sel29 rfl id
theorem mfu (x : OpMfu) : Statement (.mfu x) :=
  viaE ⟨42, x.d, 0, x.r.code, 0⟩ (decMaj2A · x.m) rfl rfl (show (42 : BitVec 6) ≠ 0x3F by decide) (fun w h => sel2A w _ h) (by simp [decMaj2A, Instr.firstRow]) id
theorem mtu (x : OpMtu) : Statement (.mtu x) :=
  viaE ⟨42, 0, x.a, x.r.code, 1⟩ (decMaj2A · x.m) rfl rfl (show (42 : BitVec 6) ≠ 0x3F by decide) (fun w h => sel2A w _ h) (by simp [decMaj2A, Instr.firstRow]) id
theorem tile (x : OpSrc) : Statement (.tile x) :=
  viaE ⟨42, 0, x.a, 0, 2⟩ (decMaj2A · x.m) rfl rfl (show (42 : BitVec 6) ≠ 0x3F by decide) (fun w h => sel2A w _ h) rfl id
theorem dmode (x : OpSrc) : Statement (.dmode x) :=
  viaE ⟨42, 0, x.a, 0, 3⟩ (decMaj2A · x.m) rfl rfl (show (42 : BitVec 6) ≠ 0x3F by decide) (fun w h => sel2A w _ h) rfl id
theorem dqry (x : OpDqry) : Statement (.dqry x) :=
  viaE ⟨42, x.d, 0, (0#5 ++ x.j), 4⟩ (decMaj2A · x.m) rfl rfl (show (42 : BitVec 6) ≠ 0x3F by decide) (fun w h => sel2A w _ h) (by simp [decMaj2A, Instr.firstRow]) id
theorem ld (x : OpLd) : Statement (.ld x) :=
  viaM ⟨44, x.d, x.a, x.p.code, x.z.code, x.o⟩ (decMaj2C · x.m) rfl rfl (show (44 : BitVec 6) ≠ 0x3F by decide) (fun w h => sel2C w _ h) (by simp [decMaj2C, Instr.firstRow]) id
theorem st (x : OpSt) : Statement (.st x) :=
  viaM ⟨45, x.d, x.a, x.p.code, x.z.code, x.o⟩ (decMaj2D · x.m) rfl rfl (show (45 : BitVec 6) ≠ 0x3F by decide) (fun w h => sel2D w _ h) (by simp [decMaj2D, Instr.firstRow]) id
theorem ldx (x : OpX) : Statement (.ldx x) :=
  viaA ⟨46, x.d, x.a, x.b, (0#1 ++ x.p.code), false⟩ (decMaj2E · x.m) rfl rfl (show (46 : BitVec 6) ≠ 0x3F by decide) (fun w h => sel2E w _ h) (by
    simp only [decMaj2E]
    simp (disch := decide) only [cut_left, cut_right, bit_left, bit_right]
    simp [Instr.firstRow]) id
theorem stx (x : OpX) : Statement (.stx x) :=
  viaA ⟨46, x.d, x.a, x.b, (1#1 ++ x.p.code), false⟩ (decMaj2E · x.m) rfl rfl (show (46 : BitVec 6) ≠ 0x3F by decide) (fun w h => sel2E w _ h) (by
    simp only [decMaj2E]
    simp (disch := decide) only [cut_left, cut_right, bit_left, bit_right]
    simp [Instr.firstRow]) id
theorem atom (x : OpAtom) : Statement (.atom x) :=
  viaT ⟨47, x.d, x.a, x.p.code, x.w64, x.rel, x.s.code, x.o.code⟩ (decMaj2F · x.m) rfl rfl (show (47 : BitVec 6) ≠ 0x3F by decide) (fun w h => sel2F w _ h) (by simp [decMaj2F, Instr.firstRow]) id
theorem phaseRel (x : OpScope) : Statement (.phaseRel x) :=
  viaE ⟨48, 0, 0, (0#4 ++ x.s.code), 0⟩ (decMaj30 · x.m) rfl rfl (show (48 : BitVec 6) ≠ 0x3F by decide) (fun w h => sel30 w _ h) (by simp [decMaj30, Instr.firstRow]) id
theorem phaseAcq (x : OpAcq) : Statement (.phaseAcq x) :=
  viaE ⟨48, 0, x.a, (0#3 ++ BitVec.ofBool x.named ++ x.s.code), 1⟩ (decMaj30 · x.m) rfl rfl (show (48 : BitVec 6) ≠ 0x3F by decide) (fun w h => sel30 w _ h) (by
    simp only [decMaj30]
    simp (disch := decide) only [cut_left, cut_right, bit_left, bit_right]
    simp [Instr.firstRow]) id
theorem phaseAr (x : OpScope) : Statement (.phaseAr x) :=
  viaE ⟨48, 0, 0, (0#4 ++ x.s.code), 2⟩ (decMaj30 · x.m) rfl rfl (show (48 : BitVec 6) ≠ 0x3F by decide) (fun w h => sel30 w _ h) (by simp [decMaj30, Instr.firstRow]) id
theorem fence (x : OpScope) : Statement (.fence x) :=
  viaE ⟨48, 0, 0, (0#4 ++ x.s.code), 3⟩ (decMaj30 · x.m) rfl rfl (show (48 : BitVec 6) ≠ 0x3F by decide) (fun w h => sel30 w _ h) (by simp [decMaj30, Instr.firstRow]) id
theorem ann (x : OpAnn) : Statement (.ann x) :=
  viaN ⟨49, x.d, x.a, x.b, x.p.code, x.ord, x.o.code⟩ (decMaj31 · x.m) rfl rfl (show (49 : BitVec 6) ≠ 0x3F by decide) (fun w h => sel31 w _ h) (by cases x with | mk o r p d a b m => cases o <;> cases p <;> rfl) id
theorem annHlp (x : OpHlp) : Statement (.annHlp x) :=
  viaN ⟨49, x.d, x.a, 0#1 ++ x.n, x.p.code, 0, 13⟩ (decMaj31 · x.m) rfl rfl (show (49 : BitVec 6) ≠ 0x3F by decide) (fun w h => sel31 w _ h) (by simp [decMaj31, Instr.firstRow]) id
theorem annq (x : OpAnnq) : Statement (.annq x) :=
  viaN ⟨49, x.d, 0, 0, 0, 0, 14⟩ (decMaj31 · x.m) rfl rfl (show (49 : BitVec 6) ≠ 0x3F by decide) (fun w h => sel31 w _ h) rfl id
theorem barInit (x : OpBarInit) : Statement (.barInit x) :=
  viaE ⟨50, 0, x.a, (0#2 ++ BitVec.ofBool x.gang ++ x.k), 0⟩ (decMaj32 · x.m) rfl rfl (show (50 : BitVec 6) ≠ 0x3F by decide) (fun w h => sel32 w _ h) (by
    simp only [decMaj32]
    simp (disch := decide) only [cut_left, cut_right, bit_left, bit_right]
    simp [Instr.firstRow]) id
theorem barArv (x : OpBar) : Statement (.barArv x) :=
  viaE ⟨50, 0, 0, (0#3 ++ x.k), 1⟩ (decMaj32 · x.m) rfl rfl (show (50 : BitVec 6) ≠ 0x3F by decide) (fun w h => sel32 w _ h) (by simp [decMaj32, Instr.firstRow]) id
theorem barAdd (x : OpBarS) : Statement (.barAdd x) :=
  viaE ⟨50, 0, x.r, (0#3 ++ x.k), 2⟩ (decMaj32 · x.m) rfl rfl (show (50 : BitVec 6) ≠ 0x3F by decide) (fun w h => sel32 w _ h) (by simp [decMaj32, Instr.firstRow]) id
theorem barTst (x : OpBarS) : Statement (.barTst x) :=
  viaE ⟨50, x.r, 0, (0#3 ++ x.k), 3⟩ (decMaj32 · x.m) rfl rfl (show (50 : BitVec 6) ≠ 0x3F by decide) (fun w h => sel32 w _ h) (by simp [decMaj32, Instr.firstRow]) id
theorem barPnd (x : OpBarS) : Statement (.barPnd x) :=
  viaE ⟨50, x.r, 0, (0#3 ++ x.k), 4⟩ (decMaj32 · x.m) rfl rfl (show (50 : BitVec 6) ≠ 0x3F by decide) (fun w h => sel32 w _ h) (by simp [decMaj32, Instr.firstRow]) id
theorem fget (x : OpFut) : Statement (.fget x) :=
  viaE ⟨51, x.d, x.a, (0#5 ++ x.p.code), 0⟩ (decMaj33 · x.m) rfl rfl (show (51 : BitVec 6) ≠ 0x3F by decide) (fun w h => sel33 w _ h) (by simp [decMaj33, Instr.firstRow]) id
theorem fset (x : OpFut) : Statement (.fset x) :=
  viaE ⟨51, x.d, x.a, (0#5 ++ x.p.code), 1⟩ (decMaj33 · x.m) rfl rfl (show (51 : BitVec 6) ≠ 0x3F by decide) (fun w h => sel33 w _ h) (by simp [decMaj33, Instr.firstRow]) id
theorem fclr (x : OpFut) : Statement (.fclr x) :=
  viaE ⟨51, x.d, x.a, (0#5 ++ x.p.code), 2⟩ (decMaj33 · x.m) rfl rfl (show (51 : BitVec 6) ≠ 0x3F by decide) (fun w h => sel33 w _ h) (by simp [decMaj33, Instr.firstRow]) id
theorem tspawn (x : OpE) : Statement (.tspawn x) :=
  viaE ⟨52, x.d, x.a, x.b, 0⟩ (decMaj34 · x.m) rfl rfl (show (52 : BitVec 6) ≠ 0x3F by decide) (fun w h => sel34 w _ h) rfl id
theorem partialTaskWarpTimeout (core : Nat) : Statement (.partialTaskWarpTimeout core) := fun h => by cases h
theorem tend (x : OpM) : Statement (.tend x) :=
  viaE ⟨52, 0, 0, 0, 1⟩ (decMaj34 · x.m) rfl rfl (show (52 : BitVec 6) ≠ 0x3F by decide) (fun w h => sel34 w _ h) rfl id
theorem fapp (x : OpE) : Statement (.fapp x) :=
  viaE ⟨53, x.d, x.a, x.b, 0⟩ (decMaj35 · x.m) rfl rfl (show (53 : BitVec 6) ≠ 0x3F by decide) (fun w h => sel35 w _ h) rfl id
theorem fpop (x : OpE2) : Statement (.fpop x) :=
  viaE ⟨53, x.d, x.a, 0, 1⟩ (decMaj35 · x.m) rfl rfl (show (53 : BitVec 6) ≠ 0x3F by decide) (fun w h => sel35 w _ h) rfl id
theorem fret (x : OpE) : Statement (.fret x) :=
  viaE ⟨53, x.d, x.a, x.b, 2⟩ (decMaj35 · x.m) rfl rfl (show (53 : BitVec 6) ≠ 0x3F by decide) (fun w h => sel35 w _ h) rfl id
theorem svc (x : OpE) : Statement (.svc x) :=
  viaE ⟨54, x.d, x.a, x.b, 0⟩ (decMaj36 · x.m) rfl rfl (show (54 : BitVec 6) ≠ 0x3F by decide) (fun w h => sel36 w _ h) rfl id
theorem rgive (x : OpGive) : Statement (.rgive x) :=
  viaI ⟨55, 0, 0, (0#7 ++ x.k)⟩ decMaj37 rfl rfl (show (55 : BitVec 6) ≠ 0x3F by decide) sel37 (by
    simp only [decMaj37]
    simp (disch := decide) only [cut_left, cut_right, bit_left, bit_right]
    simp [Instr.firstRow]) id
theorem rclaim (x : OpClaim) : Statement (.rclaim x) :=
  viaI ⟨55, x.d, 0, (1#1 ++ 0#6 ++ x.k)⟩ decMaj37 rfl rfl (show (55 : BitVec 6) ≠ 0x3F by decide) sel37 (by
    simp only [decMaj37]
    simp (disch := decide) only [cut_left, cut_right, bit_left, bit_right]
    simp [Instr.firstRow]) id
theorem mresv (x : OpE2) : Statement (.mresv x) :=
  viaE ⟨56, x.d, x.a, 0, 0⟩ (decMaj38 · x.m) rfl rfl (show (56 : BitVec 6) ≠ 0x3F by decide) (fun w h => sel38 w _ h) rfl id
theorem mrels (x : OpBar) : Statement (.mrels x) :=
  viaE ⟨56, 0, 0, (0#3 ++ x.k), 1⟩ (decMaj38 · x.m) rfl rfl (show (56 : BitVec 6) ≠ 0x3F by decide) (fun w h => sel38 w _ h) (by simp [decMaj38, Instr.firstRow]) id
theorem mscl (x : OpSrc) : Statement (.mscl x) :=
  viaE ⟨56, 0, x.a, 0, 2⟩ (decMaj38 · x.m) rfl rfl (show (56 : BitVec 6) ≠ 0x3F by decide) (fun w h => sel38 w _ h) rfl id
theorem mlds (x : OpBarS) : Statement (.mlds x) :=
  viaE ⟨56, 0, x.r, (0#3 ++ x.k), 3⟩ (decMaj38 · x.m) rfl rfl (show (56 : BitVec 6) ≠ 0x3F by decide) (fun w h => sel38 w _ h) (by simp [decMaj38, Instr.firstRow]) id
theorem mswp (x : OpM) : Statement (.mswp x) :=
  viaE ⟨56, 0, 0, 0, 4⟩ (decMaj38 · x.m) rfl rfl (show (56 : BitVec 6) ≠ 0x3F by decide) (fun w h => sel38 w _ h) rfl id
theorem mzero (x : OpSrc) : Statement (.mzero x) :=
  viaE ⟨56, 0, x.a, 0, 5⟩ (decMaj38 · x.m) rfl rfl (show (56 : BitVec 6) ≠ 0x3F by decide) (fun w h => sel38 w _ h) rfl id
theorem mchn (x : OpBar) : Statement (.mchn x) :=
  viaE ⟨56, 0, 0, (0#3 ++ x.k), 6⟩ (decMaj38 · x.m) rfl rfl (show (56 : BitVec 6) ≠ 0x3F by decide) (fun w h => sel38 w _ h) (by simp [decMaj38, Instr.firstRow]) id
theorem mstat (x : OpStat) : Statement (.mstat x) :=
  viaE ⟨56, x.d, 0, (0#6 ++ BitVec.ofBool x.c), 7⟩ (decMaj38 · x.m) rfl rfl (show (56 : BitVec 6) ≠ 0x3F by decide) (fun w h => sel38 w _ h) (by
    simp only [decMaj38]
    simp (disch := decide) only [cut_left, cut_right, bit_left, bit_right]
    simp [Instr.firstRow]) id
theorem mloop (x : OpSrc) : Statement (.mloop x) :=
  viaE ⟨57, 0, x.a, 0, 0⟩ (decMaj39 · x.m) rfl rfl (show (57 : BitVec 6) ≠ 0x3F by decide) (fun w h => sel39 w _ h) rfl id
theorem mgrp (x : OpMgrp) : Statement (.mgrp x) :=
  viaE ⟨57, 0, x.a, x.b, 1⟩ (decMaj39 · x.m) rfl rfl (show (57 : BitVec 6) ≠ 0x3F by decide) (fun w h => sel39 w _ h) rfl id
theorem mdrn (x : OpE2) : Statement (.mdrn x) :=
  viaE ⟨57, x.d, x.a, 0, 2⟩ (decMaj39 · x.m) rfl rfl (show (57 : BitVec 6) ≠ 0x3F by decide) (fun w h => sel39 w _ h) rfl id
theorem cpyL (x : OpE) : Statement (.cpyL x) :=
  viaE ⟨58, x.d, x.a, x.b, 0⟩ (decMaj3A · x.m) rfl rfl (show (58 : BitVec 6) ≠ 0x3F by decide) (fun w h => sel3A w _ h) rfl id
theorem cpyS (x : OpE) : Statement (.cpyS x) :=
  viaE ⟨58, x.d, x.a, x.b, 1⟩ (decMaj3A · x.m) rfl rfl (show (58 : BitVec 6) ≠ 0x3F by decide) (fun w h => sel3A w _ h) rfl id
theorem cpyp (x : OpE) : Statement (.cpyp x) :=
  viaE ⟨58, x.d, x.a, x.b, 2⟩ (decMaj3A · x.m) rfl rfl (show (58 : BitVec 6) ≠ 0x3F by decide) (fun w h => sel3A w _ h) rfl id
theorem cpyq (x : OpStat) : Statement (.cpyq x) :=
  viaE ⟨58, x.d, 0, (0#6 ++ BitVec.ofBool x.c), 3⟩ (decMaj3A · x.m) rfl rfl (show (58 : BitVec 6) ≠ 0x3F by decide) (fun w h => sel3A w _ h) (by
    simp only [decMaj3A]
    simp (disch := decide) only [cut_left, cut_right, bit_left, bit_right]
    simp [Instr.firstRow]) id
theorem kvg (x : OpE) : Statement (.kvg x) :=
  viaE ⟨59, x.d, x.a, x.b, 0⟩ (decMaj3B · x.m) rfl rfl (show (59 : BitVec 6) ≠ 0x3F by decide) (fun w h => sel3B w _ h) rfl id
theorem kvmap (x : OpE) : Statement (.kvmap x) :=
  viaE ⟨59, x.d, x.a, x.b, 1⟩ (decMaj3B · x.m) rfl rfl (show (59 : BitVec 6) ≠ 0x3F by decide) (fun w h => sel3B w _ h) rfl id
theorem migr (x : OpE) : Statement (.migr x) :=
  viaE ⟨59, x.d, x.a, x.b, 2⟩ (decMaj3B · x.m) rfl rfl (show (59 : BitVec 6) ≠ 0x3F by decide) (fun w h => sel3B w _ h) rfl id
theorem adec (x : OpE) : Statement (.adec x) :=
  viaE ⟨59, x.d, x.a, x.b, 3⟩ (decMaj3B · x.m) rfl rfl (show (59 : BitVec 6) ≠ 0x3F by decide) (fun w h => sel3B w _ h) rfl id
theorem nwr (x : OpNet) : Statement (.nwr x) :=
  viaE ⟨60, x.d, x.a, x.b, (BitVec.ofBool x.v ++ 0#3)⟩ (decMaj3C · x.m) rfl rfl (show (60 : BitVec 6) ≠ 0x3F by decide) (fun w h => sel3C w _ h) (by
    simp only [decMaj3C]
    simp (disch := decide) only [cut_left, cut_right, bit_left, bit_right]
    simp [Instr.firstRow]) id
theorem nrd (x : OpE) : Statement (.nrd x) :=
  viaE ⟨60, x.d, x.a, x.b, 1⟩ (decMaj3C · x.m) rfl rfl (show (60 : BitVec 6) ≠ 0x3F by decide) (fun w h => sel3C w _ h) (by simp [decMaj3C, Instr.firstRow]) id
theorem natm (x : OpNet) : Statement (.natm x) :=
  viaE ⟨60, x.d, x.a, x.b, (BitVec.ofBool x.v ++ 2#3)⟩ (decMaj3C · x.m) rfl rfl (show (60 : BitVec 6) ≠ 0x3F by decide) (fun w h => sel3C w _ h) (by
    simp only [decMaj3C]
    simp (disch := decide) only [cut_left, cut_right, bit_left, bit_right]
    simp [Instr.firstRow]) id
theorem nsnd (x : OpNet) : Statement (.nsnd x) :=
  viaE ⟨60, x.d, x.a, x.b, (BitVec.ofBool x.v ++ 3#3)⟩ (decMaj3C · x.m) rfl rfl (show (60 : BitVec 6) ≠ 0x3F by decide) (fun w h => sel3C w _ h) (by
    simp only [decMaj3C]
    simp (disch := decide) only [cut_left, cut_right, bit_left, bit_right]
    simp [Instr.firstRow]) id
theorem nwatch (x : OpE2) : Statement (.nwatch x) :=
  viaE ⟨60, x.d, x.a, 0, 4⟩ (decMaj3C · x.m) rfl rfl (show (60 : BitVec 6) ≠ 0x3F by decide) (fun w h => sel3C w _ h) (by simp [decMaj3C, Instr.firstRow]) id
theorem strd (x : OpE) : Statement (.strd x) :=
  viaE ⟨61, x.d, x.a, x.b, 0⟩ (decMaj3D · x.m) rfl rfl (show (61 : BitVec 6) ≠ 0x3F by decide) (fun w h => sel3D w _ h) (by simp [decMaj3D, Instr.firstRow]) id
theorem stwr (x : OpNet) : Statement (.stwr x) :=
  viaE ⟨61, x.d, x.a, x.b, (BitVec.ofBool x.v ++ 1#3)⟩ (decMaj3D · x.m) rfl rfl (show (61 : BitVec 6) ≠ 0x3F by decide) (fun w h => sel3D w _ h) (by
    simp only [decMaj3D]
    simp (disch := decide) only [cut_left, cut_right, bit_left, bit_right]
    simp [Instr.firstRow]) id
theorem stfl (x : OpE) : Statement (.stfl x) :=
  viaE ⟨61, x.d, x.a, x.b, 2⟩ (decMaj3D · x.m) rfl rfl (show (61 : BitVec 6) ≠ 0x3F by decide) (fun w h => sel3D w _ h) (by simp [decMaj3D, Instr.firstRow]) id
theorem mfsr (x : OpMfsr) : Statement (.mfsr x) :=
  viaE ⟨62, x.d, 0, x.r.code, 0⟩ decMaj3E rfl rfl (show (62 : BitVec 6) ≠ 0x3F by decide) sel3E (by simp [decMaj3E, Instr.firstRow]) id
theorem mtsr (x : OpMtsr) : Statement (.mtsr x) :=
  viaE ⟨62, 0, x.a, x.r.code, 1⟩ decMaj3E rfl rfl (show (62 : BitVec 6) ≠ 0x3F by decide) sel3E (by simp [decMaj3E, Instr.firstRow]) id
theorem tret  : Statement .tret :=
  viaE ⟨62, 0, 0, 0, 2⟩ decMaj3E rfl rfl (show (62 : BitVec 6) ≠ 0x3F by decide) sel3E rfl id
theorem csave (x : OpSys) : Statement (.csave x) :=
  viaE ⟨62, x.d, x.a, x.b, 3⟩ decMaj3E rfl rfl (show (62 : BitVec 6) ≠ 0x3F by decide) sel3E rfl id
theorem cload (x : OpSys) : Statement (.cload x) :=
  viaE ⟨62, x.d, x.a, x.b, 4⟩ decMaj3E rfl rfl (show (62 : BitVec 6) ≠ 0x3F by decide) sel3E rfl id
theorem cmigr (x : OpSys) : Statement (.cmigr x) :=
  viaE ⟨62, x.d, x.a, x.b, 5⟩ decMaj3E rfl rfl (show (62 : BitVec 6) ≠ 0x3F by decide) sel3E rfl id
theorem tlbinv (x : OpSys) : Statement (.tlbinv x) :=
  viaE ⟨62, x.d, x.a, x.b, 6⟩ decMaj3E rfl rfl (show (62 : BitVec 6) ≠ 0x3F by decide) sel3E rfl id
theorem fqansResume (x : OpSys) : Statement (.fqansResume x) :=
  viaE ⟨62, x.d, x.a, x.b, 7⟩ decMaj3E rfl rfl (show (62 : BitVec 6) ≠ 0x3F by decide) sel3E rfl id
theorem fqansTerminate (x : OpSys) : Statement (.fqansTerminate x) :=
  viaE ⟨62, x.d, x.a, x.b, 7⟩ decMaj3E rfl rfl (show (62 : BitVec 6) ≠ 0x3F by decide) sel3E rfl id
theorem kslotLoad (x : OpSys) : Statement (.kslotLoad x) :=
  viaE ⟨62, x.d, x.a, x.b, 8⟩ decMaj3E rfl rfl (show (62 : BitVec 6) ≠ 0x3F by decide) sel3E rfl id
theorem kslotZero (x : OpSys) : Statement (.kslotZero x) :=
  viaE ⟨62, x.d, x.a, x.b, 8⟩ decMaj3E rfl rfl (show (62 : BitVec 6) ≠ 0x3F by decide) sel3E rfl id
theorem kslotQuery (x : OpSys) : Statement (.kslotQuery x) :=
  viaE ⟨62, x.d, x.a, x.b, 8⟩ decMaj3E rfl rfl (show (62 : BitVec 6) ≠ 0x3F by decide) sel3E rfl id
theorem scrubStart (x : OpSys) : Statement (.scrubStart x) :=
  viaE ⟨62, x.d, x.a, x.b, 9⟩ decMaj3E rfl rfl (show (62 : BitVec 6) ≠ 0x3F by decide) sel3E rfl id
theorem scrubQuery (x : OpSys) : Statement (.scrubQuery x) :=
  viaE ⟨62, x.d, x.a, x.b, 9⟩ decMaj3E rfl rfl (show (62 : BitVec 6) ≠ 0x3F by decide) sel3E rfl id
theorem partAssign (x : OpSys) : Statement (.partAssign x) :=
  viaE ⟨62, x.d, x.a, x.b, 10⟩ decMaj3E rfl rfl (show (62 : BitVec 6) ≠ 0x3F by decide) sel3E rfl id
theorem partReset (x : OpSys) : Statement (.partReset x) :=
  viaE ⟨62, x.d, x.a, x.b, 10⟩ decMaj3E rfl rfl (show (62 : BitVec 6) ≠ 0x3F by decide) sel3E rfl id
theorem partRelease (x : OpSys) : Statement (.partRelease x) :=
  viaE ⟨62, x.d, x.a, x.b, 10⟩ decMaj3E rfl rfl (show (62 : BitVec 6) ≠ 0x3F by decide) sel3E rfl id
theorem partQuery (x : OpSys) : Statement (.partQuery x) :=
  viaE ⟨62, x.d, x.a, x.b, 10⟩ decMaj3E rfl rfl (show (62 : BitVec 6) ≠ 0x3F by decide) sel3E rfl id
theorem svcret (x : OpSys) : Statement (.svcret x) :=
  viaE ⟨62, x.d, x.a, x.b, 11⟩ decMaj3E rfl rfl (show (62 : BitVec 6) ≠ 0x3F by decide) sel3E rfl id
theorem fmapMap (x : OpSys) : Statement (.fmapMap x) :=
  viaE ⟨62, x.d, x.a, x.b, 12⟩ decMaj3E rfl rfl (show (62 : BitVec 6) ≠ 0x3F by decide) sel3E rfl id
theorem fmapUnmap (x : OpSys) : Statement (.fmapUnmap x) :=
  viaE ⟨62, x.d, x.a, x.b, 12⟩ decMaj3E rfl rfl (show (62 : BitVec 6) ≠ 0x3F by decide) sel3E rfl id
theorem asidqEnter (x : OpSys) : Statement (.asidqEnter x) :=
  viaE ⟨62, x.d, x.a, x.b, 13⟩ decMaj3E rfl rfl (show (62 : BitVec 6) ≠ 0x3F by decide) sel3E rfl id
theorem asidqQuery (x : OpSys) : Statement (.asidqQuery x) :=
  viaE ⟨62, x.d, x.a, x.b, 13⟩ decMaj3E rfl rfl (show (62 : BitVec 6) ≠ 0x3F by decide) sel3E rfl id
theorem asidqLeave (x : OpSys) : Statement (.asidqLeave x) :=
  viaE ⟨62, x.d, x.a, x.b, 13⟩ decMaj3E rfl rfl (show (62 : BitVec 6) ≠ 0x3F by decide) sel3E rfl id
theorem loadLanding (fly : Nat) : Statement (.loadLanding fly) := fun h => by cases h
theorem closureRun (gid : Nat) (widx : Nat) (clo : Nat) : Statement (.closureRun gid widx clo) := fun h => by cases h
theorem yldTimeout (gid : Nat) (widx : Nat) : Statement (.yldTimeout gid widx) := fun h => by cases h
theorem warpEnd (gid : Nat) (widx : Nat) : Statement (.warpEnd gid widx) := fun h => by cases h
theorem releaseLanding (core : Nat) : Statement (.releaseLanding core) := fun h => by cases h
theorem forcedAcquire (core : Nat) : Statement (.forcedAcquire core) := fun h => by cases h
theorem homeEngineTransaction (engine : Nat) : Statement (.homeEngineTransaction engine) := fun h => by cases h
theorem annDriverStep (drive : Nat) : Statement (.annDriverStep drive) := fun h => by cases h
theorem matrixCommandHead (core : Nat) : Statement (.matrixCommandHead core) := fun h => by cases h
theorem matrixPass (core : Nat) : Statement (.matrixPass core) := fun h => by cases h
theorem drainCompletion (core : Nat) : Statement (.drainCompletion core) := fun h => by cases h
theorem copyCompletion (op : Nat) : Statement (.copyCompletion op) := fun h => by cases h
theorem kvgCompletion (op : Nat) : Statement (.kvgCompletion op) := fun h => by cases h
theorem migrCompletion (op : Nat) (status : Nat) : Statement (.migrCompletion op status) := fun h => by cases h
theorem adecCompletion (op : Nat) : Statement (.adecCompletion op) := fun h => by cases h
theorem groupEnd (gid : Nat) : Statement (.groupEnd gid) := fun h => by cases h
theorem launchCompletionRecord (launch : Nat) : Statement (.launchCompletionRecord launch) := fun h => by cases h
theorem networkCompletion (op : Nat) (status : Nat) (data : List Byte) : Statement (.networkCompletion op status data) := fun h => by cases h
theorem networkTimeout (op : Nat) : Statement (.networkTimeout op) := fun h => by cases h
theorem storageCompletion (op : Nat) (status : Nat) (nvst : Nat) (data : List Byte) : Statement (.storageCompletion op status nvst data) := fun h => by cases h
theorem storageTimeout (op : Nat) : Statement (.storageTimeout op) := fun h => by cases h
theorem remoteWriteArrival (r : RemoteReq) (data : List Byte) : Statement (.remoteWriteArrival r data) := fun h => by cases h
theorem remoteReadArrival (r : RemoteReq) (len : Nat) : Statement (.remoteReadArrival r len) := fun h => by cases h
theorem remoteAtomicArrival (r : RemoteReq) (cas : Bool) (w64 : Bool) (y : DWord) (n : DWord) : Statement (.remoteAtomicArrival r cas w64 y n) := fun h => by cases h
theorem endpointMessageArrival (r : RemoteReq) (endpoint : Nat) (data : List Byte) : Statement (.endpointMessageArrival r endpoint data) := fun h => by cases h
theorem watchRegistrationArrival (r : RemoteReq) (token : Nat) : Statement (.watchRegistrationArrival r token) := fun h => by cases h
theorem watchNotificationArrival (op : Nat) (status : Nat) : Statement (.watchNotificationArrival op status) := fun h => by cases h
theorem watchCancel (peer : Nat) (token : Nat) : Statement (.watchCancel peer token) := fun h => by cases h
theorem launch (flow : Nat) (hdr : BitVec 128) (body : List Byte) : Statement (.launch flow hdr body) := fun h => by cases h
theorem append (flow : Nat) (hdr : BitVec 128) (body : List Byte) : Statement (.append flow hdr body) := fun h => by cases h
theorem bindHold (die : Nat) (slot : Nat) (rec : BitVec 256) : Statement (.bindHold die slot rec) := fun h => by cases h
theorem bindCommit (die : Nat) (slot : Nat) : Statement (.bindCommit die slot) := fun h => by cases h
theorem bindFree (die : Nat) (slot : Nat) : Statement (.bindFree die slot) := fun h => by cases h
theorem bindEvict (die : Nat) (slot : Nat) (image : DWord) : Statement (.bindEvict die slot image) := fun h => by cases h
theorem admissionBackoffExpiry (launch : Nat) (gang : Nat) : Statement (.admissionBackoffExpiry launch gang) := fun h => by cases h
theorem windowCompaction (gid : Nat) (widx : Nat) (base : Nat) : Statement (.windowCompaction gid widx base) := fun h => by cases h
theorem priorityAging (launch : Nat) : Statement (.priorityAging launch) := fun h => by cases h
theorem evictionWaitExpiry (launch : Nat) : Statement (.evictionWaitExpiry launch) := fun h => by cases h
theorem pageWalk (core : Nat) (asid : Nat) (va : DWord) : Statement (.pageWalk core asid va) := fun h => by cases h
theorem tlbinvCompletion (op : Nat) : Statement (.tlbinvCompletion op) := fun h => by cases h
theorem kslotZeroCompletion (op : Nat) : Statement (.kslotZeroCompletion op) := fun h => by cases h
theorem fmapCompletion (op : Nat) : Statement (.fmapCompletion op) := fun h => by cases h
theorem contextImageCompletion (op : Nat) : Statement (.contextImageCompletion op) := fun h => by cases h
theorem scrubProgress (die : Nat) : Statement (.scrubProgress die) := fun h => by cases h
theorem scrubPause (die : Nat) : Statement (.scrubPause die) := fun h => by cases h
theorem scrubResume (die : Nat) : Statement (.scrubResume die) := fun h => by cases h
theorem sagThresholdCrossing (die : Nat) (k : Nat) : Statement (.sagThresholdCrossing die k) := fun h => by cases h
theorem sagStepDown (die : Nat) : Statement (.sagStepDown die) := fun h => by cases h
theorem powerGoodBoot : Statement .powerGoodBoot := fun h => by cases h
theorem moduleReset : Statement .moduleReset := fun h => by cases h
theorem readyFunctionUp (die : Nat) (bit : Nat) : Statement (.readyFunctionUp die bit) := fun h => by cases h
theorem portLinkUp (port : Nat) : Statement (.portLinkUp port) := fun h => by cases h
theorem dhcpv6Reply (addr : Nat) (sched : Option Nat) : Statement (.dhcpv6Reply addr sched) := fun h => by cases h
theorem addressFallbackTimeout (addr : Nat) : Statement (.addressFallbackTimeout addr) := fun h => by cases h
theorem announceTimer : Statement .announceTimer := fun h => by cases h
theorem announceAck (src : Nat) : Statement (.announceAck src) := fun h => by cases h
theorem mgmtQuery (src : Nat) : Statement (.mgmtQuery src) := fun h => by cases h
theorem preset (src : Nat) (part : Nat) : Statement (.preset src part) := fun h => by cases h
theorem mreset (src : Nat) : Statement (.mreset src) := fun h => by cases h
theorem fwstage (src : Nat) (img : FlashImage) : Statement (.fwstage src img) := fun h => by cases h
theorem unsupportedPacketDrop (port : Nat) : Statement (.unsupportedPacketDrop port) := fun h => by cases h
theorem crcFailedPacket (port : Nat) : Statement (.crcFailedPacket port) := fun h => by cases h

end Laws.Roundtrip

end Sys2Proof
end

