-- ==== Sys2Proof/Safety.lean ====
section
/-! DEFINITION. The terms in which the claims speak: the canonical form of memory, who issues an instruction, what a
completed instruction leaves, and what an exception leaves. -/

namespace Sys2Proof.Machine

/-! ### Memory -/

/-- The canonical form of a memory: addresses rise, and no entry equals what an unlisted address reads as. -/
def Memory.wf (m : List Host.Cell) : Bool := smWf 0 m

/-- Every memory of a group is in canonical form: its S and N allocations. -/
def Group.memWf (g : Group) : Bool := Memory.wf g.sMem && Memory.wf g.nMem

/-- THE INVARIANT of physical memory: the home copy, and the bytes from before any release, are in canonical form. -/
def State.memWf (s : State) : Bool := Memory.wf s.mem && Memory.wf s.base

/-- A byte that writes to the n bytes from an address leave as it is read: it is none of them, and where it shares a line with
one of them both are read under the same keys (R314). -/
def State.Outside (s : State) (a n b : Nat) : Prop :=
  ∀ i < n, rawAddr b ≠ rawAddr (a + i) ∧ (rawAddr b / 128 = rawAddr (a + i) / 128 → s.viewOf (a + i) = s.viewOf b)

/-! ### Who issues -/

/-- An instruction issues in a state for a context, and none of the checks that every instruction has turns it away:
the target of a branch (R156, R160), the mode (R283), the window (R26) and poisoned operands (R348). -/
structure Issues (s : State) (i : Instr) (c : Ctx) : Prop where
  who : issuer? s = some c
  target : s.earlyTarget c i = none
  mode : i.privileged = true → c.grp.kernel = true
  inside : c.beyond i = false
  sound : c.poison? i = none

/-! ### What a completed instruction leaves -/

/-- A group without its warps. -/
def Group.bare (g : Group) : Group := { g with warps := [] }

/-- A state in which, against another, one warp is different and nothing else is; no instruction is being executed. -/
structure OnlyWarp (s t : State) (gid widx : Nat) (w : Warp) : Prop where
  mine : t.warp? gid widx = some w
  others : ∀ g x, ¬ (g = gid ∧ x = widx) → t.warp? g x = s.warp? g x
  groups : t.groups.map Group.bare = s.groups.map Group.bare
  rest : { t with groups := s.groups, cur := s.cur } = s
  idle : t.cur = none

/-- The lane values that a list of results gives a register; of two for one register the later counts. -/
def Writes.of (ws : Writes) (r : Nat) : Option (Nat → Word) :=
  ws.foldl (fun o p => if p.1 = r then some p.2 else o) none

/-- The value that a register lane holds once results are written for the active lanes; every other keeps its own. -/
def Ctx.result (c : Ctx) (m : Option Modifier) (ws : Writes) (r l : Nat) : Word :=
  match Writes.of ws r with
  | some f => if (c.act m).contains l then f (c.src m l) else c.warp.reg r l
  | none => c.warp.reg r l

/-- The warp of an instruction that has completed (R33, R45): its results are in the register file, or with T in a stream
in the bypass alone; its flags are set; its split stands at the next instruction, or its closure is free; and the rest
of the warp is as before. -/
structure Completed (c : Ctx) (m : Option Modifier) (tr : Bool) (ws : Writes) (fl : Flags) (w : Warp) : Prop where
  regs : ∀ r l, l < 32 → w.reg r l = if tr && c.streamed then c.warp.reg r l else c.result m ws r l
  bypass : tr = true → c.streamed = true → ∀ r f, Writes.of ws r = some f → ∃ sp b, w.split? c.cur.split = some sp ∧
    b ∈ sp.bypass ∧ b.reg = r ∧ b.count = 3 ∧
    ∀ l < 32, b.vals.getD l 0 = if (c.act m).contains l then f (c.src m l) else c.reg r l
  flags : w.fflags = c.warp.fflags ||| fl.setWidth 32
  moved : c.streamed = true → ∃ sp, w.split? c.cur.split = some sp ∧ sp.pc = c.next ∧ sp.mask = c.split.mask ∧
    sp.stack = c.split.stack
  freed : ∀ k, c.cur.clo = some k → w.closure? k = none
  rest : c.streamed = true →
    { w with regs := c.warp.regs, poison := c.warp.poison, splits := c.warp.splits, fflags := c.warp.fflags } = c.warp
  closed : c.streamed = false →
    { w with regs := c.warp.regs, poison := c.warp.poison, fflags := c.warp.fflags, closures := c.warp.closures,
             pend := c.warp.pend, nextLs := c.warp.nextLs, yld := c.warp.yld } = c.warp

/-- The state after an instruction that writes registers and flags and nothing else. -/
def Done (s t : State) (c : Ctx) (m : Option Modifier) (tr : Bool) (ws : Writes) (fl : Flags) : Prop :=
  ∃ w, OnlyWarp s t c.cur.gid c.cur.widx w ∧ Completed c m tr ws fl w

/-- An instruction completes with results and flags and nothing else changed. -/
def Completes (s : State) (i : Instr) (c : Ctx) (m : Option Modifier) (tr : Bool) (ws : Writes) (fl : Flags) : Prop :=
  ∃ t, exec i s = .next t ∧ Done s t c m tr ws fl

/-- An instruction of the table that can raise flags, with its results and the flags that its active lanes raise: the data-typed
integers (R192), float arithmetic (R199) and its 16-bit forms (R153), comparisons (R200), special functions (R202), conversions
(R203, R204), CBENC (R208), RED and SCAN (R214, R215). -/
def Ctx.Flagging (c : Ctx) (i : Instr) (m : Option Modifier) (tr : Bool) (ws : Writes) (fl : Flags) : Prop :=
  let one := fun (d : Nat) (m' : Option Modifier) (t : Bool) (r : Nat → Word × Flags) =>
    m = m' ∧ tr = t ∧ ws = [(d, fun l => (r l).1)] ∧ fl = c.flagsOf m' fun l => (r l).2
  (∃ (x : OpDigT) (o : DigOp), (o, i) ∈ ([(.add, .dadd x), (.sub, .dsub x)] : List (DigOp × Instr)) ∧
    one x.d.toNat x.m x.t fun l => digWord o x.y x.m (c.reg x.a.toNat l) (c.reg x.b.toNat l) (c.reg x.d.toNat l)) ∨
  (∃ (x : OpDig) (o : DigOp),
    (o, i) ∈ ([(.mul, .dmul x), (.mad, .dmad x), (.min, .dmin x), (.max, .dmax x)] : List (DigOp × Instr)) ∧
    one x.d.toNat x.m false fun l => digWord o x.y x.m (c.reg x.a.toNat l) (c.reg x.b.toNat l) (c.reg x.d.toNat l)) ∨
  (∃ (x : OpA) (o : FloatOp) (y : FTy),
    (o, y, i) ∈ ([(.add, .f32, .faddF32 x), (.sub, .f32, .fsubF32 x), (.mul, .f32, .fmulF32 x), (.fma, .f32, .ffmaF32 x),
      (.min, .f32, .fminF32 x), (.max, .f32, .fmaxF32 x), (.cpys, .f32, .fcpysF32 x), (.add, .f16, .faddF16x2 x),
      (.sub, .f16, .fsubF16x2 x), (.mul, .f16, .fmulF16x2 x), (.fma, .f16, .ffmaF16x2 x), (.min, .f16, .fminF16x2 x),
      (.max, .f16, .fmaxF16x2 x), (.cpys, .f16, .fcpysF16x2 x), (.add, .bf16, .faddBf16x2 x), (.sub, .bf16, .fsubBf16x2 x),
      (.mul, .bf16, .fmulBf16x2 x), (.fma, .bf16, .ffmaBf16x2 x), (.min, .bf16, .fminBf16x2 x), (.max, .bf16, .fmaxBf16x2 x),
      (.cpys, .bf16, .fcpysBf16x2 x)] : List (FloatOp × FTy × Instr)) ∧
    one x.d.toNat x.m x.t fun l => floatWord o y x.m (c.reg x.a.toNat l) (c.reg x.b.toNat l) (c.reg x.d.toNat l)) ∨
  (∃ (x : OpH) (o : FloatOp),
    (o, i) ∈ ([(.add, .fadd16 x), (.mul, .fmul16 x), (.max, .fmax16 x), (.min, .fmin16 x)] : List (FloatOp × Instr)) ∧
    one x.d.toNat none false fun l => floatWord o .f32 none (c.reg x.d.toNat l) (c.reg x.s.toNat l) 0) ∨
  (∃ x : OpFcmp, i = .fcmp x ∧ one x.d.toNat x.m false fun l => fcmpWord x.c x.y x.m (c.reg x.a.toNat l) (c.reg x.b.toNat l)) ∨
  (∃ (x : OpTyT) (f : SpecialFn),
    (f, i) ∈ ([(.rcp, .frcp x), (.rsq, .frsq x), (.sqrt, .fsqrt x), (.exp2, .fexp2 x), (.log2, .flog2 x), (.sin, .fsin x),
      (.cos, .fcos x), (.tanh, .ftanh x)] : List (SpecialFn × Instr)) ∧
    one x.d.toNat x.m x.t fun l => specialWord f x.y x.m (c.reg x.a.toNat l)) ∨
  (∃ x : OpCvt, i = .cvt x ∧ one x.d.toNat x.m false fun l => cvtWord x c.cur.cb (c.reg x.a.toNat l)) ∨
  (∃ x : OpCvt, i = .cvts x ∧
    one x.d.toNat x.m false fun l => cvtsWord x c.cur.cb (c.reg x.a.toNat l) (c.reg (x.a.toNat + 1) l)) ∨
  (∃ x : OpCbenc, let r := fun l => cbencWord x c.cur.cb (c.reg x.a.toNat l)
    i = .cbenc x ∧ m = x.m ∧ tr = false ∧ ws = [(x.d.toNat, fun l => (r l).1), (x.d.toNat + 1, fun l => (r l).2.1)] ∧
    fl = c.flagsOf x.m fun l => (r l).2.2) ∨
  (∃ x : OpRed, i = .red x ∧ m = x.m ∧ tr = false ∧ ws = c.redResult x ∧ fl = c.runFlags x (c.redRun x)) ∨
  (∃ x : OpRed, i = .scan x ∧ m = x.m ∧ tr = false ∧ ws = c.scanResult x ∧ fl = c.runFlags x (c.scanRun x))

/-- No flag of an instruction traps: none that it raises is enabled, or it re-runs with such traps suppressed (R73,
R275). -/
def Ctx.quiet (c : Ctx) (fl : Flags) : Prop := c.enabled fl = 0 ∨ c.cur.noFp = true

/-! ### Where lanes stand -/

/-- A lane of a warp stands at an address: its split is there, or its entry of a split's stack (R8, R10). -/
def Warp.laneAt (w : Warp) (l : Nat) (pc : DWord) : Prop :=
  ∃ sp ∈ w.splits, (sp.pc = pc ∧ sp.mask.getLsbD l = true) ∨ ∃ f ∈ sp.stack, f.pc = pc ∧ f.mask.getLsbD l = true

/-- The places of a warp's lanes: the mask of each split and of each entry of its stack. -/
def Warp.masks (w : Warp) : List Word := w.splits.flatMap fun x => x.mask :: x.stack.map fun f => f.mask

/-- The splits of a warp bear different numbers below 4, and no lane stands in two places (R8, R10). -/
structure Warp.LanesOk (w : Warp) : Prop where
  numbers : (w.splits.map fun x => x.num).Nodup
  four : ∀ x ∈ w.splits, x.num < 4
  once : w.masks.Pairwise fun a b => a &&& b = 0

/-- An instruction that issues from its warp's stream, with the mask of its split; the warp's lanes are in order. -/
structure Ctx.Live (c : Ctx) : Prop where
  stream : c.cur.clo = none
  mask : c.cur.mask = c.split.mask
  lanes : c.warp.LanesOk

/-- An instruction completes by moving each lane of its split to an address, with some results; every other lane stays
where it is, and of the rest only the bypass counts on. -/
def Moves (s : State) (i : Instr) (c : Ctx) (ws : Writes) (dest : Nat → DWord) : Prop :=
  ∃ t w, exec i s = .next t ∧ OnlyWarp s t c.cur.gid c.cur.widx w ∧ w.LanesOk ∧
    (∀ r l, l < 32 → w.reg r l = c.result none ws r l) ∧
    (∀ l < 32, c.cur.mask.getLsbD l = true → w.laneAt l (dest l)) ∧
    (∀ l < 32, c.cur.mask.getLsbD l = false → ∀ pc, c.warp.laneAt l pc → w.laneAt l pc) ∧
    { w with splits := c.warp.splits, inh := c.warp.inh, inu := c.warp.inu, regs := c.warp.regs, poison := c.warp.poison }
      = c.warp

/-! ### Results that come later -/

/-- The warp of an instruction whose destinations are pending (R35, R40): no register has its result yet, each
destination is pending under a number, and the split stands at the next instruction, or the closure is free. -/
structure Started (c : Ctx) (key : Nat) (event : Bool) (mask : Word) (rs : List Nat) (w : Warp) : Prop where
  regs : w.regs = c.warp.regs
  flags : w.fflags = c.warp.fflags
  pend : c.streamed = true → w.pend = c.warp.pend ++ rs.map fun r => ⟨key, r, event, mask⟩
  moved : c.streamed = true → ∃ sp, w.split? c.cur.split = some sp ∧ sp.pc = c.next ∧ sp.mask = c.split.mask ∧
    sp.stack = c.split.stack
  freed : ∀ k, c.cur.clo = some k → w.closure? k = none

/-! ### Exceptions (R175, R272 to R276) -/

/-- The fields of a trap record in physical memory (R273): EPC, EADDR, EAUX, EMASK, CAUSE and SPLIT. -/
structure Recorded (t : State) (a : Nat) (epc eaddr : DWord) (eaux mask : Word) (cause split : Nat) : Prop where
  epc : t.homeNat a 8 = epc.toNat
  eaddr : t.homeNat (a + 8) 8 = eaddr.toNat
  eaux : t.homeNat (a + 16) 4 = eaux.toNat
  emask : t.homeNat (a + 20) 4 = mask.toNat
  cause : t.homeNat (a + 24) 1 = cause
  split : t.homeNat (a + 25) 1 % 4 = split % 4

/-- A user trap is delivered to the user handler (R175): the record is at %annbase + 2,048, %ucause holds the cause, and
the trapping split stands at %uvec with no bypass; no other warp changes. -/
structure EntersUser (s t : State) (c : Ctx) (cause : Nat) (byp : List Bypass)
    (epc eaddr : DWord) (eaux : Word) : Prop where
  record : ∀ a, s.userSlotOk c.grp c.warp = some a → isPeer (a + 63) = false → Recorded t a epc eaddr eaux c.cur.mask cause c.cur.split
  warp : ∃ w sp, t.warp? c.cur.gid c.cur.widx = some w ∧ w.ucause = BitVec.ofNat 32 cause ∧
    w.inu = some ⟨c.cur.split, c.cur.mask, byp, none, false⟩ ∧
    w.split? c.cur.split = some sp ∧ sp.pc = c.warp.uvec ∧ sp.mask = c.split.mask ∧ sp.stack = c.split.stack ∧ sp.bypass = [] ∧
    (∀ n, n ≠ c.cur.split → w.split? n = c.warp.split? n) ∧
    { w with splits := c.warp.splits, ucause := c.warp.ucause, inu := c.warp.inu } = c.warp
  others : ∀ g x, ¬ (g = c.cur.gid ∧ x = c.cur.widx) → t.warp? g x = s.warp? g x
  idle : t.cur = none

/-- A system trap is delivered to the kernel handler (R274): the record is in the warp's trap slot, and the trapping split
stands at KVEC with no bypass, inside the handler; no register changes and no other warp changes. -/
structure EntersKernel (s t : State) (c : Ctx) (cause : Nat) (byp : List Bypass)
    (epc eaddr : DWord) (eaux : Word) : Prop where
  record : isPeer (s.trapSlot c.grp.core c.warp.slot + 63) = false →
    Recorded t (s.trapSlot c.grp.core c.warp.slot) epc eaddr eaux c.cur.mask cause c.cur.split
  warp : ∃ w sp, t.warp? c.cur.gid c.cur.widx = some w ∧
    w.inh = some ⟨c.cur.split, c.split.mask, byp, none, false⟩ ∧ w.inu = none ∧
    w.split? c.cur.split = some sp ∧ sp.pc = (s.die (c.grp.core / 128)).kvec ∧ sp.mask = c.split.mask ∧
    sp.stack = c.split.stack ∧ sp.bypass = [] ∧
    (∀ n, n ≠ c.cur.split → w.split? n = c.warp.split? n) ∧
    { w with splits := c.warp.splits, inh := c.warp.inh, inu := c.warp.inu } = c.warp
  others : ∀ g x, ¬ (g = c.cur.gid ∧ x = c.cur.widx) → t.warp? g x = s.warp? g x
  idle : t.cur = none

/-- A system trap suspends a user warp (R274): the record is in the warp's trap slot (where no entry of the fault queue
overlaps it), no register of the warp changes and none of its splits but to wait no more, and the warp issues no more; no other
warp changes. -/
structure Suspends (s t : State) (c : Ctx) (cause : Nat) (epc eaddr : DWord) (eaux : Word) : Prop where
  record : let a := s.trapSlot c.grp.core c.warp.slot
    a + 64 ≤ keyBase →
    (∀ i < 65536, let e := (s.part c.grp.part).fqEntry i
      e + 32 ≤ keyBase ∧ (e + 32 ≤ a ∨ a + 64 ≤ e)) →
    Recorded t a epc eaddr eaux c.cur.mask cause c.cur.split
  warp : ∃ w, t.warp? c.cur.gid c.cur.widx = some w ∧ w.susp = some ⟨c.cur.split, c.cur.mask, [], none, false⟩ ∧
    (w.splits = c.warp.splits ∨ w.splits = (c.warp.updSplit c.cur.split fun x => { x with busy := none }).splits) ∧
    { w with susp := c.warp.susp, splits := c.warp.splits } = c.warp
  others : ∀ g x, ¬ (g = c.cur.gid ∧ x = c.cur.widx) → t.warp? g x = s.warp? g x
  idle : t.cur = none

/-- What an exception that an instruction of the stream takes leaves (R272 to R276): a user trap goes to the user handler
where one is ready (R175), every other to the kernel; a kernel warp that is no handler already goes to KVEC, and a user
warp is suspended. -/
structure TakesTrap (s t : State) (c : Ctx) (cause : Nat) (byp : List Bypass) (epc eaddr : DWord) (eaux : Word) : Prop where
  user : cause ≤ 8 → (s.userSlotOk c.grp c.warp).isSome = true → EntersUser s t c cause byp epc eaddr eaux
  kernel : 8 < cause ∨ s.userSlotOk c.grp c.warp = none → c.grp.kernel = true → c.warp.inh = none →
    (s.die (c.grp.core / 128)).kvec ≠ 0 → EntersKernel s t c cause byp epc eaddr eaux
  suspended : 8 < cause ∨ s.userSlotOk c.grp c.warp = none → c.grp.kernel = false → Suspends s t c cause epc eaddr eaux

/-- An exception of a closure's instruction is a CLOSURE_FAULT (R47): the record in the warp's trap slot (where no entry of the
fault queue overlaps it) holds cause 0x2A, the captured PC and mask, in EAUX the cause that underlies it, and the closure's
number; a kernel warp that is no handler goes to KVEC on its lowest split and a user warp is suspended; no register, pending bit
or closure changes, and no other warp does. -/
structure ClosureFaults (s t : State) (c : Ctx) (k cause : Nat) (eaddr : DWord) : Prop where
  record : c.grp.kernel = false ∨ (c.warp.inh = none ∧ (s.die (c.grp.core / 128)).kvec ≠ 0) →
    let a := s.trapSlot c.grp.core c.warp.slot
    k < 8 → a + 64 ≤ keyBase →
    (∀ i < 65536, let e := (s.part c.grp.part).fqEntry i
      e + 32 ≤ keyBase ∧ (e + 32 ≤ a ∨ a + 64 ≤ e)) →
    ∃ n, Recorded t a c.cur.pc eaddr (BitVec.ofNat 32 cause) c.cur.mask 0x2A n ∧ t.homeNat (a + 27) 1 = k + 8
  handled : c.grp.kernel = true → c.warp.inh = none → (s.die (c.grp.core / 128)).kvec ≠ 0 →
    ∃ w n m byp sp, t.warp? c.cur.gid c.cur.widx = some w ∧ w.inh = some ⟨n, m, byp, some k, false⟩ ∧ w.inu = none ∧
      w.split? n = some sp ∧ sp.pc = (s.die (c.grp.core / 128)).kvec ∧
      { w with splits := c.warp.splits, inh := c.warp.inh, inu := c.warp.inu } = c.warp
  suspended : c.grp.kernel = false → ∃ w n, t.warp? c.cur.gid c.cur.widx = some w ∧
    w.susp = some ⟨n, c.cur.mask, [], some k, false⟩ ∧ { w with susp := c.warp.susp } = c.warp
  others : ∀ g x, ¬ (g = c.cur.gid ∧ x = c.cur.widx) → t.warp? g x = s.warp? g x
  idle : t.cur = none

/-- An instruction of the stream raises a precise exception (R272): EPC is its own address, and nothing that it would have
written is written. -/
def Raises (s : State) (i : Instr) (c : Ctx) (cause : Nat) (fields : DWord → Word → Prop) : Prop :=
  ∃ t eaddr eaux, exec i s = .next t ∧ fields eaddr eaux ∧
    (c.cur.clo = none → TakesTrap s t c cause c.split.bypass c.cur.pc eaddr eaux)

/-! ### Accesses (R218 to R221) -/

/-- The place of an effective address: scratch, or what translation gives. -/
def State.placeOf (s : State) (g : Group) (wr : Bool) (e : Ea) : Option Loc :=
  match e.loc with
  | some l => some l
  | none =>
    match s.translate g.core g.asid (if wr then .write else .read) e.va with
    | .ok a => some (.phys a)
    | .bad _ => none

/-- No check of an access fails (R218, R151, R322): every address is aligned, inside its space, translated, outside every
locked range and, for a plain access to far memory, no race. -/
structure Accessible (s : State) (c : Ctx) (p : Space) (n : Nat) (wr plain : Bool) (es : List Ea) : Prop where
  aligned : ∀ e ∈ es, e.mis = false
  inside : ∀ e ∈ es, e.prot = false
  mapped : ∀ e ∈ es, s.placeOf c.grp wr e ≠ none
  unlocked : ∀ e ∈ es, s.lockedAt c.grp p e n = false
  raceless : plain = true → p = .g → ∀ e ∈ es, ∀ l, s.placeOf c.grp wr e = some l → s.raceOf c.grp (e, l) = none

/-- What the taking of an exception leaves as it was (R218): scratch, the values in flight but those of registered pops of feeds, and
the stores of every core but those whose bytes a trap record replaces. -/
structure Untouched (s t : State) : Prop where
  sram : ∀ g a, t.locByte (.sram g a) 0 = s.locByte (.sram g a) 0
  nram : ∀ g a, t.locByte (.nram g a) 0 = s.locByte (.nram g a) 0
  stores : ∀ k, (t.core k).stores.Sublist (s.core k).stores
  flying : (t.flys.map fun f => f.id) = s.flys.map fun f => f.id
  flys : ∀ f ∈ s.flys, (∀ x ∈ s.feeds, ∀ p ∈ x.pops, p.fly ≠ f.id) → f ∈ t.flys

/-- The exceptions of an access to the addresses of its lanes, in the order of their checks (R151, R218, R317, R322): of one kind
that of the lowest lane, with EADDR its address, and nothing performed. -/
def AccessTraps (s : State) (i : Instr) (c : Ctx) (p : Space) (n : Nat) (wr plain : Bool) (es : List Ea) : Prop :=
  let traps := fun (k : Nat) (va : DWord) (aux : Option Word) =>
    Raises s i c k (fun a e => a = va ∧ ∀ v, aux = some v → e = v) ∧ ∀ t, exec i s = .next t → Untouched s t
  let clean := ∀ q ∈ es, q.mis = false ∧ q.prot = false
  let mapped := ∀ q ∈ es, s.placeOf c.grp wr q ≠ none
  ∀ u e v, es = u ++ e :: v →
    ((∀ q ∈ u, q.mis = false) → e.mis = true → traps 0x26 e.va none) ∧
    ((∀ q ∈ es, q.mis = false) → (∀ q ∈ u, q.prot = false) → e.prot = true → traps 0x25 e.va none) ∧
    (∀ f, c.kindOne = false → clean → (∀ q ∈ u, s.placeOf c.grp wr q ≠ none) → e.loc = none →
      s.translate c.grp.core c.grp.asid (if wr then .write else .read) e.va = .bad f → traps f.cause f.va none) ∧
    (clean → mapped → (∀ q ∈ u, s.lockedAt c.grp p q n = false) → s.lockedAt c.grp p e n = true → traps 3 e.va none) ∧
    (∀ l d, plain = true → p = .g → (s.part c.grp.part).racecfg.getLsbD 1 = false → clean → mapped →
      (∀ q ∈ es, s.lockedAt c.grp p q n = false) →
      (∀ q ∈ u, ∀ k, s.placeOf c.grp wr q = some k → s.raceOf c.grp (q, k) = none) → s.placeOf c.grp wr e = some l →
      s.raceOf c.grp (e, l) = some d → traps 4 e.va (some (BitVec.ofNat 32 d)))

/-- A load that no check stops (R219, R220): its destinations are pending under a number, and the value of every lane whose
place is in this module and follows no unperformed write of the warp (R46) is in flight under that number. With no active
lane it does nothing. -/
def Reads (s : State) (i : Instr) (c : Ctx) (m : Option Modifier) (p : Space) (z : LdSize) (rs : List Nat) (ea : Nat → Ea) :
    Prop :=
  (c.accLanes m = [] → Completes s i c m false [] flag0) ∧
  (c.accLanes m ≠ [] → s.fly? (c.key s) = none → Accessible s c p z.bytes false true ((c.accLanes m).map ea) →
    ∃ t w f, exec i s = .next t ∧
      OnlyWarp { s with flys := t.flys, ops := t.ops, messages := t.messages, uid := t.uid } t c.cur.gid c.cur.widx w ∧
      Started c (c.key s) false (c.actMask m) rs w ∧
      t.fly? (c.key s) = some f ∧ f.gid = c.cur.gid ∧ f.widx = c.cur.widx ∧ f.mask = c.actMask m ∧
      (f.vals.map fun p => p.1) = rs ∧
      ∀ l ∈ c.accLanes m, ∀ a, s.placeOf c.grp false (ea l) = some a → a.peer = false →
        s.writeBehind c.cur.gid c.cur.widx a z.bytes = 0 → ∀ k < 32, (c.served m l).getLsbD k = true → f.ready.getLsbD k = true ∧
          ∀ j < rs.length, ((f.vals.getD j (0, [])).2).getD k 0 = (z.words (s.loadNat c.grp.core c.grp.part a z.bytes)).getD j 0)

/-- Nothing that a warp has issued before still waits for its turn to perform (R46, R144): a memory-writing instruction of
the warp performs at once. -/
structure Settled (s : State) (gid widx : Nat) : Prop where
  queue : ∀ q ∈ s.queue, ¬ (q.gid = gid ∧ q.widx = widx)
  performed : s.unperformed gid widx = false

/-- A captured instruction of a warp comes before what the warp does now: before the closure that runs, or before the stream. -/
def State.Ahead (s : State) (gid widx : Nat) (k : Closure) : Prop := ∀ r, s.running? gid widx = some r → k.born < r.born

/-- The turn of what an instruction of a warp does has come: nothing of the warp stands before it, and where it orders as a
FENCE does no read of a future or of scratch is under way, and none is captured before it, nor a write (R46, R144, R146). -/
def State.Turn (s : State) (gid widx : Nat) (a : Act) : Prop :=
  Settled s gid widx ∧ (a.fences = true → s.unread gid widx = false ∧
    ∀ w, s.warp? gid widx = some w → ∀ k ∈ w.closures, (k.runs fun i => i.memWriting || i.fenced) = true → ¬ s.Ahead gid widx k)

/-- What an instruction of a warp does must wait: something of the warp that comes before it is in the queue or unperformed, or
a read or write that a FENCE must follow (R46, R144, R146). -/
def State.Waits (s : State) (gid widx : Nat) (a : Act) : Prop :=
  (∃ q ∈ s.queue, q.gid = gid ∧ q.widx = widx ∧ q.born ≤ s.bornNow gid widx) ∨ s.gated gid widx (s.bornNow gid widx) a = true

/-- A memory-writing instruction that follows unperformed ones of its warp takes its turn behind them, and neither its issue
nor its retirement waits (R46, R144). Its release keeps its place among those of the core (R139). -/
def TakesTurn (s t : State) (gid widx : Nat) (a : Act) : Prop :=
  s.Waits gid widx a → ∃ q ∈ t.queue, q.gid = gid ∧ q.widx = widx ∧ q.act = a ∧
    ∀ n g, a.releases = some n → s.group? gid = some g →
      ∃ r ∈ (t.core g.core).relq, q.rel = some r.id ∧ r.isOpen = true ∧ r.scope = n

/-- An instruction completes by doing something in its turn: at once, which leaves `s'`, or from the queue (R46, R144). -/
def DoesInTurn (s : State) (i : Instr) (c : Ctx) (a : Act) (s' : State) : Prop :=
  ∃ t, exec i s = .next t ∧ TakesTurn s t c.cur.gid c.cur.widx a ∧
    (s.Turn c.cur.gid c.cur.widx a → Done s' t c none false [] flag0) ∧
    (s.Waits c.cur.gid c.cur.widx a → Done { s with queue := t.queue, cores := t.cores, uid := t.uid } t c none false [] flag0 ∧
      ∀ k, k ≠ c.grp.core → t.core k = s.core k)

/-- How far into a stored range a byte lies. -/
def Loc.within (p q : Loc) : Option Nat :=
  match p, q with
  | .phys a, .phys b => if a ≤ b then some (b - a) else none
  | .sram g a, .sram h b => if g = h ∧ a ≤ b then some (b - a) else none
  | .nram g a, .nram h b => if g = h ∧ a ≤ b then some (b - a) else none
  | _, _ => none

/-- The byte that stores, in their order, leave at a place; none where no store reaches it. -/
def storedAt (ws : List (Loc × List Byte)) (q : Loc) : Option Byte :=
  ws.foldl (fun r p => match (p.1.within q).bind fun i => p.2[i]? with | some b => some b | none => r) none

/-- A store that no check stops (R221, R137) completes: where its turn has come every active lane's bytes are at its place, in
ascending lane order, for the issuing core; every other byte of scratch and of far memory reads as before; what other cores
read, and the home copies, change only when a release lands. Behind unperformed writes of its warp it takes its turn. -/
def StoresAt (s : State) (i : Instr) (c : Ctx) (m : Option Modifier) (p : Space) (n : Nat) (ea : Nat → Ea)
    (val : Nat → Nat) : Prop :=
  (c.act m = [] → Completes s i c none false [] flag0) ∧
  (c.act m ≠ [] → Accessible s c p n true true ((c.act m).map ea) →
    let ws := (c.act m).filterMap fun l => (s.placeOf c.grp true (ea l)).map fun a => (a, natBytes n (val l))
    ∃ t w, exec i s = .next t ∧ t.warp? c.cur.gid c.cur.widx = some w ∧ Completed c none false [] flag0 w ∧
      (∀ g x, ¬ (g = c.cur.gid ∧ x = c.cur.widx) → t.warp? g x = s.warp? g x) ∧
      TakesTurn s t c.cur.gid c.cur.widx (.store ws) ∧
      (Settled s c.cur.gid c.cur.widx →
      (∀ g a, t.locByte (.sram g a) 0 = (storedAt ws (.sram g a)).getD (s.locByte (.sram g a) 0)) ∧
      (∀ g a, t.locByte (.nram g a) 0 = (storedAt ws (.nram g a)).getD (s.locByte (.nram g a) 0)) ∧
      (∀ a, t.farByte c.grp.core c.grp.part a = (storedAt ws (.phys a)).getD (s.farByte c.grp.core c.grp.part a)) ∧
      (∀ k, k ≠ c.grp.core → t.core k = s.core k) ∧
      { t with groups := s.groups, cores := s.cores, uid := s.uid, shadow := s.shadow, cur := s.cur } = s))

/-- A batch of transactions is on its way to its engine once an instruction has issued: sent, where no release is asked for;
behind its release at the scope asked for, wider only where a line that it writes is watched (R143, R150); or in its turn, where
that has not come, behind earlier writes of its warp (R46, R91). -/
def OnTheWay (s t : State) (c : Ctx) (rel : Option Scope) (b : Batch) : Prop :=
  (rel = none ∧ b ∈ t.batches) ∨
  (∃ x, rel = some x ∧ ∃ r ∈ (t.core c.grp.core).relq, After.send b ∈ r.after ∧ r.isOpen = false ∧
    (r.scope = scopeNum x ∨ (scopeNum x = 5 ∧ r.scope = 6))) ∨
  (∃ bs, b ∈ bs ∧ ¬ s.Turn c.cur.gid c.cur.widx (.send rel bs) ∧
    ∃ q ∈ t.queue, q.gid = c.cur.gid ∧ q.widx = c.cur.widx ∧ q.act = .send rel bs)

/-- A batched instruction that no check stops (R91, R224): its destinations are pending, the answers of its lanes are
awaited, and every lane's transaction is on its way to the engine of its place. -/
def Sends (s : State) (i : Instr) (c : Ctx) (k : TxKind) (mask : Word) (rs : List Nat) (ls : List Nat) (left : Nat) (wr : Bool)
    (rel : Option Scope) (ea : Nat → Ea) (y n : Nat → DWord) : Prop :=
  ∃ t w f, exec i s = .next t ∧ t.warp? c.cur.gid c.cur.widx = some w ∧ Started c (c.key s) false mask rs w ∧
    (∀ g x, ¬ (g = c.cur.gid ∧ x = c.cur.widx) → t.warp? g x = s.warp? g x) ∧ t.mem = s.mem ∧
    t.fly? (c.key s) = some f ∧ f.left = left ∧ f.mask = mask ∧ (f.vals.map fun p => p.1) = rs ∧
    ∀ l ∈ ls, ∀ a, s.placeOf c.grp wr (ea l) = some a → a.peer = false → s.locEngine a < portEngine →
      ∃ b, OnTheWay s t c rel b ∧ b.fly = c.key s ∧ b.kind = k ∧ b.engine = s.locEngine a ∧ ⟨l, a, y l, n l⟩ ∈ b.txs

/-! ### Engines -/

/-- The byte that the signal of an operation puts at a byte of a group's scratch, where it is a completion word there (R247):
its value, or the failure of the status. -/
def Signal.wordByte (x : Option Signal) (status gid b : Nat) : Option Byte :=
  match x with
  | none => none
  | some y =>
    let w := y.sig.toNat % 2 ^ 20
    if y.sig.getLsbD 31 = true ∧ y.gid = gid ∧ w ≤ b ∧ b < w + 4 then
      (natBytes 4 (if status = 0 then y.val else 0xFFFFFF00 + BitVec.ofNat 32 status).toNat)[b - w]?
    else none

/-- What a signal that names a barrier gives (R231, R247): one engine arrival, here toward a phase that it does not complete. -/
def Arrives (s t : State) (x : Option Signal) : Prop :=
  ∀ y g o key z, x = some y → y.sig.getLsbD 31 = false → s.group? y.gid = some g →
    s.barOf g (y.sig.toNat % 16) = some (o, key, z) → s.group? o.gid = some o → z.ea0 + 1 < z.ee0 →
    ∃ h, t.group? o.gid = some h ∧ smGet Bar.fresh h.bars key = { z with ea0 := z.ea0 + 1 }

/-- The conditions of R251 under which MLOOP or MGRP is queued, outside a chain: the descriptor's weights and activations
are reservations of the engine, of a pairing that R113 allows; no range that it names is being written or lies outside
its reservation; and its rows fit. -/
structure LoopOk (s : State) (c : Ctx) (d : LoopDesc) (table : List (Nat × Nat)) (w a : Resv) : Prop where
  zero : d.mbz = 0
  alone : (c.mx s).chainAhead ≤ 1
  weight : (c.mx s).named d.wid = some w
  weights : w.weights = true
  active : (c.mx s).named d.aid = some a
  activations : a.weights = false
  pairing : pairingOk (fmtAt a.fmt) (fmtAt w.fmt) = true
  unlocked : ∀ l ∈ (s.core c.grp.core).locks, l.space ≠ 3
  rows : d.row0 + rowsOf (d.groups table) ≤ 512
  weightIn : ∀ p ∈ d.weightRanges w (integerMode (fmtAt a.fmt) (fmtAt w.fmt)) (d.groups table), p.1 + p.2 ≤ w.bytes
  activeIn : ∀ p ∈ d.actRanges a (integerMode (fmtAt a.fmt) (fmtAt w.fmt)) (rowsOf (d.groups table)), p.1 + p.2 ≤ a.bytes

/-- A record of n bytes that an instruction reads at issue as a far load of a lane, in this module's memory (R219, R253). -/
def ReadsRecord (s : State) (c : Ctx) (a n l v : Nat) : Prop :=
  Accessible s c .g n false true [c.ea s .g a 0 n l] ∧
  ∃ p, s.placeOf c.grp false (c.ea s .g a 0 n l) = some (.phys p) ∧ isPeer p = false ∧ v = readNat (s.farByte c.grp.core c.grp.part) p n

/-- The conditions of R123 to R126, R253 and R254 under which CPY.L or CPY.S is accepted. -/
structure CopyOk (s : State) (c : Ctx) (x : CopyBox) (d : Dest) : Prop where
  rank : 1 ≤ x.lay.rank ∧ x.lay.rank ≤ 5
  zero : x.lay.mbz = 0 ∧ d.mbz = false
  whole : x.coord 0 % (packGroup (fmtWidth x.far) : Nat) = 0
  blocks : x.far.scaled = true ∨ x.near.scaled = true → x.coord 0 % (blockLen x.lay.blk : Nat) = 0 ∧
    x.lay.box.getD 0 1 % blockLen x.lay.blk = 0 ∧ (x.lay.base + BitVec.ofInt 64 x.lay.scoff).toNat % 4 = 0
  side : d.kind = 0 ∨ (d.kind = 1 ∧ x.store = false)
  aligned : d.off % 16 = 0
  formats : x.lay.fmt ≤ 23 ∧ x.lay.cfmt ≤ 23 ∧ pairOk x.src x.dst = true
  scratch : d.kind = 0 → d.off + x.nearLen ≤ c.grp.sBytes ∧ c.grp.swizzleAt d.off x.nearLen = some x.lay.swz
  buffer : d.kind = 1 → (c.mx s).owner = some c.grp.gid ∧
    ∃ r, (c.mx s).named d.rid = some r ∧ d.off + x.nearLen ≤ r.bytes
  room : (s.copyQueue c.grp.core).length < 32 ∧ s.lockRoom c.grp.core (if x.farRange = none then 1 else 2) = true

/-- A network operation's remote operand: an address in a window of another module (R259). -/
def RemoteAt (s : State) (c : Ctx) (wr : Bool) (a l p : Nat) : Prop :=
  canonical (c.pair a l) = true ∧
  s.translate c.grp.core c.grp.asid (if wr then .write else .read) (c.pair a l) = .ok p ∧ isPeer p = true

/-- The local range of a network or storage operation is one that it may name (R259). -/
def LocalOk (s : State) (c : Ctx) (wr : Bool) (va : DWord) : Prop :=
  canonical va = true ∧
  ∀ p, s.translate c.grp.core c.grp.asid (if wr then .write else .read) va = .ok p → isPeer p = false

/-- An operation of the signal form starts: it joins the state with its range locked, its message yet to go out, and the
instruction answers 0. -/
def StartsSignalled (s : State) (i : Instr) (c : Ctx) (m : Option Modifier) (d : Nat) (k : OpKind) (sig : Signal) (lo n : Nat) :
    Prop :=
  ∃ t o, exec i s = .next t ∧ o.kind = k ∧ o.signal = some sig ∧ (c.cur.clo = none → o.id = s.uid) ∧ o.gid = c.grp.gid ∧ o.core = c.grp.core ∧
    o.laddr = lo ∧ o.len = n ∧ o.fly = 0 ∧ o.out = none ∧
    Done (s.startOp o (farLock c lo n o.id)) t c m false [(d, fun _ => 0)] flag0

/-- An operation of the register form starts: its registers are pending until it lands, and its message is yet to go out. -/
def StartsPending (s : State) (i : Instr) (c : Ctx) (m : Option Modifier) (rs : List Nat) (event : Bool) (k : OpKind) : Prop :=
  ∃ t w f o, exec i s = .next t ∧
    OnlyWarp { s with flys := t.flys, ops := s.ops ++ [o], cores := t.cores, uid := t.uid } t c.cur.gid c.cur.widx w ∧
    o.out = none ∧
    Started c (c.key s) event (c.actMask m) rs w ∧ t.fly? (c.key s) = some f ∧ f.ready = 0 ∧ f.mask = c.actMask m ∧
    (f.vals.map fun p => p.1) = rs ∧ o.kind = k ∧ o.fly = c.key s ∧ o.signal = none ∧ o.gid = c.grp.gid ∧ o.core = c.grp.core

/-- The sender of a request is admitted (R332): it is a peer of the partition with its ASID and job key, the address space
is live, and every byte translates into this module's memory. -/
structure Admitted (s : State) (r : RemoteReq) (acc : Access) (n : Nat) (m : VaMap) : Prop where
  partition : (s.part r.part).live = true
  peer : ∃ i < 256, s.peerValid r.part i = true ∧ (s.peerFields (256 * r.part + i)).peer = r.peer ∧
    (s.peerFields (256 * r.part + i)).rasid = r.senderAsid ∧ (s.peerFields (256 * r.part + i)).job = r.job
  live : (s.context r.asid).state = .live ∧ (s.context r.asid).part = r.part
  canon : canonical r.addr = true
  mapped : s.mapRanges portCore r.asid acc [(r.addr.toNat, n)] = .ok m
  here : ∀ p ∈ m, isPeer p.2 = false

/-! ### Numbers -/

/-- Whether an F32 pattern is a zero, a subnormal or a normal number (R53). -/
def f32Finite (w : Word) : Prop := (w.extractLsb' 23 8).toNat < 255

/-- The value of a finite F32 pattern, times 2^149: an integer (R53). -/
def f32Scaled (w : Word) : Int :=
  let e := (w.extractLsb' 23 8).toNat
  let f := (w.extractLsb' 0 23).toNat
  let v : Nat := (if e = 0 then f else 2 ^ 23 + f) * 2 ^ (max e 1 - 1)
  if w.getLsbD 31 then -(v : Int) else v

/-- A finite F32 pattern is the rounding to nearest, ties to even, of the exact value x / 2^(149 + k) (R64). -/
def f32Nearest (k : Nat) (x : Int) (r : Word) : Prop :=
  f32Finite r ∧ ∀ y, f32Finite y →
    (2 ^ k * f32Scaled r - x).natAbs ≤ (2 ^ k * f32Scaled y - x).natAbs ∧
    ((2 ^ k * f32Scaled r - x).natAbs = (2 ^ k * f32Scaled y - x).natAbs → f32Scaled y ≠ f32Scaled r → r.getLsbD 0 = false)

/-- The F32 result of an exact value x / 2^(149 + k) and its inexact flag (R64, R65): the nearest number, or an infinity of
its sign from half a step above the largest number on. -/
def f32Result (k : Nat) (x : Int) (r : Word × Flags) : Prop :=
  (x.natAbs < 2 ^ k * ((2 ^ 25 - 1) * 2 ^ 252) → f32Nearest k x r.1 ∧ r.2.getLsbD 0 = decide (2 ^ k * f32Scaled r.1 ≠ x)) ∧
  (2 ^ k * ((2 ^ 25 - 1) * 2 ^ 252) ≤ x.natAbs → r.1 = (if 0 < x then 0x7F800000 else 0xFF800000) ∧ r.2.getLsbD 2 = true)

/-- Whether a code of a format with infinities, of eb exponent and mb fraction bits, is a zero, a subnormal or a normal number
(R53). -/
def fpFinite (eb mb c : Nat) : Prop := c < 2 ^ (1 + eb + mb) ∧ c / 2 ^ mb % 2 ^ eb + 1 < 2 ^ eb

/-- The number of powers of two by which the numbers of such a format are scaled to integers: its smallest is 2^-K (R53). -/
def fpScale (eb mb : Nat) : Nat := 2 ^ (eb - 1) + mb - 2

/-- The value of a number's code, times 2^K: an integer (R53). -/
def fpScaled (eb mb c : Nat) : Int :=
  let e := c / 2 ^ mb % 2 ^ eb
  let f := c % 2 ^ mb
  let v : Nat := (if e = 0 then f else 2 ^ mb + f) * 2 ^ (max e 1 - 1)
  if c / 2 ^ (eb + mb) % 2 = 1 then -(v : Int) else v

/-- Of the codes that `ok` names, one is the rounding to nearest, ties to even, of the exact value x / 2^(K + k) (R64). -/
def fpNearest (eb mb k : Nat) (ok : Nat → Prop) (x : Int) (r : Nat) : Prop :=
  ok r ∧ ∀ y, ok y →
    (2 ^ k * fpScaled eb mb r - x).natAbs ≤ (2 ^ k * fpScaled eb mb y - x).natAbs ∧
    ((2 ^ k * fpScaled eb mb r - x).natAbs = (2 ^ k * fpScaled eb mb y - x).natAbs → fpScaled eb mb y ≠ fpScaled eb mb r → r % 2 = 0)

/-- The code of an exact value x / 2^(K + k) in a format with infinities (R64, R65): the nearest number, or an infinity of its
sign from half a step above the largest number on. -/
def fpRounded (eb mb k : Nat) (x : Int) (r : Nat) : Prop :=
  let top := 2 ^ k * ((2 ^ (mb + 2) - 1) * 2 ^ (2 ^ eb - 4))
  (x.natAbs < top → fpNearest eb mb k (fpFinite eb mb) x r) ∧
  (top ≤ x.natAbs → r = (2 ^ eb - 1) * 2 ^ mb + (if 0 < x then 0 else 2 ^ (eb + mb)))

/-- The integer nearest to x / 2^k, ties to even (R64, R66). -/
def intNearest (k : Nat) (x n : Int) : Prop :=
  2 * (2 ^ k * n - x).natAbs ≤ 2 ^ k ∧ (2 * (2 ^ k * n - x).natAbs = 2 ^ k → n % 2 = 0)

end Sys2Proof.Machine
end

