-- ==== Sys2Proof/Certificates/Slice0/Obligations.lean ====
section
/-! DEFINITION. The statements for the provers, each from the numbered rules of spec/ that its docstring cites. -/

open Sys2Proof Sys2Proof.Machine

/-! ### Decoding -/

/-- Words of the spec's encodings, read bit by bit: each decodes to the instruction that it stands for. -/
def Obligations.DecodeSanity : Prop :=
  decode 0x1062#32 0 = .ok (.add16 ⟨3, 4⟩, 2) ∧
  decode 0x001E#32 0 = .ok (.nop, 2) ∧
  decode 0x83009419#32 0 = .ok (.addi ⟨0x28, 2, 0x418, none⟩, 4) ∧
  decode 0xFFD90349#32 0 = .ok (.bra ⟨.nz, 6, 0x7FEC⟩, 4) ∧
  decode 0x02200355#32 0 = .ok (.mfu ⟨.cycles, 6, none⟩, 4) ∧
  decode 0x504042AD#32 0 = .ok (.fmaxBf16x2 ⟨5, 1, 2, false, none⟩, 4) ∧
  decode 0x104042B7#32 0 = .ok (.unpk ⟨5, 1, 2, none⟩, 4) ∧
  decode 0x0C204133#32 0 = .ok (.cvt ⟨.f16, .e4m3, false, 2, 1, none⟩, 4) ∧
  decode 0x10600065#32 0 = .ok (.barArv ⟨3, none⟩, 4) ∧
  decode 0x0040027D#32 0 = .ok (.mfsr ⟨.ktrb, 4⟩, 4) ∧
  decode 0x1021807D#32 0 = .ok (.mtsr ⟨.kvec, 6⟩, 4) ∧
  decode 0x030501F5#32 0x000004FF#32 = .ok (.cpyL ⟨3, 0x14, 0x18,
    some ⟨.nearest, 0, false, false, false, false, false, false, false, false, false, 9⟩⟩, 8) ∧
  decode 0x00000001#32 0 = .error (.illegal 1)

/-- R152 to R157: a well-formed instruction of the opcode table, with each operand at every value that its fields allow, is
read back from its own bytes, whatever follows them (but a modifier word behind a 32-bit instruction without one, which would be
that instruction's). Rows that share one word, which a control word tells apart only when it runs (FQANS, KSLOT, SCRUB, PART, FMAP,
ASIDQ), are read back as the first of them (Instr.firstRow): that is log 46, the model's choice. -/
def Obligations.DecodeEncodeRoundTrip : Prop := ∀ i : Instr, Laws.Roundtrip.Statement i

/-- R152 to R159: whatever the decoder reads is a well-formed instruction of the table, and the words that it was read
from are that instruction's own. -/
def Obligations.EncodeDecodeRoundTrip : Prop := ∀ (w n : Word) (i : Instr) (len : Nat), decode w n = .ok (i, len) →
  i.encoded = true ∧ i.wf = true ∧ (len = 2 ∨ len = 4 ∨ len = 8) ∧ encode i = natBytes len (n ++ w).toNat

/-! ### A step, and the checks before an instruction -/

/-- A step runs the decoded instruction: where the agenda names a warp whose turn it is (R305) and that has nothing pending,
captured or under way, and no store that a scratch operand must follow (R359), a step is exec of the instruction that the bytes at the PC of its first split decode to (a control
word selecting among the rows of one word), followed by what needs no further event and the clock.
Its corners that the spec leaves open follow log 3, log 46, log 47; those clauses are the model's choice. -/
def Obligations.StepRunsDecoded : Prop :=
  (∀ (s : State) (gid widx : Nat) (rest : List Choice) (g : Group) (w : Warp) (sp : Split) (k : List Split) (i : Instr)
      (len : Nat) (iw mw : Word),
    let s0 := { s with agenda := rest }
    let cur := sp.cur gid w len iw mw
    let c : Ctx := ⟨cur, g, w, sp⟩
    s.agenda = .issue gid widx :: rest → s.group? gid = some g → s.warp? gid widx = some w → issuing g w = true →
    w.closures = [] → w.pend = [] → s.drives = [] → w.yld = none → s0.mergeJoins g w = w → w.offered = sp :: k →
    w.split? sp.num = some sp → sp.busy = none → s0.fetchInstr g sp.pc = .ok i len iw mw → i ≠ .join →
    { s0 with cur := some cur }.awaitsStore c (c.selected i) = false → s0.mayIssue gid widx = true →
    step s = match exec (c.selected i) (({ s0 with cur := some cur }).noteIssue gid widx) with
      | .next t => .next (State.endStep s t)
      | .fault f => .fault f
      | .refused r => .refused r) ∧
  (∀ (s : State) (g : Group) (pc : DWord) (h0 h1 h2 h3 : BitVec 16) (i : Instr) (len : Nat),
    let w := h1 ++ h0
    let n := if isModifier (h3 ++ h2) then h3 ++ h2 else 0
    s.fetchHalf g pc = .ok h0 → s.fetchHalf g (pc + 2) = .ok h1 → s.fetchHalf g (pc + 4) = .ok h2 →
    s.fetchHalf g (pc + 6) = .ok h3 → h0.getLsbD 0 = true → pc.extractLsb' 0 2 = 0 → isModifier w = false →
    (majorOf w = 0x3E → g.kernel = true) → decode w n = .ok (i, len) → s.fetchInstr g pc = .ok i len w n) ∧
  (∀ (s : State) (g : Group) (pc : DWord) (h : BitVec 16) (i : Instr),
    s.fetchHalf g pc = .ok h → h.getLsbD 0 = false → decodeHalf h = some i → s.fetchInstr g pc = .ok i 2 (h.setWidth 32) 0) ∧
  (∀ (s : State) (g : Group) (pc : DWord) (a : Nat), canonical pc = true → s.translate g.core g.asid .fetch pc = .ok a →
    s.fetchHalf g pc = .ok (BitVec.ofNat 16 (s.homeNat a 2)))

/-- R152, R157, R159, R160: a split whose fetch fails takes the exception before anything else: PROTECTION outside the canonical
addresses, the fault of the translation of its own word, and of the word that follows it with EADDR that word, ORPHAN_MODIFIER,
PRIVILEGE outside kernel mode and ILLEGAL, with EPC its PC; a 32-bit word at a PC that is 2 above a multiple of 4 is ILLEGAL; a
branch or TSPAWN whose target is bad traps for the target before the ILLEGAL of its encoding.
Its corners that the spec leaves open follow log 10, log 15, log 29, log 82; those clauses are the model's choice. -/
def Obligations.FetchTraps : Prop := ∀ (s : State) (g : Group) (w : Warp) (sp : Split),
  s.group? g.gid = some g → g.warp? w.idx = some w → w.split? sp.num = some sp → s.splitBusy g.gid w.idx sp = false →
  let c : Ctx := ⟨sp.cur g.gid w 4 0 0, g, w, sp⟩
  let takes := fun (cause : Nat) (fields : DWord → Word → Prop) => ∃ t eaddr eaux, s.planSplit g w sp = .take t ∧
    fields eaddr eaux ∧ TakesTrap s t c cause sp.bypass sp.pc eaddr eaux
  (canonical sp.pc = false → takes 0x25 fun a _ => a = sp.pc) ∧
  (∀ f, canonical sp.pc = true → s.translate g.core g.asid .fetch sp.pc = .bad f → takes f.cause fun a _ =>
    f.cause ∈ ([0x24, 0x25] : List Nat) → a = sp.pc) ∧
  (∀ h, s.fetchHalf g sp.pc = .ok h → h.getLsbD 0 = false → decodeHalf h = none →
    takes 0x20 fun a e => a = sp.pc ∧ e = h.setWidth 32) ∧
  (∀ h, s.fetchHalf g sp.pc = .ok h → h.getLsbD 0 = true → sp.pc.extractLsb' 0 2 ≠ 0 →
    takes 0x20 fun a e => a = sp.pc ∧ e = h.setWidth 32) ∧
  (∀ h0 k f, s.fetchHalf g sp.pc = .ok h0 → h0.getLsbD 0 = true → sp.pc.extractLsb' 0 2 = 0 → ∀ d ∈ ([2, 4, 6] : List DWord),
    (∀ e ∈ ([2, 4] : List DWord), e.toNat < d.toNat → ∃ h, s.fetchHalf g (sp.pc + e) = .ok h) →
    s.fetchHalf g (sp.pc + d) = .error (k, f) → takes k fun a _ => k ∈ ([0x24, 0x25] : List Nat) → a = sp.pc + d) ∧
  (∀ h0 h1 h2 h3, s.fetchHalf g sp.pc = .ok h0 → s.fetchHalf g (sp.pc + 2) = .ok h1 → s.fetchHalf g (sp.pc + 4) = .ok h2 →
    s.fetchHalf g (sp.pc + 6) = .ok h3 → h0.getLsbD 0 = true → sp.pc.extractLsb' 0 2 = 0 →
    let word := h1 ++ h0
    let n := if isModifier (h3 ++ h2) then h3 ++ h2 else 0
    (isModifier word = true → takes 0x22 fun a _ => a = sp.pc) ∧
    (majorOf word = 0x3E → g.kernel = false → takes 0x23 fun a e => a = sp.pc ∧ e = word) ∧
    let early := (branchOf word (h3 ++ h2)).bind fun i => s.earlyTarget ⟨sp.cur g.gid w 4 word (h3 ++ h2), g, w, sp⟩ i
    (∀ x t, isModifier word = false → majorOf word ≠ 0x3E → decode word n = .error x → early = some t →
      takes t.1 fun a _ => a = t.2.1) ∧
    (∀ x, isModifier word = false → (majorOf word = 0x3E → g.kernel = true) → decode word n = .error x →
      early = none → takes 0x20 fun a e => a = sp.pc ∧ e = word))

/-- R26, R160, R283, R348: every instruction of the table is checked before it does anything: a misaligned or orphan target of
a branch, a misaligned entry of a spawn, PRIVILEGE for a privileged one outside kernel mode, ILLEGAL for a register beyond the
window, POISON for a poisoned source, in this order.
R47: an exception of a closure's instruction, whichever it is, is a CLOSURE_FAULT, cause 0x2A, with EAUX the cause that underlies it.
Its corners that the spec leaves open follow log 15, log 29; those clauses are the model's choice. -/
def Obligations.ChecksAtIssue : Prop := (∀ (s : State) (c : Ctx) (k : Nat) (x : Trap), issuer? s = some c → c.cur.clo = some k →
  ClosureFaults s (takeTrap s c.cur x) c k x.cause (if eaddrRaising x.cause then x.epc else x.eaddr)) ∧
  ∀ (s : State) (i : Instr) (c : Ctx), i.encoded = true → issuer? s = some c →
  (∀ k, c.cur.clo = some k → c.poison? i ≠ none → s.earlyTarget c i = none → (i.privileged = true → c.grp.kernel = true) →
    c.beyond i = false → ∃ t, exec i s = .next t ∧ ClosureFaults s t c k 0x27 c.cur.pc) ∧
  (∀ x, s.earlyTarget c i = some x → (x.1 = 0x21 ∨ x.1 = 0x22) ∧ Raises s i c x.1 fun a _ => c.cur.clo = none → a = x.2.1) ∧
  (s.earlyTarget c i = none →
  (i.privileged = true → c.grp.kernel = false → Raises s i c 0x23 fun a e => a = c.cur.pc ∧ e = c.cur.iword) ∧
  ((i.privileged = true → c.grp.kernel = true) → c.beyond i = true →
    Raises s i c 0x20 fun a e => a = c.cur.pc ∧ e = c.cur.iword) ∧
  (∀ r, (i.privileged = true → c.grp.kernel = true) → c.beyond i = false → c.poison? i = some r →
    Raises s i c 0x27 fun a e => a = c.cur.pc ∧ e = BitVec.ofNat 32 r))

/-- R35, R41 to R43, R49, R236, R280: what is pending holds an instruction: in deferring mode it is captured, with the operands
that are ready, those that stand in the bypass among them, into the lowest free closure, or raises RESIDUAL_FULL (an FGET
beyond the eight of its warp with EAUX bit 8); a never-captured one raises PENDING_BRANCH for a
register that a foreign event is to write; in the other mode it waits.
Its corners that the spec leaves open follow log 10, log 13, log 29; those clauses are the model's choice. -/
def Obligations.PendingOperandsHold : Prop := ∀ (s : State) (c : Ctx) (i : Instr), issuer? s = some c → c.cur.clo = none →
  s.atOnce c i = false →
  (∀ r, i.neverCaptured = true → c.branchPending i = some r → ∃ t, s.planInstr c i = .take t ∧
    TakesTrap s t c 2 c.split.bypass c.cur.pc c.cur.pc (BitVec.ofNat 32 r)) ∧
  (i.neverCaptured = true → c.branchPending i = none → c.awaited i [] ≠ [] → s.planInstr c i = .stall) ∧
  (i.neverCaptured = false → c.deferring = false → c.awaited i [] ≠ [] → s.planInstr c i = .stall) ∧
  (i.neverCaptured = false → c.deferring = true → s.captureWaits c i (c.extraDsts s i) ≠ [] → c.annqStalls i = true →
    s.planInstr c i = .stall) ∧
  (∀ k ws ds, i.neverCaptured = false → c.deferring = true → ds = i.dsts ++ c.extraDsts s i →
    s.captureWaits c i (c.extraDsts s i) = ws → ws ≠ [] → c.annqStalls i = false → s.fgetFull c i = false →
    (k < 8 ∧ (∀ y ∈ c.warp.closures, y.idx ≠ k) ∧ ∀ j < k, ∃ y ∈ c.warp.closures, y.idx = j) →
    ∃ t w x, s.planInstr c i = .take t ∧ OnlyWarp { s with uid := s.uid + 2 } t c.cur.gid c.cur.widx w ∧
      Started c (s.uid + 1) true c.cur.mask ds { w with closures := c.warp.closures } ∧
      w.closures = c.warp.closures ++ [x] ∧ x.idx = k ∧ x.pc = c.cur.pc ∧ x.iword = c.cur.iword ∧ x.mword = c.cur.mword ∧
      x.mask = c.cur.mask ∧ x.waits = ws ∧ x.run = none ∧ x.dregs = ds ∧ x.did = s.uid + 1 ∧
      (∀ r ∈ i.reads, r < 128 → c.bypassed r = true → r ∈ (x.lanes ++ x.trans).map Prod.fst ∨ r ∈ x.unif.map Prod.fst) ∧
      (∀ p ∈ x.trans, c.bypassed p.1 = true ∧ ∀ l < 32, p.2.getD l 0 = c.reg p.1 l) ∧
      (∀ p ∈ x.lanes, c.ready p.1 = true ∧ ∀ l < 32, p.2.getD l 0 = c.reg p.1 l) ∧
      ∀ p ∈ x.unif, c.ready p.1 = true ∧ p.2 = c.reg p.1 (c.low i.modifier)) ∧
  (i.neverCaptured = false → c.deferring = true → s.captureWaits c i (c.extraDsts s i) ≠ [] → c.annqStalls i = false →
    (s.fgetFull c i = true → ∃ t eaux, s.planInstr c i = .take t ∧ eaux.getLsbD 8 = true ∧
      TakesTrap s t c 5 c.split.bypass c.cur.pc c.cur.pc eaux) ∧
    (s.fgetFull c i = false → (∀ j < 8, ∃ y ∈ c.warp.closures, y.idx = j) →
      ∃ t eaux, s.planInstr c i = .take t ∧ eaux.getLsbD 8 = false ∧
        TakesTrap s t c 5 c.split.bypass c.cur.pc c.cur.pc eaux))

/-- R73, R176, R275: a flag that an instruction raises while its trap is enabled traps after the instruction has completed:
EPC is the next instruction, EADDR the instruction itself, and EAUX the flags that trap. This holds of every instruction that
raises flags (Ctx.Flagging names them all).
R47: in a closure nothing is written, and it is a CLOSURE_FAULT with EAUX 7. -/
def Obligations.FloatTrapsAfterCompletion : Prop := ∀ (s : State) (c : Ctx) (i : Instr) (m : Option Modifier) (tr : Bool) (ws : Writes)
    (fl : Flags),
  c.cur.noFp = false → c.enabled fl ≠ 0 → Issues s i c → c.Flagging i m tr ws fl →
  (∀ k, c.cur.clo = some k → ∃ t, exec i s = .next t ∧ ClosureFaults s t c k 7 c.cur.pc) ∧
  (c.cur.clo = none →
  ∃ u g w sp t, Done s u c m tr ws fl ∧ u.group? c.cur.gid = some g ∧ g.warp? c.cur.widx = some w ∧
    w.split? c.cur.split = some sp ∧ exec i s = .next t ∧
    TakesTrap u t ⟨c.cur, g, w, sp⟩ 7 sp.bypass c.next c.cur.pc (c.enabled fl))

/-- R318 to R320: a fault merges into the pending entry of its ASID, its 64 KiB granule and its reason; else it is posted as
the entry at TAIL, with its fields and one party, and TAIL moves on; where that entry is pending it waits, and OVF
records it.
Its corners that the spec leaves open follow log 19; those clauses are the model's choice. -/
def Obligations.FaultQueuePosts : Prop := ∀ (s : State) (part : Nat) (f : FaultReq),
  let p := s.part part
  let t := s.postFault part f
  let q := t.part part
  let held := fun (i : Nat) => ∃ ps, (i, ps) ∈ q.parties ∧ f.party ∈ ps
  let kept := fun (a n : Nat) => ∀ b, s.Outside a n b → t.home b = s.home b
  (∀ i, (i < p.fqCap ∧ s.fqMatches p f i = true ∧ ∀ j < i, s.fqMatches p f j = false) → isPeer (p.fqEntry i + 32) = false →
    t.homeNat (p.fqEntry i + 8) 2 = s.homeNat (p.fqEntry i + 8) 2 + 1 ∧ held i ∧ kept (p.fqEntry i + 8) 2 ∧
    q.fqctl = p.fqctl) ∧
  ((∀ i < p.fqCap, s.fqMatches p f i = false) → s.fqPending p p.fqTail = false →
    let a := p.fqEntry p.fqTail
    isPeer (a + 32) = false → p.fqCap ≤ 65536 → f.kind < 4 → f.level < 4 → f.reason < 16 → f.cause < 256 → f.asid < 65536 →
    t.homeNat a 4 = 1 + 2 ^ 14 * f.fetch.toNat + 2 ^ 15 * f.wr.toNat + 2 ^ 16 * f.kind + 2 ^ 18 * f.level + 2 ^ 20 * f.reason
      + 2 ^ 24 * f.cause ∧
    t.homeNat (a + 4) 4 = f.eaux.toNat ∧ t.homeNat (a + 8) 2 = 1 ∧ t.homeNat (a + 10) 2 = f.asid ∧
    t.homeNat (a + 12) 4 = f.owner.toNat ∧ t.homeNat (a + 16) 8 = f.epc.toNat ∧ t.homeNat (a + 24) 8 = f.vaddr.toNat ∧
    q.fqTail = (p.fqTail + 1) % p.fqCap ∧ held p.fqTail ∧ kept a 32) ∧
  ((∀ i < p.fqCap, s.fqMatches p f i = false) → s.fqPending p p.fqTail = true →
    t.mem = s.mem ∧ q.waiting = p.waiting ++ [f] ∧ q.fqctl.getLsbD 12 = true ∧ q.fqTail = p.fqTail) ∧
  (∀ i, s.fqMatches p f i = true → f.reason ≠ 15 ∧ s.homeNat (p.fqEntry i + 10) 2 = f.asid)

/-! ### Registers only -/

/-- R153, R186 to R189: the 16-bit forms on machine words write vd in every active lane, raise no flag and change
nothing else; NOP changes nothing but the place of its split. -/
def Obligations.HalfFormResults : Prop := ∀ (s : State) (c : Ctx) (x : OpH),
  (Issues s (.mov16 x) c → Completes s (.mov16 x) c none false [(x.d.toNat, fun l => c.reg x.s.toNat l)] flag0) ∧
  (Issues s (.add16 x) c → Completes s (.add16 x) c none false
    [(x.d.toNat, fun l => c.reg x.d.toNat l + c.reg x.s.toNat l)] flag0) ∧
  (Issues s (.sub16 x) c → Completes s (.sub16 x) c none false
    [(x.d.toNat, fun l => c.reg x.d.toNat l - c.reg x.s.toNat l)] flag0) ∧
  (Issues s (.and16 x) c → Completes s (.and16 x) c none false
    [(x.d.toNat, fun l => c.reg x.d.toNat l &&& c.reg x.s.toNat l)] flag0) ∧
  (Issues s (.or16 x) c → Completes s (.or16 x) c none false
    [(x.d.toNat, fun l => c.reg x.d.toNat l ||| c.reg x.s.toNat l)] flag0) ∧
  (Issues s (.xor16 x) c → Completes s (.xor16 x) c none false
    [(x.d.toNat, fun l => c.reg x.d.toNat l ^^^ c.reg x.s.toNat l)] flag0) ∧
  (Issues s (.shl16 x) c → Completes s (.shl16 x) c none false
    [(x.d.toNat, fun l => c.reg x.d.toNat l <<< ((c.reg x.s.toNat l).extractLsb' 0 5).toNat)] flag0) ∧
  (Issues s (.shr16 x) c → Completes s (.shr16 x) c none false
    [(x.d.toNat, fun l => c.reg x.d.toNat l >>> ((c.reg x.s.toNat l).extractLsb' 0 5).toNat)] flag0) ∧
  (Issues s (.addi5 x) c → Completes s (.addi5 x) c none false
    [(x.d.toNat, fun l => c.reg x.d.toNat l + x.s.signExtend 32)] flag0) ∧
  (Issues s (.movi5 x) c → Completes s (.movi5 x) c none false [(x.d.toNat, fun _ => x.s.signExtend 32)] flag0) ∧
  (Issues s (.imul16 x) c → Completes s (.imul16 x) c none false
    [(x.d.toNat, fun l => BitVec.ofNat 32 ((c.reg x.d.toNat l).toNat * (c.reg x.s.toNat l).toNat))] flag0) ∧
  (Issues s .nop c → Completes s .nop c none false [] flag0)

/-- R186: the operations of major 0x02.
R187: the operations of major 0x03; byte i of a BSWZ result is a byte of the pair, zeroed and then complemented as
the control word says.
R188: the shifts of major 0x04.
R189: with p the exact 64-bit product, the multiplications of major 0x05. -/
def Obligations.IntegerArithmeticResults : Prop :=
  (∀ (s : State) (c : Ctx) (x : OpA),
  (Issues s (.add x) c → Completes s (.add x) c x.m x.t
    [(x.d.toNat, fun l => c.reg x.a.toNat l + c.reg x.b.toNat l)] flag0) ∧
  (Issues s (.sub x) c → Completes s (.sub x) c x.m x.t
    [(x.d.toNat, fun l => c.reg x.a.toNat l - c.reg x.b.toNat l)] flag0) ∧
  (Issues s (.addc x) c → Completes s (.addc x) c x.m x.t
    [(x.d.toNat, fun l => if 2 ^ 32 ≤ (c.reg x.a.toNat l).toNat + (c.reg x.b.toNat l).toNat then 1 else 0)] flag0) ∧
  (Issues s (.subb x) c → Completes s (.subb x) c x.m x.t
    [(x.d.toNat, fun l => if (c.reg x.a.toNat l).toNat < (c.reg x.b.toNat l).toNat then 1 else 0)] flag0) ∧
  (Issues s (.minS x) c → Completes s (.minS x) c x.m x.t
    [(x.d.toNat, fun l => BitVec.ofInt 32 (min (c.reg x.a.toNat l).toInt (c.reg x.b.toNat l).toInt))] flag0) ∧
  (Issues s (.maxS x) c → Completes s (.maxS x) c x.m x.t
    [(x.d.toNat, fun l => BitVec.ofInt 32 (max (c.reg x.a.toNat l).toInt (c.reg x.b.toNat l).toInt))] flag0) ∧
  (Issues s (.minU x) c → Completes s (.minU x) c x.m x.t
    [(x.d.toNat, fun l => BitVec.ofNat 32 (min (c.reg x.a.toNat l).toNat (c.reg x.b.toNat l).toNat))] flag0) ∧
  (Issues s (.maxU x) c → Completes s (.maxU x) c x.m x.t
    [(x.d.toNat, fun l => BitVec.ofNat 32 (max (c.reg x.a.toNat l).toNat (c.reg x.b.toNat l).toNat))] flag0)) ∧
  (∀ (s : State) (c : Ctx) (x : OpA),
  (Issues s (.and x) c → Completes s (.and x) c x.m x.t
    [(x.d.toNat, fun l => c.reg x.a.toNat l &&& c.reg x.b.toNat l)] flag0) ∧
  (Issues s (.or x) c → Completes s (.or x) c x.m x.t
    [(x.d.toNat, fun l => c.reg x.a.toNat l ||| c.reg x.b.toNat l)] flag0) ∧
  (Issues s (.xor x) c → Completes s (.xor x) c x.m x.t
    [(x.d.toNat, fun l => c.reg x.a.toNat l ^^^ c.reg x.b.toNat l)] flag0) ∧
  (Issues s (.andn x) c → Completes s (.andn x) c x.m x.t
    [(x.d.toNat, fun l => c.reg x.a.toNat l &&& ~~~c.reg x.b.toNat l)] flag0) ∧
  (Issues s (.orn x) c → Completes s (.orn x) c x.m x.t
    [(x.d.toNat, fun l => c.reg x.a.toNat l ||| ~~~c.reg x.b.toNat l)] flag0) ∧
  (Issues s (.xnor x) c → Completes s (.xnor x) c x.m x.t
    [(x.d.toNat, fun l => ~~~(c.reg x.a.toNat l ^^^ c.reg x.b.toNat l))] flag0) ∧
  (Issues s (.sel x) c → Completes s (.sel x) c x.m x.t
    [(x.d.toNat, fun l => if (c.reg x.d.toNat l).getLsbD 0 then c.reg x.a.toNat l else c.reg x.b.toNat l)] flag0) ∧
  (Issues s (.bswz x) c → ∃ f : Nat → Word, Completes s (.bswz x) c x.m x.t [(x.d.toNat, f)] flag0 ∧
    ∀ l, ∀ i < 4, (f l).extractLsb' (8 * i) 8 =
      (let b := c.reg x.b.toNat l
       let src := (c.pair x.a.toNat l).extractLsb' (8 * (b.extractLsb' (3 * i) 3).toNat) 8
       let z := if b.getLsbD (12 + i) then 0 else src
       if b.getLsbD (16 + i) then ~~~z else z)) ∧
  ((Instr.bswz x).wf = true → x.a.toNat % 2 = 0)) ∧
  (∀ (s : State) (c : Ctx) (x : OpA),
  let n := fun (l : Nat) => ((c.reg x.b.toNat l).extractLsb' 0 5).toNat
  let n64 := fun (l : Nat) => ((c.reg x.b.toNat l).extractLsb' 0 6).toNat
  let both := fun (f : Nat → DWord) => [(x.d.toNat, fun l => (f l).extractLsb' 0 32), (x.d.toNat + 1, fun l => (f l).extractLsb' 32 32)]
  (Issues s (.shl x) c → Completes s (.shl x) c x.m x.t [(x.d.toNat, fun l => c.reg x.a.toNat l <<< n l)] flag0) ∧
  (Issues s (.shr x) c → Completes s (.shr x) c x.m x.t [(x.d.toNat, fun l => c.reg x.a.toNat l >>> n l)] flag0) ∧
  (Issues s (.sar x) c → Completes s (.sar x) c x.m x.t
    [(x.d.toNat, fun l => (c.reg x.a.toNat l).sshiftRight (n l))] flag0) ∧
  (Issues s (.rol x) c → Completes s (.rol x) c x.m x.t
    [(x.d.toNat, fun l => (c.reg x.a.toNat l).rotateLeft (n l))] flag0) ∧
  (Issues s (.shl64 x) c → Completes s (.shl64 x) c x.m x.t (both fun l => c.pair x.a.toNat l <<< n64 l) flag0) ∧
  (Issues s (.shr64 x) c → Completes s (.shr64 x) c x.m x.t (both fun l => c.pair x.a.toNat l >>> n64 l) flag0) ∧
  (Issues s (.sar64 x) c → Completes s (.sar64 x) c x.m x.t
    (both fun l => (c.pair x.a.toNat l).sshiftRight (n64 l)) flag0) ∧
  (Issues s (.fshf x) c → Completes s (.fshf x) c x.m x.t
    [(x.d.toNat, fun l => (c.pair x.a.toNat l).extractLsb' (n l) 32)] flag0) ∧
  ((Instr.shl64 x).wf = true ∨ (Instr.shr64 x).wf = true ∨ (Instr.sar64 x).wf = true → x.d.toNat % 2 = 0 ∧ x.a.toNat % 2 = 0) ∧
  ((Instr.fshf x).wf = true → x.a.toNat % 2 = 0)) ∧
  (∀ (s : State) (c : Ctx) (x : OpA),
  let pS := fun (l : Nat) => BitVec.ofInt 64 ((c.reg x.a.toNat l).toInt * (c.reg x.b.toNat l).toInt)
  let pU := fun (l : Nat) => BitVec.ofNat 64 ((c.reg x.a.toNat l).toNat * (c.reg x.b.toNat l).toNat)
  let lo := fun (p : DWord) => p.extractLsb' 0 32
  let hi := fun (p : DWord) => p.extractLsb' 32 32
  (Issues s (.mulLo x) c → Completes s (.mulLo x) c x.m x.t [(x.d.toNat, fun l => lo (pU l))] flag0) ∧
  (Issues s (.mulHiS x) c → Completes s (.mulHiS x) c x.m x.t [(x.d.toNat, fun l => hi (pS l))] flag0) ∧
  (Issues s (.mulHiU x) c → Completes s (.mulHiU x) c x.m x.t [(x.d.toNat, fun l => hi (pU l))] flag0) ∧
  (Issues s (.madLo x) c → Completes s (.madLo x) c x.m x.t
    [(x.d.toNat, fun l => c.reg x.d.toNat l + lo (pU l))] flag0) ∧
  (Issues s (.madHiS x) c → Completes s (.madHiS x) c x.m x.t
    [(x.d.toNat, fun l => c.reg x.d.toNat l + hi (pS l))] flag0) ∧
  (Issues s (.madHiU x) c → Completes s (.madHiU x) c x.m x.t
    [(x.d.toNat, fun l => c.reg x.d.toNat l + hi (pU l))] flag0) ∧
  (Issues s (.mulWideS x) c → Completes s (.mulWideS x) c x.m x.t
    [(x.d.toNat, fun l => lo (pS l)), (x.d.toNat + 1, fun l => hi (pS l))] flag0) ∧
  (Issues s (.mulWideU x) c → Completes s (.mulWideU x) c x.m x.t
    [(x.d.toNat, fun l => lo (pU l)), (x.d.toNat + 1, fun l => hi (pU l))] flag0) ∧
  ((Instr.mulWideS x).wf = true ∨ (Instr.mulWideU x).wf = true → x.d.toNat % 2 = 0))

/-- R190: the unary bit operations: one bits counted, leading and trailing zeros (32 for zero), bits reversed, and the
magnitude as .S32.
R190: the field forms, with pos = vb bits 4:0 and len = min(vb bits 13:8, 32), bit by bit.
R191, R195: a comparison writes 1 where its condition holds and 0 otherwise; CMPI compares with the sign-extended
immediate.
R193, R194, R196, R197: the immediate forms, the wide immediates, and LEA modulo 2^64. -/
def Obligations.BitCompareImmediateResults : Prop :=
  (∀ (s : State) (c : Ctx) (x : OpA2),
  (Issues s (.popc x) c → Completes s (.popc x) c x.m x.t
    [(x.d.toNat, fun l => BitVec.ofNat 32 ((List.range 32).filter fun i => (c.reg x.a.toNat l).getLsbD i).length)] flag0) ∧
  (Issues s (.clz x) c → ∃ f : Nat → Word, Completes s (.clz x) c x.m x.t [(x.d.toNat, f)] flag0 ∧
    ∀ l, (f l).toNat ≤ 32 ∧ (∀ i < (f l).toNat, (c.reg x.a.toNat l).getLsbD (31 - i) = false) ∧
      ((f l).toNat < 32 → (c.reg x.a.toNat l).getLsbD (31 - (f l).toNat) = true)) ∧
  (Issues s (.ctz x) c → ∃ f : Nat → Word, Completes s (.ctz x) c x.m x.t [(x.d.toNat, f)] flag0 ∧
    ∀ l, (f l).toNat ≤ 32 ∧ (∀ i < (f l).toNat, (c.reg x.a.toNat l).getLsbD i = false) ∧
      ((f l).toNat < 32 → (c.reg x.a.toNat l).getLsbD (f l).toNat = true)) ∧
  (Issues s (.brev x) c → ∃ f : Nat → Word, Completes s (.brev x) c x.m x.t [(x.d.toNat, f)] flag0 ∧
    ∀ l, ∀ i < 32, (f l).getLsbD i = (c.reg x.a.toNat l).getLsbD (31 - i)) ∧
  (Issues s (.iabs x) c → Completes s (.iabs x) c x.m x.t
    [(x.d.toNat, fun l => BitVec.ofNat 32 (c.reg x.a.toNat l).toInt.natAbs)] flag0)) ∧
  (∀ (s : State) (c : Ctx) (x : OpA),
  let pos := fun (l : Nat) => ((c.reg x.b.toNat l).extractLsb' 0 5).toNat
  let len := fun (l : Nat) => min ((c.reg x.b.toNat l).extractLsb' 8 6).toNat 32
  let a := fun (l i : Nat) => (c.reg x.a.toNat l).getLsbD i
  (Issues s (.bfxU x) c → ∃ f : Nat → Word, Completes s (.bfxU x) c x.m x.t [(x.d.toNat, f)] flag0 ∧
    ∀ l, ∀ i < 32, (f l).getLsbD i = (decide (i < len l) && a l (pos l + i))) ∧
  (Issues s (.bfxS x) c → ∃ f : Nat → Word, Completes s (.bfxS x) c x.m x.t [(x.d.toNat, f)] flag0 ∧
    ∀ l, ∀ i < 32, (f l).getLsbD i = (decide (0 < len l) && a l (min (pos l + min i (len l - 1)) 31))) ∧
  (Issues s (.bfi x) c → ∃ f : Nat → Word, Completes s (.bfi x) c x.m x.t [(x.d.toNat, f)] flag0 ∧
    ∀ l, ∀ i < 32, (f l).getLsbD i =
      if pos l ≤ i ∧ i < pos l + len l then a l (i - pos l) else (c.reg x.d.toNat l).getLsbD i)) ∧
  ((∀ (s : State) (c : Ctx) (x : OpIcmp), Issues s (.icmp x) c → Completes s (.icmp x) c x.m x.t
    [(x.d.toNat, fun l =>
      let a := c.reg x.a.toNat l
      let b := c.reg x.b.toNat l
      let p : Prop := match x.c with
        | .eq => a = b
        | .ne => a ≠ b
        | .ltS => a.toInt < b.toInt
        | .leS => a.toInt ≤ b.toInt
        | .ltU => a.toNat < b.toNat
        | .leU => a.toNat ≤ b.toNat
        | .eq64 => c.pair x.a.toNat l = c.pair x.b.toNat l
        | .lt64U => (c.pair x.a.toNat l).toNat < (c.pair x.b.toNat l).toNat
      open Classical in if p then 1 else 0)] flag0) ∧
  (∀ x : OpIcmp, (Instr.icmp x).wf = true → x.c = .eq64 ∨ x.c = .lt64U → x.a.toNat % 2 = 0 ∧ x.b.toNat % 2 = 0) ∧
  (∀ (s : State) (c : Ctx) (x : OpCmpi), Issues s (.cmpi x) c → Completes s (.cmpi x) c x.m false
    [(x.d.toNat, fun l =>
      let a := c.reg x.a.toNat l
      let b : Word := x.i.signExtend 32
      let p : Prop := match x.c with
        | .eq => a = b
        | .ne => a ≠ b
        | .ltS => a.toInt < b.toInt
        | .leS => a.toInt ≤ b.toInt
        | .ltU => a.toNat < b.toNat
        | .leU => a.toNat ≤ b.toNat
      open Classical in if p then 1 else 0)] flag0)) ∧
  ((∀ (s : State) (c : Ctx) (x : OpI),
    (Issues s (.addi x) c → Completes s (.addi x) c x.m false [(x.d.toNat, fun l => c.reg x.a.toNat l + x.i.signExtend 32)] flag0) ∧
    (Issues s (.andi x) c → Completes s (.andi x) c x.m false [(x.d.toNat, fun l => c.reg x.a.toNat l &&& x.i.signExtend 32)] flag0) ∧
    (Issues s (.ori x) c → Completes s (.ori x) c x.m false [(x.d.toNat, fun l => c.reg x.a.toNat l ||| x.i.signExtend 32)] flag0) ∧
    (Issues s (.xori x) c → Completes s (.xori x) c x.m false [(x.d.toNat, fun l => c.reg x.a.toNat l ^^^ x.i.signExtend 32)] flag0)) ∧
  (∀ (s : State) (c : Ctx) (x : OpISh),
    (Issues s (.shli x) c → Completes s (.shli x) c x.m false [(x.d.toNat, fun l => c.reg x.a.toNat l <<< x.n.toNat)] flag0) ∧
    (Issues s (.shri x) c → Completes s (.shri x) c x.m false [(x.d.toNat, fun l => c.reg x.a.toNat l >>> x.n.toNat)] flag0) ∧
    (Issues s (.sari x) c → Completes s (.sari x) c x.m false
      [(x.d.toNat, fun l => (c.reg x.a.toNat l).sshiftRight x.n.toNat)] flag0)) ∧
  (∀ (s : State) (c : Ctx) (x : OpW),
    (Issues s (.movw x) c → Completes s (.movw x) c x.m false [(x.d.toNat, fun _ => BitVec.ofNat 32 x.i.toNat)] flag0) ∧
    (Issues s (.movt x) c → Completes s (.movt x) c x.m false
      [(x.d.toNat, fun l => (x.i.setWidth 32 <<< 16) ||| (c.reg x.d.toNat l &&& 0xFFFF))] flag0) ∧
    (Issues s (.movs x) c → Completes s (.movs x) c x.m false [(x.d.toNat, fun _ => BitVec.ofInt 32 x.i.toInt)] flag0)) ∧
  (∀ (s : State) (c : Ctx) (x : OpLea), Issues s (.lea x) c →
    let e := fun (l : Nat) => BitVec.ofInt 64 ((c.pair x.a.toNat l).toInt + (c.reg x.b.toNat l).toInt * 2 ^ x.h.toNat)
    Completes s (.lea x) c x.m x.t
      [(x.d.toNat, fun l => (e l).extractLsb' 0 32), (x.d.toNat + 1, fun l => (e l).extractLsb' 32 32)] flag0))

/-- R192: a data-typed integer instruction computes each sub-element by its class of absence, clamps, and sets SAT; a flag
whose trap is enabled is the business of FpException.
R199: float arithmetic of majors 0x14 to 0x16 and of form H computes each sub-element and accumulates the flags of the
computing lanes in %fflags.
R200 to R202: comparison (bit k for sub-element k), classification and the special functions.
Its corners that the spec leaves open follow log 6, log 16; those clauses are the model's choice. -/
def Obligations.TypedArithmeticResults : Prop :=
  (∀ (s : State) (c : Ctx),
  (∀ x : OpDigT, Issues s (.dadd x) c →
    let r := fun l => digWord .add x.y x.m (c.reg x.a.toNat l) (c.reg x.b.toNat l) (c.reg x.d.toNat l)
    let fl := c.flagsOf x.m fun l => (r l).2
    c.quiet fl → Completes s (.dadd x) c x.m x.t [(x.d.toNat, fun l => (r l).1)] fl) ∧
  (∀ x : OpDigT, Issues s (.dsub x) c →
    let r := fun l => digWord .sub x.y x.m (c.reg x.a.toNat l) (c.reg x.b.toNat l) (c.reg x.d.toNat l)
    let fl := c.flagsOf x.m fun l => (r l).2
    c.quiet fl → Completes s (.dsub x) c x.m x.t [(x.d.toNat, fun l => (r l).1)] fl) ∧
  (∀ (x : OpDig) (o : DigOp) (i : Instr),
    (o = .mul ∧ i = .dmul x) ∨ (o = .mad ∧ i = .dmad x) ∨ (o = .min ∧ i = .dmin x) ∨ (o = .max ∧ i = .dmax x) →
    Issues s i c →
    let r := fun l => digWord o x.y x.m (c.reg x.a.toNat l) (c.reg x.b.toNat l) (c.reg x.d.toNat l)
    let fl := c.flagsOf x.m fun l => (r l).2
    c.quiet fl → Completes s i c x.m false [(x.d.toNat, fun l => (r l).1)] fl)) ∧
  (∀ (s : State) (c : Ctx),
  (∀ (x : OpA) (o : FloatOp) (y : FTy) (i : Instr),
    (o, y, i) ∈ ([(.add, .f32, .faddF32 x), (.sub, .f32, .fsubF32 x), (.mul, .f32, .fmulF32 x), (.fma, .f32, .ffmaF32 x),
      (.min, .f32, .fminF32 x), (.max, .f32, .fmaxF32 x), (.cpys, .f32, .fcpysF32 x), (.add, .f16, .faddF16x2 x),
      (.sub, .f16, .fsubF16x2 x), (.mul, .f16, .fmulF16x2 x), (.fma, .f16, .ffmaF16x2 x), (.min, .f16, .fminF16x2 x),
      (.max, .f16, .fmaxF16x2 x), (.cpys, .f16, .fcpysF16x2 x), (.add, .bf16, .faddBf16x2 x), (.sub, .bf16, .fsubBf16x2 x),
      (.mul, .bf16, .fmulBf16x2 x), (.fma, .bf16, .ffmaBf16x2 x), (.min, .bf16, .fminBf16x2 x), (.max, .bf16, .fmaxBf16x2 x),
      (.cpys, .bf16, .fcpysBf16x2 x)] : List (FloatOp × FTy × Instr)) →
    Issues s i c →
    let r := fun l => floatWord o y x.m (c.reg x.a.toNat l) (c.reg x.b.toNat l) (c.reg x.d.toNat l)
    let fl := c.flagsOf x.m fun l => (r l).2
    c.quiet fl → Completes s i c x.m x.t [(x.d.toNat, fun l => (r l).1)] fl) ∧
  (∀ (x : OpH) (o : FloatOp) (i : Instr),
    (o, i) ∈ ([(.add, .fadd16 x), (.mul, .fmul16 x), (.max, .fmax16 x), (.min, .fmin16 x)] : List (FloatOp × Instr)) →
    Issues s i c →
    let r := fun l => floatWord o .f32 none (c.reg x.d.toNat l) (c.reg x.s.toNat l) 0
    let fl := (c.act none).foldl (fun f l => f ||| (r l).2) flag0
    c.quiet fl → Completes s i c none false [(x.d.toNat, fun l => (r l).1)] fl)) ∧
  (∀ (s : State) (c : Ctx),
  (∀ x : OpFcmp, Issues s (.fcmp x) c →
    let r := fun l => fcmpWord x.c x.y x.m (c.reg x.a.toNat l) (c.reg x.b.toNat l)
    let fl := c.flagsOf x.m fun l => (r l).2
    c.quiet fl → Completes s (.fcmp x) c x.m false [(x.d.toNat, fun l => (r l).1)] fl) ∧
  (∀ x : OpTy, (Issues s (.fclass x) c → Completes s (.fclass x) c x.m false
      [(x.d.toNat, fun l => fclassWord x.y (c.reg x.a.toNat l))] flag0) ∧
    (Issues s (.abst x) c → Completes s (.abst x) c x.m false
      [(x.d.toNat, fun l => abstWord x.y (c.reg x.a.toNat l))] flag0)) ∧
  (∀ (x : OpTyT) (f : SpecialFn) (i : Instr),
    (f, i) ∈ ([(.rcp, .frcp x), (.rsq, .frsq x), (.sqrt, .fsqrt x), (.exp2, .fexp2 x), (.log2, .flog2 x), (.sin, .fsin x),
      (.cos, .fcos x), (.tanh, .ftanh x)] : List (SpecialFn × Instr)) →
    Issues s i c →
    let r := fun l => specialWord f x.y x.m (c.reg x.a.toNat l)
    let fl := c.flagsOf x.m fun l => (r l).2
    c.quiet fl → Completes s i c x.m x.t [(x.d.toNat, fun l => (r l).1)] fl))

/-- R203 to R206: conversions through the codebook in force, and narrow elements; PACK and UNPK complete where the control
word of every active lane is good.
R207 to R210: the codebook and absence masks. CBSET changes two entries of the warp's table and nothing else but the
place of its split; with no active lane it changes none. -/
def Obligations.ConversionAndCodebookResults : Prop :=
  (∀ (s : State) (c : Ctx),
  (∀ x : OpCvt, Issues s (.cvt x) c →
    let r := fun l => cvtWord x c.cur.cb (c.reg x.a.toNat l)
    let fl := c.flagsOf x.m fun l => (r l).2
    c.quiet fl → Completes s (.cvt x) c x.m false [(x.d.toNat, fun l => (r l).1)] fl) ∧
  (∀ x : OpCvt, Issues s (.cvts x) c →
    let r := fun l => cvtsWord x c.cur.cb (c.reg x.a.toNat l) (c.reg (x.a.toNat + 1) l)
    let fl := c.flagsOf x.m fun l => (r l).2
    c.quiet fl → Completes s (.cvts x) c x.m false [(x.d.toNat, fun l => (r l).1)] fl) ∧
  (∀ x : OpE, (∀ l ∈ c.act x.m, packOk (c.reg x.b.toNat l) = true) →
    (Issues s (.pack x) c → Completes s (.pack x) c x.m false
      [(x.d.toNat, fun l => packWord (c.reg x.a.toNat l) (c.reg x.b.toNat l) (c.reg x.d.toNat l))] flag0) ∧
    (Issues s (.unpk x) c → Completes s (.unpk x) c x.m false
      [(x.d.toNat, fun l => unpkWord (c.reg x.a.toNat l) (c.reg x.b.toNat l))] flag0))) ∧
  (∀ (s : State) (c : Ctx),
  (∀ x : OpCbset, Issues s (.cbset x) c → ∃ t w, exec (.cbset x) s = .next t ∧ OnlyWarp s t c.cur.gid c.cur.widx w ∧
    Completed c x.m false [] flag0 { w with cb := c.warp.cb } ∧
    w.cb = if (c.act x.m).isEmpty then c.warp.cb
      else (c.warp.cb.set (2 * x.j.toNat) ((c.reg x.a.toNat (c.low x.m)).extractLsb' 0 16)).set (2 * x.j.toNat + 1)
        ((c.reg x.a.toNat (c.low x.m)).extractLsb' 16 16)) ∧
  (∀ x : OpCbget, Issues s (.cbget x) c → Completes s (.cbget x) c x.m false
    [(x.d.toNat, fun _ => c.cur.cb.getD (2 * x.j.toNat + 1) 0xFFFF#16 ++ c.cur.cb.getD (2 * x.j.toNat) 0xFFFF#16)] flag0) ∧
  (∀ x : OpCbenc, Issues s (.cbenc x) c →
    let r := fun l => cbencWord x c.cur.cb (c.reg x.a.toNat l)
    let fl := c.flagsOf x.m fun l => (r l).2.2
    c.quiet fl → Completes s (.cbenc x) c x.m false
      [(x.d.toNat, fun l => (r l).1), (x.d.toNat + 1, fun l => (r l).2.1)] fl) ∧
  (∀ x : OpCbdec, Issues s (.cbdec x) c → Completes s (.cbdec x) c x.m false
    [(x.d.toNat, fun l => cbdecWord x c.cur.cb (c.reg x.a.toNat l))] flag0) ∧
  (∀ x : OpFmt, (Issues s (.absm x) c → Completes s (.absm x) c x.m false
      [(x.d.toNat, fun l => absmWord x.f (c.reg x.a.toNat l) (c.reg x.d.toNat l))] flag0) ∧
    (Issues s (.absc x) c → Completes s (.absc x) c x.m false
      [(x.d.toNat, fun l => abscWord x.f (c.reg x.a.toNat l))] flag0)))

/-- R212, R213: a shuffle reads another active lane of the tile or writes the fill pattern; a vote combines bit 0 of the
active lanes of the tile.
R214 to R216: reductions by the butterfly of R75 and scans by the doubling of R76, both with the counts of present
operands; and argument reductions, whose winner beats every other candidate. -/
def Obligations.CrossLaneResults : Prop :=
  (∀ (s : State) (c : Ctx),
  (∀ x : OpShfl, Issues s (.shfl x) c → (∀ l ∈ c.act x.m, ((c.reg x.b.toNat l).extractLsb' 8 3).toNat ≤ 4) →
    ∃ f : Nat → Word, Completes s (.shfl x) c x.m x.t [(x.d.toNat, f)] flag0 ∧
      ∀ l ∈ c.act x.m,
        let base := l - l % c.cur.tile
        let j := shflIndex x.k (l - base) ((c.reg x.b.toNat l).extractLsb' 0 5).toNat ((c.members x.m l).headD base - base)
        (∀ k ∈ c.act x.m, (k : Int) = base + j → 0 ≤ j → j < c.cur.tile → f l = c.reg x.a.toNat k) ∧
        ((∀ k ∈ c.act x.m, ¬ ((k : Int) = base + j ∧ 0 ≤ j ∧ j < c.cur.tile)) →
          f l = ([0xFFFFFFFF, 0x80000000, 0x80008000, 0x80808080, 0x88888888] : List Word).getD
            ((c.reg x.b.toNat l).extractLsb' 8 3).toNat 0)) ∧
  (∀ x : OpVote, Issues s (.vote x) c → ∃ f : Nat → Word, Completes s (.vote x) c x.m x.t [(x.d.toNat, f)] flag0 ∧
    ∀ l ∈ c.act x.m,
      let ps := c.members x.m l
      let bit := fun k => (c.reg x.a.toNat k).getLsbD 0
      match x.k with
      | .all => f l = if ∀ k ∈ ps, bit k = true then 1 else 0
      | .any => f l = if ∃ k ∈ ps, bit k = true then 1 else 0
      | .ballot => ∀ k < 32, (f l).getLsbD k = (ps.contains k && bit k)
      | .matchAll => ∀ k < 32, (f l).getLsbD k = (ps.contains k && c.reg x.a.toNat k == c.reg x.a.toNat l)
      | .elect => f l = if ps.headD l = l then 1 else 0
      | .count => f l = BitVec.ofNat 32 (ps.filter bit).length)) ∧
  (∀ (s : State) (c : Ctx),
  (∀ x : OpRed, Issues s (.red x) c →
    let run := fun base k => redAll x.o (redFmt x.y) (Nat.log2 c.cur.tile) 1 (c.column x base k)
    let fl := (c.tiles x.m).foldl (fun g b => (List.range (redCount x.y)).foldl (fun g k => g ||| (run b k).2) g) flag0
    c.quiet fl → Completes s (.red x) c x.m false
      (redWrites x (fun k l => (run (c.tileBase l) k).1.getD (l - c.tileBase l) 0)
        (fun k l => presentIn (redFmt x.y) (c.column x (c.tileBase l) k) c.cur.tile)) fl) ∧
  (∀ x : OpRed, Issues s (.scan x) c →
    let parts := fun base => (c.members x.m base).map fun l => l - base
    let run := fun base k => scanAll x.o (redFmt x.y) (parts base) (Nat.log2 c.cur.tile) 1 (c.column x base k)
    let fl := (c.tiles x.m).foldl (fun g b => (List.range (redCount x.y)).foldl (fun g k => g ||| (run b k).2) g) flag0
    c.quiet fl → Completes s (.scan x) c x.m false
      (redWrites x (fun k l => (run (c.tileBase l) k).1.getD (l - c.tileBase l) 0)
        (fun k l => presentIn (redFmt x.y) (c.column x (c.tileBase l) k) (l - c.tileBase l + 1))) fl) ∧
  (∀ x : OpArg, Issues s (.arg x) c → ∃ v i n w : Nat → Word,
    Completes s (.arg x) c x.m false [(x.d.toNat, v), (x.d.toNat + 1, i), (x.d.toNat + 2, n), (x.d.toNat + 3, w)] flag0 ∧
    ∀ l, (n l = BitVec.ofNat 32 (c.candidates x l).length) ∧
      (c.candidates x l = [] → v l = argValue x.k 0xFFFFFFFF ∧ i l = 0xFFFFFFFF ∧ w l = 0xFFFFFFFF) ∧
      (c.candidates x l ≠ [] → ∃ p ∈ c.candidates x l,
        v l = argValue x.k (c.reg x.a.toNat p.2.2) ∧ i l = c.reg x.b.toNat p.2.2 ∧ w l = BitVec.ofNat 32 p.2.2 ∧
        ∀ q ∈ c.candidates x l, q = p ∨ argBeats (argIsMax x.k) p q = true)))

/-- R53, R56, R58, R64 to R66, R68, R192, R199 to R203, R206: what the number functions that the statements of the instructions
name give: sums, products and fused products of F32, and of both elements of F16 and BF16, are the exact value rounded once;
comparisons, classes and absence of F32; saturated sums of 32-bit integers; conversions of F32 to F16, BF16, E4M3 and the data
integers, and of the absent code to every format; FRCP and FSQRT of F32 rounded once, and the special inputs of R202; and the
elements that PACK and UNPK move. -/
def Obligations.NumberValues : Prop :=
  (∀ a b d : Word, f32Finite a → f32Finite b →
    f32Result 0 (f32Scaled a + f32Scaled b) (floatWord .add .f32 none a b d) ∧
    f32Result 0 (f32Scaled a - f32Scaled b) (floatWord .sub .f32 none a b d) ∧
    f32Result 149 (f32Scaled a * f32Scaled b) (floatWord .mul .f32 none a b d) ∧
    (f32Finite d → f32Result 149 (f32Scaled a * f32Scaled b + 2 ^ 149 * f32Scaled d) (floatWord .fma .f32 none a b d)) ∧
    (fcmpWord .lt .f32 none a b).1 = (if f32Scaled a < f32Scaled b then 1 else 0) ∧
    (fcmpWord .le .f32 none a b).1 = (if f32Scaled a ≤ f32Scaled b then 1 else 0) ∧
    (fcmpWord .eq .f32 none a b).1 = (if f32Scaled a = f32Scaled b then 1 else 0)) ∧
  (∀ a : Word,
    abstWord .f32 a = (if a = 0xFFFFFFFF then 1 else 0) ∧
    fclassWord .f32 a =
      (let e := a.extractLsb' 23 8
       let f := a.extractLsb' 0 23
       let n := a.getLsbD 31
       if a = 0xFFFFFFFF then 512
       else if e = 0xFF then (if f ≠ 0 then 256 else if n then 1 else 128)
       else if e = 0 then (if f = 0 then (if n then 8 else 16) else if n then 4 else 32)
       else if n then 2 else 64)) ∧
  (∀ a b d : Word, a ≠ 0x80000000 → b ≠ 0x80000000 →
    let top : Int := 2 ^ 31 - 1
    let x := a.toInt + b.toInt
    let r := digWord .add .i32 none a b d
    r.1.toInt = max (-top) (min x top) ∧ r.2.getLsbD 5 = decide (x < -top ∨ top < x)) ∧
  (∀ (y : FTy) (eb mb : Nat) (a b d : Word), (y, eb, mb) ∈ ([(.f16, 5, 10), (.bf16, 8, 7)] : List (FTy × Nat × Nat)) → ∀ h < 2,
    let half := fun (w : Word) => (w.extractLsb' (16 * h) 16).toNat
    let v := fun (w : Word) => fpScaled eb mb (half w)
    let k := fpScale eb mb
    fpFinite eb mb (half a) → fpFinite eb mb (half b) →
    fpRounded eb mb 0 (v a + v b) (half (floatWord .add y none a b d).1) ∧
    fpRounded eb mb 0 (v a - v b) (half (floatWord .sub y none a b d).1) ∧
    fpRounded eb mb k (v a * v b) (half (floatWord .mul y none a b d).1) ∧
    (fpFinite eb mb (half d) → fpRounded eb mb k (v a * v b + 2 ^ k * v d) (half (floatWord .fma y none a b d).1))) ∧
  (∀ (t : Codebook) (d va : Reg) (a : Word), f32Finite a →
    let cv := fun (f : Fmt) => cvtWord ⟨f, .f32, false, d, va, none⟩ t a
    fpRounded 5 10 125 (f32Scaled a) (cv .f16).1.toNat ∧ fpRounded 8 7 16 (f32Scaled a) (cv .bf16).1.toNat ∧
    fpNearest 4 3 140 (fun c => c < 256 ∧ c % 128 ≠ 127 ∧ c ≠ 128) (f32Scaled a) (cv .e4m3).1.toNat ∧
    (∀ p ∈ ([(.i32, 32, -2147483647, 2147483647), (.i16, 16, -32767, 32767), (.i8, 8, -127, 127), (.u8, 8, 0, 254), (.i6, 6, -31, 31),
        (.i4, 4, -7, 7), (.u4, 4, 0, 14), (.i2, 2, -1, 1), (.s32, 32, -2147483648, 2147483647), (.u32, 32, 0, 4294967295)] :
        List (Fmt × Nat × Int × Int)),
      ∃ n, intNearest 149 (f32Scaled a) n ∧ (((cv p.1).1.toNat : Int) - max p.2.2.1 (min n p.2.2.2)) % 2 ^ p.2.1 = 0 ∧
        (cv p.1).1.toNat < 2 ^ p.2.1 ∧ (cv p.1).2.getLsbD 0 = decide (2 ^ 149 * n ≠ f32Scaled a) ∧
        (cv p.1).2.getLsbD 4 = decide (n < p.2.2.1 ∨ p.2.2.2 < n))) ∧
  (∀ (t : Codebook) (d va : Reg) (s : Bool) (m : Option Modifier),
    ∀ p ∈ ([(.f32, 0xFFFFFFFF), (.f16, 0xFFFF), (.bf16, 0xFFFF), (.e4m3, 0x80), (.e5m2, 0x80), (.e3m2, 0x20), (.e2m3, 0x20), (.e2m1, 8),
      (.i32, 0x80000000), (.i16, 0x8000), (.i8, 0x80), (.u8, 0xFF), (.i6, 0x20), (.i4, 8), (.u4, 15), (.i2, 2), (.cb4, 15), (.cb3, 7),
      (.cb2, 3), (.s32, 0), (.u32, 0)] : List (Fmt × Word)), cvtWord ⟨p.1, .f32, s, d, va, m⟩ t 0xFFFFFFFF = (p.2, flag0)) ∧
  (∀ a : Word, f32Finite a → let v := f32Scaled a
    (v ≠ 0 → 2 ^ 298 < v.natAbs * ((2 ^ 25 - 1) * 2 ^ 252) → let r := (specialWord .rcp .f32 none a).1
      f32Finite r ∧ ∀ y, f32Finite y → (f32Scaled r * v - 2 ^ 298).natAbs ≤ (f32Scaled y * v - 2 ^ 298).natAbs) ∧
    (0 < v → let r := (specialWord .sqrt .f32 none a).1
      f32Finite r ∧ 0 < f32Scaled r ∧ ∀ y, f32Finite y → 0 ≤ f32Scaled y →
        (f32Scaled r < f32Scaled y → 4 * v * 2 ^ 149 ≤ (f32Scaled r + f32Scaled y) ^ 2) ∧
        (f32Scaled y < f32Scaled r → (f32Scaled r + f32Scaled y) ^ 2 ≤ 4 * v * 2 ^ 149)) ∧
    (v < 0 → ∀ f ∈ ([.rsq, .sqrt, .log2] : List SpecialFn), specialWord f .f32 none a = (0x7FC00000, flagNV))) ∧
  (∀ p ∈ ([(.rcp, 0xFF800000, 0x80000000, flag0), (.rcp, 0x80000000, 0xFF800000, flagDZ), (.rcp, 0, 0x7F800000, flagDZ),
      (.rcp, 0x7F800000, 0, flag0), (.rsq, 0xFF800000, 0x7FC00000, flagNV), (.rsq, 0x80000000, 0xFF800000, flagDZ),
      (.rsq, 0, 0x7F800000, flagDZ), (.rsq, 0x7F800000, 0, flag0), (.sqrt, 0xFF800000, 0x7FC00000, flagNV),
      (.sqrt, 0x80000000, 0x80000000, flag0), (.sqrt, 0, 0, flag0), (.sqrt, 0x7F800000, 0x7F800000, flag0), (.exp2, 0xFF800000, 0, flag0),
      (.exp2, 0x80000000, 0x3F800000, flag0), (.exp2, 0, 0x3F800000, flag0), (.exp2, 0x7F800000, 0x7F800000, flag0),
      (.log2, 0xFF800000, 0x7FC00000, flagNV), (.log2, 0x80000000, 0xFF800000, flagDZ), (.log2, 0, 0xFF800000, flagDZ),
      (.log2, 0x7F800000, 0x7F800000, flag0), (.sin, 0xFF800000, 0x7FC00000, flagNV), (.sin, 0x80000000, 0x80000000, flag0),
      (.sin, 0, 0, flag0), (.sin, 0x7F800000, 0x7FC00000, flagNV), (.cos, 0xFF800000, 0x7FC00000, flagNV),
      (.cos, 0x80000000, 0x3F800000, flag0), (.cos, 0, 0x3F800000, flag0), (.cos, 0x7F800000, 0x7FC00000, flagNV),
      (.tanh, 0xFF800000, 0xBF800000, flag0), (.tanh, 0x80000000, 0x80000000, flag0), (.tanh, 0, 0, flag0),
      (.tanh, 0x7F800000, 0x3F800000, flag0)] : List (SpecialFn × Word × Word × Flags)),
    specialWord p.1 .f32 none p.2.1 = (p.2.2.1, p.2.2.2)) ∧
  (∀ a ctl d : Word, packOk ctl = true →
    let w := fmtWidth (fmtAt (ctl.extractLsb' 0 5).toNat)
    let k := (ctl.extractLsb' 8 4).toNat
    ∀ i < 32, (unpkWord a ctl).getLsbD i = (decide (i < w) && a.getLsbD (w * k + i)) ∧
      (packWord a ctl d).getLsbD i = (if w * k ≤ i ∧ i < w * k + w then a.getLsbD (i - w * k) else d.getLsbD i))

/-! ### Control -/

/-- R169, R171, R179, R180, with R12: a branch moves every lane of its split to its target or past itself, and loses and
moves no other lane; a uniform branch asks the lowest active lane, BRC every lane for itself, a vote branch all of them,
and BPND the pending bit.
R170: CALL writes the address after it into the link pair and moves the split to the target.
R11: a BRC or BRX that would push onto a full reconvergence stack raises ILLEGAL with EAUX the split's number, and no split, mask
or stack changes.
R156, R159: a bad branch target raises its exception at the branch, with EADDR the target where the target itself is
bad, and the lanes stay where they are.
Its corners that the spec leaves open follow log 12, log 80, log 82; those clauses are the model's choice. -/
def Obligations.BranchesMoveLanes : Prop :=
  (∀ (s : State) (c : Ctx), c.Live →
  (∀ x : OpBr,
    let dst := c.cur.pc + 2 * x.o.signExtend 64
    let holds := fun (l : Nat) => match x.c with
      | .always => true
      | .p => (c.reg x.a.toNat l).getLsbD 0
      | .np => !(c.reg x.a.toNat l).getLsbD 0
      | .z => c.reg x.a.toNat l == 0
      | .nz => c.reg x.a.toNat l != 0
      | .neg => (c.reg x.a.toNat l).getLsbD 31
      | .nneg => !(c.reg x.a.toNat l).getLsbD 31
    s.badTarget c.grp dst = none →
    (Issues s (.bra x) c → Moves s (.bra x) c [] fun _ => if holds (c.low none) then dst else c.next) ∧
    (Issues s (.brc x) c → c.warp.overflows c.cur.split 2 = false →
      Moves s (.brc x) c [] fun l => if holds l then dst else c.next)) ∧
  (∀ x : OpR,
    (Issues s (.ret x) c → s.badTarget c.grp (c.pair x.r.toNat (c.low none)) = none →
      Moves s (.ret x) c [] fun _ => c.pair x.r.toNat (c.low none)) ∧
    (Issues s (.brx x) c → (∀ l ∈ c.act none, s.badTarget c.grp (c.pair x.r.toNat l) = none) →
      c.warp.overflows c.cur.split ((c.act none).map fun l => c.pair x.r.toNat l).eraseDups.length = false →
      Moves s (.brx x) c [] fun l => c.pair x.r.toNat l)) ∧
  (∀ x : OpBrA, s.badTarget c.grp (c.cur.pc + 2 * x.o.signExtend 64) = none →
    let goes := fun (b : Bool) (_ : Nat) => if b then c.cur.pc + 2 * x.o.signExtend 64 else c.next
    let bit := fun (l : Nat) => (c.reg x.a.toNat l).getLsbD 0
    (Issues s (.ball x) c → Moves s (.ball x) c [] (goes ((c.act none).all bit))) ∧
    (Issues s (.bany x) c → Moves s (.bany x) c [] (goes ((c.act none).any bit))) ∧
    (Issues s (.bnone x) c → Moves s (.bnone x) c [] (goes (!(c.act none).any bit)))) ∧
  (∀ x : OpBpnd, Issues s (.bpnd x) c → s.badTarget c.grp (c.cur.pc + 2 * x.o.signExtend 64) = none →
    Moves s (.bpnd x) c [] fun _ =>
      if (c.warp.pend.any fun p => p.reg == x.a.toNat) != x.rdy then c.cur.pc + 2 * x.o.signExtend 64 else c.next)) ∧
  (∀ (s : State) (c : Ctx) (x : OpBrA), Issues s (.call x) c → c.Live →
  s.badTarget c.grp (c.cur.pc + 2 * x.o.signExtend 64) = none →
  Moves s (.call x) c
    [(x.a.toNat, fun _ => c.next.extractLsb' 0 32), (x.a.toNat + 1, fun _ => c.next.extractLsb' 32 32)]
    fun _ => c.cur.pc + 2 * x.o.signExtend 64) ∧
  (∀ (s : State) (c : Ctx), c.cur.clo = none → (∀ n < 4, (c.warp.split? n).isSome = true) → 8 ≤ c.split.stack.length →
  let traps := fun (i : Instr) => Raises s i c 0x20 fun a e => a = c.cur.pc ∧ e = BitVec.ofNat 32 c.cur.split
  (∀ (x : OpBr) (l k : Nat), Issues s (.brc x) c → l < 32 → k < 32 → c.cur.mask.getLsbD l = true → c.cur.mask.getLsbD k = true →
    condHolds x.c (c.reg x.a.toNat l) = true → condHolds x.c (c.reg x.a.toNat k) = false →
    c.cur.pc + 2 * x.o.signExtend 64 ≠ c.next → s.badTarget c.grp (c.cur.pc + 2 * x.o.signExtend 64) = none → traps (.brc x)) ∧
  (∀ (x : OpR), Issues s (.brx x) c → (∀ l ∈ c.act none, s.badTarget c.grp (c.pair x.r.toNat l) = none) →
    (∃ l ∈ c.act none, ∃ k ∈ c.act none, c.pair x.r.toNat l ≠ c.pair x.r.toNat k) → traps (.brx x))) ∧
  (∀ (s : State) (c : Ctx) (k : Nat) (e : DWord) (f : Option XFault) (dst : DWord),
  c.cur.clo = none → issuer? s = some c → s.badTarget c.grp dst = some (k, e, f) →
  let sound := fun (i : Instr) => c.beyond i = false ∧ c.poison? i = none
  (∀ x : OpBr, sound (.bra x) → dst = c.cur.pc + 2 * x.o.signExtend 64 → x.c = .always →
    Raises s (.bra x) c k fun a _ => a = e) ∧
  (∀ x : OpBrA, sound (.call x) → dst = c.cur.pc + 2 * x.o.signExtend 64 → Raises s (.call x) c k fun a _ => a = e) ∧
  (∀ x : OpR, sound (.ret x) → dst = c.pair x.r.toNat (c.low none) → Raises s (.ret x) c k fun a _ => a = e) ∧
  (dst.getLsbD 0 = true → k = 0x21 ∧ e = dst))

/-- R172 with R12: JOIN moves the lanes that stand at it past it, and no lane that stands elsewhere.
R173, R50: YLD goes on at the next instruction, and the warp then rests for up to 256 cycles of its die, unless
nothing is pending and no closure lives.
R174: EXIT ends the lanes of its split: they stand nowhere any more, every other lane stays, and no register, byte of
memory or byte of scratch changes.
Its corners that the spec leaves open follow log 12, log 14; those clauses are the model's choice. -/
def Obligations.JoinYieldExitEffects : Prop :=
  (∀ (s : State) (c : Ctx), Issues s .join c → c.Live → c.split.pc = c.cur.pc →
  ∃ t w, exec .join s = .next t ∧ OnlyWarp s t c.cur.gid c.cur.widx w ∧ w.LanesOk ∧
    (∀ l < 32, c.cur.mask.getLsbD l = true → w.laneAt l c.next) ∧
    (∀ l < 32, c.warp.laneAt l c.cur.pc → w.laneAt l c.next ∨ w.laneAt l c.cur.pc) ∧
    (∀ l < 32, ∀ pc, pc ≠ c.cur.pc → c.warp.laneAt l pc → w.laneAt l pc) ∧
    { w with splits := c.warp.splits, inh := c.warp.inh, inu := c.warp.inu } = c.warp) ∧
  (∀ (s : State) (c : Ctx), Issues s .yld c → c.cur.clo = none →
  ∃ t w sp, exec .yld s = .next t ∧ OnlyWarp s t c.cur.gid c.cur.widx w ∧ w.split? c.cur.split = some sp ∧
    sp.pc = c.next ∧ sp.mask = c.split.mask ∧ sp.stack = c.split.stack ∧
    w.yld = (if c.warp.pend = [] ∧ c.warp.closures = [] then c.warp.yld
      else some ((s.cycles (c.grp.core / 128)).toNat + 256)) ∧
    { w with splits := c.warp.splits, yld := c.warp.yld } = c.warp) ∧
  (∀ (s : State) (c : Ctx), Issues s .exit c → c.Live →
  ∃ t w, exec .exit s = .next t ∧ t.warp? c.cur.gid c.cur.widx = some w ∧ w.LanesOk ∧
    (∀ l < 32, c.cur.mask.getLsbD l = true → ∀ pc, ¬ w.laneAt l pc) ∧
    (∀ l < 32, c.cur.mask.getLsbD l = false → ∀ pc, c.warp.laneAt l pc → w.laneAt l pc) ∧
    w.regs = c.warp.regs ∧ t.mem = s.mem ∧ t.cores = s.cores ∧
    t.groups.map Group.bare = s.groups.map Group.bare ∧
    (∀ g x, ¬ (g = c.cur.gid ∧ x = c.cur.widx) → t.warp? g x = s.warp? g x))

/-- R176, R177: TRAPX and BRK take the TRAPX user trap: TRAPX with EPC the next instruction, EADDR itself and EAUX its code;
BRK with EPC itself and EAUX 0x100.
R178: URET resumes at the EPC of the record that the handler leaves at %annbase + 2,048, with the mask and the bypass
of the entry; outside a user handler it raises ILLEGAL, whose EAUX follows log 15, which is the
model's reading. -/
def Obligations.ProgramTrapsAndReturn : Prop :=
  (∀ (s : State) (c : Ctx), c.cur.clo = none →
  (∀ x : OpR, Issues s (.trapx x) c → ∃ t, exec (.trapx x) s = .next t ∧
    TakesTrap s t c 6 c.split.tick.bypass c.next c.cur.pc (BitVec.ofNat 32 x.r.toNat)) ∧
  (Issues s .brk c → ∃ t, exec .brk s = .next t ∧ TakesTrap s t c 6 c.split.bypass c.cur.pc c.cur.pc 0x100) ∧
  (∀ w : Word, w.getLsbD 0 = true → w.extractLsb' 1 6 = 0x27 →
    let bare := w.extractLsb' 7 14 = 0 ∧ w.getLsbD 31 = false
    (w.extractLsb' 28 3 = 5 → decode w 0 = if bare then .ok (.trapx ⟨w.extractLsb' 21 7⟩, 4) else .error (.illegal w)) ∧
    (w.extractLsb' 28 3 = 7 → decode w 0 = if bare ∧ w.extractLsb' 21 7 = 0 then .ok (.brk, 4) else .error (.illegal w)))) ∧
  (∀ (s : State) (c : Ctx), Issues s .uret c →
  (∀ sv a, c.warp.inu = some sv → s.translate c.grp.core c.grp.asid .read c.warp.userSlot = .ok a →
    let epc := BitVec.ofNat 64 (readNat (s.farByte c.grp.core c.grp.part) a 8)
    s.badTarget c.grp epc = none →
    ∃ t w, exec .uret s = .next t ∧ OnlyWarp (s.resumesAt c.cur.gid c.cur.widx sv.mask epc) t c.cur.gid c.cur.widx w ∧
      w.inu = none ∧
      (∀ sp, c.warp.split? sv.split = some sp →
        w.split? sv.split = some { sp with pc := epc, mask := sv.mask, bypass := sv.bypass }) ∧
      { w with splits := c.warp.splits, inu := c.warp.inu } = c.warp) ∧
  (c.warp.inu = none → Raises s .uret c 0x20 fun _ x => x = c.cur.iword))

/-! ### Special registers and modes -/

/-- R30, R181: MFU writes the value of a special register into vd, or into the pair vd:vd+1 where it is wide.
R31, R71, R145, R181: MTU writes %uvec, %annbase, the flags and enables of %fflags, or clears %phasef, from the lowest
active lane; a misaligned address, %annbase with an operation uncollected, and a read-only register trap.
The EAUX of an ILLEGAL that is not of the encoding rests on log 15, which is the model's reading. -/
def Obligations.SpecialRegisterAccess : Prop :=
  (∀ (s : State) (c : Ctx) (x : OpMfu), Issues s (.mfu x) c →
  let v := fun (l : Nat) => (match x.r with
    | .lane => BitVec.ofNat 64 l
    | .warp => BitVec.ofNat 64 c.warp.idx
    | .group => BitVec.ofNat 64 c.grp.member
    | .gang => BitVec.ofNat 64 c.grp.gang
    | .core => BitVec.ofNat 64 (c.grp.core % 128)
    | .die => BitVec.ofNat 64 (c.grp.core / 128)
    | .tile => BitVec.ofNat 64 c.cur.tile
    | .role => BitVec.ofNat 64 c.warp.role
    | .split => BitVec.ofNat 64 c.split.num
    | .mask => c.cur.mask.setWidth 64
    | .targ => smGet 0 c.warp.targ l
    | .uvec => c.warp.uvec
    | .ucause => c.warp.ucause.setWidth 64
    | .dmode => if c.grp.dmode then 1 else 0
    | .steps => (smGet 0 c.warp.steps l).setWidth 64
    | .fflags => (c.warp.fflags &&& 0x3F3F).setWidth 64
    | .annbase => c.warp.annbase
    | .cycles => BitVec.ofNat 64 ((s.die (c.grp.core / 128)).cyc8 / 8)
    | .ticks => BitVec.ofNat 64 (s.tick47 / 47)
    | .phasef => if c.grp.phasef then 1 else 0 : DWord)
  Completes s (.mfu x) c x.m false
    (if x.r.wide then [(x.d.toNat, fun l => (v l).extractLsb' 0 32), (x.d.toNat + 1, fun l => (v l).extractLsb' 32 32)]
     else [(x.d.toNat, fun l => (v l).extractLsb' 0 32)]) flag0) ∧
  (∀ (s : State) (c : Ctx) (x : OpMtu), Issues s (.mtu x) c →
  let v := c.pair x.a.toNat (c.low none)
  let word := c.reg x.a.toNat (c.low none)
  (x.r = .uvec → v.extractLsb' 0 2 = 0 → ∃ t w, exec (.mtu x) s = .next t ∧ OnlyWarp s t c.cur.gid c.cur.widx w ∧
    w.uvec = v ∧ Completed c none false [] flag0 { w with uvec := c.warp.uvec }) ∧
  (x.r = .uvec → v.extractLsb' 0 2 ≠ 0 → Raises s (.mtu x) c 0x26 fun a _ => a = v) ∧
  (x.r = .annbase → s.uncollected c = false → v.extractLsb' 0 6 = 0 → ∃ t w, exec (.mtu x) s = .next t ∧
    OnlyWarp s t c.cur.gid c.cur.widx w ∧ w.annbase = v ∧
    Completed c none false [] flag0 { w with annbase := c.warp.annbase }) ∧
  (x.r = .annbase → s.uncollected c = false → v.extractLsb' 0 6 ≠ 0 → Raises s (.mtu x) c 0x26 fun a _ => a = v) ∧
  (x.r = .annbase → s.uncollected c = true → Raises s (.mtu x) c 0x20 fun _ e => e = c.cur.iword) ∧
  (x.r = .fflags → ∃ t w, exec (.mtu x) s = .next t ∧ OnlyWarp s t c.cur.gid c.cur.widx w ∧
    w.fflags = word &&& 0x3F3F ∧ Completed c none false [] flag0 { w with fflags := c.warp.fflags }) ∧
  (x.r = .phasef → ∃ t, exec (.mtu x) s = .next t ∧
    Done (s.updGroup c.cur.gid fun g => { g with phasef := g.phasef && word.getLsbD 0 }) t c none false [] flag0) ∧
  (x.r ∉ ([.uvec, .annbase, .fflags, .phasef] : List UReg) → Raises s (.mtu x) c 0x20 fun _ e => e = c.cur.iword))

/-- R16, R39, R182, R183, R184: TILE sets the tile width of the warp, DMODE the mode of the group, and DQRY writes the
pending bits of 32 registers; a bad width, a mode left while anything is deferred, and a pending destination raise
ILLEGAL, whose EAUX, where it is the first word, follows log 15, which is the model's reading. -/
def Obligations.ModeInstructions : Prop := ∀ (s : State) (c : Ctx),
  (∀ x : OpSrc,
    let v := c.reg x.a.toNat (c.low none)
    (Issues s (.tile x) c → v ∈ ([2, 4, 8, 16, 32] : List Word) → ∃ t w, exec (.tile x) s = .next t ∧
      OnlyWarp s t c.cur.gid c.cur.widx w ∧ w.tile = v.toNat ∧
      Completed c none false [] flag0 { w with tile := c.warp.tile }) ∧
    (Issues s (.tile x) c → v ∉ ([2, 4, 8, 16, 32] : List Word) → Raises s (.tile x) c 0x20 fun _ e => e = v) ∧
    (Issues s (.dmode x) c → (v.getLsbD 0 = true ∨ c.grp.deferred = false) → ∃ t, exec (.dmode x) s = .next t ∧
      Done (s.updGroup c.cur.gid fun g => { g with dmode := v.getLsbD 0 }) t c none false [] flag0) ∧
    (Issues s (.dmode x) c → v.getLsbD 0 = false → c.grp.deferred = true →
      Raises s (.dmode x) c 0x20 fun _ e => e = c.cur.iword)) ∧
  (∀ x : OpDqry, Issues s (.dqry x) c →
    let busy := c.streamed && (c.warp.pend.any fun p => p.reg == x.d.toNat || p.reg == x.d.toNat + 1)
    (busy = false → ∃ bits : Word,
      Completes s (.dqry x) c x.m false [(x.d.toNat, fun _ => bits), (x.d.toNat + 1, fun _ => c.warp.closureWord)] flag0 ∧
      ∀ i < 32, bits.getLsbD i = (decide (32 * x.j.toNat + i < c.warp.window) &&
        c.warp.pend.any fun p => p.reg == 32 * x.j.toNat + i)) ∧
    (busy = true → Raises s (.dqry x) c 0x20 fun _ e => e = c.cur.iword)) ∧
  (∀ w : Word, w.getLsbD 0 = true → w.extractLsb' 1 6 = 0x2A → w.extractLsb' 28 4 = 2 → decode w 0 =
    if w.extractLsb' 7 7 = 0 ∧ w.extractLsb' 21 7 = 0 then .ok (.tile ⟨w.extractLsb' 14 7, none⟩, 4) else .error (.illegal w))

/-- R271, R285: MFSR writes the value of a system register into vd, or into the pair vd:vd+1 where it is wide.
R271, R285: MTSR writes the system register that it names, from the lowest active lane, and nothing else; it refuses
a read-only register, a misaligned address, and a queue that holds an unanswered fault.
Its corners that the spec leaves open follow log 15, log 19; those clauses are the model's choice. -/
def Obligations.SystemRegisterAccess : Prop :=
  (∀ (s : State) (c : Ctx) (x : OpMfsr), Issues s (.mfsr x) c →
  let d := s.die (c.grp.core / 128)
  let p := s.part c.grp.part
  let one := fun (b : Bool) => if b then (1 : DWord) else 0
  let v := (match x.r with
    | .kstat => one c.grp.kernel + 2 * one c.warp.inh.isSome + 4 * one c.warp.inu.isSome + 8 * one c.warp.susp.isSome
    | .kvec => d.kvec
    | .ktrb => d.ktrb
    | .kscr0 => c.warp.kscr0
    | .kscr1 => c.warp.kscr1
    | .ctxid => BitVec.ofNat 64 (c.grp.asid + 2 ^ 16 * c.grp.part)
    | .ptroot => (s.context c.grp.asid).root
    | .fqbase => p.fqbase
    | .fqctl => p.fqctl.setWidth 64
    | .racecfg => p.racecfg.setWidth 64
    | .orphlog => p.orphlog
    | .peatq => p.peatq.setWidth 64
    | .scrubpos => d.scrubpos
    | .intlog => d.intlog
    | .fwmbx => d.fwmbx
    | .ready => d.ready.setWidth 64 : DWord)
  Completes s (.mfsr x) c none false
    (if x.r.wide then [(x.d.toNat, fun _ => v.extractLsb' 0 32), (x.d.toNat + 1, fun _ => v.extractLsb' 32 32)]
     else [(x.d.toNat, fun _ => v.extractLsb' 0 32)]) flag0) ∧
  (∀ (s : State) (c : Ctx) (x : OpMtsr), Issues s (.mtsr x) c →
  let v := c.pair x.a.toNat (c.low none)
  let word := c.reg x.a.toNat (c.low none)
  let die := c.grp.core / 128
  let d := s.die die
  let p := s.part c.grp.part
  let done := fun (s' : State) => ∃ t, exec (.mtsr x) s = .next t ∧ Done s' t c none false [] flag0
  (x.r = .kvec → v.extractLsb' 0 2 = 0 → done (s.setDie die { d with kvec := v })) ∧
  (x.r = .kvec → v.extractLsb' 0 2 ≠ 0 → Raises s (.mtsr x) c 0x20 fun _ e => e = v.extractLsb' 0 32) ∧
  (x.r = .ktrb → v.toNat % 0x80000 = 0 → physRangeOk v.toNat 0x80000 = true →
    done (s.setDie die { d with ktrb := v })) ∧
  (x.r = .kscr0 → ∃ t w, exec (.mtsr x) s = .next t ∧ OnlyWarp s t c.cur.gid c.cur.widx w ∧ w.kscr0 = v ∧
    Completed c none false [] flag0 { w with kscr0 := c.warp.kscr0 }) ∧
  (x.r = .kscr1 → ∃ t w, exec (.mtsr x) s = .next t ∧ OnlyWarp s t c.cur.gid c.cur.widx w ∧ w.kscr1 = v ∧
    Completed c none false [] flag0 { w with kscr1 := c.warp.kscr1 }) ∧
  (x.r = .ptroot → v.toNat % 0x200000 = 0 → physRangeOk v.toNat 0x200000 = true →
    ∃ t, exec (.mtsr x) s = .next t ∧ (t.context c.grp.asid).root = v ∧
      (∀ e ∈ (t.die die).tlb, e.asid ≠ c.grp.asid) ∧ t.mem = s.mem ∧
      (∀ k, k / 128 = die → ∀ e ∈ (t.core k).tlb, e.asid ≠ c.grp.asid)) ∧
  (x.r = .fqbase → s.fqBusy c.grp.part = false → physOk v.toNat = true →
    done (s.setPart c.grp.part { p with fqbase := v, parties := [] })) ∧
  (x.r = .fqctl → s.fqBusy c.grp.part = false → word.toNat % 16 ≤ 12 → ∃ t, exec (.mtsr x) s = .next t ∧
    let q := t.part c.grp.part
    q.fqctl.extractLsb' 0 4 = word.extractLsb' 0 4 ∧ q.fqTail = 0 ∧ q.parties = [] ∧
    Done (s.setPart c.grp.part q) t c none false [] flag0 ∧ { q with fqctl := p.fqctl, parties := p.parties } = p) ∧
  (x.r ∈ ([.fqbase, .fqctl] : List SReg) → s.fqBusy c.grp.part = true → Raises s (.mtsr x) c 0x20 fun _ _ => True) ∧
  (x.r = .racecfg → done (s.setPart c.grp.part { p with racecfg := word &&& 3 })) ∧
  (x.r = .orphlog → done (s.setPart c.grp.part { p with orphlog := v })) ∧
  (x.r = .peatq → done (s.setPart c.grp.part { p with peatq := word })) ∧
  (x.r = .intlog → done (s.setDie die { d with intlog := v })) ∧
  (x.r = .fwmbx → done (s.notify die v)) ∧
  (x.r ∈ ([.kstat, .ctxid, .scrubpos, .ready] : List SReg) → Raises s (.mtsr x) c 0x20 fun _ e => e = c.cur.iword))

/-- R275, R276, R286: TRET, in a handler whose record answers no closure, resumes the trapping split at the record's EPC with
the mask and the bypass of the entry, and leaves the handler; a record that answers a closure frees it with absent codes (ACT 1)
or leaves it to run again, and the handler's split goes on at SPC; outside a handler it raises ILLEGAL; a bad record, or a bad
address to resume at, stops the group.
Its corners that the spec leaves open follow log 48, and the EAUX of ILLEGAL log 15; those clauses are the model's choice. -/
def Obligations.KernelReturnResumes : Prop := ∀ (s : State) (c : Ctx), Issues s .tret c →
  let rec' := readSlot (s.farByte c.grp.core c.grp.part) (s.trapSlot c.grp.core c.warp.slot)
  let stops := ∃ t g, exec .tret s = .next t ∧ t.group? c.grp.gid = some g ∧ g.stat = .stopped ∧ t.mem = s.mem
  (∀ sv, c.warp.inh = some sv → rec'.act = 0 → rec'.ecv = false → s.badTarget c.grp rec'.epc = none →
    ∃ t w, exec .tret s = .next t ∧ OnlyWarp (s.resumesAt c.cur.gid c.cur.widx sv.mask rec'.epc) t c.cur.gid c.cur.widx w ∧
      w.inh = none ∧
      (∀ sp, c.warp.split? sv.split = some sp →
        w.split? sv.split = some { sp with pc := rec'.epc, mask := sv.mask, bypass := sv.bypass }) ∧
      { w with splits := c.warp.splits, inh := c.warp.inh } = c.warp) ∧
  (∀ sv, c.warp.inh = some sv → rec'.ecv = true → rec'.act < 3 → rec'.spc ≠ 0 →
    ∃ t w, exec .tret s = .next t ∧ OnlyWarp s t c.cur.gid c.cur.widx w ∧ w.inh = none ∧
      (∀ sp, c.warp.split? sv.split = some sp →
        w.split? sv.split = some { sp with pc := rec'.spc, mask := sv.mask, bypass := sv.bypass }) ∧
      (∀ k, c.warp.closure? rec'.ecl = some k →
        (rec'.act = 1 → w.closure? rec'.ecl = none ∧ ∀ r ∈ k.dregs, ∀ l < 32, k.mask.getLsbD l = true → w.reg r l = 0xFFFFFFFF) ∧
        (rec'.act ≠ 1 → w.closure? rec'.ecl = some { k with noFp := rec'.act == 2 }))) ∧
  (c.warp.inh.isSome = true → rec'.act = 0 → rec'.ecv = false → s.badTarget c.grp rec'.epc ≠ none → stops) ∧
  (c.warp.inh.isSome = true → (rec'.act = 3 ∨ (1 ≤ rec'.act ∧ rec'.ecv = false)) → stops) ∧
  (c.warp.inh = none → Raises s .tret c 0x20 fun _ e => e = c.cur.iword) ∧
  (rec'.act = 3 → Raises s .tret c 0x20 fun _ e => e = c.cur.iword)

/-- R270: no instruction changes the mode of a running context. -/
def Obligations.ModeIsFixed : Prop := ∀ (s t : State) (i : Instr) (n : Nat) (g h : Group), i.encoded = true →
  (s.groups.map fun x => x.gid).Nodup → exec i s = .next t → s.group? n = some g → t.group? n = some h → h.kernel = g.kernel

/-- R270, R271, R283: an instruction that is not privileged changes no system register of a die but the mailbox, none of a
partition but the TAIL and OVF of its fault queue, none of a warp, and no address space. -/
def Obligations.KernelRegistersKept : Prop := ∀ (s t : State) (i : Instr), i.encoded = true → i.privileged = false →
  exec i s = .next t →
  (∀ d, (t.die d).kvec = (s.die d).kvec ∧ (t.die d).ktrb = (s.die d).ktrb ∧ (t.die d).scrubpos = (s.die d).scrubpos ∧
    (t.die d).intlog = (s.die d).intlog ∧ (t.die d).ready = (s.die d).ready) ∧
  (∀ p, (t.part p).live = (s.part p).live ∧ (t.part p).fqbase = (s.part p).fqbase ∧ (t.part p).racecfg = (s.part p).racecfg ∧
    (t.part p).orphlog = (s.part p).orphlog ∧ (t.part p).peatq = (s.part p).peatq ∧ (t.part p).ranges = (s.part p).ranges ∧
    (t.part p).fqctl.extractLsb' 0 4 = (s.part p).fqctl.extractLsb' 0 4) ∧
  (∀ g x w v, s.warp? g x = some w → t.warp? g x = some v → v.kscr0 = w.kscr0 ∧ v.kscr1 = w.kscr1) ∧
  ∀ a, t.context a = s.context a

/-! ### Memory -/

/-- R84, R138, R218 to R220, R222: LD and LDX.
R40, R45, R48, R174: once every answer is here, LOAD_LANDING writes the destinations in the lanes that have not exited or
that a closure awaits, in all that it captured where a closure issued it, and nothing is pending on the landing any more.
Its corners that the spec leaves open follow log 14, log 45, log 92, log 93; those clauses are the model's choice. -/
def Obligations.LoadsAndLanding : Prop :=
  (∀ (s : State) (c : Ctx),
  (∀ x : OpLd, Issues s (.ld x) c → Reads s (.ld x) c x.m x.p x.z (span x.d.toNat x.z.regs) fun l =>
    c.ea s x.p x.a.toNat (BitVec.ofNat 64 (x.o.toNat * x.z.bytes)) x.z.bytes l) ∧
  (∀ x : OpX, Issues s (.ldx x) c → Reads s (.ldx x) c x.m x.p .b32 [x.d.toNat] fun l =>
    c.ea s x.p x.a.toNat (if x.p = .g then (c.reg x.b.toNat l).signExtend 64 else (c.reg x.b.toNat l).setWidth 64) 4 l)) ∧
  (∀ (s : State) (fly : Nat) (f : Fly) (g : Group) (w : Warp),
  s.fly? fly = some f → s.group? f.gid = some g → s.warp? f.gid f.widx = some w → g.stat ≠ .moving →
  (∀ x ∈ w.splits, x.busy ≠ some fly) → f.todo = [] → f.future = none → f.left = 0 → f.ready = f.mask → f.mask ≠ 0 →
  ∃ t w', exec (.loadLanding fly) s = .next t ∧ t.warp? f.gid f.widx = some w' ∧
    (∀ r l, l < 32 → w'.reg r l =
      match Writes.of (f.vals.map fun p => (p.1, fun l => p.2.getD l 0)) r with
      | some v => if (if f.whole then f.mask else f.mask &&& w.landLanes fly).getLsbD l then v l else w.reg r l
      | none => w.reg r l) ∧
    (∀ p ∈ w'.pend, p.id ≠ fly) ∧ t.fly? fly = none ∧ t.mem = s.mem ∧
    (∀ a x, ¬ (a = f.gid ∧ x = f.widx) → t.warp? a x = s.warp? a x))

/-- R84, R137, R218, R219, R221, R222: ST and STX.
Its corners that the spec leaves open follow log 54; those clauses are the model's choice. -/
def Obligations.StoresWriteTheirBytes : Prop := ∀ (s : State) (c : Ctx),
  (∀ x : OpSt, Issues s (.st x) c → StoresAt s (.st x) c x.m x.p x.z.bytes
    (fun l => c.ea s x.p x.a.toNat (BitVec.ofNat 64 (x.o.toNat * x.z.bytes)) x.z.bytes l)
    fun l => ((List.range x.z.regs).map fun j => 2 ^ (32 * j) * (c.reg (x.d.toNat + j) l).toNat).sum) ∧
  (∀ x : OpX, Issues s (.stx x) c → StoresAt s (.stx x) c x.m x.p 4
    (fun l => c.ea s x.p x.a.toNat (if x.p = .g then (c.reg x.b.toNat l).signExtend 64 else (c.reg x.b.toNat l).setWidth 64) 4 l)
    fun l => (c.reg x.d.toNat l).toNat)

/-- R151, R218, R317, R322: an access of LD, LDX, ST, STX or ATOM traps, before any lane performs, for the lowest lane that is
misaligned, else for the lowest outside its space, else, in kind 0, for the lowest that does not translate, else for the lowest
that meets a locked range, else, for a plain access to far memory, for the lowest that races, with EAUX the core blamed; EADDR is
the lane's address; and no byte of scratch, no store of a core and no value in flight has changed. -/
def Obligations.AccessTrapsInOrder : Prop := ∀ (s : State) (c : Ctx),
  (∀ x : OpLd, Issues s (.ld x) c → AccessTraps s (.ld x) c x.p x.z.bytes false true ((c.accLanes x.m).map fun l =>
    c.ea s x.p x.a.toNat (BitVec.ofNat 64 (x.o.toNat * x.z.bytes)) x.z.bytes l)) ∧
  (∀ x : OpSt, Issues s (.st x) c → AccessTraps s (.st x) c x.p x.z.bytes true true ((c.act x.m).map fun l =>
    c.ea s x.p x.a.toNat (BitVec.ofNat 64 (x.o.toNat * x.z.bytes)) x.z.bytes l)) ∧
  (∀ x : OpX,
    let at_ := fun l => c.ea s x.p x.a.toNat (if x.p = .g then (c.reg x.b.toNat l).signExtend 64 else (c.reg x.b.toNat l).setWidth 64) 4 l
    (Issues s (.ldx x) c → AccessTraps s (.ldx x) c x.p 4 false true ((c.accLanes x.m).map at_)) ∧
    (Issues s (.stx x) c → AccessTraps s (.stx x) c x.p 4 true true ((c.act x.m).map at_))) ∧
  (∀ x : OpAtom, Issues s (.atom x) c → let n := if x.w64 then 8 else 4
    AccessTraps s (.atom x) c x.p n true false ((c.act x.m).map fun l => c.ea s x.p x.a.toNat 0 n l))

/-- R90, R91, R224: ATOM sends every lane's operation to the home engine of its location; with REL it goes behind the
release of the core. -/
def Obligations.AtomicsReachTheirEngine : Prop := ∀ (s : State) (c : Ctx) (x : OpAtom), Issues s (.atom x) c →
  let n := if x.w64 then 8 else 4
  let ea := fun l => c.ea s x.p x.a.toNat 0 n l
  (c.act x.m = [] → Completes s (.atom x) c none false [] flag0) ∧
  (c.act x.m ≠ [] → s.fly? (c.key s) = none → Accessible s c x.p n true false ((c.act x.m).map ea) →
    (x.o = .add ∨ x.o = .cas ∨ ∀ l ∈ c.act x.m, ∀ a, s.placeOf c.grp true (ea l) = some a → a.peer = false) →
    Sends s (.atom x) c (.atom x.o x.w64) (c.actMask x.m) (span x.d.toNat x.outRegs) (c.act x.m) (c.act x.m).length true
      (if x.rel then some x.s else none) ea
      (fun l => (c.atomArgs x l).1) fun l => (c.atomArgs x l).2)

/-- R90, R91, R224, R234, R235: a home engine lands the value of a future that a plain write has filled, or serves its next batch
whole; for ATOM the location takes the new value at once and the lane's answer is the old one; FSET fills an empty future, wakes
every lane that is registered there and answers 1, and answers 0 at a full one; FCLR empties it under the next epoch and keeps its
value; FGET answers the value of a full one, and at an empty one registers its lane in deferring mode or gives no value.
Its corners that the spec leaves open follow log 11; those clauses are the model's choice. -/
def Obligations.HomeEngineServes : Prop := ∀ (s : State) (engine : Nat),
  (∀ w, s.filledWaiter engine = some w → ∃ t, exec (.homeEngineTransaction engine) s = .next t ∧
    (∀ x ∈ t.waiters, x.loc ≠ w.loc) ∧ { t with waiters := s.waiters, flys := s.flys } = s) ∧
  (∀ b o, s.filledWaiter engine = none → s.nextBatch engine = some (b, o) →
    ∃ t, exec (.homeEngineTransaction engine) s = .next t ∧ (∀ x ∈ t.batches, x.id ≠ b.id) ∧
      ∀ op w64 tx a, b.kind = .atom op w64 → b.txs = [tx] → tx.loc = .phys a → isPeer (a + 8) = false →
        (∀ f ∈ s.flys, ∀ x ∈ f.todo, x.behind ≠ b.id) →
        let n := if w64 then 8 else 4
        t.homeNat a n = (op.apply n (s.homeNat a n) (tx.y.toNat % 2 ^ (8 * n)) (tx.n.toNat % 2 ^ (8 * n))) % 2 ^ (8 * n) ∧
        (∀ q, s.Outside a n q → t.home q = s.home q) ∧
        ∀ f d vs rest, s.fly? b.fly = some f → f.vals = (d, vs) :: rest → vs.length = 32 → tx.lane < 32 →
          ∃ f' vs', t.fly? b.fly = some f' ∧ f'.vals.head? = some (d, vs') ∧ f'.left = f.left - 1 ∧
            vs'.getD tx.lane 0 = BitVec.ofNat 32 (s.homeNat a n)) ∧
  (∀ b o tx a, s.filledWaiter engine = none → s.nextBatch engine = some (b, o) → b.txs = [tx] → tx.loc = .phys a →
    isPeer (a + 8) = false → tx.lane < 32 → (∀ f ∈ s.flys, ∀ x ∈ f.todo, x.behind ≠ b.id) →
    let w := s.homeNat a 8
    let full := w / 2 ^ 32 % 2 = 1
    let lands := fun (t : State) (fly lane : Nat) (n : Word) => ∀ f d vs rest, s.fly? fly = some f → f.vals = (d, vs) :: rest →
      vs.length = 32 → ∃ f' vs', t.fly? fly = some f' ∧ f'.vals.head? = some (d, vs') ∧ vs'.getD lane 0 = n ∧
        f'.ready.getLsbD lane = true
    ∃ t, exec (.homeEngineTransaction engine) s = .next t ∧
      (b.kind = .fset → full → t.mem = s.mem ∧ t.waiters = s.waiters ∧ lands t b.fly tx.lane 0) ∧
      (b.kind = .fset → ¬ full → t.homeNat a 8 = w / 2 ^ 33 * 2 ^ 33 + 2 ^ 32 + tx.y.toNat % 2 ^ 32 ∧
        (∀ q, s.Outside a 8 q → t.home q = s.home q) ∧ (∀ x ∈ t.waiters, x.loc ≠ tx.loc) ∧ lands t b.fly tx.lane 1 ∧
        ∀ x ∈ s.waiters, x.loc = tx.loc → x.fly ≠ b.fly → x.lane < 32 → lands t x.fly x.lane (tx.y.setWidth 32)) ∧
      (b.kind = .fclr → t.homeNat a 8 = (w / 2 ^ 40 + 1) % 2 ^ 24 * 2 ^ 40 + w % 2 ^ 40 / 2 ^ 33 * 2 ^ 33 + w % 2 ^ 32 ∧
        (∀ q, s.Outside a 8 q → t.home q = s.home q) ∧ t.waiters = s.waiters) ∧
      (∀ wait, b.kind = .fget wait → t.mem = s.mem ∧
        (full → t.waiters = s.waiters ∧ lands t b.fly tx.lane (BitVec.ofNat 32 w)) ∧
        (¬ full → s.locMarked tx.loc 8 = false → wait = false → t.waiters = s.waiters ∧
          ∀ f, s.fly? b.fly = some f → t.fly? b.fly = some { f with left := f.left - 1 }) ∧
        (¬ full → s.locMarked tx.loc 8 = false → wait = true → s.abandoned b.fly = false →
          t.waiters = s.waiters ++ [⟨tx.loc, b.gid, b.widx, tx.lane, b.fly⟩] ∧ t.flys = s.flys))) ∧
  (∀ op n x y z, (op : AtomOp).apply n x y z =
    match op with
    | .add => (x + y) % 2 ^ (8 * n)
    | .min => if (if 2 * x < 2 ^ (8 * n) then (x : Int) else x - 2 ^ (8 * n)) ≤ (if 2 * y < 2 ^ (8 * n) then (y : Int) else y - 2 ^ (8 * n)) then x else y
    | .max => if (if 2 * x < 2 ^ (8 * n) then (x : Int) else x - 2 ^ (8 * n)) ≤ (if 2 * y < 2 ^ (8 * n) then (y : Int) else y - 2 ^ (8 * n)) then y else x
    | .and => x &&& y
    | .or => x ||| y
    | .xor => x ^^^ y
    | .swp => y
    | .cas => if x = y then z else x
    | .incw => if y ≤ x then 0 else x + 1)

/-- R139, R141, R146, R225: a phase instruction acts once for its warp where a lane is active: a release takes the stores
of the core that no earlier release of its scope covers, in their order, an acquire takes the landings in its domain into
the core's snapshot, and FENCE changes nothing that another core sees.
R22: FENCE at gang scope is ILLEGAL in a group that is no gang's.
R139, R140, R145: the oldest release of a core lands its writes in the home copies, once, in the order of its stores;
a core that has not acquired for 2^16 releases acquires by force.
Its corners that the spec leaves open follow log 54, log 93, and the EAUX of ILLEGAL log 15; those clauses are the model's choice. -/
def Obligations.PhasesAndReleases : Prop :=
  (∀ (s : State) (c : Ctx),
  (∀ x : OpScope, c.act x.m = [] →
    (Issues s (.phaseRel x) c → Completes s (.phaseRel x) c none false [] flag0) ∧
    (Issues s (.phaseAr x) c → Completes s (.phaseAr x) c none false [] flag0) ∧
    (Issues s (.fence x) c → Completes s (.fence x) c none false [] flag0)) ∧
  (∀ x : OpAcq, c.act x.m = [] → Issues s (.phaseAcq x) c → Completes s (.phaseAcq x) c none false [] flag0) ∧
  (∀ x : OpScope, c.act x.m ≠ [] →
    let alone := x.s = .gang ∧ c.grp.members ≤ 1 ∧ c.grp.isGang = false
    (Issues s (.phaseRel x) c → DoesInTurn s (.phaseRel x) c (.release x.s false []) (s.releaseOf c.grp x.s [] none)) ∧
    (Issues s (.phaseAr x) c → DoesInTurn s (.phaseAr x) c (.release x.s true [])
      ((s.releaseOf c.grp x.s [] none).acquireAt c.grp (scopeNum x.s))) ∧
    (Issues s (.fence x) c → ¬ alone → DoesInTurn s (.fence x) c .fence s) ∧
    (Issues s (.fence x) c → alone → Raises s (.fence x) c 0x20 fun _ e => e = c.cur.iword)) ∧
  (∀ x : OpAcq, Issues s (.phaseAcq x) c → c.act x.m ≠ [] →
    (scopeNum x.s < 3 → DoesInTurn s (.phaseAcq x) c .fence s) ∧
    (3 ≤ scopeNum x.s → ∃ t, exec (.phaseAcq x) s = .next t ∧
      Done (s.acquireAt c.grp (scopeNum x.s)) t c none false [] flag0)) ∧
  (∀ core dom part scope after, ∃ r,
    let t := s.release core dom part scope after
    (t.core core).relq = (s.core core).relq ++ [r] ∧ r.after = after ∧ r.isOpen = false ∧ t.mem = s.mem ∧
      (∀ p a, t.farByte core p a = s.farByte core p a) ∧
      r.writes = ((s.core core).stores.filter fun x =>
        decide (3 ≤ scope) && x.uncovered scope && (!isPeer x.addr || decide (6 ≤ scope))).map fun x => (x.addr, x.byte)) ∧
  (∀ core dom l, l ∈ s.log → (∀ k ∈ s.log, k.idx = l.idx → k = l) →
    ((s.acquire core dom).core core).contained.contains l.idx =
      ((s.core core).contained.contains l.idx ||
        decide (l.lo ≤ core ∧ core ≤ l.hi ∧ dom.1 ≤ l.core ∧ l.core ≤ dom.2)))) ∧
  (∀ (s : State) (core : Nat),
  (∀ r rest, (s.core core).relq = r :: rest → r.isOpen = false → 3 ≤ r.scope → r.scope ≤ 5 → r.core = core → (∀ q ∈ rest, q.id ≠ r.id) →
    r.after = [] → s.watches = [] → s.peatFull r.part r.writes = false → ∃ t, exec (.releaseLanding core) s = .next t ∧
      (∀ a, (∀ w ∈ r.writes, rawAddr w.1 / 128 = rawAddr a / 128 → s.viewOf w.1 = s.viewOf a) →
        t.home a = (lastWrite (rawWrites (r.writes.filter fun w => !isPeer w.1)) (rawAddr a)).getD (s.home a)) ∧
      (t.core core).relq = rest ∧ t.nextLanding = s.nextLanding + 1 ∧
      (∀ g x, t.warp? g x = s.warp? g x)) ∧
  (65536 < s.relCount core → ∃ t, exec (.forcedAcquire core) s = .next t ∧ t.mem = s.mem ∧
    ((t.core core).acqIdx = s.log.length) ∧ (∀ g x, t.warp? g x = s.warp? g x) ∧
    ∀ g ∈ t.groups, g.core = core → g.onCore = true → g.phasef = true))

/-- At reset the memories are in canonical form, no group, launch or operation exists, and no die is up.
Its corners that the spec leaves open follow log 2; those clauses are the model's choice. -/
def Obligations.ResetMemory : Prop :=
  State.reset.memWf = true ∧ State.reset.groups = [] ∧ State.reset.launches = [] ∧ State.reset.ops = [] ∧
  State.reset.boot.up = false ∧ (∀ a, keySlot a = none → State.reset.home a = 0) ∧ State.reset.cur = none

/-- THE INVARIANT of physical memory: every step keeps the canonical form of the home copies and of what lies under the
landings. -/
def Obligations.StepKeepsMemory : Prop := ∀ s t : State, s.memWf = true → step s = .next t → t.memWf = true

/-- THE INVARIANT of scratch: every step keeps the canonical form of the S and N memories of every group. -/
def Obligations.StepKeepsScratch : Prop := ∀ s t : State, s.memWf = true → (∀ g ∈ s.groups, g.memWf = true) →
  step s = .next t → ∀ g ∈ t.groups, g.memWf = true

/-! ### Barriers, futures, announced operations -/

/-- R229, R230, R231: BAR.INIT sets up a barrier with its count, or joins the gang's, and BAR.ADD raises the expectation of
the phase that the warp will arrive at; both with an active lane, outside a gathered task warp, and in range.
R147, R229, R231, R232: BAR.ARV arrives once, tagged with the warp's ARVP, behind a release at the barrier's scope; the
arrival is counted when that lands, and the one that completes a phase opens the next. BAR.TST answers whether phase OBSP has
completed and then observes it; BAR.PND leaves vd pending until it has.
Its corners that the spec leaves open follow log 17, and the EAUX of ILLEGAL log 15; those clauses are the model's choice. -/
def Obligations.BarriersCountAndPhase : Prop :=
  (∀ (s : State) (c : Ctx),
  (∀ x : OpBarInit, Issues s (.barInit x) c →
    let b := x.k.toNat
    let v := (c.reg x.a.toNat (c.low x.m)).toNat
    let own := smGet Bar.fresh c.grp.bars b
    (c.act x.m = [] → Completes s (.barInit x) c none false [] flag0) ∧
    (c.act x.m ≠ [] → c.warp.task = false → 1 ≤ v → v ≤ 1024 →
      (x.gang = false → (∀ q, s.barOf c.grp b = some q → q.2.1 < 16) →
        (own.init = false ∨ (own.ta0 = 0 ∧ own.ee0 = 0 ∧ own.ea0 = 0 ∧ own.ta1 = 0 ∧ own.ee1 = 0 ∧ own.ea1 = 0)) →
        ∃ t, exec (.barInit x) s = .next t ∧
          Done (s.setBar c.grp.gid b { own with init := true, count := v }) t c none false [] flag0) ∧
      (∀ m, x.gang = true → (1 < c.grp.members ∨ c.grp.isGang = true) → s.barHome? c.grp = some m →
        let y := smGet Bar.fresh m.bars (16 + b)
        (y.init = false → ∃ t, exec (.barInit x) s = .next t ∧
          Done (s.setBar m.gid (16 + b) { Bar.fresh with init := true, gang := true, count := v, inits := [c.grp.member] })
            t c none false [] flag0) ∧
        (y.init = true → y.count = v → ∃ t, exec (.barInit x) s = .next t ∧
          Done (s.setBar m.gid (16 + b) { y with inits := y.inits.filter (· != c.grp.member) ++ [c.grp.member] })
            t c none false [] flag0) ∧
        (y.init = true → y.count ≠ v → Raises s (.barInit x) c 0x20 fun _ e => e = c.cur.iword))) ∧
    (c.act x.m ≠ [] → c.warp.task = false → (v = 0 ∨ 1024 < v) →
      Raises s (.barInit x) c 0x20 fun _ e => e.toNat = v)) ∧
  (∀ x : OpBarS, Issues s (.barAdd x) c → ∀ o key y, s.barOf c.grp x.k.toNat = some (o, key, y) →
    let v := (c.reg x.r.toNat (c.low x.m)).toNat
    let a := smGet 0 c.warp.arvp x.k.toNat
    c.act x.m ≠ [] → c.warp.task = false → 1 ≤ v → v ≤ 255 →
    ((a = y.ph ∨ (a - y.ph).msb = true) → y.ee0 + v ≤ 255 → ∃ t, exec (.barAdd x) s = .next t ∧
      Done (s.setBar o.gid key { y with ee0 := y.ee0 + v }) t c none false [] flag0) ∧
    (a = y.ph + 1 → (a - y.ph).msb = false → y.ee1 + v ≤ 255 → ∃ t, exec (.barAdd x) s = .next t ∧
      Done (s.setBar o.gid key { y with ee1 := y.ee1 + v }) t c none false [] flag0))) ∧
  (∀ (s : State) (c : Ctx) (o : Group) (key : Nat) (y : Bar), c.warp.task = false →
  (∀ x : OpBar, Issues s (.barArv x) c → s.barOf c.grp x.k.toNat = some (o, key, y) → c.act x.m ≠ [] →
    let b := x.k.toNat
    let tag := smGet 0 c.warp.arvp b
    (tag - smGet 0 c.warp.obsp b).toNat < 2 →
    ∃ t w, exec (.barArv x) s = .next t ∧ t.warp? c.cur.gid c.cur.widx = some w ∧
      Completed c none false [] flag0 { w with arvp := c.warp.arvp, obsp := c.warp.obsp } ∧
      smGet 0 w.arvp b = tag + 1 ∧ t.mem = s.mem ∧
      (let a := Act.release (if y.gang then .gang else .group) false [.arrive o.gid key tag]
       TakesTurn s t c.cur.gid c.cur.widx a ∧
       (s.Turn c.cur.gid c.cur.widx a → ∃ r ∈ (t.core c.grp.core).relq, .arrive o.gid key tag ∈ r.after))) ∧
  (∀ x : OpBarS, s.barOf c.grp x.k.toNat = some (o, key, y) → c.act x.m ≠ [] →
    let b := x.k.toNat
    let ob := smGet 0 c.warp.obsp b
    let past := (ob - y.ph).msb
    (Issues s (.barTst x) c → ∃ t w, exec (.barTst x) s = .next t ∧ t.warp? c.cur.gid c.cur.widx = some w ∧
      Completed c x.m false [(x.r.toNat, fun _ => if past then 1 else 0)] flag0
        { w with arvp := c.warp.arvp, obsp := c.warp.obsp } ∧
      smGet 0 w.obsp b = (if past then ob + 1 else ob) ∧ t.mem = s.mem) ∧
    (Issues s (.barPnd x) c → c.grp.dmode = true → s.fly? (c.key s) = none → ∃ t w f, exec (.barPnd x) s = .next t ∧
      t.warp? c.cur.gid c.cur.widx = some w ∧ t.fly? (c.key s) = some f ∧ f.mask = c.actMask x.m ∧
      Started c (c.key s) true (c.actMask x.m) [x.r.toNat] { w with arvp := c.warp.arvp, obsp := c.warp.obsp } ∧
      (past = true → f.ready = c.actMask x.m ∧ smGet 0 w.obsp b = ob + 1 ∧
        ∀ l < 32, (c.actMask x.m).getLsbD l = true → (f.vals.getD 0 (0, [])).2.getD l 0 = ob) ∧
      (past = false → f.ready = 0 ∧ t.groups.map Group.bare =
        (s.setBar o.gid key { y with pnds := y.pnds ++ [⟨c.cur.gid, c.cur.widx, c.key s, ob⟩] }).groups.map Group.bare)) ∧
    (Issues s (.barPnd x) c → c.grp.dmode = false → Raises s (.barPnd x) c 0x20 fun _ e => e = c.cur.iword)) ∧
  (∀ x : OpBar, Issues s (.barArv x) c → s.barOf c.grp x.k.toNat = none → c.act x.m ≠ [] →
    Raises s (.barArv x) c 0x20 fun _ e => e = c.cur.iword)) ∧
  (∀ (s : State) (core gid key : Nat) (tag : Word) (r : Release) (rest : List Release) (g : Group),
  let y := smGet Bar.fresh g.bars key
  (s.core core).relq = r :: rest → r.isOpen = false → r.scope < 3 → r.after = [.arrive gid key tag] → s.group? gid = some g →
  y.init = true → y.pnds = [] → tag = y.ph →
  ∃ t h, exec (.releaseLanding core) s = .next t ∧ t.group? gid = some h ∧ t.mem = s.mem ∧
    (y.ta0 + 1 < y.count → smGet Bar.fresh h.bars key = { y with ta0 := y.ta0 + 1 }) ∧
    (y.count ≤ y.ta0 + 1 → y.ea0 = y.ee0 → y.ta1 < y.count → smGet Bar.fresh h.bars key =
      { y with ph := y.ph + 1, ta0 := y.ta1, ee0 := y.ee1, ea0 := y.ea1, ta1 := 0, ee1 := 0, ea1 := 0 }))

/-- R233 to R236: FGET, FSET and FCLR send one transaction a lane to the home engine of its future. In non-deferring mode
FGET completes with all values when every answer is here, or raises FUTURE_EMPTY with the lowest lane whose future was
empty. -/
def Obligations.FuturesSendAndAnswer : Prop := ∀ (s : State) (c : Ctx) (x : OpFut),
  let ea := fun l => c.ea s x.p x.a.toNat 0 8 l
  let near := fun wr => ∀ l ∈ c.act x.m, ∀ a, s.placeOf c.grp wr (ea l) = some a → a.peer = false
  let es := (c.act x.m).map ea
  c.act x.m ≠ [] → s.fly? (c.key s) = none →
  (Issues s (.fget x) c → c.split.busy = none → c.grp.dmode = true → (c.streamed = true → s.openFgets c.cur.gid c.cur.widx < 8) →
    Accessible s c x.p 8 false false es → near false →
    (x.p ≠ .g → s.fenceBehind c.cur.gid c.cur.widx = 0) →
    Sends s (.fget x) c (.fget true) (c.actMask x.m) [x.d.toNat] (c.act x.m) 0 false none ea (fun _ => 0) fun _ => 0) ∧
  (Issues s (.fset x) c → Accessible s c x.p 8 true false es → near true →
    Sends s (.fset x) c .fset (c.actMask x.m) [x.d.toNat] (c.act x.m) (c.act x.m).length true (some (objScope x.p)) ea
      (fun l => (c.reg x.d.toNat l).setWidth 64) fun _ => 0) ∧
  (Issues s (.fclr x) c → Accessible s c x.p 8 true false es → near true →
    Sends s (.fclr x) c .fclr (c.actMask x.m) [] (c.act x.m) (c.act x.m).length true none ea (fun _ => 0) fun _ => 0) ∧
  (∀ f, Issues s (.fget x) c → c.split.busy.bind s.fly? = some f → f.future = some false → f.left = 0 →
    ((∀ l ∈ c.act x.m, f.ready.getLsbD l = true) → f.poison = [] → ∃ t, exec (.fget x) s = .next t ∧
      let s1 := { s with flys := s.flys.filter fun y => y.id != f.id }
      let n := match x.p with | .s => 2 | .n => 3 | .g => 5
      let s2 := if n = 2 then { s1 with queue := t.queue, uid := t.uid } else s1.acquireAt c.grp n
      Done s2 t c x.m false [(x.d.toNat, fun l => ((f.vals.head?.map fun v => v.2).getD []).getD l 0)] flag0) ∧
    (∀ u l v, c.act x.m = u ++ l :: v → (∀ k ∈ u, f.ready.getLsbD k = true) → f.ready.getLsbD l = false →
      Raises s (.fget x) c 1 fun a e => a = (ea l).va ∧ e = BitVec.ofNat 32 l)) ∧
  (Issues s (.fget x) c → c.streamed = true → c.split.busy = none → c.grp.dmode = true → 8 ≤ s.openFgets c.cur.gid c.cur.widx →
    Accessible s c x.p 8 false false es → near false →
    Raises s (.fget x) c 5 fun _ e => e.getLsbD 8 = true)

/-- R100, R105, R227, R228: ANN in deferring mode starts one drive a lane, sends the tail swaps of the lanes that announce
to the engines of their objects, and waits at its place while they are there, then retires with its pair pending; ANN and
ANN.HLP in the waiting form complete, with the pairs of their drives, when every drive has ended; ANNQ reads the lane's
own record, with no transaction.
R96, R97, R100: the tail swap writes the lane's record, makes it the header's tail under the next sequence number, and
keeps the record before it as its predecessor; the driver sends the next transactions of an instruction's lanes together, and the
collection reads the result and makes the record idle.
R94, R98, R99: a step transaction acts only on the record with the sequence number, the step and the state that its sender
expects; it copies, computes and writes what that step of the operation does, a cell only where its stamp is older; the last step
moves the header's HEAD on and completes the record.
Its corners that the spec leaves open follow log 18, log 58, log 59, log 67; those clauses are the model's choice. -/
def Obligations.AnnouncementsDriveRecords : Prop :=
  (∀ (s : State) (c : Ctx),
  (∀ x : OpAnn, Issues s (.ann x) c → c.act x.m ≠ [] →
    let a := 2 * x.a.toNat
    let d := 2 * x.d.toNat
    let key := c.key s
    let wide := isContainer (annCode x.o)
    let rel := if x.ord.getLsbD 0 then some (objScope x.p) else none
    (c.grp.dmode = true → (c.streamed = true → c.split.busy = none ∧ ∀ l ∈ c.act x.m, s.driveOf c false l = none) →
      c.warp.annbase ≠ 0 → s.fly? key = none →
      (wide = true → ∀ l ∈ c.act x.m, 1 ≤ c.annWidth x l ∧ c.annWidth x l ≤ 16) → recordTrap s c (c.act x.m) = none →
      headerTrap s c x.p a (c.act x.m) = none →
      swapTrap s c x.p a ((c.act x.m).filter fun l => !c.warp.annLive.getLsbD l) = none →
      ∃ t w f, exec (.ann x) s = .next t ∧ t.warp? c.cur.gid c.cur.widx = some w ∧ t.mem = s.mem ∧
        t.fly? key = some f ∧ f.mask = c.actMask x.m ∧ f.ready = 0 ∧ (f.vals.map fun p => p.1) = [d, d + 1] ∧
        ((c.streamed = true ∧ w.split? c.cur.split = some { c.split with busy := some key } ∧
            { w with splits := c.warp.splits } = c.warp) ∨
          Started c key (!t.swapping key) (c.actMask x.m) [d, d + 1] w) ∧
        (∀ l ∈ c.act x.m, ∃ v ∈ t.drives, v.lane = l ∧ v.gid = c.cur.gid ∧ v.widx = c.cur.widx ∧ v.fly = key ∧
          v.obj = c.header x.p a l ∧ v.op = annCode x.o ∧ v.space = x.p ∧ v.help = false) ∧
        ∀ l ∈ c.act x.m, c.warp.annLive.getLsbD l = false → ∀ q h, c.swapPlace s x.p a l = .ok q h → h.peer = false →
          s.locEngine h < portEngine → ∃ b, OnTheWay s t c rel b ∧ b.kind = .ann .swap ∧ b.engine = s.locEngine h ∧
            ∃ y ∈ b.txs, y.lane = l ∧ y.loc = h ∧ y.n = BitVec.ofNat 64 q) ∧
    (∀ k, c.streamed = true → c.split.busy = some k → k ≠ 0 →
      (s.swapHeld k = false → ∃ t w, exec (.ann x) s = .next t ∧ OnlyWarp s t c.cur.gid c.cur.widx w ∧
        Started c k (!s.swapping k) (c.actMask x.m) [d, d + 1] w) ∧
      (s.swapHeld k = true → exec (.ann x) s = .next { s with cur := none })) ∧
    ((c.streamed = true → c.split.busy = none ∨ c.split.busy = some 0) → (c.streamed = false → c.grp.dmode = false) →
      (∀ l ∈ c.act x.m, ∃ v, s.driveOf c false l = some v ∧ v.stage = .done) →
      ∃ t w, exec (.ann x) s = .next t ∧ t.warp? c.cur.gid c.cur.widx = some w ∧ t.mem = s.mem ∧
        Completed c x.m false
          [(d, fun l => ((s.driveOf c false l).map fun v => v.out.1).getD 0),
           (d + 1, fun l => ((s.driveOf c false l).map fun v => v.out.2).getD 0)] flag0 w)) ∧
  (∀ x : OpHlp, Issues s (.annHlp x) c → c.act x.m ≠ [] →
    (∀ l ∈ c.act x.m, ∃ v, s.driveOf c true l = some v ∧ v.stage = .done) →
    ∃ t w, exec (.annHlp x) s = .next t ∧ t.warp? c.cur.gid c.cur.widx = some w ∧ t.mem = s.mem ∧
      Completed c x.m false [(2 * x.d.toNat, fun l => ((s.driveOf c true l).map fun v => v.out.1).getD 0)] flag0 w) ∧
  (∀ x : OpAnnq, Issues s (.annq x) c → c.act x.m ≠ [] → c.warp.annbase ≠ 0 → (∀ l ∈ c.act x.m, s.unswapped c l = false) →
    ∃ (t : State) (f0 f1 : Nat → Word), exec (.annq x) s = .next t ∧
      Done { s with free := t.free } t c x.m false [(2 * x.d.toNat, f0), (2 * x.d.toNat + 1, f1)] flag0 ∧
      ∀ l ∈ c.act x.m, ∀ q, s.farPlace c.grp false (c.warp.recordAt l) = .ok q →
        f0 l = BitVec.ofNat 32 (s.homeNat (q + 4) 4) ∧ f1 l = BitVec.ofNat 32 (s.homeNat (q + 40) 4))) ∧
  (∀ (s : State) (engine : Nat) (bt : Batch) (o : Bool) (tx : Tx) (d : Drive) (g : Group) (w : Warp),
  let q := tx.n.toNat
  s.filledWaiter engine = none → s.nextBatch engine = some (bt, o) → bt.txs = [tx] → s.drive? tx.y.toNat = some d →
  s.group? d.gid = some g → s.warp? d.gid d.widx = some w → isPeer (q + 64) = false → d.lane < 32 →
  (∀ f ∈ s.flys, ∀ x ∈ f.todo, x.behind ≠ bt.id) → ∀ k, bt.kind = .ann k →
  (∀ b, d.stage = .swap → tx.loc = .phys b → isPeer (b + 16) = false → (∀ i < 64, s.Outside b 16 (q + i)) →
    (∀ k ∈ s.links, k.hdr ≠ .phys b) → s.homeNat b 4 < 0xFFFFFF → d.op < 256 → d.width < 256 →
    ∃ t w' d', exec (.homeEngineTransaction engine) s = .next t ∧
      t.homeNat q 4 = s.homeNat b 4 + 1 ∧ t.homeNat (q + 4) 1 = 1 ∧ t.homeNat (q + 8) 8 = d.obj.toNat ∧
      t.homeNat (q + 16) 8 = (if s.homeNat (b + 4) 4 < s.homeNat b 4 then s.homeNat (b + 8) 8 else 0) ∧
      t.homeNat b 4 = s.homeNat b 4 + 1 ∧ t.homeNat (b + 8) 8 = (w.recordAt d.lane).toNat ∧
      t.warp? d.gid d.widx = some w' ∧ w'.annLive.getLsbD d.lane = true ∧ w'.regs = w.regs ∧
      t.drive? d.id = some d' ∧ d'.stage = .walk ∧ d'.cursor = w.recordAt d.lane ∧ d'.xs = s.homeNat b 4 + 1) ∧
  (d.stage = .collect → ∃ t w' d', exec (.homeEngineTransaction engine) s = .next t ∧ t.homeNat (q + 4) 1 = 0 ∧
    t.warp? d.gid d.widx = some w' ∧ w'.regs = w.regs ∧ t.drive? d.id = some d' ∧ d'.stage = .done ∧
    d'.out = (BitVec.ofNat 32 (s.homeNat (q + 40) 8), if s.homeNat (q + 4) 1 = 2 then 0 else 1) ∧
    (d.help = false → w'.annLive.getLsbD d.lane = false)) ∧
  (∀ b, let r := s.readRec q
    let n := fun (o k : Nat) => s.homeNat (b + o) k
    d.stage = .step →
    (r.seq ≠ d.xs ∨ r.step + 1 ≠ d.want ∨ r.state ≠ 1 → ∃ t, exec (.homeEngineTransaction engine) s = .next t ∧ t.mem = s.mem) ∧
    (r.seq = d.xs → r.step + 1 = d.want → r.state = 1 → d.want ≤ lastStep r.op → r.seq < 2 ^ 24 → tx.loc = .phys b →
      isPeer (b + 16) = false → (∀ i < 64, s.Outside b 16 (q + i)) →
      ∃ t, exec (.homeEngineTransaction engine) s = .next t ∧
        let cell := fun (k v : Nat) => t.homeNat b 8 =
          if n 0 8 / 2 ^ 40 < r.seq ∨ (n 0 8 / 2 ^ 40 = r.seq ∧ n 0 8 / 2 ^ 32 % 256 < k) then v % 2 ^ 32 + 2 ^ 32 * k + 2 ^ 40 * r.seq
          else n 0 8
        t.homeNat (q + 6) 1 = d.want ∧ (∀ p, s.Outside q 64 p → s.Outside b 16 p → t.home p = s.home p) ∧
        (d.want = lastStep r.op →
          t.homeNat (b + 4) 4 = (if n 4 4 + 1 = r.seq then r.seq else n 4 4) ∧
          t.homeNat (q + 4) 1 = if isContainer r.op = true ∧ r.succeeds = false then 3 else 2) ∧
        (d.want < lastStep r.op → t.homeNat (q + 4) 1 = 1) ∧
        (isContainer r.op = false → d.want = 1 → t.homeNat (q + 40) 8 = n 0 4) ∧
        (isContainer r.op = false → d.want = 2 →
          match r.counterValue (n 0 4) with
          | some v => cell 2 v
          | none => t.homeNat b 8 = n 0 8) ∧
        (isContainer r.op = true → d.want = 1 →
          let o := if 0x12 ≤ r.op then n 0 4 * 2 ^ 32 + n 8 4 else n 0 4
          t.homeNat (q + 32) 8 = o ∧ t.homeNat (q + 40) 8 = (if ({ r with op1 := o } : Rec).succeeds = false then 0xFFFFFFFF
            else if r.op = 0x10 ∨ r.op = 0x12 then o % 2 ^ 32 else r.result)) ∧
        (isContainer r.op = true → d.want = 2 → r.succeeds = true →
          if r.op = 0x10 ∨ r.op = 0x12 then cell 2 r.op0 else t.homeNat (q + 40) 8 = n 0 4) ∧
        (isContainer r.op = true → d.want = 3 → r.succeeds = true → cell 3 (if r.op = 0x11 then r.op1 % 2 ^ 32 - 1
          else if r.op = 0x13 then r.op1 / 2 ^ 32 + 1 else r.op1 % 2 ^ 32 + 1))))) ∧
  (∀ (s : State) (id : Nat) (d : Drive) (g : Group) (w : Warp),
  s.drive? id = some d → s.group? d.gid = some g → s.warp? d.gid d.widx = some w → s.driveEnabled g w d = true →
  g.stat ≠ .saved → d.stage ≠ .walk → (∀ e ∈ s.peers d, ∃ r, s.nextTxn g w e = .ok r) →
  ∃ t, exec (.annDriverStep id) s = .next t ∧ t.mem = s.mem ∧ t.groups = s.groups ∧
    ∀ e ∈ s.peers d, ∀ e' l q, s.nextTxn g w e = .ok (e', l, q) → (∃ e'', t.drive? e.id = some e'' ∧ e''.asked = true) ∧
      (s.serverOf l < portEngine → ∃ b ∈ t.batches, b.engine = s.serverOf l ∧
        ⟨e.lane, l, BitVec.ofNat 64 e.id, BitVec.ofNat 64 q⟩ ∈ b.txs)) ∧
  (∀ (s : State) (g : Group) (w : Warp) (d : Drive) (q : Nat),
  (d.stage = .collect → s.farPlace g true (w.recordAt d.lane) = .ok q → ∃ e, s.nextTxn g w d = .ok (e, .phys q, q) ∧ e.stage = .collect) ∧
  (∀ x, d.stage = .step → s.farPlace g true (w.recordAt d.lane) = .ok x → (d.help = true ∨ (s.readRec x).state = 1) →
    s.farPlace g true d.cursor = .ok q → d.want ≠ 0 →
    let r := s.readRec q
    (r.seq ≠ d.xs → s.nextTxn g w d = .ok (d, .phys q, q)) ∧
    (∀ o n wr l, r.seq = d.xs → r.line d.want = some (o, n, wr) → s.objPlace g d.space wr (r.object + BitVec.ofNat 64 o) n = .ok l →
      s.nextTxn g w d = .ok (d, l, q))))

/-! ### Tasks, feeds, services -/

/-- R25, R226, R237, R238: TSPAWN places one task a lane in the core's pool while it has room, and says which found none; the
tasks may be gathered in its turn behind the unperformed writes of its warp; a task warp takes up to 32 tasks, one a lane,
and every other stays in the pool; TEND ends its lanes. The EAUX of its ILLEGAL follows log 15, which is the model's choice. -/
def Obligations.TasksGather : Prop := ∀ (s : State),
  (∀ (c : Ctx) (x : OpE), Issues s (.tspawn x) c →
    (∀ l ∈ c.act x.m, (c.pair x.a.toNat l).extractLsb' 0 2 = 0 ∧ (c.pair x.b.toNat l).extractLsb' 0 6 = 0) →
    let k := s.core c.grp.core
    (∀ y ∈ k.tasks, y.id < s.uid) →
    let placed := (c.act x.m).take (1024 - k.tasks.length)
    let now := (s.cycles (c.grp.core / 128)).toNat
    let new := fun (held : Bool) => { s.setCore c.grp.core { k with tasks := k.tasks ++ placed.zipIdx.map fun p =>
      ⟨s.uid + p.2, held, c.pair x.a.toNat p.1, c.pair x.b.toNat p.1, c.grp.launch, c.grp.gid, now⟩ } with
        uid := s.uid + placed.length }
    let a := Act.spawn (placed.zipIdx.map fun p => s.uid + p.2)
    ∃ t, exec (.tspawn x) s = .next t ∧ TakesTurn (new true) t c.cur.gid c.cur.widx a ∧
      ((new true).Turn c.cur.gid c.cur.widx a →
        Done (new false) t c x.m false [(x.d.toNat, fun l => if l ∈ placed then 0 else 1)] flag0) ∧
      ((new true).Waits c.cur.gid c.cur.widx a → Done { new true with queue := t.queue, uid := t.uid } t c x.m false
        [(x.d.toNat, fun l => if l ∈ placed then 0 else 1)] flag0)) ∧
  (∀ (c : Ctx) (x : OpM), Issues s (.tend x) c → c.Live →
    (c.warp.task = true → ∃ t w, exec (.tend x) s = .next t ∧ t.warp? c.cur.gid c.cur.widx = some w ∧
      (∀ l ∈ c.act x.m, ∀ pc, ¬ w.laneAt l pc) ∧ w.regs = c.warp.regs ∧ t.mem = s.mem) ∧
    (c.warp.task = false → Raises s (.tend x) c 0x20 fun _ e => e = c.cur.iword)) ∧
  (∀ (core : Nat) (ts : List Task) (l : Launch) (slot base : Nat) (h : Task), s.gathered core = h :: ts →
    ((s.core core).tasks.map fun x => x.id).Nodup →
    s.launch? h.launch = some l → (s.core core).held = none → s.placeWarps core 1 l.desc.regs = some [(slot, base)] →
    ∃ t g w, exec (.partialTaskWarpTimeout core) s = .next t ∧ t.groups = s.groups ++ [g] ∧ g.warps = [w] ∧
      w.task = true ∧ w.tile = 32 ∧ (∃ sp, w.splits = [sp] ∧ sp.pc = h.entry ∧
        ∀ i < 32, sp.mask.getLsbD i = decide (i < ts.length + 1)) ∧
      (∀ i < ts.length + 1, smGet 0 w.targ i = ((h :: ts).getD i h).targ) ∧
      (∀ x, x ∈ (t.core core).tasks ↔ x ∈ (s.core core).tasks ∧ x ∉ h :: ts) ∧ t.mem = s.mem ∧ ts.length < 32 ∧
      (∀ x ∈ ts, x.entry = h.entry ∧ x.launch = h.launch))

/-- R239 to R242, R309: FAPP appends one record, poppable when its release has landed; FPOP takes the next ready record, which
is then started, or registers (and wakes an unmapped feed) or answers an empty record; FRET retires a record that has been
popped when its release has landed, and releases in every case.
Its corners that the spec leaves open follow log 26, log 72; those clauses are the model's choice. -/
def Obligations.FeedsQueueRecords : Prop := ∀ (s : State) (c : Ctx) (num : Nat) (s1 : State) (f : Feed), s1.feed? num = some f →
  (∀ x : OpE, Issues s (.fapp x) c → c.act x.m ≠ [] →
    s.feedOf c.grp (c.reg x.a.toNat (c.low x.m)).toNat = .ok (some (num, s1)) →
    let ws := (List.range 16).map fun i => c.reg (x.b.toNat + i) (c.low x.m)
    (f.full = true → ∃ t, exec (.fapp x) s = .next t ∧ Done s1 t c x.m false [(x.d.toNat, fun _ => 1)] flag0) ∧
    (f.full = false → ∃ t w, exec (.fapp x) s = .next t ∧ t.warp? c.cur.gid c.cur.widx = some w ∧
      Completed c x.m false [(x.d.toNat, fun _ =>
        BitVec.ofNat 32 (256 * f.tail + if recordBar ws = true ∧ f.unretired = true then 2 else 0))] flag0 w ∧
      (let a := Act.release .device false [.record num f.tail]
       let s2 := s1.appendFeed c.grp.core f ws
       TakesTurn s2 t c.cur.gid c.cur.widx a ∧
       (s2.Turn c.cur.gid c.cur.widx a → ∃ r ∈ (t.core c.grp.core).relq, .record num f.tail ∈ r.after)) ∧
      (f.mapped.isSome = true → ∃ f', t.feed? num = some f' ∧ f'.tail = (f.tail + 1) % 2 ^ 24 ∧
        f'.recs = f.recs ++ [⟨f.tail, recordWords ws f.tail, recordBar ws, false, false, false, false, none⟩]))) ∧
  (∀ x : OpE2, Issues s (.fpop x) c → c.act x.m ≠ [] → s1.fly? (c.key s1) = none →
    s.feedOf c.grp (c.reg x.a.toNat (c.low x.m)).toNat = .ok (some (num, s1)) →
    let rs := span x.d.toNat 16
    let lands := fun (event : Bool) (ready : Word) (ok : State → Fly → Prop) => ∃ t w v, exec (.fpop x) s = .next t ∧
      t.warp? c.cur.gid c.cur.widx = some w ∧ Started c (c.key s1) event (c.actMask x.m) rs w ∧
      t.fly? (c.key s1) = some v ∧ v.mask = c.actMask x.m ∧ v.ready = ready ∧ ok t v
    let empty := fun (_ : State) (v : Fly) => ∀ j < 16, ∀ l < 32, ((v.vals.getD j (0, [])).2).getD l 0 = 0xFFFFFFFF
    let taken := f.nextRec ≠ none ∧ f.pops = [] ∧ (f.mapped.isSome = true ∨ c.grp.dmode = false)
    (∀ r, f.nextRec = some r → taken → lands false (c.actMask x.m) fun t v => v.acq = some .device ∧
      (∀ j < 16, ∀ l < 32, ((v.vals.getD j (0, [])).2).getD l 0 = r.words.getD j 0) ∧
      ∃ f', t.feed? num = some f' ∧ f'.head = (if f.back.contains r.seq then f.head else (f.head + 1) % 2 ^ 24)) ∧
    (¬ taken → c.grp.dmode = false → lands false (c.actMask x.m) empty) ∧
    (¬ taken → c.grp.dmode = true → 64 ≤ f.pops.length → lands false (c.actMask x.m) empty) ∧
    (¬ taken → c.grp.dmode = true → f.pops.length < 64 → lands true 0 fun t _ => ∃ f' p, t.feed? num = some f' ∧
      f'.pops = f.pops ++ [p] ∧ p.gid = c.cur.gid ∧ p.widx = c.cur.widx ∧ p.fly = c.key s1 ∧
      (f.mapped = none → f'.wakep = true))) ∧
  (∀ x : OpE, Issues s (.fret x) c → c.act x.m ≠ [] →
    s.feedOf c.grp (c.reg x.a.toNat (c.low x.m)).toNat = .ok (some (num, s1)) →
    let q := (c.reg x.b.toNat (c.low x.m)).toNat % 2 ^ 24
    let popped := f.recs.any fun r => r.seq == q && r.started && !(f.bound.any fun b => b.2 == r.seq) && !r.retiring && !r.retired
    let a := Act.release .device false (if popped then [.retire num q] else [])
    ∃ t w, exec (.fret x) s = .next t ∧ t.warp? c.cur.gid c.cur.widx = some w ∧
      Completed c x.m false [(x.d.toNat, fun _ => if popped then 0 else 1)] flag0 w ∧
      TakesTurn s1 t c.cur.gid c.cur.widx a ∧
      (s1.Turn c.cur.gid c.cur.widx a → ∃ r ∈ (t.core c.grp.core).relq, r.after = if popped then [.retire num q] else [])) ∧
  (∀ x : OpE, Issues s (.fret x) c → c.act x.m ≠ [] → s.feedOf c.grp (c.reg x.a.toNat (c.low x.m)).toNat = .ok none →
    ∃ t w, exec (.fret x) s = .next t ∧ t.warp? c.cur.gid c.cur.widx = some w ∧
      Completed c x.m false [(x.d.toNat, fun _ => 3)] flag0 w ∧
      TakesTurn s t c.cur.gid c.cur.widx (.release .device false []))

/-- R243, R326, R327, R343: SVC, in deferring mode alone, leaves its pair pending behind a live sheaf, whose handle names its buffer
and generation; a call of a class that is not served, or beyond a share of its partition, lands the rejected pair.
Its corners that the spec leaves open follow log 27, log 66, and the EAUX of ILLEGAL log 15; those clauses are the model's choice. -/
def Obligations.ServiceCallLeavesSheaf : Prop := ∀ (s : State) (c : Ctx) (x : OpE), Issues s (.svc x) c →
  (c.grp.dmode = false → Raises s (.svc x) c 0x20 fun _ e => e = c.cur.iword) ∧
  (c.grp.dmode = true → c.act x.m ≠ [] →
    let rel := Act.release .device false []
    let s1 := s.doAct c.grp c.cur.widx rel
    let die := c.grp.core / 128
    let payer := s1.payer c.grp.part
    s1.fly? (c.key s1) = none →
    ((classServed x.b.toNat = false ∨ s1.share payer die 1024 ≤ s1.sheavesOf die payer ∨
        s1.share payer die 3840 ≤ s1.noticePlaces die payer) → ∃ t w v, exec (.svc x) s = .next t ∧ t.warp? c.cur.gid c.cur.widx = some w ∧
      Started c (c.key s1) true (c.actMask x.m) [x.d.toNat, x.d.toNat + 1] w ∧ t.fly? (c.key s1) = some v ∧
      v.ready = c.actMask x.m ∧ (∀ j < 2, ∀ l < 32, ((v.vals.getD j (0, [])).2).getD l 0 = 0xFFFFFFFF) ∧
      TakesTurn s t c.cur.gid c.cur.widx rel) ∧
    (∀ i, classServed x.b.toNat = true → s1.sheavesOf die payer < s1.share payer die 1024 →
      s1.noticePlaces die payer < s1.share payer die 3840 →
      (s1.die die).freeSheaf = some i → ∃ t w, exec (.svc x) s = .next t ∧ t.warp? c.cur.gid c.cur.widx = some w ∧
        Started c (c.key s1) true (c.actMask x.m) [x.d.toNat, x.d.toNat + 1] w ∧
        TakesTurn s t c.cur.gid c.cur.widx rel ∧
        let old := smGet Sheaf.free (s1.die die).sheafs i
        let args := (List.range 32).map fun l =>
          (List.range 4).map fun j => if (c.actMask x.m).getLsbD l then c.reg (x.a.toNat + j) l else 0
        let at_ := Config.sheafArea die + 576 * i
        let handle := sheafHandle die old.gen i
        smGet Sheaf.free (t.die die).sheafs i
          = ⟨true, old.gen, c.cur.gid, c.cur.widx, c.actMask x.m, x.b.toNat, args, c.key s1, c.grp.asid, c.grp.part, payer, old.past⟩ ∧
        TakesTurn s1 t c.cur.gid c.cur.widx (.call die payer
          (putAt at_ (sheafBytes s c (c.actMask x.m) handle x.b.toNat args))
          [0x80000002, 0, handle, BitVec.ofNat 32 c.grp.part, BitVec.ofNat 32 at_, BitVec.ofNat 32 (at_ / 2 ^ 32)])))

/-- R19, R20, R244: RGIVE releases granules of eight registers from the top of the window into the pool of the warp's issue
partition; RCLAIM takes granules from it, which read zero, and answers 1, or 0 where the pool has too few.
The EAUX of ILLEGAL follows log 15, which is the model's choice. -/
def Obligations.RegisterSharesMove : Prop := ∀ (s : State) (c : Ctx),
  let q := c.warp.slot % 4
  (∀ x : OpGive, Issues s (.rgive x) c → 8 * x.k.toNat + 8 ≤ c.warp.window →
    (∀ r ∈ c.warp.released x.k.toNat, c.warp.pending r = false ∧ c.warp.held r = false) →
    ∃ t w g, exec (.rgive x) s = .next t ∧ t.warp? c.cur.gid c.cur.widx = some w ∧
      w.window = c.warp.window - 8 * x.k.toNat ∧ t.group? c.cur.gid = some g ∧
      g.pools = c.grp.pools.set q (c.grp.pools.getD q 0 + x.k.toNat) ∧ t.mem = s.mem ∧
      Completed c none false [] flag0 { w with window := c.warp.window, poison := c.warp.poison }) ∧
  (∀ x : OpGive, Issues s (.rgive x) c → c.warp.window < 8 * x.k.toNat + 8 →
    Raises s (.rgive x) c 0x20 fun _ e => e = c.cur.iword) ∧
  (∀ x : OpClaim, Issues s (.rclaim x) c →
    (c.grp.pools.getD q 0 < x.k.toNat → c.warp.window + 8 * x.k.toNat ≤ 128 →
      Completes s (.rclaim x) c none false [(x.d.toNat, fun _ => 0)] flag0) ∧
    (x.k.toNat ≤ c.grp.pools.getD q 0 → c.warp.window + 8 * x.k.toNat ≤ 128 → ∃ t w g, exec (.rclaim x) s = .next t ∧
      t.warp? c.cur.gid c.cur.widx = some w ∧ w.window = c.warp.window + 8 * x.k.toNat ∧
      t.group? c.cur.gid = some g ∧ g.pools = c.grp.pools.set q (c.grp.pools.getD q 0 - x.k.toNat) ∧ t.mem = s.mem ∧
      (∀ r l, l < 32 → r < c.warp.window → w.reg r l = c.result none [(x.d.toNat, fun _ => 1)] r l) ∧
      (∀ r l, l < 32 → c.warp.window ≤ r → w.reg r l = 0)) ∧
    (128 < c.warp.window + 8 * x.k.toNat → Raises s (.rclaim x) c 0x20 fun _ e => e = c.cur.iword))

/-! ### The matrix engine -/

/-- R110, R111, R121, R250, R265: MRESV takes the free range and the lowest free id, or answers its failure; the other
commands of the group that holds the engine enter its queue in order; MSTAT reads the status word. A group that does not
hold the engine, and every bad operand, raises ILLEGAL.
Its corners that the spec leaves open follow log 31, and the EAUX of ILLEGAL log 15; those clauses are the model's choice. -/
def Obligations.MatrixCommandsQueue : Prop := ∀ (s : State) (c : Ctx),
  let y := c.mx s
  let core := c.grp.core
  let ready := fun (m : Option Modifier) => c.act m ≠ [] ∧ y.check = false
  let mine := fun (m : Option Modifier) => ready m ∧ y.owner = some c.grp.gid
  let adds := fun (i : Instr) (k : MKind) (args : List Word) (f : Matrix → Matrix) => ∃ t q, exec i s = .next t ∧
    Done { s.updMx core (fun z => f { z with queue := z.queue ++ [q] }) with uid := s.uid + 1 } t c none false [] flag0 ∧
    q.kind = k ∧ q.args = args ∧ q.gid = c.grp.gid ∧ q.id = s.uid ∧ q.signal = none
  let queues := fun (i : Instr) (k : MKind) (args : List Word) => adds i k args id
  let room := y.queue.length < 16
  let illegal := fun (i : Instr) (e : Word) => Raises s i c 0x20 fun _ v => v = e
  (∀ x : OpE2, Issues s (.mresv x) c → ready x.m →
    let v := (c.pair x.a.toNat (c.low x.m)).toNat
    let r := resvOf v
    (bitsOf v 62 2 = 0 → bitsOf v 0 11 = 0 → r.fmt ≤ 23 → 0 < r.len → r.base + r.len ≤ 256 →
      r.scaleBase < 1024 * r.len → (r.fmt ∈ [16, 17, 18, 23] → r.cbBase + 32 ≤ 0x40000) →
      (y.owner = none ∨ y.owner = some c.grp.gid) → (∀ z ∈ y.resv, z.base + z.len ≤ r.base ∨ r.base + r.len ≤ z.base) →
      y.resv.length < 16 → ∃ t n, exec (.mresv x) s = .next t ∧ n < 16 ∧ (∀ z ∈ y.resv, z.id ≠ n) ∧
        (∀ k < n, ∃ z ∈ y.resv, z.id = k) ∧
        Done (s.updMx core fun z => { z with owner := some c.grp.gid, resv := z.resv ++ [{ r with id := n }] })
          t c x.m false [(x.d.toNat, fun _ => BitVec.ofNat 32 n)] flag0) ∧
    (∀ e, bitsOf v 62 2 = 0 → bitsOf v 0 11 = 0 → y.resvFailure c.grp.gid r = some e →
      Completes s (.mresv x) c x.m false [(x.d.toNat, fun _ => 0x80000000 + BitVec.ofNat 32 e)] flag0) ∧
    ((bitsOf v 62 2 ≠ 0 ∨ bitsOf v 0 11 ≠ 0) → illegal (.mresv x) (BitVec.ofNat 32 v))) ∧
  (∀ x : OpBar, mine x.m → room →
    (Issues s (.mrels x) c → (∃ r ∈ y.resv, r.id = x.k.toNat) → y.releasing x.k.toNat = false →
      queues (.mrels x) .rels [x.k.setWidth 32]) ∧
    (Issues s (.mrels x) c → (∀ r ∈ y.resv, r.id ≠ x.k.toNat) → illegal (.mrels x) c.cur.iword) ∧
    (Issues s (.mchn x) c → x.k.toNat ≤ c.grp.members → adds (.mchn x) .chn [x.k.setWidth 32] fun z =>
      { z with steps := [] }) ∧
    (Issues s (.mchn x) c → c.grp.members < x.k.toNat → illegal (.mchn x) c.cur.iword)) ∧
  (∀ x : OpSrc, mine x.m → room →
    let w := c.reg x.a.toNat (c.low x.m)
    (Issues s (.mscl x) c → queues (.mscl x) .scl [w]) ∧
    (Issues s (.mzero x) c → bitsOf w.toNat 18 14 = 0 → bitsOf w.toNat 0 9 + (bitsOf w.toNat 9 9 + 1) ≤ 512 →
      queues (.mzero x) .zero [w]) ∧
    (Issues s (.mzero x) c → bitsOf w.toNat 18 14 ≠ 0 → illegal (.mzero x) w) ∧
    (Issues s (.mzero x) c → bitsOf w.toNat 18 14 = 0 → 512 < bitsOf w.toNat 0 9 + (bitsOf w.toNat 9 9 + 1) →
      Raises s (.mzero x) c 8 fun _ _ => True)) ∧
  (∀ x : OpM, Issues s (.mswp x) c → mine x.m → room → queues (.mswp x) .swp []) ∧
  (∀ (x : OpBarS) (r : Resv), Issues s (.mlds x) c → mine x.m → room → y.resv? x.k.toNat = some r →
    y.releasing x.k.toNat = false →
    let w := c.reg x.r.toNat (c.low x.m)
    let f := fmtAt r.fmt
    let o := 128 * bitsOf w.toNat 0 16
    let j := bitsOf w.toNat 16 10
    let nb := 128 * blocksIn f r.blk 128
    bitsOf w.toNat 26 6 = 0 → r.weights = true →
    (∀ p ∈ ([(o, 128 * rowBytes (fmtWidth f) 128), (r.scaleBase + 4 * j, 4),
        (r.scaleBase + 4 * (j + 1) + 4 * (j * nb), 4 * nb)] : List (Nat × Nat)), c.opLocked s (r.lo + p.1) p.2 = false) →
    (∀ p ∈ r.bookRange, c.opLocked s p.1 p.2 = false) →
    o + 128 * rowBytes (fmtWidth f) 128 ≤ r.bytes → r.scaleBase + 4 * (j + 1) + 4 * ((j + 1) * nb) ≤ r.bytes →
    queues (.mlds x) .lds [x.k.setWidth 32, w]) ∧
  (∀ x : OpStat, Issues s (.mstat x) c → mine x.m → ∃ t, exec (.mstat x) s = .next t ∧
    Done (if x.c then s.updMx core (fun z => { z with stat := z.stat &&& ~~~0x1F }) else s) t c x.m false
      [(x.d.toNat, fun _ => y.stat ||| BitVec.ofNat 32 (y.queue.length * 2 ^ 19))] flag0) ∧
  (∀ x : OpM, Issues s (.mswp x) c → ready x.m → y.owner ≠ some c.grp.gid → illegal (.mswp x) c.cur.iword)

/-- R117, R118, R120, R251, R252: MLOOP and MGRP queue a loop, MGRP with the table that it reads from scratch at issue;
MDRN queues a drain, whose register form leaves vd pending and whose scratch form locks its target.
Its corners that the spec leaves open follow log 20, log 31, and the EAUX of ILLEGAL log 15; those clauses are the model's choice. -/
def Obligations.MatrixLoopsAndDrains : Prop := ∀ (s : State) (c : Ctx),
  let y := c.mx s
  let core := c.grp.core
  y.check = false → y.owner = some c.grp.gid → y.queue.length < 16 →
  let queues := fun (i : Instr) (k : MKind) (ws : List Word) (d : LoopDesc) (tb : List (Nat × Nat)) => ∃ t q, exec i s = .next t ∧
    Done { s.updMx core (fun z => { z with queue := z.queue ++ [q], steps := z.steps ++ [d.record tb] }) with uid := s.uid + 1 }
      t c none false [] flag0 ∧
    q.kind = k ∧ q.args = ws ∧ q.table = tb ∧ q.gid = c.grp.gid ∧ q.id = s.uid
  (∀ (x : OpSrc) (w a : Resv), Issues s (.mloop x) c → c.act x.m ≠ [] →
    let ws := c.words x.a.toNat 4 (c.low x.m)
    LoopOk s c (loopDesc ws) [] w a → queues (.mloop x) .loop ws (loopDesc ws) []) ∧
  (∀ (x : OpMgrp) (w a : Resv), Issues s (.mgrp x) c → c.act x.m ≠ [] →
    let ws := c.words x.a.toNat 4 (c.low x.m)
    let v := (c.reg x.b.toNat (c.low x.m)).toNat
    let o := v % 2 ^ 20
    let n := v / 2 ^ 20 % 16 + 1
    let entry := fun i => s.locNat (.sram c.grp.gid (o + 4 * i)) 4
    let tb := (List.range n).map fun i => (entry i / 2 ^ 16 % 2 ^ 10, entry i % 2 ^ 16)
    v / 2 ^ 24 = 0 → o % 4 = 0 → o + 4 * n ≤ c.grp.sBytes → (∀ i < n, entry i < 2 ^ 26) →
    (s.core core).locked 0 c.grp.asid o (4 * n) = false → LoopOk s c (loopDesc ws) tb w a →
    queues (.mgrp x) .grp ws (loopDesc ws) tb) ∧
  (∀ x : OpE2, Issues s (.mdrn x) c → c.act x.m ≠ [] →
    let a := x.a.toNat
    let l := c.low x.m
    let d := drainWord (c.reg a l)
    let rs := [x.d.toNat]
    d.mbz = 0 → d.mode ≠ 3 → (d.fmt ≤ 18 ∨ d.fmt = 24 ∨ d.fmt = 25) → d.row + d.rows ≤ 512 →
    (d.scratch = false → d.rows = 1 → c.deferring = true → s.fly? (c.key s) = none →
      ∃ t w f q, exec (.mdrn x) s = .next t ∧
        OnlyWarp { s with flys := t.flys, cores := t.cores, uid := t.uid } t c.cur.gid c.cur.widx w ∧
        Started c (c.key s) true (c.actMask x.m) rs w ∧
        t.fly? (c.key s) = some f ∧ f.mask = c.actMask x.m ∧ f.ready = 0 ∧
        (t.core core).mx = { y with queue := y.queue ++ [q] } ∧ (∀ k, k ≠ core → t.core k = s.core k) ∧
        q.kind = .drn ∧ q.fly = c.key s) ∧
    (∀ sig, d.scratch = true → a % 4 = 0 → s.checkSignal c.grp (c.reg (a + 2) l) (c.reg (a + 3) l) = .ok sig →
      let o := (c.reg (a + 1) l).toNat
      o % 16 = 0 → o + d.rows * d.rowLen ≤ c.grp.sBytes → s.lockRoom core 1 = true →
      ∃ t q, exec (.mdrn x) s = .next t ∧ q.kind = .drn ∧ q.signal = some sig ∧ q.args = c.words a 4 l ∧
        (t.core core).mx = { y with queue := y.queue ++ [q] } ∧
        (t.core core).locks = (s.core core).locks ++ [⟨q.id, 0, c.grp.asid, c.grp.gid, o, d.rows * d.rowLen⟩] ∧
        Done { s with cores := t.cores, uid := t.uid } t c x.m false [(x.d.toNat, fun _ => 0)] flag0) ∧
    (d.scratch = true → a % 4 = 0 → (c.reg (a + 1) l).toNat % 16 ≠ 0 →
      Completes s (.mdrn x) c x.m false [(x.d.toNat, fun _ => 2)] flag0)) ∧
  (∀ (x : OpSrc) (d : LoopDesc), Issues s (.mloop x) c → c.act x.m ≠ [] → d = loopDesc (c.words x.a.toNat 4 (c.low x.m)) →
    (y.named d.wid = none ∨ d.mbz ≠ 0) → Raises s (.mloop x) c 0x20 fun _ e => e = c.cur.iword)

/-- R79, R110, R114 to R120, R247, R252: the sequencer performs the command at the head of the queue, a pass adds its products
to one row of accumulators and counts on every core of its chain, with the activations of the first, and a drain lands its
elements, unlocks its range and gives its signal.
R119: the MCHNs of a length form the chain when every member's is at its head; until then each waits there.
Its corners that the spec leaves open follow log 16, log 21, log 22, log 31, log 63; those clauses are the model's choice. -/
def Obligations.MatrixEngineRuns : Prop := ∀ (s : State) (core : Nat),
  let y := (s.core core).mx
  (∀ q rest, y.queue = q :: rest → y.run = none → y.drain = false →
    let runs := fun (z : Matrix) => exec (.matrixCommandHead core) s = .next (s.updMx core fun _ => z)
    let arg := (q.args.getD 0 0).toNat
    (∀ r, q.kind = .rels → y.resv? arg = some r → s.copying core r.lo r.bytes = false →
      let left := y.resv.filter fun z => z.id != arg
      runs (if left = [] then { y with queue := rest, resv := [], owner := none, chain := 1, steps := [] }
        else { y with queue := rest, resv := left })) ∧
    (q.kind = .scl → runs { y with queue := rest, shadow := { y.shadow with scale := q.args.getD 0 0 } }) ∧
    (q.kind = .swp → runs { y with queue := rest, active := y.shadow, shadow := y.active }) ∧
    (∀ r, q.kind = .lds → y.resv? arg = some r → ∃ p, runs { y with queue := rest, shadow := p } ∧
      let o := 128 * ((q.args.getD 1 0).toNat % 2 ^ 16)
      p.fmt = r.fmt ∧ p.blk = r.blk ∧
      p.scale = y.opWord (r.lo + r.scaleBase + 4 * ((q.args.getD 1 0).toNat / 2 ^ 16 % 2 ^ 10)) ∧
      ∀ i < 128 * rowBytes (fmtWidth (fmtAt r.fmt)) 128, p.bytes.getD i 0 = y.opByte (r.lo + o + i)) ∧
    (q.kind = .zero → ∃ z, runs z ∧ z.queue = rest ∧ { z with acc := y.acc, cnt := y.cnt, mode := y.mode, queue := y.queue } = y ∧
      ∀ k, let inside := arg % 2 ^ 9 ≤ k / 128 ∧ k / 128 < arg % 2 ^ 9 + (arg / 2 ^ 9 % 2 ^ 9 + 1)
        smGet 0 z.acc k = (if inside then 0 else smGet 0 y.acc k) ∧ smGet 0 z.cnt k = (if inside then 0 else smGet 0 y.cnt k)) ∧
    (q.kind = .drn → runs { y with drain := true }) ∧
    (y.chain ≤ 1 → q.kind = .loop ∨ q.kind = .grp → ∃ z, runs z ∧ z.run = q.start ∧
      z.queue = (if q.start = none then rest else y.queue) ∧ z.resv = y.resv ∧ z.active = y.active ∧
      ((loopDesc q.args).zero = false → z.acc = y.acc ∧ z.cnt = y.cnt))) ∧
  (∀ p q w a, y.run = some p → y.queue.head? = some q → y.residue = false → y.chain ≤ 1 → 0 < p.row →
    y.resv? (loopDesc q.args).wid = some w → y.resv? (loopDesc q.args).aid = some a →
    let d := loopDesc q.args
    let i := rowsOf (q.groups.take p.grp) + p.row
    let act := y.activation d a (rowsOf q.groups) p.step i
    ∃ t z free, exec (.matrixPass core) s = .next t ∧ t = { s.updMx core (fun _ => z) with free := t.free } ∧
      z.active = y.active ∧ z.resv = y.resv ∧ z.opbuf = y.opbuf ∧
      ∀ k, let e := passElem free act (y.active.column (k % 128)) (smGet 0 y.acc k) (smGet 0 y.cnt k)
        (k / 128 ≠ d.row0 + i → smGet 0 z.acc k = smGet 0 y.acc k ∧ smGet 0 z.cnt k = smGet 0 y.cnt k) ∧
        (k / 128 = d.row0 + i → pairingOk act.fmt (fmtAt y.active.fmt) = true → smGet 0 z.acc k = e.1 ∧ smGet 0 z.cnt k = e.2.1)) ∧
  (∀ p q ks, y.run = some p → y.queue.head? = some q → s.chainCores core = core :: ks → (core :: ks).Nodup → 0 < p.row →
    (∀ k ∈ core :: ks, (s.core k).mx.run.isSome = true ∧ (s.core k).mx.residue = false) →
    ∃ t, exec (.matrixPass core) s = .next t ∧ (∀ k, k ∉ core :: ks → t.core k = s.core k) ∧
      ∀ k ∈ core :: ks, ∀ qk w a, (s.core k).mx.queue.head? = some qk → (s.core k).mx.resv? (loopDesc qk.args).wid = some w →
        y.resv? (loopDesc q.args).aid = some a →
        let x := (s.core k).mx
        let z := (t.core k).mx
        let i := rowsOf (qk.groups.take p.grp) + p.row
        let act := y.activation (loopDesc q.args) a (rowsOf qk.groups) p.step i
        z.active = x.active ∧ z.opbuf = x.opbuf ∧ ∀ n, let e := passElem 0 act (x.active.column (n % 128)) (smGet 0 x.acc n) (smGet 0 x.cnt n)
          (n / 128 ≠ (loopDesc qk.args).row0 + i → smGet 0 z.acc n = smGet 0 x.acc n ∧ smGet 0 z.cnt n = smGet 0 x.cnt n) ∧
          (n / 128 = (loopDesc qk.args).row0 + i → pairingOk act.fmt (fmtAt x.active.fmt) = true →
            smGet 0 z.acc n = e.1 ∧ smGet 0 z.cnt n = e.2.1)) ∧
  (∀ q rest g, y.queue = q :: rest → y.run = none → y.drain = false → q.kind = .chn → s.group? q.gid = some g →
    let n := (q.args.getD 0 0).toNat
    let all := s.allAtHead q.gid (s.memberCores q.gid n) fun z => z.kind == .chn && z.args.getD 0 0 == BitVec.ofNat 32 n
    (1 < n → g.member < n → (s.memberCores q.gid n).Nodup → all = true → ∃ t, exec (.matrixCommandHead core) s = .next t ∧
      (∀ k ∈ s.memberCores q.gid n, (t.core k).mx = { (s.core k).mx.pop with chain := n }) ∧
      ∀ k, k ∉ s.memberCores q.gid n → t.core k = s.core k) ∧
    (1 < n → g.member < n → all = false → exec (.matrixCommandHead core) s = .refused (.notEnabled "MATRIX_COMMAND_HEAD")) ∧
    (n ≤ 1 → ∃ t, exec (.matrixCommandHead core) s = .next t ∧ (t.core core).mx.queue = rest ∧
      ∀ k ∈ s.chainCores core, (t.core k).mx.chain = 1)) ∧
  (∀ free (a w : Operand) (xs ys : List Int) (acc cnt : Word), integerMode a.fmt w.fmt = true → xs.length = 128 →
    ys.length = 128 → a.elems = xs.map (fun v => .num (Exact.ofInt v 0 false)) →
    w.elems = ys.map (fun v => .num (Exact.ofInt v 0 false)) → cnt.toNat + 128 < 0xFFFFFFFF →
    let v := acc.toInt + ((xs.zip ys).map fun p => p.1 * p.2).sum
    passElem free a w acc cnt = (BitVec.ofInt 32 (max (1 - 2 ^ 31) (min v (2 ^ 31 - 1))), cnt + 128,
      if v < 1 - 2 ^ 31 ∨ 2 ^ 31 ≤ v then 4 else 0)) ∧
  (∀ q rest, y.drain = true → y.queue = q :: rest →
    let d := drainWord (q.args.getD 0 0)
    ∃ t, exec (.drainCompletion core) s = .next t ∧ (t.core core).mx = { y with queue := rest, run := none, drain := false } ∧
      (∀ f, d.scratch = false → s.fly? q.fly = some f → ∃ f', t.fly? q.fly = some f' ∧ f'.ready = f.mask ∧
        ∀ r vs, (r, vs) ∈ f'.vals → ∀ i < 32, vs.getD i 0 = BitVec.ofNat 32
          (let k := 128 * d.row + 32 * d.colq + i
           drainElem d q.cb (smGet 0 y.mode d.row == 1) (smGet 0 y.acc k) (smGet 0 y.cnt k))) ∧
      (∀ g, d.scratch = true → s.group? q.gid = some g → Arrives s t q.signal ∧ ∀ b,
        let o := (q.args.getD 1 0).toNat
        let row := fun (r : Nat) => let cs := y.drained d q.cb (d.row + r) 0 128
          if d.mode = 2 then cs.flatMap fun v => natBytes 4 v else packRow (fmtAt d.fmt) cs
        t.locByte (.sram q.gid b) 0 = (Signal.wordByte q.signal 0 q.gid b).getD
          (if o ≤ b ∧ b < o + d.rows * d.rowLen then (row ((b - o) / d.rowLen)).getD ((b - o) % d.rowLen) 0
            else s.locByte (.sram q.gid b) 0)))

/-! ### Copies, the cache map -/

/-- R123, R127, R246, R253, R254, R322: an accepted copy joins the queue of its core with its ranges locked, and answers
0; a refused one answers its status and does nothing; CPYQ reads the status of its group.
Its corners that the spec leaves open follow log 30, log 32, log 71; those clauses are the model's choice. -/
def Obligations.CopiesStart : Prop := ∀ (s : State) (c : Ctx),
  (∀ (x : OpE) (store : Bool), let i := if store then Instr.cpyS x else .cpyL x
    Issues s i c →
    (c.act x.m = [] → Completes s i c none false [] flag0) ∧
    (2 ≤ (c.act x.m).length → Raises s i c 0x20 fun _ e => e = BitVec.ofNat 32 (c.act x.m).length) ∧
    ∀ l v sig, c.act x.m = [l] → ReadsRecord s c x.a.toNat 64 l v →
      let ws := c.words x.b.toNat 8 l
      let box : CopyBox := ⟨layoutOf v, (ws.take 5).map fun w => w.toInt, store⟩
      let d := destOf (ws.getD 5 0)
      s.checkSignal c.grp (ws.getD 6 0) (ws.getD 7 0) = .ok sig →
      (CopyOk s c box d → ∃ t o ls, exec i s = .next t ∧ Done (s.startOp o ls) t c x.m false [(x.d.toNat, fun _ => 0)] flag0 ∧
        o.kind = .cpy ∧ o.id = s.uid ∧ o.gid = c.grp.gid ∧ o.core = c.grp.core ∧ o.signal = some sig ∧
        o.box = box ∧ o.dest = d ∧ o.snap = (s.core c.grp.core).contained ∧
        (d.kind = 0 → ⟨o.id, 0, c.grp.asid, c.grp.gid, d.off, box.nearLen⟩ ∈ ls) ∧
        ∀ p, box.farRange = some p → ⟨o.id, 2, c.grp.asid, c.grp.gid, p.1, p.2⟩ ∈ ls) ∧
      ((box.lay.rank = 0 ∨ 5 < box.lay.rank ∨ box.lay.mbz ≠ 0 ∨ d.off % 16 ≠ 0 ∨ 1 < d.kind) →
        Completes s i c x.m false [(x.d.toNat, fun _ => 2)] flag0) ∧
      (∀ k, copyStatus s c box d (.ok sig) = k → k ≠ 0 →
        Completes s i c x.m false [(x.d.toNat, fun _ => BitVec.ofNat 32 k)] flag0)) ∧
  (∀ (x : OpE) l v, Issues s (.cpyp x) c → c.act x.m = [l] → ReadsRecord s c x.a.toNat 64 l v →
    let ws := c.words x.b.toNat 5 l
    let box : CopyBox := ⟨{ layoutOf v with cfmt := (layoutOf v).fmt }, ws.map fun w => w.toInt, false⟩
    (box.shapeBad = false → (layoutOf v).fmt ≤ 23 → (s.copyQueue c.grp.core).length < 32 → ∃ t o, exec (.cpyp x) s = .next t ∧
      Done (s.startOp o []) t c x.m false [(x.d.toNat, fun _ => 0)] flag0 ∧ o.kind = .cpy ∧ o.signal = none) ∧
    (box.shapeBad = true → Completes s (.cpyp x) c x.m false [(x.d.toNat, fun _ => 2)] flag0)) ∧
  (∀ x : OpStat, Issues s (.cpyq x) c → c.act x.m ≠ [] → ∃ t, exec (.cpyq x) s = .next t ∧
    Done (if x.c then s.updGroup c.cur.gid (fun g => { g with copyStat := 0 }) else s) t c x.m false
      [(x.d.toNat, fun _ => c.grp.copyStat ||| BitVec.ofNat 32 ((s.copyQueue c.grp.core).length * 2 ^ 16))] flag0)

/-- R62, R125 to R128, R247, R317: a copy whose far side translates completes: its box, converted, is at its target, its locks and
itself are gone, and its signal is given; a translation fault stops it with its locks held; a copy of an unscaled format to itself
moves the elements in the tensor and gives absent codes for those outside.
Its corners that the spec leaves open follow log 32; those clauses are the model's choice. -/
def Obligations.CopyCompletionMovesBox : Prop :=
  (∀ (s : State) (o : EngOp) (g : Group) (m : VaMap),
  s.op? o.id = some o → o.kind = .cpy → o.parked = false → s.copyWaits o = false → s.group? o.gid = some g →
  let x := o.box
  let d := o.dest
  let core := s.opCore o
  let ended := fun (t : State) => (∀ z ∈ t.ops, z.id ≠ o.id) ∧ (∀ l ∈ (t.core o.core).locks, l.op ≠ o.id) ∧ t.mem = s.mem
  (o.args.getD 22 0 = 2 → exec (.copyCompletion o.id) s = .next { s with ops := s.ops.filter fun z => z.id != o.id }) ∧
  (∀ f, o.args.getD 22 0 ≠ 2 → s.mapRanges o.core o.asid (if x.store then .write else .read) x.farBytes = .error f →
    ∃ t o', exec (.copyCompletion o.id) s = .next t ∧ t.op? o.id = some o' ∧ o'.parked = true ∧
      (t.core o.core).locks = (s.core o.core).locks) ∧
  (o.args.getD 22 0 = 0 → s.mapRanges o.core o.asid .read x.farBytes = .ok m → s.cutOff m = false →
    ∃ t, exec (.copyCompletion o.id) s = .next t ∧ ended t) ∧
  (o.args.getD 22 0 = 1 → s.mapRanges o.core o.asid .write x.farBytes = .ok m →
    ∃ t, exec (.copyCompletion o.id) s = .next t ∧ ended t) ∧
  (o.args.getD 22 0 = 0 → (∀ n, s.markFor o.core g.part n = 0) → s.mapRanges o.core o.asid .read x.farBytes = .ok m →
    s.cutOff m = false →
    let bs := (x.loadBytes o.cb (fun va => s.engByte o.core g.part o.snap (vaAt m va)) fun _ => false).1
    (d.kind = 0 → ∃ t, exec (.copyCompletion o.id) s = .next t ∧ ended t ∧ Arrives s t o.signal ∧
      ∀ a, t.locByte (.sram o.gid a) 0 = (Signal.wordByte o.signal 0 o.gid a).getD
        (if d.off ≤ a ∧ a < d.off + bs.length then bs.getD (a - d.off) 0 else s.locByte (.sram o.gid a) 0)) ∧
    (∀ z, d.kind = 1 → (∀ p ∈ s.savedMx, p.1 ≠ o.gid) → (s.core core).mx.resv? d.rid = some z →
      ∃ t, exec (.copyCompletion o.id) s = .next t ∧ ended t ∧ Arrives s t o.signal ∧
        (∀ a, t.locByte (.sram o.gid a) 0 = (Signal.wordByte o.signal 0 o.gid a).getD (s.locByte (.sram o.gid a) 0)) ∧
        ∀ a, smGet 0 (t.core core).mx.opbuf a = if z.lo + d.off ≤ a ∧ a < z.lo + d.off + bs.length then bs.getD (a - (z.lo + d.off)) 0
          else smGet 0 (s.core core).mx.opbuf a)) ∧
  (o.args.getD 22 0 = 1 → g.sSpoil = [] → s.mapRanges o.core o.asid .write x.farBytes = .ok m →
    let r := x.storeBytes o.cb (fun i => s.locByte (.sram o.gid d.off) i) (fun va => s.farByte o.core g.part (vaAt m va)) fun _ => false
    ∃ t, exec (.copyCompletion o.id) s = .next t ∧ ended t ∧ Arrives s t o.signal ∧
      (∀ a, t.locByte (.sram o.gid a) 0 = (Signal.wordByte o.signal 0 o.gid a).getD (s.locByte (.sram o.gid a) 0)) ∧
      ∀ a, t.farByte core g.part a = (lastWrite (r.1.map fun p => (vaAt m p.1, p.2)) a).getD (s.farByte core g.part a))) ∧
  (∀ (y : CopyBox) (rd : Nat → Byte) (k : Nat) (b : List Nat) (i : Nat), y.far = .i8 → y.near = .i8 → y.rows[k]? = some b →
    i < y.lay.box.getD 0 1 →
    let x0 := y.coord 0 + i
    let inside := (∀ j < 4, 0 ≤ y.coord (j + 1) + b.getD j 0 ∧ y.coord (j + 1) + b.getD j 0 < y.lay.dim.getD (j + 1) 1) ∧
      0 ≤ x0 ∧ x0 < y.lay.dim.getD 0 1
    let row := y.lay.base + BitVec.ofInt 64 ((List.range 4).map fun j =>
      (y.coord (j + 1) + b.getD j 0) * y.lay.stride.getD (j + 1) 0).sum
    (y.loadBytes [] rd fun _ => false).1.getD (k * y.lay.box.getD 0 1 + i) 0 =
      if inside then rd (row.toNat + x0.toNat) else 0x80)

/-- R129 to R134, R255 to R258: a gather, a migration and a decode attention start with their ranges locked and their
results pending, or answer their failure; KVMAP sends one transaction a lane, behind a release at device scope.
Its corners that the spec leaves open follow log 33, log 60, log 61, and the EAUX of ILLEGAL log 15; those clauses are the model's choice. -/
def Obligations.CacheMapStarts : Prop := ∀ (s : State) (c : Ctx),
  (∀ (x : OpE) (v : Nat) (sig : Signal), Issues s (.kvg x) c → c.act x.m ≠ [] →
    let l := c.low x.m
    let b := x.b.toNat
    let ctl := (c.reg (b + 2) l).toNat
    let arr := (c.reg (b + 3) l).toNat
    let d := kvDesc v
    let n := (c.act x.m).length * (d.tilePart (ctl / 2 ^ 20 % 4)).2
    let scratch := ctl / 2 ^ 22 % 2 = 1
    let dst := ctl % 2 ^ 20
    let fits := d.rejected = false ∧ ctl / 2 ^ 23 = 0 ∧ ctl / 2 ^ 20 % 4 ≠ 0 ∧ dst % 16 = 0 ∧ dst + n ≤ c.grp.sBytes
    let room := s.gathers c.grp.core < 8 ∧ (s.copyQueue c.grp.core).length < 32 ∧ s.lockRoom c.grp.core 1 = true
    ReadsRecord s c x.a.toNat 32 l v →
    (¬ scratch → c.deferring = true → fits → room → s.fly? (c.key s) = none → ∃ t w f o, exec (.kvg x) s = .next t ∧
      OnlyWarp { s with flys := t.flys, ops := s.ops ++ [o], cores := t.cores, uid := t.uid } t c.cur.gid c.cur.widx w ∧
      Started c (c.key s) true (c.actMask x.m) [x.d.toNat] w ∧ t.fly? (c.key s) = some f ∧ f.ready = 0 ∧
      o.kind = .kvg ∧ o.fly = c.key s ∧ o.mask = c.actMask x.m ∧
      ⟨o.id, 0, c.grp.asid, c.grp.gid, dst, n⟩ ∈ (t.core c.grp.core).locks) ∧
    (scratch → s.checkSignal c.grp (c.reg (b + 4) l) (c.reg (b + 5) l) = .ok sig → fits → arr % 4 = 0 →
      arr + 128 ≤ c.grp.sBytes → room → ∃ t o, exec (.kvg x) s = .next t ∧ o.kind = .kvg ∧ o.signal = some sig ∧
        Done (s.startOp o [⟨o.id, 0, c.grp.asid, c.grp.gid, dst, n⟩]) t c x.m false [(x.d.toNat, fun _ => 0)] flag0) ∧
    (scratch → s.checkSignal c.grp (c.reg (b + 4) l) (c.reg (b + 5) l) = .ok sig → d.rejected = true →
      Completes s (.kvg x) c x.m false [(x.d.toNat, fun _ => 6)] flag0) ∧
    (¬ scratch → c.deferring = false → Raises s (.kvg x) c 0x20 fun _ e => e = c.cur.iword)) ∧
  (∀ (x : OpE) (v : Nat) (at_ : Nat → Nat), Issues s (.kvmap x) c → c.act x.m ≠ [] →
    ReadsRecord s c x.a.toNat 32 (c.low x.m) v →
    let b := x.b.toNat
    let d := kvDesc v
    let new := fun l => c.pair (b + 2) l
    d.rejected = false → (∀ l ∈ c.act x.m, (new l).extractLsb' 57 4 = 0) → s.fly? (c.key s) = none →
    (∀ l ∈ c.act x.m, (c.reg b l).toNat < d.seqs ∧ (c.reg (b + 1) l).toNat % 256 < d.heads ∧
      (c.reg (b + 1) l).toNat / 256 < d.blocks ∧
      at_ l = d.mapbase + 8 * (((c.reg b l).toNat * d.heads + (c.reg (b + 1) l).toNat % 256) * d.blocks
        + (c.reg (b + 1) l).toNat / 256)) →
    Accessible s c .g 8 true false ((c.act x.m).map fun l => entryEa l (at_ l)) →
    (∀ l ∈ c.act x.m, ∀ p, s.placeOf c.grp true (entryEa l (at_ l)) = some p → p.peer = false) →
    Sends s (.kvmap x) c .kvmap (c.actMask x.m) [x.d.toNat, x.d.toNat + 1] (c.act x.m) (c.act x.m).length true (some .device)
      (fun l => entryEa l (at_ l)) new fun _ => 0) ∧
  (∀ (x : OpE) (l v a : Nat) (p : Loc) (sig : Signal), Issues s (.migr x) c → c.act x.m = [l] → ReadsRecord s c x.a.toNat 32 l v →
    let ws := c.words x.b.toNat 6 l
    let d := kvDesc v
    let new := (join64 (ws.getD 2 0) (ws.getD 3 0)).toNat
    s.checkSignal c.grp (ws.getD 4 0) (ws.getD 5 0) = .ok sig → s.fly? (c.key s) = none →
    (d.rejected = false → entryMapped new = true → entryMoving new = false → entryReserved new = 0 →
      d.entryOf (ws.getD 0 0) (ws.getD 1 0) = some a → (s.copyQueue c.grp.core).length < 32 →
      Accessible s c .g 8 true false [entryEa l a] → s.placeOf c.grp true (entryEa l a) = some p → p.peer = false →
      s.locEngine p < portEngine →
      ∃ t w f o, exec (.migr x) s = .next t ∧ t.warp? c.cur.gid c.cur.widx = some w ∧
        Started c (c.key s) false (c.actMask x.m) [x.d.toNat] w ∧ t.ops = s.ops ++ [o] ∧ o.kind = .migr ∧ o.signal = some sig ∧
        t.fly? (c.key s) = some f ∧ f.left = 1 ∧ t.mem = s.mem ∧
        ∃ b, OnTheWay s t c none b ∧ b.kind = .migr o.id ∧ b.fly = c.key s ∧ b.txs = [⟨l, p, 0, 0⟩]) ∧
    (d.rejected = true → ∃ t w f, exec (.migr x) s = .next t ∧ t.warp? c.cur.gid c.cur.widx = some w ∧
      Started c (c.key s) false (c.actMask x.m) [x.d.toNat] w ∧ t.fly? (c.key s) = some f ∧ f.ready = c.actMask x.m ∧
      ∀ k < 32, ((f.vals.getD 0 (0, [])).2).getD k 0 = 4)) ∧
  (∀ (x : OpE) (v : Nat), Issues s (.adec x) c → c.act x.m ≠ [] →
    let ws := c.words x.b.toNat 3 (c.low x.m)
    let q := (ws.getD 0 0).toNat
    let ls := (ws.getD 1 0).toNat
    let n := (ws.getD 2 0).toNat
    let d := kvDesc v
    let rs := span x.d.toNat (4 + d.dim / 32)
    ReadsRecord s c x.a.toNat 32 (c.low x.m) v → c.deferring = true → 1 ≤ n → n ≤ 1024 → x.d.toNat + 3 + d.dim / 32 < c.warp.window →
    q % 4 = 0 → ls % 4 = 0 → q + 4 * d.dim ≤ c.grp.sBytes → ls + 4 * n ≤ c.grp.sBytes → s.fly? (c.key s) = none →
    d.rejected = false → (s.ops.filter fun o => o.core == c.grp.core && o.kind == .adec).length < 8 →
    s.lockRoom c.grp.core 2 = true → c.extraWaits (rs.drop 4) = [] →
    ∃ t w f o, exec (.adec x) s = .next t ∧
      OnlyWarp { s with flys := t.flys, ops := s.ops ++ [o], cores := t.cores, uid := t.uid } t c.cur.gid c.cur.widx w ∧
      Started c (c.key s) true (c.actMask x.m) rs w ∧ t.fly? (c.key s) = some f ∧ f.ready = 0 ∧ o.kind = .adec ∧ o.fly = c.key s ∧
      (t.core c.grp.core).locks = (s.core c.grp.core).locks ++
        [⟨o.id, 0, c.grp.asid, c.grp.gid, q, 4 * d.dim⟩, ⟨o.id, 0, c.grp.asid, c.grp.gid, ls, 4 * n⟩])

/-- R130 to R134, R247, R256, R257: a gather, a migration and an attention whose ranges translate complete. A gather brings each
lane's tile, or an absent one, with its status, in its register or in scratch; a migration copies the block and writes the entry,
or restores it; an attention lands its triple; the signal is given. At its home engine KVMAP's transaction exchanges an entry that
is not moving, and MIGR's marks a mapped one as moving.
Its corners that the spec leaves open follow log 6, log 33; those clauses are the model's choice. -/
def Obligations.CacheCompletionMovesBlocks : Prop :=
  (∀ (s : State) (engine : Nat) (bt : Batch) (r : Bool) (tx : Tx) (a : Nat),
  s.filledWaiter engine = none → s.nextBatch engine = some (bt, r) → bt.txs = [tx] → tx.loc = .phys a → isPeer (a + 8) = false →
  tx.lane < 32 → (∀ f ∈ s.flys, ∀ x ∈ f.todo, x.behind ≠ bt.id) →
  let e := s.homeNat a 8
  let lands := fun (t : State) (j : Nat) (v : Word) => ∀ f d vs, s.fly? bt.fly = some f → f.vals[j]? = some (d, vs) → vs.length = 32 →
    ∃ f' vs', t.fly? bt.fly = some f' ∧ f'.vals[j]? = some (d, vs') ∧ vs'.getD tx.lane 0 = v ∧ f'.left = f.left - 1
  (bt.kind = .kvmap → ∃ t, exec (.homeEngineTransaction engine) s = .next t ∧
    (entryMoving e = false → t.homeNat a 8 = tx.y.toNat ∧ ∀ q, s.Outside a 8 q → t.home q = s.home q) ∧
    (entryMoving e = true → t.mem = s.mem) ∧ lands t 0 (BitVec.ofNat 32 e) ∧ lands t 1 (BitVec.ofNat 32 (e / 2 ^ 32))) ∧
  (∀ o, bt.kind = .migr o.id → s.op? o.id = some o → ∃ t, exec (.homeEngineTransaction engine) s = .next t ∧
    (entryMapped e = true → entryMoving e = false → t.homeNat a 8 = e + 2 ^ 60 ∧ (∀ q, s.Outside a 8 q → t.home q = s.home q) ∧
      lands t 0 0 ∧ t.op? o.id = some { o with args := o.args ++ [1] }) ∧
    (entryMapped e = false → t.mem = s.mem ∧ lands t 0 3 ∧ t.op? o.id = none) ∧
    (entryMapped e = true → entryMoving e = true → t.mem = s.mem ∧ lands t 0 1 ∧ t.op? o.id = none))) ∧
  (∀ (s : State) (o : EngOp),
  s.op? o.id = some o → o.parked = false →
  let word := fun k => (o.args.getD k 0).toNat
  let d := kvDesc (wordsNat (o.args.take 8))
  let ended := fun (t : State) => (∀ z ∈ t.ops, z.id ≠ o.id) ∧ ∀ l ∈ (t.core o.core).locks, l.op ≠ o.id
  let given := fun (t : State) (k : Nat) => Arrives s t o.signal ∧ ∀ h x, s.group? h = some x → ∀ b,
    t.locByte (.sram h b) 0 = (Signal.wordByte o.signal k h b).getD (s.locByte (.sram h b) 0)
  (∀ g m b, o.kind = .kvg → s.copyWaits o = false → s.group? o.gid = some g →
    let arg := fun (l k : Nat) => (o.lanes.getD l []).getD k 0
    let sel := word 8 / 2 ^ 20 % 4
    let scratch := word 8 / 2 ^ 22 % 2 = 1
    let n := (d.tilePart sel).2
    let dst := word 8 % 2 ^ 20
    let finds := fun l => s.gatherLane d m (arg l 0) (arg l 1) sel
    s.mapRanges o.core o.asid .read ((lanesOf o.mask).filterMap fun l => (d.entryOf (arg l 0) (arg l 1)).map fun a => (a, 8))
      = .ok m →
    s.mapRanges o.core o.asid .read ((lanesOf o.mask).filterMap fun l => (finds l).2.map fun p => (p.1, n)) = .ok b →
    ∃ t, exec (.kvgCompletion o.id) s = .next t ∧ ended t ∧ t.mem = s.mem ∧
      ((∀ l ∈ lanesOf o.mask, ∀ va r, (finds l).2 = some (va, r) → r = false ∧ ∀ i ≤ n, isPeer (vaAt b (va + i)) = false) →
        (scratch → ∀ q, s.marked q = false) →
        (∀ f, ¬ scratch → s.fly? o.fly = some f → ∃ f', t.fly? o.fly = some f' ∧ f'.ready = f.mask ∧
          ∀ r vs, (r, vs) ∈ f'.vals → ∀ l ∈ lanesOf o.mask, vs.getD l 0 = BitVec.ofNat 32 (finds l).1) ∧
        Arrives s t o.signal ∧
        let tile := fun l => match (finds l).2 with
          | some (va, _) => (List.range n).map fun i => s.home (vaAt b (va + i))
          | none => d.absentTile sel
        let ws := (lanesOf o.mask).zipIdx.map (fun p => (Loc.sram o.gid (dst + p.2 * n), tile p.1)) ++
          if scratch then (lanesOf o.mask).map fun l => (Loc.sram o.gid (word 9 + 4 * l), natBytes 4 (finds l).1) else []
        ∀ q, t.locByte (.sram o.gid q) 0 = (Signal.wordByte o.signal 0 o.gid q).getD
          ((storedAt ws (.sram o.gid q)).getD (s.locByte (.sram o.gid q) 0)))) ∧
  (∀ a m ms mt, o.kind = .migr → 12 < o.args.length → d.entryOf (o.args.getD 8 0) (o.args.getD 9 0) = some a →
    s.mapRanges o.core o.asid .write [(a, 8)] = .ok m → isPeer (vaAt m a + 8) = false →
    let old := s.homeNat (vaAt m a) 8
    let new := (join64 (o.args.getD 10 0) (o.args.getD 11 0)).toNat
    let src := fun i => vaAt ms (entryLoc old + i)
    let tgt := fun i => vaAt mt (entryLoc new + i)
    (s.mapRanges o.core o.asid .read (if entryTier old = 3 then [] else [(entryLoc old, d.blockLen)]) = .ok ms →
      s.mapRanges o.core o.asid .write (if entryTier new = 3 then [] else [(entryLoc new, d.blockLen)]) = .ok mt →
      s.linked = true ∨ (entryTier old ≠ 3 ∧ entryTier new ≠ 3 ∧ s.cutOff ms = false ∧ s.cutOff mt = false) →
      ∃ t, exec (.migrCompletion o.id 0) s = .next t ∧ ended t ∧ t.homeNat (vaAt m a) 8 = new ∧
        (entryTier old = 1 → entryTier new = 1 → s.spoiled = [] →
          (∀ i < d.blockLen, isPeer (src i) = false ∧ isPeer (tgt i) = false ∧ s.Outside (vaAt m a) 8 (tgt i)) →
          (∀ i < d.blockLen, ∀ j < d.blockLen, i ≠ j → s.Outside (tgt j) 1 (tgt i)) →
          given t 0 ∧ ∀ i < d.blockLen, t.home (tgt i) = s.home (src i))) ∧
    (∀ k, 1 ≤ k → k ≤ 3 → (2 ≤ entryTier old ∨ 2 ≤ entryTier new) → ∃ t, exec (.migrCompletion o.id k) s = .next t ∧
      ended t ∧ given t k ∧ t.homeNat (vaAt m a) 8 = old - 2 ^ 60 ∧
      ∀ q, s.Outside (vaAt m a) 8 q → t.home q = s.home q)) ∧
  (∀ f m b, o.kind = .adec → s.fly? o.fly = some f →
    let at_ := fun (q i : Nat) => s.locNat (.sram o.gid (q + 4 * i)) 4
    let q := (List.range d.dim).map fun i => BitVec.ofNat 32 (at_ (word 8) i)
    let es := d.listed ((List.range (word 10)).map fun i => at_ (word 9) i)
    s.mapRanges o.core o.asid .read (es.filterMap fun a => a.map fun x => (x, 8)) = .ok m →
    let bs := s.attended m es
    s.mapRanges o.core o.asid .read (bs.filterMap fun a => a.map fun x => (x, d.blockLen)) = .ok b →
    let r := s.attend d q bs b
    ∃ t f', exec (.adecCompletion o.id) s = .next t ∧ (∀ z ∈ t.ops, z.id ≠ o.id) ∧ t.mem = s.mem ∧
      (∀ l ∈ (t.core o.core).locks, l.op ≠ o.id) ∧
      t.fly? o.fly = some f' ∧ f'.ready = f.mask ∧ ∀ i < f.vals.length, ∀ l < 32, ((f'.vals.getD i (0, [])).2).getD l 0 =
        if i = 2 then BitVec.ofNat 32 r.2.1 else if i = 3 then BitVec.ofNat 32 r.2.2
        else if r.2.1 = 0 then 0xFFFFFFFF
        else if i = 0 then r.1.m else if i = 1 then r.1.l else r.1.acc.getD (32 * (i - 4) + l) 0xFFFFFFFF))

/-! ### Network, storage, arrivals -/

/-- R26, R28, R246 to R248, R259 to R261, R343: NWR, NRD, NSND, NATM and NWATCH start an operation of their context, with
its local range locked; the signal form answers 0, and the register form leaves its registers pending. A remote operand
outside the peer windows raises PROTECTION, a register form in non-deferring mode or with an odd pair raises ILLEGAL, and an
unknown handle, a bad length or alignment answers its status. The queues are shared out by partitions (R343, log 66).
R262, R263, R338: STRD, STWR and STFL start a command of their namespace; the data commands lock the local range.
Its corners that the spec leaves open follow log 34, log 66, and the EAUX of ILLEGAL log 15; those clauses are the model's choice. -/
def Obligations.NetworkAndStorageStart : Prop :=
  (∀ (s : State) (c : Ctx) (l : Nat),
  let die := c.grp.core / 128
  let payer := s.payer c.grp.part
  let room := s.netQueue die payer < s.share payer die 256
  -- what NWR, NRD and NSND have in common
  let common := fun (i : Instr) (m : Option Modifier) (d b k : Nat) (wr : Bool) (limit : Nat) =>
    let ws := c.words b 8 l
    let laddr := join64 (ws.getD 0 0) (ws.getD 1 0)
    let len := (ws.getD 2 0).toNat
    let ctl := (ws.getD 3 0).toNat
    LocalOk s c wr laddr → ctl / 2 ^ 15 = 0 → ctl / 2 ^ 9 % 8 < 6 →
    (laddr.toNat % 4 = 0 → len % 4 = 0 → len ≤ limit → room → s.lockRoom c.grp.core 1 = true →
      (∀ sig, ctl / 2 ^ 12 % 2 = 0 → s.checkSignal c.grp (ws.getD 4 0) (ws.getD 5 0) = .ok sig →
        StartsSignalled s i c m d (.net k) sig laddr.toNat len) ∧
      (ctl / 2 ^ 12 % 2 = 1 → c.deferring = true → c.badPair d = false → c.extraWaits [d + 1] = [] → s.fly? (c.key s) = none →
        StartsPending s i c m [d, d + 1] true (.net k))) ∧
    (∀ sig, ctl / 2 ^ 12 % 2 = 0 → s.checkSignal c.grp (ws.getD 4 0) (ws.getD 5 0) = .ok sig →
      (laddr.toNat % 4 ≠ 0 ∨ len % 4 ≠ 0) → Completes s i c m false [(d, fun _ => 2)] flag0) ∧
    (ctl / 2 ^ 12 % 2 = 1 → c.deferring = false ∨ c.badPair d = true → Raises s i c 0x20 fun _ e => e = c.cur.iword)
  (∀ (x : OpNet) (p : Nat), Issues s (.nwr x) c → c.act x.m = [l] → RemoteAt s c true x.a.toNat l p →
    common (.nwr x) x.m x.d.toNat x.b.toNat 0 false 0x1000000) ∧
  (∀ (x : OpE) (p : Nat), Issues s (.nrd x) c → c.act x.m = [l] → RemoteAt s c false x.a.toNat l p →
    common (.nrd x) x.m x.d.toNat x.b.toNat 1 true 0x1000000) ∧
  (∀ (x : OpNet) (h : Conn), Issues s (.nsnd x) c → c.act x.m = [l] →
    s.conn? c.grp.asid (c.reg x.a.toNat l).toNat = some h →
    common (.nsnd x) x.m x.d.toNat x.b.toNat 3 false 65536) ∧
  (∀ (x : OpNet) (p : Nat), Issues s (.natm x) c → c.act x.m = [l] → RemoteAt s c true x.a.toNat l p →
    let ctl := ((c.words x.b.toNat 8 l).getD 3 0).toNat
    (ctl / 2 ^ 12 % 2 = 0 ∨ c.deferring = true → ctl / 2 ^ 15 = 0 → ctl / 2 ^ 9 % 8 < 6 → room → s.fly? (c.key s) = none →
      StartsPending s (.natm x) c x.m [x.d.toNat, x.d.toNat + 1, x.d.toNat + 2] c.deferring (.net 2)) ∧
    (ctl / 2 ^ 12 % 2 = 1 → c.deferring = false → Raises s (.natm x) c 0x20 fun _ e => e = c.cur.iword)) ∧
  (∀ (x : OpE2) (p : Nat), Issues s (.nwatch x) c → c.act x.m = [l] →
    (c.deferring = true → RemoteAt s c false x.a.toNat l p → s.fly? (c.key s) = none →
      StartsPending s (.nwatch x) c x.m [x.d.toNat] true (.net 4)) ∧
    (c.deferring = false → Raises s (.nwatch x) c 0x20 fun _ e => e = c.cur.iword)) ∧
  (∀ (x : OpNet) (p : Nat), Issues s (.natm x) c → c.act x.m = [l] → canonical (c.pair x.a.toNat l) = true →
    ((c.words x.b.toNat 8 l).getD 3 0).toNat / 2 ^ 12 % 2 = 0 →
    s.translate c.grp.core c.grp.asid .write (c.pair x.a.toNat l) = .ok p → isPeer p = false →
    Raises s (.natm x) c 0x25 fun a _ => a = c.pair x.a.toNat l)) ∧
  (∀ (s : State) (c : Ctx) (l : Nat),
  let die := c.grp.core / 128
  let common := fun (i : Instr) (m : Option Modifier) (d a b k : Nat) =>
    let ws := c.words b 8 l
    let laddr := join64 (ws.getD 0 0) (ws.getD 1 0)
    let n := (ws.getD 2 0).toNat
    let h := (c.reg a l).toNat
    let reg := ws.getD 3 0 = 0x1000
    let payer := s.payer c.grp.part
    ∀ ns, s.namespace? c.grp.asid h = some ns → s.storageQueue die payer < s.share payer die 128 →
    s.queuePair die c.grp.asid h < 128 → (reg ∨ ws.getD 3 0 = 0) →
    (k ≠ 2 → LocalOk s c (decide (k = 0)) laddr ∧ laddr.toNat % 64 = 0 ∧ 1 ≤ n ∧ n ≤ 512 ∧ n * ns.block ≤ 0x200000 ∧
      s.lockRoom c.grp.core 1 = true) →
    let len := if k = 2 then 0 else n * ns.block
    (∀ sig, ¬ reg → s.checkSignal c.grp (ws.getD 4 0) (ws.getD 5 0) = .ok sig →
      StartsSignalled s i c m d (.storage k) sig laddr.toNat len) ∧
    (reg → c.deferring = true → c.badPair d = false → c.extraWaits [d + 1] = [] → s.fly? (c.key s) = none →
      StartsPending s i c m [d, d + 1] true (.storage k))
  (∀ x : OpE, Issues s (.strd x) c → c.act x.m = [l] → common (.strd x) x.m x.d.toNat x.a.toNat x.b.toNat 0) ∧
  (∀ x : OpNet, Issues s (.stwr x) c → c.act x.m = [l] → common (.stwr x) x.m x.d.toNat x.a.toNat x.b.toNat 1) ∧
  (∀ x : OpE, Issues s (.stfl x) c → c.act x.m = [l] → common (.stfl x) x.m x.d.toNat x.a.toNat x.b.toNat 2) ∧
  (∀ (x : OpE) (sig : Signal), Issues s (.stfl x) c → c.act x.m = [l] → s.namespace? c.grp.asid (c.reg x.a.toNat l).toNat = none →
    c.reg (x.b.toNat + 3) l = 0 → s.checkSignal c.grp (c.reg (x.b.toNat + 4) l) (c.reg (x.b.toNat + 5) l) = .ok sig →
    Completes s (.stfl x) c x.m false [(x.d.toNat, fun _ => 4)] flag0))

/-- R223, R247, R259 to R263, R331, R333, R338: an operation goes out as a message of its class and flow with its peer entry's
fields, not before an earlier one of its ordered flow, an ATOM to a peer among them; a storage command goes in a capsule on the
ordered flow of its queue pair. What an answer, its absence for 100 ms, or a hand-off does: data that
come in are stores of the issuing core, the operation is over, its range is unlocked, and its status lands or its signal is
given.
Its corners that the spec leaves open follow log 34; those clauses are the model's choice. -/
def Obligations.NetworkCompletionLands : Prop :=
  (∀ (s : State) (o : EngOp), s.linked = true →
    let e := s.peerFields (peerIndex o.remote)
    let at_ := BitVec.ofNat 64 (peerRemote o.remote)
    let len := BitVec.ofNat 64 o.len
    let ctl := (o.args.getD 3 0).toNat
    let goes := fun (m : Message) => (s.goOut o).messages = s.messages ++ [m]
    let toPeer := fun (kind : Nat) (ws : List DWord) => goes ⟨kind, e.peer, o.lane.1, o.lane.2, e.rasid, e.rpart, e.job, o.asid, ws⟩
    (∀ m, s.mapRanges o.core o.asid .read [(o.laddr, o.len)] = .ok m →
      (o.kind = .net 0 → toPeer 0 ([at_, len] ++ packData (s.outgoing o m))) ∧
      (∀ y, o.kind = .net 3 → s.conn? o.asid o.remote = some y →
        goes ⟨3, y.peer, o.lane.1, o.lane.2, 0, 0, 0, o.asid, [BitVec.ofNat 64 y.remote, len] ++ packData (s.outgoing o m)⟩)) ∧
    (o.kind = .net 1 → toPeer 1 [at_, len]) ∧
    (o.kind = .net 2 → toPeer 2 [(if ctl / 2 ^ 14 % 2 = 1 then 1 else 0) + (if ctl / 2 ^ 13 % 2 = 1 then 2 else 0), at_,
      join64 (o.args.getD 4 0) (o.args.getD 5 0), join64 (o.args.getD 6 0) (o.args.getD 7 0)]) ∧
    (∀ ns, s.namespace? o.asid ctl = some ns →
      let command := fun (ws : List DWord) => goes ⟨8, ns.target, 6, some ns.handle, 0, 0, 0, o.asid, ws⟩
      let lba := join64 (o.args.getD 4 0) (o.args.getD 5 0)
      let nlb := BitVec.ofNat 64 ((o.args.getD 6 0).toNat - 1)
      (o.kind = .storage 0 → command [2, BitVec.ofNat 64 ns.nsid, lba, nlb]) ∧
      (∀ m, o.kind = .storage 1 → s.mapRanges o.core o.asid .read [(o.laddr, o.len)] = .ok m →
        command ([1, BitVec.ofNat 64 ns.nsid, lba, nlb, if o.delivered then 2 ^ 30 else 0] ++ packData (s.outgoing o m))) ∧
      (o.kind = .storage 2 → command [0, BitVec.ofNat 64 ns.nsid])) ∧
    (∀ p ∈ s.ops, ∀ k j, o.kind = .net k → p.kind = .net j → (k ≤ 3 ∨ k = 8) → (j ≤ 3 ∨ j = 8) → p.id < o.id →
      (s.laneOf o).2 ≠ none → s.laneOf p = s.laneOf o → p.out = none → p.orphan = false → s.target p = s.target o →
      s.nextOut ≠ some o)) ∧
  (∀ (s : State) (o : EngOp) (f : Fly) (status : Nat) (data : List Byte),
  s.op? o.id = some o → o.parked = false → o.orphan = false → o.handed = false → o.fly ≠ 0 → s.fly? o.fly = some f →
  o.signal = none → s.linked = true → o.out = some false →
  let finished := fun (t : State) (ws : List Word) => (∀ z ∈ t.ops, z.id ≠ o.id) ∧ t.mem = s.mem ∧
    ∃ f', t.fly? o.fly = some f' ∧ f'.ready = f.mask ∧ f'.left = 0 ∧
      ∀ i < f.vals.length, ∀ l < 32, ((f'.vals.getD i (0, [])).2).getD l 0 = ws.getD i 0
  let unlocked := fun (t : State) => ∀ l ∈ (t.core o.core).locks, l.op ≠ o.id
  let stored := fun (t : State) (m : VaMap) => ∀ a, t.farByte (s.opCore o) o.part a =
    (lastWrite (data.zipIdx.map fun p => (vaAt m (o.laddr + p.2), p.1)) a).getD (s.farByte (s.opCore o) o.part a)
  let late := o.sent + 10000000 ≤ s.tick47 / 47
  (∀ m, o.kind = .net 1 →
    (data.length = o.len → s.mapRanges o.core o.asid .write [(o.laddr, o.len)] = .ok m →
      ∃ t, exec (.networkCompletion o.id 0 data) s = .next t ∧ finished t [0, 0] ∧ stored t m ∧ unlocked t) ∧
    (∃ t, exec (.networkCompletion o.id 1 data) s = .next t ∧ finished t [1, 0] ∧ unlocked t) ∧
    (late → ∃ t, exec (.networkTimeout o.id) s = .next t ∧ finished t [2, 0] ∧ unlocked t)) ∧
  (o.kind = .net 0 ∨ o.kind = .net 3 →
    (o.delivered = true → status ≤ 1 → ∃ t, exec (.networkCompletion o.id status data) s = .next t ∧
      finished t [BitVec.ofNat 32 status, 0] ∧ unlocked t) ∧
    (o.delivered = false → ∃ t f', exec (.networkCompletion o.id 0 data) s = .next t ∧
      unlocked t ∧ t.fly? o.fly = some f' ∧ f'.ready = f.mask ∧
      ∀ i < f.vals.length, ∀ l < 32, ((f'.vals.getD i (0, [])).2).getD l 0 = 0) ∧
    (late → ∃ t, exec (.networkTimeout o.id) s = .next t ∧ finished t [2, 0] ∧ unlocked t)) ∧
  (o.kind = .net 2 →
    (∃ t, exec (.networkCompletion o.id 0 data) s = .next t ∧ finished t [BitVec.ofNat 32 (bytesNat (data.take 8)),
      if (o.args.getD 3 0).getLsbD 13 then BitVec.ofNat 32 (bytesNat (data.take 8) / 2 ^ 32) else 0, 0]) ∧
    (∃ t, exec (.networkCompletion o.id 1 data) s = .next t ∧ finished t [0, 0, 1]) ∧
    (late → ∃ t, exec (.networkTimeout o.id) s = .next t ∧ finished t [0, 0, 2])) ∧
  (o.kind = .net 4 →
    (∃ t o', exec (.networkCompletion o.id 0 data) s = .next t ∧ t.op? o.id = some o' ∧ o'.kind = .net 4 ∧ t.flys = s.flys) ∧
    (∃ t, exec (.networkCompletion o.id 1 data) s = .next t ∧ finished t [1])) ∧
  (∀ m nvst, o.kind = .storage 0 →
    (data.length = o.len → s.mapRanges o.core o.asid .write [(o.laddr, o.len)] = .ok m →
      ∃ t, exec (.storageCompletion o.id 0 nvst data) s = .next t ∧ finished t [0, 0] ∧ stored t m ∧ unlocked t) ∧
    (∃ t, exec (.storageCompletion o.id 1 nvst data) s = .next t ∧ finished t [1, BitVec.ofNat 32 nvst] ∧ unlocked t)) ∧
  (∀ k, o.kind = .storage k → late → ∃ t, exec (.storageTimeout o.id) s = .next t ∧ finished t [2, 0] ∧ unlocked t) ∧
  (∀ k nvst, o.kind = .storage k → k ≠ 0 →
    ∃ t, exec (.storageCompletion o.id 0 nvst data) s = .next t ∧ finished t [0, 0] ∧ unlocked t) ∧
  (∀ (x : Signal) (g : Group) k, s.group? x.gid = some g → x.isBarrier = false →
    (s.giveSignal x k).locNat (.sram g.gid (x.sig.toNat % 2 ^ 20)) 4 =
      if k = 0 then x.val.toNat else (0xFFFFFF00 + k) % 2 ^ 32))

/-- R330, R332 to R337: a request of an admitted peer is performed at the home copies and answered 0; any other is answered 1,
and nothing else happens; one in a class that does not carry it is dropped. A write or message that must wait for the peat or for
an earlier one of its flow is kept (R149). A watch enters a table of 4,096, notifies once, and may be cancelled.
Its corners that the spec leaves open follow log 23, log 35, log 91; those clauses are the model's choice. -/
def Obligations.RemoteArrivalsAnswered : Prop := ∀ (s : State) (r : RemoteReq), s.linked = true →
  let answer := fun (ws : List DWord) => (⟨11, r.peer, r.tc, none, 0, 0, 0, 0, ws⟩ : Message)
  let answered := fun (t : State) (k : DWord) (ws : List DWord) => t.messages = s.messages ++ [answer (k :: ws)]
  let refused := fun (i : Instr) => exec i s = .next { s with messages := s.messages ++ [answer [1]] }
  -- the home copies of this module are those with some bytes written
  let written := fun (t : State) (ws : List (Nat × Byte)) => ∀ a, isPeer a = false →
    (∀ w ∈ ws, isPeer w.1 = false ∧ (rawAddr w.1 / 128 = rawAddr a / 128 → s.viewOf w.1 = s.viewOf a)) →
    t.home a = (lastWrite (rawWrites ws) (rawAddr a)).getD (s.home a)
  let stranger := (s.part r.part).live = false ∨ (s.context r.asid).state ≠ .live ∨ (s.context r.asid).part ≠ r.part
  (r.tc ≤ 5 → (∀ data m, Admitted s r .write data.length m → s.writeWaits r s.inbox = false → s.watches = [] →
    s.ringAt r.asid r.addr data.length = none →
    let ws := data.zipIdx.map fun p => (vaAt m (r.addr.toNat + p.2), p.1)
    ∃ t, exec (.remoteWriteArrival r data) s = .next t ∧ answered t 0 [] ∧ t.nextLanding = s.nextLanding + 1 ∧
      written t ws ∧ t.groups = s.groups) ∧
  (∀ data m e, Admitted s r .write data.length m → s.writeWaits r s.inbox = false →
    s.ringAt r.asid r.addr data.length = some e → e.base.toNat ≤ r.addr.toNat →
    let off := r.addr.toNat - e.base.toNat
    let here := r.peer = e.src ∧ r.tc = e.tc ∧ r.flow = e.flow ∧ r.ordered = true
    (¬ here → ∃ t, exec (.remoteWriteArrival r data) s = .next t ∧ answered t 1 [] ∧ t.mem = s.mem ∧ t.endpoints = s.endpoints) ∧
    (here → s.watches = [] → data ≠ [] → off / e.size = e.next % e.frames → s.slotHeld e (off / e.size) = false →
      off % e.size + data.length ≤ e.size → e.count + data.length < e.size →
      ∃ t, exec (.remoteWriteArrival r data) s = .next t ∧ answered t 0 [] ∧
        written t (data.zipIdx.map fun p => (vaAt m (r.addr.toNat + p.2), p.1)) ∧
        { e with count := e.count + data.length } ∈ t.endpoints)) ∧
  (∀ data, s.writeWaits r s.inbox = true → exec (.remoteWriteArrival r data) s = .next { s with inbox := s.inbox ++ [⟨r, data, none⟩] }) ∧
  (∀ ep data, s.writeWaits r s.inbox = true →
    exec (.endpointMessageArrival r ep data) s = .next { s with inbox := s.inbox ++ [⟨r, data, some ep⟩] }) ∧
  (∀ len m, Admitted s r .read len m → s.spoiled = [] → ∃ t, exec (.remoteReadArrival r len) s = .next t ∧
    answered t 0 (packData ((List.range len).map fun i => s.home (vaAt m (r.addr.toNat + i)))) ∧
    { t with messages := s.messages } = s) ∧
  (∀ cas w64 y n m, let k := if w64 then 8 else 4
    Admitted s r .write k m → r.addr.toNat % k = 0 →
    let a := vaAt m r.addr.toNat
    isPeer (a + 8) = false → s.locMarked (.phys a) k = false → (∀ b ∈ s.batches, b.engine ≠ engineOf a) → (s.inbox.any fun x => sameFlow x.req r) = false →
    let old := s.homeNat a k
    ∃ t, exec (.remoteAtomicArrival r cas w64 y n) s = .next t ∧ answered t 0 [BitVec.ofNat 64 old] ∧
      t.homeNat a k = (if cas then (if old = y.toNat % 2 ^ (8 * k) then n.toNat else old) else old + y.toNat) % 2 ^ (8 * k) ∧
      ∀ q, s.Outside a k q → t.home q = s.home q) ∧
  (∀ data, stranger → s.writeWaits r s.inbox = false → refused (.remoteWriteArrival r data)) ∧
  (∀ len, stranger → refused (.remoteReadArrival r len)) ∧
  (∀ cas w64 y n, (stranger ∨ r.addr.toNat % (if w64 then 8 else 4) ≠ 0) → refused (.remoteAtomicArrival r cas w64 y n)) ∧
  (∀ ep data, s.writeWaits r s.inbox = false → (∀ e ∈ s.endpoints, e.handle ≠ ep) → refused (.endpointMessageArrival r ep data)) ∧
  (∀ data e m, let k := e.next % e.frames
    let va := e.base.toNat + k * e.size
    findBy (fun x => !x.ring && x.handle == e.handle && x.part == r.part) s.endpoints = some e →
    s.peerAdmits r = true → s.liveAsid e.asid e.part = true → s.slotHeld e k = false → data.length ≤ e.size →
    s.mapRanges portCore e.asid .write [(va, data.length)] = .ok m → (∀ p ∈ m, isPeer p.2 = false) →
    s.writeWaits r s.inbox = false → s.watches = [] →
    (s.feed? e.feed = none → ∃ t, exec (.endpointMessageArrival r e.handle data) s = .next t ∧ answered t 0 [] ∧
      written t (data.zipIdx.map fun p => (vaAt m (va + p.2), p.1)) ∧
      ∃ e', e' ∈ t.endpoints ∧ e'.handle = e.handle ∧ e'.next = e.next + 1 ∧ e'.count = 0 ∧ e'.drops = e.drops + 1) ∧
    (∀ f, s.feed? e.feed = some f → f.full = false → f.pops = [] → f.mapped.isSome = true →
      ∃ t f', exec (.endpointMessageArrival r e.handle data) s = .next t ∧ answered t 0 [] ∧
        (∃ e', e' ∈ t.endpoints ∧ e'.handle = e.handle ∧ e'.next = e.next + 1 ∧ e'.count = 0 ∧ e'.drops = 0) ∧
        t.feed? e.feed = some f' ∧ ∃ y ∈ f'.recs, y.seq = f.tail ∧ y.landed = true ∧ y.words.getD 0 0 = e.tag ∧
          y.words.getD 2 0 = BitVec.ofNat 32 e.next ∧ y.words.getD 6 0 = BitVec.ofNat 32 data.length))) ∧
  -- a packet of a class that does not carry its kind is dropped
  (5 < r.tc → (∀ data, exec (.remoteWriteArrival r data) s = .next s) ∧ (∀ len, exec (.remoteReadArrival r len) s = .next s) ∧
    (∀ cas w64 y n, exec (.remoteAtomicArrival r cas w64 y n) s = .next s) ∧
    ∀ ep data, (∀ e ∈ s.endpoints, e.asid ≠ serviceAsid) → exec (.endpointMessageArrival r ep data) s = .next s) ∧
  (r.tc ≠ 6 → ∀ token, exec (.watchRegistrationArrival r token) s = .next s) ∧
  (∀ token m, r.tc = 6 → Admitted s r .read 1 m →
    (s.watches.length < 4096 → ∃ t w, exec (.watchRegistrationArrival r token) s = .next t ∧ answered t 0 [] ∧
      t.watches = s.watches ++ [w] ∧ w.addr = 128 * (vaAt m r.addr.toNat / 128) ∧ w.peer = r.peer ∧ w.token = token % 2 ^ 32) ∧
    (4096 ≤ s.watches.length → refused (.watchRegistrationArrival r token))) ∧
  (∀ (o : EngOp) (f : Fly) k, s.op? o.id = some o → o.kind = .net 4 → o.handed = true → k ≤ 2 → o.orphan = false →
    (s.context o.asid).state ≠ .quarantined → s.fly? o.fly = some f → ∃ t f', exec (.watchNotificationArrival o.id k) s = .next t ∧
      (∀ z ∈ t.ops, z.id ≠ o.id) ∧ t.fly? o.fly = some f' ∧ f'.ready = f.mask ∧
      (0 < f.vals.length → ∀ l < 32, ((f'.vals.getD 0 (0, [])).2).getD l 0 = BitVec.ofNat 32 k)) ∧
  (∀ peer token, exec (.watchCancel peer token) s =
    .next { s with watches := s.watches.filter fun w => !(w.peer == peer && w.token == token) })

/-! ### Privileged instructions -/

/-- R291, R292, R314, R359, R362: KSLOT loads, zeroises and names a key slot of a die; a line of memory written under
some keys shows to an address with others as what XTS-AES-256 makes of it, and zeroising a slot drops what cores have stored
there and has not landed. SCRUB starts the engine of a die on a list of dirty ranges, which zeroes them page by page, pauses for a partition reset at the first boundary after it, and ends with its signal.
Its corners that the spec leaves open follow log 36, log 74; those clauses are the model's choice. -/
def Obligations.KeySlotsAndScrub : Prop := ∀ (s : State) (c : Ctx) (x : OpSys),
  let l := c.low none
  let o := (c.reg x.a.toNat l).toNat
  let ctl := (c.reg x.b.toNat l).toNat
  let answers := fun (i : Instr) (k v : Word) => Completes s i c none false [(x.d.toNat, fun _ => k), (x.d.toNat + 1, fun _ => v)] flag0
  let after := fun (i : Instr) (u : State) (k v : Word) => ∃ t, exec i s = .next t ∧
    Done u t c none false [(x.d.toNat, fun _ => k), (x.d.toNat + 1, fun _ => v)] flag0
  let kdie := ctl / 2 ^ 8 % 8
  let k := ctl % 2 ^ 6
  let old := s.kslot kdie k
  let good := ctl / 2 ^ 11 = 0 ∧ ctl / 2 ^ 6 % 4 ≠ 3
  let free := fun (n : Nat) => o % 16 = 0 ∧ o + n ≤ c.grp.sBytes ∧ (s.core c.grp.core).locked 0 c.grp.asid o n = false
  (Issues s (.kslotLoad x) c →
    (good → free 64 → old.loaded = false → ∃ y : KSlot, after (.kslotLoad x) (s.setKslot kdie k y) 0 0 ∧ y.loaded = true ∧
      y.part = c.grp.part ∧ ∀ i < 32, y.data.getD i 0 = s.locByte (.sram c.grp.gid o) i ∧
        y.tweak.getD i 0 = s.locByte (.sram c.grp.gid o) (32 + i)) ∧
    (good → free 64 → old.loaded = true → (old.part = c.grp.part ∨ c.grp.part = 0xFF) → answers (.kslotLoad x) 1 0) ∧
    (good → free 64 → old.loaded = true → old.part ≠ c.grp.part → c.grp.part ≠ 0xFF → answers (.kslotLoad x) 3 0) ∧
    (good → (o % 16 ≠ 0 ∨ c.grp.sBytes < o + 64) → answers (.kslotLoad x) 4 0) ∧
    (¬ good → answers (.kslotLoad x) 2 0)) ∧
  (Issues s (.kslotZero x) c → s.fly? (c.key s) = none →
    (good → (old.loaded = false ∨ old.part = c.grp.part ∨ c.grp.part = 0xFF) → ∃ t w z, exec (.kslotZero x) s = .next t ∧
      t.warp? c.cur.gid c.cur.widx = some w ∧ Started c (c.key s) false (c.actMask none) [x.d.toNat, x.d.toNat + 1] w ∧
      t.kslot kdie k = KSlot.free ∧ t.ops = s.ops ++ [z] ∧ z.kind = .kzero ∧ z.fly = c.key s ∧ t.mem = s.mem ∧
      ∀ j, ∀ y ∈ (t.core j).stores, y.landed = false → ¬ (homeDie y.addr = kdie ∧ keySlot y.addr = some k)) ∧
    (¬ good → answers (.kslotZero x) 2 0)) ∧
  (Issues s (.kslotQuery x) c → good →
    answers (.kslotQuery x) 0 (BitVec.ofNat 32 ((if old.loaded then 1 else 0) + 2 ^ 16 * old.part))) ∧
  (∀ (core a b : Nat) (v : Byte), isPeer a = false → isPeer b = false → rawAddr a / 128 = rawAddr b / 128 →
    let t := s.engineWrite core [(a, v)]
    let line := rawAddr a / 128
    t.home a = v ∧ (s.viewOf a ≠ s.viewOf b → t.home b =
      otherView (s.viewOf a) (s.viewOf b) line (t.lineView t.mem line (s.viewOf a)) (rawAddr b % 128))) ∧
  (∀ (z : EngOp) (f : Fly), s.op? z.id = some z → z.kind = .kzero → s.fly? z.fly = some f →
    s.keyPending (z.args.getD 0 0).toNat (z.args.getD 1 0).toNat = false →
    ∃ t f', exec (.kslotZeroCompletion z.id) s = .next t ∧ (∀ q ∈ t.ops, q.id ≠ z.id) ∧ t.fly? z.fly = some f' ∧
      f'.ready = f.mask ∧ ∀ i < f.vals.length, ∀ j < 32, ((f'.vals.getD i (0, [])).2).getD j 0 = 0) ∧
  (let ws := c.words x.b.toNat 4 l
    let v := (ws.getD 0 0).toNat
    let n := v % 2 ^ 4 + 1
    let die := v / 2 ^ 6 % 8
    let d := s.die die
    let good := v / 2 ^ 9 = 0 ∧ v / 2 ^ 4 % 4 < 2 ∧ ws.getD 1 0 = 0
    let entry := fun i => (s.locNat (.sram c.grp.gid (o + 16 * i)) 8, s.locNat (.sram c.grp.gid (o + 16 * i + 8)) 8)
    (∀ sig, Issues s (.scrubStart x) c → good → c.grp.part = 0xFF → s.checkSignal c.grp (ws.getD 2 0) (ws.getD 3 0) = .ok sig →
      free (16 * n) → (∀ i < n, s.scrubbable die (entry i) = true) →
      (d.scrub.active = false → after (.scrubStart x) (s.setDie die { d with
        scrubpos := 0, scrub := { d.scrub with active := true, list := (List.range n).map entry, signal := some sig } }) 0 0) ∧
      (d.scrub.active = true → answers (.scrubStart x) 1 0)) ∧
    (Issues s (.scrubStart x) c → good → c.grp.part ≠ 0xFF → answers (.scrubStart x) 3 0) ∧
    (Issues s (.scrubStart x) c → ¬ good → answers (.scrubStart x) 2 0) ∧
    (Issues s (.scrubQuery x) c → good → c.grp.part = 0xFF → answers (.scrubQuery x) 0 (BitVec.ofNat 32
      (if d.scrub.active then 1 + 16 * scrubLeft d.scrub.list d.scrubpos.toNat else 0)))) ∧
  (∀ die, let d := s.die die
    let y := d.scrub
    (∀ a fin, y.active = true → (y.pausing = true → d.scrubpos.toNat = y.resetAt) → y.paused = false → scrubNext y.list d.scrubpos.toNat = some (a, fin) →
      ∃ t, exec (.scrubProgress die) s = .next t ∧ (t.die die).scrubpos = d.scrubpos + 4096 ∧
        (a % 4096 = 0 → ∀ q < keyBase, t.home q = if a ≤ q ∧ q < a + 4096 then 0 else s.home q) ∧
        (t.die die).scrub.active = (scrubNext y.list (d.scrubpos.toNat + 4096)).isSome ∧
        (fin = none → t.dirty = s.dirty)) ∧
    (y.active = true → y.pausing = true → d.scrubpos.toNat ≠ y.resetAt → y.paused = false →
      exec (.scrubPause die) s = .next (s.setDie die { d with scrub := { y with pausing := false, paused := true } })) ∧
    (y.paused = true → exec (.scrubResume die) s = .next (s.setDie die { d with scrub := { y with paused := false } })))

/-- R284, R293, R341: PART assigns what its descriptor lists to a partition that does not exist, resets a partition by
ending its user contexts, releases one that has none, and tells whether one exists; only the root may do all of it.
Its corners that the spec leaves open follow log 36, log 37, log 73, log 88; those clauses are the model's choice. -/
def Obligations.PartitionOperations : Prop := ∀ (s : State) (c : Ctx) (x : OpSys),
  let l := c.low none
  let o := (c.reg x.a.toNat l).toNat
  let ctl := (c.reg x.b.toNat l).toNat
  let p := ctl % 2 ^ 8
  let answers := fun (i : Instr) (k : Word) => Completes s i c none false [(x.d.toNat, fun _ => k)] flag0
  let after := fun (i : Instr) (u : State) => ∃ t, exec i s = .next t ∧ Done u t c none false [(x.d.toNat, fun _ => 0)] flag0
  let good := ctl / 2 ^ 10 = 0 ∧ p ≠ 0xFF
  let root := c.grp.part = 0xFF
  let free := fun (n : Nat) => o % 16 = 0 ∧ o + n ≤ c.grp.sBytes ∧ (s.core c.grp.core).locked 0 c.grp.asid o n = false
  let num := fun (n : Nat) => s.locNat (.sram c.grp.gid o) n
  -- no save, load or move that would end signals a barrier
  let moves := ∀ z ∈ s.ops, (z.kind = .save ∨ z.kind = .load ∨ z.kind = .move) → ∀ y, z.signal = some y → y.isBarrier = false
  (Issues s (.partAssign x) c → good → root → free 64 →
    let n := num 64 / 2 ^ 248 % 2 ^ 8
    let y := partOf (num (64 + 16 * n))
    (partHeaderBad (num 64) = true → answers (.partAssign x) 2) ∧
    (partHeaderBad (num 64) = false → free (64 + 16 * n) →
      (∀ r ∈ y.ranges, r.1 % 4096 = 0 ∧ r.2 % 4096 = 0 ∧ physRangeOk r.1 r.2 = true) →
      ((∃ k ∈ y.clusters, s.withheld k = true) → answers (.partAssign x) 3) ∧
      ((∀ k ∈ y.clusters, s.withheld k = false) → (∀ q ∈ s.parts, q.1 ≠ p → q.2.live = true → y.clashes q.2 = false) →
      ((s.part p).live = false → (∀ r ∈ y.ranges, s.memoryReady r = true ∧ ∀ z ∈ s.dirty, meets z.1 z.2 r.1 r.2 = false) →
        after (.partAssign x) (s.setPart p y) ∧ y.live = true ∧
        ∀ i < n, y.ranges.getD i (0, 0) = (num (64 + 16 * n) / 2 ^ (512 + 128 * i) % 2 ^ 64,
          num (64 + 16 * n) / 2 ^ (576 + 128 * i) % 2 ^ 64)) ∧
      ((s.part p).live = true → answers (.partAssign x) 1)))) ∧
  (Issues s (.partReset x) c → good → root →
    ((s.part p).live = true → (∀ g ∈ s.groups, g.asid ∈ s.userAsids p → g.gid ≠ c.cur.gid) → moves → ∃ t w, exec (.partReset x) s = .next t ∧
      t.warp? c.cur.gid c.cur.widx = some w ∧ Completed c none false [(x.d.toNat, fun _ => 0)] flag0 w ∧
      (∀ g ∈ t.groups, g.part = p → g.kernel = true) ∧ (t.part p).live = true ∧ (t.part p).ranges = (s.part p).ranges ∧
      ∀ a ∈ s.userAsids p, (t.context a).state = .quarantined) ∧
    ((s.part p).live = false → answers (.partReset x) 3)) ∧
  (Issues s (.partRelease x) c → good → root →
    ((s.part p).live = true → s.userAsids p = [] → ∃ u, after (.partRelease x) u ∧ u.part p = Part.absent ∧
      u.dirty = s.dirty ++ (s.part p).ranges ∧ u.groups = s.groups ∧
      (∀ f q, s.feed? f.num = some f → f.mapped = some q → s.ownsSlot p q.1 q.2 = true →
        ∃ f', u.feed? f.num = some f' ∧ f'.mapped = none) ∧
      ((∀ f ∈ s.feeds, ∀ q, f.mapped = some q → s.ownsSlot p q.1 q.2 = false) → u.mem = s.mem) ∧
      ∀ die, ∀ q ∈ (u.die die).kslots, q.2.part ≠ p) ∧
    ((s.part p).live = true → s.userAsids p ≠ [] → answers (.partRelease x) 1) ∧
    ((s.part p).live = false → answers (.partRelease x) 3)) ∧
  (Issues s (.partQuery x) c → good →
    ((root ∨ p = c.grp.part) → (s.part p).live = true → answers (.partQuery x) 0) ∧
    ((s.part p).live = false → answers (.partQuery x) 3)) ∧
  (Issues s (.partReset x) c → good → ¬ root → answers (.partReset x) 3) ∧
  (Issues s (.partAssign x) c → ¬ good → answers (.partAssign x) 2)

/-- R294 to R296, R308, R324, R326: SVCRET sends the answers of a live sheaf behind a release and answers 1 for any other
handle; FMAP brings a feed to a slot, or writes it back; ASIDQ puts an address-space id into quarantine, counts what is
outstanding under it, and frees it once nothing is.
Its corners that the spec leaves open follow log 27, log 39, log 72; those clauses are the model's choice. -/
def Obligations.ServicesAndIds : Prop := ∀ (s : State) (c : Ctx) (x : OpSys),
  let l := c.low none
  let va := (c.reg x.a.toNat l).toNat
  let vb := (c.reg x.b.toNat l).toNat
  let die := c.grp.core / 128
  (Issues s (.svcret x) c →
    let sh := smGet Sheaf.free (s.die (va / 2 ^ 29)).sheafs (va % 2 ^ 10)
    let fresh := ∀ o ∈ s.ops, o.kind = .answer → o.args.getD 0 0 ≠ BitVec.ofNat 32 va
    (sh.live = true → sh.gen = va / 2 ^ 10 % 2 ^ 19 → fresh → ∃ t w o, exec (.svcret x) s = .next t ∧
      t.warp? c.cur.gid c.cur.widx = some w ∧ Completed c none false [(x.d.toNat, fun _ => 0)] flag0 w ∧
      o ∈ t.ops ∧ o.kind = .answer ∧ o.mask = c.cur.mask ∧ t.mem = s.mem ∧
      (∀ k < 32, o.lanes.getD k [] = [c.reg x.b.toNat k, c.reg (x.b.toNat + 1) k]) ∧
      let a : Act := .release .device false [.answer o.id]
      TakesTurn s t c.cur.gid c.cur.widx a ∧
      (s.Turn c.cur.gid c.cur.widx a → ∃ r ∈ (t.core c.grp.core).relq, .answer o.id ∈ r.after)) ∧
    ((sh.live = false ∨ sh.gen ≠ va / 2 ^ 10 % 2 ^ 19) → ∃ t w, exec (.svcret x) s = .next t ∧
      t.warp? c.cur.gid c.cur.widx = some w ∧ Completed c none false [(x.d.toNat, fun _ => 1)] flag0 w ∧
      t.orphans = s.orphans + 1)) ∧
  (let at_ := c.pair x.a.toNat l
    let slot := vb % 2 ^ 8
    let good := vb / 2 ^ 9 = 0 ∧ at_.toNat % 128 = 0 ∧ canonical at_ = true ∧ s.ownsSlot c.grp.part die slot = true
    let starts := fun (i : Instr) (u : State) (k : Word) (num : Nat) => ∃ t w f o, exec i s = .next t ∧
      t.warp? c.cur.gid c.cur.widx = some w ∧ Started c (c.key u) false (c.actMask none) [x.d.toNat] w ∧
      t.fly? (c.key u) = some f ∧ f.ready = 0 ∧ t.ops = s.ops ++ [o] ∧ o.kind = .fmap ∧ o.fly = c.key u ∧
      o.args = [k, BitVec.ofNat 32 slot, BitVec.ofNat 32 num] ∧ t.mem = s.mem
    (∀ num s1 f, Issues s (.fmapMap x) c → good → slot ≠ 0 → (∀ q ∈ (s.die die).slots, q.1 ≠ slot) →
      (∀ o ∈ s.ops, o.kind = .fmap → o.core / 128 = die → o.args.getD 1 0 ≠ BitVec.ofNat 32 slot) →
      s.openFeed c.grp.core c.grp.asid at_ = .ok (num, s1) → s1.feed? num = some f → s1.fly? (c.key s1) = none →
      (c.grp.part = 0xFF ∨ f.part = c.grp.part) →
      (f.mapped = none → (∀ o ∈ s.ops, o.kind = .fmap → o.args.getD 2 0 ≠ BitVec.ofNat 32 num) →
        starts (.fmapMap x) s1 0 num) ∧
      (f.mapped ≠ none → ∃ t, exec (.fmapMap x) s = .next t ∧ Done s t c none false [(x.d.toNat, fun _ => 1)] flag0)) ∧
    (∀ p, Issues s (.fmapUnmap x) c → good → slot ≠ 0 → findBy (fun q => q.1 == slot) (s.die die).slots = some p →
      (∀ o ∈ s.ops, o.kind = .fmap → o.core / 128 = die → o.args.getD 1 0 ≠ BitVec.ofNat 32 slot) →
      (c.grp.part = 0xFF ∨ ∀ f, s.feed? p.2 = some f → f.part = c.grp.part) →
      s.fly? (c.key s) = none → starts (.fmapUnmap x) s 1 p.2) ∧
    (Issues s (.fmapUnmap x) c → good → (∀ q ∈ (s.die die).slots, q.1 ≠ slot) →
      Completes s (.fmapUnmap x) c none false [(x.d.toNat, fun _ => 3)] flag0)) ∧
  (∀ (o : EngOp) (f : Feed) (y : Fly), s.op? o.id = some o → o.kind = .fmap → s.feed? (o.args.getD 2 0).toNat = some f →
    s.fly? o.fly = some y → f.pops = [] →
    let odie := o.core / 128
    let slot := (o.args.getD 1 0).toNat
    ∃ t f' y', exec (.fmapCompletion o.id) s = .next t ∧ (∀ z ∈ t.ops, z.id ≠ o.id) ∧ t.fly? o.fly = some y' ∧
      y'.ready = y.mask ∧ (0 < y.vals.length → ∀ j < 32, ((y'.vals.getD 0 (0, [])).2).getD j 0 = 0) ∧
      t.feed? (o.args.getD 2 0).toNat = some f' ∧
      (o.args.getD 0 0 = 0 → f'.mapped = some (odie, slot) ∧ (slot, (o.args.getD 2 0).toNat) ∈ (t.die odie).slots) ∧
      (o.args.getD 0 0 ≠ 0 → f'.mapped = none ∧ ∀ q ∈ (t.die odie).slots, q.1 ≠ slot)) ∧
  (let n := s.asidOps va
    let answers := fun (i : Instr) (u : State) (k : Word) => ∃ t, exec i s = .next t ∧
      Done u t c none false [(x.d.toNat, fun _ => k), (x.d.toNat + 1, fun _ => BitVec.ofNat 32 n)] flag0
    va < 2 ^ 16 → vb ≤ 2 → (c.grp.part = 0xFF ∨ (s.context va).part = c.grp.part) →
    (Issues s (.asidqEnter x) c → (∃ g ∈ s.groups, g.asid = va ∧ g.stat ≠ .ended) → answers (.asidqEnter x) s 1) ∧
    (Issues s (.asidqEnter x) c → (∀ g ∈ s.groups, g.asid = va → g.stat = .ended) → (s.context va).state ≠ .quarantined →
      ∃ u, answers (.asidqEnter x) u 0 ∧ (u.context va).state = .quarantined ∧ u.mem = s.mem ∧ u.groups = s.groups ∧
        (∀ k, ∀ e ∈ (u.core k).tlb, e.asid ≠ va)) ∧
    (Issues s (.asidqQuery x) c → answers (.asidqQuery x) s 0) ∧
    (Issues s (.asidqLeave x) c → (0 < n ∨ (s.context va).state = .live) → answers (.asidqLeave x) s 1) ∧
    (Issues s (.asidqLeave x) c → n = 0 → (s.context va).state ≠ .live → ∃ u, answers (.asidqLeave x) u 0 ∧
      (u.context va).state = .free ∧ u.groups = s.groups ∧ (∀ h ∈ u.conns, h.asid ≠ va) ∧
      let p := s.part (s.context va).part
      ((∀ i < p.fqCap, s.fqPending p i = true → s.homeNat (p.fqEntry i + 10) 2 ≠ va) → u.mem = s.mem)))

/-- R287, R288: CSAVE, CLOAD and CMIGR act on all members of a gang at once: a save and a move stop them, a load and a
move place them on consecutive cores; the signal follows when every byte has been written or read.
Its corners that the spec leaves open follow log 24, log 38, log 56; those clauses are the model's choice. -/
def Obligations.ContextMoves : Prop := ∀ (s : State) (c : Ctx) (x : OpSys) (sig : Signal) (gs : List Group),
  let l := c.low none
  let ws := c.words x.b.toNat 8 l
  let va := (c.pair x.a.toNat l).toNat
  let stride := (ws.getD 2 0).toNat
  let good := stride < 2 ^ 16 ∧ ws.getD 3 0 = 0 ∧ s.checkSignal c.grp (ws.getD 4 0) (ws.getD 5 0) = .ok sig
  let root := c.grp.part = 0xFF
  let base := fun (g : Group) => va + g.member * stride * 4096
  let dest := fun (core : Nat) => handleOf (ws.getD 1 0) = some (core, 0) ∧
    ∀ g ∈ gs, core / 8 = (core + g.member) / 8 ∧ s.roomFor g (core + g.member) = true
  -- the gang: its members are found by their numbers, and the issuer is none of them
  let gang := gs ≠ [] ∧ ∀ g ∈ gs, s.group? g.gid = some g ∧ g.gid ≠ c.cur.gid ∧ (∀ y ∈ gs, y.gid = g.gid → y = g)
  let named := ∃ core slot g, handleOf (ws.getD 0 0) = some (core, slot) ∧ s.groupAt core slot = some g ∧ s.gangOf g = gs ∧
    g.kernel = false ∧ (root ∨ g.part = c.grp.part) ∧ g.member = 0
  let begins := fun (i : Instr) (k : OpKind) (post : Group → Group → Prop) => ∃ t w o, exec i s = .next t ∧
    t.warp? c.cur.gid c.cur.widx = some w ∧ Completed c none false [(x.d.toNat, fun _ => 0)] flag0 w ∧
    o ∈ t.ops ∧ o.kind = k ∧ o.signal = some sig ∧ o.lanes = gs.map (fun g => [BitVec.ofNat 32 g.gid]) ∧
    ∀ g ∈ gs, ∃ h, t.group? g.gid = some h ∧ h.stat = .moving ∧ post g h
  let answers := fun (i : Instr) (k : Word) => Completes s i c none false [(x.d.toNat, fun _ => k)] flag0
  (good → gang → named → s.imagesOk c.grp.part va stride gs (fun g => g.imageSize (s.holdsMatrix g)) = true →
    (∀ g ∈ gs, g.stat ≠ .moving) →
    (Issues s (.csave x) c → s.savedCount (gs.headD c.grp).part + gs.length ≤ 1024 →
      begins (.csave x) .save fun g h => h.image = base g ∧ h.warps = g.warps ∧ h.core = g.core) ∧
    (∀ core, Issues s (.cmigr x) c → dest core → begins (.cmigr x) .move fun g h => h.image = base g ∧ h.core = core + g.member)) ∧
  (∀ core g, Issues s (.cload x) c → good → gang → dest core →
    findBy (fun y => y.stat == .saved && y.member == 0 && y.image == va && (c.grp.part == 0xFF || y.part == c.grp.part)) s.groups
      = some g → s.gangOf g = gs → (∀ y ∈ gs, y.image = base y ∧ y.stat = .saved) →
    s.imagesOk c.grp.part va stride gs (fun y => y.imageSize (s.savedMx.any fun p => p.1 == y.gid)) = true →
    begins (.cload x) .load fun y h => h.core = core + y.member ∧ h.image = y.image) ∧
  (good → (Issues s (.csave x) c → handleOf (ws.getD 0 0) = none → answers (.csave x) 2) ∧
    (∀ core slot, Issues s (.csave x) c → handleOf (ws.getD 0 0) = some (core, slot) → s.groupAt core slot = none →
      answers (.csave x) 3) ∧
    (Issues s (.cload x) c → handleOf (ws.getD 1 0) = none → answers (.cload x) 2)) ∧
  (∀ (o : EngOp) (g : Group), s.op? o.id = some o → s.group? g.gid = some g → g.gid < 2 ^ 32 →
    o.lanes = [[BitVec.ofNat 32 g.gid]] →
    (o.kind = .save → o.args = [] → ∃ t h, exec (.contextImageCompletion o.id) s = .next t ∧ (∀ z ∈ t.ops, z.id ≠ o.id) ∧
      t.group? g.gid = some h ∧ h.stat = .saved ∧ h.image = g.image ∧
      ((∀ y, o.signal = some y → y.isBarrier = false) → h.warps = g.warps)) ∧
    (o.kind = .load ∨ o.kind = .move → (∀ y ∈ g.warps, ∀ v, y.susp = some v → v.answered = false) →
      ∃ t h, exec (.contextImageCompletion o.id) s = .next t ∧ (∀ z ∈ t.ops, z.id ≠ o.id) ∧
      t.group? g.gid = some h ∧ h.core = g.core ∧ (h.stat = .run ∨ h.stat = .draining)))

/-- R144, R275, R289, R290, R315, R316, R320, R321: TLBINV removes the translations that it names once its release has landed;
FQANS answers a pending entry of a fault queue, resuming its parties or ending their context; a completed
page walk serves the misses that joined it and those in the page that it found, which their cores cache.
Its corners that the spec leaves open follow log 8, log 9, log 25, log 48; those clauses are the model's choice. -/
def Obligations.TranslationsAndFaultAnswers : Prop := ∀ (s : State) (c : Ctx) (x : OpSys),
  let l := c.low none
  let va := c.pair x.a.toNat l
  let ctl := (c.reg x.b.toNat l).toNat
  let kind := ctl / 2 ^ 16 % 4
  let size := ctl / 2 ^ 18 % 4
  let asid := ctl % 2 ^ 16
  let root := c.grp.part = 0xFF
  (Issues s (.tlbinv x) c →
    let good := ctl / 2 ^ 20 = 0 ∧ kind ≠ 3 ∧ (kind = 0 → size ≠ 3)
    let answers := fun (k : Word) => Completes s (.tlbinv x) c none false [(x.d.toNat, fun _ => k)] flag0
    (good → (kind = 0 → va.toNat % invSize size = 0) → (kind = 2 ∨ root ∨ (s.context asid).part = c.grp.part) →
      ∃ t w o, exec (.tlbinv x) s = .next t ∧ t.warp? c.cur.gid c.cur.widx = some w ∧
        Started c (c.key s) false (c.actMask none) [x.d.toNat] w ∧ o ∈ t.ops ∧ o.kind = .tlbinv ∧ o.parked = true ∧
        o.fly = c.key s ∧ t.mem = s.mem ∧
        let a : Act := .release .device false [.tlbinv o.id]
        TakesTurn s t c.cur.gid c.cur.widx a ∧
        (s.Turn c.cur.gid c.cur.widx a → ∃ r ∈ (t.core c.grp.core).relq, .tlbinv o.id ∈ r.after)) ∧
    (¬ good → answers 2) ∧
    (good → kind = 0 → va.toNat % invSize size ≠ 0 → answers 4) ∧
    (good → (kind = 0 → va.toNat % invSize size = 0) → kind ≠ 2 → ¬ root → (s.context asid).part ≠ c.grp.part → answers 3)) ∧
  (∀ (o : EngOp) (f : Fly), s.op? o.id = some o → o.kind = .tlbinv → o.parked = false → s.accessPending o = false →
    s.fly? o.fly = some f →
    let v := (join64 (o.args.getD 0 0) (o.args.getD 1 0)).toNat
    let w := (o.args.getD 2 0).toNat
    let n := invSize (w / 2 ^ 18 % 4)
    let gone := fun (e : TlbEntry) =>
      (w / 2 ^ 16 % 4 = 0 → e.asid ≠ w % 2 ^ 16 ∨ e.vbase + e.size ≤ v ∨ v + n ≤ e.vbase) ∧
      (w / 2 ^ 16 % 4 = 1 → e.asid ≠ w % 2 ^ 16) ∧ (w / 2 ^ 16 % 4 = 2 → e.part ≠ (o.args.getD 3 0).toNat)
    ∃ t f', exec (.tlbinvCompletion o.id) s = .next t ∧ (∀ z ∈ t.ops, z.id ≠ o.id) ∧ t.fly? o.fly = some f' ∧
      f'.ready = f.mask ∧ (0 < f.vals.length → ∀ j < 32, ((f'.vals.getD 0 (0, [])).2).getD j 0 = 0) ∧
      (∀ k, ∀ e ∈ (t.core k).tlb, gone e ∧ e ∈ (s.core k).tlb) ∧ (∀ k, ∀ e ∈ (t.die k).tlb, gone e ∧ e ∈ (s.die k).tlb)) ∧
  (∀ s1, fqRelease s c = .ok s1 →
    let idx := (c.reg x.a.toNat l).toNat
    let answered := fun (i : Instr) (n : Nat) (k v : Word) (post : State → Prop) => ∃ t w, exec i s = .next t ∧
      t.warp? c.cur.gid c.cur.widx = some w ∧
      Completed c none false [(x.d.toNat, fun _ => k), (x.d.toNat + 1, fun _ => v)] flag0 w ∧
      (isPeer ((s1.part n).fqEntry idx) = false → (s1.part n).waiting = [] → t.homeNat ((s1.part n).fqEntry idx) 1 % 4 = 2) ∧ post t
    (∀ k, fqTarget s1 c idx ctl = .error k →
      (Issues s (.fqansResume x) c → ∃ t, exec (.fqansResume x) s = .next t ∧
        Done s1 t c none false [(x.d.toNat, fun _ => BitVec.ofNat 32 k), (x.d.toNat + 1, fun _ => 0)] flag0) ∧
      (Issues s (.fqansTerminate x) c → ∃ t, exec (.fqansTerminate x) s = .next t ∧
        Done s1 t c none false [(x.d.toNat, fun _ => BitVec.ofNat 32 k), (x.d.toNat + 1, fun _ => 0)] flag0)) ∧
    (∀ n key g y, Issues s (.fqansResume x) c → fqTarget s1 c idx ctl = .ok n →
      findBy (fun (q : Nat × List Party) => q.1 == idx) (s1.part n).parties = some (idx, [.warp key y.idx]) → key ≠ c.cur.gid →
      s1.group? key = some g → s1.warp? key y.idx = some y → g.gid = key → g.stat = .run → y.inh = none →
      ∀ sv, y.susp = some sv →
      let rec' := readSlot s1.home (s1.trapSlot g.core y.slot)
      rec'.bad = false → rec'.ecv = false → s1.badTarget g rec'.epc = none →
      answered (.fqansResume x) n 0 1 fun t => ∃ z, t.warp? key y.idx = some z ∧ z.susp = none ∧ z.regs = y.regs ∧
        ∀ sp, y.split? sv.split = some sp → ∃ sq, z.split? sv.split = some sq ∧ sq.pc = rec'.epc ∧ sq.mask = sv.mask) ∧
    (∀ n, Issues s (.fqansTerminate x) c → fqTarget s1 c idx ctl = .ok n →
      let a := s1.homeNat ((s1.part n).fqEntry idx + 10) 2
      (∀ g ∈ s1.groups, g.asid = a → g.gid ≠ c.cur.gid) →
      (∀ z ∈ s1.ops, (z.kind = .save ∨ z.kind = .load ∨ z.kind = .move) → ∀ y, z.signal = some y → y.isBarrier = false) → ∃ v, answered (.fqansTerminate x) n 0 v fun t =>
        (∀ g ∈ t.groups, g.asid ≠ a) ∧ (t.context a).state = .quarantined)) ∧
  (∀ core (a : Nat) (p : DWord) (m : Miss),
    let die := core / 128
    let found := s.walk p 4 (s.context a).root.toNat 0
    let kept := fun (x : Option TlbEntry) =>
      startWalks (s.walkShare die) ((s.die die).misses.filter fun y => !y.servedBy m.key x)
    findBy (fun y => y.walking && y.core == core && y.asid == a && y.va == p) (s.die die).misses = some m →
    (∀ e lv, found = .ok (e, lv) → s.leafFault (s.context a).part .read e (pageBits lv) p = none →
      let x : TlbEntry := ⟨a, (s.context a).part, p.toNat / 2 ^ pageBits lv * 2 ^ pageBits lv, 2 ^ pageBits lv, e⟩
      ∃ t, exec (.pageWalk core a p) s = .next t ∧ t.mem = s.mem ∧ t.groups = s.groups ∧ (t.die die).misses = kept (some x) ∧
        ∀ y ∈ (s.die die).misses, y.servedBy m.key (some x) = true → x ∈ (t.core y.core).tlb) ∧
    ((∀ e lv, found = .ok (e, lv) → s.leafFault (s.context a).part .read e (pageBits lv) p ≠ none) →
      exec (.pageWalk core a p) s = .next (s.setDie die { s.die die with misses := kept none })))

/-! ### Ends, launches, bring-up -/

/-- R37, R44, R45, R50, R148, R249, R307: a runnable closure takes its warp's issue slot; a YLD ends when its time has
come; a warp whose lanes have all exited and that awaits nothing ends, its group ends with the last, and the completion
record of a launch is written when everything that it issued is over.
Its corners that the spec leaves open follow log 41, log 52; those clauses are the model's choice. -/
def Obligations.EndingsOfWork : Prop := ∀ (s : State),
  (∀ (g : Group) (w : Warp) (k : Closure) (i : Instr), s.group? g.gid = some g → s.warp? g.gid w.idx = some w →
    w.headClosure = some k → g.stat = .run → w.ended = false → w.susp = none → w.inh = none → k.instr = some i →
    (∀ d ∈ s.drives, d.gid = g.gid → d.widx = w.idx → d.clo ≠ some k.idx) →
    (Instr.isLoad i = true → s.loadBehind (closureCtx g w k) i k.born = none) →
    exec (.closureRun g.gid w.idx k.idx) s = .next { s with cur := some (k.cur g.gid w.idx) }) ∧
  (∀ (g : Group) (w : Warp) (n : Nat), s.group? g.gid = some g → s.warp? g.gid w.idx = some w → w.yld = some n →
    (n ≤ (s.cycles (g.core / 128)).toNat ↔ exec (.yldTimeout g.gid w.idx) s =
      .next (s.updWarp g.gid w.idx fun z => { z with yld := none }))) ∧
  (∀ (g : Group) (w : Warp), s.group? g.gid = some g → s.warp? g.gid w.idx = some w → w.ended = false → w.splits = [] →
    w.closures = [] → w.annLive = 0 → (∀ q ∈ s.queue, q.gid = g.gid → q.widx ≠ w.idx) → (∀ d ∈ s.drives, d.gid = g.gid → d.widx ≠ w.idx) → (g.stat = .run ∨ g.stat = .draining) →
    ∃ t z h, exec (.warpEnd g.gid w.idx) s = .next t ∧ t.warp? g.gid w.idx = some z ∧ { z with ended := false } = w ∧
      z.ended = true ∧ t.group? g.gid = some h ∧
      ((∀ y ∈ g.warps, y.idx = w.idx ∨ y.ended = true) → h.stat = .draining) ∧
      ((∃ y ∈ g.warps, y.idx ≠ w.idx ∧ y.ended = false) → h.stat = g.stat)) ∧
  (∀ (g : Group), s.group? g.gid = some g → g.stat = .draining → s.busyGroup g = false →
    ∃ t h, exec (.groupEnd g.gid) s = .next t ∧ t.group? g.gid = some h ∧ h.stat = .ended ∧ t.mem = s.mem ∧
      (∃ r ∈ (t.core g.core).relq, .groupEnd g.gid ∈ r.after) ∧ (∀ f ∈ t.flys, f.gid ≠ g.gid) ∧
      ∀ b ∈ t.binds, b.2.gid = g.gid → b.2.state ≤ 2) ∧
  (∀ (l : Launch), s.launch? l.id = some l → l.recorded = false → l.parked = false → s.launchOver l = true →
    -- no entry of the context is still pending in the fault queue, and the record is outside of it
    let p := s.part (s.context l.desc.asid).part
    (∀ a, s.translate portCore l.desc.asid .write l.desc.crec = .ok a → isPeer (a + 32) = false →
      (∀ i < p.fqCap, (s.fqPending p i = true → s.homeNat (p.fqEntry i + 10) 2 ≠ l.desc.asid) ∧
        ∀ j < 12, s.Outside a 32 (p.fqEntry i + j)) →
      ∃ t l', exec (.launchCompletionRecord l.id) s = .next t ∧ t.launch? l.id = some l' ∧ l'.recorded = true ∧
        t.homeNat a 4 = (if l.terminated then 2 else 1) ∧ t.homeNat (a + 8) 4 = l.id % 2 ^ 32 ∧
        t.homeNat (a + 12) 4 = l.done % 2 ^ 32 ∧ t.homeNat (a + 24) 8 = s.ticks.toNat ∧
        (∀ q, s.Outside a 32 q → t.home q = s.home q) ∧ t.groups = s.groups) ∧
    (∀ f, s.translate portCore l.desc.asid .write l.desc.crec = .bad f → ∃ t l', exec (.launchCompletionRecord l.id) s = .next t ∧
      t.launch? l.id = some l' ∧ l'.parked = true ∧ l'.recorded = false ∧ t.groups = s.groups))

/-- R298 to R306: a LAUNCH message is queued or answered with its failure; APPEND places records behind releases of the
front end; the firmware core's writes of bind records reserve, free and commit places, and a gang starts when its last
record is committed; back-offs, moves of windows, aging and evictions happen when their time has come.
Its corners that the spec leaves open follow log 30, log 40, log 41, log 62, log 76, log 78; those clauses are the model's
choice. -/
def Obligations.LaunchesAndBinds : Prop := ∀ (s : State),
  (∀ (flow : Nat) (hdr : BitVec 128) (body : List Byte), s.cmdOpen flow = true →
    let h := cmdHeader hdr
    let v := bytesNat body
    let d := s.launchFor v
    let refusedAppend := fun (u : State) (k : Nat) => exec (.append flow hdr body) s = .next (u.refuseAppend flow h k)
    let ctx := s.context d.asid
    let shaped := h.kind = 1 ∧ body.length = 128 ∧ h.launch = 0 ∧ h.nrec = 0 ∧ h.handle = 0 ∧ descBad v = false
    let allowed := (s.part h.part).live = true ∧ (h.part ≠ 0xFF ∨ flow = 0) ∧
      (ctx.state = .free ∨ (ctx.state = .live ∧ ctx.part = h.part))
    let refused := fun (k : Nat) => exec (.launch flow hdr body) s = .next (s.sendReply flow (h.reply k 0 0 0))
    (shaped → allowed → d.misshapen = false → s.queued h.part < 256 → ∃ t l, exec (.launch flow hdr body) s = .next t ∧
      t.launches = s.launches ++ [l] ∧ l.id = s.nextLaunch ∧ t.nextLaunch = s.nextLaunch + 1 ∧ l.desc = d ∧ l.part = h.part ∧
      l.waitingGangs = List.range d.ngang ∧ l.live = 0 ∧ l.done = 0 ∧ l.held = d.holdapp ∧ (t.context d.asid).state = .live ∧
      (t.context d.asid).part = h.part ∧ t.mem = s.mem ∧ t.groups = s.groups ∧
      t.messages = (s.sendReply flow (h.reply 0 s.nextLaunch 0 0)).messages) ∧
    (¬ shaped → refused 2) ∧ (shaped → ¬ allowed → refused 3) ∧ (shaped → allowed → d.misshapen = true → refused 4) ∧
    (shaped → allowed → d.misshapen = false → 256 ≤ s.queued h.part → refused 1) ∧
    (h.kind ≠ 2 ∨ body.length ≠ 64 * h.nrec →
      exec (.append flow hdr body) s = .next (s.sendReply flow (h.reply 2 h.launch 0 0))) ∧
    (h.kind = 2 → body.length = 64 * h.nrec → h.nrec = 0 ∨ 64 < h.nrec → refusedAppend s 2) ∧
    (∀ l num s1 f, h.kind = 2 → 1 ≤ h.nrec → h.nrec ≤ 64 → body.length = 64 * h.nrec → s.launch? h.launch = some l →
      ¬ (h.part = 0xFF ∧ flow ≠ 0) → l.part = h.part → l.recorded = false → (s.part h.part).live = true → l.desc.feedtab ≠ 0 →
      s.feedNamed (portOf l.part) l.desc.asid l.desc.feedtab h.handle = .ok (some (num, s1)) → s1.feed? num = some f → f.mapped.isSome = true →
      (f.full = true → refusedAppend s1 1) ∧
      (f.full = false → ∃ t f' n, exec (.append flow hdr body) s = .next t ∧ 1 ≤ n ∧ n ≤ h.nrec ∧
        (∃ r ∈ (t.core (portOf l.part)).relq, .reply l.id flow (h.reply (if n = h.nrec then 0 else 1) l.id f.tail n) ∈ r.after) ∧
        t.feed? num = some f' ∧ f'.recs.length = f.recs.length + n ∧
        let ws := (List.range 16).map fun j => BitVec.ofNat 32 (bytesNat ((body.drop (4 * j)).take 4))
        f'.recs[f.recs.length]? = some ⟨f.tail, recordWords ws f.tail, recordBar ws, false, false, false, false, none⟩))) ∧
  (∀ (die slot : Nat) (rec' : BitVec 256) (l : Launch),
    let r := bindWord rec'
    let key := 8192 * die + slot
    let core := key / 64
    s.boot.up = true → die < 8 → slot < 8192 → (s.bind key).state = 0 → s.launch? r.ldesc = some l → s.holdAllowed core r l = true →
    ∃ t, exec (.bindHold die slot rec') s = .next t ∧ t.groups = s.groups ∧ t.mem = s.mem ∧
      (s.holdRoom core r l = true → (t.bind key).state = 2 ∧ (t.bind key).gang = r.gang ∧
        (t.core core).held = some (l.id, r.gang)) ∧
      (s.holdRoom core r l = false → (∀ p ∈ s.binds, p.2.launch = l.id → p.2.gang = r.gang → p.2.state ≠ 2) →
        (t.bind key).state = 0 ∧ (t.core core).compact = !(s.movable core).isEmpty ∧
        let n := s.nextAttempt l.id r.gang
        ⟨l.id, r.gang, n, s.tick47 / 47 + backoffTicks r.gang n, false⟩ ∈ t.backoffs)) ∧
  (∀ (die slot : Nat),
    let key := 8192 * die + slot
    let core := key / 64
    let b := s.bind key
    s.boot.up = true → b.state = 2 →
    (∃ t, exec (.bindFree die slot) s = .next t ∧ (t.bind key).state = 0 ∧ (t.core core).held = none ∧ t.groups = s.groups ∧
      t.mem = s.mem) ∧
    (∀ l ps, s.launch? b.launch = some l → b.launch = l.id → b.nmem = 0 → (s.admitting l.id b.gang).length = 1 →
      (∀ m, s.evicted? l.id b.gang m = none) → s.memberOver l.id b.gang b.member = false →
      s.placeWarps core l.desc.warps l.desc.regs = some ps → s.group? s.uid = none →
      ∃ t g, exec (.bindCommit die slot) s = .next t ∧ t.group? s.uid = some g ∧ g.stat = .run ∧ g.core = core ∧
        g.launch = l.id ∧ g.kernel = b.kernel ∧ g.prio = b.prio ∧ g.warps.length = l.desc.warps ∧ (t.bind key).state = 5 ∧ (t.core core).held = none ∧
        ∀ w ∈ g.warps, w.window = l.desc.regs ∧ w.tile = l.desc.tile ∧
          ∃ sp, w.splits = [sp] ∧ sp.pc = l.desc.entry ∧ sp.mask = 0xFFFFFFFF) ∧
    (∀ l, s.launch? b.launch = some l → (s.admitting b.launch b.gang).length = b.nmem + 1 →
      (∀ p ∈ s.admitting b.launch b.gang, p.2.state = 2 ∨ p.2.state = 4) →
      (∃ p ∈ s.admitting b.launch b.gang, p.1 ≠ key ∧ p.2.state = 2) →
      exec (.bindCommit die slot) s = .next (s.setBind key { b with state := 4 }))) ∧
  (∀ (die slot : Nat) (image : DWord) (g : Group) (l : Launch),
    let key := 8192 * die + slot
    let gs := (s.gangOf g).filter fun y => y.onCore
    s.boot.up = true → (s.bind key).state = 5 → s.group? (s.bind key).gid = some g → s.leads g = true → l ∈ s.launches →
    s.victim l g = true → s.evictInto gs image.toNat = true →
    (∀ y ∈ gs, s.group? y.gid = some y ∧ ∀ z ∈ gs, z.gid = y.gid → z = y) →
    ∃ t o, exec (.bindEvict die slot image) s = .next t ∧ (t.bind key).state = 6 ∧ o ∈ t.ops ∧ o.kind = .save ∧ o.args = [1] ∧
      o.lanes = gs.map (fun y => [BitVec.ofNat 32 y.gid]) ∧ ∀ y ∈ gs, ∃ h, t.group? y.gid = some h ∧ h.stat = .moving ∧
        h.image = imageBase image.toNat (s.evictStride gs) y.member ∧ h.warps = y.warps) ∧
  (∀ (launch gang : Nat) (b : Backoff),
    let prio := fun (n : Nat) => ((s.launch? n).map s.effective).getD 0
    s.backoff? launch gang = some b → b.expired = false → b.tick ≤ s.tick47 / 47 →
    (∀ y ∈ s.backoffs, y.expired = false → prio y.launch = prio launch → b.tick ≤ y.tick) →
    ∃ t, exec (.admissionBackoffExpiry launch gang) s = .next t ∧ t.backoff? launch gang = some { b with expired := true } ∧
      (∀ m n, (m, n) ≠ (launch, gang) → t.backoff? m n = s.backoff? m n) ∧ { t with backoffs := s.backoffs } = s) ∧
  (∀ (g : Group) (w : Warp) base, s.group? g.gid = some g → s.warp? g.gid w.idx = some w → (s.core g.core).compact = true → g.onCore = true →
    w.ended = false → base % 8 = 0 → base < w.wbase → windowFits ((s.residents g.core).flatMap fun y =>
      (y.warps.filter fun v => !v.ended && v.slot % 4 == w.slot % 4 && !(y.gid == g.gid && v.idx == w.idx)).map fun v =>
        (v.wbase, v.window)) base w.window = true →
    exec (.windowCompaction g.gid w.idx base) s =
      .next ((s.updWarp g.gid w.idx fun z => { z with wbase := base }).compacting g.core true)) ∧
  (∀ l : Launch, s.launch? l.id = some l → l.terminated = false → l.waitingGangs ≠ [] →
    (l.desc.prio + l.aged < 3 → 5000000 * (l.aged + 1) ≤ s.waitedFor l →
      exec (.priorityAging l.id) s = .next (s.updLaunch l.id fun x => { x with aged := x.aged + 1 })) ∧
    (l.evictor = false → l.waitFrom + 200000 ≤ s.tick47 / 47 →
      exec (.evictionWaitExpiry l.id) s = .next (s.updLaunch l.id fun x => { x with evictor := true })))

/-- R330, R347, R350 to R356: the boot ROM, the READY bits, the port's address, the announcement and its acknowledgement,
the management commands, the stretch steps of a die, and packets that are dropped or resent.
Its corners that the spec leaves open follow log 42, log 43, log 44, log 89; those clauses are the model's choice. -/
def Obligations.BringUpEvents : Prop := ∀ (s : State),
  let ticks := s.tick47 / 47
  let b := s.boot
  let same := fun (t : State) => t.groups = s.groups ∧ t.mem = s.mem ∧ t.cores = s.cores
  (∀ die k, die < 8 → let d := s.die die
    (1 ≤ k → k ≤ 4 → k ≠ d.sag → ∃ t, exec (.sagThresholdCrossing die k) s = .next t ∧ (t.die die).sag = k ∧
      (t.die die).sagging = true ∧ t.groups = s.groups ∧ t.cores = s.cores ∧ (d.intlog = 0 → t.mem = s.mem)) ∧
    (k = d.sag → 1 ≤ k → k ≤ 4 →
      exec (.sagThresholdCrossing die k) s = .next (s.setDie die { d with sagging := true })) ∧
    (d.sagging = true → exec (.sagThresholdCrossing die 0) s =
      .next (s.setDie die { d with sagging := false, sagClear := ticks })) ∧
    (d.sagging = false → 0 < d.sag → d.sagClear + 100 ≤ ticks → ∃ t, exec (.sagStepDown die) s = .next t ∧
      (t.die die).sag = d.sag - 1 ∧ (t.die die).sagClear = ticks ∧ t.groups = s.groups)) ∧
  (b.up = false → b.mgmtOnly = false →
    (∀ k x, (k, x) ∈ b.images → x.ed25519 = true → x.mldsa = true → ∃ t, exec .powerGoodBoot s = .next t ∧ same t ∧
      t.boot.up = true ∧ (t.part 0xFF).live = true ∧ (∀ d < 8, (t.die d).ready.getLsbD 0 = true) ∧
      ∃ y, (t.boot.slot, y) ∈ b.images ∧ y.ed25519 = true ∧ y.mldsa = true ∧ x.version ≤ y.version) ∧
    ((∀ k x, (k, x) ∈ b.images → x.ed25519 = false ∨ x.mldsa = false) →
      exec .powerGoodBoot s = .next { s with boot := { b with mgmtOnly := true } })) ∧
  (∃ t, exec .moduleReset s = .next t ∧ t.boot.images = b.images ∧ t.boot.up = false ∧ t.groups = [] ∧ t.launches = [] ∧
    t.parts = State.reset.parts ∧ t.dirty = s.dirty ∧
    (∀ a < keyBase, t.home a = if (stackOf a).isSome then s.home a else 0) ∧
    ∀ d, (t.die d).scrubpos = (s.die d).scrubpos ∧ (t.die d).ready = Die.fresh.ready) ∧
  (∀ die bit, b.up = true → die < 8 → (s.die die).ready.getLsbD bit = false → s.functionUp die bit = true → bit ≠ 7 → bit < 32 →
    ∃ t, exec (.readyFunctionUp die bit) s = .next t ∧ same t ∧ (t.die die).ready.getLsbD bit = true ∧ t.boot.tree = t.probe ∧
      ∀ k, k ≠ bit → (t.die die).ready.getLsbD k = (s.die die).ready.getLsbD k) ∧
  (∀ die, b.up = true → die < 8 → (s.die die).ready.getLsbD 7 = false → s.functionUp die 7 = true →
    s.group? s.uid = none → ∃ t, exec (.readyFunctionUp die 7) s = .next t ∧ (t.die die).ready.getLsbD 7 = true ∧
      ∃ g ∈ t.groups, g.kernel = true ∧ g.part = 0xFF ∧ g.core = 128 * die ∧ g.dmode = true) ∧
  (∀ port, (b.up = true ∨ b.mgmtOnly = true) → port < 16 → port ∉ b.links → exec (.portLinkUp port) s =
    .next { s with boot := { b with links := b.links ++ [port], linkTick := if b.links = [] then some ticks else b.linkTick } }) ∧
  (∀ addr sched n, b.linkTick = some n → b.address = none →
    exec (.dhcpv6Reply addr sched) s = .next { s with boot := { b with address := some addr, sched := sched.getD b.sched } } ∧
    (n + 300000000 ≤ ticks → exec (.addressFallbackTimeout addr) s = .next { s with boot := { b with address := some addr } })) ∧
  (∀ addr, b.up = true → b.links ≠ [] → b.address = some addr →
    (b.announce = 0 ∨ b.announceTick + (if b.mgmt = none then 100000000 else 10000000) ≤ ticks) →
    ∃ t m, exec .announceTimer s = .next t ∧ same t ∧ t.messages = s.messages ++ [m] ∧ m.kind = 6 ∧ m.dest = b.sched ∧ m.tc = 6 ∧
      t.boot.announce = b.announce + 1 ∧ (m.words.getD 0 0).setWidth 32 = (0x4A524E01 : Word)) ∧
  (∀ src, 0 < b.announce → exec (.announceAck src) s = .next { s with boot := { b with mgmt := some (b.mgmt.getD src) } }) ∧
  (∀ src, b.up = true → b.links ≠ [] → b.mgmt = some src →
    (∃ t m, exec (.mgmtQuery src) s = .next t ∧ same t ∧ t.messages = s.messages ++ [m] ∧ m.kind = 12 ∧ m.tc = 7 ∧ m.dest = src ∧
      ∀ d < 8, m.words.getD d 0 = (s.die d).ready.setWidth 64 ∧ m.words.getD (8 + d) 0 = BitVec.ofNat 64 (s.die d).sag) ∧
    (∀ p, p ≠ 0xFF → (s.part p).live = true → ∃ t, exec (.preset src p) s = .next t ∧ (t.part p).live = true ∧
      ∀ g ∈ t.groups, g.part = p → g.kernel = true) ∧
    exec (.mreset src) s = exec .moduleReset s ∧
    (∀ img, (img.bytes ≤ slotBytes → ∃ t, exec (.fwstage src img) s = .next t ∧ same t ∧ (1 - b.slot, img) ∈ t.boot.images ∧
        t.boot.slot = b.slot) ∧
      (slotBytes < img.bytes → exec (.fwstage src img) s = .next s))) ∧
  (∀ src p img, b.mgmt ≠ some src →
    exec (.mgmtQuery src) s = .next s ∧ exec (.preset src p) s = .next s ∧ exec (.mreset src) s = .next s ∧
    (b.links ≠ [] → b.mgmtOnly = false → exec (.fwstage src img) s = .next s) ∧
    (b.links = [] → exec (.fwstage src img) s = .refused (.notEnabled "FWSTAGE"))) ∧
  (∀ port, port < 16 →
    (∃ t, exec (.unsupportedPacketDrop port) s = .next t ∧ same t ∧
      ∀ k, smGet 0 t.boot.portErrors k = smGet 0 b.portErrors k + if k = port then 1 else 0) ∧
    (∃ t, exec (.crcFailedPacket port) s = .next t ∧ t.groups = s.groups ∧
      (t.die (port / 2)).intEvents = (s.die (port / 2)).intEvents + 1 ∧ ((s.die (port / 2)).intlog = 0 → t.mem = s.mem)))

/-! ### Every form that leaves work completes -/

/-- R38, R90, R246 to R248, R264: an instruction that hands work to an engine, a pool or a home engine has an issue
result of its own, and completes at issue: with its destinations pending, or with a status. An ATOM, a KVMAP, a MIGR and
the register forms of gathers, attentions, drains, and network and storage operations leave their registers pending; a
loop joins the queue of its matrix engine; the signal forms answer 0; TSPAWN says which lanes found room; TEND ends
lanes; and a task warp is formed. -/
def Obligations.WorkIsTakenUp : Prop := ∀ (s : State),
  (∀ (c : Ctx),
    let core := c.grp.core
    let die := core / 128
    let pends := fun (i : Instr) (m : Option Modifier) (event : Bool) (rs : List Nat) => s.fly? (c.key s) = none →
      ∃ t w, exec i s = .next t ∧ t.warp? c.cur.gid c.cur.widx = some w ∧ Started c (c.key s) event (c.actMask m) rs w
    let answers := fun (i : Instr) (m : Option Modifier) (d : Nat) (v : Nat → Word) => ∃ t w, exec i s = .next t ∧
      t.warp? c.cur.gid c.cur.widx = some w ∧ Completed c m false [(d, v)] flag0 w
    let queues := fun (i : Instr) (k : MKind) (ws : List Word) => (c.mx s).check = false → (c.mx s).owner = some c.grp.gid →
      (c.mx s).queue.length < 16 → ∃ t q, exec i s = .next t ∧ q ∈ (t.core core).mx.queue ∧ q.kind = k ∧ q.args = ws
    (∀ x : OpAtom, Issues s (.atom x) c → c.act x.m ≠ [] → x.p = .g → x.o = .add →
      Accessible s c .g (if x.w64 then 8 else 4) true false ((c.act x.m).map (c.ea s .g x.a.toNat 0 (if x.w64 then 8 else 4))) →
      pends (.atom x) x.m false (span x.d.toNat x.outRegs)) ∧
    (∀ x : OpE, Issues s (.tspawn x) c →
      (∀ l ∈ c.act x.m, (c.pair x.a.toNat l).extractLsb' 0 2 = 0 ∧ (c.pair x.b.toNat l).extractLsb' 0 6 = 0) →
      answers (.tspawn x) x.m x.d.toNat fun l =>
        if l ∈ (c.act x.m).take (1024 - (s.core core).tasks.length) then 0 else 1) ∧
    (∀ x : OpM, Issues s (.tend x) c → c.Live → c.warp.task = true → ∃ t w, exec (.tend x) s = .next t ∧
      t.warp? c.cur.gid c.cur.widx = some w ∧ ∀ l ∈ c.act x.m, ∀ pc, ¬ w.laneAt l pc) ∧
    (∀ (x : OpSrc) (w a : Resv), Issues s (.mloop x) c → c.act x.m ≠ [] →
      LoopOk s c (loopDesc (c.words x.a.toNat 4 (c.low x.m))) [] w a →
      queues (.mloop x) .loop (c.words x.a.toNat 4 (c.low x.m))) ∧
    (∀ (x : OpMgrp) (w a : Resv) (k r : Nat), Issues s (.mgrp x) c → c.act x.m ≠ [] →
      c.reg x.b.toNat (c.low x.m) = 0 → 4 ≤ c.grp.sBytes → s.locNat (.sram c.grp.gid 0) 4 = 2 ^ 16 * k + r → k < 2 ^ 10 → r < 2 ^ 16 →
      (s.core core).locked 0 c.grp.asid 0 4 = false →
      LoopOk s c (loopDesc (c.words x.a.toNat 4 (c.low x.m))) [(k, r)] w a →
      queues (.mgrp x) .grp (c.words x.a.toNat 4 (c.low x.m))) ∧
    (∀ x : OpE2, Issues s (.mdrn x) c → c.act x.m ≠ [] → c.reg x.a.toNat (c.low x.m) = 0 → c.deferring = true →
      (c.mx s).check = false → (c.mx s).owner = some c.grp.gid → (c.mx s).queue.length < 16 →
      pends (.mdrn x) x.m true [x.d.toNat]) ∧
    (∀ (x : OpE) (v : Nat), Issues s (.kvg x) c → c.act x.m ≠ [] → ReadsRecord s c x.a.toNat 32 (c.low x.m) v →
      let d := kvDesc v
      c.reg (x.b.toNat + 2) (c.low x.m) = 2 ^ 20 → c.deferring = true → d.rejected = false →
      (c.act x.m).length * d.halfLen ≤ c.grp.sBytes → s.gathers core < 8 → (s.copyQueue core).length < 32 →
      s.lockRoom core 1 = true → pends (.kvg x) x.m true [x.d.toNat]) ∧
    (∀ (x : OpE) (v : Nat), Issues s (.kvmap x) c → c.act x.m ≠ [] → ReadsRecord s c x.a.toNat 32 (c.low x.m) v →
      let d := kvDesc v
      let entries := (c.act x.m).filterMap fun l => (d.entryOf (c.reg x.b.toNat l) (c.reg (x.b.toNat + 1) l)).map (entryEa l)
      d.rejected = false → (∀ l ∈ c.act x.m, (c.pair (x.b.toNat + 2) l).extractLsb' 57 4 = 0) →
      Accessible s c .g 8 true false entries → (∀ e ∈ entries, ∀ p, s.placeOf c.grp true e = some p → p.peer = false) →
      pends (.kvmap x) x.m false [x.d.toNat, x.d.toNat + 1]) ∧
    (∀ (x : OpE) (l v a : Nat) (sig : Signal), Issues s (.migr x) c → c.act x.m = [l] → ReadsRecord s c x.a.toNat 32 l v →
      let ws := c.words x.b.toNat 6 l
      let new := (join64 (ws.getD 2 0) (ws.getD 3 0)).toNat
      s.checkSignal c.grp (ws.getD 4 0) (ws.getD 5 0) = .ok sig → (kvDesc v).rejected = false → entryMapped new = true →
      entryMoving new = false → entryReserved new = 0 → (kvDesc v).entryOf (ws.getD 0 0) (ws.getD 1 0) = some a →
      (s.copyQueue core).length < 32 → Accessible s c .g 8 true false [entryEa l a] →
      (∀ p, s.placeOf c.grp true (entryEa l a) = some p → p.peer = false) → pends (.migr x) x.m false [x.d.toNat]) ∧
    (∀ (x : OpE) (v : Nat), Issues s (.adec x) c → c.act x.m ≠ [] → ReadsRecord s c x.a.toNat 32 (c.low x.m) v →
      let ws := c.words x.b.toNat 3 (c.low x.m)
      let d := kvDesc v
      let rs := span x.d.toNat (4 + d.dim / 32)
      ws = [0, 0, 1] → c.deferring = true → x.d.toNat + 3 + d.dim / 32 < c.warp.window → 4 * d.dim ≤ c.grp.sBytes →
      d.rejected = false → (s.ops.filter fun o => o.core == core && o.kind == .adec).length < 8 → s.lockRoom core 2 = true →
      c.extraWaits (rs.drop 4) = [] → pends (.adec x) x.m true rs) ∧
    (∀ (l : Nat) (sig : Signal),
      -- the operand words of a transfer of the signal form
      let form := fun (b align limit : Nat) (wr : Bool) => let ws := c.words b 8 l
        let laddr := join64 (ws.getD 0 0) (ws.getD 1 0)
        LocalOk s c wr laddr ∧ laddr.toNat % align = 0 ∧ (ws.getD 2 0).toNat % 4 = 0 ∧ (ws.getD 2 0).toNat ≤ limit ∧
          ws.getD 3 0 = 0 ∧ s.checkSignal c.grp (ws.getD 4 0) (ws.getD 5 0) = .ok sig ∧ s.lockRoom core 1 = true
      let payer := s.payer c.grp.part
      let room := s.netQueue die payer < s.share payer die 256
      let space := fun (a : Nat) => ∃ ns, s.namespace? c.grp.asid (c.reg a l).toNat = some ns ∧ ns.block * 4 ≤ 0x200000 ∧
        s.storageQueue die payer < s.share payer die 128 ∧ s.queuePair die c.grp.asid (c.reg a l).toNat < 128
      (∀ (x : OpNet) (p : Nat), Issues s (.nwr x) c → c.act x.m = [l] → RemoteAt s c true x.a.toNat l p → room →
        form x.b.toNat 4 0x1000000 false → answers (.nwr x) x.m x.d.toNat fun _ => 0) ∧
      (∀ (x : OpE) (p : Nat), Issues s (.nrd x) c → c.act x.m = [l] → RemoteAt s c false x.a.toNat l p → room →
        form x.b.toNat 4 0x1000000 true → answers (.nrd x) x.m x.d.toNat fun _ => 0) ∧
      (∀ (x : OpNet) (h : Conn), Issues s (.nsnd x) c → c.act x.m = [l] → s.conn? c.grp.asid (c.reg x.a.toNat l).toNat = some h →
        room → form x.b.toNat 4 65536 false → answers (.nsnd x) x.m x.d.toNat fun _ => 0) ∧
      (∀ (x : OpNet) (p : Nat), Issues s (.natm x) c → c.act x.m = [l] → RemoteAt s c true x.a.toNat l p → room →
        (c.words x.b.toNat 8 l).getD 3 0 = 0 →
        pends (.natm x) x.m c.deferring [x.d.toNat, x.d.toNat + 1, x.d.toNat + 2]) ∧
      (∀ (x : OpE2) (p : Nat), Issues s (.nwatch x) c → c.act x.m = [l] → c.deferring = true → RemoteAt s c false x.a.toNat l p →
        pends (.nwatch x) x.m true [x.d.toNat]) ∧
      (∀ x : OpE, Issues s (.strd x) c → c.act x.m = [l] → space x.a.toNat → form x.b.toNat 64 4 true →
        (c.words x.b.toNat 8 l).getD 2 0 ≠ 0 → answers (.strd x) x.m x.d.toNat fun _ => 0) ∧
      (∀ x : OpNet, Issues s (.stwr x) c → c.act x.m = [l] → space x.a.toNat → form x.b.toNat 64 4 false →
        (c.words x.b.toNat 8 l).getD 2 0 ≠ 0 → answers (.stwr x) x.m x.d.toNat fun _ => 0) ∧
      (∀ x : OpE, Issues s (.stfl x) c → c.act x.m = [l] → space x.a.toNat → (c.words x.b.toNat 8 l).getD 3 0 = 0 →
        s.checkSignal c.grp ((c.words x.b.toNat 8 l).getD 4 0) ((c.words x.b.toNat 8 l).getD 5 0) = .ok sig →
        answers (.stfl x) x.m x.d.toNat fun _ => 0))) ∧
  (∀ (core slot base : Nat) (l : Launch) (h : Task) (ts : List Task), s.gathered core = h :: ts → s.launch? h.launch = some l →
    (s.core core).held = none → s.placeWarps core 1 l.desc.regs = some [(slot, base)] →
    ∃ t g w, exec (.partialTaskWarpTimeout core) s = .next t ∧ t.groups = s.groups ++ [g] ∧ g.warps = [w] ∧ w.task = true ∧
      ∃ sp, w.splits = [sp] ∧ sp.pc = h.entry)
end

