-- ==== Sys2Proof/Laws/Tables.lean ====
section
/-! SUPPORT. Laws of sparse tables: a read after a write, and the canonical form that every write keeps. -/

namespace Sys2Proof.Machine

variable {α : Type}

theorem smGet_smDel (d : α) (m : List (Nat × α)) (a b : Nat) :
    smGet d (smDel m a) b = if a = b then d else smGet d m b := by
  induction m with
  | nil => simp [smDel, smGet]
  | cons p r ih =>
    obtain ⟨k, v⟩ := p
    by_cases h : k = a
    · simp only [smDel, h, if_true, ih, smGet]
      split <;> simp_all
    · simp only [smDel, h, if_false, smGet, ih]
      split <;> split <;> simp_all

theorem smGet_smIns (d : α) (m : List (Nat × α)) (a : Nat) (x : α) (b : Nat) (h : ∀ p ∈ m, p.1 ≠ a) :
    smGet d (smIns m a x) b = if a = b then x else smGet d m b := by
  induction m with
  | nil => simp [smIns, smGet]
  | cons p r ih =>
    obtain ⟨k, v⟩ := p
    have hk : k ≠ a := h (k, v) (by simp)
    have hr : ∀ p ∈ r, p.1 ≠ a := fun p hp => h p (by simp [hp])
    by_cases hlt : a < k
    · simp only [smIns, hlt, if_true, smGet]
    · simp only [smIns, hlt, if_false, smGet, ih hr]
      split <;> split <;> simp_all

theorem smDel_ne (m : List (Nat × α)) (a : Nat) : ∀ p ∈ smDel m a, p.1 ≠ a := by
  induction m with
  | nil => simp [smDel]
  | cons p r ih =>
    obtain ⟨k, v⟩ := p
    by_cases h : k = a
    · simpa [smDel, h] using ih
    · simp only [smDel, h, if_false, List.mem_cons]
      rintro q (rfl | hq)
      · exact h
      · exact ih q hq

variable [DecidableEq α]

/-- A read after a write: the value written at its key, and every other key as before. -/
theorem smGet_smSet (d : α) (m : List (Nat × α)) (a : Nat) (x : α) (b : Nat) :
    smGet d (smSet d m a x) b = if a = b then x else smGet d m b := by
  unfold smSet
  split
  · next h => rw [smGet_smDel, h]
  · rw [smGet_smIns _ _ _ _ _ (smDel_ne m a), smGet_smDel]
    split <;> rfl

@[simp] theorem smGet_smSet_self (d : α) (m : List (Nat × α)) (a : Nat) (x : α) : smGet d (smSet d m a x) a = x := by
  simp [smGet_smSet]

theorem smGet_smSet_ne (d : α) (m : List (Nat × α)) (a : Nat) (x : α) {b : Nat} (h : a ≠ b) :
    smGet d (smSet d m a x) b = smGet d m b := by
  simp [smGet_smSet, h]

/-- Several writes: the last write to a key counts. -/
theorem smGet_smSets_ne (d : α) (ws m : List (Nat × α)) (b : Nat) (h : ∀ p ∈ ws, p.1 ≠ b) :
    smGet d (smSets d m ws) b = smGet d m b := by
  induction ws generalizing m with
  | nil => rfl
  | cons p r ih =>
    obtain ⟨a, x⟩ := p
    rw [smSets, ih _ fun q hq => h q (by simp [hq]), smGet_smSet_ne _ _ _ _ (h (a, x) (by simp))]

theorem smAbove_mono (d : α) {b c : Nat} (m : List (Nat × α)) (h : b ≤ c) (hw : smAbove d c m = true) :
    smAbove d b m = true := by
  cases m with
  | nil => rfl
  | cons p r =>
    obtain ⟨k, v⟩ := p
    simp only [smAbove, Bool.and_eq_true, decide_eq_true_eq] at hw ⊢
    exact ⟨⟨h.trans hw.1.1, hw.1.2⟩, hw.2⟩

theorem smAbove_smDel (d : α) (m : List (Nat × α)) (a b : Nat) (h : smAbove d b m = true) :
    smAbove d b (smDel m a) = true := by
  induction m generalizing b with
  | nil => rfl
  | cons p r ih =>
    obtain ⟨k, v⟩ := p
    simp only [smAbove, Bool.and_eq_true, decide_eq_true_eq] at h
    by_cases hk : k = a
    · simp only [smDel, hk, if_true]
      exact ih b (smAbove_mono d r (by omega) h.2)
    · simp only [smDel, hk, if_false, smAbove, Bool.and_eq_true, decide_eq_true_eq]
      exact ⟨h.1, ih _ h.2⟩

theorem smAbove_smIns (d : α) (m : List (Nat × α)) (a b : Nat) (x : α) (hx : x ≠ d) (hb : b ≤ a)
    (hne : ∀ p ∈ m, p.1 ≠ a) (h : smAbove d b m = true) : smAbove d b (smIns m a x) = true := by
  induction m generalizing b with
  | nil => simp [smIns, smAbove, hx, hb]
  | cons p r ih =>
    obtain ⟨k, v⟩ := p
    have hk : k ≠ a := hne (k, v) (by simp)
    simp only [smAbove, Bool.and_eq_true, decide_eq_true_eq] at h
    by_cases hlt : a < k
    · simp only [smIns, hlt, if_true, smAbove, Bool.and_eq_true, decide_eq_true_eq]
      exact ⟨⟨hb, hx⟩, ⟨by omega, h.1.2⟩, h.2⟩
    · simp only [smIns, hlt, if_false, smAbove, Bool.and_eq_true, decide_eq_true_eq]
      exact ⟨h.1, ih _ (by omega) (fun q hq => hne q (by simp [hq])) h.2⟩

/-- A write keeps the canonical form. -/
theorem smWf_smSet (d : α) (m : List (Nat × α)) (a : Nat) (x : α) (h : smWf d m = true) : smWf d (smSet d m a x) = true := by
  unfold smSet smWf
  split
  · exact smAbove_smDel d m a 0 h
  · next hx => exact smAbove_smIns d _ a 0 x hx (Nat.zero_le _) (smDel_ne m a) (smAbove_smDel d m a 0 h)

/-- Several writes keep the canonical form. -/
theorem smWf_smSets (d : α) (ws m : List (Nat × α)) (h : smWf d m = true) : smWf d (smSets d m ws) = true := by
  induction ws generalizing m with
  | nil => exact h
  | cons p r ih => exact ih _ (smWf_smSet d m p.1 p.2 h)

/-- Dropping entries keeps the canonical form. -/
theorem smAbove_filter (d : α) (m : List (Nat × α)) (f : Nat × α → Bool) (b : Nat) (h : smAbove d b m = true) :
    smAbove d b (m.filter f) = true := by
  induction m generalizing b with
  | nil => rfl
  | cons p r ih =>
    obtain ⟨k, v⟩ := p
    simp only [smAbove, Bool.and_eq_true, decide_eq_true_eq] at h
    cases hf : f (k, v) with
    | true =>
      simp only [List.filter_cons, hf, if_true, smAbove, Bool.and_eq_true, decide_eq_true_eq]
      exact ⟨h.1, ih _ h.2⟩
    | false =>
      simp only [List.filter_cons, hf]
      exact ih b (smAbove_mono d r (by omega) h.2)

theorem smWf_filter (d : α) (m : List (Nat × α)) (f : Nat × α → Bool) (h : smWf d m = true) : smWf d (m.filter f) = true :=
  smAbove_filter d m f 0 h

/-- Two tables in canonical form that read alike are one table. -/
theorem smGet_above (d : α) (m : List (Nat × α)) (a b : Nat) (h : smAbove d b m = true) (ha : a < b) : smGet d m a = d := by
  induction m generalizing b with
  | nil => rfl
  | cons p r ih =>
    obtain ⟨k, v⟩ := p
    simp only [smAbove, Bool.and_eq_true, decide_eq_true_eq] at h
    have : k ≠ a := by omega
    simp only [smGet, this, if_false]
    exact ih _ h.2 (by omega)

end Sys2Proof.Machine
end

