-- ==== Sys2Proof/Laws/State.lean ====
section
/-! SUPPORT. One lemma per field of State per update: the field an update writes, and every other unchanged. -/

namespace Sys2Proof.Machine

/-! ### State.updGroup -/

@[simp] theorem State.updGroup_cur (s : State) (gid : Nat) (f : Group → Group) : (s.updGroup gid f).cur = s.cur := rfl
@[simp] theorem State.updGroup_agenda (s : State) (gid : Nat) (f : Group → Group) : (s.updGroup gid f).agenda = s.agenda := rfl
@[simp] theorem State.updGroup_free (s : State) (gid : Nat) (f : Group → Group) : (s.updGroup gid f).free = s.free := rfl
@[simp] theorem State.updGroup_uid (s : State) (gid : Nat) (f : Group → Group) : (s.updGroup gid f).uid = s.uid := rfl
@[simp] theorem State.updGroup_tick47 (s : State) (gid : Nat) (f : Group → Group) : (s.updGroup gid f).tick47 = s.tick47 := rfl
@[simp] theorem State.updGroup_savedMx (s : State) (gid : Nat) (f : Group → Group) : (s.updGroup gid f).savedMx = s.savedMx := rfl
@[simp] theorem State.updGroup_flys (s : State) (gid : Nat) (f : Group → Group) : (s.updGroup gid f).flys = s.flys := rfl
@[simp] theorem State.updGroup_batches (s : State) (gid : Nat) (f : Group → Group) : (s.updGroup gid f).batches = s.batches := rfl
@[simp] theorem State.updGroup_queue (s : State) (gid : Nat) (f : Group → Group) : (s.updGroup gid f).queue = s.queue := rfl
@[simp] theorem State.updGroup_waiters (s : State) (gid : Nat) (f : Group → Group) : (s.updGroup gid f).waiters = s.waiters := rfl
@[simp] theorem State.updGroup_engines (s : State) (gid : Nat) (f : Group → Group) : (s.updGroup gid f).engines = s.engines := rfl
@[simp] theorem State.updGroup_drives (s : State) (gid : Nat) (f : Group → Group) : (s.updGroup gid f).drives = s.drives := rfl
@[simp] theorem State.updGroup_links (s : State) (gid : Nat) (f : Group → Group) : (s.updGroup gid f).links = s.links := rfl
@[simp] theorem State.updGroup_cores (s : State) (gid : Nat) (f : Group → Group) : (s.updGroup gid f).cores = s.cores := rfl
@[simp] theorem State.updGroup_dies (s : State) (gid : Nat) (f : Group → Group) : (s.updGroup gid f).dies = s.dies := rfl
@[simp] theorem State.updGroup_parts (s : State) (gid : Nat) (f : Group → Group) : (s.updGroup gid f).parts = s.parts := rfl
@[simp] theorem State.updGroup_contexts (s : State) (gid : Nat) (f : Group → Group) : (s.updGroup gid f).contexts = s.contexts := rfl
@[simp] theorem State.updGroup_launches (s : State) (gid : Nat) (f : Group → Group) : (s.updGroup gid f).launches = s.launches := rfl
@[simp] theorem State.updGroup_programs (s : State) (gid : Nat) (f : Group → Group) : (s.updGroup gid f).programs = s.programs := rfl
@[simp] theorem State.updGroup_nextLaunch (s : State) (gid : Nat) (f : Group → Group) : (s.updGroup gid f).nextLaunch = s.nextLaunch := rfl
@[simp] theorem State.updGroup_feeds (s : State) (gid : Nat) (f : Group → Group) : (s.updGroup gid f).feeds = s.feeds := rfl
@[simp] theorem State.updGroup_binds (s : State) (gid : Nat) (f : Group → Group) : (s.updGroup gid f).binds = s.binds := rfl
@[simp] theorem State.updGroup_mem (s : State) (gid : Nat) (f : Group → Group) : (s.updGroup gid f).mem = s.mem := rfl
@[simp] theorem State.updGroup_base (s : State) (gid : Nat) (f : Group → Group) : (s.updGroup gid f).base = s.base := rfl
@[simp] theorem State.updGroup_log (s : State) (gid : Nat) (f : Group → Group) : (s.updGroup gid f).log = s.log := rfl
@[simp] theorem State.updGroup_nextLanding (s : State) (gid : Nat) (f : Group → Group) : (s.updGroup gid f).nextLanding = s.nextLanding := rfl
@[simp] theorem State.updGroup_seals (s : State) (gid : Nat) (f : Group → Group) : (s.updGroup gid f).seals = s.seals := rfl
@[simp] theorem State.updGroup_spoiled (s : State) (gid : Nat) (f : Group → Group) : (s.updGroup gid f).spoiled = s.spoiled := rfl
@[simp] theorem State.updGroup_shadow (s : State) (gid : Nat) (f : Group → Group) : (s.updGroup gid f).shadow = s.shadow := rfl
@[simp] theorem State.updGroup_dirty (s : State) (gid : Nat) (f : Group → Group) : (s.updGroup gid f).dirty = s.dirty := rfl
@[simp] theorem State.updGroup_ops (s : State) (gid : Nat) (f : Group → Group) : (s.updGroup gid f).ops = s.ops := rfl
@[simp] theorem State.updGroup_messages (s : State) (gid : Nat) (f : Group → Group) : (s.updGroup gid f).messages = s.messages := rfl
@[simp] theorem State.updGroup_inbox (s : State) (gid : Nat) (f : Group → Group) : (s.updGroup gid f).inbox = s.inbox := rfl
@[simp] theorem State.updGroup_endpoints (s : State) (gid : Nat) (f : Group → Group) : (s.updGroup gid f).endpoints = s.endpoints := rfl
@[simp] theorem State.updGroup_watches (s : State) (gid : Nat) (f : Group → Group) : (s.updGroup gid f).watches = s.watches := rfl
@[simp] theorem State.updGroup_namespaces (s : State) (gid : Nat) (f : Group → Group) : (s.updGroup gid f).namespaces = s.namespaces := rfl
@[simp] theorem State.updGroup_conns (s : State) (gid : Nat) (f : Group → Group) : (s.updGroup gid f).conns = s.conns := rfl
@[simp] theorem State.updGroup_backoffs (s : State) (gid : Nat) (f : Group → Group) : (s.updGroup gid f).backoffs = s.backoffs := rfl
@[simp] theorem State.updGroup_orphans (s : State) (gid : Nat) (f : Group → Group) : (s.updGroup gid f).orphans = s.orphans := rfl
@[simp] theorem State.updGroup_boot (s : State) (gid : Nat) (f : Group → Group) : (s.updGroup gid f).boot = s.boot := rfl

/-! ### State.updWarp -/

@[simp] theorem State.updWarp_cur (s : State) (gid w : Nat) (f : Warp → Warp) : (s.updWarp gid w f).cur = s.cur := rfl
@[simp] theorem State.updWarp_agenda (s : State) (gid w : Nat) (f : Warp → Warp) : (s.updWarp gid w f).agenda = s.agenda := rfl
@[simp] theorem State.updWarp_free (s : State) (gid w : Nat) (f : Warp → Warp) : (s.updWarp gid w f).free = s.free := rfl
@[simp] theorem State.updWarp_uid (s : State) (gid w : Nat) (f : Warp → Warp) : (s.updWarp gid w f).uid = s.uid := rfl
@[simp] theorem State.updWarp_tick47 (s : State) (gid w : Nat) (f : Warp → Warp) : (s.updWarp gid w f).tick47 = s.tick47 := rfl
@[simp] theorem State.updWarp_savedMx (s : State) (gid w : Nat) (f : Warp → Warp) : (s.updWarp gid w f).savedMx = s.savedMx := rfl
@[simp] theorem State.updWarp_flys (s : State) (gid w : Nat) (f : Warp → Warp) : (s.updWarp gid w f).flys = s.flys := rfl
@[simp] theorem State.updWarp_batches (s : State) (gid w : Nat) (f : Warp → Warp) : (s.updWarp gid w f).batches = s.batches := rfl
@[simp] theorem State.updWarp_queue (s : State) (gid w : Nat) (f : Warp → Warp) : (s.updWarp gid w f).queue = s.queue := rfl
@[simp] theorem State.updWarp_waiters (s : State) (gid w : Nat) (f : Warp → Warp) : (s.updWarp gid w f).waiters = s.waiters := rfl
@[simp] theorem State.updWarp_engines (s : State) (gid w : Nat) (f : Warp → Warp) : (s.updWarp gid w f).engines = s.engines := rfl
@[simp] theorem State.updWarp_drives (s : State) (gid w : Nat) (f : Warp → Warp) : (s.updWarp gid w f).drives = s.drives := rfl
@[simp] theorem State.updWarp_links (s : State) (gid w : Nat) (f : Warp → Warp) : (s.updWarp gid w f).links = s.links := rfl
@[simp] theorem State.updWarp_cores (s : State) (gid w : Nat) (f : Warp → Warp) : (s.updWarp gid w f).cores = s.cores := rfl
@[simp] theorem State.updWarp_dies (s : State) (gid w : Nat) (f : Warp → Warp) : (s.updWarp gid w f).dies = s.dies := rfl
@[simp] theorem State.updWarp_parts (s : State) (gid w : Nat) (f : Warp → Warp) : (s.updWarp gid w f).parts = s.parts := rfl
@[simp] theorem State.updWarp_contexts (s : State) (gid w : Nat) (f : Warp → Warp) : (s.updWarp gid w f).contexts = s.contexts := rfl
@[simp] theorem State.updWarp_launches (s : State) (gid w : Nat) (f : Warp → Warp) : (s.updWarp gid w f).launches = s.launches := rfl
@[simp] theorem State.updWarp_programs (s : State) (gid w : Nat) (f : Warp → Warp) : (s.updWarp gid w f).programs = s.programs := rfl
@[simp] theorem State.updWarp_nextLaunch (s : State) (gid w : Nat) (f : Warp → Warp) : (s.updWarp gid w f).nextLaunch = s.nextLaunch := rfl
@[simp] theorem State.updWarp_feeds (s : State) (gid w : Nat) (f : Warp → Warp) : (s.updWarp gid w f).feeds = s.feeds := rfl
@[simp] theorem State.updWarp_binds (s : State) (gid w : Nat) (f : Warp → Warp) : (s.updWarp gid w f).binds = s.binds := rfl
@[simp] theorem State.updWarp_mem (s : State) (gid w : Nat) (f : Warp → Warp) : (s.updWarp gid w f).mem = s.mem := rfl
@[simp] theorem State.updWarp_base (s : State) (gid w : Nat) (f : Warp → Warp) : (s.updWarp gid w f).base = s.base := rfl
@[simp] theorem State.updWarp_log (s : State) (gid w : Nat) (f : Warp → Warp) : (s.updWarp gid w f).log = s.log := rfl
@[simp] theorem State.updWarp_nextLanding (s : State) (gid w : Nat) (f : Warp → Warp) : (s.updWarp gid w f).nextLanding = s.nextLanding := rfl
@[simp] theorem State.updWarp_seals (s : State) (gid w : Nat) (f : Warp → Warp) : (s.updWarp gid w f).seals = s.seals := rfl
@[simp] theorem State.updWarp_spoiled (s : State) (gid w : Nat) (f : Warp → Warp) : (s.updWarp gid w f).spoiled = s.spoiled := rfl
@[simp] theorem State.updWarp_shadow (s : State) (gid w : Nat) (f : Warp → Warp) : (s.updWarp gid w f).shadow = s.shadow := rfl
@[simp] theorem State.updWarp_dirty (s : State) (gid w : Nat) (f : Warp → Warp) : (s.updWarp gid w f).dirty = s.dirty := rfl
@[simp] theorem State.updWarp_ops (s : State) (gid w : Nat) (f : Warp → Warp) : (s.updWarp gid w f).ops = s.ops := rfl
@[simp] theorem State.updWarp_messages (s : State) (gid w : Nat) (f : Warp → Warp) : (s.updWarp gid w f).messages = s.messages := rfl
@[simp] theorem State.updWarp_inbox (s : State) (gid w : Nat) (f : Warp → Warp) : (s.updWarp gid w f).inbox = s.inbox := rfl
@[simp] theorem State.updWarp_endpoints (s : State) (gid w : Nat) (f : Warp → Warp) : (s.updWarp gid w f).endpoints = s.endpoints := rfl
@[simp] theorem State.updWarp_watches (s : State) (gid w : Nat) (f : Warp → Warp) : (s.updWarp gid w f).watches = s.watches := rfl
@[simp] theorem State.updWarp_namespaces (s : State) (gid w : Nat) (f : Warp → Warp) : (s.updWarp gid w f).namespaces = s.namespaces := rfl
@[simp] theorem State.updWarp_conns (s : State) (gid w : Nat) (f : Warp → Warp) : (s.updWarp gid w f).conns = s.conns := rfl
@[simp] theorem State.updWarp_backoffs (s : State) (gid w : Nat) (f : Warp → Warp) : (s.updWarp gid w f).backoffs = s.backoffs := rfl
@[simp] theorem State.updWarp_orphans (s : State) (gid w : Nat) (f : Warp → Warp) : (s.updWarp gid w f).orphans = s.orphans := rfl
@[simp] theorem State.updWarp_boot (s : State) (gid w : Nat) (f : Warp → Warp) : (s.updWarp gid w f).boot = s.boot := rfl

/-! ### State.updFly -/

@[simp] theorem State.updFly_cur (s : State) (id : Nat) (f : Fly → Fly) : (s.updFly id f).cur = s.cur := rfl
@[simp] theorem State.updFly_agenda (s : State) (id : Nat) (f : Fly → Fly) : (s.updFly id f).agenda = s.agenda := rfl
@[simp] theorem State.updFly_free (s : State) (id : Nat) (f : Fly → Fly) : (s.updFly id f).free = s.free := rfl
@[simp] theorem State.updFly_uid (s : State) (id : Nat) (f : Fly → Fly) : (s.updFly id f).uid = s.uid := rfl
@[simp] theorem State.updFly_tick47 (s : State) (id : Nat) (f : Fly → Fly) : (s.updFly id f).tick47 = s.tick47 := rfl
@[simp] theorem State.updFly_groups (s : State) (id : Nat) (f : Fly → Fly) : (s.updFly id f).groups = s.groups := rfl
@[simp] theorem State.updFly_savedMx (s : State) (id : Nat) (f : Fly → Fly) : (s.updFly id f).savedMx = s.savedMx := rfl
@[simp] theorem State.updFly_batches (s : State) (id : Nat) (f : Fly → Fly) : (s.updFly id f).batches = s.batches := rfl
@[simp] theorem State.updFly_queue (s : State) (id : Nat) (f : Fly → Fly) : (s.updFly id f).queue = s.queue := rfl
@[simp] theorem State.updFly_waiters (s : State) (id : Nat) (f : Fly → Fly) : (s.updFly id f).waiters = s.waiters := rfl
@[simp] theorem State.updFly_engines (s : State) (id : Nat) (f : Fly → Fly) : (s.updFly id f).engines = s.engines := rfl
@[simp] theorem State.updFly_drives (s : State) (id : Nat) (f : Fly → Fly) : (s.updFly id f).drives = s.drives := rfl
@[simp] theorem State.updFly_links (s : State) (id : Nat) (f : Fly → Fly) : (s.updFly id f).links = s.links := rfl
@[simp] theorem State.updFly_cores (s : State) (id : Nat) (f : Fly → Fly) : (s.updFly id f).cores = s.cores := rfl
@[simp] theorem State.updFly_dies (s : State) (id : Nat) (f : Fly → Fly) : (s.updFly id f).dies = s.dies := rfl
@[simp] theorem State.updFly_parts (s : State) (id : Nat) (f : Fly → Fly) : (s.updFly id f).parts = s.parts := rfl
@[simp] theorem State.updFly_contexts (s : State) (id : Nat) (f : Fly → Fly) : (s.updFly id f).contexts = s.contexts := rfl
@[simp] theorem State.updFly_launches (s : State) (id : Nat) (f : Fly → Fly) : (s.updFly id f).launches = s.launches := rfl
@[simp] theorem State.updFly_programs (s : State) (id : Nat) (f : Fly → Fly) : (s.updFly id f).programs = s.programs := rfl
@[simp] theorem State.updFly_nextLaunch (s : State) (id : Nat) (f : Fly → Fly) : (s.updFly id f).nextLaunch = s.nextLaunch := rfl
@[simp] theorem State.updFly_feeds (s : State) (id : Nat) (f : Fly → Fly) : (s.updFly id f).feeds = s.feeds := rfl
@[simp] theorem State.updFly_binds (s : State) (id : Nat) (f : Fly → Fly) : (s.updFly id f).binds = s.binds := rfl
@[simp] theorem State.updFly_mem (s : State) (id : Nat) (f : Fly → Fly) : (s.updFly id f).mem = s.mem := rfl
@[simp] theorem State.updFly_base (s : State) (id : Nat) (f : Fly → Fly) : (s.updFly id f).base = s.base := rfl
@[simp] theorem State.updFly_log (s : State) (id : Nat) (f : Fly → Fly) : (s.updFly id f).log = s.log := rfl
@[simp] theorem State.updFly_nextLanding (s : State) (id : Nat) (f : Fly → Fly) : (s.updFly id f).nextLanding = s.nextLanding := rfl
@[simp] theorem State.updFly_seals (s : State) (id : Nat) (f : Fly → Fly) : (s.updFly id f).seals = s.seals := rfl
@[simp] theorem State.updFly_spoiled (s : State) (id : Nat) (f : Fly → Fly) : (s.updFly id f).spoiled = s.spoiled := rfl
@[simp] theorem State.updFly_shadow (s : State) (id : Nat) (f : Fly → Fly) : (s.updFly id f).shadow = s.shadow := rfl
@[simp] theorem State.updFly_dirty (s : State) (id : Nat) (f : Fly → Fly) : (s.updFly id f).dirty = s.dirty := rfl
@[simp] theorem State.updFly_ops (s : State) (id : Nat) (f : Fly → Fly) : (s.updFly id f).ops = s.ops := rfl
@[simp] theorem State.updFly_messages (s : State) (id : Nat) (f : Fly → Fly) : (s.updFly id f).messages = s.messages := rfl
@[simp] theorem State.updFly_inbox (s : State) (id : Nat) (f : Fly → Fly) : (s.updFly id f).inbox = s.inbox := rfl
@[simp] theorem State.updFly_endpoints (s : State) (id : Nat) (f : Fly → Fly) : (s.updFly id f).endpoints = s.endpoints := rfl
@[simp] theorem State.updFly_watches (s : State) (id : Nat) (f : Fly → Fly) : (s.updFly id f).watches = s.watches := rfl
@[simp] theorem State.updFly_namespaces (s : State) (id : Nat) (f : Fly → Fly) : (s.updFly id f).namespaces = s.namespaces := rfl
@[simp] theorem State.updFly_conns (s : State) (id : Nat) (f : Fly → Fly) : (s.updFly id f).conns = s.conns := rfl
@[simp] theorem State.updFly_backoffs (s : State) (id : Nat) (f : Fly → Fly) : (s.updFly id f).backoffs = s.backoffs := rfl
@[simp] theorem State.updFly_orphans (s : State) (id : Nat) (f : Fly → Fly) : (s.updFly id f).orphans = s.orphans := rfl
@[simp] theorem State.updFly_boot (s : State) (id : Nat) (f : Fly → Fly) : (s.updFly id f).boot = s.boot := rfl

/-! ### State.setCore -/

@[simp] theorem State.setCore_cur (s : State) (c : Nat) (k : Core) : (s.setCore c k).cur = s.cur := rfl
@[simp] theorem State.setCore_agenda (s : State) (c : Nat) (k : Core) : (s.setCore c k).agenda = s.agenda := rfl
@[simp] theorem State.setCore_free (s : State) (c : Nat) (k : Core) : (s.setCore c k).free = s.free := rfl
@[simp] theorem State.setCore_uid (s : State) (c : Nat) (k : Core) : (s.setCore c k).uid = s.uid := rfl
@[simp] theorem State.setCore_tick47 (s : State) (c : Nat) (k : Core) : (s.setCore c k).tick47 = s.tick47 := rfl
@[simp] theorem State.setCore_groups (s : State) (c : Nat) (k : Core) : (s.setCore c k).groups = s.groups := rfl
@[simp] theorem State.setCore_savedMx (s : State) (c : Nat) (k : Core) : (s.setCore c k).savedMx = s.savedMx := rfl
@[simp] theorem State.setCore_flys (s : State) (c : Nat) (k : Core) : (s.setCore c k).flys = s.flys := rfl
@[simp] theorem State.setCore_batches (s : State) (c : Nat) (k : Core) : (s.setCore c k).batches = s.batches := rfl
@[simp] theorem State.setCore_queue (s : State) (c : Nat) (k : Core) : (s.setCore c k).queue = s.queue := rfl
@[simp] theorem State.setCore_waiters (s : State) (c : Nat) (k : Core) : (s.setCore c k).waiters = s.waiters := rfl
@[simp] theorem State.setCore_engines (s : State) (c : Nat) (k : Core) : (s.setCore c k).engines = s.engines := rfl
@[simp] theorem State.setCore_drives (s : State) (c : Nat) (k : Core) : (s.setCore c k).drives = s.drives := rfl
@[simp] theorem State.setCore_links (s : State) (c : Nat) (k : Core) : (s.setCore c k).links = s.links := rfl
@[simp] theorem State.setCore_dies (s : State) (c : Nat) (k : Core) : (s.setCore c k).dies = s.dies := rfl
@[simp] theorem State.setCore_parts (s : State) (c : Nat) (k : Core) : (s.setCore c k).parts = s.parts := rfl
@[simp] theorem State.setCore_contexts (s : State) (c : Nat) (k : Core) : (s.setCore c k).contexts = s.contexts := rfl
@[simp] theorem State.setCore_launches (s : State) (c : Nat) (k : Core) : (s.setCore c k).launches = s.launches := rfl
@[simp] theorem State.setCore_programs (s : State) (c : Nat) (k : Core) : (s.setCore c k).programs = s.programs := rfl
@[simp] theorem State.setCore_nextLaunch (s : State) (c : Nat) (k : Core) : (s.setCore c k).nextLaunch = s.nextLaunch := rfl
@[simp] theorem State.setCore_feeds (s : State) (c : Nat) (k : Core) : (s.setCore c k).feeds = s.feeds := rfl
@[simp] theorem State.setCore_binds (s : State) (c : Nat) (k : Core) : (s.setCore c k).binds = s.binds := rfl
@[simp] theorem State.setCore_mem (s : State) (c : Nat) (k : Core) : (s.setCore c k).mem = s.mem := rfl
@[simp] theorem State.setCore_base (s : State) (c : Nat) (k : Core) : (s.setCore c k).base = s.base := rfl
@[simp] theorem State.setCore_log (s : State) (c : Nat) (k : Core) : (s.setCore c k).log = s.log := rfl
@[simp] theorem State.setCore_nextLanding (s : State) (c : Nat) (k : Core) : (s.setCore c k).nextLanding = s.nextLanding := rfl
@[simp] theorem State.setCore_seals (s : State) (c : Nat) (k : Core) : (s.setCore c k).seals = s.seals := rfl
@[simp] theorem State.setCore_spoiled (s : State) (c : Nat) (k : Core) : (s.setCore c k).spoiled = s.spoiled := rfl
@[simp] theorem State.setCore_shadow (s : State) (c : Nat) (k : Core) : (s.setCore c k).shadow = s.shadow := rfl
@[simp] theorem State.setCore_dirty (s : State) (c : Nat) (k : Core) : (s.setCore c k).dirty = s.dirty := rfl
@[simp] theorem State.setCore_ops (s : State) (c : Nat) (k : Core) : (s.setCore c k).ops = s.ops := rfl
@[simp] theorem State.setCore_messages (s : State) (c : Nat) (k : Core) : (s.setCore c k).messages = s.messages := rfl
@[simp] theorem State.setCore_inbox (s : State) (c : Nat) (k : Core) : (s.setCore c k).inbox = s.inbox := rfl
@[simp] theorem State.setCore_endpoints (s : State) (c : Nat) (k : Core) : (s.setCore c k).endpoints = s.endpoints := rfl
@[simp] theorem State.setCore_watches (s : State) (c : Nat) (k : Core) : (s.setCore c k).watches = s.watches := rfl
@[simp] theorem State.setCore_namespaces (s : State) (c : Nat) (k : Core) : (s.setCore c k).namespaces = s.namespaces := rfl
@[simp] theorem State.setCore_conns (s : State) (c : Nat) (k : Core) : (s.setCore c k).conns = s.conns := rfl
@[simp] theorem State.setCore_backoffs (s : State) (c : Nat) (k : Core) : (s.setCore c k).backoffs = s.backoffs := rfl
@[simp] theorem State.setCore_orphans (s : State) (c : Nat) (k : Core) : (s.setCore c k).orphans = s.orphans := rfl
@[simp] theorem State.setCore_boot (s : State) (c : Nat) (k : Core) : (s.setCore c k).boot = s.boot := rfl

/-! ### State.setDie -/

@[simp] theorem State.setDie_cur (s : State) (d : Nat) (x : Die) : (s.setDie d x).cur = s.cur := rfl
@[simp] theorem State.setDie_agenda (s : State) (d : Nat) (x : Die) : (s.setDie d x).agenda = s.agenda := rfl
@[simp] theorem State.setDie_free (s : State) (d : Nat) (x : Die) : (s.setDie d x).free = s.free := rfl
@[simp] theorem State.setDie_uid (s : State) (d : Nat) (x : Die) : (s.setDie d x).uid = s.uid := rfl
@[simp] theorem State.setDie_tick47 (s : State) (d : Nat) (x : Die) : (s.setDie d x).tick47 = s.tick47 := rfl
@[simp] theorem State.setDie_groups (s : State) (d : Nat) (x : Die) : (s.setDie d x).groups = s.groups := rfl
@[simp] theorem State.setDie_savedMx (s : State) (d : Nat) (x : Die) : (s.setDie d x).savedMx = s.savedMx := rfl
@[simp] theorem State.setDie_flys (s : State) (d : Nat) (x : Die) : (s.setDie d x).flys = s.flys := rfl
@[simp] theorem State.setDie_batches (s : State) (d : Nat) (x : Die) : (s.setDie d x).batches = s.batches := rfl
@[simp] theorem State.setDie_queue (s : State) (d : Nat) (x : Die) : (s.setDie d x).queue = s.queue := rfl
@[simp] theorem State.setDie_waiters (s : State) (d : Nat) (x : Die) : (s.setDie d x).waiters = s.waiters := rfl
@[simp] theorem State.setDie_engines (s : State) (d : Nat) (x : Die) : (s.setDie d x).engines = s.engines := rfl
@[simp] theorem State.setDie_drives (s : State) (d : Nat) (x : Die) : (s.setDie d x).drives = s.drives := rfl
@[simp] theorem State.setDie_links (s : State) (d : Nat) (x : Die) : (s.setDie d x).links = s.links := rfl
@[simp] theorem State.setDie_cores (s : State) (d : Nat) (x : Die) : (s.setDie d x).cores = s.cores := rfl
@[simp] theorem State.setDie_parts (s : State) (d : Nat) (x : Die) : (s.setDie d x).parts = s.parts := rfl
@[simp] theorem State.setDie_contexts (s : State) (d : Nat) (x : Die) : (s.setDie d x).contexts = s.contexts := rfl
@[simp] theorem State.setDie_launches (s : State) (d : Nat) (x : Die) : (s.setDie d x).launches = s.launches := rfl
@[simp] theorem State.setDie_programs (s : State) (d : Nat) (x : Die) : (s.setDie d x).programs = s.programs := rfl
@[simp] theorem State.setDie_nextLaunch (s : State) (d : Nat) (x : Die) : (s.setDie d x).nextLaunch = s.nextLaunch := rfl
@[simp] theorem State.setDie_feeds (s : State) (d : Nat) (x : Die) : (s.setDie d x).feeds = s.feeds := rfl
@[simp] theorem State.setDie_binds (s : State) (d : Nat) (x : Die) : (s.setDie d x).binds = s.binds := rfl
@[simp] theorem State.setDie_mem (s : State) (d : Nat) (x : Die) : (s.setDie d x).mem = s.mem := rfl
@[simp] theorem State.setDie_base (s : State) (d : Nat) (x : Die) : (s.setDie d x).base = s.base := rfl
@[simp] theorem State.setDie_log (s : State) (d : Nat) (x : Die) : (s.setDie d x).log = s.log := rfl
@[simp] theorem State.setDie_nextLanding (s : State) (d : Nat) (x : Die) : (s.setDie d x).nextLanding = s.nextLanding := rfl
@[simp] theorem State.setDie_seals (s : State) (d : Nat) (x : Die) : (s.setDie d x).seals = s.seals := rfl
@[simp] theorem State.setDie_spoiled (s : State) (d : Nat) (x : Die) : (s.setDie d x).spoiled = s.spoiled := rfl
@[simp] theorem State.setDie_shadow (s : State) (d : Nat) (x : Die) : (s.setDie d x).shadow = s.shadow := rfl
@[simp] theorem State.setDie_dirty (s : State) (d : Nat) (x : Die) : (s.setDie d x).dirty = s.dirty := rfl
@[simp] theorem State.setDie_ops (s : State) (d : Nat) (x : Die) : (s.setDie d x).ops = s.ops := rfl
@[simp] theorem State.setDie_messages (s : State) (d : Nat) (x : Die) : (s.setDie d x).messages = s.messages := rfl
@[simp] theorem State.setDie_inbox (s : State) (d : Nat) (x : Die) : (s.setDie d x).inbox = s.inbox := rfl
@[simp] theorem State.setDie_endpoints (s : State) (d : Nat) (x : Die) : (s.setDie d x).endpoints = s.endpoints := rfl
@[simp] theorem State.setDie_watches (s : State) (d : Nat) (x : Die) : (s.setDie d x).watches = s.watches := rfl
@[simp] theorem State.setDie_namespaces (s : State) (d : Nat) (x : Die) : (s.setDie d x).namespaces = s.namespaces := rfl
@[simp] theorem State.setDie_conns (s : State) (d : Nat) (x : Die) : (s.setDie d x).conns = s.conns := rfl
@[simp] theorem State.setDie_backoffs (s : State) (d : Nat) (x : Die) : (s.setDie d x).backoffs = s.backoffs := rfl
@[simp] theorem State.setDie_orphans (s : State) (d : Nat) (x : Die) : (s.setDie d x).orphans = s.orphans := rfl
@[simp] theorem State.setDie_boot (s : State) (d : Nat) (x : Die) : (s.setDie d x).boot = s.boot := rfl

/-! ### State.setPart -/

@[simp] theorem State.setPart_cur (s : State) (p : Nat) (x : Part) : (s.setPart p x).cur = s.cur := rfl
@[simp] theorem State.setPart_agenda (s : State) (p : Nat) (x : Part) : (s.setPart p x).agenda = s.agenda := rfl
@[simp] theorem State.setPart_free (s : State) (p : Nat) (x : Part) : (s.setPart p x).free = s.free := rfl
@[simp] theorem State.setPart_uid (s : State) (p : Nat) (x : Part) : (s.setPart p x).uid = s.uid := rfl
@[simp] theorem State.setPart_tick47 (s : State) (p : Nat) (x : Part) : (s.setPart p x).tick47 = s.tick47 := rfl
@[simp] theorem State.setPart_groups (s : State) (p : Nat) (x : Part) : (s.setPart p x).groups = s.groups := rfl
@[simp] theorem State.setPart_savedMx (s : State) (p : Nat) (x : Part) : (s.setPart p x).savedMx = s.savedMx := rfl
@[simp] theorem State.setPart_flys (s : State) (p : Nat) (x : Part) : (s.setPart p x).flys = s.flys := rfl
@[simp] theorem State.setPart_batches (s : State) (p : Nat) (x : Part) : (s.setPart p x).batches = s.batches := rfl
@[simp] theorem State.setPart_queue (s : State) (p : Nat) (x : Part) : (s.setPart p x).queue = s.queue := rfl
@[simp] theorem State.setPart_waiters (s : State) (p : Nat) (x : Part) : (s.setPart p x).waiters = s.waiters := rfl
@[simp] theorem State.setPart_engines (s : State) (p : Nat) (x : Part) : (s.setPart p x).engines = s.engines := rfl
@[simp] theorem State.setPart_drives (s : State) (p : Nat) (x : Part) : (s.setPart p x).drives = s.drives := rfl
@[simp] theorem State.setPart_links (s : State) (p : Nat) (x : Part) : (s.setPart p x).links = s.links := rfl
@[simp] theorem State.setPart_cores (s : State) (p : Nat) (x : Part) : (s.setPart p x).cores = s.cores := rfl
@[simp] theorem State.setPart_dies (s : State) (p : Nat) (x : Part) : (s.setPart p x).dies = s.dies := rfl
@[simp] theorem State.setPart_contexts (s : State) (p : Nat) (x : Part) : (s.setPart p x).contexts = s.contexts := rfl
@[simp] theorem State.setPart_launches (s : State) (p : Nat) (x : Part) : (s.setPart p x).launches = s.launches := rfl
@[simp] theorem State.setPart_programs (s : State) (p : Nat) (x : Part) : (s.setPart p x).programs = s.programs := rfl
@[simp] theorem State.setPart_nextLaunch (s : State) (p : Nat) (x : Part) : (s.setPart p x).nextLaunch = s.nextLaunch := rfl
@[simp] theorem State.setPart_feeds (s : State) (p : Nat) (x : Part) : (s.setPart p x).feeds = s.feeds := rfl
@[simp] theorem State.setPart_binds (s : State) (p : Nat) (x : Part) : (s.setPart p x).binds = s.binds := rfl
@[simp] theorem State.setPart_mem (s : State) (p : Nat) (x : Part) : (s.setPart p x).mem = s.mem := rfl
@[simp] theorem State.setPart_base (s : State) (p : Nat) (x : Part) : (s.setPart p x).base = s.base := rfl
@[simp] theorem State.setPart_log (s : State) (p : Nat) (x : Part) : (s.setPart p x).log = s.log := rfl
@[simp] theorem State.setPart_nextLanding (s : State) (p : Nat) (x : Part) : (s.setPart p x).nextLanding = s.nextLanding := rfl
@[simp] theorem State.setPart_seals (s : State) (p : Nat) (x : Part) : (s.setPart p x).seals = s.seals := rfl
@[simp] theorem State.setPart_spoiled (s : State) (p : Nat) (x : Part) : (s.setPart p x).spoiled = s.spoiled := rfl
@[simp] theorem State.setPart_shadow (s : State) (p : Nat) (x : Part) : (s.setPart p x).shadow = s.shadow := rfl
@[simp] theorem State.setPart_dirty (s : State) (p : Nat) (x : Part) : (s.setPart p x).dirty = s.dirty := rfl
@[simp] theorem State.setPart_ops (s : State) (p : Nat) (x : Part) : (s.setPart p x).ops = s.ops := rfl
@[simp] theorem State.setPart_messages (s : State) (p : Nat) (x : Part) : (s.setPart p x).messages = s.messages := rfl
@[simp] theorem State.setPart_inbox (s : State) (p : Nat) (x : Part) : (s.setPart p x).inbox = s.inbox := rfl
@[simp] theorem State.setPart_endpoints (s : State) (p : Nat) (x : Part) : (s.setPart p x).endpoints = s.endpoints := rfl
@[simp] theorem State.setPart_watches (s : State) (p : Nat) (x : Part) : (s.setPart p x).watches = s.watches := rfl
@[simp] theorem State.setPart_namespaces (s : State) (p : Nat) (x : Part) : (s.setPart p x).namespaces = s.namespaces := rfl
@[simp] theorem State.setPart_conns (s : State) (p : Nat) (x : Part) : (s.setPart p x).conns = s.conns := rfl
@[simp] theorem State.setPart_backoffs (s : State) (p : Nat) (x : Part) : (s.setPart p x).backoffs = s.backoffs := rfl
@[simp] theorem State.setPart_orphans (s : State) (p : Nat) (x : Part) : (s.setPart p x).orphans = s.orphans := rfl
@[simp] theorem State.setPart_boot (s : State) (p : Nat) (x : Part) : (s.setPart p x).boot = s.boot := rfl

/-! ### State.setContext -/

@[simp] theorem State.setContext_cur (s : State) (a : Nat) (x : Context) : (s.setContext a x).cur = s.cur := rfl
@[simp] theorem State.setContext_agenda (s : State) (a : Nat) (x : Context) : (s.setContext a x).agenda = s.agenda := rfl
@[simp] theorem State.setContext_free (s : State) (a : Nat) (x : Context) : (s.setContext a x).free = s.free := rfl
@[simp] theorem State.setContext_uid (s : State) (a : Nat) (x : Context) : (s.setContext a x).uid = s.uid := rfl
@[simp] theorem State.setContext_tick47 (s : State) (a : Nat) (x : Context) : (s.setContext a x).tick47 = s.tick47 := rfl
@[simp] theorem State.setContext_groups (s : State) (a : Nat) (x : Context) : (s.setContext a x).groups = s.groups := rfl
@[simp] theorem State.setContext_savedMx (s : State) (a : Nat) (x : Context) : (s.setContext a x).savedMx = s.savedMx := rfl
@[simp] theorem State.setContext_flys (s : State) (a : Nat) (x : Context) : (s.setContext a x).flys = s.flys := rfl
@[simp] theorem State.setContext_batches (s : State) (a : Nat) (x : Context) : (s.setContext a x).batches = s.batches := rfl
@[simp] theorem State.setContext_queue (s : State) (a : Nat) (x : Context) : (s.setContext a x).queue = s.queue := rfl
@[simp] theorem State.setContext_waiters (s : State) (a : Nat) (x : Context) : (s.setContext a x).waiters = s.waiters := rfl
@[simp] theorem State.setContext_engines (s : State) (a : Nat) (x : Context) : (s.setContext a x).engines = s.engines := rfl
@[simp] theorem State.setContext_drives (s : State) (a : Nat) (x : Context) : (s.setContext a x).drives = s.drives := rfl
@[simp] theorem State.setContext_links (s : State) (a : Nat) (x : Context) : (s.setContext a x).links = s.links := rfl
@[simp] theorem State.setContext_cores (s : State) (a : Nat) (x : Context) : (s.setContext a x).cores = s.cores := rfl
@[simp] theorem State.setContext_dies (s : State) (a : Nat) (x : Context) : (s.setContext a x).dies = s.dies := rfl
@[simp] theorem State.setContext_parts (s : State) (a : Nat) (x : Context) : (s.setContext a x).parts = s.parts := rfl
@[simp] theorem State.setContext_launches (s : State) (a : Nat) (x : Context) : (s.setContext a x).launches = s.launches := rfl
@[simp] theorem State.setContext_programs (s : State) (a : Nat) (x : Context) : (s.setContext a x).programs = s.programs := rfl
@[simp] theorem State.setContext_nextLaunch (s : State) (a : Nat) (x : Context) : (s.setContext a x).nextLaunch = s.nextLaunch := rfl
@[simp] theorem State.setContext_feeds (s : State) (a : Nat) (x : Context) : (s.setContext a x).feeds = s.feeds := rfl
@[simp] theorem State.setContext_binds (s : State) (a : Nat) (x : Context) : (s.setContext a x).binds = s.binds := rfl
@[simp] theorem State.setContext_mem (s : State) (a : Nat) (x : Context) : (s.setContext a x).mem = s.mem := rfl
@[simp] theorem State.setContext_base (s : State) (a : Nat) (x : Context) : (s.setContext a x).base = s.base := rfl
@[simp] theorem State.setContext_log (s : State) (a : Nat) (x : Context) : (s.setContext a x).log = s.log := rfl
@[simp] theorem State.setContext_nextLanding (s : State) (a : Nat) (x : Context) : (s.setContext a x).nextLanding = s.nextLanding := rfl
@[simp] theorem State.setContext_seals (s : State) (a : Nat) (x : Context) : (s.setContext a x).seals = s.seals := rfl
@[simp] theorem State.setContext_spoiled (s : State) (a : Nat) (x : Context) : (s.setContext a x).spoiled = s.spoiled := rfl
@[simp] theorem State.setContext_shadow (s : State) (a : Nat) (x : Context) : (s.setContext a x).shadow = s.shadow := rfl
@[simp] theorem State.setContext_dirty (s : State) (a : Nat) (x : Context) : (s.setContext a x).dirty = s.dirty := rfl
@[simp] theorem State.setContext_ops (s : State) (a : Nat) (x : Context) : (s.setContext a x).ops = s.ops := rfl
@[simp] theorem State.setContext_messages (s : State) (a : Nat) (x : Context) : (s.setContext a x).messages = s.messages := rfl
@[simp] theorem State.setContext_inbox (s : State) (a : Nat) (x : Context) : (s.setContext a x).inbox = s.inbox := rfl
@[simp] theorem State.setContext_endpoints (s : State) (a : Nat) (x : Context) : (s.setContext a x).endpoints = s.endpoints := rfl
@[simp] theorem State.setContext_watches (s : State) (a : Nat) (x : Context) : (s.setContext a x).watches = s.watches := rfl
@[simp] theorem State.setContext_namespaces (s : State) (a : Nat) (x : Context) : (s.setContext a x).namespaces = s.namespaces := rfl
@[simp] theorem State.setContext_conns (s : State) (a : Nat) (x : Context) : (s.setContext a x).conns = s.conns := rfl
@[simp] theorem State.setContext_backoffs (s : State) (a : Nat) (x : Context) : (s.setContext a x).backoffs = s.backoffs := rfl
@[simp] theorem State.setContext_orphans (s : State) (a : Nat) (x : Context) : (s.setContext a x).orphans = s.orphans := rfl
@[simp] theorem State.setContext_boot (s : State) (a : Nat) (x : Context) : (s.setContext a x).boot = s.boot := rfl

/-! ### State.updLaunch -/

@[simp] theorem State.updLaunch_cur (s : State) (l : Nat) (f : Launch → Launch) : (s.updLaunch l f).cur = s.cur := rfl
@[simp] theorem State.updLaunch_agenda (s : State) (l : Nat) (f : Launch → Launch) : (s.updLaunch l f).agenda = s.agenda := rfl
@[simp] theorem State.updLaunch_free (s : State) (l : Nat) (f : Launch → Launch) : (s.updLaunch l f).free = s.free := rfl
@[simp] theorem State.updLaunch_uid (s : State) (l : Nat) (f : Launch → Launch) : (s.updLaunch l f).uid = s.uid := rfl
@[simp] theorem State.updLaunch_tick47 (s : State) (l : Nat) (f : Launch → Launch) : (s.updLaunch l f).tick47 = s.tick47 := rfl
@[simp] theorem State.updLaunch_groups (s : State) (l : Nat) (f : Launch → Launch) : (s.updLaunch l f).groups = s.groups := rfl
@[simp] theorem State.updLaunch_savedMx (s : State) (l : Nat) (f : Launch → Launch) : (s.updLaunch l f).savedMx = s.savedMx := rfl
@[simp] theorem State.updLaunch_flys (s : State) (l : Nat) (f : Launch → Launch) : (s.updLaunch l f).flys = s.flys := rfl
@[simp] theorem State.updLaunch_batches (s : State) (l : Nat) (f : Launch → Launch) : (s.updLaunch l f).batches = s.batches := rfl
@[simp] theorem State.updLaunch_queue (s : State) (l : Nat) (f : Launch → Launch) : (s.updLaunch l f).queue = s.queue := rfl
@[simp] theorem State.updLaunch_waiters (s : State) (l : Nat) (f : Launch → Launch) : (s.updLaunch l f).waiters = s.waiters := rfl
@[simp] theorem State.updLaunch_engines (s : State) (l : Nat) (f : Launch → Launch) : (s.updLaunch l f).engines = s.engines := rfl
@[simp] theorem State.updLaunch_drives (s : State) (l : Nat) (f : Launch → Launch) : (s.updLaunch l f).drives = s.drives := rfl
@[simp] theorem State.updLaunch_links (s : State) (l : Nat) (f : Launch → Launch) : (s.updLaunch l f).links = s.links := rfl
@[simp] theorem State.updLaunch_cores (s : State) (l : Nat) (f : Launch → Launch) : (s.updLaunch l f).cores = s.cores := rfl
@[simp] theorem State.updLaunch_dies (s : State) (l : Nat) (f : Launch → Launch) : (s.updLaunch l f).dies = s.dies := rfl
@[simp] theorem State.updLaunch_parts (s : State) (l : Nat) (f : Launch → Launch) : (s.updLaunch l f).parts = s.parts := rfl
@[simp] theorem State.updLaunch_contexts (s : State) (l : Nat) (f : Launch → Launch) : (s.updLaunch l f).contexts = s.contexts := rfl
@[simp] theorem State.updLaunch_programs (s : State) (l : Nat) (f : Launch → Launch) : (s.updLaunch l f).programs = s.programs := rfl
@[simp] theorem State.updLaunch_nextLaunch (s : State) (l : Nat) (f : Launch → Launch) : (s.updLaunch l f).nextLaunch = s.nextLaunch := rfl
@[simp] theorem State.updLaunch_feeds (s : State) (l : Nat) (f : Launch → Launch) : (s.updLaunch l f).feeds = s.feeds := rfl
@[simp] theorem State.updLaunch_binds (s : State) (l : Nat) (f : Launch → Launch) : (s.updLaunch l f).binds = s.binds := rfl
@[simp] theorem State.updLaunch_mem (s : State) (l : Nat) (f : Launch → Launch) : (s.updLaunch l f).mem = s.mem := rfl
@[simp] theorem State.updLaunch_base (s : State) (l : Nat) (f : Launch → Launch) : (s.updLaunch l f).base = s.base := rfl
@[simp] theorem State.updLaunch_log (s : State) (l : Nat) (f : Launch → Launch) : (s.updLaunch l f).log = s.log := rfl
@[simp] theorem State.updLaunch_nextLanding (s : State) (l : Nat) (f : Launch → Launch) : (s.updLaunch l f).nextLanding = s.nextLanding := rfl
@[simp] theorem State.updLaunch_seals (s : State) (l : Nat) (f : Launch → Launch) : (s.updLaunch l f).seals = s.seals := rfl
@[simp] theorem State.updLaunch_spoiled (s : State) (l : Nat) (f : Launch → Launch) : (s.updLaunch l f).spoiled = s.spoiled := rfl
@[simp] theorem State.updLaunch_shadow (s : State) (l : Nat) (f : Launch → Launch) : (s.updLaunch l f).shadow = s.shadow := rfl
@[simp] theorem State.updLaunch_dirty (s : State) (l : Nat) (f : Launch → Launch) : (s.updLaunch l f).dirty = s.dirty := rfl
@[simp] theorem State.updLaunch_ops (s : State) (l : Nat) (f : Launch → Launch) : (s.updLaunch l f).ops = s.ops := rfl
@[simp] theorem State.updLaunch_messages (s : State) (l : Nat) (f : Launch → Launch) : (s.updLaunch l f).messages = s.messages := rfl
@[simp] theorem State.updLaunch_inbox (s : State) (l : Nat) (f : Launch → Launch) : (s.updLaunch l f).inbox = s.inbox := rfl
@[simp] theorem State.updLaunch_endpoints (s : State) (l : Nat) (f : Launch → Launch) : (s.updLaunch l f).endpoints = s.endpoints := rfl
@[simp] theorem State.updLaunch_watches (s : State) (l : Nat) (f : Launch → Launch) : (s.updLaunch l f).watches = s.watches := rfl
@[simp] theorem State.updLaunch_namespaces (s : State) (l : Nat) (f : Launch → Launch) : (s.updLaunch l f).namespaces = s.namespaces := rfl
@[simp] theorem State.updLaunch_conns (s : State) (l : Nat) (f : Launch → Launch) : (s.updLaunch l f).conns = s.conns := rfl
@[simp] theorem State.updLaunch_backoffs (s : State) (l : Nat) (f : Launch → Launch) : (s.updLaunch l f).backoffs = s.backoffs := rfl
@[simp] theorem State.updLaunch_orphans (s : State) (l : Nat) (f : Launch → Launch) : (s.updLaunch l f).orphans = s.orphans := rfl
@[simp] theorem State.updLaunch_boot (s : State) (l : Nat) (f : Launch → Launch) : (s.updLaunch l f).boot = s.boot := rfl

/-! ### State.updMx -/

@[simp] theorem State.updMx_cur (s : State) (c : Nat) (f : Matrix → Matrix) : (s.updMx c f).cur = s.cur := rfl
@[simp] theorem State.updMx_agenda (s : State) (c : Nat) (f : Matrix → Matrix) : (s.updMx c f).agenda = s.agenda := rfl
@[simp] theorem State.updMx_free (s : State) (c : Nat) (f : Matrix → Matrix) : (s.updMx c f).free = s.free := rfl
@[simp] theorem State.updMx_uid (s : State) (c : Nat) (f : Matrix → Matrix) : (s.updMx c f).uid = s.uid := rfl
@[simp] theorem State.updMx_tick47 (s : State) (c : Nat) (f : Matrix → Matrix) : (s.updMx c f).tick47 = s.tick47 := rfl
@[simp] theorem State.updMx_groups (s : State) (c : Nat) (f : Matrix → Matrix) : (s.updMx c f).groups = s.groups := rfl
@[simp] theorem State.updMx_savedMx (s : State) (c : Nat) (f : Matrix → Matrix) : (s.updMx c f).savedMx = s.savedMx := rfl
@[simp] theorem State.updMx_flys (s : State) (c : Nat) (f : Matrix → Matrix) : (s.updMx c f).flys = s.flys := rfl
@[simp] theorem State.updMx_batches (s : State) (c : Nat) (f : Matrix → Matrix) : (s.updMx c f).batches = s.batches := rfl
@[simp] theorem State.updMx_queue (s : State) (c : Nat) (f : Matrix → Matrix) : (s.updMx c f).queue = s.queue := rfl
@[simp] theorem State.updMx_waiters (s : State) (c : Nat) (f : Matrix → Matrix) : (s.updMx c f).waiters = s.waiters := rfl
@[simp] theorem State.updMx_engines (s : State) (c : Nat) (f : Matrix → Matrix) : (s.updMx c f).engines = s.engines := rfl
@[simp] theorem State.updMx_drives (s : State) (c : Nat) (f : Matrix → Matrix) : (s.updMx c f).drives = s.drives := rfl
@[simp] theorem State.updMx_links (s : State) (c : Nat) (f : Matrix → Matrix) : (s.updMx c f).links = s.links := rfl
@[simp] theorem State.updMx_dies (s : State) (c : Nat) (f : Matrix → Matrix) : (s.updMx c f).dies = s.dies := rfl
@[simp] theorem State.updMx_parts (s : State) (c : Nat) (f : Matrix → Matrix) : (s.updMx c f).parts = s.parts := rfl
@[simp] theorem State.updMx_contexts (s : State) (c : Nat) (f : Matrix → Matrix) : (s.updMx c f).contexts = s.contexts := rfl
@[simp] theorem State.updMx_launches (s : State) (c : Nat) (f : Matrix → Matrix) : (s.updMx c f).launches = s.launches := rfl
@[simp] theorem State.updMx_programs (s : State) (c : Nat) (f : Matrix → Matrix) : (s.updMx c f).programs = s.programs := rfl
@[simp] theorem State.updMx_nextLaunch (s : State) (c : Nat) (f : Matrix → Matrix) : (s.updMx c f).nextLaunch = s.nextLaunch := rfl
@[simp] theorem State.updMx_feeds (s : State) (c : Nat) (f : Matrix → Matrix) : (s.updMx c f).feeds = s.feeds := rfl
@[simp] theorem State.updMx_binds (s : State) (c : Nat) (f : Matrix → Matrix) : (s.updMx c f).binds = s.binds := rfl
@[simp] theorem State.updMx_mem (s : State) (c : Nat) (f : Matrix → Matrix) : (s.updMx c f).mem = s.mem := rfl
@[simp] theorem State.updMx_base (s : State) (c : Nat) (f : Matrix → Matrix) : (s.updMx c f).base = s.base := rfl
@[simp] theorem State.updMx_log (s : State) (c : Nat) (f : Matrix → Matrix) : (s.updMx c f).log = s.log := rfl
@[simp] theorem State.updMx_nextLanding (s : State) (c : Nat) (f : Matrix → Matrix) : (s.updMx c f).nextLanding = s.nextLanding := rfl
@[simp] theorem State.updMx_seals (s : State) (c : Nat) (f : Matrix → Matrix) : (s.updMx c f).seals = s.seals := rfl
@[simp] theorem State.updMx_spoiled (s : State) (c : Nat) (f : Matrix → Matrix) : (s.updMx c f).spoiled = s.spoiled := rfl
@[simp] theorem State.updMx_shadow (s : State) (c : Nat) (f : Matrix → Matrix) : (s.updMx c f).shadow = s.shadow := rfl
@[simp] theorem State.updMx_dirty (s : State) (c : Nat) (f : Matrix → Matrix) : (s.updMx c f).dirty = s.dirty := rfl
@[simp] theorem State.updMx_ops (s : State) (c : Nat) (f : Matrix → Matrix) : (s.updMx c f).ops = s.ops := rfl
@[simp] theorem State.updMx_messages (s : State) (c : Nat) (f : Matrix → Matrix) : (s.updMx c f).messages = s.messages := rfl
@[simp] theorem State.updMx_inbox (s : State) (c : Nat) (f : Matrix → Matrix) : (s.updMx c f).inbox = s.inbox := rfl
@[simp] theorem State.updMx_endpoints (s : State) (c : Nat) (f : Matrix → Matrix) : (s.updMx c f).endpoints = s.endpoints := rfl
@[simp] theorem State.updMx_watches (s : State) (c : Nat) (f : Matrix → Matrix) : (s.updMx c f).watches = s.watches := rfl
@[simp] theorem State.updMx_namespaces (s : State) (c : Nat) (f : Matrix → Matrix) : (s.updMx c f).namespaces = s.namespaces := rfl
@[simp] theorem State.updMx_conns (s : State) (c : Nat) (f : Matrix → Matrix) : (s.updMx c f).conns = s.conns := rfl
@[simp] theorem State.updMx_backoffs (s : State) (c : Nat) (f : Matrix → Matrix) : (s.updMx c f).backoffs = s.backoffs := rfl
@[simp] theorem State.updMx_orphans (s : State) (c : Nat) (f : Matrix → Matrix) : (s.updMx c f).orphans = s.orphans := rfl
@[simp] theorem State.updMx_boot (s : State) (c : Nat) (f : Matrix → Matrix) : (s.updMx c f).boot = s.boot := rfl

/-! ### State.setFeed -/

@[simp] theorem State.setFeed_cur (s : State) (f : Feed) : (s.setFeed f).cur = s.cur := rfl
@[simp] theorem State.setFeed_agenda (s : State) (f : Feed) : (s.setFeed f).agenda = s.agenda := rfl
@[simp] theorem State.setFeed_free (s : State) (f : Feed) : (s.setFeed f).free = s.free := rfl
@[simp] theorem State.setFeed_uid (s : State) (f : Feed) : (s.setFeed f).uid = s.uid := rfl
@[simp] theorem State.setFeed_tick47 (s : State) (f : Feed) : (s.setFeed f).tick47 = s.tick47 := rfl
@[simp] theorem State.setFeed_groups (s : State) (f : Feed) : (s.setFeed f).groups = s.groups := rfl
@[simp] theorem State.setFeed_savedMx (s : State) (f : Feed) : (s.setFeed f).savedMx = s.savedMx := rfl
@[simp] theorem State.setFeed_flys (s : State) (f : Feed) : (s.setFeed f).flys = s.flys := rfl
@[simp] theorem State.setFeed_batches (s : State) (f : Feed) : (s.setFeed f).batches = s.batches := rfl
@[simp] theorem State.setFeed_queue (s : State) (f : Feed) : (s.setFeed f).queue = s.queue := rfl
@[simp] theorem State.setFeed_waiters (s : State) (f : Feed) : (s.setFeed f).waiters = s.waiters := rfl
@[simp] theorem State.setFeed_engines (s : State) (f : Feed) : (s.setFeed f).engines = s.engines := rfl
@[simp] theorem State.setFeed_drives (s : State) (f : Feed) : (s.setFeed f).drives = s.drives := rfl
@[simp] theorem State.setFeed_links (s : State) (f : Feed) : (s.setFeed f).links = s.links := rfl
@[simp] theorem State.setFeed_cores (s : State) (f : Feed) : (s.setFeed f).cores = s.cores := rfl
@[simp] theorem State.setFeed_dies (s : State) (f : Feed) : (s.setFeed f).dies = s.dies := rfl
@[simp] theorem State.setFeed_parts (s : State) (f : Feed) : (s.setFeed f).parts = s.parts := rfl
@[simp] theorem State.setFeed_contexts (s : State) (f : Feed) : (s.setFeed f).contexts = s.contexts := rfl
@[simp] theorem State.setFeed_launches (s : State) (f : Feed) : (s.setFeed f).launches = s.launches := rfl
@[simp] theorem State.setFeed_programs (s : State) (f : Feed) : (s.setFeed f).programs = s.programs := rfl
@[simp] theorem State.setFeed_nextLaunch (s : State) (f : Feed) : (s.setFeed f).nextLaunch = s.nextLaunch := rfl
@[simp] theorem State.setFeed_binds (s : State) (f : Feed) : (s.setFeed f).binds = s.binds := rfl
@[simp] theorem State.setFeed_mem (s : State) (f : Feed) : (s.setFeed f).mem = s.mem := rfl
@[simp] theorem State.setFeed_base (s : State) (f : Feed) : (s.setFeed f).base = s.base := rfl
@[simp] theorem State.setFeed_log (s : State) (f : Feed) : (s.setFeed f).log = s.log := rfl
@[simp] theorem State.setFeed_nextLanding (s : State) (f : Feed) : (s.setFeed f).nextLanding = s.nextLanding := rfl
@[simp] theorem State.setFeed_seals (s : State) (f : Feed) : (s.setFeed f).seals = s.seals := rfl
@[simp] theorem State.setFeed_spoiled (s : State) (f : Feed) : (s.setFeed f).spoiled = s.spoiled := rfl
@[simp] theorem State.setFeed_shadow (s : State) (f : Feed) : (s.setFeed f).shadow = s.shadow := rfl
@[simp] theorem State.setFeed_dirty (s : State) (f : Feed) : (s.setFeed f).dirty = s.dirty := rfl
@[simp] theorem State.setFeed_ops (s : State) (f : Feed) : (s.setFeed f).ops = s.ops := rfl
@[simp] theorem State.setFeed_messages (s : State) (f : Feed) : (s.setFeed f).messages = s.messages := rfl
@[simp] theorem State.setFeed_inbox (s : State) (f : Feed) : (s.setFeed f).inbox = s.inbox := rfl
@[simp] theorem State.setFeed_endpoints (s : State) (f : Feed) : (s.setFeed f).endpoints = s.endpoints := rfl
@[simp] theorem State.setFeed_watches (s : State) (f : Feed) : (s.setFeed f).watches = s.watches := rfl
@[simp] theorem State.setFeed_namespaces (s : State) (f : Feed) : (s.setFeed f).namespaces = s.namespaces := rfl
@[simp] theorem State.setFeed_conns (s : State) (f : Feed) : (s.setFeed f).conns = s.conns := rfl
@[simp] theorem State.setFeed_backoffs (s : State) (f : Feed) : (s.setFeed f).backoffs = s.backoffs := rfl
@[simp] theorem State.setFeed_orphans (s : State) (f : Feed) : (s.setFeed f).orphans = s.orphans := rfl
@[simp] theorem State.setFeed_boot (s : State) (f : Feed) : (s.setFeed f).boot = s.boot := rfl

/-! ### State.setBind -/

@[simp] theorem State.setBind_cur (s : State) (k : Nat) (b : Bind) : (s.setBind k b).cur = s.cur := rfl
@[simp] theorem State.setBind_agenda (s : State) (k : Nat) (b : Bind) : (s.setBind k b).agenda = s.agenda := rfl
@[simp] theorem State.setBind_free (s : State) (k : Nat) (b : Bind) : (s.setBind k b).free = s.free := rfl
@[simp] theorem State.setBind_uid (s : State) (k : Nat) (b : Bind) : (s.setBind k b).uid = s.uid := rfl
@[simp] theorem State.setBind_tick47 (s : State) (k : Nat) (b : Bind) : (s.setBind k b).tick47 = s.tick47 := rfl
@[simp] theorem State.setBind_groups (s : State) (k : Nat) (b : Bind) : (s.setBind k b).groups = s.groups := rfl
@[simp] theorem State.setBind_savedMx (s : State) (k : Nat) (b : Bind) : (s.setBind k b).savedMx = s.savedMx := rfl
@[simp] theorem State.setBind_flys (s : State) (k : Nat) (b : Bind) : (s.setBind k b).flys = s.flys := rfl
@[simp] theorem State.setBind_batches (s : State) (k : Nat) (b : Bind) : (s.setBind k b).batches = s.batches := rfl
@[simp] theorem State.setBind_queue (s : State) (k : Nat) (b : Bind) : (s.setBind k b).queue = s.queue := rfl
@[simp] theorem State.setBind_waiters (s : State) (k : Nat) (b : Bind) : (s.setBind k b).waiters = s.waiters := rfl
@[simp] theorem State.setBind_engines (s : State) (k : Nat) (b : Bind) : (s.setBind k b).engines = s.engines := rfl
@[simp] theorem State.setBind_drives (s : State) (k : Nat) (b : Bind) : (s.setBind k b).drives = s.drives := rfl
@[simp] theorem State.setBind_links (s : State) (k : Nat) (b : Bind) : (s.setBind k b).links = s.links := rfl
@[simp] theorem State.setBind_cores (s : State) (k : Nat) (b : Bind) : (s.setBind k b).cores = s.cores := rfl
@[simp] theorem State.setBind_dies (s : State) (k : Nat) (b : Bind) : (s.setBind k b).dies = s.dies := rfl
@[simp] theorem State.setBind_parts (s : State) (k : Nat) (b : Bind) : (s.setBind k b).parts = s.parts := rfl
@[simp] theorem State.setBind_contexts (s : State) (k : Nat) (b : Bind) : (s.setBind k b).contexts = s.contexts := rfl
@[simp] theorem State.setBind_launches (s : State) (k : Nat) (b : Bind) : (s.setBind k b).launches = s.launches := rfl
@[simp] theorem State.setBind_programs (s : State) (k : Nat) (b : Bind) : (s.setBind k b).programs = s.programs := rfl
@[simp] theorem State.setBind_nextLaunch (s : State) (k : Nat) (b : Bind) : (s.setBind k b).nextLaunch = s.nextLaunch := rfl
@[simp] theorem State.setBind_feeds (s : State) (k : Nat) (b : Bind) : (s.setBind k b).feeds = s.feeds := rfl
@[simp] theorem State.setBind_mem (s : State) (k : Nat) (b : Bind) : (s.setBind k b).mem = s.mem := rfl
@[simp] theorem State.setBind_base (s : State) (k : Nat) (b : Bind) : (s.setBind k b).base = s.base := rfl
@[simp] theorem State.setBind_log (s : State) (k : Nat) (b : Bind) : (s.setBind k b).log = s.log := rfl
@[simp] theorem State.setBind_nextLanding (s : State) (k : Nat) (b : Bind) : (s.setBind k b).nextLanding = s.nextLanding := rfl
@[simp] theorem State.setBind_seals (s : State) (k : Nat) (b : Bind) : (s.setBind k b).seals = s.seals := rfl
@[simp] theorem State.setBind_spoiled (s : State) (k : Nat) (b : Bind) : (s.setBind k b).spoiled = s.spoiled := rfl
@[simp] theorem State.setBind_shadow (s : State) (k : Nat) (b : Bind) : (s.setBind k b).shadow = s.shadow := rfl
@[simp] theorem State.setBind_dirty (s : State) (k : Nat) (b : Bind) : (s.setBind k b).dirty = s.dirty := rfl
@[simp] theorem State.setBind_ops (s : State) (k : Nat) (b : Bind) : (s.setBind k b).ops = s.ops := rfl
@[simp] theorem State.setBind_messages (s : State) (k : Nat) (b : Bind) : (s.setBind k b).messages = s.messages := rfl
@[simp] theorem State.setBind_inbox (s : State) (k : Nat) (b : Bind) : (s.setBind k b).inbox = s.inbox := rfl
@[simp] theorem State.setBind_endpoints (s : State) (k : Nat) (b : Bind) : (s.setBind k b).endpoints = s.endpoints := rfl
@[simp] theorem State.setBind_watches (s : State) (k : Nat) (b : Bind) : (s.setBind k b).watches = s.watches := rfl
@[simp] theorem State.setBind_namespaces (s : State) (k : Nat) (b : Bind) : (s.setBind k b).namespaces = s.namespaces := rfl
@[simp] theorem State.setBind_conns (s : State) (k : Nat) (b : Bind) : (s.setBind k b).conns = s.conns := rfl
@[simp] theorem State.setBind_backoffs (s : State) (k : Nat) (b : Bind) : (s.setBind k b).backoffs = s.backoffs := rfl
@[simp] theorem State.setBind_orphans (s : State) (k : Nat) (b : Bind) : (s.setBind k b).orphans = s.orphans := rfl
@[simp] theorem State.setBind_boot (s : State) (k : Nat) (b : Bind) : (s.setBind k b).boot = s.boot := rfl

/-! ### The field that an update writes -/

@[simp] theorem State.updGroup_groups (s : State) (gid : Nat) (f : Group → Group) :
    (s.updGroup gid f).groups = updateBy (fun g => g.gid == gid) f s.groups := rfl
@[simp] theorem State.updFly_flys (s : State) (id : Nat) (f : Fly → Fly) :
    (s.updFly id f).flys = updateBy (fun x => x.id == id) f s.flys := rfl
theorem State.core_setCore (s : State) (a b : Nat) (k : Core) : (s.setCore a k).core b = if a = b then k else s.core b :=
  smGet_smSet _ _ _ _ _
theorem State.die_setDie (s : State) (a b : Nat) (x : Die) : (s.setDie a x).die b = if a = b then x else s.die b :=
  smGet_smSet _ _ _ _ _
theorem State.part_setPart (s : State) (a b : Nat) (x : Part) : (s.setPart a x).part b = if a = b then x else s.part b :=
  smGet_smSet _ _ _ _ _
theorem State.context_setContext (s : State) (a b : Nat) (x : Context) :
    (s.setContext a x).context b = if a = b then x else s.context b := smGet_smSet _ _ _ _ _
theorem State.bind_setBind (s : State) (a b : Nat) (x : Bind) : (s.setBind a x).bind b = if a = b then x else s.bind b :=
  smGet_smSet _ _ _ _ _
@[simp] theorem State.core_setCore_self (s : State) (a : Nat) (k : Core) : (s.setCore a k).core a = k := smGet_smSet_self _ _ _ _
@[simp] theorem State.die_setDie_self (s : State) (a : Nat) (x : Die) : (s.setDie a x).die a = x := smGet_smSet_self _ _ _ _
@[simp] theorem State.part_setPart_self (s : State) (a : Nat) (x : Part) : (s.setPart a x).part a = x := smGet_smSet_self _ _ _ _
@[simp] theorem State.context_setContext_self (s : State) (a : Nat) (x : Context) : (s.setContext a x).context a = x :=
  smGet_smSet_self _ _ _ _

/-! ### Fields of cores, dies and partitions through updates of other tables -/

@[simp] theorem State.core_updGroup (s : State) (gid : Nat) (f : Group → Group) (i : Nat) : (s.updGroup gid f).core i = s.core i := rfl
@[simp] theorem State.die_updGroup (s : State) (gid : Nat) (f : Group → Group) (i : Nat) : (s.updGroup gid f).die i = s.die i := rfl
@[simp] theorem State.part_updGroup (s : State) (gid : Nat) (f : Group → Group) (i : Nat) : (s.updGroup gid f).part i = s.part i := rfl
@[simp] theorem State.context_updGroup (s : State) (gid : Nat) (f : Group → Group) (i : Nat) : (s.updGroup gid f).context i = s.context i := rfl
@[simp] theorem State.fly_updGroup (s : State) (gid : Nat) (f : Group → Group) (i : Nat) : (s.updGroup gid f).fly? i = s.fly? i := rfl
@[simp] theorem State.launch_updGroup (s : State) (gid : Nat) (f : Group → Group) (i : Nat) : (s.updGroup gid f).launch? i = s.launch? i := rfl
@[simp] theorem State.core_updWarp (s : State) (gid w : Nat) (f : Warp → Warp) (i : Nat) : (s.updWarp gid w f).core i = s.core i := rfl
@[simp] theorem State.die_updWarp (s : State) (gid w : Nat) (f : Warp → Warp) (i : Nat) : (s.updWarp gid w f).die i = s.die i := rfl
@[simp] theorem State.part_updWarp (s : State) (gid w : Nat) (f : Warp → Warp) (i : Nat) : (s.updWarp gid w f).part i = s.part i := rfl
@[simp] theorem State.context_updWarp (s : State) (gid w : Nat) (f : Warp → Warp) (i : Nat) : (s.updWarp gid w f).context i = s.context i := rfl
@[simp] theorem State.fly_updWarp (s : State) (gid w : Nat) (f : Warp → Warp) (i : Nat) : (s.updWarp gid w f).fly? i = s.fly? i := rfl
@[simp] theorem State.launch_updWarp (s : State) (gid w : Nat) (f : Warp → Warp) (i : Nat) : (s.updWarp gid w f).launch? i = s.launch? i := rfl
@[simp] theorem State.core_updFly (s : State) (id : Nat) (f : Fly → Fly) (i : Nat) : (s.updFly id f).core i = s.core i := rfl
@[simp] theorem State.die_updFly (s : State) (id : Nat) (f : Fly → Fly) (i : Nat) : (s.updFly id f).die i = s.die i := rfl
@[simp] theorem State.part_updFly (s : State) (id : Nat) (f : Fly → Fly) (i : Nat) : (s.updFly id f).part i = s.part i := rfl
@[simp] theorem State.context_updFly (s : State) (id : Nat) (f : Fly → Fly) (i : Nat) : (s.updFly id f).context i = s.context i := rfl
@[simp] theorem State.group_updFly (s : State) (id : Nat) (f : Fly → Fly) (i : Nat) : (s.updFly id f).group? i = s.group? i := rfl
@[simp] theorem State.launch_updFly (s : State) (id : Nat) (f : Fly → Fly) (i : Nat) : (s.updFly id f).launch? i = s.launch? i := rfl
@[simp] theorem State.die_setCore (s : State) (c : Nat) (k : Core) (i : Nat) : (s.setCore c k).die i = s.die i := rfl
@[simp] theorem State.part_setCore (s : State) (c : Nat) (k : Core) (i : Nat) : (s.setCore c k).part i = s.part i := rfl
@[simp] theorem State.context_setCore (s : State) (c : Nat) (k : Core) (i : Nat) : (s.setCore c k).context i = s.context i := rfl
@[simp] theorem State.group_setCore (s : State) (c : Nat) (k : Core) (i : Nat) : (s.setCore c k).group? i = s.group? i := rfl
@[simp] theorem State.fly_setCore (s : State) (c : Nat) (k : Core) (i : Nat) : (s.setCore c k).fly? i = s.fly? i := rfl
@[simp] theorem State.launch_setCore (s : State) (c : Nat) (k : Core) (i : Nat) : (s.setCore c k).launch? i = s.launch? i := rfl
@[simp] theorem State.core_setDie (s : State) (d : Nat) (x : Die) (i : Nat) : (s.setDie d x).core i = s.core i := rfl
@[simp] theorem State.part_setDie (s : State) (d : Nat) (x : Die) (i : Nat) : (s.setDie d x).part i = s.part i := rfl
@[simp] theorem State.context_setDie (s : State) (d : Nat) (x : Die) (i : Nat) : (s.setDie d x).context i = s.context i := rfl
@[simp] theorem State.group_setDie (s : State) (d : Nat) (x : Die) (i : Nat) : (s.setDie d x).group? i = s.group? i := rfl
@[simp] theorem State.fly_setDie (s : State) (d : Nat) (x : Die) (i : Nat) : (s.setDie d x).fly? i = s.fly? i := rfl
@[simp] theorem State.launch_setDie (s : State) (d : Nat) (x : Die) (i : Nat) : (s.setDie d x).launch? i = s.launch? i := rfl
@[simp] theorem State.core_setPart (s : State) (p : Nat) (x : Part) (i : Nat) : (s.setPart p x).core i = s.core i := rfl
@[simp] theorem State.die_setPart (s : State) (p : Nat) (x : Part) (i : Nat) : (s.setPart p x).die i = s.die i := rfl
@[simp] theorem State.context_setPart (s : State) (p : Nat) (x : Part) (i : Nat) : (s.setPart p x).context i = s.context i := rfl
@[simp] theorem State.group_setPart (s : State) (p : Nat) (x : Part) (i : Nat) : (s.setPart p x).group? i = s.group? i := rfl
@[simp] theorem State.fly_setPart (s : State) (p : Nat) (x : Part) (i : Nat) : (s.setPart p x).fly? i = s.fly? i := rfl
@[simp] theorem State.launch_setPart (s : State) (p : Nat) (x : Part) (i : Nat) : (s.setPart p x).launch? i = s.launch? i := rfl
@[simp] theorem State.core_setContext (s : State) (a : Nat) (x : Context) (i : Nat) : (s.setContext a x).core i = s.core i := rfl
@[simp] theorem State.die_setContext (s : State) (a : Nat) (x : Context) (i : Nat) : (s.setContext a x).die i = s.die i := rfl
@[simp] theorem State.part_setContext (s : State) (a : Nat) (x : Context) (i : Nat) : (s.setContext a x).part i = s.part i := rfl
@[simp] theorem State.group_setContext (s : State) (a : Nat) (x : Context) (i : Nat) : (s.setContext a x).group? i = s.group? i := rfl
@[simp] theorem State.fly_setContext (s : State) (a : Nat) (x : Context) (i : Nat) : (s.setContext a x).fly? i = s.fly? i := rfl
@[simp] theorem State.launch_setContext (s : State) (a : Nat) (x : Context) (i : Nat) : (s.setContext a x).launch? i = s.launch? i := rfl
@[simp] theorem State.core_updLaunch (s : State) (l : Nat) (f : Launch → Launch) (i : Nat) : (s.updLaunch l f).core i = s.core i := rfl
@[simp] theorem State.die_updLaunch (s : State) (l : Nat) (f : Launch → Launch) (i : Nat) : (s.updLaunch l f).die i = s.die i := rfl
@[simp] theorem State.part_updLaunch (s : State) (l : Nat) (f : Launch → Launch) (i : Nat) : (s.updLaunch l f).part i = s.part i := rfl
@[simp] theorem State.context_updLaunch (s : State) (l : Nat) (f : Launch → Launch) (i : Nat) : (s.updLaunch l f).context i = s.context i := rfl
@[simp] theorem State.group_updLaunch (s : State) (l : Nat) (f : Launch → Launch) (i : Nat) : (s.updLaunch l f).group? i = s.group? i := rfl
@[simp] theorem State.fly_updLaunch (s : State) (l : Nat) (f : Launch → Launch) (i : Nat) : (s.updLaunch l f).fly? i = s.fly? i := rfl
@[simp] theorem State.die_updMx (s : State) (c : Nat) (f : Matrix → Matrix) (i : Nat) : (s.updMx c f).die i = s.die i := rfl
@[simp] theorem State.part_updMx (s : State) (c : Nat) (f : Matrix → Matrix) (i : Nat) : (s.updMx c f).part i = s.part i := rfl
@[simp] theorem State.context_updMx (s : State) (c : Nat) (f : Matrix → Matrix) (i : Nat) : (s.updMx c f).context i = s.context i := rfl
@[simp] theorem State.group_updMx (s : State) (c : Nat) (f : Matrix → Matrix) (i : Nat) : (s.updMx c f).group? i = s.group? i := rfl
@[simp] theorem State.fly_updMx (s : State) (c : Nat) (f : Matrix → Matrix) (i : Nat) : (s.updMx c f).fly? i = s.fly? i := rfl
@[simp] theorem State.launch_updMx (s : State) (c : Nat) (f : Matrix → Matrix) (i : Nat) : (s.updMx c f).launch? i = s.launch? i := rfl
@[simp] theorem State.core_setFeed (s : State) (f : Feed) (i : Nat) : (s.setFeed f).core i = s.core i := rfl
@[simp] theorem State.die_setFeed (s : State) (f : Feed) (i : Nat) : (s.setFeed f).die i = s.die i := rfl
@[simp] theorem State.part_setFeed (s : State) (f : Feed) (i : Nat) : (s.setFeed f).part i = s.part i := rfl
@[simp] theorem State.context_setFeed (s : State) (f : Feed) (i : Nat) : (s.setFeed f).context i = s.context i := rfl
@[simp] theorem State.group_setFeed (s : State) (f : Feed) (i : Nat) : (s.setFeed f).group? i = s.group? i := rfl
@[simp] theorem State.fly_setFeed (s : State) (f : Feed) (i : Nat) : (s.setFeed f).fly? i = s.fly? i := rfl
@[simp] theorem State.launch_setFeed (s : State) (f : Feed) (i : Nat) : (s.setFeed f).launch? i = s.launch? i := rfl
@[simp] theorem State.core_setBind (s : State) (k : Nat) (b : Bind) (i : Nat) : (s.setBind k b).core i = s.core i := rfl
@[simp] theorem State.die_setBind (s : State) (k : Nat) (b : Bind) (i : Nat) : (s.setBind k b).die i = s.die i := rfl
@[simp] theorem State.part_setBind (s : State) (k : Nat) (b : Bind) (i : Nat) : (s.setBind k b).part i = s.part i := rfl
@[simp] theorem State.context_setBind (s : State) (k : Nat) (b : Bind) (i : Nat) : (s.setBind k b).context i = s.context i := rfl
@[simp] theorem State.group_setBind (s : State) (k : Nat) (b : Bind) (i : Nat) : (s.setBind k b).group? i = s.group? i := rfl
@[simp] theorem State.fly_setBind (s : State) (k : Nat) (b : Bind) (i : Nat) : (s.setBind k b).fly? i = s.fly? i := rfl
@[simp] theorem State.launch_setBind (s : State) (k : Nat) (b : Bind) (i : Nat) : (s.setBind k b).launch? i = s.launch? i := rfl

end Sys2Proof.Machine
end

