-- ==== Sys2Proof/Laws/Complete.lean ====
section
/-! SUPPORT. What completing an instruction does: the laws of lists of records, of registers, and of `finish`. -/

namespace Sys2Proof.Machine

/-! ### Lists of records -/

variable {α β : Type}

theorem findBy_updateBy {f p : α → Bool} {g : α → α} (l : List α) (h : ∀ x, f (g x) = f x) :
    findBy f (updateBy p g l) = (findBy f l).map fun x => if p x then g x else x := by
  induction l with
  | nil => rfl
  | cons x r ih =>
    have hx : f (if p x = true then g x else x) = f x := by split <;> simp [h]
    simp only [updateBy, List.map_cons, findBy, hx]
    cases hf : f x with
    | true => simp
    | false => simpa [updateBy] using ih

theorem findBy_some {f : α → Bool} {l : List α} {x : α} (h : findBy f l = some x) : f x = true ∧ x ∈ l := by
  induction l with
  | nil => simp [findBy] at h
  | cons y r ih =>
    simp only [findBy] at h
    split at h
    · cases h; simp_all
    · obtain ⟨h1, h2⟩ := ih h; exact ⟨h1, by simp [h2]⟩

theorem findBy_map {f : α → Bool} {g : α → β} {p : β → Bool} (l : List α) (h : ∀ x, p (g x) = f x) :
    findBy p (l.map g) = (findBy f l).map g := by
  induction l with
  | nil => rfl
  | cons x r ih => simp only [List.map_cons, findBy, h]; split <;> simp [ih]

theorem findBy_filter_not {f p : α → Bool} (l : List α) (h : ∀ x, f x = true → p x = false) : findBy f (l.filter p) = none := by
  induction l with
  | nil => rfl
  | cons x r ih =>
    cases hp : p x with
    | true =>
      have : f x = false := by cases hf : f x with | true => simp [h x hf] at hp | false => rfl
      simp [hp, findBy, this, ih]
    | false => simp [hp, ih]

/-! ### Registers -/

theorem regKey_inj {r q l k : Nat} (hl : l < 32) (hk : k < 32) : regKey r l = regKey q k ↔ r = q ∧ l = k := by
  unfold regKey; omega

theorem Warp.reg_setReg (w : Warp) {r l q k : Nat} (v : Word) (hl : l < 32) (hk : k < 32) :
    (w.setReg r l v).reg q k = if r = q ∧ l = k then v else w.reg q k := by
  unfold Warp.reg Warp.setReg
  rw [smGet_smSet]
  simp only [regKey_inj hl hk]

theorem Warp.reg_setLanes (w : Warp) {r q k : Nat} (ls : List Nat) (f : Nat → Word) (hl : ∀ l ∈ ls, l < 32) (hk : k < 32) :
    (w.setLanes r ls f).reg q k = if r = q ∧ k ∈ ls then f k else w.reg q k := by
  unfold Warp.setLanes
  induction ls generalizing w with
  | nil => simp
  | cons l rest ih =>
    rw [List.foldl_cons, ih _ fun x hx => hl x (by simp [hx]), Warp.reg_setReg _ _ (hl l (by simp)) hk]
    by_cases h1 : r = q
    · by_cases h2 : k ∈ rest
      · simp [h1, h2]
      · by_cases h3 : l = k
        · subst h3; simp [h1, h2]
        · have : ¬ k = l := fun h => h3 h.symm
          simp [h1, h2, h3, this]
    · simp [h1]

theorem Warp.setLanes_rest (w : Warp) (r : Nat) (ls : List Nat) (f : Nat → Word) :
    ∃ regs poison, w.setLanes r ls f = { w with regs := regs, poison := poison } := by
  unfold Warp.setLanes
  induction ls generalizing w with
  | nil => exact ⟨w.regs, w.poison, rfl⟩
  | cons l rest ih =>
    obtain ⟨a, b, h⟩ := ih (w.setReg r l (f l))
    exact ⟨a, b, by rw [List.foldl_cons, h]; rfl⟩

theorem Writes.of_cons (p : Nat × (Nat → Word)) (ws : Writes) (r : Nat) :
    Writes.of (p :: ws) r = match Writes.of ws r with | some f => some f | none => if p.1 = r then some p.2 else none := by
  have key : ∀ (o : Option (Nat → Word)), List.foldl (fun o p => if p.1 = r then some p.2 else o) o ws
      = match Writes.of ws r with | some f => some f | none => o := by
    induction ws with
    | nil => intro o; simp [Writes.of]
    | cons q t ih =>
      intro o
      simp only [List.foldl_cons, Writes.of]
      rw [ih (if q.1 = r then some q.2 else o), ih (if q.1 = r then some q.2 else none)]
      cases Writes.of t r <;> simp
      split <;> rfl
  simp only [Writes.of, List.foldl_cons]
  exact key _

theorem Warp.reg_setAll (w : Warp) (ls : List Nat) (ws : Writes) (q k : Nat) (hl : ∀ l ∈ ls, l < 32) (hk : k < 32) :
    (w.setAll ls ws).reg q k = match Writes.of ws q with
      | some f => if k ∈ ls then f k else w.reg q k
      | none => w.reg q k := by
  unfold Warp.setAll
  induction ws generalizing w with
  | nil => simp [Writes.of]
  | cons p t ih =>
    rw [List.foldl_cons, ih, Writes.of_cons, Warp.reg_setLanes _ _ _ hl hk]
    cases Writes.of t q with
    | some f => by_cases h : k ∈ ls <;> simp [h]
    | none => by_cases h : p.1 = q <;> by_cases h' : k ∈ ls <;> simp [h, h']

theorem Warp.setAll_rest (w : Warp) (ls : List Nat) (ws : Writes) :
    ∃ regs poison, w.setAll ls ws = { w with regs := regs, poison := poison } := by
  unfold Warp.setAll
  induction ws generalizing w with
  | nil => exact ⟨w.regs, w.poison, rfl⟩
  | cons p t ih =>
    obtain ⟨a, b, h⟩ := Warp.setLanes_rest w p.1 ls p.2
    obtain ⟨a', b', h'⟩ := ih (w.setLanes p.1 ls p.2)
    refine ⟨a', b', ?_⟩
    rw [List.foldl_cons, h', h]

theorem Writes.of_map (ws : Writes) (g : (Nat → Word) → Nat → Word) (r : Nat) :
    Writes.of (ws.map fun p => (p.1, g p.2)) r = (Writes.of ws r).map g := by
  induction ws with
  | nil => rfl
  | cons p t ih =>
    rw [List.map_cons, Writes.of_cons, Writes.of_cons, ih]
    cases Writes.of t r with
    | some f => rfl
    | none => by_cases h : p.1 = r <;> simp [h]

theorem lanesOf_lt (m : Word) : ∀ l ∈ lanesOf m, l < 32 := by
  intro l h; simpa using (List.mem_filter.mp h).1

theorem Ctx.act_lt (c : Ctx) (m : Option Modifier) : ∀ l ∈ c.act m, l < 32 :=
  fun l h => lanesOf_lt _ l (List.mem_filter.mp h).1

/-! ### Who issues -/

/-- What a live issuer is: its group, its warp, and its split or its closure's stand-in. -/
theorem issuer_cases {s : State} {c : Ctx} (h : issuer? s = some c) :
    s.cur = some c.cur ∧ s.group? c.cur.gid = some c.grp ∧ c.grp.warp? c.cur.widx = some c.warp ∧
    ((∃ k x, c.cur.clo = some k ∧ c.warp.closure? k = some x) ∨
      (c.cur.clo = none ∧ c.warp.split? c.cur.split = some c.split)) := by
  unfold issuer? at h
  repeat' split at h
  all_goals first
    | (cases h; exact ⟨by assumption, by assumption, by assumption, .inl ⟨_, _, by assumption, by assumption⟩⟩)
    | (cases h; exact ⟨by assumption, by assumption, by assumption, .inr ⟨by assumption, by assumption⟩⟩)
    | cases h

/-! ### Changing one warp -/

theorem State.group?_updGroup (s : State) (gid : Nat) (f : Group → Group) (hf : ∀ g, (f g).gid = g.gid) (i : Nat) :
    (s.updGroup gid f).group? i = (s.group? i).map fun g => if g.gid = gid then f g else g := by
  unfold State.group? State.updGroup
  rw [findBy_updateBy _ fun x => by simp [hf]]
  simp

theorem Group.warp?_updWarp (g : Group) (w : Nat) (f : Warp → Warp) (hf : ∀ x, (f x).idx = x.idx) (i : Nat) :
    (g.updWarp w f).warp? i = (g.warp? i).map fun x => if x.idx = w then f x else x := by
  unfold Group.warp? Group.updWarp
  rw [findBy_updateBy _ fun x => by simp [hf]]
  simp

theorem State.group?_gid {s : State} {i : Nat} {g : Group} (h : s.group? i = some g) : g.gid = i := by
  simpa using (findBy_some h).1

theorem Group.warp?_idx {g : Group} {i : Nat} {w : Warp} (h : g.warp? i = some w) : w.idx = i := by
  simpa using (findBy_some h).1

/-- A state that changes one warp, and its `cur`, changes nothing else. -/
theorem onlyWarp_updWarp {s : State} {gid widx : Nat} {g : Group} {w : Warp} (f : Warp → Warp)
    (hf : ∀ x, (f x).idx = x.idx) (hg : s.group? gid = some g) (hw : g.warp? widx = some w) :
    OnlyWarp s { s.updWarp gid widx f with cur := none } gid widx (f w) where
  mine := by
    show ((s.updGroup gid _).group? gid).bind _ = _
    rw [State.group?_updGroup s gid (fun g => g.updWarp widx f) (fun _ => rfl), hg]
    simp only [Option.map_some, Option.bind_some, State.group?_gid hg, if_true]
    rw [Group.warp?_updWarp _ _ _ hf, hw]
    simp [Group.warp?_idx hw]
  others := by
    intro a b hne
    show ((s.updGroup gid _).group? a).bind _ = (s.group? a).bind _
    rw [State.group?_updGroup s gid (fun g => g.updWarp widx f) (fun _ => rfl)]
    cases ha : s.group? a with
    | none => rfl
    | some y =>
      have := State.group?_gid ha
      simp only [Option.map_some, Option.bind_some]
      by_cases hy : y.gid = gid
      · simp only [hy, if_true]
        rw [Group.warp?_updWarp _ _ _ hf]
        cases hb : y.warp? b with
        | none => rfl
        | some z =>
          have := Group.warp?_idx hb
          have : ¬ z.idx = widx := fun h => hne ⟨by omega, by omega⟩
          simp [this]
      · simp [hy]
  groups := by
    show (updateBy _ _ s.groups).map _ = _
    unfold updateBy
    rw [List.map_map]
    apply List.map_congr_left
    intro x _
    simp only [Function.comp]
    split <;> rfl
  rest := rfl
  idle := rfl

/-! ### Completing -/

theorem Warp.split?_updSplit (w : Warp) (n : Nat) (f : Split → Split) (hf : ∀ x, (f x).num = x.num) :
    (w.updSplit n f).split? n = (w.split? n).map f := by
  unfold Warp.split? Warp.updSplit
  rw [findBy_updateBy _ fun x => by simp [hf]]
  cases h : findBy (fun x => x.num == n) w.splits with
  | none => rfl
  | some x =>
    have : x.num = n := by simpa using (findBy_some h).1
    simp [this]

theorem Warp.makeRunnable_rest (w : Warp) (k : Nat) : ∃ cs n, w.makeRunnable k = { w with closures := cs, nextLs := n } :=
  ⟨_, _, rfl⟩

theorem Warp.wakes_rest (w : Warp) (keys : List Nat) : ∃ cs n, w.wakes keys = { w with closures := cs, nextLs := n } := by
  unfold Warp.wakes
  dsimp only
  generalize (w.closures.filter _) = ready
  suffices ∀ (v : Warp), (∃ cs n, v = { w with closures := cs, nextLs := n }) →
      ∃ cs n, ready.foldl (fun w c => w.makeRunnable c.idx) v = { w with closures := cs, nextLs := n } by
    exact this _ ⟨_, w.nextLs, rfl⟩
  induction ready with
  | nil => exact fun v h => h
  | cons c r ih =>
    rintro v ⟨cs, n, rfl⟩
    exact ih _ ⟨_, _, rfl⟩

theorem Warp.closureIdx_makeRunnable (w : Warp) (k : Nat) :
    ((w.makeRunnable k).closures.map fun c => c.idx) = w.closures.map fun c => c.idx := by
  unfold Warp.makeRunnable updateBy
  rw [List.map_map]
  apply List.map_congr_left
  intro x _
  simp only [Function.comp]
  split <;> rfl

theorem Warp.closureIdx_wakes (w : Warp) (keys : List Nat) :
    ((w.wakes keys).closures.map fun c => c.idx) = w.closures.map fun c => c.idx := by
  unfold Warp.wakes
  dsimp only
  generalize (w.closures.filter _) = ready
  suffices ∀ (v : Warp), (v.closures.map fun c => c.idx) = (w.closures.map fun c => c.idx) →
      ((ready.foldl (fun w c => w.makeRunnable c.idx) v).closures.map fun c => c.idx) = w.closures.map fun c => c.idx by
    apply this
    rw [List.map_map]
    rfl
  induction ready with
  | nil => exact fun v h => h
  | cons c r ih => exact fun v h => ih _ ((Warp.closureIdx_makeRunnable _ _).trans h)

theorem Warp.wake_rest (w : Warp) (key : Nat) : ∃ cs n, w.wake key = { w with closures := cs, nextLs := n } := w.wakes_rest [key]

theorem Warp.closureIdx_wake (w : Warp) (key : Nat) :
    ((w.wake key).closures.map fun c => c.idx) = w.closures.map fun c => c.idx := w.closureIdx_wakes [key]

theorem findBy_none_of_map {f : α → Bool} {g : α → β} {p : β → Bool} {l : List α} (h : ∀ x, p (g x) = f x)
    (hn : ∀ y ∈ l.map g, p y = false) : findBy f l = none := by
  induction l with
  | nil => rfl
  | cons x r ih =>
    have hx : f x = false := by rw [← h]; exact hn _ (by simp)
    simp only [findBy, hx]
    exact ih fun y hy => hn y (by simp only [List.map_cons, List.mem_cons]; exact .inr hy)

/-- A closure that has run is free, and of the rest of the warp only pending values, a yield and other closures' waits
change. -/
theorem Warp.endClosure_spec (w : Warp) (k : Nat) :
    (w.endClosure k false).closure? k = none ∧
    ∃ cs n ps y, w.endClosure k false = { w with closures := cs, nextLs := n, pend := ps, yld := y } := by
  unfold Warp.endClosure
  cases hk : w.closure? k with
  | none => exact ⟨hk, w.closures, w.nextLs, w.pend, w.yld, rfl⟩
  | some c =>
    simp only [Bool.false_eq_true, if_false]
    have base : ∀ (v : Warp), (v.closures.map fun c => c.idx) = ((w.closures.filter fun x => x.idx != k).map fun c => c.idx) →
        v.closure? k = none := by
      intro v hv
      refine findBy_none_of_map (g := fun (c : Closure) => c.idx) (p := fun i => i == k) (fun x => rfl) ?_
      rw [hv]
      intro y hy
      obtain ⟨x, hx, rfl⟩ := List.mem_map.mp hy
      simpa using (List.mem_filter.mp hx).2
    constructor
    · apply base
      rw [Warp.closureIdx_wakes]
      rfl
    · obtain ⟨a, b, h⟩ := Warp.wakes_rest (Warp.unpend { w with closures := w.closures.filter fun x => x.idx != k } [c.did])
        [c.id, c.did]
      exact ⟨a, b, _, _, h⟩

theorem Ctx.complete_idx (c : Ctx) (m : Option Modifier) (t : Bool) (ws : Writes) (fl : Flags) (w : Warp) :
    (c.complete m t ws fl w).idx = w.idx := by
  have hw : ∀ v : Warp, (c.write m t ws v).idx = v.idx := by
    intro v
    unfold Ctx.write
    split
    · rfl
    · obtain ⟨a, b, h⟩ := Warp.setAll_rest v (c.act m) (ws.map fun p => (p.1, fun l => p.2 (c.src m l)))
      rw [h]
  unfold Ctx.complete
  split
  · exact hw _
  · next k _ =>
    obtain ⟨cs, n, ps, y, h⟩ := (Warp.endClosure_spec
      { c.write m t ws w with fflags := (c.write m t ws w).fflags ||| fl.setWidth 32 } k).2
    simp only
    rw [h]
    exact hw _

theorem Writes.of_mem {ws : Writes} {r : Nat} {f : Nat → Word} (h : Writes.of ws r = some f) : (r, f) ∈ ws := by
  induction ws with
  | nil => simp [Writes.of] at h
  | cons p t ih =>
    rw [Writes.of_cons] at h
    cases ht : Writes.of t r with
    | some g => rw [ht] at h; cases h; simp [ih ht]
    | none =>
      rw [ht] at h
      simp only at h
      split at h
      · next hp => cases h; simp [← hp]
      · cases h

theorem lanes32_getD (f : Nat → Word) {l : Nat} (h : l < 32) : (lanes32 f).getD l 0 = f l := by
  simp [lanes32, List.getD, h]

/-- What `complete` leaves of the issuing warp. -/
theorem Ctx.completed {s : State} {c : Ctx} (h : issuer? s = some c) (m : Option Modifier) (t : Bool) (ws : Writes) (fl : Flags) :
    Completed c m t ws fl (c.complete m t ws fl c.warp) := by
  obtain ⟨-, -, -, hk | ⟨hk, hsp⟩⟩ := issuer_cases h
  · obtain ⟨k, x, hk, hx⟩ := hk
    have hst : c.streamed = false := by simp [Ctx.streamed, hk]
    have hc : c.complete m t ws fl c.warp =
        ({ c.write m t ws c.warp with fflags := (c.write m t ws c.warp).fflags ||| fl.setWidth 32 } : Warp).endClosure k false := by
      simp only [Ctx.complete, hk]
    have hwr : c.write m t ws c.warp = c.warp.setAll (c.act m) (ws.map fun p => (p.1, fun l => p.2 (c.src m l))) := by
      simp [Ctx.write, hst]
    obtain ⟨hfree, cs, n, ps, y, he⟩ := Warp.endClosure_spec
      { c.write m t ws c.warp with fflags := (c.write m t ws c.warp).fflags ||| fl.setWidth 32 } k
    obtain ⟨a, b, hr⟩ := Warp.setAll_rest c.warp (c.act m) (ws.map fun p => (p.1, fun l => p.2 (c.src m l)))
    constructor
    · intro r l hl
      rw [hc, he]
      show (c.write m t ws c.warp).reg r l = _
      rw [hwr, Warp.reg_setAll _ _ _ _ _ (c.act_lt m) hl, Writes.of_map _ (fun f l => f (c.src m l))]
      simp only [hst, Bool.and_false, Bool.false_eq_true, if_false, Ctx.result]
      cases Writes.of ws r <;> simp
    · intro _ h2; simp [hst] at h2
    · rw [hc, he]
      show (c.write m t ws c.warp).fflags ||| _ = _
      rw [hwr, hr]
    · intro h2; simp [hst] at h2
    · intro k' hk'
      rw [hk] at hk'; cases hk'
      rw [hc]; exact hfree
    · intro h2; simp [hst] at h2
    · intro _
      rw [hc, he, hwr, hr]
  · have hst : c.streamed = true := by simp [Ctx.streamed, hk]
    have hc : c.complete m t ws fl c.warp =
        { c.write m t ws (c.advance c.warp) with fflags := (c.write m t ws (c.advance c.warp)).fflags ||| fl.setWidth 32 } := by
      simp only [Ctx.complete, hk]
    have hadv : (c.advance c.warp).split? c.cur.split = some { c.split.tick with pc := c.next } := by
      unfold Ctx.advance; rw [Warp.split?_updSplit, hsp]
      · rfl
      · intro _; rfl
    cases t with
    | true =>
      have hwr : c.write m true ws (c.advance c.warp) = (c.advance c.warp).updSplit c.cur.split fun sp =>
          { sp with bypass := (sp.bypass.filter fun b => !(ws.any fun p => p.1 == b.reg)) ++ c.transient m ws } := by
        simp [Ctx.write, hst]
      have hs2 : (c.complete m true ws fl c.warp).split? c.cur.split = some
          { c.split.tick with pc := c.next, bypass := (c.split.tick.bypass.filter fun b => !(ws.any fun p => p.1 == b.reg)) ++ c.transient m ws } := by
        rw [hc, hwr]
        show (Warp.updSplit _ _ _).split? _ = _
        rw [Warp.split?_updSplit, hadv]
        · rfl
        · intro _; rfl
      constructor
      · intro r l hl
        simp only [hst, Bool.and_self, if_true]
        rw [hc, hwr]; rfl
      · intro _ _ r f hf
        refine ⟨_, _, hs2, List.mem_append_right _ (List.mem_map.mpr ⟨(r, f), Writes.of_mem hf, rfl⟩), rfl, rfl, ?_⟩
        intro l hl
        exact lanes32_getD (fun l => if (c.act m).contains l = true then f (c.src m l) else c.reg r l) hl
      · rw [hc, hwr]; rfl
      · intro _; exact ⟨_, hs2, rfl, rfl, rfl⟩
      · intro k hk'; simp [hk] at hk'
      · intro _; rw [hc, hwr]; rfl
      · intro h2; simp [hst] at h2
    | false =>
      have hwr : c.write m false ws (c.advance c.warp) =
          (c.advance c.warp).setAll (c.act m) (ws.map fun p => (p.1, fun l => p.2 (c.src m l))) := by simp [Ctx.write]
      obtain ⟨a, b, hr⟩ := Warp.setAll_rest (c.advance c.warp) (c.act m) (ws.map fun p => (p.1, fun l => p.2 (c.src m l)))
      constructor
      · intro r l hl
        rw [hc]
        show (c.write m false ws (c.advance c.warp)).reg r l = _
        rw [hwr, Warp.reg_setAll _ _ _ _ _ (c.act_lt m) hl, Writes.of_map _ (fun f l => f (c.src m l))]
        simp only [Bool.false_and, Bool.false_eq_true, if_false, Ctx.result]
        cases Writes.of ws r <;> simp <;> rfl
      · intro h2; cases h2
      · rw [hc]
        show (c.write m false ws (c.advance c.warp)).fflags ||| _ = _
        rw [hwr, hr]; rfl
      · intro _
        refine ⟨{ c.split.tick with pc := c.next }, ?_, rfl, rfl, rfl⟩
        rw [hc, hwr, hr]; exact hadv
      · intro k hk'; simp [hk] at hk'
      · intro _; rw [hc, hwr, hr]; rfl
      · intro h2; simp [hst] at h2

/-- `finish` without a trap of an enabled flag completes the instruction and changes nothing else. -/
theorem finish_done {s : State} {c : Ctx} (h : issuer? s = some c) (m : Option Modifier) (t : Bool) (ws : Writes) (fl : Flags)
    (q : c.quiet fl) : Done s (finish s c m t ws fl) c m t ws fl := by
  obtain ⟨-, hg, hw, -⟩ := issuer_cases h
  have hf : finish s c m t ws fl = { s.updWarp c.cur.gid c.cur.widx (c.complete m t ws fl) with cur := none } := by
    unfold finish
    rcases q with q | q <;> simp [q]
  exact ⟨_, hf ▸ onlyWarp_updWarp _ (Ctx.complete_idx c m t ws fl) hg hw, Ctx.completed h m t ws fl⟩

theorem Ctx.quiet_flag0 (c : Ctx) : c.quiet flag0 := .inl (by simp [Ctx.enabled, flag0])

/-- An instruction that issues runs its meaning. -/
theorem issue_eq {s : State} {i : Instr} {c : Ctx} (h : Issues s i c) (k : Ctx → Host.Outcome State Fault Refusal) :
    issue s i k = k c := by
  unfold issue
  have : (i.privileged && !c.grp.kernel) = false := by
    cases hp : i.privileged with
    | false => rfl
    | true => simp [h.mode hp]
  simp [h.who, h.target, this, h.inside, h.sound]

/-- An instruction that branches nowhere and spawns nothing has no target to check. -/
theorem State.earlyTarget_none (s : State) {c : Ctx} {i : Instr} (h : c.goesTo i = []) (hb : c.badEntry i = none) :
    s.earlyTarget c i = none := by
  unfold State.earlyTarget
  rw [h]
  exact hb

end Sys2Proof.Machine
end

