-- ==== Sys2Proof/Laws/Memory.lean ====
section
/-! SUPPORT. Laws of the memories: every operation that writes one keeps its canonical form, and what a read gives after
a write. -/

namespace Sys2Proof.Machine

/-! ### Reads after writes -/

theorem lastWrite_cons (a b : Nat) (x : Byte) (ws : List (Nat × Byte)) :
    lastWrite ((a, x) :: ws) b = (lastWrite ws b).or (if a = b then some x else none) := by
  have key : ∀ (l : List (Nat × Byte)) (r : Option Byte),
      l.foldl (fun r p => if p.1 = b then some p.2 else r) r = (lastWrite l b).or r := by
    intro l
    induction l with
    | nil => intro r; simp [lastWrite]
    | cons p t ih =>
      intro r
      simp only [lastWrite, List.foldl_cons]
      rw [ih, ih (if p.1 = b then some p.2 else none)]
      split <;> cases lastWrite t b <;> simp
  simp only [lastWrite, List.foldl_cons]
  rw [key]
  rfl

/-- After several writes a byte holds the last of them to its address, or what it held. -/
theorem smGet_smSets (ws m : List (Nat × Byte)) (b : Nat) :
    smGet 0 (smSets 0 m ws) b = (lastWrite ws b).getD (smGet 0 m b) := by
  induction ws generalizing m with
  | nil => simp [smSets, lastWrite]
  | cons p t ih =>
    obtain ⟨a, x⟩ := p
    rw [smSets, ih, lastWrite_cons, smGet_smSet]
    split <;> cases lastWrite t b <;> simp

/-! ### Lines and their keys (R314) -/

theorem lastWrite_putAt (bs : List Byte) (a b : Nat) : lastWrite (putAt a bs) b = if a ≤ b then bs[b - a]? else none := by
  induction bs generalizing a with
  | nil => simp [putAt, lastWrite]
  | cons x r ih =>
    rw [putAt, lastWrite_cons, ih]
    by_cases h : a = b
    · subst h; simp
    · by_cases hl : a ≤ b
      · rw [if_pos (by omega), if_pos hl, if_neg h, show b - a = (b - (a + 1)) + 1 by omega]
        simp
      · rw [if_neg (by omega), if_neg hl, if_neg h]
        rfl

theorem State.lineView_length (s : State) (m : List Host.Cell) (n : Nat) (v : Option (List Byte × List Byte)) :
    (s.lineView m n v).length = 128 := by
  unfold State.lineView
  split <;> simp

/-- The byte of a line under some keys, once a line is known under them. -/
def State.lineByte (s : State) (m : List Host.Cell) (v : Option (List Byte × List Byte)) (p : Nat) : Byte :=
  if s.sealOf (p / 128) = v then smGet 0 m p else (s.lineView m (p / 128) v).getD (p % 128) 0

theorem State.viewByte_eq (s : State) (m : List Host.Cell) (a : Nat) : s.viewByte m a = s.lineByte m (s.viewOf a) (rawAddr a) := rfl

/-- Writing a line anew changes that line alone. -/
theorem smGet_putLine (t : List Host.Cell) (n p : Nat) (bs : List Byte) (h : bs.length = 128) :
    smGet 0 (smSets 0 t (putAt (128 * n) bs)) p = if p / 128 = n then bs.getD (p % 128) 0 else smGet 0 t p := by
  rw [smGet_smSets, lastWrite_putAt]
  by_cases hp : p / 128 = n
  · rw [if_pos (by omega), if_pos hp, show p - 128 * n = p % 128 by omega, List.getElem?_eq_getElem (by omega),
      List.getD_eq_getElem?_getD, List.getElem?_eq_getElem (by omega)]
    rfl
  · rw [if_neg hp]
    by_cases hl : 128 * n ≤ p
    · rw [if_pos hl, List.getElem?_eq_none (by omega)]
      rfl
    · rw [if_neg hl]
      rfl

/-- The lines that some writes reach under one key are known under it afterwards, and every other line is as before. -/
theorem State.smGet_unsealed (s : State) (m : List Host.Cell) (ws : List (Nat × Byte)) (p : Nat) (v : Option (List Byte × List Byte))
    (hv : ∀ w ∈ ws, rawAddr w.1 / 128 = p / 128 → s.viewOf w.1 = v) :
    smGet 0 (s.unsealed m ws) p = if ∃ w ∈ ws, rawAddr w.1 / 128 = p / 128 then s.lineByte m v p else smGet 0 m p := by
  have key : ∀ (l : List (Nat × Byte)) (t : List Host.Cell), (∀ w ∈ l, rawAddr w.1 / 128 = p / 128 → s.viewOf w.1 = v) →
      (smGet 0 t p = smGet 0 m p ∨ smGet 0 t p = s.lineByte m v p) →
      smGet 0 (l.foldl (fun t w => if s.sealOf (rawAddr w.1 / 128) = s.viewOf w.1 then t
        else smSets 0 t (putAt (128 * (rawAddr w.1 / 128)) (s.lineView m (rawAddr w.1 / 128) (s.viewOf w.1)))) t) p
        = if ∃ w ∈ l, rawAddr w.1 / 128 = p / 128 then s.lineByte m v p else smGet 0 t p := by
    intro l
    induction l with
    | nil => intro t _ _; simp
    | cons w r ih =>
      intro t hl ht
      have hw := hl w (by simp)
      have hr : ∀ u ∈ r, rawAddr u.1 / 128 = p / 128 → s.viewOf u.1 = v := fun u hu => hl u (by simp [hu])
      rw [List.foldl_cons]
      by_cases hn : rawAddr w.1 / 128 = p / 128
      · have hvw := hw hn
        have hex : ∃ u ∈ w :: r, rawAddr u.1 / 128 = p / 128 := ⟨w, by simp, hn⟩
        rw [if_pos hex]
        by_cases hs : s.sealOf (rawAddr w.1 / 128) = s.viewOf w.1
        · have hb : s.lineByte m v p = smGet 0 m p := by rw [State.lineByte, if_pos (by rw [← hn, hs, hvw])]
          rw [if_pos hs, ih t hr ht]
          split
          · rfl
          · rcases ht with h | h <;> rw [h]
            exact hb.symm
        · have hb : smGet 0 (smSets 0 t (putAt (128 * (rawAddr w.1 / 128)) (s.lineView m (rawAddr w.1 / 128) (s.viewOf w.1)))) p
              = s.lineByte m v p := by
            rw [smGet_putLine _ _ _ _ (s.lineView_length _ _ _), if_pos hn.symm, State.lineByte,
              if_neg (by rw [← hn, ← hvw]; exact hs), hn, hvw]
          rw [if_neg hs, ih _ hr (.inr hb)]
          split
          · rfl
          · exact hb
      · have hex : (∃ u ∈ w :: r, rawAddr u.1 / 128 = p / 128) ↔ ∃ u ∈ r, rawAddr u.1 / 128 = p / 128 := by simp [hn]
        simp only [hex]
        split
        · exact ih t hr ht
        · have hb : smGet 0 (smSets 0 t (putAt (128 * (rawAddr w.1 / 128)) (s.lineView m (rawAddr w.1 / 128) (s.viewOf w.1)))) p
              = smGet 0 t p := by
            rw [smGet_putLine _ _ _ _ (s.lineView_length _ _ _), if_neg (fun h => hn h.symm)]
          rw [ih _ hr (by rw [hb]; exact ht), hb]
  exact key ws m hv (.inl rfl)

theorem State.sealOf_writeHome (s : State) (ws : List (Nat × Byte)) (n : Nat) (v : Option (List Byte × List Byte))
    (hv : ∀ w ∈ ws, rawAddr w.1 / 128 = n → s.viewOf w.1 = v) :
    (s.writeHome ws).sealOf n = if ∃ w ∈ ws, rawAddr w.1 / 128 = n then v else s.sealOf n := by
  have key : ∀ (l : List (Nat × Byte)) (t : List (Nat × Option (List Byte × List Byte))),
      (∀ w ∈ l, rawAddr w.1 / 128 = n → s.viewOf w.1 = v) →
      smGet none (l.foldl (fun l w => smSet none l (rawAddr w.1 / 128) (s.viewOf w.1)) t) n
        = if ∃ w ∈ l, rawAddr w.1 / 128 = n then v else smGet none t n := by
    intro l
    induction l with
    | nil => intro t _; simp
    | cons w r ih =>
      intro t hl
      rw [List.foldl_cons, ih _ (fun u hu => hl u (by simp [hu])), smGet_smSet]
      by_cases hn : rawAddr w.1 / 128 = n
      · have := hl w (by simp) hn
        simp [hn, this]
      · have hex : (∃ u ∈ w :: r, rawAddr u.1 / 128 = n) ↔ ∃ u ∈ r, rawAddr u.1 / 128 = n := by simp [hn]
        simp only [hex, if_neg hn]
  exact key ws s.seals hv

/-- After a write of home copies each byte reads as the last write to it, or as before, where the writes to its line are
made under the key of the reader (R138, R314). -/
theorem State.home_writeHome (s : State) (ws : List (Nat × Byte)) (a : Nat)
    (hv : ∀ w ∈ ws, rawAddr w.1 / 128 = rawAddr a / 128 → s.viewOf w.1 = s.viewOf a) :
    (s.writeHome ws).home a = (lastWrite (rawWrites ws) (rawAddr a)).getD (s.home a) := by
  have hview : (s.writeHome ws).viewOf a = s.viewOf a := rfl
  have hmem : ∀ p, smGet 0 (s.writeHome ws).mem p = (lastWrite (rawWrites ws) p).getD (smGet 0 (s.unsealed s.mem ws) p) :=
    fun p => smGet_smSets (rawWrites ws) _ p
  have hun := fun p hp => s.smGet_unsealed s.mem ws p (s.viewOf a) hp
  have hseal := s.sealOf_writeHome ws (rawAddr a / 128) (s.viewOf a) hv
  by_cases ht : ∃ w ∈ ws, rawAddr w.1 / 128 = rawAddr a / 128
  · rw [if_pos ht] at hseal
    rw [State.home, State.viewByte_eq, State.lineByte, if_pos (by rw [hseal, hview]), hmem, hun _ hv, if_pos ht, State.home,
      State.viewByte_eq]
  · rw [if_neg ht] at hseal
    have hno : ∀ p, p / 128 = rawAddr a / 128 → lastWrite (rawWrites ws) p = none := by
      intro p hp
      have : ∀ w ∈ rawWrites ws, w.1 ≠ p := by
        intro w hw h
        simp only [rawWrites, List.mem_map] at hw
        obtain ⟨u, hu, rfl⟩ := hw
        exact ht ⟨u, hu, by rw [← hp, ← h]⟩
      clear hmem
      revert this
      generalize rawWrites ws = l
      intro this
      induction l with
      | nil => rfl
      | cons w r ih =>
        obtain ⟨x, y⟩ := w
        rw [lastWrite_cons, ih (fun u hu => this u (by simp [hu])), if_neg (this (x, y) (by simp))]
        rfl
    have hsame : ∀ p, p / 128 = rawAddr a / 128 → smGet 0 (s.writeHome ws).mem p = smGet 0 s.mem p := by
      intro p hp
      rw [hmem, hno p hp, Option.getD_none, hun p (by rw [hp]; exact hv), if_neg (by rw [hp]; exact ht)]
    rw [hno _ rfl, Option.getD_none, State.home, State.home, State.viewByte_eq, State.viewByte_eq, hview, State.lineByte,
      State.lineByte, hseal, hsame _ rfl]
    split
    · rfl
    · have hl : (s.writeHome ws).lineView (s.writeHome ws).mem (rawAddr a / 128) (s.viewOf a)
          = s.lineView s.mem (rawAddr a / 128) (s.viewOf a) := by
        have hb : (List.range 128).map (fun i => smGet (0 : Byte) (s.writeHome ws).mem (128 * (rawAddr a / 128) + i))
            = (List.range 128).map fun i => smGet 0 s.mem (128 * (rawAddr a / 128) + i) := by
          apply List.map_congr_left
          intro i hi
          exact hsame _ (by have := List.mem_range.1 hi; omega)
        simp only [State.lineView, hseal, hb]
      rw [hl]

theorem State.home_writeRaw (s : State) (ws : List (Nat × Byte)) (a : Nat)
    (hv : ∀ w ∈ ws, rawAddr w.1 / 128 = rawAddr a / 128 → s.viewOf w.1 = s.viewOf a) :
    (s.writeRaw ws).home a = (lastWrite (rawWrites ws) (rawAddr a)).getD (s.home a) := s.home_writeHome ws a hv

/-- A landing writes the home copies of this module's memory, and none of a peer window. -/
theorem State.home_addLanding (s : State) (c lo hi part num : Nat) (ws : List (Nat × Byte)) (a : Nat)
    (hv : ∀ w ∈ ws, rawAddr w.1 / 128 = rawAddr a / 128 → s.viewOf w.1 = s.viewOf a) :
    (s.addLanding c lo hi part num ws).home a
      = (lastWrite (rawWrites (ws.filter fun w => !isPeer w.1)) (rawAddr a)).getD (s.home a) :=
  s.home_writeHome _ a fun w hw => hv w (List.mem_of_mem_filter hw)

theorem State.home_engineWrite (s : State) (c : Nat) (ws : List (Nat × Byte)) (a : Nat)
    (hv : ∀ w ∈ ws, rawAddr w.1 / 128 = rawAddr a / 128 → s.viewOf w.1 = s.viewOf a) :
    (s.engineWrite c ws).home a
      = (lastWrite (rawWrites (ws.filter fun w => !isPeer w.1)) (rawAddr a)).getD (s.home a) :=
  s.home_addLanding c 0 1023 0xFF 0 ws a hv

/-! ### The canonical form of physical memory -/

theorem Memory.wf_smSets (ws m : List (Nat × Byte)) (h : Memory.wf m = true) : Memory.wf (smSets 0 m ws) = true :=
  smWf_smSets 0 ws m h

theorem Memory.wf_filter (m : List Host.Cell) (f : Host.Cell → Bool) (h : Memory.wf m = true) : Memory.wf (m.filter f) = true :=
  smWf_filter 0 m f h

theorem State.wf_unsealed (s : State) (m : List Host.Cell) (ws : List (Nat × Byte)) (h : Memory.wf m = true) :
    Memory.wf (s.unsealed m ws) = true := by
  have key : ∀ (l : List (Nat × Byte)) (t : List Host.Cell), Memory.wf t = true →
      Memory.wf (l.foldl (fun t w => if s.sealOf (rawAddr w.1 / 128) = s.viewOf w.1 then t
        else smSets 0 t (putAt (128 * (rawAddr w.1 / 128)) (s.lineView m (rawAddr w.1 / 128) (s.viewOf w.1)))) t) = true := by
    intro l
    induction l with
    | nil => intro t ht; exact ht
    | cons w r ih =>
      intro t ht
      rw [List.foldl_cons]
      split
      · exact ih t ht
      · exact ih _ (Memory.wf_smSets _ _ ht)
  exact key ws m h

theorem State.memWf_iff (s : State) : s.memWf = true ↔ Memory.wf s.mem = true ∧ Memory.wf s.base = true := by
  simp [State.memWf]

theorem State.memWf_writeHome (s : State) (ws : List (Nat × Byte)) (h : s.memWf = true) : (s.writeHome ws).memWf = true := by
  rw [State.memWf_iff] at h ⊢
  exact ⟨Memory.wf_smSets _ _ (s.wf_unsealed _ ws h.1), s.wf_unsealed _ ws h.2⟩

theorem State.memWf_writeRaw (s : State) (ws : List (Nat × Byte)) (h : s.memWf = true) : (s.writeRaw ws).memWf = true := by
  have := s.memWf_writeHome ws h
  rw [State.memWf_iff] at this ⊢
  exact ⟨this.1, Memory.wf_smSets _ _ this.2⟩

theorem State.memWf_clearRaw (s : State) (lo n : Nat) (h : s.memWf = true) : (s.clearRaw lo n).memWf = true := by
  rw [State.memWf_iff] at h ⊢
  exact ⟨Memory.wf_filter _ _ h.1, Memory.wf_filter _ _ h.2⟩

theorem State.memWf_addLanding (s : State) (c lo hi part num : Nat) (ws : List (Nat × Byte)) (h : s.memWf = true) :
    (s.addLanding c lo hi part num ws).memWf = true := s.memWf_writeHome _ h

theorem State.memWf_engineWrite (s : State) (c : Nat) (ws : List (Nat × Byte)) (h : s.memWf = true) :
    (s.engineWrite c ws).memWf = true := s.memWf_writeHome _ h

theorem State.memWf_landedWrite (s : State) (c part : Nat) (ws : List (Nat × Byte)) (h : s.memWf = true) :
    (s.landedWrite c part ws).memWf = true := s.memWf_addLanding c 0 1023 part s.nextLanding ws h

/-- Marks of poison are no memory. -/
theorem State.memWf_spoilFar (s : State) (ms : List (Nat × Word)) : (s.spoilFar ms).memWf = s.memWf := rfl

theorem State.memWf_landHead (s : State) (r : Release) (h : s.memWf = true) : (s.landHead r).memWf = true :=
  (State.memWf_spoilFar _ r.marks).trans (s.memWf_addLanding r.core r.lo r.hi r.part s.nextLanding r.writes h)

/-- A module reset keeps the contents of HBM, and the rest of memory is as unlisted. -/
theorem State.memWf_moduleReset (s : State) (h : s.memWf = true) : s.moduleReset.memWf = true := by
  rw [State.memWf_iff] at h ⊢
  exact ⟨Memory.wf_filter _ _ h.1, Memory.wf_filter _ _ h.1⟩

/-- Far stores, releases and acquires write no home copy: only a landing does (R139, R140). -/
theorem State.home_storeFar (s : State) (c gid asid part : Nat) (ws : List (Nat × Byte)) (bad : List Nat) :
    (s.storeFar c gid asid part ws bad).mem = s.mem ∧ (s.storeFar c gid asid part ws bad).base = s.base := ⟨rfl, rfl⟩

theorem State.home_release (s : State) (c : Nat) (dom : Nat × Nat) (part scope : Nat) (after : List After) :
    (s.release c dom part scope after).mem = s.mem ∧ (s.release c dom part scope after).base = s.base := ⟨rfl, rfl⟩

theorem State.home_acquire (s : State) (c : Nat) (dom : Nat × Nat) :
    (s.acquire c dom).mem = s.mem ∧ (s.acquire c dom).base = s.base := ⟨rfl, rfl⟩

/-! ### The canonical form of scratch -/

theorem Group.memWf_iff (g : Group) : g.memWf = true ↔ Memory.wf g.sMem = true ∧ Memory.wf g.nMem = true := by
  simp [Group.memWf]

/-- A change of a group that keeps its memories in form keeps every group's. -/
theorem State.scratchWf_updGroup (s : State) (gid : Nat) (f : Group → Group) (hf : ∀ g, g.memWf = true → (f g).memWf = true)
    (h : ∀ g ∈ s.groups, g.memWf = true) : ∀ g ∈ (s.updGroup gid f).groups, g.memWf = true := by
  intro g hg
  simp only [State.updGroup, updateBy, List.mem_map] at hg
  obtain ⟨x, hx, rfl⟩ := hg
  split
  · exact hf x (h x hx)
  · exact h x hx

/-- A store to scratch keeps the form of every group's memories. -/
theorem State.scratchWf_storeLocal (s : State) (l : Loc) (bs : List Byte) (h : ∀ g ∈ s.groups, g.memWf = true) :
    ∀ g ∈ (s.storeLocal l bs).groups, g.memWf = true := by
  cases l with
  | phys a => exact h
  | sram k a =>
    refine s.scratchWf_updGroup k _ (fun g hg => ?_) h
    rw [Group.memWf_iff] at hg ⊢
    exact ⟨Memory.wf_smSets _ _ hg.1, hg.2⟩
  | nram k a =>
    refine s.scratchWf_updGroup k _ (fun g hg => ?_) h
    rw [Group.memWf_iff] at hg ⊢
    exact ⟨hg.1, Memory.wf_smSets _ _ hg.2⟩

/-- A home engine's write to a place keeps the form of every memory. -/
theorem State.memWf_locWrite (s : State) (c : Nat) (l : Loc) (i : Nat) (bs : List Byte) (hs : s.memWf = true)
    (h : ∀ g ∈ s.groups, g.memWf = true) :
    (s.locWrite c l i bs).memWf = true ∧ ∀ g ∈ (s.locWrite c l i bs).groups, g.memWf = true := by
  cases l with
  | phys a => exact ⟨s.memWf_engineWrite c _ hs, h⟩
  | sram k a =>
    refine ⟨hs, s.scratchWf_updGroup k _ (fun g hg => ?_) h⟩
    rw [Group.memWf_iff] at hg ⊢
    exact ⟨Memory.wf_smSets _ _ hg.1, hg.2⟩
  | nram k a =>
    refine ⟨hs, s.scratchWf_updGroup k _ (fun g hg => ?_) h⟩
    rw [Group.memWf_iff] at hg ⊢
    exact ⟨hg.1, Memory.wf_smSets _ _ hg.2⟩

theorem smAbove_shift (m : List Host.Cell) (lo b : Nat) (hl : ∀ p ∈ m, lo ≤ p.1) (h : smAbove (0 : Byte) b m = true) :
    smAbove (0 : Byte) (b - lo) (m.map fun p => (p.1 - lo, p.2)) = true := by
  induction m generalizing b with
  | nil => rfl
  | cons p t ih =>
    obtain ⟨k, v⟩ := p
    simp only [smAbove, Bool.and_eq_true, decide_eq_true_eq, List.map_cons] at h ⊢
    have hk : lo ≤ k := hl (k, v) (by simp)
    have := ih (k + 1) (fun q hq => hl q (by simp [hq])) h.2
    exact ⟨⟨by omega, h.1.2⟩, by rwa [show k + 1 - lo = k - lo + 1 by omega] at this⟩

/-- The bytes of scratch that an image holds are a memory in canonical form (R281). -/
theorem State.wf_imageCells (s : State) (base n : Nat) (h : Memory.wf s.mem = true) : Memory.wf (s.imageCells base n) = true := by
  have hf := Memory.wf_filter s.mem (fun p => decide (base ≤ p.1) && decide (p.1 < base + n)) h
  have hl : ∀ p ∈ s.mem.filter (fun p => decide (base ≤ p.1) && decide (p.1 < base + n)), base ≤ p.1 := by
    intro p hp
    have := (List.mem_filter.1 hp).2
    simp only [Bool.and_eq_true, decide_eq_true_eq] at this
    exact this.1
  have := smAbove_shift _ base 0 hl hf
  simpa [Memory.wf, smWf, State.imageCells] using this

end Sys2Proof.Machine
end

