-- ==== Sys2Proof/Laws/Pending.lean ====
section
/-! SUPPORT. What the shared endings of an instruction do in a state that has already changed beside the issuing warp: a
completion, a start whose destinations land later, and the single-lane issue of the engines. -/

namespace Sys2Proof.Machine

/-- A closure whose destinations are still on their way is free, and of the rest of the warp only other closures' waits
change. -/
theorem Warp.endClosure_flying (w : Warp) (k : Nat) :
    (w.endClosure k true).closure? k = none ∧ ∃ cs n, w.endClosure k true = { w with closures := cs, nextLs := n } := by
  unfold Warp.endClosure
  cases hk : w.closure? k with
  | none => exact ⟨hk, w.closures, w.nextLs, rfl⟩
  | some c =>
    simp only [if_true]
    constructor
    · refine findBy_none_of_map (g := fun (c : Closure) => c.idx) (p := fun i => i == k) (fun x => rfl) ?_
      rw [Warp.closureIdx_wake]
      intro y hy
      obtain ⟨x, hx, rfl⟩ := List.mem_map.mp hy
      simpa using (List.mem_filter.mp hx).2
    · obtain ⟨a, b, h⟩ := Warp.wake_rest { w with closures := w.closures.filter fun x => x.idx != k } c.id
      exact ⟨a, b, h⟩

/-- `finish`, in a state that still holds the issuing warp as it issued. -/
theorem finish_done_at {s u : State} {c : Ctx} (h : issuer? s = some c) (hg : u.group? c.cur.gid = some c.grp)
    (m : Option Modifier) (t : Bool) (ws : Writes) (fl : Flags) (q : c.quiet fl) : Done u (finish u c m t ws fl) c m t ws fl := by
  obtain ⟨-, -, hw, -⟩ := issuer_cases h
  have hf : finish u c m t ws fl = { u.updWarp c.cur.gid c.cur.widx (c.complete m t ws fl) with cur := none } := by
    unfold finish
    rcases q with q | q <;> simp [q]
  exact ⟨_, hf ▸ onlyWarp_updWarp _ (Ctx.complete_idx c m t ws fl) hg hw, Ctx.completed h m t ws fl⟩

/-- `finishPending` marks the destinations, moves the split or frees the closure, and changes nothing else. -/
theorem finishPending_started {s u : State} {c : Ctx} (h : issuer? s = some c) (hg : u.group? c.cur.gid = some c.grp)
    (key : Nat) (event : Bool) (mask : Word) (rs : List Nat) :
    ∃ w, OnlyWarp u (finishPending u c key event mask rs) c.cur.gid c.cur.widx w ∧ Started c key event mask rs w := by
  obtain ⟨-, -, hw, hk | ⟨hk, hsp⟩⟩ := issuer_cases h
  · obtain ⟨k, x, hk, hx⟩ := hk
    have hst : c.streamed = false := by simp [Ctx.streamed, hk]
    let late := fun (v : Warp) =>
      rs.filter fun r => !(match v.closure? k with | some x => x.dregs | none => []).contains r
    have hf : finishPending u c key event mask rs
        = { u.updWarp c.cur.gid c.cur.widx (fun w => (w.endClosure k true).markPending key event mask (late w)) with cur := none } := by
      simp only [finishPending, hk, late] <;> rfl
    have hidx : ∀ v : Warp, ((v.endClosure k true).markPending key event mask (late v)).idx = v.idx := by
      intro v
      obtain ⟨cs, n, e⟩ := (Warp.endClosure_flying v k).2
      rw [e]
      rfl
    obtain ⟨hfree, cs, n, he⟩ := Warp.endClosure_flying c.warp k
    refine ⟨_, hf ▸ onlyWarp_updWarp _ hidx hg hw, ?_, ?_, ?_, ?_, ?_⟩
    · rw [he]; rfl
    · rw [he]; rfl
    · intro h2; simp [hst] at h2
    · intro h2; simp [hst] at h2
    · intro k' hk'
      rw [hk] at hk'
      cases hk'
      exact hfree
  · have hf : finishPending u c key event mask rs
        = { u.updWarp c.cur.gid c.cur.widx (fun w => (c.advance w).markPending key event mask rs) with cur := none } := by
      simp only [finishPending, hk]
    have hadv : (c.advance c.warp).split? c.cur.split = some { c.split.tick with pc := c.next } := by
      unfold Ctx.advance
      rw [Warp.split?_updSplit, hsp]
      · rfl
      · intro _; rfl
    have ho := onlyWarp_updWarp (fun w => (c.advance w).markPending key event mask rs) (fun _ => rfl) hg hw
    rw [← hf] at ho
    refine ⟨_, ho, rfl, rfl, fun _ => rfl, fun _ => ⟨_, hadv, rfl, rfl, rfl⟩, ?_⟩
    intro k hk'
    simp [hk] at hk'

/-- A value in flight that an instruction starts is found under its key, while nothing else has that key. -/
theorem addFly_fly {s : State} {c : Ctx} (f : Fly) (h : s.fly? (c.key s) = none) :
    (addFly s c f).fly? (c.key s) = some
      { f with id := c.key s, gid := c.cur.gid, widx := c.cur.widx, pc := c.cur.pc, whole := !c.streamed } := by
  unfold State.fly? addFly at *
  generalize c.key s = k at *
  generalize s.flys = l at *
  induction l with
  | nil => simp [findBy]
  | cons x t ih =>
    simp only [findBy] at h
    split at h
    · cases h
    · next hx =>
      simp only [List.cons_append, findBy, hx, Bool.false_eq_true, if_false]
      exact ih h

/-- An engine instruction with one active lane runs its meaning on that lane (R246). -/
theorem single_eq {s : State} {i : Instr} {c : Ctx} {l : Nat} (h : Issues s i c) (hl : c.act i.modifier = [l])
    (k : Ctx → Nat → Host.Outcome State Fault Refusal) : single s i k = k c l := by
  unfold single
  rw [issue_eq h, hl]

end Sys2Proof.Machine
end

