-- ==== Sys2Proof/Tests/Slice0.lean ====
section
/-! SUPPORT. Tests: words that the spec writes out decode to their instructions; ill-formed terms are refused; results
that the spec states; and, for every statement with hypotheses, states and operands that meet them (each witness theorem
bears its statement's name). -/

namespace Sys2Proof.Tests

set_option Elab.async false

open Sys2Proof.Machine

/-! ### A small machine -/

/-- A warp at the page of code with 32 active lanes, and values of registers in lane 0. -/
def warp (rs : List (Nat × Word)) : Warp :=
  { newWarp 0 0 0 128 0 (BitVec.ofNat 64 codePage) 0xFFFFFFFF 32 false [] with
    regs := rs.foldl (fun a p => smSet 0 a (regKey p.1 0) p.2) [] }

/-- Its split. -/
def split : Split := ⟨0, BitVec.ofNat 64 codePage, 0xFFFFFFFF, [], [], none⟩

/-- The same with lane 0 alone. -/
def lone : Split := { split with mask := 1 }

/-- The kernel group of the page of code, with a warp of one split. -/
def group (w : Warp) (sp : Split) : Group := { codeGroup 1 with warps := [{ w with splits := [sp] }] }

/-- The module with a group whose only warp issues an instruction of four bytes. -/
def machine (g : Group) (w : Warp) (sp : Split) : State :=
  { State.reset.placeCode [] with
    groups := [{ g with warps := [{ w with splits := [sp] }] }], agenda := [], uid := 100, cur := some (sp.cur 1 w 4 0 0) }

/-- Who issues there. -/
def ctx (g : Group) (w : Warp) (sp : Split) : Ctx :=
  ⟨sp.cur 1 w 4 0 0, { g with warps := [{ w with splits := [sp] }] }, { w with splits := [sp] }, sp⟩

/-- The checks before an instruction, as a Bool. -/
def issuesB (s : State) (i : Instr) (c : Ctx) : Bool :=
  issuer? s == some c && (s.earlyTarget c i).isNone && (!i.privileged || c.grp.kernel) && !c.beyond i && (c.poison? i).isNone

theorem issues_of (s : State) (i : Instr) (c : Ctx) (h : issuesB s i c = true) : Issues s i c := by
  simp only [issuesB, Bool.and_eq_true, Bool.or_eq_true, Bool.not_eq_true', beq_iff_eq, Option.isNone_iff_eq_none] at h
  obtain ⟨⟨⟨⟨a, t⟩, b⟩, d⟩, e⟩ := h
  exact ⟨a, t, fun p => b.resolve_left (by simp [p]), d, e⟩

/-- Instructions that issue in a state. -/
def issueAll (s : State) (c : Ctx) (is : List Instr) : Prop := ∀ i ∈ is, Issues s i c

theorem issueAll_of (s : State) (c : Ctx) (is : List Instr) (h : (is.all fun i => issuesB s i c) = true) :
    issueAll s c is := fun i m => issues_of s i c (List.all_eq_true.1 h i m)

/-- The state and the context that most witnesses use: everything zero. -/
def s0 : State := machine (group (warp []) split) (warp []) split
def c0 : Ctx := ctx (group (warp []) split) (warp []) split


/-! ### Words that the spec's examples write out -/

theorem test_decode_integer :
    decodeTableWord 32 0x448D1425 = some (.movt ⟨0x28, 0x1234, none⟩) ∧
    decodeTableWord 32 0x159E1425 = some (.movw ⟨0x28, 0x5678, none⟩) ∧
    decodeTableWord 32 0x83009419 = some (.addi ⟨0x28, 0x2, 0x418, none⟩) := by
  repeat' constructor

theorem test_decode_float :
    decodeTableWord 32 0xF00041AF = some (.fclass ⟨.f32, 0x3, 0x1, none⟩) ∧
    decodeTableWord 32 0x7040422F = some (.fcmp ⟨.f16, .lt, 0x4, 0x1, 0x2, none⟩) ∧
    decodeTableWord 32 0x504042AD = some (.fmaxBf16x2 ⟨0x5, 0x1, 0x2, false, none⟩) ∧
    decodeTableWord 32 0x100183B1 = some (.frsq ⟨.f32, 0x7, 0x6, false, none⟩) := by
  repeat' constructor

theorem test_decode_convert :
    decodeTableWord 32 0x006041BB = some (.absm ⟨.e4m3, 0x3, 0x1, none⟩) ∧
    decodeTableWord 32 0x20C043B9 = some (.cbdec ⟨0x1, .cb2, 0x7, 0x1, none⟩) ∧
    decodeTableWord 32 0x10404339 = some (.cbenc ⟨.f32, .cb2, 0x6, 0x1, none⟩) ∧
    decodeTableWord 32 0x00410039 = some (.cbset ⟨0x2, 0x4, none⟩) ∧
    decodeTableWord 32 0x0C204133 = some (.cvt ⟨.f16, .e4m3, false, 0x2, 0x1, none⟩) ∧
    decodeTableWord 32 0x4C008235 = some (.cvts ⟨.f32, .se4m3, false, 0x4, 0x2, none⟩) ∧
    decodeTableWord 32 0x104042B7 = some (.unpk ⟨0x5, 0x1, 0x2, none⟩) := by
  repeat' constructor

theorem test_decode_tile :
    decodeTableWord 32 0x20608645 = some (.arg ⟨.maxF16, 0xc, 0x2, 0x3, none⟩) ∧
    decodeTableWord 32 0x00018441 = some (.red ⟨.add, .f32, 0x8, 0x6, none⟩) ∧
    decodeTableWord 32 0x0000C543 = some (.scan ⟨.add, .f32, 0xa, 0x3, none⟩) ∧
    decodeTableWord 32 0x204041BD = some (.shfl ⟨.down, 0x3, 0x1, 0x2, false, none⟩) ∧
    decodeTableWord 32 0x2002423F = some (.vote ⟨.ballot, 0x4, 0x9, false, none⟩) := by
  repeat' constructor

theorem test_decode_control :
    decodeTableWord 32 0xFFD90349 = some (.bra ⟨.nz, 0x6, 0x7fec⟩) := by
  repeat' constructor

theorem test_decode_special :
    decodeTableWord 32 0x02200355 = some (.mfu ⟨.cycles, 0x6, none⟩) := by
  repeat' constructor

theorem test_decode_memory :
    decodeTableWord 32 0x0B40825F = some (.atom ⟨.add, .device, true, false, .g, 0x4, 0x2, none⟩) ∧
    decodeTableWord 32 0x70C0845F = some (.atom ⟨.cas, .lane, false, true, .g, 0x8, 0x2, none⟩) ∧
    decodeTableWord 32 0x30600061 = some (.fence ⟨.gang, none⟩) ∧
    decodeTableWord 32 0x42450459 = some (.ld ⟨.b32, .g, 0x8, 0x14, 0x10, none⟩) ∧
    decodeTableWord 32 0x00C102DD = some (.ldx ⟨.s, 0x5, 0x4, 0x6, none⟩) ∧
    decodeTableWord 32 0x11A28061 = some (.phaseAcq ⟨.device, true, 0xa, none⟩) ∧
    decodeTableWord 32 0x00A00061 = some (.phaseRel ⟨.device, none⟩) ∧
    decodeTableWord 32 0x0A01035B = some (.st ⟨.b32, .s, 0x6, 0x4, 0x2, none⟩) ∧
    decodeTableWord 32 0x40C102DD = some (.stx ⟨.s, 0x5, 0x4, 0x6, none⟩) := by
  repeat' constructor

theorem test_decode_barrier :
    decodeTableWord 32 0x2001C065 = some (.barAdd ⟨0x0, 0x7, none⟩) ∧
    decodeTableWord 32 0x10600065 = some (.barArv ⟨0x3, none⟩) ∧
    decodeTableWord 32 0x02414065 = some (.barInit ⟨true, 0x2, 0x5, none⟩) ∧
    decodeTableWord 32 0x40000465 = some (.barPnd ⟨0x0, 0x8, none⟩) ∧
    decodeTableWord 32 0x306001E5 = some (.barTst ⟨0x3, 0x3, none⟩) := by
  repeat' constructor

theorem test_decode_future :
    decodeTableWord 32 0x00408367 = some (.fget ⟨.g, 0x6, 0x2, none⟩) ∧
    decodeTableWord 32 0x10408367 = some (.fset ⟨.g, 0x6, 0x2, none⟩) := by
  repeat' constructor

theorem test_decode_announce :
    decodeTableWord 32 0x023022E3 = some (.ann ⟨.add, 0x0, .g, 0x5, 0x1, 0x6, none⟩) ∧
    decodeTableWord 32 0xD20823E3 = some (.annHlp ⟨.g, 0x1, 0x7, 0x1, none⟩) ∧
    decodeTableWord 32 0xE0000463 = some (.annq ⟨0x8, none⟩) := by
  repeat' constructor

theorem test_decode_service :
    decodeTableWord 32 0x020041EB = some (.fapp ⟨0x3, 0x1, 0x10, none⟩) ∧
    decodeTableWord 32 0x1000486B = some (.fpop ⟨0x10, 0x1, none⟩) ∧
    decodeTableWord 32 0x222041EB = some (.fret ⟨0x3, 0x1, 0x11, none⟩) ∧
    decodeTableWord 32 0x8080016F = some (.rclaim ⟨0x4, 0x2⟩) ∧
    decodeTableWord 32 0x0080006F = some (.rgive ⟨0x4⟩) ∧
    decodeTableWord 32 0x00A2036D = some (.svc ⟨0x6, 0x8, 0x5, none⟩) ∧
    decodeTableWord 32 0x00C08269 = some (.tspawn ⟨0x4, 0x2, 0x6, none⟩) := by
  repeat' constructor

theorem test_decode_matrix :
    decodeTableWord 32 0x60800071 = some (.mchn ⟨0x4, none⟩) ∧
    decodeTableWord 32 0x20020673 = some (.mdrn ⟨0xc, 0x8, none⟩) ∧
    decodeTableWord 32 0x10A40073 = some (.mgrp ⟨0x10, 0x5, none⟩) ∧
    decodeTableWord 32 0x30218071 = some (.mlds ⟨0x1, 0x6, none⟩) ∧
    decodeTableWord 32 0x00040073 = some (.mloop ⟨0x10, none⟩) ∧
    decodeTableWord 32 0x10600071 = some (.mrels ⟨0x3, none⟩) ∧
    decodeTableWord 32 0x00010171 = some (.mresv ⟨0x2, 0x4, none⟩) ∧
    decodeTableWord 32 0x20024071 = some (.mscl ⟨0x9, none⟩) ∧
    decodeTableWord 32 0x702001F1 = some (.mstat ⟨true, 0x3, none⟩) ∧
    decodeTableWord 32 0x40000071 = some (.mswp ⟨none⟩) ∧
    decodeTableWord 32 0x5001C071 = some (.mzero ⟨0x7, none⟩) := by
  repeat' constructor

theorem test_decode_copy :
    decodeTableWord 32 0x030501F5 = some (.cpyL ⟨0x3, 0x14, 0x18, none⟩) ∧
    decodeTableWord 32 0x130501F5 = some (.cpyS ⟨0x3, 0x14, 0x18, none⟩) ∧
    decodeTableWord 32 0x230501F5 = some (.cpyp ⟨0x3, 0x14, 0x18, none⟩) ∧
    decodeTableWord 32 0x300002F5 = some (.cpyq ⟨false, 0x5, none⟩) := by
  repeat' constructor

theorem test_decode_cache :
    decodeTableWord 32 0x33051077 = some (.adec ⟨0x20, 0x14, 0x18, none⟩) ∧
    decodeTableWord 32 0x03050277 = some (.kvg ⟨0x4, 0x14, 0x18, none⟩) ∧
    decodeTableWord 32 0x13050377 = some (.kvmap ⟨0x6, 0x14, 0x18, none⟩) ∧
    decodeTableWord 32 0x230501F7 = some (.migr ⟨0x3, 0x14, 0x18, none⟩) := by
  repeat' constructor

theorem test_decode_network :
    decodeTableWord 32 0x23050279 = some (.natm ⟨false, 0x4, 0x14, 0x18, none⟩) ∧
    decodeTableWord 32 0x13050279 = some (.nrd ⟨0x4, 0x14, 0x18, none⟩) ∧
    decodeTableWord 32 0x33050279 = some (.nsnd ⟨false, 0x4, 0x14, 0x18, none⟩) ∧
    decodeTableWord 32 0x40050379 = some (.nwatch ⟨0x6, 0x14, none⟩) ∧
    decodeTableWord 32 0x83050279 = some (.nwr ⟨true, 0x4, 0x14, 0x18, none⟩) ∧
    decodeTableWord 32 0x2300827B = some (.stfl ⟨0x4, 0x2, 0x18, none⟩) ∧
    decodeTableWord 32 0x0300827B = some (.strd ⟨0x4, 0x2, 0x18, none⟩) ∧
    decodeTableWord 32 0x9300827B = some (.stwr ⟨true, 0x4, 0x2, 0x18, none⟩) := by
  repeat' constructor

theorem test_decode_system :
    decodeTableWord 32 0xD0A1017D = some (.asidqEnter ⟨0x2, 0x4, 0x5⟩) ∧
    decodeTableWord 32 0x4305017D = some (.cload ⟨0x2, 0x14, 0x18⟩) ∧
    decodeTableWord 32 0x5305017D = some (.cmigr ⟨0x2, 0x14, 0x18⟩) ∧
    decodeTableWord 32 0x3305017D = some (.csave ⟨0x2, 0x14, 0x18⟩) ∧
    decodeTableWord 32 0xC0A501FD = some (.fmapMap ⟨0x3, 0x14, 0x5⟩) ∧
    decodeTableWord 32 0x70A1017D = some (.fqansResume ⟨0x2, 0x4, 0x5⟩) ∧
    decodeTableWord 32 0x80A1017D = some (.kslotLoad ⟨0x2, 0x4, 0x5⟩) ∧
    decodeTableWord 32 0x0040027D = some (.mfsr ⟨.ktrb, 0x4⟩) ∧
    decodeTableWord 32 0x1021807D = some (.mtsr ⟨.kvec, 0x6⟩) ∧
    decodeTableWord 32 0xA0A101FD = some (.partAssign ⟨0x3, 0x4, 0x5⟩) ∧
    decodeTableWord 32 0x9101017D = some (.scrubStart ⟨0x2, 0x4, 0x8⟩) ∧
    decodeTableWord 32 0xB0C101FD = some (.svcret ⟨0x3, 0x4, 0x6⟩) ∧
    decodeTableWord 32 0x610501FD = some (.tlbinv ⟨0x3, 0x14, 0x8⟩) ∧
    decodeTableWord 32 0x2000007D = some (.tret) := by
  repeat' constructor


/-! ### Ill-formed terms are refused: one for each check of WellFormed.lean -/

def plainMod : Modifier := ⟨.nearest, 0, false, false, false, false, false, false, false, false, false, 0⟩

theorem test_illformed_registers :
    (Instr.bswz ⟨1, 3, 2, false, none⟩).wf = false ∧ (Instr.shl64 ⟨3, 2, 4, false, none⟩).wf = false ∧
    (Instr.arg ⟨.maxF16, 2, 4, 5, none⟩).wf = false ∧ (Instr.strd ⟨4, 2, 12, none⟩).wf = false ∧
    (Instr.fpop ⟨8, 1, none⟩).wf = false ∧ (Instr.icmp ⟨.eq64, 1, 3, 4, false, none⟩).wf = false ∧
    (Instr.mfu ⟨.cycles, 5, none⟩).wf = false ∧ (Instr.mfsr ⟨.kvec, 5⟩).wf = false := by decide

theorem test_illformed_clauses :
    (Instr.pack ⟨1, 2, 3, some { plainMod with ppol := true }⟩).wf = false ∧
    (Instr.mfu ⟨.lane, 1, some { plainMod with pred := 1 }⟩).wf = false ∧
    (Instr.add ⟨1, 2, 3, false, some { plainMod with sat := true }⟩).wf = false ∧
    (Instr.add ⟨1, 2, 3, false, some { plainMod with clamp := true }⟩).wf = false ∧
    (Instr.add ⟨1, 2, 3, false, some { plainMod with negA := true }⟩).wf = false ∧
    (Instr.abst ⟨.f32, 1, 2, some { plainMod with absB := true }⟩).wf = false ∧
    (Instr.faddF32 ⟨1, 2, 3, false, some { plainMod with negC := true }⟩).wf = false ∧
    (Instr.add ⟨1, 2, 3, false, some { plainMod with scale := 1 }⟩).wf = false ∧
    (Instr.add ⟨1, 2, 3, false, some { plainMod with rnd := .zero }⟩).wf = false ∧
    (Instr.dadd ⟨.u8x4, 1, 2, 3, false, some { plainMod with negA := true }⟩).wf = false := by decide

theorem test_illformed_fields :
    (Instr.cvt ⟨.se4m3, .f32, false, 2, 4, none⟩).wf = false ∧ (Instr.cvts ⟨.f32, .e4m3, false, 4, 2, none⟩).wf = false ∧
    (Instr.cbdec ⟨4, .cb4, 7, 1, none⟩).wf = false ∧ (Instr.absm ⟨.s32, 3, 1, none⟩).wf = false ∧
    (Instr.vote ⟨.elect, 4, 9, false, none⟩).wf = false ∧ (Instr.red ⟨.xor, .f32, 8, 6, none⟩).wf = false ∧
    (Instr.bra ⟨.always, 6, 4⟩).wf = false ∧ (Instr.mtu ⟨.lane, 4, none⟩).wf = false ∧ (Instr.mtsr ⟨.ready, 4⟩).wf = false ∧
    (Instr.rgive ⟨0⟩).wf = false ∧ (Instr.mchn ⟨0, none⟩).wf = false ∧ (Instr.mchn ⟨9, none⟩).wf = false := by decide

theorem test_illformed_memory :
    (Instr.ld ⟨.b64, .s, 5, 4, 0, none⟩).wf = false ∧ (Instr.ld ⟨.b32, .g, 4, 5, 0, none⟩).wf = false ∧
    (Instr.st ⟨.b128, .s, 6, 4, 0, none⟩).wf = false ∧
    (Instr.atom ⟨.incw, .lane, false, true, .g, 4, 2, none⟩).wf = false ∧
    (Instr.atom ⟨.cas, .lane, false, false, .g, 5, 2, none⟩).wf = false ∧
    (Instr.atom ⟨.add, .gang, true, false, .s, 4, 2, none⟩).wf = false ∧
    (Instr.phaseAcq ⟨.device, false, 10, none⟩).wf = false ∧ (Instr.fclr ⟨.g, 6, 2, none⟩).wf = false := by decide

/-! ### Results that the spec works out -/

/-- What lane 0 of a register holds after an instruction of one lane, and the flags that it leaves. -/
def after (w : Warp) (sp : Split) (i : Instr) : Option Warp :=
  match exec i (machine (group w sp) w sp) with
  | .next t => t.warp? 1 0
  | _ => none
def lane0 (rs : List (Nat × Word)) (i : Instr) (r : Nat) : Option Word := (after (warp rs) lone i).map fun w => w.reg r 0
def flagsAfter (rs : List (Nat × Word)) (i : Instr) : Option Word := (after (warp rs) lone i).map fun w => w.fflags &&& 0x3F

/-- R186 to R189: the examples of spec/10. -/
theorem test_integer_examples :
    lane0 [(1, 0xFFFFFFFF), (2, 1)] (.minS ⟨3, 1, 2, false, none⟩) 3 = some 0xFFFFFFFF ∧
    lane0 [(1, 0xFFFFFFFF), (2, 1)] (.minU ⟨3, 1, 2, false, none⟩) 3 = some 1 ∧
    lane0 [(2, 0x44332211), (3, 0x88776655), (4, 0x21C4)] (.bswz ⟨5, 2, 4, false, none⟩) 5 = some 0x11880055 ∧
    lane0 [(2, 0x44332211), (3, 0x88776655), (4, 0x221C4)] (.bswz ⟨5, 2, 4, false, none⟩) 5 = some 0x1188FF55 ∧
    lane0 [(2, 0x87654321), (3, 0xFF), (4, 8)] (.fshf ⟨5, 2, 4, false, none⟩) 5 = some 0xFF876543 ∧
    lane0 [(1, 0x80000000), (2, 36)] (.sar ⟨3, 1, 2, false, none⟩) 3 = some 0xF8000000 ∧
    lane0 [(1, 0xFFFFFFFF), (2, 2)] (.mulHiU ⟨3, 1, 2, false, none⟩) 3 = some 1 ∧
    lane0 [(1, 0xFFFFFFFF), (2, 2)] (.mulHiS ⟨3, 1, 2, false, none⟩) 3 = some 0xFFFFFFFF := by decide +kernel

/-- R190 to R197: the examples of spec/10. -/
theorem test_field_examples :
    lane0 [(1, 0xF0A0), (2, 0x0808)] (.bfxS ⟨3, 1, 2, false, none⟩) 3 = some 0xFFFFFFF0 ∧
    lane0 [(1, 0xF0A0), (2, 0x0804)] (.bfxU ⟨3, 1, 2, false, none⟩) 3 = some 0xA ∧
    lane0 [(1, 0xFFFFFFFF), (2, 1)] (.icmp ⟨.ltS, 3, 1, 2, false, none⟩) 3 = some 1 ∧
    lane0 [(1, 0xFFFFFFFF), (2, 1)] (.icmp ⟨.ltU, 3, 1, 2, false, none⟩) 3 = some 0 ∧
    lane0 [(1, 0x80057F64), (2, 0x80800A5A)] (.dadd ⟨.i8x4, 3, 1, 2, false, none⟩) 3 = some 0x80057F7F ∧
    lane0 [(2, 0xA0000000)] (.shri ⟨3, 2, 28, none⟩) 3 = some 0xA ∧
    lane0 [(1, 5)] (.cmpi ⟨.ltU, 3, 1, 0xFF, none⟩) 3 = some 1 ∧
    lane0 [(20, 0xFFF0), (21, 0x40), (7, 4)] (.lea ⟨2, 20, 20, 7, false, none⟩) 20 = some 0x10000 ∧
    lane0 [(20, 0xFFF0), (21, 0x40), (7, 4)] (.lea ⟨2, 20, 20, 7, false, none⟩) 21 = some 0x40 := by decide +kernel

/-- R54, R67, R69, R199 to R202: the examples of spec/03 and spec/11. -/
theorem test_float_examples :
    lane0 [(1, 0x7FFFFFFF), (2, 0xFFFFFFFF)] (.faddF32 ⟨3, 1, 2, false, some { plainMod with negA := true }⟩) 3 = some 0x7FC00000 ∧
    lane0 [(1, 0x3C00FFFF), (2, 0x40004200)] (.faddF16x2 ⟨3, 1, 2, false, none⟩) 3 = some 0x42004200 ∧
    lane0 [(1, 0xFFFFFFFF), (2, 0x3FC00000)] (.fmulF32 ⟨3, 1, 2, false, some { plainMod with negA := true, scale := 3 }⟩) 3 = some 0x41400000 ∧
    lane0 [(1, 0xFFFF3F80), (2, 0x4000BF80)] (.fmaxBf16x2 ⟨5, 1, 2, false, none⟩) 5 = some 0x40003F80 ∧
    lane0 [(1, 0xFFFF3C00), (2, 0x40004000)] (.fcmp ⟨.f16, .lt, 4, 1, 2, none⟩) 4 = some 1 ∧
    lane0 [(1, 0xFFFF8000)] (.fclass ⟨.f16, 3, 1, none⟩) 3 = some 0x02000008 ∧
    lane0 [(6, 0x40800000)] (.frsq ⟨.f32, 7, 6, false, none⟩) 7 = some 0x3F000000 ∧
    flagsAfter [(6, 0x40800000)] (.frsq ⟨.f32, 7, 6, false, none⟩) = some 0 := by decide +kernel

/-- R65, R66, R203 to R210: the examples of spec/03 and spec/11. -/
theorem test_convert_examples :
    lane0 [(1, 0x2A)] (.cvt ⟨.f16, .e4m3, false, 2, 1, none⟩) 2 = some 0x3500 ∧
    lane0 [(1, 0x3E99999A)] (.cvt ⟨.e4m3, .f32, false, 2, 1, none⟩) 2 = some 0x2A ∧
    lane0 [(1, 0x3E99999A)] (.cvt ⟨.e4m3, .f32, false, 2, 1, some { plainMod with rnd := .zero }⟩) 2 = some 0x29 ∧
    lane0 [(1, 0x4788B800)] (.cvt ⟨.f16, .f32, false, 2, 1, some { plainMod with rnd := .zero }⟩) 2 = some 0x7BFF ∧
    lane0 [(1, 0x80000000)] (.cvt ⟨.i32, .s32, false, 2, 1, none⟩) 2 = some 0x80000001 ∧
    lane0 [(2, 0x48), (3, 0x3E800000)] (.cvts ⟨.f32, .se4m3, false, 4, 2, none⟩) 4 = some 0x3F800000 ∧
    lane0 [(1, 0x44802A38), (2, 0x303)] (.unpk ⟨5, 1, 2, none⟩) 5 = some 0x44 ∧
    lane0 [(1, 0x80388038)] (.absc ⟨.e4m3, 3, 1, none⟩) 3 = some 5 ∧
    lane0 [(3, 0x38383838), (1, 5)] (.absm ⟨.e4m3, 3, 1, none⟩) 3 = some 0x80388038 := by decide +kernel

/-- Lanes of tiles. -/
def tileWarp (n : Nat) (rs : List (Nat × Nat × Word)) : Warp :=
  { warp [] with tile := n, regs := rs.foldl (fun a p => smSet 0 a (regKey p.1 p.2.1) p.2.2) [] }
def laneOf (n : Nat) (rs : List (Nat × Nat × Word)) (i : Instr) (r l : Nat) : Option Word :=
  (after (tileWarp n rs) { split with mask := 0xF } i).map fun w => w.reg r l

/-- R75, R76, R213 to R216: tiles of 4 and 8 lanes, after the examples of spec/03 and spec/11. -/
theorem test_reduction_examples :
    (let rs := [(6, 0, 0x4B800000), (6, 1, 0x3F800000), (6, 2, 0x3F800000), (6, 3, 0xFFFFFFFF)];
      laneOf 4 rs (.red ⟨.add, .f32, 8, 6, none⟩) 8 2 = some 0x4B800000 ∧ laneOf 4 rs (.red ⟨.add, .f32, 8, 6, none⟩) 9 2 = some 3) ∧
    (let rs := [(2, 0, 0x80000000), (2, 1, 3), (2, 2, 0x80000000), (2, 3, 4)];
      laneOf 4 rs (.scan ⟨.add, .i32, 8, 2, none⟩) 8 3 = some 7 ∧ laneOf 4 rs (.scan ⟨.add, .i32, 8, 2, none⟩) 8 0 = some 0x80000000 ∧
      laneOf 4 rs (.scan ⟨.add, .i32, 8, 2, none⟩) 9 2 = some 1) ∧
    (let rs := [(2, 0, 0x3C00), (2, 1, 0x7E00), (2, 2, 0xFFFF), (2, 3, 0x7C00), (3, 0, 10), (3, 1, 11), (3, 2, 12), (3, 3, 13)];
      laneOf 4 rs (.arg ⟨.maxF16, 12, 2, 3, none⟩) 12 0 = some 0x7E00 ∧ laneOf 4 rs (.arg ⟨.maxF16, 12, 2, 3, none⟩) 13 0 = some 11 ∧
      laneOf 4 rs (.arg ⟨.maxF16, 12, 2, 3, none⟩) 14 0 = some 3 ∧ laneOf 4 rs (.arg ⟨.maxF16, 12, 2, 3, none⟩) 15 0 = some 1) ∧
    (let rs := [(9, 0, 0), (9, 1, 1), (9, 2, 1)];
      laneOf 8 rs (.vote ⟨.ballot, 4, 9, false, none⟩) 4 3 = some 6) := by decide +kernel

/-- R193: the step of `ADDI v40, v2, -1000` from the page of code. -/
theorem test_step_addi : (match step (State.reset.withFetchWord 32 0x83009419) with
    | .next t => (t.warp? 1 0).map fun w => w.reg 0x28 31
    | _ => none) = some 0xFFFFFC18 := by decide +kernel

/-- R52: four 6-bit elements lie in three bytes. -/
theorem test_packing_example : packRow .e2m3 [0x08, 0x10, 0x04, 0x1F] = [0x08, 0x44, 0x7C] := by decide +kernel

/-! ### Witnesses: decoding and the checks before an instruction -/

theorem witness_DecodeEncodeRoundTrip :
    (Instr.add ⟨5, 1, 2, false, none⟩).encoded = true ∧ (Instr.add ⟨5, 1, 2, false, none⟩).wf = true ∧
    isModifier (headWord []) = false := by decide

theorem witness_EncodeDecodeRoundTrip :
    decode 0x1062#32 0 = .ok (.add16 ⟨3, 4⟩, 2) ∧ decode 0x83009419#32 0 = .ok (.addi ⟨0x28, 2, 0x418, none⟩, 4) ∧
    decode 0x030501F5#32 0x000004FF#32 = .ok (.cpyL ⟨3, 0x14, 0x18,
      some ⟨.nearest, 0, false, false, false, false, false, false, false, false, false, 9⟩⟩, 8) := by
  refine ⟨?_, ?_, ?_⟩ <;> rfl

/-- The module with words at the page of code, and its warp. -/
def code (ws : List Nat) : State := State.reset.placeCode (ws.flatMap (natBytes 4))
def codeWarp : Warp := newWarp 0 0 0 128 0 (BitVec.ofNat 64 codePage) 0xFFFFFFFF 32 false []
def page : DWord := BitVec.ofNat 64 codePage

/-- The instruction of a fetch that succeeds. -/
def fetched? : Fetched → Option (Instr × Nat × Word × Word)
  | .ok i n w m => some (i, n, w, m)
  | .bad _ => none

theorem fetched_of {f : Fetched} {i : Instr} {n : Nat} {w m : Word} (h : fetched? f = some (i, n, w, m)) : f = .ok i n w m := by
  cases f with
  | ok => simp only [fetched?, Option.some.injEq, Prod.mk.injEq] at h; obtain ⟨rfl, rfl, rfl, rfl⟩ := h; rfl
  | bad => simp [fetched?] at h

/-- ADDI stands at the page of code, and the agenda names its warp. -/
theorem witness_StepRunsDecoded_step :
    let s := code [0x83009419];
    let i := Instr.addi ⟨0x28, 2, 0x418, none⟩;
    s.agenda = [.issue 1 0] ∧ s.group? 1 = some (codeGroup 1) ∧ s.warp? 1 0 = some codeWarp ∧
    issuing (codeGroup 1) codeWarp = true ∧ codeWarp.closures = [] ∧ codeWarp.pend = [] ∧ s.drives = [] ∧ codeWarp.yld = none ∧
    { s with agenda := [] }.mergeJoins (codeGroup 1) codeWarp = codeWarp ∧ codeWarp.offered = [split] ∧
    codeWarp.split? 0 = some split ∧ split.busy = none ∧
    { s with agenda := [] }.fetchInstr (codeGroup 1) page = .ok i 4 0x83009419 0 ∧ i ≠ .join ∧
    (let cur := split.cur 1 codeWarp 4 0x83009419 0;
      { s with agenda := [], cur := some cur }.awaitsStore ⟨cur, codeGroup 1, codeWarp, split⟩ i = false) ∧
    { s with agenda := [] }.mayIssue 1 0 = true := by
  intro s i
  refine ⟨?_, ?_, ?_, ?_, rfl, rfl, rfl, rfl, ?_, ?_, ?_, rfl, fetched_of ?_, ?_, ?_, ?_⟩ <;> decide +kernel

/-- Words to fetch, of four and of two bytes, and a mapped address. -/
theorem witness_StepRunsDecoded_fetch :
    let s := code [0x83009419, 0];
    let t := code [0x1062];
    let g := codeGroup 1;
    s.fetchHalf g page = .ok 0x9419 ∧ s.fetchHalf g (page + 2) = .ok 0x8300 ∧ s.fetchHalf g (page + 4) = .ok 0 ∧
    s.fetchHalf g (page + 6) = .ok 0 ∧ (0x9419 : BitVec 16).getLsbD 0 = true ∧ page.extractLsb' 0 2 = 0 ∧
    isModifier 0x83009419#32 = false ∧ majorOf 0x83009419#32 ≠ 0x3E ∧
    decode 0x83009419#32 0 = .ok (.addi ⟨0x28, 2, 0x418, none⟩, 4) ∧
    t.fetchHalf g page = .ok 0x1062 ∧ decodeHalf 0x1062 = some (.add16 ⟨3, 4⟩) ∧
    canonical page = true ∧ s.translate g.core g.asid .fetch page = .ok codePage := by
  intro s t g
  (repeat' apply And.intro) <;> decide +kernel

/-- The group of a witness in user mode. -/
def userGroup (w : Warp) (sp : Split) : Group := { group w sp with kernel := false }

/-- The place of a branch target that the checks before an encoding turn away (R160). -/
def earlyOf (s : State) (g : Group) (w : Warp) (sp : Split) (v : Word) : Option (Nat × DWord × Option XFault) :=
  (branchOf v 0).bind fun i => s.earlyTarget ⟨sp.cur g.gid w 4 v 0, g, w, sp⟩ i

/-- A PC outside the canonical addresses, an unmapped page, a 32-bit word at a PC 2 above a multiple of 4, a word at the end of the
last page, and words that raise ILLEGAL, ORPHAN_MODIFIER, PRIVILEGE and the trap of a bad target. -/
theorem witness_FetchTraps :
    let far : Split := { split with pc := 0x0100000000000000 };
    let odd : Split := { split with pc := 0x20000 };
    let g := group codeWarp split;
    let s := machine g codeWarp split;
    (s.group? g.gid = some g ∧ g.warp? codeWarp.idx = some codeWarp ∧ codeWarp.split? 0 = some split ∧
      s.splitBusy g.gid codeWarp.idx split = false) ∧
    (let w := { codeWarp with splits := [far] };
      (machine g w far).group? 1 = some (group w far) ∧ canonical far.pc = false) ∧
    (let w := { codeWarp with splits := [odd] };
      (machine g w odd).group? 1 = some (group w odd) ∧ canonical odd.pc = true ∧
      (machine g w odd).translate 0 0 .fetch odd.pc = .bad ⟨0, 0, odd.pc⟩) ∧
    ((code [0xFFFE]).fetchHalf g page = .ok 0xFFFE ∧ decodeHalf 0xFFFE = none) ∧
    ((code [0x00010000]).fetchHalf g (page + 2) = .ok 1 ∧ (page + 2).extractLsb' 0 2 ≠ 0) ∧
    (let e : DWord := 0x1FFFC; let s := s.writeRaw [(0x1FFFC, 1)];
      s.fetchHalf g e = .ok 1 ∧ s.fetchHalf g (e + 2) = .ok 0 ∧ (match s.fetchHalf g (e + 4) with | .error (k, _) => k == 0x24 | .ok _ => false) = true) ∧
    ((code [0x7F]).fetchHalf g page = .ok 0x7F ∧ isModifier 0x7F#32 = true) ∧
    ((code [0x40027D]).fetchHalf g page = .ok 0x027D ∧ majorOf 0x40027D#32 = 0x3E ∧ (userGroup codeWarp split).kernel = false) ∧
    ((code [1]).fetchHalf g page = .ok 1 ∧ majorOf 1#32 ≠ 0x3E ∧ isModifier 1#32 = false ∧
      decode 1#32 0 = .error (.illegal 1) ∧ earlyOf (code [1]) g codeWarp split 1 = none) ∧
    (let w := 0x000201CD#32;
      (code [0x000201CD]).fetchHalf g page = .ok 0x01CD ∧ majorOf w ≠ 0x3E ∧ isModifier w = false ∧ decode w 0 = .error (.illegal w) ∧
      (earlyOf (code [0x000201CD]) g codeWarp split w).isSome = true) := by
  intro far odd g s
  refine ⟨⟨by decide +kernel, by decide +kernel, by decide +kernel, by decide +kernel⟩, ⟨by decide +kernel, by decide⟩,
    ⟨by decide +kernel, by decide, ?_⟩, ⟨?_, by rfl⟩, ⟨?_, by decide⟩, ⟨?_, ?_, ?_⟩, ⟨?_, by decide⟩, ⟨?_, by decide, by rfl⟩,
    ⟨?_, by decide, by decide, ?_, ?_⟩, ⟨?_, by decide, by decide, ?_, ?_⟩⟩ <;> decide +kernel

/-- An odd target, a privileged instruction in user mode, a register beyond a window of eight, and a poisoned source. -/
theorem witness_ChecksAtIssue :
    (let w := warp [(4, 0x10001)];
      let s := machine (group w split) w split;
      let c := ctx (group w split) w split;
      issuer? s = some c ∧ (Instr.ret ⟨4⟩).encoded = true ∧ s.earlyTarget c (.ret ⟨4⟩) = some (0x21, 0x10001, none)) ∧
    (let g := userGroup codeWarp split;
      issuer? (machine g codeWarp split) = some (ctx g codeWarp split) ∧ (Instr.mfsr ⟨.ready, 4⟩).encoded = true ∧
      (machine g codeWarp split).earlyTarget (ctx g codeWarp split) (.mfsr ⟨.ready, 4⟩) = none ∧
      (Instr.mfsr ⟨.ready, 4⟩).privileged = true ∧ (ctx g codeWarp split).grp.kernel = false) ∧
    (let w := { codeWarp with window := 8 };
      let g := group w split;
      issuer? (machine g w split) = some (ctx g w split) ∧ (ctx g w split).beyond (.add ⟨8, 0, 7, false, none⟩) = true ∧
      (ctx g w split).beyond (.add ⟨7, 0, 7, false, none⟩) = false) ∧
    (let w := { codeWarp with poison := [regKey 5 31] };
      let g := group w split;
      issuer? (machine g w split) = some (ctx g w split) ∧ (ctx g w split).beyond (.add ⟨7, 0, 5, false, none⟩) = false ∧
      (ctx g w split).poison? (.add ⟨7, 0, 5, false, none⟩) = some 5) := by
  refine ⟨⟨?_, ?_, ?_⟩, ⟨?_, ?_, ?_, ?_, ?_⟩, ⟨?_, ?_, ?_⟩, ⟨?_, ?_, ?_⟩⟩ <;> decide +kernel

/-- A warp with v5 pending, from an event or not; a closure for each index of a full file. -/
def pendingWarp (event : Bool) : Warp := { codeWarp with pend := [⟨7, 5, event, 0xFFFFFFFF⟩] }
def closure (k : Nat) : Closure :=
  ⟨k, 10 + k, 20 + k, k, 0, 0, 0, 1, 32, 0, [], [], [], Codebook.initial, [], [], [], [], none, false, false⟩
def deferGroup (w : Warp) (sp : Split) : Group := { group w sp with dmode := true }

/-- A warp whose v5 is pending and whose v5 also stands in the bypass. -/
def shadowedWarp : Warp := { pendingWarp true with pend := [⟨7, 4, true, 0xFFFFFFFF⟩] }
def shadowedSplit : Split := { split with bypass := [⟨5, 3, List.replicate 32 9, 0⟩] }

theorem witness_PendingOperandsHold :
    (let w := pendingWarp true;
      let c := ctx (group w split) w split;
      let s := machine (group w split) w split;
      let i := Instr.tile ⟨5, none⟩;
      issuer? s = some c ∧ c.cur.clo = none ∧ s.atOnce c i = false ∧ i.neverCaptured = true ∧ c.branchPending i = some 5) ∧
    (let w := pendingWarp false;
      let c := ctx (group w split) w split;
      let s := machine (group w split) w split;
      let i := Instr.tile ⟨5, none⟩;
      issuer? s = some c ∧ s.atOnce c i = false ∧ c.branchPending i = none ∧ c.awaited i [] ≠ []) ∧
    (let w := pendingWarp true;
      let g := group w split;
      let c := ctx g w split;
      let i := Instr.add ⟨6, 5, 4, false, none⟩;
      issuer? (machine g w split) = some c ∧ (machine g w split).atOnce c i = false ∧ i.neverCaptured = false ∧
      c.deferring = false ∧ c.awaited i [] ≠ []) ∧
    (let w := pendingWarp false;
      let g := deferGroup w split;
      let c := ctx g w split;
      let s := machine g w split;
      let i := Instr.annq ⟨2, none⟩;
      issuer? s = some c ∧ s.atOnce c i = false ∧ i.neverCaptured = false ∧ c.deferring = true ∧
      s.captureWaits c i (c.extraDsts s i) ≠ [] ∧ c.annqStalls i = true) ∧
    (let w := shadowedWarp;
      let g := deferGroup w shadowedSplit;
      let c := ctx g w shadowedSplit;
      let s := machine g w shadowedSplit;
      let i := Instr.add ⟨6, 5, 4, false, none⟩;
      issuer? s = some c ∧ s.atOnce c i = false ∧ c.deferring = true ∧ c.bypassed 5 = true ∧
      s.captureWaits c i (c.extraDsts s i) = [7] ∧ c.annqStalls i = false ∧ s.fgetFull c i = false ∧
      (∀ y ∈ c.warp.closures, y.idx ≠ 0)) ∧
    (let w := { pendingWarp true with closures := (List.range 8).map closure };
      let g := deferGroup w split;
      let c := ctx g w split;
      let s := machine g w split;
      let i := Instr.add ⟨6, 5, 4, false, none⟩;
      issuer? s = some c ∧ s.atOnce c i = false ∧ c.deferring = true ∧ s.captureWaits c i (c.extraDsts s i) ≠ [] ∧
      c.annqStalls i = false ∧ s.fgetFull c i = false ∧ ∀ j < 8, ∃ y ∈ c.warp.closures, y.idx = j) ∧
    (let w := pendingWarp true;
      let g := deferGroup w split;
      let c := ctx g w split;
      let s := { machine g w split with flys := (List.range 8).map fun k => ⟨50 + k, 1, 0, 1, 0, [], [], 1, none, .b32, some true, [], 0, false⟩ };
      let i := Instr.fget ⟨.g, 6, 4, none⟩;
      issuer? s = some c ∧ s.atOnce c i = false ∧ c.deferring = true ∧ s.captureWaits c i (c.extraDsts s i) ≠ [] ∧
      c.annqStalls i = false ∧ s.fgetFull c i = true) := by
  (repeat' apply And.intro) <;> decide +kernel

/-- An inexact sum whose trap is enabled. -/
theorem witness_FloatTrapsAfterCompletion :
    let w := { warp [(1, 0x3F800000), (2, 0x30800000)] with fflags := 0x3F00 };
    let g := group w split;
    let c := ctx g w split;
    let x : OpA := ⟨3, 1, 2, false, none⟩;
    c.cur.clo = none ∧ c.cur.noFp = false ∧
    c.enabled (c.flagsOf x.m fun l => (floatWord .add .f32 x.m (c.reg 1 l) (c.reg 2 l) (c.reg 3 l)).2) ≠ 0 ∧
    issueAll (machine g w split) c [.faddF32 x, .fmulF32 x, .ffmaF16x2 x, .dadd ⟨.i32, 3, 1, 2, false, none⟩,
      .cvt ⟨.f16, .e4m3, false, 2, 1, none⟩] := by
  intro w g c x
  exact ⟨by decide +kernel, by decide +kernel, by decide +kernel, issueAll_of _ _ _ (by decide +kernel)⟩

/-- Partition 1 with a fault queue of 16 entries at 128 KiB; faults of its address space 5; and the same with a pending
entry at TAIL. -/
def queueState : State := State.reset.setPart 1 { Part.absent with live := true, fqbase := 0x20000 }
def missed (va : DWord) : FaultReq := ⟨va, 0x10000, 0x1002, 5, 0, 0x24, 1, 3, 0, true, false, 0, .warp 1 0⟩
def fullQueue : State := queueState.writeRaw (putAt 0x20000 (natBytes 32 ((missed 0x5000).entry 1 1)))

theorem witness_FaultQueuePosts :
    (let p := queueState.part 1;
      (∀ i < p.fqCap, queueState.fqMatches p (missed 0x5000) i = false) ∧ queueState.fqPending p p.fqTail = false ∧
      isPeer (p.fqEntry p.fqTail + 32) = false) ∧
    (let p := fullQueue.part 1;
      0 < p.fqCap ∧ fullQueue.fqMatches p (missed 0x6000) 0 = true ∧ isPeer (p.fqEntry 0 + 32) = false) ∧
    (let p := fullQueue.part 1;
      (∀ i < p.fqCap, fullQueue.fqMatches p (missed 0x500000) i = false) ∧ fullQueue.fqPending p p.fqTail = true) := by
  refine ⟨⟨?_, ?_, ?_⟩, ⟨?_, ?_, ?_⟩, ⟨?_, ?_⟩⟩ <;> decide +kernel

/-! ### Witnesses: registers only -/

/-- No trap of a flag is enabled where %fflags is zero. -/
theorem quiet_c0 (fl : Flags) : c0.quiet fl := by
  left
  show fl.setWidth 32 &&& (0#32 >>> 8) &&& 0x3F = 0
  simp

theorem witness_HalfFormResults : issueAll s0 c0 [.mov16 ⟨0, 31⟩, .add16 ⟨0, 31⟩, .sub16 ⟨0, 31⟩, .and16 ⟨0, 31⟩, .or16 ⟨0, 31⟩,
    .xor16 ⟨0, 31⟩, .shl16 ⟨0, 31⟩, .shr16 ⟨0, 31⟩, .addi5 ⟨0, 31⟩, .movi5 ⟨0, 31⟩, .imul16 ⟨0, 31⟩, .nop] :=
  issueAll_of _ _ _ (by decide +kernel)

/-- Operands at the ends of a full window. -/
def xA : OpA := ⟨126, 0, 2, false, none⟩

theorem witness_IntegerArithmeticResults :
    issueAll s0 c0 [.add xA, .sub xA, .addc xA, .subb xA, .minS xA, .maxS xA, .minU xA, .maxU xA, .and xA, .or xA, .xor xA,
      .andn xA, .orn xA, .xnor xA, .sel xA, .bswz xA, .shl xA, .shr xA, .sar xA, .rol xA, .shl64 xA, .shr64 xA, .sar64 xA,
      .fshf xA, .mulLo xA, .mulHiS xA, .mulHiU xA, .madLo xA, .madHiS xA, .madHiU xA, .mulWideS xA, .mulWideU xA] ∧
    (Instr.bswz xA).wf = true ∧ (Instr.shl64 xA).wf = true ∧ (Instr.shr64 xA).wf = true ∧ (Instr.sar64 xA).wf = true ∧
    (Instr.fshf xA).wf = true ∧ (Instr.mulWideS xA).wf = true ∧ (Instr.mulWideU xA).wf = true :=
  ⟨issueAll_of _ _ _ (by decide +kernel), by decide⟩

theorem witness_BitCompareImmediateResults :
    issueAll s0 c0 [.popc ⟨127, 0, true, none⟩, .clz ⟨127, 0, true, none⟩, .ctz ⟨127, 0, true, none⟩, .brev ⟨127, 0, true, none⟩,
      .iabs ⟨127, 0, true, none⟩, .bfxU xA, .bfxS xA, .bfi xA, .icmp ⟨.lt64U, 1, 2, 4, true, none⟩, .cmpi ⟨.leU, 1, 2, 255, none⟩,
      .addi ⟨127, 0, 0x400, none⟩, .andi ⟨127, 0, 0x400, none⟩, .ori ⟨127, 0, 0x3FF, none⟩, .xori ⟨127, 0, 0x7FF, none⟩,
      .shli ⟨127, 0, 31, none⟩, .shri ⟨127, 0, 31, none⟩, .sari ⟨127, 0, 31, none⟩, .movw ⟨127, 0xFFFF, none⟩,
      .movt ⟨127, 0x8000, none⟩, .movs ⟨127, 0x8000, none⟩, .lea ⟨3, 126, 0, 2, true, none⟩] ∧
    (Instr.icmp ⟨.lt64U, 1, 2, 4, true, none⟩).wf = true :=
  ⟨issueAll_of _ _ _ (by decide +kernel), by decide⟩

theorem witness_TypedArithmeticResults :
    issueAll s0 c0 [.dadd ⟨.i8x4, 3, 1, 2, true, none⟩, .dsub ⟨.i8x4, 3, 1, 2, true, none⟩, .dmul ⟨.u8x4, 3, 1, 2, none⟩,
      .dmad ⟨.i32, 3, 1, 2, none⟩, .dmin ⟨.i4x8, 3, 1, 2, none⟩, .dmax ⟨.i16x2, 3, 1, 2, none⟩, .faddF32 xA, .fsubF32 xA,
      .fmulF32 xA, .ffmaF32 xA, .fminF32 xA, .fmaxF32 xA, .fcpysF32 xA, .faddF16x2 xA, .fsubF16x2 xA, .fmulF16x2 xA,
      .ffmaF16x2 xA, .fminF16x2 xA, .fmaxF16x2 xA, .fcpysF16x2 xA, .faddBf16x2 xA, .fsubBf16x2 xA, .fmulBf16x2 xA,
      .ffmaBf16x2 xA, .fminBf16x2 xA, .fmaxBf16x2 xA, .fcpysBf16x2 xA, .fadd16 ⟨0, 31⟩, .fmul16 ⟨0, 31⟩, .fmax16 ⟨0, 31⟩,
      .fmin16 ⟨0, 31⟩, .fcmp ⟨.f16, .unord, 3, 1, 2, none⟩, .fclass ⟨.f32, 3, 1, none⟩, .abst ⟨.bf16, 3, 1, none⟩,
      .frcp ⟨.f32, 3, 1, true, none⟩, .frsq ⟨.f32, 3, 1, true, none⟩, .fsqrt ⟨.f32, 3, 1, true, none⟩,
      .fexp2 ⟨.f16, 3, 1, true, none⟩, .flog2 ⟨.f16, 3, 1, true, none⟩, .fsin ⟨.f32, 3, 1, true, none⟩,
      .fcos ⟨.f32, 3, 1, true, none⟩, .ftanh ⟨.bf16, 3, 1, true, none⟩] ∧ ∀ fl, c0.quiet fl :=
  ⟨issueAll_of _ _ _ (by decide +kernel), quiet_c0⟩

/-- One active lane whose v2 is a good control word of PACK and UNPK. -/
def sPack : State := machine (group (warp [(2, 0x012A)]) lone) (warp [(2, 0x012A)]) lone
def cPack : Ctx := ctx (group (warp [(2, 0x012A)]) lone) (warp [(2, 0x012A)]) lone

theorem witness_ConversionAndCodebookResults :
    issueAll sPack cPack [.cvt ⟨.f16, .e4m3, false, 2, 1, none⟩, .cvts ⟨.f32, .se4m3, false, 4, 2, none⟩, .pack ⟨3, 1, 2, none⟩,
      .unpk ⟨3, 1, 2, none⟩, .cbset ⟨7, 127, none⟩, .cbget ⟨7, 127, none⟩, .cbenc ⟨.f32, .cb2, 126, 1, none⟩,
      .cbdec ⟨0, .cb4, 3, 1, none⟩, .absm ⟨.i8, 3, 1, none⟩, .absc ⟨.e2m1, 3, 1, none⟩] ∧
    (∀ l ∈ cPack.act none, packOk (cPack.reg 2 l) = true) ∧ ∀ fl, cPack.quiet fl :=
  ⟨issueAll_of _ _ _ (by decide +kernel), by decide +kernel, quiet_c0⟩

theorem witness_CrossLaneResults :
    issueAll s0 c0 [.shfl ⟨.xor, 3, 1, 2, true, none⟩, .vote ⟨.matchAll, 3, 1, true, none⟩, .red ⟨.add, .f32, 2, 1, none⟩,
      .scan ⟨.max, .u8x4, 2, 1, none⟩, .arg ⟨.minS32, 124, 1, 2, none⟩] ∧
    (∀ l ∈ c0.act none, ((c0.reg 2 l).extractLsb' 8 3).toNat ≤ 4) ∧ ∀ fl, c0.quiet fl :=
  ⟨issueAll_of _ _ _ (by decide +kernel), by decide +kernel, quiet_c0⟩

theorem witness_NumberValues : f32Finite 0x7F7FFFFF ∧ f32Finite 0x80000001 ∧ (0x7FFFFFFF : Word) ≠ 0x80000000 ∧
    packOk 0x012A = true := by
  refine ⟨by unfold f32Finite; decide, by unfold f32Finite; decide, by decide, by decide +kernel⟩

/-! ### Witnesses: control and special registers -/

theorem live_of (c : Ctx) (h : (c.cur.clo.isNone && decide (c.cur.mask = c.split.mask) && decide ((c.warp.splits.map fun x => x.num).Nodup)
    && decide (∀ x ∈ c.warp.splits, x.num < 4) && decide (c.warp.masks.Pairwise fun a b => a &&& b = 0)) = true) : c.Live := by
  simp only [Bool.and_eq_true, decide_eq_true_eq, Option.isNone_iff_eq_none] at h
  obtain ⟨⟨⟨⟨a, b⟩, d⟩, e⟩, f⟩ := h
  exact ⟨a, b, d, e, f⟩

/-- One active lane, with the address of the second instruction in v2:v3 and an odd one in v4:v5. -/
def wBr : Warp := warp [(2, 0x10004), (4, 0x10001)]
def sBr : State := machine (group wBr lone) wBr lone
def cBr : Ctx := ctx (group wBr lone) wBr lone

theorem witness_BranchesMoveLanes :
    c0.Live ∧ cBr.Live ∧ s0.badTarget c0.grp (c0.cur.pc + 2 * (2 : BitVec 15).signExtend 64) = none ∧
    issueAll s0 c0 [.bra ⟨.always, 0, 2⟩, .brc ⟨.nneg, 1, 2⟩, .ball ⟨1, 2⟩, .bany ⟨1, 2⟩, .bnone ⟨1, 2⟩, .bpnd ⟨true, 1, 2⟩,
      .call ⟨2, 2⟩, .bra ⟨.always, 0, 0x4000⟩, .call ⟨2, 0x4000⟩] ∧
    c0.warp.overflows c0.cur.split 2 = false ∧
    issueAll sBr cBr [.ret ⟨2⟩, .brx ⟨2⟩] ∧ sBr.badTarget cBr.grp (cBr.pair 2 (cBr.low none)) = none ∧
    (∀ l ∈ cBr.act none, sBr.badTarget cBr.grp (cBr.pair 2 l) = none) ∧
    cBr.warp.overflows cBr.cur.split ((cBr.act none).map fun l => cBr.pair 2 l).eraseDups.length = false ∧
    (s0.badTarget c0.grp (c0.cur.pc + 2 * (0x4000 : BitVec 15).signExtend 64)).isSome = true ∧
    issuer? s0 = some c0 ∧ issuer? sBr = some cBr ∧ cBr.beyond (.ret ⟨4⟩) = false ∧ cBr.poison? (.ret ⟨4⟩) = none ∧
    sBr.badTarget cBr.grp (cBr.pair 4 (cBr.low none)) = some (0x21, 0x10001, none) :=
  ⟨live_of _ (by decide +kernel), live_of _ (by decide +kernel), by decide +kernel, issueAll_of _ _ _ (by decide +kernel),
    by decide +kernel, issueAll_of _ _ _ (by decide +kernel), by (repeat' apply And.intro) <;> decide +kernel⟩

theorem witness_JoinYieldExitEffects : c0.Live ∧ c0.split.pc = c0.cur.pc ∧ issueAll s0 c0 [.join, .yld, .exit] :=
  ⟨live_of _ (by decide +kernel), rfl, issueAll_of _ _ _ (by decide +kernel)⟩

/-- A user handler that has been entered, with the address of the second instruction in the record at %annbase + 2,048. -/
def wUret : Warp := { warp [] with annbase := 0x10000, inu := some ⟨0, 1, [], none, false⟩ }
def sUret : State := (machine (group wUret split) wUret split).writeRaw (putAt 0x10800 (natBytes 8 0x10004))
def cUret : Ctx := ctx (group wUret split) wUret split

theorem witness_ProgramTrapsAndReturn :
    c0.cur.clo = none ∧ issueAll s0 c0 [.trapx ⟨127⟩, .brk, .uret] ∧ c0.warp.inu = none ∧
    (0x5000004F : Word).getLsbD 0 = true ∧ (0x5000004F : Word).extractLsb' 1 6 = 0x27 ∧
    (0x5000004F : Word).extractLsb' 28 3 = 5 ∧ (0x7000004F : Word).extractLsb' 28 3 = 7 ∧
    issueAll sUret cUret [.uret] ∧ cUret.warp.inu = some ⟨0, 1, [], none, false⟩ ∧
    sUret.translate cUret.grp.core cUret.grp.asid .read cUret.warp.userSlot = .ok 0x10800 ∧
    sUret.badTarget cUret.grp (BitVec.ofNat 64 (readNat (sUret.farByte cUret.grp.core cUret.grp.part) 0x10800 8)) = none := by
  refine ⟨rfl, issueAll_of _ _ _ ?_, rfl, ?_, ?_, ?_, ?_, issueAll_of _ _ _ ?_, rfl, ?_, ?_⟩ <;> decide +kernel

def wOne : Warp := warp [(1, 1)]
def wAnn : Warp := { warp [] with annLive := 1 }

theorem witness_SpecialRegisterAccess :
    issueAll s0 c0 [.mfu ⟨.lane, 127, none⟩, .mfu ⟨.targ, 126, none⟩, .mtu ⟨.uvec, 2, none⟩, .mtu ⟨.annbase, 2, none⟩,
      .mtu ⟨.fflags, 2, none⟩, .mtu ⟨.phasef, 2, none⟩, .mtu ⟨.lane, 2, none⟩] ∧
    (c0.pair 2 (c0.low none)).extractLsb' 0 6 = 0 ∧ s0.uncollected c0 = false ∧
    (let c := ctx (group wOne split) wOne split; let s := machine (group wOne split) wOne split;
      issueAll s c [.mtu ⟨.uvec, 1, none⟩, .mtu ⟨.annbase, 1, none⟩] ∧ (c.pair 1 (c.low none)).extractLsb' 0 2 ≠ 0 ∧
      s.uncollected c = false ∧ (c.pair 1 (c.low none)).extractLsb' 0 6 ≠ 0) ∧
    (let c := ctx (group wAnn split) wAnn split; let s := machine (group wAnn split) wAnn split;
      issueAll s c [.mtu ⟨.annbase, 2, none⟩] ∧ s.uncollected c = true) := by
  refine ⟨issueAll_of _ _ _ ?_, ?_, ?_, ⟨issueAll_of _ _ _ ?_, ?_, ?_, ?_⟩, ⟨issueAll_of _ _ _ ?_, ?_⟩⟩ <;> decide +kernel

def wTile : Warp := warp [(1, 32), (2, 1)]

theorem witness_ModeInstructions :
    (let c := ctx (group wTile split) wTile split; let s := machine (group wTile split) wTile split;
      issueAll s c [.tile ⟨1, none⟩, .tile ⟨2, none⟩, .dmode ⟨2, none⟩, .dmode ⟨3, none⟩, .dqry ⟨3, 126, none⟩] ∧
      c.reg 1 (c.low none) ∈ ([2, 4, 8, 16, 32] : List Word) ∧ c.reg 2 (c.low none) ∉ ([2, 4, 8, 16, 32] : List Word) ∧
      (c.reg 2 (c.low none)).getLsbD 0 = true ∧ c.grp.deferred = false ∧
      (c.streamed && (c.warp.pend.any fun p => p.reg == 126 || p.reg == 127)) = false) ∧
    (let w := pendingWarp true; let c := ctx (group w split) w split; let s := machine (group w split) w split;
      issueAll s c [.dmode ⟨3, none⟩, .dqry ⟨0, 4, none⟩] ∧ (c.reg 3 (c.low none)).getLsbD 0 = false ∧ c.grp.deferred = true ∧
      (c.streamed && (c.warp.pend.any fun p => p.reg == 4 || p.reg == 5)) = true) ∧
    (0x20000055 : Word).getLsbD 0 = true ∧ (0x20000055 : Word).extractLsb' 1 6 = 0x2A ∧ (0x20000055 : Word).extractLsb' 28 4 = 2 := by
  refine ⟨⟨issueAll_of _ _ _ ?_, ?_, ?_, ?_, ?_, ?_⟩, ⟨issueAll_of _ _ _ ?_, ?_, ?_, ?_⟩, ?_, ?_, ?_⟩ <;> decide +kernel

/-- v2:v3 holds 2 MiB, v4 the size code 12, v6:v7 1. -/
def wSys : Warp := warp [(2, 0x200000), (4, 12), (6, 1)]
def sSys : State := machine (group wSys split) wSys split
def cSys : Ctx := ctx (group wSys split) wSys split

theorem witness_SystemRegisterAccess :
    issueAll sSys cSys [.mfsr ⟨.ready, 127⟩, .mfsr ⟨.kvec, 126⟩, .mtsr ⟨.kvec, 2⟩, .mtsr ⟨.kvec, 6⟩, .mtsr ⟨.ktrb, 2⟩,
      .mtsr ⟨.kscr0, 2⟩, .mtsr ⟨.kscr1, 2⟩, .mtsr ⟨.ptroot, 2⟩, .mtsr ⟨.fqbase, 2⟩, .mtsr ⟨.fqctl, 4⟩, .mtsr ⟨.racecfg, 4⟩,
      .mtsr ⟨.orphlog, 2⟩, .mtsr ⟨.peatq, 2⟩, .mtsr ⟨.intlog, 2⟩, .mtsr ⟨.fwmbx, 2⟩, .mtsr ⟨.kstat, 2⟩, .mtsr ⟨.ready, 2⟩] ∧
    (let v := cSys.pair 2 (cSys.low none);
      v.extractLsb' 0 2 = 0 ∧ v.toNat % 0x80000 = 0 ∧ physRangeOk v.toNat 0x80000 = true ∧ v.toNat % 0x200000 = 0 ∧
      physRangeOk v.toNat 0x200000 = true ∧ physOk v.toNat = true) ∧
    (cSys.pair 6 (cSys.low none)).extractLsb' 0 2 ≠ 0 ∧ (cSys.reg 4 (cSys.low none)).toNat % 16 ≤ 12 ∧
    sSys.fqBusy cSys.grp.part = false ∧
    (let s := sSys.writeRaw [(0, 1)]; issueAll s cSys [.mtsr ⟨.fqbase, 2⟩, .mtsr ⟨.fqctl, 4⟩] ∧ s.fqBusy cSys.grp.part = true) := by
  refine ⟨issueAll_of _ _ _ ?_, ?_, ?_, ?_, ?_, ⟨issueAll_of _ _ _ ?_, ?_⟩⟩ <;> decide +kernel

/-- A kernel handler that has been entered, whose record names the second instruction, or a reserved ACT. -/
def wTret : Warp := { warp [] with inh := some ⟨0, 1, [], none, false⟩ }
def sTret (epc act : Nat) : State :=
  (machine (group wTret split) wTret split).writeRaw (putAt 0 (natBytes 8 epc) ++ putAt 28 (natBytes 1 act))
def cTret : Ctx := ctx (group wTret split) wTret split

theorem witness_KernelReturnResumes :
    issueAll (sTret 0x10004 0) cTret [.tret] ∧ cTret.warp.inh = some ⟨0, 1, [], none, false⟩ ∧
    (∀ epc ∈ ([0x10004, 0x10001] : List Nat), let s := sTret epc 0;
      let r := readSlot (s.farByte cTret.grp.core cTret.grp.part) (s.trapSlot cTret.grp.core cTret.warp.slot);
      r.act = 0 ∧ r.ecv = false ∧ ((s.badTarget cTret.grp r.epc).isSome = decide (epc = 0x10001))) ∧
    issueAll (sTret 0x10001 0) cTret [.tret] ∧
    issueAll s0 c0 [.tret] ∧ c0.warp.inh = none ∧
    issueAll (sTret 0x10004 3) cTret [.tret] ∧
    (readSlot ((sTret 0x10004 3).farByte cTret.grp.core cTret.grp.part) ((sTret 0x10004 3).trapSlot cTret.grp.core cTret.warp.slot)).act = 3 := by
  refine ⟨issueAll_of _ _ _ ?_, rfl, ?_, issueAll_of _ _ _ ?_, issueAll_of _ _ _ ?_, rfl, issueAll_of _ _ _ ?_, ?_⟩ <;> decide +kernel

/-- An outcome is a next state with a property. -/
def nextWith (o : Host.Outcome State Fault Refusal) (p : State → Bool) : Bool :=
  match o with
  | .next t => p t
  | _ => false

theorem next_of {o : Host.Outcome State Fault Refusal} {p : State → Bool} (h : nextWith o p = true) :
    ∃ t, o = .next t ∧ p t = true := by
  cases o with
  | next t => exact ⟨t, rfl, h⟩
  | fault => simp [nextWith] at h
  | refused => simp [nextWith] at h

theorem witness_ModeIsFixed : (Instr.nop).encoded = true ∧ (s0.groups.map fun x => x.gid).Nodup ∧ (s0.group? 1).isSome = true ∧
    ∃ t, exec .nop s0 = .next t ∧ (t.group? 1).isSome = true :=
  ⟨by decide, by decide +kernel, by decide +kernel, next_of (by decide +kernel)⟩

theorem witness_KernelRegistersKept : (Instr.nop).encoded = true ∧ (Instr.nop).privileged = false ∧
    (s0.warp? 1 0).isSome = true ∧ ∃ t, exec .nop s0 = .next t ∧ (t.warp? 1 0).isSome = true :=
  ⟨by decide, by decide, by decide +kernel, next_of (by decide +kernel)⟩

/-! ### Witnesses: memory -/

/-- The checks of an access, as a Bool. -/
def accessB (s : State) (c : Ctx) (p : Space) (n : Nat) (wr : Bool) (es : List Ea) : Bool :=
  es.all fun e => !e.mis && !e.prot && !s.lockedAt c.grp p e n &&
    match s.placeOf c.grp wr e with
    | some l => (s.raceOf c.grp (e, l)).isNone
    | none => false

theorem accessible_of {s : State} {c : Ctx} {p : Space} {n : Nat} {wr plain : Bool} {es : List Ea}
    (h : accessB s c p n wr es = true) : Accessible s c p n wr plain es := by
  have key : ∀ e ∈ es, e.mis = false ∧ e.prot = false ∧ s.lockedAt c.grp p e n = false ∧
      (match s.placeOf c.grp wr e with | some l => (s.raceOf c.grp (e, l)).isNone | none => false) = true := by
    intro e m
    have := List.all_eq_true.1 h e m
    simp only [Bool.and_eq_true, Bool.not_eq_true'] at this
    exact ⟨this.1.1.1, this.1.1.2, this.1.2, this.2⟩
  refine ⟨fun e m => (key e m).1, fun e m => (key e m).2.1, fun e m hn => ?_, fun e m => (key e m).2.2.1, fun _ _ e m l hl => ?_⟩
  · have := (key e m).2.2.2; simp [hn] at this
  · have := (key e m).2.2.2; simpa [hl] using this

/-- One active lane: v2:v3 is a mapped far address, v4 an odd address, v5 the end of scratch, v6:v7 an unmapped far
address. -/
def wMem : Warp := warp [(2, 0x10100), (4, 1), (5, 0x10000), (6, 0x20000)]
def sMem : State := machine (group wMem lone) wMem lone
def cMem : Ctx := ctx (group wMem lone) wMem lone

/-- The same in deferring mode. -/
def sDef : State := machine (deferGroup wMem lone) wMem lone
def cDef : Ctx := ctx (deferGroup wMem lone) wMem lone

/-- A value of v8 that has come, in lane 0. -/
def flown : Fly := ⟨50, 1, 0, 1, 1, [(8, List.replicate 32 7)], [], 0, none, .b32, none, [], 0, false⟩

theorem witness_LoadsAndLanding :
    issueAll sMem cMem [.ld ⟨.b128, .s, 8, 0, 63, none⟩, .ld ⟨.b64, .g, 8, 2, 0, none⟩, .ldx ⟨.n, 8, 0, 1, none⟩] ∧
    cMem.accLanes none ≠ [] ∧ sMem.fly? (cMem.key sMem) = none ∧
    Accessible sMem cMem .s 16 false true ((cMem.accLanes none).map fun l => cMem.ea sMem .s 0 (BitVec.ofNat 64 (63 * 16)) 16 l) ∧
    Accessible sMem cMem .g 8 false true ((cMem.accLanes none).map fun l => cMem.ea sMem .g 2 (BitVec.ofNat 64 0) 8 l) ∧
    Accessible sMem cMem .n 4 false true
      ((cMem.accLanes none).map fun l => cMem.ea sMem .n 0 ((cMem.reg 1 l).setWidth 64) 4 l) ∧
    (let s := { s0 with flys := [flown] };
      s.fly? 50 = some flown ∧ (s.group? flown.gid).isSome = true ∧ (s.warp? flown.gid flown.widx).isSome = true ∧
      c0.grp.stat ≠ .moving ∧ (∀ x ∈ c0.warp.splits, x.busy ≠ some 50) ∧ flown.todo = [] ∧ flown.future = none ∧
      flown.left = 0 ∧ flown.ready = flown.mask ∧ flown.mask ≠ 0) := by
  refine ⟨issueAll_of _ _ _ ?_, ?_, ?_, accessible_of ?_, accessible_of ?_, accessible_of ?_, ?_⟩ <;> decide +kernel

theorem witness_StoresWriteTheirBytes :
    issueAll sMem cMem [.st ⟨.b128, .s, 8, 0, 63, none⟩, .st ⟨.b8, .g, 8, 2, 63, none⟩, .stx ⟨.n, 8, 0, 1, none⟩] ∧
    cMem.act none ≠ [] ∧
    Accessible sMem cMem .s 16 true true ((cMem.act none).map fun l => cMem.ea sMem .s 0 (BitVec.ofNat 64 (63 * 16)) 16 l) ∧
    Accessible sMem cMem .g 1 true true ((cMem.act none).map fun l => cMem.ea sMem .g 2 (BitVec.ofNat 64 63) 1 l) ∧
    Accessible sMem cMem .n 4 true true ((cMem.act none).map fun l => cMem.ea sMem .n 0 ((cMem.reg 1 l).setWidth 64) 4 l) := by
  refine ⟨issueAll_of _ _ _ ?_, ?_, accessible_of ?_, accessible_of ?_, accessible_of ?_⟩ <;> decide +kernel

theorem witness_AccessTrapsInOrder :
    issueAll sMem cMem [.ld ⟨.b32, .s, 8, 4, 0, none⟩, .ld ⟨.b32, .s, 8, 5, 0, none⟩, .st ⟨.b32, .s, 8, 4, 0, none⟩,
      .st ⟨.b32, .s, 8, 5, 0, none⟩, .st ⟨.b32, .g, 8, 6, 0, none⟩] ∧ cMem.accLanes none = [0] ∧ cMem.act none = [0] ∧
    (cMem.ea sMem .s 4 0 4 0).mis = true ∧
    (cMem.ea sMem .s 5 0 4 0).mis = false ∧ (cMem.ea sMem .s 5 0 4 0).prot = true ∧ cMem.kindOne = false ∧
    (let e := cMem.ea sMem .g 6 0 4 0;
      e.mis = false ∧ e.prot = false ∧ e.loc = none ∧
      sMem.translate cMem.grp.core cMem.grp.asid .write e.va = .bad ⟨0, 0, 0x20000⟩) := by
  refine ⟨issueAll_of _ _ _ ?_, ?_⟩ <;> ((repeat' apply And.intro) <;> decide +kernel)

theorem witness_AtomicsReachTheirEngine :
    issueAll sMem cMem [.atom ⟨.incw, .group, false, false, .s, 8, 0, none⟩, .atom ⟨.cas, .device, true, true, .g, 8, 2, none⟩] ∧
    cMem.act none ≠ [] ∧ sMem.fly? (cMem.key sMem) = none ∧
    Accessible sMem cMem .s 4 true false ((cMem.act none).map fun l => cMem.ea sMem .s 0 0 4 l) ∧
    Accessible sMem cMem .g 8 true false ((cMem.act none).map fun l => cMem.ea sMem .g 2 0 8 l) ∧
    (∀ l ∈ cMem.act none, sMem.placeOf cMem.grp true (cMem.ea sMem .s 0 0 4 l) = some (.sram 1 0)) ∧
    (Loc.sram 1 0).peer = false ∧ sMem.locEngine (.sram 1 0) < portEngine := by
  refine ⟨issueAll_of _ _ _ ?_, ?_, ?_, accessible_of ?_, accessible_of ?_, ?_, ?_, ?_⟩ <;> decide +kernel

/-- A waiter on a future of far memory that a plain write has filled, and an atomic add of one lane on the same place. -/
def waiting : State := (({ s0 with waiters := [⟨.phys 0x10200, 1, 0, 0, 50⟩] }).writeRaw (putAt 0x10204 [1]))
def adding : Batch := ⟨60, engineOf 0x10200, 0, 1, 0, 50, .atom .add false, [⟨0, .phys 0x10200, 5, 0⟩]⟩

theorem witness_HomeEngineServes :
    waiting.filledWaiter (engineOf 0x10200) = some ⟨.phys 0x10200, 1, 0, 0, 50⟩ ∧
    (let s := { s0 with batches := [adding], flys := [{ flown with left := 1, ready := 0 }] };
      s.filledWaiter adding.engine = none ∧ s.nextBatch adding.engine = some (adding, false) ∧
      isPeer (0x10200 + 8) = false ∧ s.fly? adding.fly = some { flown with left := 1, ready := 0 }) := by
  refine ⟨?_, ?_, ?_, ?_, ?_⟩ <;> decide +kernel

/-- A release of two bytes at device scope, a landing seen by every core, and as many of them as force an acquire. -/
def release : Release := ⟨70, 0, 5, 0, 1023, 0xFF, [], [(0x10200, 1), (0x10201, 2)], [], [], [], false⟩
def landed : Landing := ⟨1, 1, 0, 0, 1023, 0xFF, []⟩

theorem witness_PhasesAndReleases :
    issueAll s0 c0 [.phaseRel ⟨.group, none⟩, .phaseAr ⟨.system, none⟩, .fence ⟨.lane, none⟩, .phaseAcq ⟨.gang, false, 0, none⟩] ∧
    (landed ∈ { s0 with log := [landed] }.log ∧ ∀ k ∈ { s0 with log := [landed] }.log, k.idx = landed.idx → k = landed) ∧
    (let s := s0.setCore 0 { Core.fresh with relq := [release] };
      (s.core 0).relq = [release] ∧ s.watches = [] ∧ s.peatFull release.part release.writes = false) ∧
    c0.act (some { plainMod with pred := 1 }) = [] ∧
    65536 < ({ s0 with log := List.replicate 65537 landed }).relCount 0 := by
  refine ⟨issueAll_of _ _ _ (by decide +kernel), by decide +kernel, by decide +kernel, by decide +kernel, ?_⟩
  unfold State.relCount
  rw [List.filter_replicate_of_pos (by decide +kernel), List.length_replicate]
  decide

theorem witness_StepKeepsMemory : (State.reset.withFetchWord 32 0x83009419).memWf = true ∧
    (∀ g ∈ (State.reset.withFetchWord 32 0x83009419).groups, g.memWf = true) ∧
    ∃ t, step (State.reset.withFetchWord 32 0x83009419) = .next t ∧ (t.warp? 1 0).isSome = true :=
  ⟨by decide +kernel, by decide +kernel, next_of (by decide +kernel)⟩

theorem witness_StepKeepsScratch : (State.reset.withFetchWord 32 0x83009419).memWf = true ∧
    (∀ g ∈ (State.reset.withFetchWord 32 0x83009419).groups, g.memWf = true) ∧
    (State.reset.withFetchWord 32 0x83009419).groups ≠ [] := by decide +kernel

/-! ### Witnesses: barriers, futures, announced operations -/

/-- A group whose barrier 3 has been initialised for two arrivals, by itself or by its gang. -/
def bar2 : Bar := { Bar.fresh with init := true, count := 2 }
def gBar (dm : Bool) (gang : Bool) (w : Warp) : Group :=
  { group w lone with dmode := dm, isGang := gang, bars := if gang then [(19, { bar2 with gang := true, inits := [0] })] else [(3, bar2)] }
def sBar (dm gang : Bool) (w : Warp) : State := machine (gBar dm gang w) w lone
def cBar (dm gang : Bool) (w : Warp) : Ctx := ctx (gBar dm gang w) w lone

/-- Lane 0 holds 1 in v1, 1,024 in v2, 1,025 in v3, 255 in v4 and 2 in v5. -/
def wBar : Warp := warp [(1, 1), (2, 1024), (3, 1025), (4, 255), (5, 2)]

theorem witness_BarriersCountAndPhase :
    (let s := sBar false false wBar; let c := cBar false false wBar;
      issueAll s c [.barInit ⟨false, 15, 2, none⟩, .barInit ⟨false, 3, 1, none⟩, .barInit ⟨false, 0, 3, none⟩,
        .barInit ⟨false, 0, 0, none⟩, .barAdd ⟨3, 4, none⟩, .barArv ⟨3, none⟩, .barTst ⟨3, 8, none⟩, .barPnd ⟨3, 8, none⟩,
        .barArv ⟨4, none⟩] ∧
      c.act none ≠ [] ∧ c.warp.task = false ∧ s.barOf c.grp 15 = none ∧ (smGet Bar.fresh c.grp.bars 15).init = false ∧
      s.barOf c.grp 3 = some (c.grp, 3, bar2) ∧ (smGet 0 c.warp.arvp 3 = bar2.ph) ∧ bar2.ee0 + 255 ≤ 255 ∧
      (smGet 0 c.warp.arvp 3 - smGet 0 c.warp.obsp 3).toNat < 2 ∧ bar2.pnds = [] ∧ bar2.ta0 + 1 < bar2.count ∧
      (smGet 0 c.warp.obsp 3 - bar2.ph).msb = false ∧ c.grp.dmode = false ∧ s.barOf c.grp 4 = none) ∧
    (let w := { wBar with arvp := [(3, 1)] }; let s := sBar false false w; let c := cBar false false w;
      issueAll s c [.barAdd ⟨3, 1, none⟩] ∧ smGet 0 c.warp.arvp 3 = bar2.ph + 1 ∧ (smGet 0 c.warp.arvp 3 - bar2.ph).msb = false ∧
      s.barOf c.grp 3 = some (c.grp, 3, bar2)) ∧
    (let w := wBar; let s := sBar true true w; let c := cBar true true w;
      issueAll s c [.barInit ⟨true, 4, 5, none⟩, .barInit ⟨true, 3, 5, none⟩, .barInit ⟨true, 3, 1, none⟩, .barArv ⟨3, none⟩,
        .barPnd ⟨3, 8, none⟩] ∧ (1 < c.grp.members ∨ c.grp.isGang = true) ∧ s.barHome? c.grp = some c.grp ∧
      (smGet Bar.fresh c.grp.bars 20).init = false ∧ (smGet Bar.fresh c.grp.bars 19).init = true ∧
      (smGet Bar.fresh c.grp.bars 19).count = 2 ∧ (s.barOf c.grp 3).isSome = true ∧ c.grp.dmode = true ∧
      s.fly? (c.key s) = none) ∧
    (let y := { bar2 with ph := 1 }; let g := { gBar false false wBar with bars := [(3, { y with ta0 := 1 })] };
      let s := machine g wBar lone; let c := ctx g wBar lone;
      issueAll s c [.barTst ⟨3, 8, none⟩] ∧ (smGet 0 c.warp.obsp 3 - y.ph).msb = true ∧
      (s.barOf c.grp 3).isSome = true ∧ y.count ≤ 1 + 1) ∧
    (∀ n ∈ ([0, 1] : List Nat), let y := { bar2 with ta0 := n }; let g := { gBar false false wBar with bars := [(3, y)] };
      let r : Release := ⟨70, 0, 2, 0, 1023, 0xFF, [], [], [], [], [.arrive 1 3 0], false⟩;
      let s := (machine g wBar lone).setCore 0 { Core.fresh with relq := [r] };
      (s.core 0).relq = [r] ∧ r.scope < 3 ∧ (s.group? 1).map (fun h => smGet Bar.fresh h.bars 3) = some y ∧ y.init = true ∧
      y.pnds = [] ∧ 0 = y.ph ∧ y.ea0 = y.ee0 ∧ y.ta1 < y.count ∧ (y.ta0 + 1 < y.count ∨ n = 1)) := by
  refine ⟨⟨issueAll_of _ _ _ ?_, ?_⟩, ⟨issueAll_of _ _ _ ?_, ?_⟩, ⟨issueAll_of _ _ _ ?_, ?_⟩, ⟨issueAll_of _ _ _ ?_, ?_⟩, ?_⟩ <;>
    decide +kernel

/-- An FGET of non-deferring mode whose answers are here, or not, and eight open ones of deferring mode. -/
def fut (ready : Word) : Fly := { flown with ready := ready, future := some false }
def busyLone : Split := { lone with busy := some 50 }
def sFut (ready : Word) : State := { machine (group wMem busyLone) wMem busyLone with flys := [fut ready] }
def cFut : Ctx := ctx (group wMem busyLone) wMem busyLone

theorem witness_FuturesSendAndAnswer :
    cDef.act none ≠ [] ∧ sDef.fly? (cDef.key sDef) = none ∧ cDef.grp.dmode = true ∧
    issueAll sDef cDef [.fget ⟨.s, 8, 0, none⟩, .fset ⟨.g, 8, 2, none⟩, .fclr ⟨.n, 0, 0, none⟩] ∧
    sDef.openFgets cDef.cur.gid cDef.cur.widx < 8 ∧
    Accessible sDef cDef .s 8 false false ((cDef.act none).map fun l => cDef.ea sDef .s 0 0 8 l) ∧
    Accessible sDef cDef .g 8 true false ((cDef.act none).map fun l => cDef.ea sDef .g 2 0 8 l) ∧
    Accessible sDef cDef .n 8 true false ((cDef.act none).map fun l => cDef.ea sDef .n 0 0 8 l) ∧
    (∀ l ∈ cDef.act none, sDef.placeOf cDef.grp true (cDef.ea sDef .g 2 0 8 l) = some (.phys 0x10100)) ∧
    (Loc.phys 0x10100).peer = false ∧ sDef.locEngine (.phys 0x10100) < portEngine ∧
    issueAll (sFut 1) cFut [.fget ⟨.s, 8, 0, none⟩] ∧ issueAll (sFut 0) cFut [.fget ⟨.s, 8, 0, none⟩] ∧
    cFut.act none = [0] ∧ cFut.grp.dmode = false ∧ (cFut.split.busy.bind (sFut 1).fly?) = some (fut 1) ∧
    (cFut.split.busy.bind (sFut 0).fly?) = some (fut 0) ∧ (fut 1).left = 0 ∧ (fut 1).ready.getLsbD 0 = true ∧
    (fut 0).ready.getLsbD 0 = false ∧
    (let s := { sDef with flys := List.replicate 8 { fut 0 with future := some true } };
      issueAll s cDef [.fget ⟨.s, 8, 0, none⟩] ∧ 8 ≤ s.openFgets cDef.cur.gid cDef.cur.widx ∧
      Accessible s cDef .s 8 false false ((cDef.act none).map fun l => cDef.ea s .s 0 0 8 l)) := by
  refine ⟨?_, ?_, ?_, issueAll_of _ _ _ ?_, ?_, accessible_of ?_, accessible_of ?_, accessible_of ?_, ?_, ?_, ?_,
    issueAll_of _ _ _ ?_, issueAll_of _ _ _ ?_, ?_, ?_, ?_, ?_, ?_, ?_, ?_, issueAll_of _ _ _ ?_, ?_, accessible_of ?_⟩ <;>
    decide +kernel

/-- A warp with announcement records at 0x11000 and a header at 0x10100, in both modes; a drive of its lane 0. -/
def wAnno : Warp := { warp [(2, 0x10100), (9, 16)] with annbase := 0x11000 }
def drive (sync help : Bool) (stage : Stage) : Drive :=
  ⟨80, 1, 0, 0, help, sync, page, 0, none, .g, 0x10100, 1, 5, 0, 0, 50, 8, stage, 0, 0, 0, 0, 0, 0, 0, 0, 0, 0, false, false, (7, 0)⟩
def gAnno (dm : Bool) (sp : Split) : Group := { group wAnno sp with dmode := dm }
def sAnno (dm : Bool) (sp : Split) (ds : List Drive) : State := { machine (gAnno dm sp) wAnno sp with drives := ds }
def cAnno (dm : Bool) (sp : Split) : Ctx := ctx (gAnno dm sp) wAnno sp

/-- A place that a result of `farPlace` or `swapPlace` gives. -/
def farIs (r : Except FarFault Nat) (q : Nat) : Bool := match r with | .ok x => x == q | .error _ => false
def swapIs (r : SwapPlace) (q : Nat) (h : Loc) : Bool := match r with | .ok x y => x == q && y == h | _ => false

/-- A tail swap of the drive, or its collection, at the engine of its place. -/
def annBatch (stage : Stage) (a : Nat) : Batch := ⟨60, engineOf a, 0, 1, 0, 0, .ann stage, [⟨0, .phys a, 80, 0x11000⟩]⟩

theorem witness_AnnouncementsDriveRecords :
    (let s := sAnno true lone []; let c := cAnno true lone;
      issueAll s c [.ann ⟨.add, 0, .g, 4, 1, 8, none⟩, .ann ⟨.psh, 3, .s, 4, 0, 4, none⟩, .annq ⟨4, none⟩] ∧
      c.act none ≠ [] ∧ c.warp.annbase ≠ 0 ∧ c.grp.dmode = true ∧ c.split.busy = none ∧ s.fly? (c.key s) = none ∧
      isContainer (annCode .add) = false ∧ isContainer (annCode .psh) = true ∧ c.annWidth ⟨.psh, 3, .s, 4, 0, 4, none⟩ 0 = 16 ∧
      headerTrap s c .g 2 (c.act none) = none ∧ headerTrap s c .s 0 (c.act none) = none ∧
      swapTrap s c .g 2 ((c.act none).filter fun l => !c.warp.annLive.getLsbD l) = none ∧
      (∀ l ∈ c.act none, s.unswapped c l = false ∧ c.warp.annLive.getLsbD l = false ∧
        swapIs (c.swapPlace s .g 2 l) 0x11000 (.phys 0x10100) = true) ∧
      (Loc.phys 0x10100).peer = false ∧ s.locEngine (.phys 0x10100) < portEngine ∧
      farIs (s.farPlace c.grp false (c.warp.recordAt 0)) 0x11000 = true) ∧
    (∀ stage ∈ ([.swap, .walk] : List Stage), let sp := { lone with busy := some 50 };
      let s := sAnno true sp [drive false false stage]; let c := cAnno true sp;
      issueAll s c [.ann ⟨.add, 0, .g, 4, 1, 8, none⟩] ∧ c.streamed = true ∧ c.split.busy = some 50 ∧
      s.swapping 50 = decide (stage = .swap)) ∧
    (let s := sAnno false lone [drive true false .done]; let c := cAnno false lone;
      issueAll s c [.ann ⟨.add, 0, .g, 4, 1, 8, none⟩] ∧ c.grp.dmode = false ∧ c.split.busy = none ∧
      ∀ l ∈ c.act none, s.driveOf c false l = some (drive true false .done)) ∧
    (let s := sAnno false lone [drive true true .done]; let c := cAnno false lone;
      issueAll s c [.annHlp ⟨.g, 15, 4, 1, none⟩] ∧ ∀ l ∈ c.act none, s.driveOf c true l = some (drive true true .done)) ∧
    (∀ p ∈ ([(.swap, 0x10100), (.collect, 0x11000)] : List (Stage × Nat)),
      let d := drive false false p.1; let bt := annBatch p.1 p.2;
      let s := { sAnno true lone [d] with batches := [bt] }; let c := cAnno true lone;
      s.filledWaiter bt.engine = none ∧ s.nextBatch bt.engine = some (bt, false) ∧ s.drive? 80 = some d ∧
      s.group? d.gid = some c.grp ∧ s.warp? d.gid d.widx = some c.warp ∧ isPeer (0x11000 + 64) = false ∧ s.flys = []) ∧
    (let s := sAnno true lone [drive false false .swap];
      isPeer (0x10100 + 16) = false ∧ (∀ i < 64, ∀ j < 16, rawAddr (0x11000 + i) ≠ rawAddr (0x10100 + j)) ∧
      rawAddr 0x11000 / 128 ≠ rawAddr 0x10100 / 128 ∧ (∀ k ∈ s.links, k.hdr ≠ .phys 0x10100) ∧ s.homeNat 0x10100 4 < 0xFFFFFF) ∧
    (let d := drive false false .collect; let s := sAnno true lone [d]; let c := cAnno true lone;
      s.drive? 80 = some d ∧ s.driveEnabled c.grp c.warp d = true ∧ c.grp.stat ≠ .saved ∧
      farIs (s.farPlace c.grp true (c.warp.recordAt 0)) 0x11000 = true ∧ s.locEngine (.phys 0x11000) < portEngine) := by
  refine ⟨⟨issueAll_of _ _ _ ?_, ?_⟩, ?_, ⟨issueAll_of _ _ _ ?_, ?_⟩, ⟨issueAll_of _ _ _ ?_, ?_⟩, ?_, ?_, ?_⟩
  case refine_3 =>
    intro stage m
    fin_cases m <;> exact ⟨issueAll_of _ _ _ (by decide +kernel), by decide +kernel⟩
  all_goals decide +kernel

/-! ### Witnesses: tasks, feeds, services -/

/-- A task that has waited, of the launch of the page of code, and the state that holds it after 256 clocks of its die. -/
def task : Task := ⟨3, false, page, 0x11000, 0, 1, 0⟩
def sTask : State :=
  { (s0.setCore 0 { Core.fresh with tasks := [task] }).setDie 0 { Die.fresh with cyc8 := 2048 } with launches := [codeLaunch], groups := [] }
def wTask : Warp := { warp [] with task := true }

theorem witness_TasksGather :
    issueAll s0 c0 [.tspawn ⟨8, 0, 2, none⟩, .tend ⟨none⟩] ∧ c0.Live ∧ c0.warp.task = false ∧
    (∀ l ∈ c0.act none, (c0.pair 0 l).extractLsb' 0 2 = 0 ∧ (c0.pair 2 l).extractLsb' 0 6 = 0) ∧
    (let c := ctx (group wTask split) wTask split;
      issueAll (machine (group wTask split) wTask split) c [.tend ⟨none⟩] ∧ c.Live ∧ c.warp.task = true) ∧
    sTask.gathered 0 = [task] ∧ ((sTask.core 0).tasks.map fun x => x.id).Nodup ∧ (∀ y ∈ (s0.core 0).tasks, y.id < s0.uid) ∧ sTask.launch? task.launch = some codeLaunch ∧ (sTask.core 0).held = none ∧
    (∃ p, sTask.placeWarps 0 1 codeLaunch.desc.regs = some [p]) :=
  ⟨issueAll_of _ _ _ (by decide +kernel), live_of _ (by decide +kernel), by decide +kernel, by decide +kernel,
    ⟨issueAll_of _ _ _ (by decide +kernel), live_of _ (by decide +kernel), by decide +kernel⟩, by decide +kernel,
    by decide +kernel, by decide +kernel, by decide +kernel, by decide +kernel, ⟨(0, 0), by decide +kernel⟩⟩

/-- The service feed of die 0 with its state; the same with a record, full, and with a started record. -/
def feed (head tail : Nat) (recs : List FeedRec) : Feed :=
  ⟨90, 0, serviceAsid, 0, 12, 0, 0, head, tail, 0, recs, [], [], 0, [], some (0, 0), false⟩
def entry (started : Bool) : FeedRec := ⟨0, List.replicate 16 7, false, true, started, false, false, none⟩
def sFeed (dm : Bool) (f : Feed) : State := { machine { group (warp []) split with dmode := dm } (warp []) split with feeds := [f] }
def cFeed (dm : Bool) : Ctx := ctx { group (warp []) split with dmode := dm } (warp []) split

theorem witness_FeedsQueueRecords :
    (∀ f ∈ [feed 0 0 [], feed 0 4096 [], feed 0 1 [entry false], feed 1 1 [entry true]],
      issueAll (sFeed false f) (cFeed false) [.fapp ⟨20, 0, 1, none⟩, .fpop ⟨32, 0, none⟩, .fret ⟨20, 0, 1, none⟩] ∧
      (sFeed false f).feedOf (cFeed false).grp ((cFeed false).reg 0 ((cFeed false).low none)).toNat = .ok (some (90, sFeed false f)) ∧
      (sFeed false f).feed? 90 = some f ∧ f.mapped.isSome = true ∧
      (sFeed false f).fly? ((cFeed false).key (sFeed false f)) = none) ∧
    (cFeed false).act none ≠ [] ∧ (feed 0 0 []).full = false ∧ (feed 0 4096 []).full = true ∧
    (feed 0 1 [entry false]).nextRec = some (entry false) ∧ (feed 0 0 []).nextRec = none ∧ (cFeed false).grp.dmode = false ∧
    issueAll (sFeed true (feed 0 0 [])) (cFeed true) [.fpop ⟨32, 0, none⟩] ∧
    (sFeed true (feed 0 0 [])).feedOf (cFeed true).grp ((cFeed true).reg 0 ((cFeed true).low none)).toNat
      = .ok (some (90, sFeed true (feed 0 0 []))) ∧
    (cFeed true).grp.dmode = true ∧ (feed 0 0 []).pops.length < 64 := by
  refine ⟨?_, ?_, ?_, ?_, ?_, ?_, ?_, issueAll_of _ _ _ ?_, ?_, ?_, ?_⟩
  · intro f m
    fin_cases m <;> exact ⟨issueAll_of _ _ _ (by decide +kernel), by decide +kernel⟩
  all_goals decide +kernel

theorem witness_ServiceCallLeavesSheaf :
    issueAll s0 c0 [.svc ⟨20, 0, 0, none⟩] ∧ c0.grp.dmode = false ∧
    (let g := { group (warp []) split with dmode := true, part := 0 }; let c := ctx g (warp []) split;
      let s := { (machine g (warp []) split).setPart 0 { Part.absent with live := true, clusters := [0] } with feeds := [feed 0 0 []] };
      let s1 := s.doAct c.grp c.cur.widx (.release .device false []); let payer := s1.payer c.grp.part;
      issueAll s c [.svc ⟨20, 0, 0, none⟩, .svc ⟨20, 0, 9, none⟩] ∧ c.grp.dmode = true ∧ c.act none ≠ [] ∧
      s1.fly? (c.key s1) = none ∧ classServed 9 = false ∧ classServed 0 = true ∧
      s1.sheavesOf 0 payer < s1.share payer 0 1024 ∧ s1.noticePlaces 0 payer < s1.share payer 0 3840 ∧
      (s1.die 0).freeSheaf = some 0) := by
  refine ⟨issueAll_of _ _ _ ?_, ?_, issueAll_of _ _ _ ?_, ?_⟩ <;> ((repeat' apply And.intro) <;> decide +kernel)

/-- A window of 24 registers, and a pool with fifteen granules. -/
def wGive : Warp := { warp [] with window := 24 }
def gGive : Group := { group wGive split with pools := [15, 0, 0, 0] }

theorem witness_RegisterSharesMove :
    (let s := machine gGive wGive split; let c := ctx gGive wGive split;
      issueAll s c [.rgive ⟨2⟩, .rgive ⟨3⟩, .rclaim ⟨13, 1⟩, .rclaim ⟨14, 1⟩] ∧ 8 * 2 + 8 ≤ c.warp.window ∧
      (∀ r ∈ c.warp.released 2, c.warp.pending r = false ∧ c.warp.held r = false) ∧ c.warp.window < 8 * 3 + 8 ∧
      13 ≤ c.grp.pools.getD (c.warp.slot % 4) 0 ∧ c.warp.window + 8 * 13 ≤ 128 ∧ 128 < c.warp.window + 8 * 14) ∧
    (let g := { gGive with pools := [0, 0, 0, 0] }; let s := machine g wGive split; let c := ctx g wGive split;
      issueAll s c [.rclaim ⟨1, 1⟩] ∧ c.grp.pools.getD (c.warp.slot % 4) 0 < 1 ∧ c.warp.window + 8 * 1 ≤ 128) := by
  refine ⟨⟨issueAll_of _ _ _ ?_, ?_⟩, ⟨issueAll_of _ _ _ ?_, ?_⟩⟩ <;> decide +kernel

/-! ### Witnesses: the matrix engine -/

/-- Reservations for int8 weights and activations, and an engine that holds them. -/
def wgt : Resv := ⟨0, true, 10, 0, 17, 0, 16384, 0⟩
def actv : Resv := ⟨1, false, 10, 32, 16, 0, 8192, 0⟩
def engine : Matrix := { Matrix.fresh with owner := some 1, resv := [wgt, actv] }

/-- Operands of the matrix instructions: a loop in v8, a reservation in v12, a bad one in v14, drains in v16, v20 and v24,
row ranges in v28 and v29. -/
def wMat : Warp := warp [(9, 1), (12, 0xA0008000), (14, 1), (16, 0x02000000), (20, 0x0A000000), (21, 16), (22, 0x80000000),
  (24, 0x0A000000), (25, 1), (28, 0x3FFFF), (29, 0x80000000)]
def sMat (y : Matrix) (dm : Bool) : State :=
  (machine { group wMat lone with dmode := dm } wMat lone).setCore 0 { Core.fresh with mx := y }
def cMat (dm : Bool) : Ctx := ctx { group wMat lone with dmode := dm } wMat lone

theorem witness_MatrixCommandsQueue :
    (let s := sMat engine false; let c := cMat false;
      issueAll s c [.mresv ⟨40, 0, none⟩, .mresv ⟨40, 14, none⟩, .mrels ⟨0, none⟩, .mrels ⟨5, none⟩, .mchn ⟨1, none⟩, .mchn ⟨8, none⟩,
        .mscl ⟨0, none⟩, .mzero ⟨0, none⟩, .mzero ⟨28, none⟩, .mzero ⟨29, none⟩, .mswp ⟨none⟩, .mlds ⟨0, 0, none⟩,
        .mstat ⟨true, 40, none⟩] ∧
      c.act none ≠ [] ∧ (c.mx s).check = false ∧ (c.mx s).owner = some c.grp.gid ∧ (c.mx s).queue.length < 16 ∧
      (∃ r ∈ (c.mx s).resv, r.id = 0) ∧ (c.mx s).releasing 0 = false ∧ (∀ r ∈ (c.mx s).resv, r.id ≠ 5) ∧
      1 ≤ c.grp.members ∧ c.grp.members < 8 ∧
      bitsOf (c.reg 0 0).toNat 0 9 + (bitsOf (c.reg 0 0).toNat 9 9 + 1) ≤ 512 ∧ bitsOf (c.reg 28 0).toNat 18 14 = 0 ∧
      512 < bitsOf (c.reg 28 0).toNat 0 9 + (bitsOf (c.reg 28 0).toNat 9 9 + 1) ∧ bitsOf (c.reg 29 0).toNat 18 14 ≠ 0 ∧
      (c.mx s).resv? 0 = some wgt ∧ wgt.weights = true ∧ bitsOf (c.reg 0 0).toNat 26 6 = 0 ∧
      (∀ p ∈ ([(0, 128 * rowBytes (fmtWidth (fmtAt 10)) 128), (16384, 4), (16388, 0)] : List (Nat × Nat)),
        c.opLocked s (wgt.lo + p.1) p.2 = false) ∧
      128 * rowBytes (fmtWidth (fmtAt 10)) 128 ≤ wgt.bytes ∧ wgt.scaleBase + 4 ≤ wgt.bytes ∧
      128 * blocksIn (fmtAt 10) 0 128 = 0 ∧
      (c.mx s).resvFailure c.grp.gid (resvOf (c.pair 0 0).toNat) = some 5 ∧ bitsOf (c.pair 14 0).toNat 0 11 ≠ 0) ∧
    (let s := sMat Matrix.fresh false; let c := cMat false; let v := (c.pair 12 (c.low none)).toNat; let r := resvOf v;
      issueAll s c [.mresv ⟨40, 12, none⟩, .mswp ⟨none⟩] ∧ bitsOf v 62 2 = 0 ∧ bitsOf v 0 11 = 0 ∧ r.fmt ≤ 23 ∧ 0 < r.len ∧
      r.base + r.len ≤ 256 ∧ r.scaleBase < 1024 * r.len ∧ (r.fmt ∈ [16, 17, 18, 23] → r.cbBase + 32 ≤ 0x40000) ∧
      (c.mx s).owner = none ∧ (∀ z ∈ (c.mx s).resv, z.base + z.len ≤ r.base ∨ r.base + r.len ≤ z.base) ∧
      (c.mx s).resv.length < 16 ∧ (c.mx s).check = false ∧ (c.mx s).owner ≠ some c.grp.gid) := by
  refine ⟨⟨issueAll_of _ _ _ ?_, ?_⟩, ⟨issueAll_of _ _ _ ?_, ?_⟩⟩ <;> decide +kernel

/-- The conditions of an accepted loop, decided together. -/
theorem loopOk_of {s : State} {c : Ctx} {d : LoopDesc} {table : List (Nat × Nat)} {w a : Resv}
    (h : (let y := c.mx s; let k := integerMode (fmtAt a.fmt) (fmtAt w.fmt); let gs := d.groups table
      (d.mbz = 0 ∧ y.chainAhead ≤ 1 ∧ d.row0 + rowsOf gs ≤ 512) ∧
      (y.named d.wid = some w ∧ w.weights = true ∧ ∀ p ∈ d.weightRanges w k gs, p.1 + p.2 ≤ w.bytes) ∧
      (y.named d.aid = some a ∧ a.weights = false ∧ ∀ p ∈ d.actRanges a k (rowsOf gs), p.1 + p.2 ≤ a.bytes) ∧
      pairingOk (fmtAt a.fmt) (fmtAt w.fmt) = true ∧ ∀ l ∈ (s.core c.grp.core).locks, l.space ≠ 3)) : LoopOk s c d table w a :=
  have ⟨⟨zero, alone, rows⟩, ⟨weight, weights, weightIn⟩, ⟨active, activations, activeIn⟩, pairing, unlocked⟩ := h
  { zero, alone, rows, weight, weights, weightIn, active, activations, activeIn, pairing, unlocked }

theorem witness_MatrixLoopsAndDrains :
    (let s := sMat engine true; let c := cMat true; let d := loopDesc (c.words 8 4 (c.low none));
      issueAll s c [.mloop ⟨8, none⟩, .mloop ⟨12, none⟩, .mgrp ⟨8, 0, none⟩, .mdrn ⟨40, 16, none⟩, .mdrn ⟨40, 20, none⟩,
        .mdrn ⟨40, 24, none⟩] ∧
      c.act none ≠ [] ∧ (c.mx s).check = false ∧ (c.mx s).owner = some c.grp.gid ∧ (c.mx s).queue.length < 16 ∧
      LoopOk s c d [] wgt actv ∧ LoopOk s c d [(0, 0)] wgt actv ∧ (c.reg 0 0).toNat = 0 ∧ 4 ≤ c.grp.sBytes ∧
      s.locNat (.sram c.grp.gid 0) 4 < 2 ^ 26 ∧ (s.core 0).locked 0 c.grp.asid 0 4 = false ∧
      (let p := drainWord (c.reg 16 0);
        p.mbz = 0 ∧ p.mode ≠ 3 ∧ p.fmt ≤ 18 ∧ p.row + p.rows ≤ 512 ∧ p.scratch = false ∧ p.rows = 1) ∧
      c.deferring = true ∧ s.fly? (c.key s) = none ∧
      (let p := drainWord (c.reg 20 0);
        p.mbz = 0 ∧ p.mode ≠ 3 ∧ p.fmt ≤ 18 ∧ p.row + p.rows ≤ 512 ∧ p.scratch = true ∧
        s.checkSignal c.grp (c.reg 22 0) (c.reg 23 0) = .ok ⟨0x80000000, 0, 1⟩ ∧ (c.reg 21 0).toNat % 16 = 0 ∧
        (c.reg 21 0).toNat + p.rows * p.rowLen ≤ c.grp.sBytes ∧ s.lockRoom 0 1 = true) ∧
      (drainWord (c.reg 24 0)).scratch = true ∧ (c.reg 25 0).toNat % 16 ≠ 0 ∧
      (c.mx s).named (loopDesc (c.words 12 4 (c.low none))).wid = none) := by
  refine ⟨issueAll_of _ _ _ ?_, ?_, ?_, ?_, ?_, loopOk_of ?_, loopOk_of ?_, ?_⟩ <;> decide +kernel

/-- A command at the head of the queue. -/
def cmd (k : MKind) : MCmd := ⟨60, 1, 0, k, [0, 1, 0, 0], [], 1, 50, [], none⟩
def busy (k : MKind) : State := sMat { engine with queue := [cmd k] } false
def ones : Operand := ⟨.i8, 0, (List.replicate 128 1).map (fun v => .num (Exact.ofInt v 0 false)), 0, []⟩

theorem witness_MatrixEngineRuns :
    (∀ k ∈ ([.rels, .scl, .swp, .lds, .zero, .drn, .loop, .grp] : List MKind),
      ((busy k).core 0).mx.queue = [cmd k] ∧ ((busy k).core 0).mx.run = none ∧ ((busy k).core 0).mx.drain = false ∧
      ((busy k).core 0).mx.resv? 0 = some wgt ∧ ((busy k).core 0).mx.chain ≤ 1) ∧
    (busy .rels).copying 0 wgt.lo wgt.bytes = false ∧
    (let y := { engine with queue := [cmd .loop], run := some ⟨0, 0, 1⟩ };
      ((sMat y false).core 0).mx = y ∧ (y.run.map fun p => decide (0 < p.row)) = some true ∧ y.queue.head? = some (cmd .loop) ∧ y.residue = false ∧ y.chain ≤ 1 ∧
      y.resv? (loopDesc (cmd .loop).args).wid = some wgt ∧ y.resv? (loopDesc (cmd .loop).args).aid = some actv) ∧
    integerMode ones.fmt ones.fmt = true ∧ (List.replicate 128 (1 : Int)).length = 128 ∧
    (let y := { engine with queue := [cmd .drn], drain := true }; let s := { sMat y false with flys := [flown] };
      (s.core 0).mx.drain = true ∧ (s.core 0).mx.queue = [cmd .drn] ∧ (drainWord ((cmd .drn).args.getD 0 0)).scratch = false ∧
      s.fly? (cmd .drn).fly = some flown) ∧
    (drainWord 0x0A000000).scratch = true ∧ (drainWord 0x0A000000).mode ≠ 2 ∧ (cmd .drn).signal = none ∧
    ((busy .drn).group? (cmd .drn).gid).isSome = true := by
  (repeat' apply And.intro) <;> decide +kernel


/-! ### Witnesses: copies, the cache map -/

/-- Records in far memory: a tensor of sixteen int8 elements at 0x10100, a map of one block at 0x10140 with its entry at
0x10400, and a zero record at 0x10180. -/
def tensorRec : Nat := 0x10200 + 2 ^ 64 + 2 ^ 67 * 10 + 2 ^ 72 * 10 + 2 ^ 152 * 15 + 2 ^ 192 * 16
def records : List (Nat × Byte) :=
  putAt 0x10100 (natBytes 64 tensorRec) ++ putAt 0x10140 (natBytes 32 (2 ^ 192 * 0x10400 + 2 ^ 168 + 2 ^ 136 + 2 ^ 127))
    ++ putAt 0x10400 (natBytes 8 (2 ^ 62 + 2 ^ 61 + 0x12000))

/-- v2, v4 and v6 name the records; v8 to v15 are the operands of a copy, v16 to v21 of a gather, v24 to v29 of one to
scratch, v32 to v37 of a migration, v40 to v42 of an attention. -/
def wCopy : Warp := warp [(2, 0x10100), (4, 0x10140), (6, 0x10180), (14, 0x80000100), (18, 0x100000), (26, 0x500000), (27, 0x8000),
  (28, 0x80000100), (34, 0x14000), (35, 0x60000000), (36, 0x80000100), (41, 0x8000), (42, 1)]
def sCopy (dm : Bool) : State := (machine { group wCopy lone with dmode := dm } wCopy lone).writeRaw records
def cCopy (dm : Bool) : Ctx := ctx { group wCopy lone with dmode := dm } wCopy lone
def sigWord : Signal := ⟨0x80000100, 0, 1⟩

theorem reads_of {s : State} {c : Ctx} {a n l v p : Nat} (h : (accessB s c .g n false [c.ea s .g a 0 n l]
    && decide (s.placeOf c.grp false (c.ea s .g a 0 n l) = some (.phys p)) && !isPeer p
    && decide (v = readNat (s.farByte c.grp.core c.grp.part) p n)) = true) : ReadsRecord s c a n l v := by
  simp only [Bool.and_eq_true, decide_eq_true_eq, Bool.not_eq_true'] at h
  exact ⟨accessible_of h.1.1.1, p, h.1.1.2, h.1.2, h.2⟩

def tensor : Nat := readNat ((sCopy false).farByte 0 0xFF) 0x10100 64
def mapRec : Nat := readNat ((sCopy false).farByte 0 0xFF) 0x10140 32

theorem witness_CopiesStart :
    (let s := sCopy false; let c := cCopy false; let ws := c.words 8 8 0;
      issueAll s c [.cpyL ⟨50, 2, 8, none⟩, .cpyS ⟨50, 2, 8, none⟩, .cpyp ⟨50, 2, 8, none⟩, .cpyL ⟨50, 6, 8, none⟩, .cpyp ⟨50, 6, 8, none⟩,
        .cpyq ⟨true, 50, none⟩] ∧
      c.act none = [0] ∧ ReadsRecord s c 2 64 0 tensor ∧ ReadsRecord s c 6 64 0 0 ∧
      s.checkSignal c.grp (ws.getD 6 0) (ws.getD 7 0) = .ok sigWord ∧
      (∀ store, CopyOk s c ⟨layoutOf tensor, (ws.take 5).map fun w => w.toInt, store⟩ (destOf (ws.getD 5 0))) ∧
      (layoutOf 0).rank = 0 ∧
      copyStatus s c ⟨layoutOf 0, (ws.take 5).map fun w => w.toInt, false⟩ (destOf (ws.getD 5 0)) (.ok sigWord) = 2 ∧
      CopyBox.shapeBad ⟨{ layoutOf tensor with cfmt := (layoutOf tensor).fmt }, (c.words 8 5 0).map fun w => w.toInt, false⟩ = false ∧
      (layoutOf tensor).fmt ≤ 23 ∧ (s.copyQueue c.grp.core).length < 32 ∧
      CopyBox.shapeBad ⟨{ layoutOf 0 with cfmt := (layoutOf 0).fmt }, (c.words 8 5 0).map fun w => w.toInt, false⟩ = true) ∧
    issueAll s0 c0 [.cpyL ⟨50, 2, 8, none⟩, .cpyS ⟨50, 2, 8, none⟩] ∧ 2 ≤ (c0.act none).length := by
  refine ⟨⟨issueAll_of _ _ _ ?_, ?_, reads_of (p := 0x10100) ?_, reads_of (p := 0x10180) ?_, ?_, ?_, ?_⟩, issueAll_of _ _ _ ?_, ?_⟩
  case refine_6 => intro st; (constructor <;> revert st <;> decide +kernel)
  all_goals decide +kernel

/-- A copy in progress, by its direction: 0 a load, 1 a store, 2 a prefetch. -/
def copyOp (dir : Word) : EngOp :=
  ⟨60, .cpy, 1, 0, 0, 0, copyArgs tensorRec [0, 0, 0, 0, 0, 0] dir, [], 1, 0, 0, none, [], [], 0, false, false, none, 0, 0⟩

theorem witness_CopyCompletionMovesBox :
    (∀ dir ∈ ([0, 1, 2] : List Word),
      let s := { sCopy false with ops := [copyOp dir] }; let o := copyOp dir;
      s.op? o.id = some o ∧ o.kind = .cpy ∧ o.parked = false ∧ s.copyWaits o = false ∧ (s.group? o.gid).isSome = true ∧
      o.signal = none ∧ o.args.getD 22 0 = dir ∧ o.dest.kind = 0 ∧ s.spoiled = [] ∧ (cCopy false).grp.sSpoil = [] ∧
      s.mapRanges o.core o.asid .read o.box.farBytes = .ok [(1, 0x10000)] ∧
      s.mapRanges o.core o.asid .write o.box.farBytes = .ok [(1, 0x10000)]) ∧
    (let y := (copyOp 0).box; y.far = .i8 ∧ y.near = .i8 ∧ y.rows[0]? = some [0, 0, 0, 0] ∧ 15 < y.lay.box.getD 0 1) := by
  refine ⟨?_, ?_, ?_, ?_, ?_⟩
  · intro dir m
    fin_cases m <;> ((repeat' apply And.intro) <;> decide +kernel)
  all_goals decide +kernel

theorem witness_CacheMapStarts :
    (let s := sCopy true; let c := cCopy true; let d := kvDesc mapRec;
      issueAll s c [.kvg ⟨50, 4, 16, none⟩, .kvg ⟨50, 4, 24, none⟩, .kvg ⟨50, 6, 24, none⟩, .kvmap ⟨50, 4, 16, none⟩, .migr ⟨50, 4, 32, none⟩,
        .migr ⟨50, 6, 32, none⟩, .adec ⟨52, 4, 40, none⟩] ∧
      c.act none = [0] ∧ ReadsRecord s c 4 32 0 mapRec ∧ ReadsRecord s c 6 32 0 0 ∧ d.rejected = false ∧ (kvDesc 0).rejected = true ∧
      c.deferring = true ∧ s.fly? (c.key s) = none ∧
      (let ctl := (c.reg 18 0).toNat;
        ctl / 2 ^ 22 % 2 ≠ 1 ∧ ctl / 2 ^ 23 = 0 ∧ ctl / 2 ^ 20 % 4 ≠ 0 ∧ ctl % 2 ^ 20 % 16 = 0 ∧
        ctl % 2 ^ 20 + 1 * (d.tilePart (ctl / 2 ^ 20 % 4)).2 ≤ c.grp.sBytes) ∧
      s.gathers c.grp.core < 8 ∧ (s.copyQueue c.grp.core).length < 32 ∧ s.lockRoom c.grp.core 2 = true ∧
      (let ctl := (c.reg 26 0).toNat;
        ctl / 2 ^ 22 % 2 = 1 ∧ ctl / 2 ^ 23 = 0 ∧ ctl / 2 ^ 20 % 4 ≠ 0 ∧
        ctl % 2 ^ 20 + 1 * (d.tilePart (ctl / 2 ^ 20 % 4)).2 ≤ c.grp.sBytes ∧ (c.reg 27 0).toNat % 4 = 0 ∧
        (c.reg 27 0).toNat + 128 ≤ c.grp.sBytes ∧ s.checkSignal c.grp (c.reg 28 0) (c.reg 29 0) = .ok sigWord) ∧
      (c.pair 18 0).extractLsb' 57 4 = 0 ∧
      ((c.reg 16 0).toNat < d.seqs ∧ (c.reg 17 0).toNat % 256 < d.heads ∧ (c.reg 17 0).toNat / 256 < d.blocks ∧
        0x10400 = d.mapbase + 8 * (((c.reg 16 0).toNat * d.heads + (c.reg 17 0).toNat % 256) * d.blocks + (c.reg 17 0).toNat / 256)) ∧
      Accessible s c .g 8 true false [entryEa 0 0x10400] ∧
      s.placeOf c.grp true (entryEa 0 0x10400) = some (.phys 0x10400) ∧ (Loc.phys 0x10400).peer = false ∧ s.locEngine (.phys 0x10400) < portEngine ∧
      (let new := (join64 (c.reg 34 0) (c.reg 35 0)).toNat;
        s.checkSignal c.grp (c.reg 36 0) (c.reg 37 0) = .ok sigWord ∧ entryMapped new = true ∧ entryMoving new = false ∧
        entryReserved new = 0 ∧ d.entryOf (c.reg 32 0) (c.reg 33 0) = some 0x10400) ∧
      ((c.reg 40 0).toNat + 4 * d.dim ≤ c.grp.sBytes ∧ (c.reg 41 0).toNat + 4 * (c.reg 42 0).toNat ≤ c.grp.sBytes ∧
        1 ≤ (c.reg 42 0).toNat ∧ 52 + 3 + d.dim / 32 < c.warp.window ∧
        c.extraWaits ((span 52 (4 + d.dim / 32)).drop 4) = [])) ∧
    issueAll (sCopy false) (cCopy false) [.kvg ⟨50, 4, 16, none⟩] ∧ (cCopy false).deferring = false := by
  refine ⟨⟨issueAll_of _ _ _ ?_, ?_, reads_of (p := 0x10140) ?_, reads_of (p := 0x10180) ?_, ?_, ?_, ?_, ?_, ?_, ?_, ?_, ?_, ?_, ?_, ?_,
    accessible_of ?_, ?_⟩, issueAll_of _ _ _ ?_, ?_⟩ <;> decide +kernel

/-- A gather, a migration and an attention in progress, on the map's one block. -/
def mapWords : List Word := (List.range 8).map fun i => BitVec.ofNat 32 (mapRec / 2 ^ (32 * i))
def kvOp (k : OpKind) (args : List Word) : EngOp :=
  ⟨60, k, 1, 0, 0, 0, mapWords ++ args, List.replicate 32 [0, 0], 1, 50, 50, none, [], [], 0, false, false, none, 0, 0⟩
def sKv (o : EngOp) : State := { sCopy false with ops := [o], flys := [flown] }

theorem witness_CacheCompletionMovesBlocks :
    (let o := kvOp .kvg [0x100000, 0]; let s := sKv o; let d := kvDesc (wordsNat (o.args.take 8)); let m : VaMap := [(1, 0x10000)];
      s.op? o.id = some o ∧ o.parked = false ∧ o.signal = none ∧ s.copyWaits o = false ∧ (s.group? o.gid).isSome = true ∧
      s.fly? o.fly = some flown ∧ (o.args.getD 8 0).toNat / 2 ^ 22 % 2 = 0 ∧
      s.mapRanges o.core o.asid .read ((lanesOf o.mask).filterMap fun _ => (d.entryOf 0 0).map fun a => (a, 8)) = .ok m ∧
      s.gatherLane d m 0 0 1 = (0, some (0x12000, false)) ∧
      s.mapRanges o.core o.asid .read [(0x12000, (d.tilePart 1).2)] = .ok m ∧ vaAt m 0x12000 = 0x12000) ∧
    (let o := kvOp .migr [0, 0, 0x14000, 0x60000000, 1]; let s := sKv o; let d := kvDesc (wordsNat (o.args.take 8));
      let m : VaMap := [(1, 0x10000)];
      s.op? o.id = some o ∧ o.kind = .migr ∧ 12 < o.args.length ∧ d.entryOf (o.args.getD 8 0) (o.args.getD 9 0) = some 0x10400 ∧
      s.mapRanges o.core o.asid .write [(0x10400, 8)] = .ok m ∧ isPeer (vaAt m 0x10400 + 8) = false ∧
      entryTier (s.homeNat (vaAt m 0x10400) 8) = 1 ∧ entryTier (join64 (o.args.getD 10 0) (o.args.getD 11 0)).toNat = 1 ∧
      s.mapRanges o.core o.asid .read [(entryLoc (s.homeNat 0x10400 8), d.blockLen)] = .ok m ∧
      s.mapRanges o.core o.asid .write [(0x14000, d.blockLen)] = .ok m ∧ s.spoiled = [] ∧ 0x14000 + d.blockLen ≤ 0x20000 ∧
      0x12000 + d.blockLen ≤ 0x14000 ∧ entryTier (join64 0 0xA0000000).toNat = 2) ∧
    (let o := kvOp .adec [0, 0x8000, 1]; let s := sKv o; let d := kvDesc (wordsNat (o.args.take 8)); let m : VaMap := [(1, 0x10000)];
      s.op? o.id = some o ∧ o.kind = .adec ∧ s.fly? o.fly = some flown ∧
      (let es := d.listed [s.locNat (.sram o.gid 0x8000) 4];
        s.mapRanges o.core o.asid .read (es.filterMap fun a => a.map fun x => (x, 8)) = .ok m ∧
        s.mapRanges o.core o.asid .read ((s.attended m es).filterMap fun a => a.map fun x => (x, d.blockLen)) = .ok m)) := by
  refine ⟨?_, ?_, ?_⟩ <;> decide +kernel


/-! ### Witnesses: the network and storage -/

/-- Partition 0 of user contexts with a peer table: entry 0 is module 77, its ASID 5, job 9. -/
def peerPart : Part := { Part.absent with live := true, peer := 0x18000, peatq := 100, clusters := [0] }
def peerEntry : Nat := 2 ^ 8 + 2 ^ 128 * 77 + 2 ^ 112 * 5 + 2 ^ 72 * 9
def peerPte : DWord := BitVec.ofNat 64 (2 ^ 63 + 2 ^ 62 + 2 ^ 59 + 2 ^ 57)
def withPeer (s : State) : State :=
  { (((s.writeRaw (putAt 0x18000 (natBytes 32 peerEntry))).setPart 0 peerPart).setCore 0 { s.core 0 with
      tlb := [⟨0, 0xFF, 0x10000, 0x10000, codePte⟩, ⟨0, 0, 0x30000, 0x10000, peerPte⟩] }) with
    conns := [⟨3, 0, 77, 1, 0, 0⟩], namespaces := [⟨4, 0, 88, 1, 4096⟩], boot := { s.boot with up := true, links := [0] } }

/-- v2:v3 is in the peer window, v4:v5 is not, v6 and v7 name the connection and the namespace; the operands of the
signal form stand in v8, of the register form in v16, with an odd length in v24, of storage in v32 and v40. -/
def wNet : Warp := warp [(2, 0x30000), (4, 0x10200), (6, 3), (7, 4), (8, 0x10200), (10, 16), (12, 0x80000100),
  (16, 0x10200), (18, 16), (19, 0x1000), (24, 0x10200), (26, 2), (28, 0x80000100),
  (32, 0x10200), (34, 1), (36, 0x80000100), (40, 0x10200), (42, 1), (43, 0x1000)]
def sNet (dm : Bool) : State := withPeer (machine { group wNet lone with dmode := dm, part := 0 } wNet lone)
def cNet (dm : Bool) : Ctx := ctx { group wNet lone with dmode := dm, part := 0 } wNet lone

def peerAt : Nat := peerAddr 0 0 0

theorem local_of {s : State} {c : Ctx} {wr : Bool} {va : DWord} {p : Nat} (h : (canonical va
    && decide (s.translate c.grp.core c.grp.asid (if wr then .write else .read) va = .ok p) && !isPeer p) = true) :
    LocalOk s c wr va := by
  simp only [Bool.and_eq_true, decide_eq_true_eq, Bool.not_eq_true'] at h
  refine ⟨h.1.1, fun q e => ?_⟩
  rw [h.1.2] at e
  cases e
  exact h.2

theorem witness_NetworkAndStorageStart :
    (∀ dm, let s := sNet dm; let c := cNet dm
      issueAll s c [.nwr ⟨true, 50, 2, 8, none⟩, .nrd ⟨50, 2, 8, none⟩, .nsnd ⟨true, 50, 6, 8, none⟩, .natm ⟨true, 50, 2, 8, none⟩,
        .nwatch ⟨50, 2, none⟩, .natm ⟨true, 50, 4, 8, none⟩, .strd ⟨50, 7, 32, none⟩, .stwr ⟨true, 50, 7, 32, none⟩, .stfl ⟨50, 7, 32, none⟩,
        .stfl ⟨50, 1, 32, none⟩] ∧
      c.act none = [0] ∧ (∀ wr, RemoteAt s c wr 2 0 peerAt ∧ LocalOk s c wr 0x10200) ∧
      s.conn? c.grp.asid (c.reg 6 0).toNat = some ⟨3, 0, 77, 1, 0, 0⟩ ∧
      s.namespace? c.grp.asid (c.reg 7 0).toNat = some ⟨4, 0, 88, 1, 4096⟩ ∧ s.namespace? c.grp.asid (c.reg 1 0).toNat = none ∧
      s.netQueue 0 (s.payer c.grp.part) < s.share (s.payer c.grp.part) 0 256 ∧ s.storageQueue 0 (s.payer c.grp.part) < s.share (s.payer c.grp.part) 0 128 ∧
      s.lockRoom c.grp.core 1 = true ∧ s.fly? (c.key s) = none ∧ c.deferring = dm ∧ s.queuePair 0 c.grp.asid 4 < 128 ∧
      c.badPair 50 = false ∧ c.badPair 51 = true ∧ c.extraWaits [51] = [] ∧
      (∀ b ∈ [8, 16, 24, 32, 40], let ws := c.words b 8 0
        join64 (ws.getD 0 0) (ws.getD 1 0) = 0x10200 ∧ (ws.getD 3 0).toNat / 2 ^ 15 = 0 ∧ (ws.getD 3 0).toNat / 2 ^ 9 % 8 < 6 ∧
        (ws.getD 3 0 = 0x1000 ∨ ws.getD 3 0 = 0) ∧ (ws.getD 3 0 = 0x1000 ↔ (b = 16 ∨ b = 40)) ∧
        (ws.getD 2 0).toNat = (if b = 24 then 2 else if b ≤ 16 then 16 else 1) ∧
        (ws.getD 3 0 = 0 → s.checkSignal c.grp (ws.getD 4 0) (ws.getD 5 0) = .ok sigWord)) ∧
      canonical (c.pair 4 0) = true ∧ s.translate c.grp.core c.grp.asid .write (c.pair 4 0) = .ok 0x10200 ∧ isPeer 0x10200 = false) := by
  intro dm
  refine ⟨issueAll_of _ _ _ ?_, ?_, fun wr => ⟨?_, local_of (p := 0x10200) ?_⟩, ?_⟩
  case refine_3 => cases dm <;> cases wr <;> ((repeat' apply And.intro) <;> decide +kernel)
  case refine_4 => cases dm <;> cases wr <;> decide +kernel
  all_goals cases dm <;> ((repeat' apply And.intro) <;> decide +kernel)


/-- A network or storage operation in progress, as its completion finds it, and its state 1,000,000,000 timer periods on. -/
def netInFlight (k : OpKind) (ctl : Word) (dlv : Word) : EngOp :=
  ⟨60, k, 1, 0, 0, 0, [0x10200, 0, 16, ctl, 0, 0, 0, 0, 0, 0, 0, dlv], [], 1, 50, 50, none, [], [], 0, false, false, some false, 0, 0⟩
/-- An operation that has yet to go out to a remote address or connection. -/
def sending (k : OpKind) (ctl : Word) (remote : Word) : EngOp :=
  { netInFlight k ctl 0 with args := [0x10200, 0, 16, ctl, 0, 0, 1, 0, remote, 0, 0, 0], out := none }
def sFlight (o : EngOp) : State := { sNet true with ops := [o], flys := [flown], tick47 := 470000000 }

/-- Its conditions, as a Bool: found, with its value on the way, late, in turn, and its range translates. -/
def landsB (o : EngOp) : Bool :=
  let s := sFlight o;
  decide (s.op? o.id = some o) && decide (s.fly? o.fly = some flown) && decide (o.sent + 10000000 ≤ s.tick47 / 47) &&
  s.spoiled.isEmpty && s.linked &&
  (match s.mapRanges o.core o.asid .write [(o.laddr, o.len)] with | .ok m => m == [(1, 0x10000)] | .error _ => false) &&
  (match s.mapRanges o.core o.asid .read [(o.laddr, o.len)] with | .ok m => m == [(1, 0x10000)] | .error _ => false)

theorem lands_of {o : EngOp} (h : landsB o = true) : let s := sFlight o
    s.op? o.id = some o ∧ s.fly? o.fly = some flown ∧ o.sent + 10000000 ≤ s.tick47 / 47 ∧ s.spoiled = [] ∧
    s.linked = true ∧
    s.mapRanges o.core o.asid .write [(o.laddr, o.len)] = .ok [(1, 0x10000)] ∧
    s.mapRanges o.core o.asid .read [(o.laddr, o.len)] = .ok [(1, 0x10000)] := by
  simp only [landsB, Bool.and_eq_true, decide_eq_true_eq, List.isEmpty_iff] at h
  obtain ⟨⟨⟨⟨⟨⟨a, b⟩, d⟩, e⟩, f⟩, x⟩, y⟩ := h
  refine ⟨a, b, d, e, f, ?_, ?_⟩
  · split at x
    · simp_all
    · cases x
  · split at y
    · simp_all
    · cases y

theorem witness_NetworkCompletionLands :
    (∀ o ∈ [netInFlight (.net 0) 0 0, netInFlight (.net 0) 0 1, netInFlight (.net 1) 0 0, netInFlight (.net 2) 0 0,
        netInFlight (.net 2) 0x2000 0, netInFlight (.net 3) 0 0, netInFlight (.net 4) 0 0, netInFlight (.storage 0) 0 0,
        netInFlight (.storage 1) 0 0, netInFlight (.storage 2) 0 0], landsB o = true ∧
      o.parked = false ∧ o.orphan = false ∧ o.handed = false ∧ o.fly ≠ 0 ∧ o.signal = none ∧ o.len = 16 ∧ o.out = some false) ∧
    (let s := sNet true;
      s.conn? 0 (sending (.net 3) 0 3).remote = some ⟨3, 0, 77, 1, 0, 0⟩ ∧ s.namespace? 0 4 = some ⟨4, 0, 88, 1, 4096⟩ ∧
      (sending (.storage 1) 4 0).args.getD 3 0 = 4 ∧
      (match s.mapRanges 0 0 .read [((sending (.net 0) 0 0).laddr, (sending (.net 0) 0 0).len)] with
        | .ok m => m == [(1, 0x10000)] | .error _ => false) = true) ∧
    (let p := { sending (.net 0) 0x100 0 with id := 59 }; let o := sending (.net 1) 0x100 0; let s := sFlight p;
      p ∈ s.ops ∧ p.id < o.id ∧ o.lane.2 ≠ none ∧ p.lane = o.lane ∧ p.out = none ∧ p.orphan = false ∧ s.target p = s.target o) ∧
    ((sNet true).group? 1).isSome = true ∧ (⟨0x80000100, 0, 1⟩ : Signal).isBarrier = false := by
  refine ⟨?_, ?_, ?_, ?_, ?_⟩ <;> decide +kernel

/-! ### Witnesses: what other modules ask -/

/-- The request of the peer of entry 0, and this module as it finds it. -/
def req : RemoteReq := ⟨77, 5, 0, 0, 9, 0x10200, 0, 0, true⟩
def wholeReq : RemoteReq := { req with addr := 0x10208 }
def sReq : State := ((sNet true).setContext 0 ⟨0, 0, .live⟩).setCore portCore { Core.fresh with tlb := [⟨0, 0, 0x10000, 0x10000, codePte⟩] }

theorem admitted_of {s : State} {r : RemoteReq} {acc : Access} {n : Nat} {m : VaMap} (h : ((s.part r.part).live
    && s.peerValid r.part 0 && (s.peerFields (256 * r.part)).peer == r.peer && (s.peerFields (256 * r.part)).rasid == r.senderAsid
    && (s.peerFields (256 * r.part)).job == r.job && decide ((s.context r.asid).state = .live ∧ (s.context r.asid).part = r.part)
    && canonical r.addr && decide (s.mapRanges portCore r.asid acc [(r.addr.toNat, n)] = .ok m) && m.all fun p => !isPeer p.2) = true) :
    Admitted s r acc n m := by
  simp only [Bool.and_eq_true, decide_eq_true_eq, beq_iff_eq, List.all_eq_true, Bool.not_eq_true'] at h
  exact ⟨h.1.1.1.1.1.1.1.1, ⟨0, by decide, h.1.1.1.1.1.1.1.2, h.1.1.1.1.1.1.2, h.1.1.1.1.1.2, h.1.1.1.1.2⟩, h.1.1.1.2, h.1.1.2, h.1.2, h.2⟩

/-- A ring of another sender over the address; an endpoint of two frames whose records go to feed 90, or to none. -/
def ring : Endpoint := ⟨1, 0, true, 90, 0, 0, 0x10200, 2, 64, 7, 78, 0, 0, 0, 0, 0, []⟩
def endpoint : Endpoint := ⟨2, 0, false, 90, 0, 0, 0x10400, 2, 64, 7, 0, 0, 0, 3, 0, 0, []⟩
def sEnd (feeds : List Feed) : State := { sReq with endpoints := [endpoint], feeds := feeds }
def watching : EngOp := { netInFlight (.net 4) 0 0 with args := List.replicate 13 0 }
def sWatch : State := { sReq with ops := [watching], flys := [flown] }

theorem witness_RemoteArrivalsAnswered :
    sReq.linked = true ∧
    (Admitted sReq req .write [1, 2, 3, 4].length [(1, 0x10000)] ∧ sReq.writeWaits req sReq.inbox = false ∧ sReq.watches = [] ∧
      sReq.ringAt req.asid req.addr 4 = none) ∧
    (∀ src ∈ ([77, 78] : List Nat), let e := { ring with src := src }; let s := { sReq with endpoints := [e] };
      Admitted s req .write [1, 2, 3, 4].length [(1, 0x10000)] ∧ s.writeWaits req s.inbox = false ∧ s.ringAt req.asid req.addr 4 = some e ∧
      e.base.toNat ≤ req.addr.toNat ∧ s.watches = [] ∧ req.tc = e.tc ∧ req.flow = e.flow ∧ req.ordered = true ∧
      s.slotHeld e 0 = false ∧ e.next % e.frames = 0 ∧ e.count + 4 < e.size) ∧
    (let s := { sReq with inbox := [⟨req, [], none⟩] }; s.linked = true ∧ s.writeWaits req s.inbox = true) ∧
    (Admitted sReq req .read 16 [(1, 0x10000)] ∧ sReq.spoiled = []) ∧
    (∀ w64 : Bool, let k := if w64 then 8 else 4
      Admitted sReq wholeReq .write k [(1, 0x10000)] ∧ wholeReq.addr.toNat % k = 0 ∧
      isPeer (vaAt [(1, 0x10000)] wholeReq.addr.toNat + 8) = false ∧ sReq.batches = [] ∧ sReq.inbox = []) ∧
    ((let s := sReq.setPart 0 { peerPart with live := false }; s.linked = true ∧ (s.part req.part).live = false ∧ s.writeWaits req s.inbox = false) ∧ ({ req with addr := 0x10201 } : RemoteReq).addr.toNat % 4 ≠ 0) ∧
    (let r := req; let e := endpoint; let k := e.next % e.frames; let va := e.base.toNat + k * e.size;
      (∀ fs ∈ [[], [feed 0 0 []]], let s := sEnd fs
        findBy (fun x => !x.ring && x.handle == e.handle && x.part == r.part) s.endpoints = some e ∧
        s.peerAdmits r = true ∧ s.liveAsid e.asid e.part = true ∧ s.slotHeld e k = false ∧ [1, 2, 3].length ≤ e.size ∧
        s.mapRanges portCore e.asid .write [(va, 3)] = .ok [(1, 0x10000)] ∧ s.peatFull e.part [] = false ∧ s.watches = []) ∧
      (sEnd []).feed? e.feed = none ∧ (sEnd [feed 0 0 []]).feed? e.feed = some (feed 0 0 []) ∧ (feed 0 0 []).full = false ∧
      (feed 0 0 []).pops = [] ∧ (feed 0 0 []).mapped.isSome = true) ∧
    (Admitted sReq req .read 1 [(1, 0x10000)] ∧ sReq.watches.length < 4096 ∧
      Admitted { sReq with watches := List.replicate 4096 ⟨1, 0, 77, 1, 0⟩ } req .read 1 [(1, 0x10000)]) ∧
    (let s := sWatch; let o := watching;
      s.op? o.id = some o ∧ o.kind = .net 4 ∧ o.handed = true ∧ o.orphan = false ∧ (s.context o.asid).state ≠ .quarantined ∧
      s.fly? o.fly = some flown ∧ 0 < flown.vals.length) := by
  refine ⟨?_, ⟨admitted_of ?_, ?_⟩, fun src m => ⟨admitted_of ?_, ?_⟩, ?_, ⟨admitted_of ?_, ?_⟩, fun w => ⟨admitted_of ?_, ?_⟩, ?_, ⟨fun fs m => ?_, ?_⟩,
    ⟨admitted_of ?_, ?_, admitted_of ?_⟩, ?_⟩
  case refine_4 => fin_cases m <;> decide +kernel
  case refine_5 => fin_cases m <;> decide +kernel
  case refine_9 => cases w <;> decide +kernel
  case refine_10 => cases w <;> decide +kernel
  case refine_12 =>
    fin_cases m <;> ((repeat' apply And.intro) <;> decide +kernel)
  all_goals decide +kernel


/-! ### Witnesses: privileged instructions -/

/-- Scratch with a descriptor of one range of 4 KiB at 2 MiB; its entry of 16 bytes stands at offset 64. Offsets 0, 8 and 64
stand in v2, v3 and v6; control words in v4, v5, v8 to v11 and v12. -/
def scratch : List Host.Cell := [(31, 1), (66, 0x20), (73, 0x10)]
def wKey : Warp := warp [(3, 8), (5, 0x7C0), (6, 64), (10, 0x80000100), (12, 0x200)]
def gKey (p : Nat) : Group := { group wKey lone with part := p, sMem := scratch }
def sKey (p : Nat) (d : Die) : State :=
  { (machine (gKey p) wKey lone).setDie 0 d with dirty := [(0x200000, 0x1000)] }
def cKey (p : Nat) : Ctx := ctx (gKey p) wKey lone
def slotOf (p : Nat) : Die := { Die.fresh with kslots := [(0, { KSlot.free with loaded := true, part := p })] }
def scrubbing (pausing paused : Bool) (n : Nat) : Die :=
  { Die.fresh with scrub := ⟨true, pausing, 0x201000, paused, [(0x200000, n)], none⟩ }
def zeroing : EngOp := { netInFlight .kzero 0 0 with args := [] }

theorem witness_KeySlotsAndScrub :
    (∀ p ∈ [1, 0xFF], ∀ d ∈ [Die.fresh, slotOf 1, slotOf 2, scrubbing false false 0x1000], let s := sKey p d; let c := cKey p
      issueAll s c [.kslotLoad ⟨50, 2, 4⟩, .kslotLoad ⟨50, 3, 4⟩, .kslotLoad ⟨50, 2, 5⟩, .kslotZero ⟨50, 2, 4⟩, .kslotZero ⟨50, 2, 5⟩,
        .kslotQuery ⟨50, 2, 4⟩, .scrubStart ⟨50, 6, 8⟩, .scrubStart ⟨50, 6, 12⟩, .scrubQuery ⟨50, 6, 8⟩] ∧
      c.low none = 0 ∧ c.grp.part = p ∧ s.fly? (c.key s) = none) ∧
    (let c := cKey 1;
      (c.reg 2 0).toNat = 0 ∧ (c.reg 3 0).toNat = 8 ∧ (c.reg 4 0).toNat = 0 ∧ (c.reg 5 0).toNat = 0x7C0 ∧ (c.reg 6 0).toNat = 64 ∧
      c.words 8 4 0 = [0, 0, 0x80000100, 0] ∧ (c.words 12 4 0).getD 0 0 = 0x200 ∧ 64 + 16 ≤ c.grp.sBytes) ∧
    (((sKey 1 Die.fresh).core 0).locked 0 0 0 64 = false ∧ ((sKey 0xFF Die.fresh).core 0).locked 0 0 64 16 = false ∧
      ((sKey 1 Die.fresh).kslot 0 0).loaded = false ∧ ((sKey 1 (slotOf 1)).kslot 0 0) = { KSlot.free with loaded := true, part := 1 } ∧
      ((sKey 1 (slotOf 2)).kslot 0 0) = { KSlot.free with loaded := true, part := 2 }) ∧
    ((sKey 0xFF Die.fresh).checkSignal (cKey 0xFF).grp 0x80000100 0 = .ok ⟨0x80000100, 0, 1⟩ ∧
      (sKey 0xFF Die.fresh).scrubbable 0 ((sKey 0xFF Die.fresh).locNat (.sram 1 64) 8, (sKey 0xFF Die.fresh).locNat (.sram 1 72) 8) = true ∧
      ((sKey 0xFF Die.fresh).die 0).scrub.active = false ∧ ((sKey 0xFF (scrubbing false false 0x1000)).die 0).scrub.active = true) ∧
    (let s := { sKey 1 Die.fresh with ops := [zeroing], flys := [flown] };
      s.op? zeroing.id = some zeroing ∧ zeroing.kind = .kzero ∧ s.keyPending 0 0 = false ∧ s.fly? zeroing.fly = some flown) ∧
    (let a := keyAddr 0 0x10200; isPeer a = false ∧ isPeer 0x10240 = false ∧ rawAddr a / 128 = rawAddr 0x10240 / 128 ∧
      (sKey 1 (slotOf 1)).viewOf a ≠ (sKey 1 (slotOf 1)).viewOf 0x10240) ∧
    (∀ n ∈ [0x1000, 0x2000], let d := (sKey 1 (scrubbing false false n)).die 0
      d.scrub.active = true ∧ d.scrub.pausing = false ∧ d.scrub.paused = false ∧ scrubNext d.scrub.list d.scrubpos.toNat =
        some (0x200000, if n = 0x1000 then some (0x200000, 0x1000) else none)) ∧
    (let y := ((sKey 1 (scrubbing true false 0x1000)).die 0).scrub; y.active = true ∧ y.pausing = true ∧ y.paused = false) ∧
    ((sKey 1 (scrubbing false true 0x1000)).die 0).scrub.paused = true := by
  refine ⟨fun p hp d hd => ⟨issueAll_of _ _ _ ?_, ?_⟩, ?_⟩
  case refine_1 => fin_cases hp <;> fin_cases hd <;> decide +kernel
  case refine_2 => fin_cases hp <;> fin_cases hd <;> ((repeat' apply And.intro) <;> decide +kernel)
  (repeat' apply And.intro) <;> decide +kernel


/-- v4 and v5 name partition 1, v5 with a reserved bit. -/
def wPart : Warp := warp [(4, 1), (5, 0x401)]
def gPart (p : Nat) (scr : List Host.Cell) : Group := { group wPart lone with part := p, sMem := scr }
def user : Group := { group (warp []) split with gid := 2, part := 1, kernel := false, asid := 7, core := 1, launch := 5 }
def sPart (p : Nat) (scr : List Host.Cell) (live : Bool) (gs : List Group) : State :=
  let s := (machine (gPart p scr) wPart lone).setDie 0 { Die.fresh with ready := 2 };
  { s.setPart 1 { Part.absent with live := live } with groups := s.groups ++ gs }
def cPart (p : Nat) (scr : List Host.Cell) : Ctx := ctx (gPart p scr) wPart lone

theorem witness_PartitionOperations :
    (∀ p ∈ [1, 0xFF], ∀ scr ∈ [[], scratch], ∀ live ∈ [true, false], ∀ gs ∈ [[], [user]], let s := sPart p scr live gs; let c := cPart p scr
      issueAll s c [.partAssign ⟨50, 0, 4⟩, .partAssign ⟨50, 0, 5⟩, .partReset ⟨50, 0, 4⟩, .partRelease ⟨50, 0, 4⟩, .partQuery ⟨50, 0, 4⟩]) ∧
    (∀ p ∈ [1, 0xFF], ∀ scr ∈ [[], scratch], let c := cPart p scr
      c.low none = 0 ∧ c.grp.part = p ∧ (c.reg 0 0).toNat = 0 ∧ (c.reg 4 0).toNat = 1 ∧ (c.reg 5 0).toNat = 0x401 ∧ 80 ≤ c.grp.sBytes) ∧
    (∀ live ∈ [true, false], ∀ gs ∈ [[], [user]], let s := sPart 0xFF scratch live gs
      (s.core 0).locked 0 0 0 64 = false ∧ (s.core 0).locked 0 0 0 80 = false ∧ (s.part 1).live = live) ∧
    (let s := sPart 0xFF scratch false []; let num := fun n => s.locNat (.sram 1 0) n; let y := partOf (num 80);
      num 64 / 2 ^ 248 % 2 ^ 8 = 1 ∧ partHeaderBad (num 64) = false ∧ y.ranges = [(0x200000, 0x1000)] ∧
      physRangeOk 0x200000 0x1000 = true ∧ s.memoryReady (0x200000, 0x1000) = true ∧ s.dirty = [] ∧
      (∀ q ∈ s.parts, q.1 ≠ 1 → q.2.live = true → y.clashes q.2 = false)) ∧
    (let s := sPart 0xFF scratch true []; ∀ q ∈ s.parts, q.1 ≠ 1 → q.2.live = true → (partOf (s.locNat (.sram 1 0) 80)).clashes q.2 = false) ∧
    partHeaderBad ((sPart 0xFF [] false []).locNat (.sram 1 0) 64) = true ∧
    (∀ g ∈ (sPart 0xFF scratch true [user]).groups, g.asid ∈ (sPart 0xFF scratch true [user]).userAsids 1 → g.gid ≠ 1) ∧
    (sPart 0xFF scratch true []).userAsids 1 = [] ∧ (sPart 0xFF scratch true [user]).userAsids 1 = [7] ∧
    (sPart 0xFF scratch true []).feeds = [] ∧
    (let s := { (sPart 0xFF scratch true []).setPart 1 { Part.absent with live := true, slots := [(0, 1, 1)] } with
        feeds := [{ feed 0 0 [] with part := 1, mapped := some (0, 1) }] };
      s.userAsids 1 = [] ∧ ∀ f ∈ s.feeds, s.feed? f.num = some f ∧ f.mapped = some (0, 1) ∧ s.ownsSlot 1 0 1 = true) := by
  refine ⟨fun p hp scr hs live hl gs hg => issueAll_of _ _ _ ?_, fun p hp scr hs => ?_, fun live hl gs hg => ?_, ?_⟩
  case refine_1 => fin_cases hp <;> fin_cases hs <;> fin_cases hl <;> fin_cases hg <;> decide +kernel
  case refine_2 =>
    fin_cases hp <;> fin_cases hs <;>
      ((repeat' apply And.intro) <;> decide +kernel)
  case refine_3 => fin_cases hl <;> fin_cases hg <;> ((repeat' apply And.intro) <;> decide +kernel)
  (repeat' apply And.intro) <;> decide +kernel

/-- v2:v3 names the descriptor of a feed, v4 its slot, v6 an address space, v7 to v9 the operations of ASIDQ. -/
def wIds : Warp := warp [(2, 0x10180), (4, 1), (6, 7), (8, 1), (9, 2)]
def sIds (d : Die) (feeds : List Feed) : State := { (machine (group wIds lone) wIds lone).setDie 0 d with feeds := feeds }
def cIds : Ctx := ctx (group wIds lone) wIds lone
def heldFeed : Feed := { feed 0 0 [] with asid := 0, desc := 0x10180, mapped := some (0, 1) }
def fmapping (unmap : Word) : EngOp := { netInFlight .fmap 0 0 with args := [unmap, 1, 90] }

theorem opens_of {s : State} {c : Ctx} {v : DWord} {b : Bool} (h : (match s.openFeed c.grp.core c.grp.asid v with
      | .ok (n, t) => (match t.feed? n with | some f => (t.fly? (c.key t)).isNone && f.mapped.isNone == b | none => false)
      | .error _ => false) = true) :
    ∃ num s1 f, s.openFeed c.grp.core c.grp.asid v = .ok (num, s1) ∧ s1.feed? num = some f ∧ s1.fly? (c.key s1) = none ∧
      f.mapped.isNone = b := by
  split at h
  · rename_i n t e
    split at h
    · rename_i f g
      simp only [Bool.and_eq_true, Option.isNone_iff_eq_none, beq_iff_eq] at h
      exact ⟨n, t, f, e, g, h.1, h.2⟩
    · cases h
  · cases h

theorem witness_ServicesAndIds :
    (let s := sIds { Die.fresh with sheafs := [(0, { Sheaf.free with live := true })] } [];
      issueAll s cIds [.svcret ⟨50, 0, 4⟩] ∧ (smGet Sheaf.free (s.die 0).sheafs 0).live = true ∧
      (smGet Sheaf.free (s.die 0).sheafs 0).gen = 0 ∧ s.ops = [] ∧ (cIds.reg 0 0).toNat = 0) ∧
    (let s := sIds Die.fresh [];
      issueAll s cIds [.svcret ⟨50, 0, 4⟩, .fmapMap ⟨50, 2, 4⟩, .fmapUnmap ⟨50, 2, 4⟩, .asidqEnter ⟨50, 6, 7⟩, .asidqQuery ⟨50, 6, 8⟩,
        .asidqLeave ⟨50, 6, 9⟩] ∧
      (smGet Sheaf.free (s.die 0).sheafs 0).live = false ∧ cIds.low none = 0 ∧ cIds.grp.part = 0xFF ∧
      (cIds.pair 2 0).toNat % 128 = 0 ∧ canonical (cIds.pair 2 0) = true ∧ (cIds.reg 4 0).toNat = 1 ∧
      s.ownsSlot cIds.grp.part 0 1 = true ∧ (s.die 0).slots = [] ∧ s.ops = [] ∧
      (∃ num s1 f, s.openFeed cIds.grp.core cIds.grp.asid (cIds.pair 2 0) = .ok (num, s1) ∧ s1.feed? num = some f ∧
        s1.fly? (cIds.key s1) = none ∧ f.mapped.isNone = true) ∧
      (cIds.reg 6 0).toNat = 7 ∧ (cIds.reg 7 0).toNat = 0 ∧ (cIds.reg 8 0).toNat = 1 ∧ (cIds.reg 9 0).toNat = 2 ∧
      (∀ g ∈ s.groups, g.asid ≠ 7) ∧ (s.context 7).state = .free ∧ s.asidOps 7 = 0) ∧
    (let s := sIds Die.fresh [heldFeed];
      issueAll s cIds [.fmapMap ⟨50, 2, 4⟩] ∧ (s.die 0).slots = [] ∧ s.ops = [] ∧
      ∃ num s1 f, s.openFeed cIds.grp.core cIds.grp.asid (cIds.pair 2 0) = .ok (num, s1) ∧ s1.feed? num = some f ∧
        s1.fly? (cIds.key s1) = none ∧ f.mapped.isNone = false) ∧
    (let s := sIds { Die.fresh with slots := [(1, 90)] } [heldFeed];
      issueAll s cIds [.fmapUnmap ⟨50, 2, 4⟩] ∧ findBy (fun q => q.1 == 1) (s.die 0).slots = some (1, 90) ∧ s.ops = [] ∧ s.fly? (cIds.key s) = none) ∧
    (∀ k ∈ [(0 : Word), 1], let s := { sIds Die.fresh [heldFeed] with ops := [fmapping k], flys := [flown] }
      s.op? 60 = some (fmapping k) ∧ s.feed? 90 = some heldFeed ∧ s.fly? 50 = some flown ∧ heldFeed.pops = []) ∧
    (let s := { sIds Die.fresh [] with groups := (sIds Die.fresh []).groups ++ [user] };
      issueAll s cIds [.asidqEnter ⟨50, 6, 7⟩] ∧ ∃ g ∈ s.groups, g.asid = 7 ∧ g.stat ≠ .ended) ∧
    (let s := (sIds Die.fresh []).setContext 7 ⟨0, 0, .live⟩;
      issueAll s cIds [.asidqLeave ⟨50, 6, 9⟩] ∧ (s.context 7).state = .live) := by
  refine ⟨⟨issueAll_of _ _ _ ?_, ?_⟩, ⟨issueAll_of _ _ _ ?_, ?_, ?_, ?_, ?_, ?_, ?_, ?_, ?_, ?_, opens_of ?_, ?_⟩,
    ⟨issueAll_of _ _ _ ?_, ?_, ?_, opens_of ?_⟩, ⟨issueAll_of _ _ _ ?_, ?_⟩,
    fun k hk => by fin_cases hk <;> exact ⟨by decide +kernel, by decide +kernel, by decide +kernel, rfl⟩, ⟨issueAll_of _ _ _ ?_, ?_⟩,
    ⟨issueAll_of _ _ _ ?_, ?_⟩⟩
  all_goals decide +kernel


/-- Moves of a group: v2:v3 is the image's place, v8 to v15 the descriptor, v16 and v17 malformed handles. -/
def wMove : Warp := warp [(2, 0x200000), (8, 0x800), (9, 0x1000), (12, 0x80000100), (16, 1), (17, 1), (20, 0x80000100)]
def sMove (gs : List Group) : State :=
  let s := machine (group wMove lone) wMove lone;
  { s with groups := s.groups ++ gs }
def cMove : Ctx := ctx (group wMove lone) wMove lone
def saved : Group := { user with stat := .saved, image := 0x200000 }
def moveOp (k : OpKind) : EngOp := { netInFlight k 0 0 with args := [], lanes := [[2]] }

theorem witness_ContextMoves :
    (∀ gs ∈ [[], [user], [saved]], let s := sMove gs
      issueAll s cMove [.csave ⟨50, 2, 8⟩, .cmigr ⟨50, 2, 8⟩, .cload ⟨50, 2, 8⟩, .csave ⟨50, 2, 16⟩, .cload ⟨50, 2, 16⟩] ∧
      (∀ b ∈ [8, 16], let ws := cMove.words b 8 0
        (ws.getD 2 0).toNat = 0 ∧ ws.getD 3 0 = 0 ∧ s.checkSignal cMove.grp (ws.getD 4 0) (ws.getD 5 0) = .ok ⟨0x80000100, 0, 1⟩)) ∧
    (cMove.low none = 0 ∧ (cMove.pair 2 0).toNat = 0x200000 ∧ cMove.grp.part = 0xFF ∧ cMove.cur.gid = 1 ∧
      handleOf (cMove.reg 8 0) = some (1, 0) ∧ handleOf (cMove.reg 9 0) = some (2, 0) ∧ handleOf (cMove.reg 16 0) = none ∧
      handleOf (cMove.reg 17 0) = none) ∧
    (let s := sMove [user];
      s.group? 2 = some user ∧ s.groupAt 1 0 = some user ∧ s.gangOf user = [user] ∧ user.kernel = false ∧ user.member = 0 ∧
      s.imagesOk 0xFF 0x200000 0 [user] (fun g => g.imageSize (s.holdsMatrix g)) = true ∧ user.stat ≠ .moving ∧
      s.savedCount user.part + 1 ≤ 1024 ∧ s.roomFor user 2 = true ∧ 2 / 8 = (2 + 1 - 1) / 8) ∧
    (let s := sMove [saved];
      s.group? 2 = some saved ∧ s.gangOf saved = [saved] ∧ s.roomFor saved 2 = true ∧
      findBy (fun y => y.stat == .saved && y.member == 0 && y.image == 0x200000 && ((0xFF : Nat) == 0xFF || y.part == 0xFF)) s.groups
        = some saved ∧
      s.imagesOk 0xFF 0x200000 0 [saved] (fun y => y.imageSize (s.savedMx.any fun p => p.1 == y.gid)) = true) ∧
    (sMove []).groupAt 1 0 = none ∧
    (∀ k ∈ [OpKind.save, .load, .move], let s := { sMove [user] with ops := [moveOp k] }
      s.op? 60 = some (moveOp k) ∧ s.group? 2 = some user ∧ (∀ y ∈ user.warps, y.susp = none) ∧
      (moveOp k).lanes = [[BitVec.ofNat 32 user.gid]]) := by
  refine ⟨fun gs hg => ⟨issueAll_of _ _ _ ?_, fun b hb => ?_⟩, ?_, ?_, ?_, ?_, fun k hk => ?_⟩
  case refine_1 => fin_cases hg <;> decide +kernel
  case refine_2 => fin_cases hg <;> fin_cases hb <;> ((repeat' apply And.intro) <;> decide +kernel)
  case refine_7 => fin_cases hk <;> exact ⟨by decide +kernel, by decide +kernel, by decide +kernel, rfl⟩
  all_goals decide +kernel

/-- v2:v3 is a page of 2 MiB, v6:v7 no such page; v4 and v5 are control words of TLBINV; v1 is no entry of the queue. -/
def wAns : Warp := warp [(1, 20), (2, 0x200000), (4, 0x40000), (5, 0x100000), (6, 0x1000)]
def gAns (p : Nat) : Group := { group wAns lone with part := p }
/-- A user warp that has been suspended: its trap slot names the second instruction, its fault stands in entry 0 of the
root's queue, and the tables of its context map 2 MiB. -/
def susp : TrapSave := ⟨0, 1, [], none, false⟩
def suspWarp : Warp := { warp [] with susp := some susp, splits := [split] }
def suspGroup : Group := { user with warps := [suspWarp] }
def leaf2 : DWord := BitVec.ofNat 64 (2 ^ 63 + 2 ^ 62 + 2 ^ 61 + 2 ^ 57 + 0x200000)
def ansBytes : List (Nat × Byte) :=
  putAt 0x20000 (natBytes 32 ((missed 0x5000).entry 1 1 + 2 ^ 80 * 2)) ++ putAt 0x1000 (natBytes 8 0x10004)
    ++ putAt 0x40000 (natBytes 8 (2 ^ 63 + 0x41000)) ++ putAt 0x41000 (natBytes 8 (2 ^ 63 + 0x42000)) ++ putAt 0x42008 (natBytes 8 leaf2.toNat)
def sAns (p : Nat) (gs : List Group) : State :=
  let s := (machine (gAns p) wAns lone).writeRaw ansBytes;
  let s := (s.setPart 0xFF { Part.absent with live := true, fqbase := 0x20000, parties := [(0, [.warp 2 0])] }).setContext 7 ⟨0x40000, 1, .live⟩;
  { s.setCore 1 { Core.fresh with tlb := [⟨7, 1, 0x10000, 0x10000, codePte⟩] } with groups := s.groups ++ gs }
def cAns (p : Nat) : Ctx := ctx (gAns p) wAns lone
def invalidating : EngOp := { netInFlight .tlbinv 0 0 with args := [0x200000, 0, 0x40007, 0] }

theorem released_of {s : State} {c : Ctx} {p : State → Prop} [DecidablePred p] (h : (match fqRelease s c with
      | .ok t => decide (p t)
      | .error _ => false) = true) : ∃ s1, fqRelease s c = .ok s1 ∧ p s1 := by
  split at h
  · exact ⟨_, by assumption, of_decide_eq_true h⟩
  · cases h

/-- A miss of core 0 in ASID 7 whose walk is in flight. -/
def missing (va : DWord) : Miss := ⟨0, 7, 1, va, true⟩

def sMiss : State := (sAns 0xFF []).setDie 0 { Die.fresh with misses := [missing 0x200000] }

/-- R316: a miss of a key whose walk is in flight joins it; another waits where its partition's share is full (partition 1
holds no cluster here). The walk finds a 2 MiB page, which serves both. -/
theorem test_miss_joins_or_waits :
    (((sMiss.miss 1 7 0x200040).die 0).misses.map fun m => m.walking) = [true, true] ∧
    (((sMiss.miss 1 7 0x210000).die 0).misses.map fun m => m.walking) = [true, false] ∧
    (match execPageWalk 0 7 0x200000 (sMiss.miss 1 7 0x210000) with
      | .next t => (t.die 0).misses == [] && (tlbFind (t.core 1).tlb 7 0x210000).isSome
      | _ => false) = true := by decide +kernel

theorem notOk {α β : Type} {x : Except α β} (h : (match x with | .ok _ => false | .error _ => true) = true) {v : β} (e : x = .ok v) :
    False := by subst e; cases h

theorem witness_TranslationsAndFaultAnswers :
    (∀ p ∈ [1, 0xFF], let s := sAns p [suspGroup]; let c := cAns p
      issueAll s c [.tlbinv ⟨50, 2, 4⟩, .tlbinv ⟨50, 2, 5⟩, .tlbinv ⟨50, 6, 4⟩, .fqansResume ⟨50, 0, 3⟩, .fqansResume ⟨50, 1, 3⟩,
        .fqansTerminate ⟨50, 0, 8⟩, .fqansTerminate ⟨50, 1, 8⟩] ∧
      c.low none = 0 ∧ (c.pair 2 0).toNat % invSize 1 = 0 ∧ (c.pair 6 0).toNat % invSize 1 ≠ 0 ∧ (c.reg 4 0).toNat = 0x40000 ∧
      (c.reg 5 0).toNat = 0x100000 ∧ c.grp.part = p ∧ (s.context 0).part ≠ 1) ∧
    (let s := { sAns 0xFF [suspGroup] with ops := [invalidating], flys := [flown] };
      s.op? 60 = some invalidating ∧ s.accessPending invalidating = false ∧ s.fly? 50 = some flown) ∧
    (∃ s1, fqRelease (sAns 0xFF [suspGroup]) (cAns 0xFF) = .ok s1 ∧ (let c := cAns 0xFF
      fqTarget s1 c 20 0 = .error 4 ∧
      fqTarget s1 c 0 0 = .ok 0xFF ∧
      findBy (fun (q : Nat × List Party) => q.1 == 0) (s1.part 0xFF).parties = some (0, [.warp 2 suspWarp.idx]) ∧
      s1.group? 2 = some suspGroup ∧ s1.warp? 2 suspWarp.idx = some suspWarp ∧
      (readSlot s1.home (s1.trapSlot 1 0)).bad = false ∧ (readSlot s1.home (s1.trapSlot 1 0)).ecv = false ∧
      s1.badTarget suspGroup (readSlot s1.home (s1.trapSlot 1 0)).epc = none ∧
      s1.homeNat ((s1.part 0xFF).fqEntry 0 + 10) 2 = 7 ∧ (∀ g ∈ s1.groups, g.asid = 7 → g.gid ≠ 1) ∧
      isPeer ((s1.part 0xFF).fqEntry 0) = false ∧ (s1.part 0xFF).waiting = [])) ∧
    (let s := sMiss;
      findBy (fun y => y.walking && y.core == 0 && y.asid == 7 && y.va == 0x200000) (s.die 0).misses = some (missing 0x200000) ∧
      s.walk 0x200000 4 (s.context 7).root.toNat 0 = .ok (leaf2, 2) ∧
      s.leafFault (s.context 7).part .read leaf2 (pageBits 2) 0x200000 = none) ∧
    (let s := (sAns 0xFF []).setDie 0 { Die.fresh with misses := [missing 0] };
      findBy (fun y => y.walking && y.core == 0 && y.asid == 7 && y.va == 0) (s.die 0).misses = some (missing 0) ∧
      ∀ e lv, s.walk 0 4 (s.context 7).root.toNat 0 = .ok (e, lv) → s.leafFault (s.context 7).part .read e (pageBits lv) 0 ≠ none) := by
  refine ⟨fun p hp => ⟨issueAll_of _ _ _ ?_, ?_⟩, ?_, released_of ?_, ?_, ?_, fun e lv h => (notOk (by decide +kernel) h).elim⟩
  case refine_1 => fin_cases hp <;> decide +kernel
  case refine_2 => fin_cases hp <;> ((repeat' apply And.intro) <;> decide +kernel)
  all_goals decide +kernel


/-! ### Witnesses: ends, launches, bring-up -/

/-- A warp with a closure that may run, one that waits in YLD, one that has nothing left; a launch that is over, its record at
0x10200. -/
def running : Closure := { closure 0 with iword := 0x83009419, waits := [], run := some 3 }
def wRun : Warp := { warp [] with closures := [running], splits := [lone] }
def wYld : Warp := { warp [] with yld := some 5, splits := [lone] }
def wDone : Warp := { warp [] with splits := [] }
def sEnds (g : Group) : State := { s0 with groups := [g], cur := none, agenda := [] }
def gEnds (w : Warp) : Group := { group (warp []) lone with warps := [w] }
def finished : Launch := { codeLaunch with id := 9, recorded := false, live := 0, done := 1, part := 0, desc := { codeLaunch.desc with crec := 0x10200 } }
def sOver : State := { sReq with groups := [], launches := [finished] }

theorem witness_EndingsOfWork :
    (let g := gEnds wRun; let s := sEnds g;
      s.group? g.gid = some g ∧ s.warp? g.gid 0 = some wRun ∧ wRun.idx = 0 ∧ wRun.headClosure = some running ∧ g.stat = .run ∧
      wRun.ended = false ∧ wRun.susp = none ∧ wRun.inh = none ∧ running.instr = some (.addi ⟨0x28, 2, 0x418, none⟩) ∧ s.drives = [] ∧
      Instr.memWriting (.addi ⟨0x28, 2, 0x418, none⟩) = false ∧ Instr.isLoad (.addi ⟨0x28, 2, 0x418, none⟩) = false) ∧
    (let g := gEnds wYld; let s := sEnds g;
      s.group? g.gid = some g ∧ s.warp? g.gid 0 = some wYld ∧ wYld.yld = some 5) ∧
    (let g := gEnds wDone; let s := sEnds g;
      s.group? g.gid = some g ∧ s.warp? g.gid 0 = some wDone ∧ wDone.ended = false ∧ wDone.splits = [] ∧ wDone.closures = [] ∧
      wDone.annLive = 0 ∧ s.drives = [] ∧ s.queue = [] ∧ g.stat = .run ∧ (∀ y ∈ g.warps, y.idx = wDone.idx ∨ y.ended = true)) ∧
    (let g := { gEnds wDone with stat := .draining }; let s := sEnds g;
      s.group? g.gid = some g ∧ g.stat = .draining ∧ s.busyGroup g = false) ∧
    (let s := sOver;
      s.launch? finished.id = some finished ∧ finished.recorded = false ∧ finished.parked = false ∧ s.launchOver finished = true ∧
      s.translate portCore finished.desc.asid .write finished.desc.crec = .ok 0x10200 ∧ isPeer (0x10200 + 32) = false) ∧
    (let l := { finished with desc := { finished.desc with crec := 0x50000 } }; let s := { sOver with launches := [l] };
      s.launch? l.id = some l ∧ s.launchOver l = true ∧
      s.translate portCore l.desc.asid .write l.desc.crec = .bad ⟨0, 0, 0x50000⟩) := by
  refine ⟨?_, ?_, ?_, ?_, ?_, ?_⟩ <;> decide +kernel


/-- A well-formed launch descriptor of one gang; a launch that waits; the module up, with partition 0 on cluster 0. -/
def descNum (gangs : Nat) : Nat :=
  2 ^ 960 * 0x10000 + 2 ^ 736 * gangs + 2 ^ 648 * 16 + 2 ^ 640 * 16 + 2 ^ 632 * 128 + 2 ^ 626 + 2 ^ 618 * 5
def queuedLaunch : Launch :=
  { codeLaunch with
    id := 9, recorded := false, live := 0, part := 0, kernel := false, waitingGangs := [0]
    desc := { codeLaunch.desc with feedtab := 0x10300, prio := 0 } }
def sUp (ls : List Launch) (bs : List (Nat × Bind)) : State :=
  let s := (sReq.setPart 0 { peerPart with clusters := [0] }).writeRaw (putAt 0x10300 (natBytes 8 0x10180));
  { s with boot := { Boot.fresh with up := true }, launches := ls, binds := bs, groups := [], tick47 := 4700000000 }
def holdWord : BitVec 256 := BitVec.ofNat 256 (2 ^ 192 * 9 + 2 ^ 53 + 1)
def bound (launch gang nmem state gid : Nat) : Bind := { Bind.free with launch := launch, gang := gang, nmem := nmem, state := state, gid := gid }
/-- An evictor of part 0, a group of lower priority, and the launch it belongs to, whose pool starts at 2 MiB. -/
def lowUser : Group := { user with prio := 0, part := 0, place := 0 }
def owner : Launch := { queuedLaunch with id := 5, waitingGangs := [], desc := { queuedLaunch.desc with imgpool := 0x200000 } }
def evicting : Launch := { queuedLaunch with evictor := true, aged := 3 }
def sEvict : State :=
  { (sUp [evicting, owner] [(64, bound 5 0 0 5 2)]).setPart 0 { peerPart with clusters := [0], ranges := [(0x200000, 0x1000000)] } with
    groups := [lowUser] }
/-- A window above one that it could take, a record of its core's refused gang, and two back-offs. -/
def wHigh : Warp := { warp [] with wbase := 8, splits := [split] }
def sCompact : State := (sEnds (gEnds wHigh)).setCore 0 { Core.fresh with compact := true }
def waited (launch tick : Nat) : Backoff := ⟨launch, 0, 1, tick, false⟩

theorem witness_LaunchesAndBinds :
    (let s := sUp [] []; let h := cmdHeader 1; let d := s.launchFor (descNum 1);
      s.cmdOpen 0 = true ∧ h.kind = 1 ∧ (natBytes 128 (descNum 1)).length = 128 ∧ bytesNat (natBytes 128 (descNum 1)) = descNum 1 ∧
      bytesNat (natBytes 128 (descNum 0)) = descNum 0 ∧ h.launch = 0 ∧ h.nrec = 0 ∧ h.handle = 0 ∧ h.part = 0 ∧
      descBad (descNum 1) = false ∧ descBad (descNum 0) = false ∧ (s.part 0).live = true ∧ (State.reset.part 0).live = false ∧
      (s.context d.asid).state = .live ∧ (s.context d.asid).part = h.part ∧ d.misshapen = false ∧
      (s.launchFor (descNum 0)).misshapen = true ∧ s.queued 0 < 256 ∧ 256 ≤ (sUp (List.replicate 256 queuedLaunch) []).queued 0 ∧
      (cmdHeader 2).kind = 2 ∧ (cmdHeader 2).nrec = 0) ∧
    (∀ full : Bool, let f := { heldFeed with tail := if full then 4096 else 0 }
      let s := { sUp [queuedLaunch] [] with feeds := [f] }; let h := cmdHeader (BitVec.ofNat 128 (2 ^ 32 * 9 + 2 ^ 8 + 2));
      s.cmdOpen 0 = true ∧ h.kind = 2 ∧ h.nrec = 1 ∧ (List.replicate 64 (0 : Byte)).length = 64 * h.nrec ∧ s.launch? h.launch = some queuedLaunch ∧
      queuedLaunch.part = h.part ∧ queuedLaunch.recorded = false ∧ (s.part h.part).live = true ∧ queuedLaunch.desc.feedtab ≠ 0 ∧
      s.feedNamed 0 queuedLaunch.desc.asid queuedLaunch.desc.feedtab h.handle = .ok (some (90, s)) ∧ s.feed? 90 = some f ∧
      f.mapped.isSome = true ∧ f.full = full) ∧
    (∀ held : Bool, let s := (sUp [queuedLaunch] []).setCore 0 { Core.fresh with held := if held then some (1, 1) else none }
      let r := bindWord holdWord;
      s.boot.up = true ∧ (s.bind 0).state = 0 ∧ s.launch? r.ldesc = some queuedLaunch ∧ s.holdAllowed 0 r queuedLaunch = true ∧
      s.holdRoom 0 r queuedLaunch = !held ∧ s.binds = []) ∧
    (let s := sUp [queuedLaunch] [(0, bound 9 0 0 2 0)]; let l := queuedLaunch;
      (s.bind 0).state = 2 ∧ s.launch? (s.bind 0).launch = some l ∧ (s.bind 0).launch = l.id ∧ (s.bind 0).nmem = 0 ∧
      (s.admitting l.id (s.bind 0).gang).length = 1 ∧ s.groups = [] ∧ s.memberOver l.id (s.bind 0).gang (s.bind 0).member = false ∧
      s.placeWarps 0 l.desc.warps l.desc.regs = some [(0, 0)] ∧ s.group? s.uid = none) ∧
    (let s := sUp [queuedLaunch] [(0, bound 9 0 1 2 0), (64, bound 9 0 1 2 0)];
      (s.bind 0).state = 2 ∧ s.launch? (s.bind 0).launch = some queuedLaunch ∧
      (s.admitting (s.bind 0).launch (s.bind 0).gang).length = (s.bind 0).nmem + 1 ∧
      (∀ p ∈ s.admitting (s.bind 0).launch (s.bind 0).gang, p.2.state = 2 ∨ p.2.state = 4) ∧
      ∃ p ∈ s.admitting (s.bind 0).launch (s.bind 0).gang, p.1 ≠ 0 ∧ p.2.state = 2) ∧
    (let s := sEvict; let gs := (s.gangOf lowUser).filter fun y => y.onCore
      s.boot.up = true ∧ (s.bind 64).state = 5 ∧ s.group? (s.bind 64).gid = some lowUser ∧ s.leads lowUser = true ∧
      evicting ∈ s.launches ∧ s.victim evicting lowUser = true ∧ s.evictInto gs 0x200000 = true ∧ gs = [lowUser]) ∧
    (let s := { sUp [] [] with backoffs := [waited 9 10, waited 8 20] };
      s.backoff? 9 0 = some (waited 9 10) ∧ (waited 9 10).tick ≤ s.tick47 / 47 ∧
      ∀ y ∈ s.backoffs, y.expired = false → (waited 9 10).tick ≤ y.tick) ∧
    (let g := gEnds wHigh; let s := sCompact;
      s.group? g.gid = some g ∧ s.warp? g.gid 0 = some wHigh ∧ (s.core g.core).compact = true ∧ g.onCore = true ∧ wHigh.ended = false ∧ 0 < wHigh.wbase ∧
      windowFits ((s.residents g.core).flatMap fun y =>
        (y.warps.filter fun v => !v.ended && v.slot % 4 == wHigh.slot % 4 && !(y.gid == g.gid && v.idx == wHigh.idx)).map fun v =>
          (v.wbase, v.window)) 0 wHigh.window = true) ∧
    (let s := sUp [queuedLaunch] []; let l := queuedLaunch;
      s.launch? l.id = some l ∧ l.terminated = false ∧ l.waitingGangs ≠ [] ∧ l.desc.prio + l.aged < 3 ∧
      l.accepted + 5000000 * (l.aged + 1) ≤ s.tick47 / 47 ∧ l.evictor = false ∧ l.accepted + 200000 ≤ s.tick47 / 47) := by
  refine ⟨?_, fun b => ?_, fun b => ?_, ?_, ?_, ?_, ?_, ?_, ?_⟩
  case refine_2 =>
    cases b <;> ((repeat' apply And.intro) <;> decide +kernel)
  case refine_3 =>
    cases b <;> ((repeat' apply And.intro) <;> decide +kernel)
  all_goals decide +kernel


/-- Two images, of which the first verifies; a module that is up, linked, and named. -/
def goodImage : FlashImage := { version := 1, bytes := 4096, ed25519 := true, mldsa := true, sched := 5 }
def badImage : FlashImage := { goodImage with mldsa := false }
def sBoot (b : Boot) : State := { State.reset with boot := b, tick47 := 47000000000 }
def linked : Boot := { Boot.fresh with up := true, links := [0], linkTick := some 0 }
def named (mgmt : Option Nat) (n : Nat) : Boot := { linked with address := some 7, sched := 5, mgmt := mgmt, announce := n }
def sSag (d : Die) : State := (sBoot (named none 0)).setDie 0 d

theorem witness_BringUpEvents :
    (let s := sSag Die.fresh;
      (1 : Nat) ≠ (s.die 0).sag ∧ (s.die 0).intlog = 0) ∧
    (let s := sSag { Die.fresh with sag := 2, sagging := true };
      (2 : Nat) = (s.die 0).sag ∧ (s.die 0).sagging = true) ∧
    (let s := sSag { Die.fresh with sag := 2 };
      (s.die 0).sagging = false ∧ 0 < (s.die 0).sag ∧ (s.die 0).sagClear + 100 ≤ s.tick47 / 47) ∧
    (let b := { Boot.fresh with images := [(0, goodImage), (1, badImage)] };
      b.up = false ∧ b.mgmtOnly = false ∧ (0, goodImage) ∈ b.images ∧ goodImage.ed25519 = true ∧ goodImage.mldsa = true) ∧
    (let b := { Boot.fresh with images := [(1, badImage)] };
      b.up = false ∧ b.mgmtOnly = false ∧ ∀ p ∈ b.images, p.2.ed25519 = false ∨ p.2.mldsa = false) ∧
    (let s := sBoot linked;
      s.boot.up = true ∧ (s.die 0).ready.getLsbD 1 = false ∧ s.functionUp 0 1 = true ∧ (s.die 0).ready.getLsbD 7 = false ∧
      s.functionUp 0 7 = true ∧ s.group? s.uid = none ∧ 1 ∉ s.boot.links ∧ s.boot.linkTick = some 0 ∧ s.boot.address = none ∧
      0 + 300000000 ≤ s.tick47 / 47) ∧
    (∀ n ∈ [0, 1], ∀ m ∈ [none, some 3], let s := sBoot (named m n); let b := s.boot
      b.up = true ∧ b.address = some 7 ∧ (b.announce = 0 ∨ b.announceTick + (if b.mgmt = none then 100000000 else 10000000) ≤ s.tick47 / 47) ∧
      (0 < b.announce ↔ n = 1) ∧ b.mgmt = m ∧ b.mgmt ≠ some 4 ∧ b.mgmtOnly = false) ∧
    (let s := (sBoot (named (some 3) 1)).setPart 1 { Part.absent with live := true };
      s.boot.up = true ∧ s.boot.mgmt = some 3 ∧ (1 : Nat) ≠ 0xFF ∧ (s.part 1).live = true) ∧
    Boot.fresh.links = [] ∧ Boot.fresh.mgmtOnly = false ∧ ((State.reset.die 0).intlog = 0) := by
  (repeat' apply And.intro) <;> decide +kernel

/-- The operands of an attention and of a transfer to storage stand in v8 and v32; the records, the peer window, the
connection and the namespace are named as before. -/
def wWork : Warp := warp [(2, 0x30000), (4, 0x10140), (6, 3), (7, 4), (10, 1), (18, 0x100000), (24, 0x10200), (26, 16),
  (28, 0x80000100), (32, 0x10200), (34, 4), (36, 0x80000100), (42, 0x14000), (43, 0x60000000), (44, 0x80000100)]
def gWork : Group := { deferGroup wWork lone with part := 0 }
def sWork : State := withPeer ((machine gWork wWork lone).writeRaw records)
def cWork : Ctx := ctx gWork wWork lone

theorem witness_WorkIsTakenUp :
    (issueAll sMem cMem [.atom ⟨.add, .device, true, true, .g, 8, 2, none⟩] ∧ cMem.act none ≠ [] ∧ sMem.fly? (cMem.key sMem) = none ∧
      Accessible sMem cMem .g 8 true false ((cMem.act none).map fun l => cMem.ea sMem .g 2 0 8 l)) ∧
    (issueAll s0 c0 [.tspawn ⟨8, 0, 2, none⟩] ∧
      ∀ l ∈ c0.act none, (c0.pair 0 l).extractLsb' 0 2 = 0 ∧ (c0.pair 2 l).extractLsb' 0 6 = 0) ∧
    (let c := ctx (group wTask split) wTask split;
      issueAll (machine (group wTask split) wTask split) c [.tend ⟨none⟩] ∧ c.Live ∧ c.warp.task = true) ∧
    (let s := sMat engine true; let c := cMat true; let d := loopDesc (c.words 8 4 (c.low none));
      issueAll s c [.mloop ⟨8, none⟩, .mgrp ⟨8, 0, none⟩, .mdrn ⟨40, 0, none⟩] ∧ LoopOk s c d [] wgt actv ∧ LoopOk s c d [(0, 0)] wgt actv ∧
      c.act none ≠ [] ∧ c.reg 0 (c.low none) = 0 ∧ s.locNat (.sram c.grp.gid 0) 4 = 0 ∧ 4 ≤ c.grp.sBytes ∧
      (s.core 0).locked 0 c.grp.asid 0 4 = false ∧ (c.mx s).check = false ∧ (c.mx s).owner = some c.grp.gid ∧
      (c.mx s).queue.length < 16 ∧ c.deferring = true ∧ s.fly? (c.key s) = none) ∧
    (let s := sWork; let c := cWork; let d := kvDesc mapRec; let new := (join64 (c.reg 42 0) (c.reg 43 0)).toNat;
      issueAll s c [.kvg ⟨50, 4, 16, none⟩, .kvmap ⟨50, 4, 16, none⟩, .migr ⟨50, 4, 40, none⟩, .adec ⟨52, 4, 8, none⟩] ∧
      ReadsRecord s c 4 32 0 mapRec ∧ Accessible s c .g 8 true false [entryEa 0 0x10400] ∧
      c.act none = [0] ∧ c.low none = 0 ∧ c.reg 18 0 = 2 ^ 20 ∧ c.deferring = true ∧ d.rejected = false ∧ 1 * d.halfLen ≤ c.grp.sBytes ∧
      s.gathers 0 < 8 ∧ (s.copyQueue 0).length < 32 ∧ s.lockRoom 0 2 = true ∧ s.fly? (c.key s) = none ∧
      d.entryOf (c.reg 16 0) (c.reg 17 0) = some 0x10400 ∧ (c.pair 18 0).extractLsb' 57 4 = 0 ∧
      s.placeOf c.grp true (entryEa 0 0x10400) = some (.phys 0x10400) ∧ (Loc.phys 0x10400).peer = false ∧
      s.checkSignal c.grp (c.reg 44 0) (c.reg 45 0) = .ok sigWord ∧ entryMapped new = true ∧ entryMoving new = false ∧
      entryReserved new = 0 ∧ d.entryOf (c.reg 40 0) (c.reg 41 0) = some 0x10400 ∧
      c.words 8 3 0 = [0, 0, 1] ∧ 52 + 3 + d.dim / 32 < c.warp.window ∧ 4 * d.dim ≤ c.grp.sBytes ∧
      (s.ops.filter fun o => o.core == 0 && o.kind == .adec).length < 8 ∧ c.extraWaits ((span 52 (4 + d.dim / 32)).drop 4) = []) ∧
    (let s := sWork; let c := cWork;
      issueAll s c [.nwr ⟨true, 50, 2, 24, none⟩, .nrd ⟨50, 2, 24, none⟩, .nsnd ⟨true, 50, 6, 24, none⟩, .natm ⟨true, 50, 2, 24, none⟩,
        .nwatch ⟨50, 2, none⟩, .strd ⟨50, 7, 32, none⟩, .stwr ⟨true, 50, 7, 32, none⟩, .stfl ⟨50, 7, 32, none⟩] ∧
      (∀ wr, RemoteAt s c wr 2 0 peerAt ∧ LocalOk s c wr 0x10200) ∧
      s.conn? c.grp.asid (c.reg 6 0).toNat = some ⟨3, 0, 77, 1, 0, 0⟩ ∧
      s.namespace? c.grp.asid (c.reg 7 0).toNat = some ⟨4, 0, 88, 1, 4096⟩ ∧
      s.netQueue 0 (s.payer c.grp.part) < s.share (s.payer c.grp.part) 0 256 ∧ s.storageQueue 0 (s.payer c.grp.part) < s.share (s.payer c.grp.part) 0 128 ∧
      s.queuePair 0 c.grp.asid (c.reg 7 0).toNat < 128 ∧
      ∀ b ∈ [24, 32], let ws := c.words b 8 0
        join64 (ws.getD 0 0) (ws.getD 1 0) = 0x10200 ∧ (ws.getD 2 0).toNat = (if b = 24 then 16 else 4) ∧ ws.getD 3 0 = 0 ∧
        s.checkSignal c.grp (ws.getD 4 0) (ws.getD 5 0) = .ok sigWord) ∧
    (sTask.gathered 0 = [task] ∧ sTask.launch? task.launch = some codeLaunch ∧ (sTask.core 0).held = none ∧
      sTask.placeWarps 0 1 codeLaunch.desc.regs = some [(0, 0)]) := by
  refine ⟨⟨issueAll_of _ _ _ ?_, ?_, ?_, accessible_of ?_⟩, ⟨issueAll_of _ _ _ ?_, ?_⟩, ⟨issueAll_of _ _ _ ?_, live_of _ ?_, ?_⟩,
    ⟨issueAll_of _ _ _ ?_, loopOk_of ?_, loopOk_of ?_, ?_⟩,
    ⟨issueAll_of _ _ _ ?_, reads_of (p := 0x10140) ?_, accessible_of ?_, ?_⟩,
    ⟨issueAll_of _ _ _ ?_, fun wr => ⟨?remote, local_of (p := 0x10200) ?near⟩, ?_⟩, ?_⟩
  case remote => cases wr <;> ((repeat' apply And.intro) <;> decide +kernel)
  case near => cases wr <;> decide +kernel
  all_goals decide +kernel

/-! ### Witnesses: the other clauses of the statements -/

/-- The machine and the context of a warp that keeps its own splits. -/
def machineOf (g : Group) (w : Warp) (sp : Split) : State := { machine g w sp with groups := [{ g with warps := [w] }] }
def ctxOf (g : Group) (w : Warp) (sp : Split) : Ctx := ⟨sp.cur 1 w 4 0 0, { g with warps := [w] }, w, sp⟩

/-- A closure that runs with its captured v5 poisoned. -/
def sick : Closure := { closure 0 with lanes := [(5, List.replicate 32 0)], pois := [regKey 5 0], run := some 3, waits := [] }
def wClo (fl : Word) : Warp := { warp [] with closures := [sick], splits := [split], fflags := fl }
def sClo (fl : Word) : State := { machineOf (group (wClo fl) split) (wClo fl) split with cur := some (sick.cur 1 0) }
def cClo (fl : Word) : Ctx := closureCtx { group (wClo fl) split with warps := [wClo fl] } (wClo fl) sick

theorem witness_ChecksAtIssue_closure :
    issuer? (sClo 0) = some (cClo 0) ∧ (cClo 0).cur.clo = some 0 ∧ (Instr.add ⟨7, 0, 5, false, none⟩).encoded = true ∧
    (cClo 0).poison? (.add ⟨7, 0, 5, false, none⟩) ≠ none ∧ (sClo 0).earlyTarget (cClo 0) (.add ⟨7, 0, 5, false, none⟩) = none ∧
    (Instr.add ⟨7, 0, 5, false, none⟩).privileged = false ∧ (cClo 0).beyond (.add ⟨7, 0, 5, false, none⟩) = false := by
  (repeat' apply And.intro) <;> decide +kernel

/-- Every flag's trap is enabled: v1 + v2 is inexact, v4 and v5 saturate, v6 is a NaN, v7 holds 1 and 2^-30 in its two lanes. -/
def wFlag : Warp :=
  { tileWarp 32 [(1, 0, 0x3F800001), (2, 0, 0x30800000), (4, 0, 0x7FFFFFFF), (5, 0, 0xFEFEFEFE), (6, 0, 0x7F800001),
      (7, 0, 0x3F800000), (7, 1, 0x30800000)] with fflags := 0x3F00 }
def cFlag : Ctx := ctx (group wFlag split) wFlag split

/-- An instruction that raises a flag whose trap is enabled. -/
def Flags (i : Instr) : Prop := ∃ m tr ws fl, cFlag.Flagging i m tr ws fl ∧ cFlag.enabled fl ≠ 0

theorem witness_FloatTrapsAfterCompletion_forms :
    cFlag.cur.noFp = false ∧ cFlag.cur.clo = none ∧ Flags (.dadd ⟨.i32, 3, 4, 4, false, none⟩) ∧ Flags (.dmul ⟨.u8x4, 3, 5, 5, none⟩) ∧
    Flags (.faddF32 ⟨3, 1, 2, false, none⟩) ∧ Flags (.fadd16 ⟨1, 2⟩) ∧ Flags (.fcmp ⟨.f32, .lt, 3, 6, 1, none⟩) ∧
    Flags (.frcp ⟨.f32, 3, 8, false, none⟩) ∧ Flags (.cvt ⟨.f16, .f32, false, 3, 1, none⟩) ∧
    Flags (.cvts ⟨.se4m3, .f32, false, 10, 1, none⟩) ∧ Flags (.cbenc ⟨.f32, .cb2, 10, 1, none⟩) ∧
    Flags (.red ⟨.add, .f32, 10, 7, none⟩) ∧ Flags (.scan ⟨.add, .f32, 10, 7, none⟩) ∧
    issueAll (machine (group wFlag split) wFlag split) cFlag [.dadd ⟨.i32, 3, 4, 4, false, none⟩, .dmul ⟨.u8x4, 3, 5, 5, none⟩,
      .fadd16 ⟨1, 2⟩, .fcmp ⟨.f32, .lt, 3, 6, 1, none⟩, .frcp ⟨.f32, 3, 8, false, none⟩, .cvts ⟨.se4m3, .f32, false, 10, 1, none⟩,
      .cbenc ⟨.f32, .cb2, 10, 1, none⟩, .red ⟨.add, .f32, 10, 7, none⟩, .scan ⟨.add, .f32, 10, 7, none⟩] ∧
    (let c := cClo 0x3F00; c.cur.noFp = false ∧ c.cur.clo = some 0 ∧ issueAll (sClo 0x3F00) c [.frcp ⟨.f32, 3, 8, false, none⟩] ∧
      ∃ m tr ws fl, c.Flagging (.frcp ⟨.f32, 3, 8, false, none⟩) m tr ws fl ∧ c.enabled fl ≠ 0) := by
  refine ⟨rfl, rfl, ⟨_, _, _, _, .inl ⟨⟨.i32, 3, 4, 4, false, none⟩, .add, by simp, rfl, rfl, rfl, rfl⟩, ?_⟩,
    ⟨_, _, _, _, .inr (.inl ⟨⟨.u8x4, 3, 5, 5, none⟩, .mul, by simp, rfl, rfl, rfl, rfl⟩), ?_⟩,
    ⟨_, _, _, _, .inr (.inr (.inl ⟨⟨3, 1, 2, false, none⟩, .add, .f32, by simp, rfl, rfl, rfl, rfl⟩)), ?_⟩,
    ⟨_, _, _, _, .inr (.inr (.inr (.inl ⟨⟨1, 2⟩, .add, by simp, rfl, rfl, rfl, rfl⟩))), ?_⟩,
    ⟨_, _, _, _, .inr (.inr (.inr (.inr (.inl ⟨_, rfl, rfl, rfl, rfl, rfl⟩)))), ?_⟩,
    ⟨_, _, _, _, .inr (.inr (.inr (.inr (.inr (.inl ⟨⟨.f32, 3, 8, false, none⟩, .rcp, by simp, rfl, rfl, rfl, rfl⟩))))), ?_⟩,
    ⟨_, _, _, _, .inr (.inr (.inr (.inr (.inr (.inr (.inl ⟨_, rfl, rfl, rfl, rfl, rfl⟩)))))), ?_⟩,
    ⟨_, _, _, _, .inr (.inr (.inr (.inr (.inr (.inr (.inr (.inl ⟨_, rfl, rfl, rfl, rfl, rfl⟩))))))), ?_⟩,
    ⟨_, _, _, _, .inr (.inr (.inr (.inr (.inr (.inr (.inr (.inr (.inl ⟨_, rfl, rfl, rfl, rfl, rfl⟩)))))))), ?_⟩,
    ⟨_, _, _, _, .inr (.inr (.inr (.inr (.inr (.inr (.inr (.inr (.inr (.inl ⟨_, rfl, rfl, rfl, rfl, rfl⟩))))))))), ?_⟩,
    ⟨_, _, _, _, .inr (.inr (.inr (.inr (.inr (.inr (.inr (.inr (.inr (.inr ⟨_, rfl, rfl, rfl, rfl, rfl⟩))))))))), ?_⟩,
    issueAll_of _ _ _ ?_, rfl, rfl, issueAll_of _ _ _ ?_,
    ⟨_, _, _, _, .inr (.inr (.inr (.inr (.inr (.inl ⟨⟨.f32, 3, 8, false, none⟩, .rcp, by simp, rfl, rfl, rfl, rfl⟩))))), ?_⟩⟩ <;>
    decide +kernel

theorem witness_NumberValues_more :
    fpFinite 5 10 0x3C00 ∧ fpFinite 8 7 0x3F80 ∧ f32Finite 0x3F800000 ∧
    (let v := f32Scaled 0x3F800000; v ≠ 0 ∧ 2 ^ 298 < v.natAbs * ((2 ^ 25 - 1) * 2 ^ 252) ∧ 0 < v) ∧ f32Finite 0xBF800000 ∧
    f32Scaled 0xBF800000 < 0 := by
  unfold fpFinite f32Finite f32Scaled
  (repeat' apply And.intro) <;> decide +kernel

/-- A split with a full stack, two lanes that go apart, and the other three splits. -/
def full : Split := { split with mask := 3, stack := (List.range 8).map fun k => ⟨page, 1#32 <<< (8 + k)⟩ }
def wFull : Warp :=
  { tileWarp 32 [(6, 0, 1), (2, 0, 0x10004), (2, 1, 0x10008)] with
    splits := [full, { split with num := 1, mask := 4 }, { split with num := 2, mask := 8 }, { split with num := 3, mask := 16 }] }

theorem witness_BranchesMoveLanes_full :
    let s := machineOf (group wFull full) wFull full; let c := ctxOf (group wFull full) wFull full
    issueAll s c [.brc ⟨.p, 6, 4⟩, .brx ⟨2⟩] ∧ c.cur.clo = none ∧ (∀ n < 4, (c.warp.split? n).isSome = true) ∧ 8 ≤ c.split.stack.length ∧
    c.cur.mask.getLsbD 0 = true ∧ c.cur.mask.getLsbD 1 = true ∧ condHolds .p (c.reg 6 0) = true ∧ condHolds .p (c.reg 6 1) = false ∧
    c.cur.pc + 2 * (4 : BitVec 15).signExtend 64 ≠ c.next ∧ s.badTarget c.grp (c.cur.pc + 2 * (4 : BitVec 15).signExtend 64) = none ∧
    (∀ l ∈ c.act none, s.badTarget c.grp (c.pair 2 l) = none) ∧ c.act none = [0, 1] ∧ c.pair 2 0 ≠ c.pair 2 1 := by
  intro s c
  refine ⟨issueAll_of _ _ _ ?_, ?_⟩ <;> ((repeat' apply And.intro) <;> decide +kernel)

/-- A kernel handler whose record answers closure 0, and resumes at the second instruction. -/
def wEcv : Warp := { wTret with closures := [closure 0] }
def sEcv (act : Nat) : State :=
  (machine (group wEcv split) wEcv split).writeRaw (putAt 24 (natBytes 5 (2 ^ 32 * act + 2 ^ 27)) ++ putAt 48 (natBytes 8 0x10004))

theorem witness_KernelReturnResumes_closure : ∀ act ∈ [0, 1, 2],
    let s := sEcv act; let c := ctx (group wEcv split) wEcv split
    let r := readSlot (s.farByte c.grp.core c.grp.part) (s.trapSlot c.grp.core c.warp.slot)
    issueAll s c [.tret] ∧ c.warp.inh = some ⟨0, 1, [], none, false⟩ ∧ r.ecv = true ∧ r.act = act ∧ r.spc ≠ 0 ∧ r.ecl = 0 ∧
    c.warp.closure? 0 = some (closure 0) := by
  intro act h
  fin_cases h <;> exact ⟨issueAll_of _ _ _ (by decide +kernel), by decide +kernel⟩

/-- A locked range of scratch and of far memory, and a sector that core 5 has written, in a partition whose races trap. -/
def sLock : State := sMem.setCore 0 { sMem.core 0 with locks := [⟨9, 0, 0, 1, 0, 64⟩, ⟨9, 2, 0, 1, 0x10100, 64⟩] }
def sRace : State :=
  { sMem.setPart 0xFF { Part.absent with live := true, racecfg := 1 } with shadow := [(sectorOf 0x10100, ⟨5, 9, [], []⟩)] }

theorem witness_AccessTrapsInOrder_more :
    issueAll sMem cMem [.ldx ⟨.s, 8, 4, 0, none⟩, .ldx ⟨.s, 8, 5, 0, none⟩, .stx ⟨.s, 8, 4, 0, none⟩, .stx ⟨.s, 8, 5, 0, none⟩,
      .ld ⟨.b32, .g, 8, 6, 0, none⟩, .ldx ⟨.g, 8, 6, 0, none⟩, .stx ⟨.g, 8, 6, 0, none⟩,
      .atom ⟨.add, .group, false, false, .s, 8, 4, none⟩, .atom ⟨.add, .group, false, false, .s, 8, 5, none⟩,
      .atom ⟨.add, .device, false, false, .g, 8, 6, none⟩] ∧
    issueAll sLock cMem [.ld ⟨.b32, .s, 8, 0, 0, none⟩, .st ⟨.b32, .g, 8, 2, 0, none⟩, .ldx ⟨.g, 8, 2, 0, none⟩,
      .stx ⟨.s, 8, 0, 0, none⟩, .atom ⟨.add, .device, false, false, .g, 8, 2, none⟩] ∧
    (let e := cMem.ea sLock .s 0 0 4 0; e.mis = false ∧ e.prot = false ∧ sLock.placeOf cMem.grp true e ≠ none ∧
      sLock.placeOf cMem.grp false e ≠ none ∧ sLock.lockedAt cMem.grp .s e 4 = true) ∧
    (let e := cMem.ea sLock .g 2 0 4 0; e.mis = false ∧ e.prot = false ∧ sLock.placeOf cMem.grp true e ≠ none ∧
      sLock.placeOf cMem.grp false e ≠ none ∧ sLock.lockedAt cMem.grp .g e 4 = true) ∧
    issueAll sRace cMem [.ld ⟨.b32, .g, 8, 2, 0, none⟩, .st ⟨.b32, .g, 8, 2, 0, none⟩, .ldx ⟨.g, 8, 2, 0, none⟩,
      .stx ⟨.g, 8, 2, 0, none⟩] ∧
    (sRace.part cMem.grp.part).racecfg.getLsbD 1 = false ∧
    (let e := cMem.ea sRace .g 2 0 4 0; e.mis = false ∧ e.prot = false ∧ sRace.lockedAt cMem.grp .g e 4 = false ∧
      ∀ wr, sRace.placeOf cMem.grp wr e = some (.phys 0x10100) ∧ sRace.raceOf cMem.grp (e, .phys 0x10100) = some 5) := by
  refine ⟨issueAll_of _ _ _ ?_, issueAll_of _ _ _ ?_, ?_, ?_, issueAll_of _ _ _ ?_, ?_, ?_⟩ <;> decide +kernel

/-- A transaction on a future of far memory, full or empty. -/
def atFuture (k : TxKind) (full : Bool) : State :=
  { s0.writeRaw (putAt 0x10204 [if full then 1 else 0]) with batches := [{ adding with kind := k, txs := [⟨0, .phys 0x10200, 9, 0⟩] }], flys := [flown] }

theorem witness_HomeEngineServes_futures : ∀ k ∈ ([.fset, .fclr, .fget true, .fget false] : List TxKind), ∀ full : Bool,
    let s := atFuture k full; let e := engineOf 0x10200
    let b : Batch := { adding with kind := k, txs := [⟨0, .phys 0x10200, 9, 0⟩] }
    s.filledWaiter e = none ∧ s.nextBatch e = some (b, false) ∧ isPeer (0x10200 + 8) = false ∧
    (∀ f ∈ s.flys, ∀ x ∈ f.todo, x.behind ≠ b.id) ∧ (s.homeNat 0x10200 8 / 2 ^ 32 % 2 = 1 ↔ full = true) ∧
    s.locMarked (.phys 0x10200) 8 = false ∧ s.abandoned b.fly = false := by
  intro k h full
  fin_cases h <;> cases full <;> decide +kernel

theorem witness_PhasesAndReleases_more :
    (let p := some { plainMod with pred := 1 };
      issueAll s0 c0 [.phaseRel ⟨.group, p⟩, .phaseAr ⟨.system, p⟩, .fence ⟨.lane, p⟩, .phaseAcq ⟨.gang, false, 0, p⟩]) ∧
    issueAll s0 c0 [.fence ⟨.gang, none⟩, .phaseAcq ⟨.group, false, 0, none⟩] ∧ c0.grp.members ≤ 1 ∧ c0.grp.isGang = false ∧
    c0.act none ≠ [] := by
  refine ⟨issueAll_of _ _ _ ?_, issueAll_of _ _ _ ?_, ?_⟩ <;> decide +kernel

/-- Something of a warp's that waits in the queue. -/
def sQueued : State := { s0 with queue := [⟨7, 0, none, 1, 0, .fence⟩] }

/-- The turn of what a warp does has come, or it must wait, whatever it is. -/
theorem witness_turns (a : Act) : s0.Turn 1 0 a ∧ sQueued.Waits 1 0 a := by
  refine ⟨⟨⟨fun q m => ?_, by decide +kernel⟩, fun _ => ⟨by decide +kernel, fun w e k m => ?_⟩⟩,
    .inl ⟨⟨7, 0, none, 1, 0, .fence⟩, by simp [sQueued], rfl, rfl, Nat.zero_le _⟩⟩
  · exact absurd m (by rw [show s0.queue = [] by decide +kernel]; simp)
  · have h : (s0.warp? 1 0).map (fun w => w.closures) = some [] := by decide +kernel
    rw [e] at h
    simp only [Option.map_some, Option.some.injEq] at h
    rw [h] at m
    cases m

theorem witness_FuturesSendAndAnswer_rest :
    sDef.fenceBehind cDef.cur.gid cDef.cur.widx = 0 ∧ (cDef.streamed = true → cDef.split.busy = none) ∧
    (∀ l ∈ cDef.act none, sDef.placeOf cDef.grp false (cDef.ea sDef .s 0 0 8 l) = some (.sram 1 0)) ∧
    (∀ l ∈ cDef.act none, sDef.placeOf cDef.grp true (cDef.ea sDef .n 0 0 8 l) = some (.nram 1 0)) ∧
    (fut 1).future = some false ∧ (fut 1).poison = [] ∧ (fut 1).mask = (fut 1).ready := by
  (repeat' apply And.intro) <;> decide +kernel

/-! ### Further: announced operations, feeds, the matrix engine -/

theorem witness_AnnouncementsDriveRecords_more :
    (let s := sAnno true lone []; let c := cAnno true lone; recordTrap s c (c.act none) = none ∧ c.act none = [0] ∧
      s.driveOf c false 0 = none) ∧
    (∀ stage ∈ ([.swap, .walk] : List Stage), let sp := { lone with busy := some 50 };
      (sAnno true sp [drive false false stage]).swapHeld 50 = decide (stage = .swap)) := by
  refine ⟨by decide +kernel, fun stage m => ?_⟩
  fin_cases m <;> decide +kernel

/-- A record at 0x11000 of an operation before a step, with the header at 0x10100; its drive, and the step's transaction. -/
def stepDrive (op want xs : Nat) : Drive := { drive false false .step with op := op, want := want, xs := xs, cursor := 0x11000 }
def stepState (op step want xs : Nat) : State :=
  { (sAnno true lone [stepDrive op want xs]).writeRaw (putAt 0x11000 (natBytes 16 (2 ^ 64 * 0x10100 + 2 ^ 56 * 4 + 2 ^ 48 * step + 2 ^ 40 * op + 2 ^ 32 + 5))
      ++ putAt 0x10100 (natBytes 8 (2 ^ 32 * 4 + 5))) with
    batches := [⟨60, engineOf 0x10100, 0, 1, 0, 0, .ann .step, [⟨0, .phys 0x10100, 80, 0x11000⟩]⟩] }

theorem witness_AnnouncementsDriveRecords_steps :
    (∀ p ∈ ([(1, 0, 1, 5), (1, 1, 2, 5), (9, 1, 2, 5), (1, 2, 3, 5), (0x10, 0, 1, 5), (0x12, 0, 1, 5), (0x10, 1, 2, 5), (0x12, 1, 2, 5),
        (0x10, 2, 3, 5), (0x10, 3, 4, 5), (1, 1, 1, 5), (1, 0, 1, 6)] : List (Nat × Nat × Nat × Nat)),
      let s := stepState p.1 p.2.1 p.2.2.1 p.2.2.2; let c := cAnno true lone; let d := stepDrive p.1 p.2.2.1 p.2.2.2
      let r := s.readRec 0x11000
      s.filledWaiter (engineOf 0x10100) = none ∧ (s.nextBatch (engineOf 0x10100)).map (fun q => q.1.txs) = some [⟨0, .phys 0x10100, 80, 0x11000⟩] ∧
      s.drive? 80 = some d ∧ s.group? d.gid = some c.grp ∧ s.warp? d.gid d.widx = some c.warp ∧ isPeer (0x11000 + 64) = false ∧
      d.stage = .step ∧ r.seq = 5 ∧ r.state = 1 ∧ r.op = p.1 ∧ r.step = p.2.1 ∧ d.want ≤ lastStep r.op ∧
      (isContainer r.op = decide (0x10 ≤ p.1)) ∧ isPeer (0x10100 + 16) = false ∧
      (∀ i < 64, ∀ j < 16, rawAddr (0x11000 + i) ≠ rawAddr (0x10100 + j)) ∧ rawAddr 0x11000 / 128 ≠ rawAddr 0x10100 / 128) ∧
    ((stepState 0x10 1 2 5).readRec 0x11000).succeeds = true := by
  refine ⟨fun p m => ?_, by decide +kernel⟩
  fin_cases m <;> ((repeat' apply And.intro) <;> decide +kernel)

theorem witness_AnnouncementsDriveRecords_driver :
    (let d := drive false false .collect; let s := sAnno true lone [d]; let c := cAnno true lone
      s.drive? 80 = some d ∧ s.driveEnabled c.grp c.warp d = true ∧ c.grp.stat ≠ .saved ∧ d.stage ≠ .walk ∧ s.peers d = [d] ∧
      (match s.nextTxn c.grp c.warp d with | .ok (e, l, q) => e == d && l == .phys 0x11000 && q == 0x11000 | .error _ => false) = true ∧
      farIs (s.farPlace c.grp true (c.warp.recordAt d.lane)) 0x11000 = true ∧ s.serverOf (.phys 0x11000) < portEngine) ∧
    (let s := stepState 1 0 1 5; let c := cAnno true lone; let d := stepDrive 1 1 5
      d.stage = .step ∧ farIs (s.farPlace c.grp true (c.warp.recordAt d.lane)) 0x11000 = true ∧ (s.readRec 0x11000).state = 1 ∧
      farIs (s.farPlace c.grp true d.cursor) 0x11000 = true ∧ d.want ≠ 0 ∧ (s.readRec 0x11000).line d.want = some (16, 8, false) ∧
      (match s.objPlace c.grp d.space false ((s.readRec 0x11000).object + BitVec.ofNat 64 16) 8 with
        | .ok l => l == .phys 0x10110 | .error _ => false) = true ∧ (s.readRec 0x11000).seq ≠ 6) := by
  (repeat' apply And.intro) <;> decide +kernel

theorem witness_FeedsQueueRecords_none :
    let g := { group (warp []) split with kernel := false }; let s := machine g (warp []) split; let c := ctx g (warp []) split
    issueAll s c [.fret ⟨20, 0, 1, none⟩] ∧ c.act none ≠ [] ∧
    (match s.feedOf c.grp (c.reg 0 (c.low none)).toNat with | .ok none => true | _ => false) = true := by
  intro g s c
  refine ⟨issueAll_of _ _ _ ?_, ?_⟩ <;> decide +kernel

theorem witness_MatrixCommandsQueue_books : wgt.bookRange = [] ∧
    (let b := { wgt with fmt := 16, cbBase := 0x8000 }; let c := cMat false
      ∀ p ∈ b.bookRange, c.opLocked (sMat engine false) p.1 p.2 = false) := by decide +kernel

/-- A chain of the two members of a gang on cores 0 and 1, each with a command at its head. -/
def member (m : Nat) : Group := { group (warp []) lone with gid := 1 + m, member := m, members := 2, isGang := true, core := m }
def chained (q : Nat → List MCmd) (run : Option MRun) (chain : Nat) : State :=
  let mx := fun (m : Nat) => { engine with owner := some (1 + m), queue := q m, run := run, chain := chain }
  ({ s0 with groups := [member 0, member 1] }.setCore 0 { Core.fresh with mx := mx 0 }).setCore 1 { Core.fresh with mx := mx 1 }
def chnCmd (m : Nat) : MCmd := { cmd .chn with gid := 1 + m, args := [2] }

theorem witness_MatrixEngineRuns_chain :
    (let s := chained (fun _ => [cmd .loop]) (some ⟨0, 0, 1⟩) 2;
      s.chainCores 0 = [0, 1] ∧ (∀ k ∈ [0, 1], (s.core k).mx.run.isSome = true ∧ (s.core k).mx.residue = false ∧
        (s.core k).mx.queue.head? = some (cmd .loop) ∧ (s.core k).mx.resv? (loopDesc (cmd .loop).args).wid = some wgt) ∧
      (s.core 0).mx.resv? (loopDesc (cmd .loop).args).aid = some actv) ∧
    (let s := chained (fun m => [chnCmd m]) none 1;
      s.group? 1 = some (member 0) ∧ s.memberCores 1 2 = [0, 1] ∧ (member 0).member < 2 ∧ (s.core 0).mx.queue = [chnCmd 0] ∧
      s.allAtHead 1 [0, 1] (fun z => z.kind == .chn && z.args.getD 0 0 == 2) = true) ∧
    (let s := chained (fun m => if m = 0 then [chnCmd 0] else []) none 1;
      s.group? 1 = some (member 0) ∧ (s.core 0).mx.queue = [chnCmd 0] ∧
      s.allAtHead 1 (s.memberCores 1 2) (fun z => z.kind == .chn && z.args.getD 0 0 == 2) = false) ∧
    (let s := busy .chn; (s.core 0).mx.queue = [cmd .chn] ∧ (s.group? (cmd .chn).gid).isSome = true ∧
      (((cmd .chn).args.getD 0 0).toNat ≤ 1)) ∧
    (let q : MCmd := { cmd .drn with args := [0x0A000000, 0, 0x80000100, 0], signal := some ⟨0x80000100, 0, 1⟩ };
      let y : Matrix := { engine with queue := [q], drain := true };
      let s := sMat y false;
      (s.core 0).mx.drain = true ∧ (s.core 0).mx.queue = [q] ∧ (drainWord (q.args.getD 0 0)).scratch = true ∧
      (s.group? q.gid).isSome = true ∧ q.signal ≠ none) := by
  (repeat' apply And.intro) <;> decide +kernel

/-! ### Further: copies, the cache map, the network -/

/-- The same copies with their signals; far memory, and scratch with an engine's buffer behind it. -/
def signalled (dir : Word) (buf : Bool) : EngOp :=
  { copyOp dir with args := copyArgs tensorRec [0, 0, 0, 0, 0, if buf then 2 ^ 30 else 0] dir, signal := some sigWord }

theorem markFor_none (s : State) (h : s.spoiled = []) (k part : Nat) (e : (s.core k).stores = []) (n : Nat) : s.markFor k part n = 0 := by
  simp [State.markFor, e, h, smGet]

theorem witness_CopyCompletionMovesBox_signals :
    (∀ dir ∈ ([0, 1] : List Word), let o := signalled dir false
      let s := { sCopy false with ops := [o] }
      s.op? o.id = some o ∧ o.signal = some sigWord ∧ s.copyWaits o = false ∧ (s.group? o.gid).isSome = true ∧ o.dest.kind = 0 ∧
      s.cutOff [(1, 0x10000)] = false ∧
      (∀ n, s.markFor o.core (cCopy false).grp.part n = 0) ∧
      s.mapRanges o.core o.asid .read o.box.farBytes = .ok [(1, 0x10000)]) ∧
    (let o := signalled 0 true; let s := ({ sCopy false with ops := [o] }).setCore 0 { (sCopy false).core 0 with mx := engine }
      s.op? o.id = some o ∧ o.dest.kind = 1 ∧ s.savedMx = [] ∧ ((s.core (s.opCore o)).mx.resv? o.dest.rid).isSome = true ∧
      s.copyWaits o = false ∧ s.cutOff [(1, 0x10000)] = false ∧ s.mapRanges o.core o.asid .read o.box.farBytes = .ok [(1, 0x10000)]) ∧
    (let o := copyOp 0; let s := { (sCopy false).setCore 0 { (sCopy false).core 0 with tlb := [] } with ops := [o] }
      s.op? o.id = some o ∧ (match s.mapRanges o.core o.asid .read o.box.farBytes with | .ok _ => false | .error _ => true) = true) := by
  refine ⟨fun dir m => ?_, ?_, ?_⟩
  · fin_cases m <;> refine ⟨?_, ?_, ?_, ?_, ?_, ?_, markFor_none _ (by decide +kernel) _ _ (by decide +kernel), ?_⟩ <;> decide +kernel
  all_goals decide +kernel

/-- A transaction of the cache map on an entry that is mapped and perhaps moving, or on an unmapped one. -/
def atEntry (k : TxKind) (e : Nat) : State :=
  { (sCopy false).writeRaw (putAt 0x10400 (natBytes 8 e)) with
    batches := [{ adding with engine := engineOf 0x10400, kind := k, txs := [⟨0, .phys 0x10400, 9, 0⟩] }], flys := [flown], ops := [kvOp .migr []] }

theorem witness_CacheCompletionMovesBlocks_engine : ∀ k ∈ ([.kvmap, .migr 60] : List TxKind),
    ∀ e ∈ [2 ^ 62 + 2 ^ 61 + 0x12000, 2 ^ 62 + 2 ^ 61 + 2 ^ 60 + 0x12000, 0], let s := atEntry k e
    s.filledWaiter (engineOf 0x10400) = none ∧ (s.nextBatch (engineOf 0x10400)).map (fun q => (q.1.kind, q.1.txs)) = some (k, [⟨0, .phys 0x10400, 9, 0⟩]) ∧
    isPeer (0x10400 + 8) = false ∧ (∀ f ∈ s.flys, f.todo = []) ∧ s.op? 60 = some (kvOp .migr []) ∧ s.homeNat 0x10400 8 = e ∧
    (entryMoving e = decide (e = 2 ^ 62 + 2 ^ 61 + 2 ^ 60 + 0x12000)) ∧ entryMapped e = decide (e ≠ 0) := by
  intro k h e m
  fin_cases h <;> fin_cases m <;> decide +kernel

/-- A gather to scratch with its signal, and a migration with its. -/
theorem witness_CacheCompletionMovesBlocks_signals :
    (let o := { kvOp .kvg [0x500000, 0x8000] with signal := some sigWord }; let s := sKv o
      let d := kvDesc (wordsNat (o.args.take 8)); let m : VaMap := [(1, 0x10000)]
      s.op? o.id = some o ∧ (o.args.getD 8 0).toNat / 2 ^ 22 % 2 = 1 ∧ s.copyWaits o = false ∧ (s.group? o.gid).isSome = true ∧
      s.mapRanges o.core o.asid .read ((lanesOf o.mask).filterMap fun _ => (d.entryOf 0 0).map fun a => (a, 8)) = .ok m ∧
      s.gatherLane d m 0 0 1 = (0, some (0x12000, false)) ∧
      s.mapRanges o.core o.asid .read [(0x12000, (d.tilePart 1).2)] = .ok m ∧ s.spoiled = [] ∧
      ∀ i ≤ (d.tilePart 1).2, isPeer (vaAt m (0x12000 + i)) = false) ∧
    (let o := { kvOp .migr [0, 0, 0x14000, 0x60000000, 1] with signal := some sigWord }; let s := sKv o
      s.op? o.id = some o ∧ o.kind = .migr ∧ 12 < o.args.length ∧ s.cutOff [(1, 0x10000)] = false ∧
      (kvDesc (wordsNat (o.args.take 8))).blockLen ≤ 0x2000) := by
  refine ⟨?_, ?_⟩ <;> decide +kernel

theorem witness_NetworkCompletionLands_more :
    (let p := { sending (.net 8) 0 0 with id := 59 }; let o := sending (.net 1) 0x100 0; let s := sFlight p
      p ∈ s.ops ∧ p.id < o.id ∧ (s.laneOf o).2 ≠ none ∧ s.laneOf p = s.laneOf o ∧ p.out = none ∧ p.orphan = false ∧ s.target p = s.target o) := by
  decide +kernel

theorem witness_RemoteArrivalsAnswered_more :
    (let r := { req with tc := 7 }; sReq.linked = true ∧ 5 < r.tc ∧ r.tc ≠ 6 ∧ sReq.endpoints = []) ∧
    (let r := { req with tc := 6 }; Admitted sReq r .read 1 [(1, 0x10000)]) ∧
    sReq.locMarked (.phys wholeReq.addr.toNat) 8 = false ∧ req.tc ≤ 5 ∧ (∀ p ∈ ([(1, 0x10000)] : VaMap), isPeer p.2 = false) := by
  refine ⟨?_, admitted_of ?_, ?_, ?_, ?_⟩ <;> decide +kernel

theorem witness_KeySlotsAndScrub_boundary :
    let s := (sKey 1 { scrubbing true false 0x1000 with scrub := { (scrubbing true false 0x1000).scrub with resetAt := 0 } })
    let d := s.die 0
    d.scrub.active = true ∧ d.scrub.pausing = true ∧ d.scrubpos.toNat = d.scrub.resetAt ∧ d.scrub.paused = false ∧
    (scrubNext d.scrub.list d.scrubpos.toNat).isSome = true ∧
    ((sKey 1 (scrubbing true false 0x1000)).die 0).scrubpos.toNat ≠ ((sKey 1 (scrubbing true false 0x1000)).die 0).scrub.resetAt := by
  decide +kernel

/-- The same descriptor with cluster 0, of which a core has failed. -/
def sWithheld : State :=
  let s := sPart 0xFF [(31, 1), (40, 1), (66, 0x20), (73, 0x10)] false []
  { s with boot := { s.boot with failed := [3] } }

theorem witness_PartitionOperations_withheld :
    let s := sWithheld; let c := cPart 0xFF [(31, 1), (40, 1), (66, 0x20), (73, 0x10)]
    let num := fun n => s.locNat (.sram 1 0) n; let y := partOf (num 80)
    issueAll s c [.partAssign ⟨50, 0, 4⟩] ∧ num 64 / 2 ^ 248 % 2 ^ 8 = 1 ∧ partHeaderBad (num 64) = false ∧ y.ranges = [(0x200000, 0x1000)] ∧
    y.clusters = [0] ∧ s.withheld 0 = true ∧ (s.core 0).locked 0 0 0 80 = false := by
  intro s c num y
  refine ⟨issueAll_of _ _ _ ?_, ?_⟩ <;> decide +kernel

theorem witness_EndingsOfWork_quiet :
    let s := sOver; let p := s.part (s.context finished.desc.asid).part
    ∀ i < p.fqCap, (s.fqPending p i = true → s.homeNat (p.fqEntry i + 10) 2 ≠ finished.desc.asid) ∧
      ∀ j < 12, rawAddr (p.fqEntry i + j) / 128 ≠ rawAddr 0x10200 / 128 := by
  decide +kernel

theorem witness_LaunchesAndBinds_more :
    (let s := sUp [queuedLaunch] [];
      s.launch? queuedLaunch.id = some queuedLaunch ∧ 5000000 * (queuedLaunch.aged + 1) ≤ s.waitedFor queuedLaunch ∧
      queuedLaunch.waitFrom + 200000 ≤ s.tick47 / 47) ∧
    (let s := { sUp [queuedLaunch] [] with feeds := [{ heldFeed with tail := 0 }] };
      (match s.feedNamed (portOf queuedLaunch.part) queuedLaunch.desc.asid queuedLaunch.desc.feedtab 0 with
        | .ok (some (n, t)) => n == 90 && t == s | _ => false) = true) := by
  (repeat' apply And.intro) <;> decide +kernel

theorem witness_BringUpEvents_more : goodImage.bytes ≤ slotBytes ∧ slotBytes < { goodImage with bytes := slotBytes + 1 }.bytes := by decide

set_option maxRecDepth 100000 in
/-- FIPS 197, appendix C.3: the key 00 01 … 1F and the plaintext 00 11 … FF. -/
theorem test_aes_enc : aesEnc ((List.range 32).map (BitVec.ofNat 8 ·)) ((List.range 16).map fun i => BitVec.ofNat 8 (17 * i)) =
    [0x8E, 0xA2, 0xB7, 0xCA, 0x51, 0x67, 0x45, 0xBF, 0xEA, 0xFC, 0x49, 0x90, 0x4B, 0x49, 0x60, 0x89] := by decide +kernel

set_option maxRecDepth 100000 in
/-- FIPS 197, appendix C.3, read backwards. -/
theorem test_aes_dec : aesDec ((List.range 32).map (BitVec.ofNat 8 ·))
    [0x8E, 0xA2, 0xB7, 0xCA, 0x51, 0x67, 0x45, 0xBF, 0xEA, 0xFC, 0x49, 0x90, 0x4B, 0x49, 0x60, 0x89] =
    (List.range 16).map fun i => BitVec.ofNat 8 (17 * i) := by decide +kernel

end Sys2Proof.Tests
end

/-! ## A trap record of a split with a wide number

The split field of a trap record is a byte at offset 25 (R273), and `trapRecord` adds the number into the record as
it is. A split number of 2^16 therefore reaches byte 27, where the number of a closure and its valid bit stand. No
rule gives a split such a number, and no run makes one, but the statement asks for every state. -/

namespace Sys2Proof.Machine

/-- A closure that runs, with every register as it stands in the warp. -/
def wideClosure : Closure :=
  ⟨0, 10, 20, 0, 0, 0, 0, 1, 32, 0, [], [], [], Codebook.initial, [], [], [], [], some 3, false, false⟩

/-- A warp whose only split has the number 2^16, with the trap of every flag enabled. -/
def wideWarp : Warp :=
  { newWarp 0 0 0 128 0 (BitVec.ofNat 64 codePage) 0xFFFFFFFF 32 false [] with
    closures := [wideClosure]
    splits := [⟨65536, BitVec.ofNat 64 codePage, 0xFFFFFFFF, [], [], none⟩]
    fflags := 0x3F00 }

/-- The kernel group of that warp. -/
def wideGroup : Group := { codeGroup 1 with warps := [wideWarp] }

/-- The module with that group, a kernel vector, trap slots from 4 GiB on, and the closure issuing. -/
def wideState : State :=
  { State.reset with
    groups := [wideGroup]
    dies := [(0, { Die.fresh with kvec := 0x10000, ktrb := 0x100000000 })]
    cur := some (wideClosure.cur 1 0) }

/-- Who issues there. -/
def wideCtx : Ctx := closureCtx wideGroup wideWarp wideClosure

/-- The reciprocal of v8, which holds zero: it raises DZ (R202). -/
def wideOp : OpTyT := ⟨.f32, 3, 8, false, none⟩

theorem wide_issues : Issues wideState (.frcp wideOp) wideCtx where
  who := by decide +kernel
  target := by decide +kernel
  mode := fun _ => rfl
  inside := by decide +kernel
  sound := by decide +kernel

/-- The results of the instruction, and the flags that it raises. -/
theorem wide_flagging : wideCtx.Flagging (.frcp wideOp) none false
    [(3, fun l => (specialWord .rcp .f32 none (wideCtx.reg 8 l)).1)]
    (wideCtx.flagsOf none fun l => (specialWord .rcp .f32 none (wideCtx.reg 8 l)).2) :=
  .inr (.inr (.inr (.inr (.inr (.inl ⟨wideOp, .rcp, by simp, rfl, rfl, rfl, rfl⟩)))))

theorem wide_enabled :
    wideCtx.enabled (wideCtx.flagsOf none fun l => (specialWord .rcp .f32 none (wideCtx.reg 8 l)).2) ≠ 0 := by
  decide +kernel

theorem wide_trapSlot : wideState.trapSlot wideCtx.grp.core wideCtx.warp.slot = 0x100000000 := by decide +kernel

/-- No entry of the fault queue lies at the trap slot. -/
theorem wide_fqEntry (i : Nat) : (wideState.part wideCtx.grp.part).fqEntry i = 32 * i := by
  have hbase : (wideState.part wideCtx.grp.part).fqbase.toNat = 0 := by decide +kernel
  rw [Part.fqEntry, hbase, Nat.zero_add]

/-- Byte 27 of the record that the trap leaves: the closure's number 0, its valid bit, and bit 16 of the split's number. -/
theorem wide_record_byte {t : State} (h : exec (.frcp wideOp) wideState = .next t) :
    t.homeNat (0x100000000 + 27) 1 = 9 := by
  have hb : (match exec (.frcp wideOp) wideState with
      | .next u => u.homeNat (0x100000000 + 27) 1
      | _ => 0) = 9 := by decide +kernel
  rwa [h] at hb

end Sys2Proof.Machine

section
open Sys2Proof Sys2Proof.Machine

/-- Refutes O8: the clause of a closure fails where the warp's first split has the number 2^16 (`wideState`). The fault
of closure 0 leaves 9 in byte 27 of its record, in place of the closure's number with its valid bit, 8. The statement
has no hypothesis that split numbers lie below 4 (`Warp.LanesOk`). -/
theorem not_floatTrapsAfterCompletion : ¬ Obligations.FloatTrapsAfterCompletion := by
  unfold Obligations.FloatTrapsAfterCompletion
  intro h
  obtain ⟨t, ht, hfault⟩ := (h wideState wideCtx (.frcp wideOp) none false _ _ rfl wide_enabled wide_issues
    wide_flagging).1 0 rfl
  have hapart : ∀ i < 65536, let e := (wideState.part wideCtx.grp.part).fqEntry i
      e + 32 ≤ keyBase ∧ (e + 32 ≤ 0x100000000 ∨ 0x100000000 + 64 ≤ e) := by
    intro i hi
    simp only [wide_fqEntry, keyBase]
    omega
  obtain ⟨n, -, hbyte⟩ := hfault.record (.inr ⟨rfl, by decide +kernel⟩) (by decide)
    (by rw [wide_trapSlot]; decide) (by rw [wide_trapSlot]; exact hapart)
  rw [wide_trapSlot, wide_record_byte ht] at hbyte
  exact absurd hbyte (by decide)

end

/-! ## Engine signals: what they leave and what they write (R229 to R231, R247)

An operation ends by giving its signal. The lemmas of this part say what that writes to scratch, that a barrier counts
the arrival, and that no core, no operation and no byte of far memory changes. -/

namespace Sys2Proof.Machine

/-! ### Groups under a change that keeps their places and barriers -/

/-- One state has the groups of another with fields changed that no lookup of a barrier reads. -/
def KeepsBars (s t : State) : Prop :=
  ∃ f : Group → Group, t.groups = s.groups.map f ∧ ∀ g, (f g).gid = g.gid ∧ (f g).launch = g.launch ∧ (f g).gang = g.gang ∧
    (f g).member = g.member ∧ (f g).place = g.place ∧ (f g).bars = g.bars

theorem KeepsBars.refl (s : State) : KeepsBars s s := ⟨id, by simp, fun _ => ⟨rfl, rfl, rfl, rfl, rfl, rfl⟩⟩

theorem KeepsBars.trans {s t u : State} : KeepsBars s t → KeepsBars t u → KeepsBars s u := by
  rintro ⟨f, hf, kf⟩ ⟨h, hh, kh⟩
  refine ⟨h ∘ f, by rw [hh, hf, List.map_map], fun g => ?_⟩
  obtain ⟨a, b, c, d, e, i⟩ := kf g
  obtain ⟨a', b', c', d', e', i'⟩ := kh (f g)
  exact ⟨a'.trans a, b'.trans b, c'.trans c, d'.trans d, e'.trans e, i'.trans i⟩

theorem KeepsBars.of_groups {s t : State} (h : t.groups = s.groups) : KeepsBars s t :=
  ⟨id, by simp [h], fun _ => ⟨rfl, rfl, rfl, rfl, rfl, rfl⟩⟩

theorem KeepsBars.updGroup (s : State) (gid : Nat) {f : Group → Group}
    (hf : ∀ g, (f g).gid = g.gid ∧ (f g).launch = g.launch ∧ (f g).gang = g.gang ∧ (f g).member = g.member ∧
      (f g).place = g.place ∧ (f g).bars = g.bars) : KeepsBars s (s.updGroup gid f) := by
  refine ⟨fun g => if (g.gid == gid) = true then f g else g, rfl, fun g => ?_⟩
  dsimp only
  split
  · exact hf g
  · exact ⟨rfl, rfl, rfl, rfl, rfl, rfl⟩

theorem KeepsBars.storeLocal (s : State) (l : Loc) (bs : List Byte) : KeepsBars s (s.storeLocal l bs) := by
  cases l with
  | phys a => exact .refl s
  | sram k a => exact .updGroup s k fun _ => ⟨rfl, rfl, rfl, rfl, rfl, rfl⟩
  | nram k a => exact .updGroup s k fun _ => ⟨rfl, rfl, rfl, rfl, rfl, rfl⟩

/-- A group of the one state, its counterpart in the other, and its barrier as it sees it there. -/
theorem KeepsBars.barOf {s t : State} (h : KeepsBars s t) {i b key : Nat} {g o : Group} {z : Bar}
    (hg : s.group? i = some g) (hb : s.barOf g b = some (o, key, z)) (ho : s.group? o.gid = some o) :
    ∃ g' o', t.group? i = some g' ∧ t.barOf g' b = some (o', key, z) ∧ o'.gid = o.gid ∧ t.group? o.gid = some o' := by
  obtain ⟨f, hf, kf⟩ := h
  have hfind : ∀ j, t.group? j = (s.group? j).map f := by
    intro j
    rw [State.group?, State.group?, hf]
    exact findBy_map _ fun x => by rw [(kf x).1]
  have hhome : t.barHome? (f g) = (s.barHome? g).map f := by
    obtain ⟨-, hl, hga, hm, -, -⟩ := kf g
    unfold State.barHome?
    rw [hm]
    split
    · rfl
    · rw [hf]
      refine findBy_map _ fun x => ?_
      obtain ⟨-, hl', hga', hm', hp', -⟩ := kf x
      rw [hl, hga, hl', hga', hm', hp']
  obtain ⟨-, -, -, hmem, -, hbars⟩ := kf g
  refine ⟨f g, f o, by rw [hfind, hg]; rfl, ?_, (kf o).1, by rw [hfind, ho]; rfl⟩
  unfold State.barOf at hb ⊢
  rw [hhome, hbars, hmem]
  cases hm : s.barHome? g with
  | none =>
    rw [hm] at hb
    simp only [Option.map_none] at hb ⊢
    split at hb
    · next hi => cases hb; rw [if_pos hi]
    · cases hb
  | some m =>
    rw [hm] at hb
    simp only [Option.map_some, (kf m).2.2.2.2.2] at hb ⊢
    by_cases hi : (smGet Bar.fresh m.bars (16 + b)).init = true ∧
        (smGet Bar.fresh m.bars (16 + b)).inits.contains g.member = true
    · rw [if_pos hi] at hb ⊢
      cases hb
      rfl
    · rw [if_neg hi] at hb ⊢
      simp only at hb ⊢
      split at hb
      · next hi => cases hb; rw [if_pos hi]
      · cases hb

/-! ### What a signal leaves unchanged -/

/-- The scratch of every group, by the group's number. -/
def State.scratch (s : State) : List (Nat × List Host.Cell) := s.groups.map fun g => (g.gid, g.sMem)

/-- A byte of scratch is that of the group's memory, and 0 where there is no such group. -/
theorem State.locByte_sram (s : State) (gid a : Nat) :
    s.locByte (.sram gid a) 0 = ((s.group? gid).map fun g => smGet 0 g.sMem a).getD 0 := by
  rw [State.locByte]
  cases s.group? gid <;> rfl

theorem State.locByte_of_scratch {s t : State} (h : t.scratch = s.scratch) (gid a : Nat) :
    t.locByte (.sram gid a) 0 = s.locByte (.sram gid a) 0 := by
  have key : ∀ u : State, (findBy (fun p : Nat × List Host.Cell => p.1 == gid) u.scratch).map (fun p => smGet 0 p.2 a)
      = (u.group? gid).map fun g => smGet 0 g.sMem a := by
    intro u
    rw [State.scratch, findBy_map (f := fun g : Group => g.gid == gid) _ fun x => rfl, Option.map_map]
    rfl
  rw [State.locByte_sram, State.locByte_sram, ← key, ← key, h]

theorem State.scratch_updGroup (s : State) (gid : Nat) {f : Group → Group}
    (hf : ∀ g, (f g).gid = g.gid ∧ (f g).sMem = g.sMem) : (s.updGroup gid f).scratch = s.scratch := by
  unfold State.scratch State.updGroup updateBy
  rw [List.map_map]
  refine List.map_congr_left fun g _ => ?_
  simp only [Function.comp]
  split
  · rw [(hf g).1, (hf g).2]
  · rfl

/-- A state that differs from another in groups and values in flight alone, each group with its number and scratch. -/
structure GroupsAndFlys (s t : State) : Prop where
  rest : { t with groups := s.groups, flys := s.flys } = s
  scratch : t.scratch = s.scratch

theorem GroupsAndFlys.refl (s : State) : GroupsAndFlys s s := ⟨rfl, rfl⟩

theorem GroupsAndFlys.trans {s t u : State} (h : GroupsAndFlys s t) (k : GroupsAndFlys t u) : GroupsAndFlys s u where
  rest := by
    have := congrArg (fun v : State => { v with groups := s.groups, flys := s.flys }) k.rest
    exact this.trans h.rest
  scratch := k.scratch.trans h.scratch

theorem GroupsAndFlys.updGroup (s : State) (gid : Nat) {f : Group → Group}
    (hf : ∀ g, (f g).gid = g.gid ∧ (f g).sMem = g.sMem) : GroupsAndFlys s (s.updGroup gid f) :=
  ⟨rfl, s.scratch_updGroup gid hf⟩

theorem GroupsAndFlys.updFly (s : State) (id : Nat) (f : Fly → Fly) : GroupsAndFlys s (s.updFly id f) := ⟨rfl, rfl⟩

theorem State.setBar_frame (s : State) (gid key : Nat) (x : Bar) : GroupsAndFlys s (s.setBar gid key x) := by
  unfold State.setBar
  exact .updGroup s gid fun _ => ⟨rfl, rfl⟩

theorem State.updWarp_frame (s : State) (gid widx : Nat) (f : Warp → Warp) : GroupsAndFlys s (s.updWarp gid widx f) := by
  unfold State.updWarp
  exact .updGroup s gid fun _ => ⟨rfl, rfl⟩

theorem State.landPnds_frame (b : Nat) (l : List BarWait) (s : State) : GroupsAndFlys s (s.landPnds b l) := by
  induction l generalizing s with
  | nil => exact .refl s
  | cons x r ih => exact ((GroupsAndFlys.updFly s x.fly _).trans (State.updWarp_frame _ x.gid x.widx _)).trans (ih _)

theorem State.advanceBar_frame (gid key fuel : Nat) (s : State) : GroupsAndFlys s (s.advanceBar gid key fuel) := by
  induction fuel generalizing s with
  | zero => exact .refl s
  | succ n ih =>
    unfold State.advanceBar
    split
    · exact .refl s
    · dsimp only
      split
      · exact ((State.setBar_frame s gid key _).trans (State.landPnds_frame _ _ _)).trans (ih _)
      · exact .refl s

theorem State.engineArrive_frame (s : State) (g : Group) (b : Nat) : GroupsAndFlys s (s.engineArrive g b) := by
  unfold State.engineArrive
  split
  · exact .refl s
  · exact (State.setBar_frame s _ _ _).trans (State.advanceBar_frame _ _ _ _)

/-! ### Stores of scratch -/

/-- A store to a group's scratch reads back from that group, and every other byte of scratch is as before. -/
theorem State.locByte_storeLocal (s : State) {k : Nat} {g : Group} (hg : s.group? k = some g) (o : Nat) (bs : List Byte)
    (gid a : Nat) : (s.storeLocal (.sram k o) bs).locByte (.sram gid a) 0 =
      if k = gid ∧ o ≤ a ∧ a < o + bs.length then bs.getD (a - o) 0 else s.locByte (.sram gid a) 0 := by
  have hfind : (s.storeLocal (.sram k o) bs).group? gid = (s.group? gid).map fun x => if x.gid = k then
      { x with sMem := smSets 0 x.sMem (putAt o bs), sSpoil := clearSpoil x.sSpoil (putAt o bs) } else x :=
    State.group?_updGroup s k
      (fun x => { x with sMem := smSets 0 x.sMem (putAt o bs), sSpoil := clearSpoil x.sSpoil (putAt o bs) })
      (fun _ => rfl) gid
  rw [State.locByte_sram, State.locByte_sram, hfind]
  by_cases hk : k = gid
  · subst hk
    simp only [hg, Option.map_some, State.group?_gid hg, if_true, Option.getD_some, true_and]
    rw [smGet_smSets, lastWrite_putAt]
    by_cases ho : o ≤ a
    · by_cases hl : a < o + bs.length
      · rw [if_pos ho, if_pos ⟨ho, hl⟩, List.getElem?_eq_getElem (by omega), List.getD_eq_getElem?_getD,
          List.getElem?_eq_getElem (by omega)]
        rfl
      · rw [if_pos ho, if_neg (by omega), List.getElem?_eq_none (by omega)]
        rfl
    · rw [if_neg ho, if_neg (by omega)]
      rfl
  · rw [if_neg (by tauto)]
    cases hj : s.group? gid with
    | none => rfl
    | some x =>
      have hx : ¬ x.gid = k := fun h => hk (by rw [← h, State.group?_gid hj])
      simp [hx]

theorem natBytes_length (n v : Nat) : (natBytes n v).length = n := by
  induction n generalizing v with
  | zero => rfl
  | succ n ih => simp [natBytes, ih]

/-! ### The signal -/

/-- A signal changes groups and values in flight alone. -/
theorem State.giveSignal?_rest (s : State) (x : Option Signal) (st : Nat) :
    { s.giveSignal? x st with groups := s.groups, flys := s.flys } = s := by
  cases x with
  | none => rfl
  | some y =>
    unfold State.giveSignal? State.giveSignal
    dsimp only
    split
    · rfl
    · split
      · exact (State.engineArrive_frame s _ _).rest
      · rfl

/-- The word that a signal writes for an operation is there; every other byte of the group's scratch is as before. -/
theorem State.locByte_giveSignal? (s : State) (x : Option Signal) (st gid a : Nat) {g : Group} (hg : s.group? gid = some g) :
    (s.giveSignal? x st).locByte (.sram gid a) 0
      = (Signal.wordByte x st gid a).getD (s.locByte (.sram gid a) 0) := by
  cases x with
  | none => rfl
  | some y =>
    unfold State.giveSignal? State.giveSignal Signal.wordByte
    dsimp only
    cases hy : s.group? y.gid with
    | none =>
      have : ¬ y.gid = gid := fun h => by rw [h, hg] at hy; cases hy
      simp [this]
    | some k =>
      have hk : k.gid = y.gid := State.group?_gid hy
      cases hb : y.sig.getLsbD 31 with
      | false =>
        simp only [Signal.isBarrier, hb, Bool.not_false, if_true, Bool.false_eq_true, false_and, if_false, Option.getD_none]
        exact State.locByte_of_scratch (State.engineArrive_frame s _ _).scratch gid a
      | true =>
        simp only [Signal.isBarrier, hb, Bool.not_true, Bool.false_eq_true, if_false, true_and, hk]
        rw [State.locByte_storeLocal s hy, natBytes_length]
        by_cases hw : y.gid = gid ∧ y.sig.toNat % 2 ^ 20 ≤ a ∧ a < y.sig.toNat % 2 ^ 20 + 4
        · rw [if_pos hw, if_pos hw, List.getD_eq_getElem?_getD, List.getElem?_eq_getElem (by rw [natBytes_length]; omega)]
          rfl
        · rw [if_neg hw, if_neg hw]
          rfl

/-- An engine arrival that does not complete its phase is counted (R231). -/
theorem State.engineArrive_counts {s : State} {g o : Group} {b key : Nat} {z : Bar} (hb : s.barOf g b = some (o, key, z))
    (ho : s.group? o.gid = some o) (hz : z.ea0 + 1 < z.ee0) :
    ∃ h, (s.engineArrive g b).group? o.gid = some h ∧ smGet Bar.fresh h.bars key = { z with ea0 := z.ea0 + 1 } := by
  have hset : (s.setBar o.gid key { z with ea0 := z.ea0 + 1 }).group? o.gid
      = some { o with bars := smSet Bar.fresh o.bars key { z with ea0 := z.ea0 + 1 } } := by
    unfold State.setBar
    rw [State.group?_updGroup s o.gid
      (fun g => { g with bars := smSet Bar.fresh g.bars key { z with ea0 := z.ea0 + 1 } }) (fun _ => rfl), ho]
    simp
  have hstay : (s.setBar o.gid key { z with ea0 := z.ea0 + 1 }).advanceBar o.gid key 3
      = s.setBar o.gid key { z with ea0 := z.ea0 + 1 } := by
    have hne : ¬ z.ea0 + 1 = z.ee0 := by omega
    rw [State.advanceBar, hset]
    simp [hne]
  have hlt : z.ea0 < z.ee0 := by omega
  refine ⟨{ o with bars := smSet Bar.fresh o.bars key { z with ea0 := z.ea0 + 1 } }, ?_, smGet_smSet_self _ _ _ _⟩
  rw [State.engineArrive, hb]
  simp only [hlt, if_true]
  rw [hstay, hset]

/-- The signal of an operation arrives, whatever the operation has changed beside the groups' places and barriers. -/
theorem KeepsBars.arrives {s t : State} (h : KeepsBars s t) (x : Option Signal) (st : Nat) :
    Arrives s (t.giveSignal? x st) x := by
  intro y g o key z hx hsig hg hb ho hz
  obtain ⟨g', o', hg', hb', hid, ho'⟩ := h.barOf hg hb ho
  obtain ⟨u, hu, hbar⟩ := State.engineArrive_counts hb' (by rw [hid]; exact ho') hz
  refine ⟨u, ?_, hbar⟩
  subst hx
  rw [State.giveSignal?, State.giveSignal, hg']
  simp only [Signal.isBarrier, hsig, Bool.not_false, if_true]
  rw [← hid]
  exact hu

end Sys2Proof.Machine

/-! ## Copies at their completion (R125 to R128, R317)

What ends an operation, what stops one on a translation fault, and what the two directions of a copy leave. -/

namespace Sys2Proof.Machine

/-! ### The posting of a fault keeps operations and cores -/

/-- A state with the operations and the cores of another. -/
structure KeepsWork (s t : State) : Prop where
  ops : t.ops = s.ops
  cores : t.cores = s.cores

theorem KeepsWork.trans {s t u : State} (h : KeepsWork s t) (k : KeepsWork t u) : KeepsWork s u :=
  ⟨k.ops.trans h.ops, k.cores.trans h.cores⟩

theorem State.hardLand_keepsWork (s : State) (c part : Nat) (ws : List (Nat × Byte)) : KeepsWork s (s.hardLand c part ws) :=
  ⟨rfl, rfl⟩

theorem State.serveFeed_keepsWork (num fuel : Nat) (s : State) : KeepsWork s (s.serveFeed num fuel) := by
  induction fuel generalizing s with
  | zero => exact ⟨rfl, rfl⟩
  | succ n ih =>
    unfold State.serveFeed
    split
    · exact ⟨rfl, rfl⟩
    · split
      · dsimp only
        split
        · exact ⟨rfl, rfl⟩
        · exact ⟨(ih _).ops, (ih _).cores⟩
      · exact ⟨rfl, rfl⟩

theorem State.service_keepsWork (s : State) (die : Nat) : KeepsWork s (s.service die).2 := by
  unfold State.service
  split <;> exact ⟨rfl, rfl⟩

theorem State.serviceAppend_keepsWork (s : State) (die : Nat) (payer : Option Nat) (ws : List Word) :
    KeepsWork s (s.serviceAppend die payer ws) := by
  unfold State.serviceAppend
  dsimp only
  split
  · exact ⟨rfl, rfl⟩
  · split
    · exact ⟨rfl, rfl⟩
    · next f _ _ =>
      have hfeed := State.serveFeed_keepsWork (s.service die).1 64 ((s.service die).2.setFeed (f.append ws true payer))
      exact (s.service_keepsWork die).trans ⟨hfeed.ops, hfeed.cores⟩

theorem State.faultNotice_keepsWork (s : State) (die idx part : Nat) : KeepsWork s (s.faultNotice die idx part) := by
  unfold State.faultNotice
  dsimp only
  split
  · exact s.serviceAppend_keepsWork _ _ _
  · exact ⟨rfl, rfl⟩

theorem State.postFault_keepsWork (s : State) (part : Nat) (f : FaultReq) : KeepsWork s (s.postFault part f) := by
  have hset : ∀ (u : State) (p : Part), KeepsWork s u → KeepsWork s (u.setPart part p) := fun u p h =>
    ⟨(State.setPart_ops u part p).trans h.ops, (State.setPart_cores u part p).trans h.cores⟩
  unfold State.postFault
  dsimp only
  split
  · exact hset _ _ (s.hardLand_keepsWork _ _ _)
  · split
    · exact hset _ _ ⟨rfl, rfl⟩
    · exact (hset _ _ (s.hardLand_keepsWork _ _ _)).trans (State.faultNotice_keepsWork _ _ _ _)

/-- A parked operation is marked, and the cores with their locks are as before (R317). -/
theorem State.parkOp_parks (s : State) {o : EngOp} {g : Group} (wr : Bool) (f : XFault) (ho : s.op? o.id = some o)
    (hg : s.group? o.gid = some g) :
    (s.parkOp o wr f).op? o.id = some { o with parked := true } ∧ (s.parkOp o wr f).cores = s.cores := by
  have hfind : findBy (fun x : EngOp => x.id == o.id)
      (updateBy (fun x => x.id == o.id) (fun x => { x with parked := true }) s.ops) = some { o with parked := true } := by
    rw [findBy_updateBy (g := fun x : EngOp => { x with parked := true }) _ (fun _ => rfl), show findBy (fun x : EngOp => x.id == o.id) s.ops = some o from ho]
    simp
  unfold State.parkOp
  rw [hg]
  dsimp only
  refine ⟨?_, (State.postFault_keepsWork _ _ _).cores⟩
  rw [State.op?, (State.postFault_keepsWork _ _ _).ops]
  exact hfind

/-! ### The end of an operation -/

theorem State.core_unlock (s : State) (c op i : Nat) :
    (s.unlock c op).core i = if c = i then { s.core c with locks := (s.core c).locks.filter fun x => x.op != op } else s.core i :=
  State.core_setCore _ _ _ _

theorem State.giveSignal?_ops (s : State) (x : Option Signal) (st : Nat) : (s.giveSignal? x st).ops = s.ops := by
  have h := congrArg State.ops (s.giveSignal?_rest x st)
  exact h

theorem State.giveSignal?_mem (s : State) (x : Option Signal) (st : Nat) : (s.giveSignal? x st).mem = s.mem := by
  have h := congrArg State.mem (s.giveSignal?_rest x st)
  exact h

theorem State.giveSignal?_core (s : State) (x : Option Signal) (st i : Nat) : (s.giveSignal? x st).core i = s.core i := by
  have h := congrArg (fun t => State.core t i) (s.giveSignal?_rest x st)
  exact h

theorem State.giveSignal?_farByte (s : State) (x : Option Signal) (st c part a : Nat) :
    (s.giveSignal? x st).farByte c part a = s.farByte c part a := by
  have h := congrArg (fun t => State.farByte t c part a) (s.giveSignal?_rest x st)
  exact h

/-- An operation that has ended: it is gone, its ranges are free, and of far memory's home copies none has changed. -/
structure Ended (s t : State) (o : EngOp) : Prop where
  gone : ∀ z ∈ t.ops, z.id ≠ o.id
  free : ∀ l ∈ (t.core o.core).locks, l.op ≠ o.id
  mem : t.mem = s.mem

theorem State.endOp_core (s : State) (o : EngOp) (st i : Nat) : (s.endOp o st).core i =
    if o.core = i then { s.core o.core with locks := (s.core o.core).locks.filter fun x => x.op != o.id } else s.core i := by
  rw [State.endOp, State.giveSignal?_core, State.core_unlock]
  rfl

theorem State.endOp_ended (s : State) (o : EngOp) (st : Nat) : Ended s (s.endOp o st) o where
  gone := by
    intro z hz
    rw [State.endOp, State.giveSignal?_ops] at hz
    simpa using (List.mem_filter.1 hz).2
  free := by
    intro l hl
    rw [State.endOp_core, if_pos rfl, List.mem_filter] at hl
    simpa using hl.2
  mem := by rw [State.endOp, State.giveSignal?_mem]; rfl

theorem State.endOp_arrives {s t : State} (h : KeepsBars s t) (o : EngOp) (st : Nat) : Arrives s (t.endOp o st) o.signal := by
  have hk : KeepsBars t (({ t with ops := t.ops.filter fun x => x.id != o.id } : State).unlock o.core o.id) := .of_groups rfl
  exact (h.trans hk).arrives o.signal st

theorem State.endOp_scratch (s : State) (o : EngOp) (st a : Nat) {g : Group} (hg : s.group? o.gid = some g) :
    (s.endOp o st).locByte (.sram o.gid a) 0
      = (Signal.wordByte o.signal st o.gid a).getD (s.locByte (.sram o.gid a) 0) :=
  State.locByte_giveSignal? _ _ _ _ _ hg

/-! ### The request for the bytes of peers -/

/-- Requests to peers add messages and change nothing else. -/
theorem State.askRanges_messages (asid : Nat) (m : VaMap) (rs : List (Nat × Nat)) (s : State) :
    ∃ ms, s.askRanges asid m rs = { s with messages := ms } := by
  have send : ∀ (s : State) (x : Message), ∃ ms, s.send x = { s with messages := ms } := by
    intro s x
    unfold State.send
    split
    · exact ⟨_, rfl⟩
    · exact ⟨s.messages, rfl⟩
  have pieces : ∀ (ps : List (Nat × Nat × Nat × Nat)) (s : State), ∃ ms,
      ps.foldl (fun s q => s.sendPeer 1 q.1 none asid [BitVec.ofNat 64 q.2.1, BitVec.ofNat 64 q.2.2.2]) s
        = { s with messages := ms } := by
    intro ps
    induction ps with
    | nil => exact fun s => ⟨s.messages, rfl⟩
    | cons p r ih =>
      intro s
      obtain ⟨ms, h⟩ : ∃ ms, s.sendPeer 1 p.1 none asid [BitVec.ofNat 64 p.2.1, BitVec.ofNat 64 p.2.2.2]
        = { s with messages := ms } := send s _
      rw [List.foldl_cons, h]
      obtain ⟨ms', h'⟩ := ih { s with messages := ms }
      exact ⟨ms', h'⟩
  induction rs generalizing s with
  | nil => exact ⟨s.messages, rfl⟩
  | cons p r ih =>
    obtain ⟨ms, h⟩ : ∃ ms, s.askRange asid m p.1 p.2 = { s with messages := ms } := pieces _ s
    unfold State.askRanges at ih ⊢
    rw [List.foldl_cons, h]
    obtain ⟨ms', h'⟩ := ih { s with messages := ms }
    exact ⟨ms', h'⟩

theorem State.partOfGroup_eq {s : State} {gid : Nat} {g : Group} (h : s.group? gid = some g) : s.partOfGroup gid = g.part := by
  rw [State.partOfGroup, h]
  rfl

end Sys2Proof.Machine

namespace Sys2Proof.Machine

/-! ### Poisoned bytes -/

/-- Where no far byte is poisoned, no byte of a loaded box is. -/
theorem CopyBox.loadBytes_unspoiled (x : CopyBox) (t : Codebook) (rd : Nat → Byte) :
    (x.loadBytes t rd fun _ => false).2.2 = [] := by
  unfold CopyBox.loadBytes
  simp only [List.append_eq_nil_iff, List.flatMap_eq_nil_iff, List.map_eq_nil_iff, List.filter_eq_nil_iff]
  refine ⟨?_, ?_⟩
  · intro r hr p hp
    obtain ⟨b, -, hb⟩ := List.mem_map.1 (List.fst_mem_of_mem_zipIdx hr)
    rw [← hb] at hp
    obtain ⟨i, -, hi⟩ := List.mem_map.1 (List.fst_mem_of_mem_zipIdx hp)
    rw [← hi]
    split <;> simp
  · intro p hp
    have hm := List.fst_mem_of_mem_zipIdx hp
    split at hm
    · obtain ⟨b, -, hb⟩ := List.mem_flatMap.1 hm
      obtain ⟨j, -, hj⟩ := List.mem_flatMap.1 hb
      split at hj <;> simp only [List.mem_singleton] at hj <;> simp [hj]
    · cases hm

/-- Where no byte of scratch is poisoned, no byte of a stored box is. -/
theorem CopyBox.storeBytes_unspoiled (x : CopyBox) (t : Codebook) (rd old : Nat → Byte) :
    (x.storeBytes t rd old fun _ => false).2.2 = [] := by
  unfold CopyBox.storeBytes
  dsimp only
  split
  · rfl
  · simp only [List.flatMap_eq_nil_iff]
    intro r hr
    obtain ⟨q, -, hq⟩ := List.mem_map.1 hr
    rw [← hq]
    simp only [List.append_eq_nil_iff, List.map_eq_nil_iff, List.filter_eq_nil_iff]
    refine ⟨?_, ?_⟩
    · intro p hp
      obtain ⟨i, -, hi⟩ := List.mem_map.1 (List.fst_mem_of_mem_zipIdx hp)
      rw [← hi]
      simp
    · intro p hp
      split at hp
      · obtain ⟨j, -, hj⟩ := List.mem_flatMap.1 hp
        split at hj
        · simp only [List.mem_singleton] at hj
          simp [hj]
        · cases hj
      · cases hp

/-! ### What a copy leaves -/

/-- An end counts from any state with the same home copies. -/
theorem Ended.from {s t u : State} {o : EngOp} (h : Ended t u o) (hm : t.mem = s.mem) : Ended s u o :=
  ⟨h.gone, h.free, h.mem.trans hm⟩

theorem KeepsBars.group? {s t : State} (h : KeepsBars s t) {i : Nat} {g : Group} (hg : s.group? i = some g) :
    ∃ g', t.group? i = some g' := by
  obtain ⟨f, hf, kf⟩ := h
  refine ⟨f g, ?_⟩
  rw [State.group?, hf, findBy_map (f := fun x : Group => x.gid == i) _ fun x => by rw [(kf x).1]]
  exact congrArg (Option.map f) hg

theorem State.copyFlagged_keepsBars (s : State) (gid : Nat) (f : Word) : KeepsBars s (s.copyFlagged gid f) := by
  unfold State.copyFlagged
  exact .updGroup s gid fun _ => ⟨rfl, rfl, rfl, rfl, rfl, rfl⟩

theorem State.copyFlagged_frame (s : State) (gid : Nat) (f : Word) : GroupsAndFlys s (s.copyFlagged gid f) := by
  unfold State.copyFlagged
  exact .updGroup s gid fun _ => ⟨rfl, rfl⟩

theorem State.updMxOf_groups (s : State) (gid core : Nat) (f : Matrix → Matrix) :
    (s.updMxOf gid core f).groups = s.groups ∧ (s.updMxOf gid core f).mem = s.mem := by
  unfold State.updMxOf
  split <;> exact ⟨rfl, rfl⟩

theorem State.copyFlagged_opCore (s : State) (o : EngOp) (gid : Nat) (f : Word) : (s.copyFlagged gid f).opCore o = s.opCore o := by
  unfold State.copyFlagged State.opCore
  rw [State.group?_updGroup s gid (fun g => { g with copyStat := g.copyStat ||| f }) fun _ => rfl]
  cases s.group? o.gid with
  | none => rfl
  | some g =>
    simp only [Option.map_some]
    split <;> rfl

/-- A state in which a copy has brought its bytes to its target, some of them from poisoned ones. -/
def State.loaded (s : State) (o : EngOp) (bs : List Byte) (spoil : List Nat) : State :=
  if o.dest.kind = 0 then
    (s.storeLocal (.sram o.gid o.dest.off) bs).updGroup o.gid fun g =>
      { g with sSpoil := addSpoil g.sSpoil (spoil.map fun i => (o.dest.off + i) / 32) }
  else s.updMxOf o.gid (s.opCore o) fun y =>
    { y with opbuf := smSets 0 y.opbuf (putAt ((match y.resv? o.dest.rid with | some z => z.lo | none => 0) + o.dest.off) bs),
             check := y.check || !spoil.isEmpty }

theorem State.loaded_keepsBars (s : State) (o : EngOp) (bs : List Byte) (spoil : List Nat) : KeepsBars s (s.loaded o bs spoil) := by
  unfold State.loaded
  split
  · exact (KeepsBars.storeLocal s _ bs).trans (.updGroup _ _ fun _ => ⟨rfl, rfl, rfl, rfl, rfl, rfl⟩)
  · exact .of_groups (s.updMxOf_groups _ _ _).1

theorem State.loaded_mem (s : State) (o : EngOp) (bs : List Byte) (spoil : List Nat) : (s.loaded o bs spoil).mem = s.mem := by
  unfold State.loaded
  split
  · rfl
  · exact (s.updMxOf_groups _ _ _).2

/-- What a load brings for a partition: its bytes, its flags, and those that came from poisoned ones. -/
def State.copyIn (s : State) (o : EngOp) (part : Nat) (m : VaMap) : List Byte × Word × List Nat :=
  o.box.loadBytes o.cb (fun va => s.engByte o.core part o.snap (vaAt m va)) fun va =>
    s.markFor o.core part (sectorOf (vaAt m va)) != 0

/-- A load gathers its flags, brings its bytes and ends. -/
theorem State.endLoadCopy_eq (s : State) (o : EngOp) (m : VaMap) {g : Group} (hg : s.group? o.gid = some g) :
    s.endLoadCopy o m =
      (({ s.copyFlagged o.gid (s.copyIn o g.part m).2.1 with free := s.free + 1 } : State).loaded o (s.copyIn o g.part m).1
        (s.copyIn o g.part m).2.2).endOp o (if !(s.copyIn o g.part m).2.2.isEmpty then 5 else 0) := by
  unfold State.endLoadCopy State.loaded
  rw [State.partOfGroup_eq hg]
  dsimp only
  split
  · next h => rw [if_pos h]; rfl
  · next h => rw [if_neg h]; rfl

/-- Where the core reads no poisoned sector a load brings its bytes with no mark. -/
theorem State.copyIn_clean {s : State} {o : EngOp} {part : Nat} (hc : ∀ n, s.markFor o.core part n = 0) (m : VaMap) :
    s.copyIn o part m = o.box.loadBytes o.cb (fun va => s.engByte o.core part o.snap (vaAt m va)) fun _ => false := by
  have hbad : (fun va => s.markFor o.core part (sectorOf (vaAt m va)) != 0) = fun _ => false := by
    funext va
    rw [hc]
    rfl
  rw [State.copyIn, hbad]

/-- The bytes that a load brings to scratch are there, and the rest of the scratch is as before. -/
theorem State.loaded_scratch (s : State) {o : EngOp} {g : Group} (hg : s.group? o.gid = some g) (hk : o.dest.kind = 0)
    (bs : List Byte) (a : Nat) : (s.loaded o bs []).locByte (.sram o.gid a) 0 =
      if o.dest.off ≤ a ∧ a < o.dest.off + bs.length then bs.getD (a - o.dest.off) 0 else s.locByte (.sram o.gid a) 0 := by
  unfold State.loaded
  rw [if_pos hk]
  refine (State.locByte_of_scratch (State.scratch_updGroup _ o.gid fun _ => ⟨rfl, rfl⟩) o.gid a).trans ?_
  rw [State.locByte_storeLocal s hg]
  simp only [true_and]

/-- The bytes that a load brings to a reservation are there, and the rest of the operand buffer is as before. -/
theorem State.loaded_opbuf (s : State) {o : EngOp} {z : Resv} (hk : o.dest.kind = 1) (hsv : ∀ p ∈ s.savedMx, p.1 ≠ o.gid)
    (hz : (s.core (s.opCore o)).mx.resv? o.dest.rid = some z) (bs : List Byte) (a : Nat) :
    smGet 0 ((s.loaded o bs []).core (s.opCore o)).mx.opbuf a =
      if z.lo + o.dest.off ≤ a ∧ a < z.lo + o.dest.off + bs.length then bs.getD (a - (z.lo + o.dest.off)) 0
      else smGet 0 (s.core (s.opCore o)).mx.opbuf a := by
  have hany : (s.savedMx.any fun p => p.1 == o.gid) = false := by simpa using hsv
  unfold State.loaded State.updMxOf
  rw [if_neg (by omega), hany, if_neg Bool.false_ne_true, State.updMx, State.core_setCore, if_pos rfl, hz]
  dsimp only
  rw [smGet_smSets, lastWrite_putAt]
  by_cases h : z.lo + o.dest.off ≤ a ∧ a < z.lo + o.dest.off + bs.length
  · rw [if_pos h.1, if_pos h, List.getD_eq_getElem?_getD, List.getElem?_eq_getElem (by omega)]
    rfl
  · rw [if_neg h]
    split
    · rw [List.getElem?_eq_none (by omega)]; rfl
    · rfl

/-! ### A load that completes -/

theorem State.endLoadCopy_ended (s : State) {o : EngOp} {g : Group} (hg : s.group? o.gid = some g) (m : VaMap) :
    Ended s (s.endLoadCopy o m) o := by
  rw [s.endLoadCopy_eq o m hg]
  exact (State.endOp_ended _ o _).from (State.loaded_mem _ _ _ _)

/-- A load of clean bytes ends with status 0. -/
theorem State.endLoadCopy_clean (s : State) {o : EngOp} {g : Group} (hg : s.group? o.gid = some g)
    (hc : ∀ n, s.markFor o.core g.part n = 0) (m : VaMap) :
    s.endLoadCopy o m = (({ s.copyFlagged o.gid (s.copyIn o g.part m).2.1 with free := s.free + 1 } : State).loaded o
      (s.copyIn o g.part m).1 []).endOp o 0 := by
  rw [s.endLoadCopy_eq o m hg, State.copyIn_clean hc, CopyBox.loadBytes_unspoiled]
  rfl

/-! ### A store that completes -/

/-- After new stores of a core for a partition, the latest of them to an address is its own there. -/
theorem Core.own_append_new (k : Core) (part a uid gid asid : Nat) (bad : List Nat) (ws : List (Nat × Byte)) :
    Core.own { k with stores := k.stores ++ ws.zipIdx.map fun p =>
        (⟨uid + p.2, p.1.1, p.1.2, gid, asid, part, none, false, bad.contains (sectorOf p.1.1)⟩ : FarStore) } part a
      = (lastWrite ws a).or (k.own part a) := by
  have key : ∀ (n : Nat) (r : Option Byte), ((ws.zipIdx n).map fun p =>
        (⟨uid + p.2, p.1.1, p.1.2, gid, asid, part, none, false, bad.contains (sectorOf p.1.1)⟩ : FarStore)).foldl
      (fun r x => if x.addr = a ∧ x.part = part ∧ !x.landed then some x.byte else r) r = (lastWrite ws a).or r := by
    induction ws with
    | nil => exact fun _ _ => rfl
    | cons p t ih =>
      intro n r
      obtain ⟨b, x⟩ := p
      rw [List.zipIdx_cons, List.map_cons, List.foldl_cons, ih, lastWrite_cons]
      simp only [Bool.not_false, and_true]
      split <;> cases lastWrite t a <;> rfl
  unfold Core.own
  rw [List.foldl_append]
  exact key 0 _

/-- What a core reads after new stores of its own: the latest of them to the address, else what it read before. -/
theorem State.storeFar_farByte (s : State) (c gid asid part : Nat) (ws : List (Nat × Byte)) (bad : List Nat) (a : Nat) :
    (s.storeFar c gid asid part ws bad).farByte c part a = (lastWrite ws a).getD (s.farByte c part a) := by
  have hcore : (s.storeFar c gid asid part ws bad).core c = { s.core c with stores := (s.core c).stores ++ ws.zipIdx.map fun p =>
      (⟨s.uid + p.2, p.1.1, p.1.2, gid, asid, part, none, false, bad.contains (sectorOf p.1.1)⟩ : FarStore) } := by
    unfold State.storeFar
    exact (State.core_setCore s c c _).trans (if_pos rfl)
  unfold State.farByte
  rw [hcore]
  dsimp only
  rw [Core.own_append_new]
  cases lastWrite ws a with
  | some b => rfl
  | none => rfl

theorem State.copyFlagged_farByte (s : State) (gid : Nat) (f : Word) (c part a : Nat) :
    (s.copyFlagged gid f).farByte c part a = s.farByte c part a := rfl

theorem State.raceStore_farByte (s : State) (p k gid : Nat) (as : List Nat) (c part a : Nat) :
    (s.raceStore p k gid as).farByte c part a = s.farByte c part a := by
  unfold State.raceStore
  dsimp only
  split <;> rfl

theorem State.raceStore_frame (s : State) (p k gid : Nat) (as : List Nat) :
    (s.raceStore p k gid as).groups = s.groups ∧ (s.raceStore p k gid as).mem = s.mem := by
  unfold State.raceStore
  dsimp only
  split <;> exact ⟨rfl, rfl⟩

theorem State.endOp_farByte (s : State) (o : EngOp) (st c part a : Nat) : (s.endOp o st).farByte c part a = s.farByte c part a := by
  have hown : ∀ k, (s.unlock o.core o.id).core k = { s.core k with locks := ((s.unlock o.core o.id).core k).locks } := by
    intro k
    rw [State.core_unlock]
    split
    · next h => rw [h]
    · rfl
  have hun : (({ s with ops := s.ops.filter fun x => x.id != o.id } : State).unlock o.core o.id).farByte c part a
      = s.farByte c part a := by
    show (s.unlock o.core o.id).farByte c part a = s.farByte c part a
    unfold State.farByte
    rw [hown]
    rfl
  rw [State.endOp, State.giveSignal?_farByte, hun]

/-- What a store takes from scratch with some marks for a partition: far bytes, its flags, and those of poisoned scratch. -/
def State.copyOut (s : State) (o : EngOp) (part : Nat) (sp : List (Nat × Word)) (m : VaMap) :
    List (Nat × Byte) × Word × List Nat :=
  o.box.storeBytes o.cb (fun i => s.locByte (.sram o.gid o.dest.off) i) (fun va => s.farByte o.core part (vaAt m va)) fun i =>
    smGet 0 sp ((o.dest.off + i) / 32) != 0

/-- Where the scratch has no mark a store takes its bytes with none. -/
theorem State.copyOut_clean (s : State) (o : EngOp) (part : Nat) (m : VaMap) :
    s.copyOut o part [] m = o.box.storeBytes o.cb (fun i => s.locByte (.sram o.gid o.dest.off) i)
      (fun va => s.farByte o.core part (vaAt m va)) fun _ => false := rfl

/-- A state in which a copy has stored: its flags gathered, its writes stores of a core. -/
def State.stored (s : State) (o : EngOp) (part core : Nat) (r : List (Nat × Byte) × Word × List Nat) (m : VaMap) : State :=
  ((s.copyFlagged o.gid r.2.1).storeFar core o.gid o.asid part (r.1.map fun p => (vaAt m p.1, p.2))
    (r.2.2.map fun a => sectorOf (vaAt m a))).raceStore part core o.gid
      (((r.1.map fun p => (vaAt m p.1, p.2)).map fun p => p.1).filter fun a => !isPeer a)

/-- A store makes its writes stores of its group's core and ends. -/
theorem State.endStoreCopy_eq (s : State) (o : EngOp) (m : VaMap) {g : Group} (hg : s.group? o.gid = some g) :
    s.endStoreCopy o m = (s.stored o g.part (s.opCore o) (s.copyOut o g.part g.sSpoil m) m).endOp o
      (if (s.copyOut o g.part g.sSpoil m).2.2.isEmpty then 0 else 5) := by
  unfold State.endStoreCopy
  rw [State.partOfGroup_eq hg, hg]
  rfl

theorem State.stored_keepsBars (s : State) (o : EngOp) (part core : Nat) (r : List (Nat × Byte) × Word × List Nat) (m : VaMap) :
    KeepsBars s (s.stored o part core r m) :=
  (s.copyFlagged_keepsBars o.gid r.2.1).trans (.of_groups (State.raceStore_frame _ _ _ _ _).1)

theorem State.stored_scratch (s : State) (o : EngOp) (part core : Nat) (r : List (Nat × Byte) × Word × List Nat) (m : VaMap) :
    (s.stored o part core r m).scratch = s.scratch := by
  have h : (s.stored o part core r m).scratch = (s.copyFlagged o.gid r.2.1).scratch :=
    congrArg (List.map fun g : Group => (g.gid, g.sMem)) (State.raceStore_frame _ _ _ _ _).1
  exact h.trans (s.copyFlagged_frame o.gid r.2.1).scratch

theorem State.stored_mem (s : State) (o : EngOp) (part core : Nat) (r : List (Nat × Byte) × Word × List Nat) (m : VaMap) :
    (s.stored o part core r m).mem = s.mem := (State.raceStore_frame _ _ _ _ _).2

theorem State.stored_farByte (s : State) (o : EngOp) (part core : Nat) (r : List (Nat × Byte) × Word × List Nat) (m : VaMap) (a : Nat) :
    (s.stored o part core r m).farByte core part a
      = (lastWrite (r.1.map fun p => (vaAt m p.1, p.2)) a).getD (s.farByte core part a) := by
  rw [State.stored, State.raceStore_farByte, State.storeFar_farByte, State.copyFlagged_farByte]

theorem State.endStoreCopy_ended (s : State) {o : EngOp} {g : Group} (hg : s.group? o.gid = some g) (m : VaMap) :
    Ended s (s.endStoreCopy o m) o := by
  rw [s.endStoreCopy_eq o m hg]
  exact (State.endOp_ended _ o _).from (State.stored_mem _ _ _ _ _ _)

/-- A store of clean scratch ends with status 0. -/
theorem State.endStoreCopy_clean (s : State) {o : EngOp} {g : Group} (hg : s.group? o.gid = some g) (hc : g.sSpoil = []) (m : VaMap) :
    s.endStoreCopy o m = (s.stored o g.part (s.opCore o) (s.copyOut o g.part [] m) m).endOp o 0 := by
  rw [s.endStoreCopy_eq o m hg, hc, State.copyOut_clean, CopyBox.storeBytes_unspoiled]
  rfl

end Sys2Proof.Machine


namespace Sys2Proof.Machine

/-! ### The transition -/

theorem EngOp.box_store (o : EngOp) : o.box.store = (o.args.getD 22 0 == 1) := rfl

/-- What a copy that may complete meets: it is there, it is a copy, no fault has stopped it, and no earlier copy holds it up. -/
structure Completable (s : State) (o : EngOp) : Prop where
  op : s.op? o.id = some o
  kind : o.kind = .cpy
  running : o.parked = false
  ready : s.copyWaits o = false

theorem Completable.guard {s : State} {o : EngOp} (h : Completable s o) :
    (o.kind != .cpy || o.parked || s.copyWaits o) = false := by
  rw [h.kind, h.running, h.ready]
  rfl

theorem exec_copyCompletion_prefetch {s : State} {o : EngOp} (h : Completable s o) (ha : o.args.getD 22 0 = 2) :
    exec (.copyCompletion o.id) s = .next { s with ops := s.ops.filter fun x => x.id != o.id } := by
  show execCopyCompletion o.id s = _
  unfold execCopyCompletion
  rw [h.op]
  dsimp only
  rw [h.guard, if_neg (by decide), ha, if_pos (by decide)]

theorem exec_copyCompletion_load {s : State} {o : EngOp} {m : VaMap} (h : Completable s o) (ha : o.args.getD 22 0 = 0)
    (hm : s.mapRanges o.core o.asid .read o.box.farBytes = .ok m) (hc : s.cutOff m = false) :
    ∃ ms, exec (.copyCompletion o.id) s = .next (({ s with messages := ms } : State).endLoadCopy o m) := by
  obtain ⟨ms, hms⟩ := State.askRanges_messages o.asid m o.box.farBytes s
  have hs : o.box.store = false := by rw [EngOp.box_store, ha]; rfl
  refine ⟨ms, ?_⟩
  show execCopyCompletion o.id s = _
  unfold execCopyCompletion
  rw [h.op]
  dsimp only
  rw [h.guard, if_neg (by decide), ha, if_neg (by decide), hs, if_neg (by decide), hm]
  dsimp only
  rw [if_neg (by decide), hc, if_neg (by decide), hms]

theorem exec_copyCompletion_store {s : State} {o : EngOp} {m : VaMap} (h : Completable s o) (ha : o.args.getD 22 0 = 1)
    (hm : s.mapRanges o.core o.asid .write o.box.farBytes = .ok m) :
    exec (.copyCompletion o.id) s = .next (s.endStoreCopy o m) := by
  have hs : o.box.store = true := by rw [EngOp.box_store, ha]; rfl
  show execCopyCompletion o.id s = _
  unfold execCopyCompletion
  rw [h.op]
  dsimp only
  rw [h.guard, if_neg (by decide), ha, if_neg (by decide), hs, if_pos rfl, hm]
  dsimp only
  rw [if_pos rfl]

theorem exec_copyCompletion_fault {s : State} {o : EngOp} {f : XFault} (h : Completable s o) (ha : o.args.getD 22 0 ≠ 2)
    (hm : s.mapRanges o.core o.asid (if o.box.store then .write else .read) o.box.farBytes = .error f) :
    exec (.copyCompletion o.id) s = .next (s.parkOp o o.box.store f) := by
  show execCopyCompletion o.id s = _
  unfold execCopyCompletion
  rw [h.op]
  dsimp only
  rw [h.guard, if_neg (by decide), if_neg (by simpa using ha), hm]

/-! ### The four completions -/

/-- A load into scratch: signal's word, box, and the rest of the scratch. -/
theorem State.endLoadCopy_scratch (s : State) {o : EngOp} {g : Group} (hg : s.group? o.gid = some g)
    (hc : ∀ n, s.markFor o.core g.part n = 0) (m : VaMap) (hk : o.dest.kind = 0) (a : Nat) :
    (s.endLoadCopy o m).locByte (.sram o.gid a) 0 = (Signal.wordByte o.signal 0 o.gid a).getD
      (if o.dest.off ≤ a ∧ a < o.dest.off + (s.copyIn o g.part m).1.length then (s.copyIn o g.part m).1.getD (a - o.dest.off) 0
       else s.locByte (.sram o.gid a) 0) := by
  have hk1 : KeepsBars s ({ s.copyFlagged o.gid (s.copyIn o g.part m).2.1 with free := s.free + 1 } : State) :=
    s.copyFlagged_keepsBars o.gid _
  obtain ⟨g1, hg1⟩ := hk1.group? hg
  obtain ⟨g2, hg2⟩ := (State.loaded_keepsBars _ o (s.copyIn o g.part m).1 []).group? hg1
  rw [s.endLoadCopy_clean hg hc, State.endOp_scratch _ _ _ _ hg2, State.loaded_scratch _ hg1 hk]
  rw [show ({ s.copyFlagged o.gid (s.copyIn o g.part m).2.1 with free := s.free + 1 } : State).locByte (.sram o.gid a) 0
    = s.locByte (.sram o.gid a) 0 from State.locByte_of_scratch (s.copyFlagged_frame o.gid _).scratch _ _]

theorem State.endLoadCopy_arrives (s : State) {o : EngOp} {g : Group} (hg : s.group? o.gid = some g) (m : VaMap) :
    Arrives s (s.endLoadCopy o m) o.signal := by
  have hk1 : KeepsBars s ({ s.copyFlagged o.gid (s.copyIn o g.part m).2.1 with free := s.free + 1 } : State) :=
    s.copyFlagged_keepsBars o.gid _
  rw [s.endLoadCopy_eq o m hg]
  exact State.endOp_arrives (hk1.trans (State.loaded_keepsBars _ _ _ _)) _ _

/-- A load into a reservation leaves the scratch, but for the signal's word. -/
theorem State.endLoadCopy_keepsScratch (s : State) {o : EngOp} {g : Group} (hg : s.group? o.gid = some g)
    (hc : ∀ n, s.markFor o.core g.part n = 0) (m : VaMap) (hk : o.dest.kind = 1) (a : Nat) :
    (s.endLoadCopy o m).locByte (.sram o.gid a) 0
      = (Signal.wordByte o.signal 0 o.gid a).getD (s.locByte (.sram o.gid a) 0) := by
  have hk1 : KeepsBars s ({ s.copyFlagged o.gid (s.copyIn o g.part m).2.1 with free := s.free + 1 } : State) :=
    s.copyFlagged_keepsBars o.gid _
  obtain ⟨g1, hg1⟩ := hk1.group? hg
  obtain ⟨g2, hg2⟩ := (State.loaded_keepsBars _ o (s.copyIn o g.part m).1 []).group? hg1
  rw [s.endLoadCopy_clean hg hc, State.endOp_scratch _ _ _ _ hg2]
  congr 1
  refine State.locByte_of_scratch (.trans ?_ (s.copyFlagged_frame o.gid (s.copyIn o g.part m).2.1).scratch) _ _
  unfold State.loaded State.scratch
  rw [if_neg (by omega), (State.updMxOf_groups _ _ _ _).1]

/-- A load into a reservation: the box in the operand buffer, and the rest of the buffer. -/
theorem State.endLoadCopy_opbuf (s : State) {o : EngOp} {g : Group} {z : Resv} (hg : s.group? o.gid = some g)
    (hc : ∀ n, s.markFor o.core g.part n = 0) (m : VaMap) (hk : o.dest.kind = 1) (hsv : ∀ p ∈ s.savedMx, p.1 ≠ o.gid)
    (hz : (s.core (s.opCore o)).mx.resv? o.dest.rid = some z) (a : Nat) :
    smGet 0 ((s.endLoadCopy o m).core (s.opCore o)).mx.opbuf a =
      if z.lo + o.dest.off ≤ a ∧ a < z.lo + o.dest.off + (s.copyIn o g.part m).1.length
      then (s.copyIn o g.part m).1.getD (a - (z.lo + o.dest.off)) 0 else smGet 0 (s.core (s.opCore o)).mx.opbuf a := by
  have hoc : ({ s.copyFlagged o.gid (s.copyIn o g.part m).2.1 with free := s.free + 1 } : State).opCore o = s.opCore o :=
    s.copyFlagged_opCore o o.gid _
  have hmx : ∀ (u : State) (st i : Nat), ((u.endOp o st).core i).mx = (u.core i).mx := by
    intro u st i
    rw [State.endOp_core]
    split
    · next h => rw [h]
    · rfl
  rw [s.endLoadCopy_clean hg hc, hmx]
  have h := State.loaded_opbuf ({ s.copyFlagged o.gid (s.copyIn o g.part m).2.1 with free := s.free + 1 } : State) hk hsv
    (by rw [hoc]; exact hz) (s.copyIn o g.part m).1 a
  rw [hoc] at h
  exact h

theorem State.endStoreCopy_arrives (s : State) {o : EngOp} {g : Group} (hg : s.group? o.gid = some g) (m : VaMap) :
    Arrives s (s.endStoreCopy o m) o.signal := by
  rw [s.endStoreCopy_eq o m hg]
  exact State.endOp_arrives (State.stored_keepsBars _ _ _ _ _ _) _ _

theorem State.endStoreCopy_scratch (s : State) {o : EngOp} {g : Group} (hg : s.group? o.gid = some g) (hc : g.sSpoil = [])
    (m : VaMap) (a : Nat) : (s.endStoreCopy o m).locByte (.sram o.gid a) 0
      = (Signal.wordByte o.signal 0 o.gid a).getD (s.locByte (.sram o.gid a) 0) := by
  obtain ⟨g', hg'⟩ := (s.stored_keepsBars o g.part (s.opCore o) (s.copyOut o g.part [] m) m).group? hg
  rw [s.endStoreCopy_clean hg hc, State.endOp_scratch _ _ _ _ hg', State.locByte_of_scratch (State.stored_scratch _ _ _ _ _ _)]

theorem State.endStoreCopy_farByte (s : State) {o : EngOp} {g : Group} (hg : s.group? o.gid = some g) (hc : g.sSpoil = [])
    (m : VaMap) (a : Nat) : (s.endStoreCopy o m).farByte (s.opCore o) g.part a =
      (lastWrite ((s.copyOut o g.part [] m).1.map fun p => (vaAt m p.1, p.2)) a).getD (s.farByte (s.opCore o) g.part a) := by
  rw [s.endStoreCopy_clean hg hc, State.endOp_farByte, State.stored_farByte]

/-! ### The bytes of a box of I8 elements -/

theorem sum_digits_cons (c k : Nat) (cs : List Nat) :
    (((c :: cs).zipIdx k).map fun p => p.1 % 2 ^ 8 * 2 ^ (8 * p.2)).sum
      = 2 ^ (8 * k) * (c % 256 + 256 * ((cs.zipIdx).map fun p => p.1 % 2 ^ 8 * 2 ^ (8 * p.2)).sum) := by
  have shift : ∀ (l : List Nat) (k n : Nat), ((l.zipIdx (k + n)).map fun p => p.1 % 2 ^ 8 * 2 ^ (8 * p.2)).sum
      = 2 ^ (8 * k) * ((l.zipIdx n).map fun p => p.1 % 2 ^ 8 * 2 ^ (8 * p.2)).sum := by
    intro l k
    induction l with
    | nil => intro n; rfl
    | cons x r ih =>
      intro n
      rw [List.zipIdx_cons, List.zipIdx_cons, List.map_cons, List.map_cons, List.sum_cons, List.sum_cons, Nat.add_assoc, ih,
        Nat.mul_add (2 ^ (8 * k)), Nat.mul_add 8, pow_add]
      ring
  rw [List.zipIdx_cons, List.map_cons, List.sum_cons, show k + 1 = (k + 1) + 0 from rfl, shift]
  rw [Nat.mul_add 8, pow_add, show (2 : Nat) ^ (8 * 1) = 256 from rfl]
  dsimp only
  ring

/-- A row of I8 codes is a byte a code. -/
theorem packRow_i8 (cs : List Nat) : packRow .i8 cs = cs.map (BitVec.ofNat 8) := by
  have key : ∀ l : List Nat, natBytes l.length ((l.zipIdx.map fun p => p.1 % 2 ^ 8 * 2 ^ (8 * p.2)).sum) = l.map (BitVec.ofNat 8) := by
    intro l
    induction l with
    | nil => rfl
    | cons c r ih =>
      rw [sum_digits_cons, List.length_cons, natBytes, List.map_cons]
      refine congrArg₂ List.cons (BitVec.eq_of_toNat_eq ?_) ?_
      · simp only [BitVec.toNat_ofNat]; omega
      · rw [← ih]; congr 1; omega
  have hn : rowBytes (fmtWidth .i8) cs.length = cs.length := by
    rw [show fmtWidth .i8 = 8 from rfl, rowBytes, show packGroup 8 = 1 from rfl]; omega
  unfold packRow
  dsimp only
  rw [hn, show fmtWidth .i8 = 8 from rfl, Nat.mul_div_cancel _ (by decide), Nat.sub_self, List.replicate_zero, List.append_nil]
  exact key cs

/-- An element of a concatenation of lists of one length. -/
theorem getElem?_flatMap_of_length {α β : Type} {f : α → List β} {n : Nat} {l : List α} (hf : ∀ x ∈ l, (f x).length = n) {i : Nat}
    (hi : i < n) (k : Nat) : (l.flatMap f)[k * n + i]? = (l[k]?).bind fun x => (f x)[i]? := by
  induction l generalizing k with
  | nil => simp
  | cons x r ih =>
    have hx := hf x (by simp)
    cases k with
    | zero => simp [List.getElem?_append_left (by omega : i < (f x).length)]
    | succ k =>
      rw [List.flatMap_cons, List.getElem?_append_right (by rw [hx]; nlinarith), hx,
        show (k + 1) * n + i - n = k * n + i by rw [Nat.succ_mul]; omega, ih fun y hy => hf y (by simp [hy])]
      simp

/-- A code of an I8 element converts to itself. -/
theorem convertElem_i8 : ∀ c < 256, (convertElem .i8 .i8 [] c 0).1 = c := by
  decide +kernel

theorem packedElem_byte (rd : Nat → Byte) (a k : Nat) : packedElem rd a 8 k = (rd (a + k)).toNat := by
  unfold packedElem
  dsimp only
  rw [Nat.mul_div_cancel_left _ (by decide), Nat.mul_mod_right]
  show readNat rd (a + k) 1 / 1 % 256 = _
  simp [readNat, Nat.mod_eq_of_lt (rd (a + k)).isLt]

/-- Whether an element of a box lies in the tensor, by its coordinates. -/
theorem CopyBox.inside_iff (x : CopyBox) {b : List Nat} {i : Nat} (hi : i < x.lay.box.getD 0 1) :
    (x.rowIn b = true ∧ x.span.1 ≤ i ∧ i < x.span.1 + x.span.2) ↔
      (∀ j < 4, 0 ≤ x.coord (j + 1) + b.getD j 0 ∧ x.coord (j + 1) + b.getD j 0 < x.lay.dim.getD (j + 1) 1) ∧
      0 ≤ x.coord 0 + i ∧ x.coord 0 + i < x.lay.dim.getD 0 1 := by
  have hrow : x.rowIn b = true ↔
      ∀ j < 4, 0 ≤ x.coord (j + 1) + b.getD j 0 ∧ x.coord (j + 1) + b.getD j 0 < x.lay.dim.getD (j + 1) 1 := by
    have hall : x.rowIn b = ((List.range 4).all fun j => x.inDim (j + 1) (x.coord (j + 1) + (b.getD j 0 : Nat))) := rfl
    rw [hall]
    simp only [List.all_eq_true, List.mem_range, CopyBox.inDim, Bool.and_eq_true, decide_eq_true_eq]
  have hspan : (x.span.1 ≤ i ∧ i < x.span.1 + x.span.2) ↔ 0 ≤ x.coord 0 + i ∧ x.coord 0 + i < x.lay.dim.getD 0 1 := by
    unfold CopyBox.span
    dsimp only
    omega
  rw [hrow, hspan]

theorem CopyBox.rowAddr_index (x : CopyBox) (b : List Nat) : x.rowAddr (x.index b) = x.lay.base + BitVec.ofInt 64
    ((List.range 4).map fun j => (x.coord (j + 1) + b.getD j 0) * x.lay.stride.getD (j + 1) 0).sum := rfl

/-- A box of I8 elements brings each element of the tensor as it is, and the absent code for those outside. -/
theorem CopyBox.loadBytes_i8 {x : CopyBox} (hf : x.far = .i8) (hn : x.near = .i8) (rd : Nat → Byte) {k i : Nat} {b : List Nat}
    (hb : x.rows[k]? = some b) (hi : i < x.lay.box.getD 0 1) :
    (x.loadBytes [] rd fun _ => false).1.getD (k * x.lay.box.getD 0 1 + i) 0 =
      if x.rowIn b = true ∧ x.span.1 ≤ i ∧ i < x.span.1 + x.span.2
      then rd ((x.rowAddr (x.index b)).toNat + (x.coord 0 + i).toNat) else 0x80 := by
  have hraw : x.raw = false := by rw [CopyBox.raw, hf]; rfl
  unfold CopyBox.loadBytes
  dsimp only
  rw [hraw, if_neg Bool.false_ne_true, List.flatMap_nil, List.append_nil, List.getD_eq_getElem?_getD, List.flatMap_map,
    getElem?_flatMap_of_length (fun y _ => by rw [hn, packRow_i8]; simp) hi, hb, hf, hn]
  simp only [Option.bind_some, packRow_i8, List.getElem?_map, List.getElem?_range hi, Option.map_some, Option.getD_some]
  split
  · rw [show fmtWidth .i8 = 8 from rfl, packedElem_byte]
    show BitVec.ofNat 8 (convertElem .i8 .i8 [] (rd _).toNat 0).1 = _
    rw [convertElem_i8 _ (rd _).isLt, BitVec.ofNat_toNat, BitVec.setWidth_eq]
  · rfl

end Sys2Proof.Machine

section
open Sys2Proof Sys2Proof.Machine

/-- Settles O46: a completed copy is the end of its operation after its bytes have reached their target. -/
theorem copyCompletionMovesBox : Obligations.CopyCompletionMovesBox := by
  unfold Obligations.CopyCompletionMovesBox
  refine ⟨?_, ?_⟩
  · intro s o g m hop hkind hpark hwait hg x d core ended
    have hc : Completable s o := ⟨hop, hkind, hpark, hwait⟩
    refine ⟨exec_copyCompletion_prefetch hc, ?_, ?_, ?_, ?_, ?_⟩
    · intro f ha hm
      obtain ⟨hmark, hcores⟩ := State.parkOp_parks (s := s) o.box.store f hop hg
      exact ⟨_, _, exec_copyCompletion_fault hc ha hm, hmark, rfl, by rw [State.core, State.core, hcores]⟩
    · intro ha hm hcut
      obtain ⟨ms, hex⟩ := exec_copyCompletion_load hc ha hm hcut
      obtain ⟨gone, free, mem⟩ := State.endLoadCopy_ended { s with messages := ms } hg m
      exact ⟨_, hex, gone, free, mem⟩
    · intro ha hm
      obtain ⟨gone, free, mem⟩ := s.endStoreCopy_ended hg m
      exact ⟨_, exec_copyCompletion_store hc ha hm, gone, free, mem⟩
    · intro ha hclean hm hcut
      obtain ⟨ms, hex⟩ := exec_copyCompletion_load hc ha hm hcut
      obtain ⟨gone, free, mem⟩ := State.endLoadCopy_ended { s with messages := ms } hg m
      have harr : Arrives s _ _ := State.endLoadCopy_arrives { s with messages := ms } hg m
      have hbs : (({ s with messages := ms } : State).copyIn o g.part m) = _ := State.copyIn_clean hclean m
      refine ⟨fun hk => ⟨_, hex, ⟨gone, free, mem⟩, harr, fun a => ?_⟩,
        fun z hk hsv hz => ⟨_, hex, ⟨gone, free, mem⟩, harr, fun a => ?_, fun a => ?_⟩⟩
      · have h := State.endLoadCopy_scratch { s with messages := ms } hg hclean m hk a
        rw [hbs] at h
        exact h
      · exact State.endLoadCopy_keepsScratch { s with messages := ms } hg hclean m hk a
      · have h := State.endLoadCopy_opbuf { s with messages := ms } hg hclean m hk hsv hz a
        rw [hbs] at h
        exact h
    · intro ha hclean hm
      obtain ⟨gone, free, mem⟩ := s.endStoreCopy_ended hg m
      refine ⟨_, exec_copyCompletion_store hc ha hm, ⟨gone, free, mem⟩, s.endStoreCopy_arrives hg m,
        s.endStoreCopy_scratch hg hclean m, fun a => ?_⟩
      rw [s.endStoreCopy_farByte hg hclean m, State.copyOut_clean]
  · intro y rd k b i hf hn hb hi
    dsimp only
    rw [CopyBox.loadBytes_i8 hf hn rd hb hi, CopyBox.rowAddr_index]
    exact if_congr (y.inside_iff hi) rfl rfl

end

/-! ## The matrix engine (R110 to R120, R252)

First what a change of a core's engine leaves and how two of them combine, then the sequencer's head command. -/

namespace Sys2Proof.Machine

/-! ### Tables -/

section Tables

variable {α : Type} [DecidableEq α]

omit [DecidableEq α] in
theorem smDel_of_ne {m : List (Nat × α)} {a : Nat} (h : ∀ p ∈ m, p.1 ≠ a) : smDel m a = m := by
  induction m with
  | nil => rfl
  | cons p r ih =>
    obtain ⟨k, v⟩ := p
    rw [smDel, if_neg (h (k, v) (by simp)), ih fun q hq => h q (by simp [hq])]

omit [DecidableEq α] in
theorem smDel_smIns {m : List (Nat × α)} {a : Nat} (x : α) (h : ∀ p ∈ m, p.1 ≠ a) : smDel (smIns m a x) a = m := by
  induction m with
  | nil => simp [smIns, smDel]
  | cons p r ih =>
    obtain ⟨k, v⟩ := p
    have hk : k ≠ a := h (k, v) (by simp)
    have hr : ∀ q ∈ r, q.1 ≠ a := fun q hq => h q (by simp [hq])
    rw [smIns]
    split
    · rw [smDel, if_pos rfl, smDel_of_ne h]
    · rw [smDel, if_neg hk, ih hr]

/-- The later of two writes of a key counts. -/
theorem smSet_smSet (d : α) (m : List (Nat × α)) (a : Nat) (x y : α) : smSet d (smSet d m a x) a y = smSet d m a y := by
  have hdel : smDel (smSet d m a x) a = smDel m a := by
    rw [smSet]
    split
    · exact smDel_of_ne (smDel_ne m a)
    · exact smDel_smIns x (smDel_ne m a)
  rw [smSet, hdel]
  rfl

omit [DecidableEq α] in
/-- A table with the entries of some keys removed. -/
theorem smGet_filter (d : α) (m : List (Nat × α)) (p : Nat → Bool) (a : Nat) :
    smGet d (m.filter fun q => p q.1) a = if p a then smGet d m a else d := by
  induction m with
  | nil => simp [smGet]
  | cons q r ih =>
    obtain ⟨k, v⟩ := q
    rw [List.filter_cons]
    by_cases hk : p k = true
    · simp only [hk, if_true, smGet, ih]
      by_cases h : k = a
      · subst h; simp [hk]
      · simp [h]
    · simp only [hk, Bool.false_eq_true, if_false, ih, smGet]
      by_cases h : k = a
      · subst h; simp [hk]
      · simp [h]

/-- Writes of distinct keys, one value for each: each key reads its value. -/
theorem smGet_smSets_map_of_nodup (d : α) {β : Type} (key : β → Nat) (val : β → α) (l : List β) (hn : (l.map key).Nodup)
    (m : List (Nat × α)) {b : β} (hb : b ∈ l) : smGet d (smSets d m (l.map fun x => (key x, val x))) (key b) = val b := by
  induction l generalizing m with
  | nil => cases hb
  | cons x r ih =>
    rw [List.map_cons, List.nodup_cons] at hn
    rw [List.map_cons, smSets]
    rcases List.mem_cons.1 hb with rfl | hr
    · rw [smGet_smSets_ne, smGet_smSet_self]
      intro p hp
      obtain ⟨y, hy, rfl⟩ := List.mem_map.1 hp
      exact fun h => hn.1 (List.mem_map.2 ⟨y, hy, h⟩)
    · exact ih hn.2 _ hr

end Tables

/-! ### Changes of a core's engine -/

theorem State.core_updMx (s : State) (c k : Nat) (f : Matrix → Matrix) :
    (s.updMx c f).core k = if c = k then { s.core c with mx := f (s.core c).mx } else s.core k :=
  State.core_setCore _ _ _ _

theorem State.core_updMx_self (s : State) (c : Nat) (f : Matrix → Matrix) :
    (s.updMx c f).core c = { s.core c with mx := f (s.core c).mx } :=
  (s.core_updMx c c f).trans (if_pos rfl)

theorem State.core_updMx_ne (s : State) {c k : Nat} (f : Matrix → Matrix) (h : c ≠ k) : (s.updMx c f).core k = s.core k :=
  (s.core_updMx c k f).trans (if_neg h)

/-- A change depends on the engine that it finds alone. -/
theorem State.updMx_const (s : State) (c : Nat) (f : Matrix → Matrix) : s.updMx c f = s.updMx c fun _ => f (s.core c).mx := rfl

/-- The later of two changes takes the engine that the first leaves. -/
theorem State.updMx_updMx (s : State) (c : Nat) (f g : Matrix → Matrix) :
    (s.updMx c f).updMx c g = s.updMx c fun y => g (f y) := by
  have h : (s.updMx c f).updMx c g = (s.updMx c f).setCore c { s.core c with mx := g (f (s.core c).mx) } := by
    rw [State.updMx, State.core_updMx_self]
  rw [h]
  show ({ s with cores := smSet Core.fresh (smSet Core.fresh s.cores c _) c _ } : State) = _
  rw [smSet_smSet]
  rfl

/-- One change on several cores: each distinct core, or any of them for a change that repeats itself, has it once. -/
theorem State.core_foldl_updMx (f : Matrix → Matrix) (l : List Nat) (h : l.Nodup ∨ ∀ x, f (f x) = f x) (s : State) (k : Nat) :
    (l.foldl (fun s k => s.updMx k f) s).core k = if k ∈ l then { s.core k with mx := f (s.core k).mx } else s.core k := by
  induction l generalizing s with
  | nil => simp
  | cons c r ih =>
    have hr : r.Nodup ∨ ∀ x, f (f x) = f x := h.imp (fun hn => (List.nodup_cons.1 hn).2) id
    rw [List.foldl_cons, ih hr, State.core_updMx]
    by_cases hc : c = k
    · subst hc
      by_cases hm : c ∈ r
      · have hff : ∀ x, f (f x) = f x := h.resolve_left fun hn => (List.nodup_cons.1 hn).1 hm
        simp [hm, hff]
      · simp [hm]
    · simp [hc, Ne.symm hc]

/-! ### The head command -/

section Head

variable {s : State} {core : Nat} {q : MCmd} {rest : List MCmd}

/-- A core whose engine has a command at its head and neither a loop nor a drain under way. -/
structure AtHead (s : State) (core : Nat) (q : MCmd) (rest : List MCmd) : Prop where
  queue : (s.core core).mx.queue = q :: rest
  run : (s.core core).mx.run = none
  drain : (s.core core).mx.drain = false

theorem AtHead.idle (h : AtHead s core q rest) : ((s.core core).mx.run.isSome || (s.core core).mx.drain) = false := by
  rw [h.run, h.drain]
  rfl

/-- What the sequencer does with a command at the head that can be performed. -/
theorem exec_commandHead {t : State} (h : s.matrixHead core = some t) : exec (.matrixCommandHead core) s = .next t := by
  show execMatrixCommandHead core s = _
  rw [execMatrixCommandHead, h]

theorem exec_commandHead_waits (h : s.matrixHead core = none) :
    exec (.matrixCommandHead core) s = .refused (.notEnabled "MATRIX_COMMAND_HEAD") := by
  show execMatrixCommandHead core s = _
  rw [execMatrixCommandHead, h]

theorem AtHead.head? (h : AtHead s core q rest) : (s.core core).mx.head? = some q := by
  rw [Matrix.head?, h.queue]
  rfl

/-- An engine with a reservation freed; with the last of them it is free itself (R111). -/
def Matrix.released (y : Matrix) (id : Nat) : Matrix :=
  if (y.resv.filter fun z => z.id != id).isEmpty then { y with resv := [], owner := none, chain := 1, steps := [] }
  else { y with resv := y.resv.filter fun z => z.id != id }

/-- MRELS (R111). -/
theorem AtHead.rels (h : AtHead s core q rest) (hk : q.kind = .rels) {r : Resv}
    (hr : (s.core core).mx.resv? (q.args.getD 0 0).toNat = some r) (hc : s.copying core r.lo r.bytes = false) :
    s.matrixHead core = some (s.updMx core fun y => (y.released (q.args.getD 0 0).toNat).pop) := by
  unfold State.matrixHead
  dsimp only
  rw [h.head?]
  dsimp only
  rw [h.idle, if_neg Bool.false_ne_true, hk]
  dsimp only
  rw [hr]
  dsimp only
  rw [hc, if_neg Bool.false_ne_true]
  rfl

/-- MSCL (R114). -/
theorem AtHead.scl (h : AtHead s core q rest) (hk : q.kind = .scl) : s.matrixHead core =
    some (s.updMx core fun y => ({ y with shadow := { y.shadow with scale := q.args.getD 0 0 } } : Matrix).pop) := by
  unfold State.matrixHead
  dsimp only
  rw [h.head?]
  dsimp only
  rw [h.idle, if_neg Bool.false_ne_true, hk]

/-- MSWP (R114). -/
theorem AtHead.swp (h : AtHead s core q rest) (hk : q.kind = .swp) : s.matrixHead core =
    some (s.updMx core fun y => ({ y with active := y.shadow, shadow := y.active } : Matrix).pop) := by
  unfold State.matrixHead
  dsimp only
  rw [h.head?]
  dsimp only
  rw [h.idle, if_neg Bool.false_ne_true, hk]

/-- MLDS (R114). -/
theorem AtHead.lds (h : AtHead s core q rest) (hk : q.kind = .lds) {r : Resv}
    (hr : (s.core core).mx.resv? (q.args.getD 0 0).toNat = some r) : s.matrixHead core =
    some (s.updMx core fun y => ({ y with
      shadow := (s.core core).mx.loadPlane r (128 * bitsOf (q.args.getD 1 0).toNat 0 16)
        (bitsOf (q.args.getD 1 0).toNat 16 10) (bitsOf (q.args.getD 1 0).toNat 16 10 + 1) } : Matrix).pop) := by
  unfold State.matrixHead
  dsimp only
  rw [h.head?]
  dsimp only
  rw [h.idle, if_neg Bool.false_ne_true, hk]
  dsimp only
  rw [hr]

/-- MZERO (R118). -/
theorem AtHead.zero (h : AtHead s core q rest) (hk : q.kind = .zero) : s.matrixHead core =
    some (s.updMx core fun y =>
      (y.clearRows (bitsOf (q.args.getD 0 0).toNat 0 9) (bitsOf (q.args.getD 0 0).toNat 9 9 + 1)).pop) := by
  unfold State.matrixHead
  dsimp only
  rw [h.head?]
  dsimp only
  rw [h.idle, if_neg Bool.false_ne_true, hk]

/-- MDRN (R120). -/
theorem AtHead.drn (h : AtHead s core q rest) (hk : q.kind = .drn) : s.matrixHead core =
    some (s.updMx core fun y => { y with drain := true }) := by
  unfold State.matrixHead
  dsimp only
  rw [h.head?]
  dsimp only
  rw [h.idle, if_neg Bool.false_ne_true, hk]

/-- The rows that are cleared hold 0 with count 0, and every other row what it held (R113, R118). -/
theorem Matrix.clearRows_get (x : Matrix) (row n k : Nat) :
    smGet 0 (x.clearRows row n).acc k = (if row ≤ k / 128 ∧ k / 128 < row + n then 0 else smGet 0 x.acc k) ∧
    smGet 0 (x.clearRows row n).cnt k = (if row ≤ k / 128 ∧ k / 128 < row + n then 0 else smGet 0 x.cnt k) := by
  have hout : (decide (k / 128 < row) || decide (row + n ≤ k / 128)) = !decide (row ≤ k / 128 ∧ k / 128 < row + n) := by
    rw [Bool.eq_iff_iff]
    simp only [Bool.or_eq_true, decide_eq_true_eq, Bool.not_eq_true', decide_eq_false_iff_not]
    omega
  unfold Matrix.clearRows
  dsimp only
  rw [smGet_filter 0 x.acc (fun k => decide (k / 128 < row) || decide (row + n ≤ k / 128)),
    smGet_filter 0 x.cnt (fun k => decide (k / 128 < row) || decide (row + n ≤ k / 128)), hout]
  by_cases hi : row ≤ k / 128 ∧ k / 128 < row + n
  · simp [hi]
  · simp [hi]

/-- Outside a chain a core runs its loops alone (R119). -/
theorem State.chainCores_alone (h : (s.core core).mx.chain ≤ 1) : s.chainCores core = [core] := by
  unfold State.chainCores
  dsimp only
  rw [if_pos h]

/-- What a loop does to an engine as it starts: the shadow plane is spent, and its rows are cleared where it says so (R117). -/
def Matrix.begun (y : Matrix) (q : MCmd) : Matrix :=
  if (loopDesc q.args).zero then ({ y with shadow := Plane.empty } : Matrix).clearRows (loopDesc q.args).row0 (rowsOf q.groups)
  else { y with shadow := Plane.empty }

theorem Matrix.begun_keeps (y : Matrix) (q : MCmd) : (y.begun q).queue = y.queue ∧ (y.begun q).resv = y.resv ∧
    (y.begun q).active = y.active ∧ ((loopDesc q.args).zero = false → (y.begun q).acc = y.acc ∧ (y.begun q).cnt = y.cnt) := by
  unfold Matrix.begun
  split
  · next h => exact ⟨rfl, rfl, rfl, fun h' => by rw [h] at h'; cases h'⟩
  · exact ⟨rfl, rfl, rfl, fun _ => ⟨rfl, rfl⟩⟩

/-- An engine after its loop has come to the head: the loop runs, or has no row and is gone. -/
def Matrix.looped (y : Matrix) (q : MCmd) : Matrix :=
  match q.start with
  | some p => { y.begun q with run := some p }
  | none => (y.begun q).pop

/-- MLOOP and MGRP outside a chain. -/
theorem AtHead.loop (h : AtHead s core q rest) (hk : q.kind = .loop ∨ q.kind = .grp) (hc : (s.core core).mx.chain ≤ 1) :
    s.matrixHead core = some (s.updMx core fun _ => (s.core core).mx.looped q) := by
  have hkind : (q.kind == .loop || q.kind == .grp) = true := by rcases hk with hk | hk <;> rw [hk] <;> rfl
  have hall : s.allAtHead q.gid [core] (fun q => q.kind == .loop || q.kind == .grp) = true := by
    unfold State.allAtHead
    rw [List.all_cons, List.all_nil, h.head?]
    dsimp only
    rw [hkind]
    simp
  unfold State.matrixHead
  dsimp only
  rw [h.head?]
  dsimp only
  rw [h.idle, if_neg Bool.false_ne_true]
  rcases hk with hk | hk <;>
  · rw [hk]
    dsimp only
    rw [State.chainCores_alone hc, if_neg (by simp), hall, if_pos rfl]
    dsimp only [List.foldl_cons, List.foldl_nil]
    unfold Matrix.looped
    cases q.start with
    | some p =>
      dsimp only
      rw [State.updMx_updMx, State.updMx_const, h.head?]
      rfl
    | none =>
      dsimp only
      rw [State.updMx_updMx, State.updMx_const, h.head?]
      rfl

/-! ### Chains (R119) -/

/-- MCHN of a length above 1 by a member of the gang below it, once every member's is at its head. -/
theorem AtHead.chn_forms (h : AtHead s core q rest) (hk : q.kind = .chn) {g : Group} (hg : s.group? q.gid = some g)
    (hn : 1 < (q.args.getD 0 0).toNat) (hm : g.member < (q.args.getD 0 0).toNat) :
    s.matrixHead core =
      if s.allAtHead q.gid (s.memberCores q.gid (q.args.getD 0 0).toNat) (fun z => z.kind == .chn &&
        z.args.getD 0 0 == BitVec.ofNat 32 (q.args.getD 0 0).toNat)
      then some ((s.memberCores q.gid (q.args.getD 0 0).toNat).foldl
        (fun s k => s.updMx k fun y => { y.pop with chain := (q.args.getD 0 0).toNat }) s) else none := by
  unfold State.matrixHead
  dsimp only
  rw [h.head?]
  dsimp only
  rw [h.idle, if_neg Bool.false_ne_true, hk]
  dsimp only
  rw [hg]
  dsimp only
  rw [if_neg (by omega), if_neg (by omega)]

/-- MCHN of a length up to 1 dissolves the chain. -/
theorem AtHead.chn_dissolves (h : AtHead s core q rest) (hk : q.kind = .chn) {g : Group} (hg : s.group? q.gid = some g)
    (hn : (q.args.getD 0 0).toNat ≤ 1) : s.matrixHead core =
      some (((s.chainCores core).foldl (fun s k => s.updMx k fun y => { y with chain := 1 }) s).updMx core Matrix.pop) := by
  unfold State.matrixHead
  dsimp only
  rw [h.head?]
  dsimp only
  rw [h.idle, if_neg Bool.false_ne_true, hk]
  dsimp only
  rw [hg]
  dsimp only
  rw [if_pos hn]

end Head

/-! ### What the obligation's first clause asks of each command -/

section Clauses

variable {s : State} {core : Nat} {q : MCmd} {rest : List MCmd}

/-- A command that leaves queue, loop and drain is gone from the queue, and the rest of the engine is as it makes it. -/
theorem AtHead.pops (h : AtHead s core q rest) {z : Matrix} (hz : s.matrixHead core = some (s.updMx core fun _ => z.pop))
    (hk : z.queue = (s.core core).mx.queue ∧ z.run = (s.core core).mx.run ∧ z.drain = (s.core core).mx.drain) :
    exec (.matrixCommandHead core) s = .next (s.updMx core fun _ => { z with queue := rest }) := by
  obtain ⟨hq, hr, hd⟩ := hk
  have hpop : z.pop = { z with queue := rest } := by
    rw [Matrix.pop, hq, h.queue, ← h.run, ← h.drain, ← hr, ← hd]
    rfl
  rw [exec_commandHead hz, hpop]

theorem AtHead.runs_rels (h : AtHead s core q rest) (hk : q.kind = .rels) {r : Resv}
    (hr : (s.core core).mx.resv? (q.args.getD 0 0).toNat = some r) (hc : s.copying core r.lo r.bytes = false) :
    exec (.matrixCommandHead core) s = .next (s.updMx core fun _ =>
      if ((s.core core).mx.resv.filter fun z => z.id != (q.args.getD 0 0).toNat) = []
      then { (s.core core).mx with queue := rest, resv := [], owner := none, chain := 1, steps := [] }
      else { (s.core core).mx with queue := rest, resv := (s.core core).mx.resv.filter fun z => z.id != (q.args.getD 0 0).toNat }) := by
  have hkeeps : ∀ y : Matrix, (y.released (q.args.getD 0 0).toNat).queue = y.queue ∧
      (y.released (q.args.getD 0 0).toNat).run = y.run ∧ (y.released (q.args.getD 0 0).toNat).drain = y.drain := by
    intro y
    unfold Matrix.released
    split <;> exact ⟨rfl, rfl, rfl⟩
  rw [h.pops (h.rels hk hr hc) (hkeeps _)]
  unfold Matrix.released
  simp only [List.isEmpty_iff]
  split <;> rfl

theorem AtHead.runs_scl (h : AtHead s core q rest) (hk : q.kind = .scl) : exec (.matrixCommandHead core) s =
    .next (s.updMx core fun _ =>
      { (s.core core).mx with queue := rest, shadow := { (s.core core).mx.shadow with scale := q.args.getD 0 0 } }) := by
  exact h.pops (h.scl hk) ⟨rfl, rfl, rfl⟩

theorem AtHead.runs_swp (h : AtHead s core q rest) (hk : q.kind = .swp) : exec (.matrixCommandHead core) s =
    .next (s.updMx core fun _ =>
      { (s.core core).mx with queue := rest, active := (s.core core).mx.shadow, shadow := (s.core core).mx.active }) := by
  exact h.pops (h.swp hk) ⟨rfl, rfl, rfl⟩

/-- The plane that an MLDS loads: format, block length, scale and bytes of the tile (R112, R114). -/
theorem Matrix.loadPlane_spec (y : Matrix) (r : Resv) (off j n : Nat) :
    (y.loadPlane r off j n).fmt = r.fmt ∧ (y.loadPlane r off j n).blk = r.blk ∧
    (y.loadPlane r off j n).scale = y.opWord (r.lo + r.scaleBase + 4 * j) ∧
    ∀ i < 128 * rowBytes (fmtWidth (fmtAt r.fmt)) 128, (y.loadPlane r off j n).bytes.getD i 0 = y.opByte (r.lo + off + i) := by
  refine ⟨rfl, rfl, ?_, fun i hi => ?_⟩
  · rw [Matrix.loadPlane, Resv.tileScale, Nat.add_assoc]
  · rw [Matrix.loadPlane, List.getD_eq_getElem?_getD, List.getElem?_map, List.getElem?_range (by exact hi)]
    rfl

theorem AtHead.runs_lds (h : AtHead s core q rest) (hk : q.kind = .lds) {r : Resv}
    (hr : (s.core core).mx.resv? (q.args.getD 0 0).toNat = some r) : exec (.matrixCommandHead core) s =
    .next (s.updMx core fun _ => { (s.core core).mx with
      queue := rest
      shadow := (s.core core).mx.loadPlane r (128 * bitsOf (q.args.getD 1 0).toNat 0 16)
        (bitsOf (q.args.getD 1 0).toNat 16 10) (bitsOf (q.args.getD 1 0).toNat 16 10 + 1) }) := by
  exact h.pops (h.lds hk hr) ⟨rfl, rfl, rfl⟩

theorem AtHead.runs_zero (h : AtHead s core q rest) (hk : q.kind = .zero) : exec (.matrixCommandHead core) s =
    .next (s.updMx core fun _ => { (s.core core).mx.clearRows (bitsOf (q.args.getD 0 0).toNat 0 9)
      (bitsOf (q.args.getD 0 0).toNat 9 9 + 1) with queue := rest }) := by
  exact h.pops (h.zero hk) ⟨rfl, rfl, rfl⟩

theorem AtHead.runs_drn (h : AtHead s core q rest) (hk : q.kind = .drn) : exec (.matrixCommandHead core) s =
    .next (s.updMx core fun _ => { (s.core core).mx with drain := true }) := by
  rw [exec_commandHead (h.drn hk), State.updMx_const]

theorem AtHead.runs_loop (h : AtHead s core q rest) (hk : q.kind = .loop ∨ q.kind = .grp) (hc : (s.core core).mx.chain ≤ 1) :
    exec (.matrixCommandHead core) s = .next (s.updMx core fun _ => (s.core core).mx.looped q) :=
  exec_commandHead (h.loop hk hc)

theorem AtHead.looped_spec (h : AtHead s core q rest) :
    ((s.core core).mx.looped q).run = q.start ∧
    ((s.core core).mx.looped q).queue = (if q.start = none then rest else (s.core core).mx.queue) ∧
    ((s.core core).mx.looped q).resv = (s.core core).mx.resv ∧ ((s.core core).mx.looped q).active = (s.core core).mx.active ∧
    ((loopDesc q.args).zero = false →
      ((s.core core).mx.looped q).acc = (s.core core).mx.acc ∧ ((s.core core).mx.looped q).cnt = (s.core core).mx.cnt) := by
  obtain ⟨hqueue, hresv, hactive, hrows⟩ := (s.core core).mx.begun_keeps q
  unfold Matrix.looped
  cases q.start with
  | some p => exact ⟨rfl, hqueue, hresv, hactive, hrows⟩
  | none =>
    refine ⟨rfl, ?_, hresv, hactive, hrows⟩
    show ((s.core core).mx.begun q).queue.drop 1 = rest
    rw [hqueue, h.queue]
    rfl

end Clauses

end Sys2Proof.Machine


namespace Sys2Proof.Machine

/-! ### One row on one core (R116) -/

/-- An engine after the pass of one row with some activations, under a plane already there. -/
def Matrix.rowPass (x : Matrix) (free : Nat) (op : Operand) (row : Nat) : Matrix :=
  let out := (List.range 128).map fun n => (128 * row + n,
    passElem (Config.freeWord (free + n)) op (x.active.column n) (smGet 0 x.acc (128 * row + n)) (smGet 0 x.cnt (128 * row + n)))
  { x with
    acc := smSets 0 x.acc (out.map fun o => (o.1, o.2.1))
    cnt := smSets 0 x.cnt (out.map fun o => (o.1, o.2.2.1))
    mode := smSet 0 x.mode row (if integerMode op.fmt (fmtAt x.active.fmt) then 1 else 0)
    stat := out.foldl (fun st o => st ||| o.2.2.2) x.stat }

/-- What no pass after the first row changes: the queue, the reservations, the operand buffer and the plane in use. -/
structure KeepsOperands (x z : Matrix) : Prop where
  queue : z.queue = x.queue
  resv : z.resv = x.resv
  opbuf : z.opbuf = x.opbuf
  active : z.active = x.active

theorem KeepsOperands.refl (x : Matrix) : KeepsOperands x x := ⟨rfl, rfl, rfl, rfl⟩

theorem KeepsOperands.trans {x y z : Matrix} (h : KeepsOperands x y) (k : KeepsOperands y z) : KeepsOperands x z :=
  ⟨k.queue.trans h.queue, k.resv.trans h.resv, k.opbuf.trans h.opbuf, k.active.trans h.active⟩

theorem Matrix.rowPass_keeps (x : Matrix) (free : Nat) (op : Operand) (row : Nat) : KeepsOperands x (x.rowPass free op row) :=
  ⟨rfl, rfl, rfl, rfl⟩

/-- One value for each column of a row: each column of the row reads its own, and other rows are as before. -/
theorem smGet_smSets_row {α : Type} [DecidableEq α] (d : α) (m : List (Nat × α)) (row : Nat) (v : Nat → α) (k : Nat) :
    smGet d (smSets d m ((List.range 128).map fun n => (128 * row + n, v n))) k = if k / 128 = row then v (k % 128) else smGet d m k := by
  split
  · next h =>
    have hn : ((List.range 128).map fun n => 128 * row + n).Nodup :=
      List.Nodup.map (fun a b hab => by omega) List.nodup_range
    have hk := smGet_smSets_map_of_nodup d (fun n => 128 * row + n) v (List.range 128) hn m
      (List.mem_range.2 (Nat.mod_lt k (by decide)))
    rw [show 128 * row + k % 128 = k by omega] at hk
    exact hk
  · next h =>
    refine smGet_smSets_ne d _ m k fun p hp => ?_
    obtain ⟨n, hn, rfl⟩ := List.mem_map.1 hp
    have := List.mem_range.1 hn
    dsimp only
    omega

/-- The value that nothing constrains is read only under a pairing that R113 does not allow. -/
theorem passElem_of_pairingOk {a w : Operand} (h : pairingOk a.fmt w.fmt = true) (free free' acc cnt : Word) :
    passElem free a w acc cnt = passElem free' a w acc cnt := by
  unfold passElem
  rw [h]
  rfl

/-- The row of a pass has what `passElem` gives in each column, and every other row is as before. -/
structure RowPassed (x z : Matrix) (op : Operand) (row : Nat) : Prop where
  acc_other : ∀ k, k / 128 ≠ row → smGet 0 z.acc k = smGet 0 x.acc k
  cnt_other : ∀ k, k / 128 ≠ row → smGet 0 z.cnt k = smGet 0 x.cnt k
  acc_row : ∀ (free : Word) (k : Nat), k / 128 = row → pairingOk op.fmt (fmtAt x.active.fmt) = true →
    smGet 0 z.acc k = (passElem free op (x.active.column (k % 128)) (smGet 0 x.acc k) (smGet 0 x.cnt k)).1
  cnt_row : ∀ (free : Word) (k : Nat), k / 128 = row → pairingOk op.fmt (fmtAt x.active.fmt) = true →
    smGet 0 z.cnt k = (passElem free op (x.active.column (k % 128)) (smGet 0 x.acc k) (smGet 0 x.cnt k)).2.1

theorem Matrix.rowPass_passed (x : Matrix) (free : Nat) (op : Operand) (row : Nat) : RowPassed x (x.rowPass free op row) op row := by
  let e := fun n => passElem (Config.freeWord (free + n)) op (x.active.column n) (smGet 0 x.acc (128 * row + n))
    (smGet 0 x.cnt (128 * row + n))
  have hacc : ∀ k, smGet 0 (x.rowPass free op row).acc k = if k / 128 = row then (e (k % 128)).1 else smGet 0 x.acc k := by
    intro k
    rw [Matrix.rowPass]
    dsimp only
    rw [List.map_map]
    exact smGet_smSets_row 0 x.acc row (fun n => (e n).1) k
  have hcnt : ∀ k, smGet 0 (x.rowPass free op row).cnt k = if k / 128 = row then (e (k % 128)).2.1 else smGet 0 x.cnt k := by
    intro k
    rw [Matrix.rowPass]
    dsimp only
    rw [List.map_map]
    exact smGet_smSets_row 0 x.cnt row (fun n => (e n).2.1) k
  have he : ∀ (f : Word) (k : Nat), k / 128 = row → pairingOk op.fmt (fmtAt x.active.fmt) = true →
      e (k % 128) = passElem f op (x.active.column (k % 128)) (smGet 0 x.acc k) (smGet 0 x.cnt k) := by
    intro f k hk hp
    dsimp only [e]
    rw [show 128 * row + k % 128 = k by omega]
    exact passElem_of_pairingOk hp _ _ _ _
  exact ⟨fun k hk => by rw [hacc, if_neg hk], fun k hk => by rw [hcnt, if_neg hk],
    fun f k hk hp => by rw [hacc, if_pos hk, he f k hk hp], fun f k hk hp => by rw [hcnt, if_pos hk, he f k hk hp]⟩

/-! ### A pass on a core of a chain (R116, R119) -/

section Passes

variable {p : MRun}

/-- A state that has taken values that nothing constrains. -/
def State.withFree (s : State) (n : Nat) : State := { s with free := n }

theorem State.core_withFree (s : State) (n k : Nat) : (s.withFree n).core k = s.core k := rfl

theorem State.withFree_updMx (s : State) (n k : Nat) (f : Matrix → Matrix) :
    (s.withFree n).updMx k f = (s.updMx k f).withFree n := rfl

/-- A pass beyond a tile's first row, where the core has its loop and weights and the lead its activations. -/
theorem State.passOn_row (s : State) (lead core : Nat) (hp : 0 < p.row) {q ql : MCmd} {w a : Resv}
    (hq : (s.core core).mx.queue.head? = some q) (hql : (s.core lead).mx.queue.head? = some ql)
    (hw : (s.core core).mx.resv? (loopDesc q.args).wid = some w) (ha : (s.core lead).mx.resv? (loopDesc ql.args).aid = some a) :
    s.passOn lead p core = (s.updMx core fun _ => (s.core core).mx.rowPass s.free
      ((s.core lead).mx.activation (loopDesc ql.args) a (rowsOf q.groups) p.step (rowsOf (q.groups.take p.grp) + p.row))
      ((loopDesc q.args).row0 + (rowsOf (q.groups.take p.grp) + p.row))).withFree (s.free + 128) := by
  unfold State.passOn
  dsimp only
  rw [Matrix.head?, Matrix.head?, hq, hql]
  dsimp only
  rw [hw, ha]
  dsimp only
  rw [if_neg (by omega)]
  rfl

/-- A pass beyond a tile's first row writes a row of its core's accumulators, or nothing. -/
theorem State.passOn_eq (s : State) (lead core : Nat) (hp : 0 < p.row) : s.passOn lead p core = s ∨
    ∃ op row, s.passOn lead p core = (s.updMx core fun _ => (s.core core).mx.rowPass s.free op row).withFree (s.free + 128) := by
  cases hq : (s.core core).mx.queue.head? with
  | none =>
    left
    unfold State.passOn
    dsimp only
    rw [Matrix.head?, hq]
  | some q =>
    cases hql : (s.core lead).mx.queue.head? with
    | none =>
      left
      unfold State.passOn
      dsimp only
      rw [Matrix.head?, Matrix.head?, hq, hql]
    | some ql =>
      cases hw : (s.core core).mx.resv? (loopDesc q.args).wid with
      | none =>
        left
        unfold State.passOn
        dsimp only
        rw [Matrix.head?, Matrix.head?, hq, hql]
        dsimp only
        rw [hw]
      | some w =>
        cases ha : (s.core lead).mx.resv? (loopDesc ql.args).aid with
        | none =>
          left
          unfold State.passOn
          dsimp only
          rw [Matrix.head?, Matrix.head?, hq, hql]
          dsimp only
          rw [hw, ha]
        | some a => exact .inr ⟨_, _, s.passOn_row lead core hp hq hql hw ha⟩

theorem State.passOn_core_ne (s : State) (lead core k : Nat) (hp : 0 < p.row) (hk : k ≠ core) :
    (s.passOn lead p core).core k = s.core k := by
  rcases s.passOn_eq lead core hp with h | ⟨op, row, h⟩
  · rw [h]
  · rw [h, State.core_withFree, State.core_updMx_ne s _ hk.symm]

theorem State.passOn_keeps (s : State) (lead core k : Nat) (hp : 0 < p.row) :
    KeepsOperands (s.core k).mx ((s.passOn lead p core).core k).mx := by
  by_cases hk : k = core
  · subst hk
    rcases s.passOn_eq lead k hp with h | ⟨op, row, h⟩
    · rw [h]
      exact .refl _
    · rw [h, State.core_withFree, State.core_updMx_self]
      exact Matrix.rowPass_keeps _ _ _ _
  · rw [s.passOn_core_ne lead core k hp hk]
    exact .refl _

/-- The passes of a row on the cores of a chain: each core's runs on the core as it was, with the lead's operands as they were. -/
theorem State.foldl_passOn (lead : Nat) (hp : 0 < p.row) (l : List Nat) (hn : l.Nodup) (s : State) :
    (∀ k, k ∉ l → (l.foldl (fun s k => s.passOn lead p k) s).core k = s.core k) ∧
    ∀ k ∈ l, ∃ u : State, KeepsOperands (s.core lead).mx (u.core lead).mx ∧ u.core k = s.core k ∧
      (l.foldl (fun s k => s.passOn lead p k) s).core k = (u.passOn lead p k).core k := by
  induction l generalizing s with
  | nil => exact ⟨fun _ _ => rfl, fun k hk => by cases hk⟩
  | cons c r ih =>
    rw [List.nodup_cons] at hn
    obtain ⟨hout, hin⟩ := ih hn.2 (s.passOn lead p c)
    rw [List.foldl_cons]
    refine ⟨fun k hk => ?_, fun k hk => ?_⟩
    · rw [List.mem_cons, not_or] at hk
      rw [hout k hk.2, s.passOn_core_ne lead c k hp hk.1]
    · by_cases hc : k = c
      · subst hc
        exact ⟨s, .refl _, rfl, hout k hn.1⟩
      · obtain ⟨u, hkeep, hcore, hpass⟩ := hin k ((List.mem_cons.1 hk).resolve_left hc)
        exact ⟨u, (s.passOn_keeps lead c lead hp).trans hkeep, hcore.trans (s.passOn_core_ne lead c k hp hc), hpass⟩

/-! ### The step of a chain -/

theorem State.residuePasses_clean (s : State) (l : List Nat) (h : ∀ k ∈ l, (s.core k).mx.residue = false) :
    s.residuePasses l = (s, l) := by
  induction l with
  | nil => rfl
  | cons k r ih =>
    have hk : s.residuePass k = (s, true) := by
      rw [State.residuePass, h k (by simp)]
      rfl
    rw [State.residuePasses, hk, ih fun j hj => h j (by simp [hj])]
    rfl

/-- The cores of a chain after a pass: their loop stands at the next row, or is done and gone (R117, R119). -/
def State.passEnd (s : State) (q : MCmd) (p : MRun) (l : List Nat) : State :=
  match q.nextRun p with
  | some p' => l.foldl (fun s k => s.updMx k fun y => { y with run := some p' }) s
  | none => l.foldl (fun s k => s.updMx k Matrix.pop) s

/-- The end of a pass touches neither planes, buffers, reservations nor accumulators. -/
theorem State.passEnd_core (s : State) (q : MCmd) (p : MRun) (l : List Nat) (hn : l.Nodup) (k : Nat) :
    (k ∉ l → (s.passEnd q p l).core k = s.core k) ∧
    ((s.passEnd q p l).core k).mx.active = (s.core k).mx.active ∧ ((s.passEnd q p l).core k).mx.opbuf = (s.core k).mx.opbuf ∧
    ((s.passEnd q p l).core k).mx.acc = (s.core k).mx.acc ∧ ((s.passEnd q p l).core k).mx.cnt = (s.core k).mx.cnt := by
  unfold State.passEnd
  split <;>
  · rw [State.core_foldl_updMx _ l (.inl hn)]
    refine ⟨fun hk => by rw [if_neg hk], ?_⟩
    split <;> exact ⟨rfl, rfl, rfl, rfl⟩

/-- MATRIX_PASS with no residue to report: the row runs on every core of the chain, and the loop goes on. -/
theorem exec_matrixPass {s : State} {core : Nat} {ks : List Nat} {q : MCmd} (hr : (s.core core).mx.run = some p)
    (hq : (s.core core).mx.queue.head? = some q) (hc : s.chainCores core = core :: ks)
    (hk : ∀ k ∈ core :: ks, (s.core k).mx.run.isSome = true ∧ (s.core k).mx.residue = false) :
    exec (.matrixPass core) s =
      .next (((core :: ks).foldl (fun s k => s.passOn core p k) s).passEnd q p (core :: ks)) := by
  have hfilter : (s.chainCores core).filter (fun k => (s.core k).mx.run.isSome) = core :: ks := by
    rw [hc]
    exact List.filter_eq_self.2 fun k hm => (hk k hm).1
  show execMatrixPass core s = _
  unfold execMatrixPass
  dsimp only
  rw [hfilter, Matrix.head?, hq, hr, List.head?_cons, if_pos rfl]
  dsimp only
  rw [s.residuePasses_clean _ fun k hm => (hk k hm).2, if_pos rfl]
  unfold State.passEnd
  cases q.nextRun p <;> rfl

/-- A pass of a chain: the cores outside it are as before, and each core of it has passed its row with the lead's activations. -/
theorem chainPass_spec {s : State} {core : Nat} {ks : List Nat} {q : MCmd} (hp : 0 < p.row)
    (hq : (s.core core).mx.queue.head? = some q) (hn : (core :: ks).Nodup) :
    let t := ((core :: ks).foldl (fun s k => s.passOn core p k) s).passEnd q p (core :: ks)
    (∀ k, k ∉ core :: ks → t.core k = s.core k) ∧
    ∀ k ∈ core :: ks, ∀ qk w a, (s.core k).mx.queue.head? = some qk → (s.core k).mx.resv? (loopDesc qk.args).wid = some w →
      (s.core core).mx.resv? (loopDesc q.args).aid = some a →
      (t.core k).mx.active = (s.core k).mx.active ∧ (t.core k).mx.opbuf = (s.core k).mx.opbuf ∧
      RowPassed (s.core k).mx (t.core k).mx
        ((s.core core).mx.activation (loopDesc q.args) a (rowsOf qk.groups) p.step (rowsOf (qk.groups.take p.grp) + p.row))
        ((loopDesc qk.args).row0 + (rowsOf (qk.groups.take p.grp) + p.row)) := by
  intro t
  obtain ⟨hout, hin⟩ := State.foldl_passOn core hp (core :: ks) hn s
  refine ⟨fun k hk => ((State.passEnd_core _ q p _ hn k).1 hk).trans (hout k hk), ?_⟩
  intro k hk qk w a hqk hw ha
  obtain ⟨-, hactive, hopbuf, hacc, hcnt⟩ := State.passEnd_core ((core :: ks).foldl (fun s k => s.passOn core p k) s) q p _ hn k
  obtain ⟨u, hkeep, hcore, hpass⟩ := hin k hk
  have hact : ∀ (d : LoopDesc) (a : Resv) (n j i : Nat), (u.core core).mx.activation d a n j i
      = (s.core core).mx.activation d a n j i := by
    intro d a n j i
    unfold Matrix.activation Matrix.table Matrix.opWord Matrix.opByte
    rw [hkeep.opbuf]
  have hrow := u.passOn_row core k hp (by rw [hcore]; exact hqk) (by rw [hkeep.queue]; exact hq) (by rw [hcore]; exact hw)
    (by rw [Matrix.resv?, hkeep.resv]; exact ha)
  have hmx : (((core :: ks).foldl (fun s k => s.passOn core p k) s).core k).mx = (s.core k).mx.rowPass u.free
      ((s.core core).mx.activation (loopDesc q.args) a (rowsOf qk.groups) p.step (rowsOf (qk.groups.take p.grp) + p.row))
      ((loopDesc qk.args).row0 + (rowsOf (qk.groups.take p.grp) + p.row)) := by
    rw [hpass, hrow, hact, hcore, State.core_withFree, State.core_updMx_self]
  have h := (s.core k).mx.rowPass_passed u.free
    ((s.core core).mx.activation (loopDesc q.args) a (rowsOf qk.groups) p.step (rowsOf (qk.groups.take p.grp) + p.row))
    ((loopDesc qk.args).row0 + (rowsOf (qk.groups.take p.grp) + p.row))
  rw [← hmx] at h
  refine ⟨hactive.trans (by rw [hmx]; rfl), hopbuf.trans (by rw [hmx]; rfl), ?_, ?_, ?_, ?_⟩
  · rw [hacc]; exact h.acc_other
  · rw [hcnt]; exact h.cnt_other
  · rw [hacc]; exact h.acc_row
  · rw [hcnt]; exact h.cnt_row

/-- A pass on one core alone changes that core's engine, and takes values that nothing constrains. -/
theorem singlePass_spec {s : State} {core : Nat} {q : MCmd} {w a : Resv} (hp : 0 < p.row)
    (hq : (s.core core).mx.queue.head? = some q) (hw : (s.core core).mx.resv? (loopDesc q.args).wid = some w)
    (ha : (s.core core).mx.resv? (loopDesc q.args).aid = some a) :
    ∃ z, ([core].foldl (fun s k => s.passOn core p k) s).passEnd q p [core]
        = (s.updMx core fun _ => z).withFree (s.free + 128) ∧
      z.active = (s.core core).mx.active ∧ z.resv = (s.core core).mx.resv ∧ z.opbuf = (s.core core).mx.opbuf ∧
      RowPassed (s.core core).mx z
        ((s.core core).mx.activation (loopDesc q.args) a (rowsOf q.groups) p.step (rowsOf (q.groups.take p.grp) + p.row))
        ((loopDesc q.args).row0 + (rowsOf (q.groups.take p.grp) + p.row)) := by
  have hrow := s.passOn_row core core hp hq hq hw ha
  have hpassed := (s.core core).mx.rowPass_passed s.free
    ((s.core core).mx.activation (loopDesc q.args) a (rowsOf q.groups) p.step (rowsOf (q.groups.take p.grp) + p.row))
    ((loopDesc q.args).row0 + (rowsOf (q.groups.take p.grp) + p.row))
  have hkeeps := (s.core core).mx.rowPass_keeps s.free
    ((s.core core).mx.activation (loopDesc q.args) a (rowsOf q.groups) p.step (rowsOf (q.groups.take p.grp) + p.row))
    ((loopDesc q.args).row0 + (rowsOf (q.groups.take p.grp) + p.row))
  generalize (s.core core).mx.rowPass _ _ _ = x at hrow hpassed hkeeps
  have hend : ∀ f : Matrix → Matrix, ((s.updMx core fun _ => x).withFree (s.free + 128)).updMx core f
      = (s.updMx core fun _ => f x).withFree (s.free + 128) := by
    intro f
    rw [State.withFree_updMx, State.updMx_updMx]
  rw [List.foldl_cons, List.foldl_nil, hrow]
  unfold State.passEnd
  cases q.nextRun p with
  | some p' =>
    exact ⟨{ x with run := some p' }, hend fun y => { y with run := some p' }, hkeeps.active, hkeeps.resv, hkeeps.opbuf,
      hpassed.acc_other, hpassed.cnt_other, hpassed.acc_row, hpassed.cnt_row⟩
  | none =>
    exact ⟨x.pop, hend Matrix.pop, hkeeps.active, hkeeps.resv, hkeeps.opbuf,
      hpassed.acc_other, hpassed.cnt_other, hpassed.acc_row, hpassed.cnt_row⟩

end Passes

end Sys2Proof.Machine


namespace Sys2Proof.Machine

/-! ### An element of a pass in integer mode (R58, R116) -/

theorem plainInt_unscaled {f : Fmt} (h : plainInt f = true) : f.scaled = false := by
  revert h
  cases f <;> decide

theorem Operand.blockOk_of_unscaled {x : Operand} (h : x.fmt.scaled = false) (k : Nat) : x.blockOk k = true := by
  rw [Operand.blockOk, Operand.blockAt, h, if_neg Bool.false_ne_true]
  decide

/-- Elements that are all present integers give all their products. -/
theorem products_of_ints {a w : Operand} {xs ys : List Int} (ha : a.fmt.scaled = false) (hw : w.fmt.scaled = false)
    (hx : xs.length = 128) (hy : ys.length = 128) (hxs : a.elems = xs.map fun v => .num (Exact.ofInt v 0 false))
    (hys : w.elems = ys.map fun v => .num (Exact.ofInt v 0 false)) :
    products a w 0 128 = (xs.zip ys).map fun p => some (.num ((Exact.ofInt p.1 0 false).mul (Exact.ofInt p.2 0 false)), flag0) := by
  refine List.ext_getElem (by simp [products, hx, hy]) fun i hi _ => ?_
  have hi : i < 128 := by simpa [products] using hi
  have hax : a.elems.getD i .absent = .num (Exact.ofInt (xs[i]'(by omega)) 0 false) := by
    rw [hxs, List.getD_eq_getElem?_getD, List.getElem?_map, List.getElem?_eq_getElem (by omega)]
    rfl
  have hwy : w.elems.getD i .absent = .num (Exact.ofInt (ys[i]'(by omega)) 0 false) := by
    rw [hys, List.getD_eq_getElem?_getD, List.getElem?_map, List.getElem?_eq_getElem (by omega)]
    rfl
  simp only [products, List.getElem_map, List.getElem_range, Nat.zero_add, hax, hwy, List.getElem_zip,
    Operand.blockOk_of_unscaled ha, Operand.blockOk_of_unscaled hw]
  rfl

/-- The exact product of two integers, at the scale of integers. -/
theorem Exact.atScale_mul_ofInt (u v : Int) : ((Exact.ofInt u 0 false).mul (Exact.ofInt v 0 false)).atScale 0 = u * v := by
  have hof : ∀ z : Int, (Exact.ofInt z 0 false).neg = decide (z < 0) ∧ (Exact.ofInt z 0 false).m = z.natAbs ∧
      (Exact.ofInt z 0 false).e = 0 := by
    intro z
    unfold Exact.ofInt
    split
    · next h => subst h; exact ⟨rfl, rfl, rfl⟩
    · exact ⟨rfl, rfl, rfl⟩
  obtain ⟨hun, hum, hue⟩ := hof u
  obtain ⟨hvn, hvm, hve⟩ := hof v
  unfold Exact.mul Exact.atScale
  dsimp only
  rw [hun, hvn, hum, hvm, hue, hve]
  simp only [add_zero, sub_self, Int.toNat_zero, pow_zero, mul_one, Nat.cast_mul, Int.natCast_natAbs]
  by_cases hu : u < 0 <;> by_cases hv : v < 0
  · simp [hu, hv, abs_of_neg]
  · simp [hu, hv, abs_of_neg, abs_of_nonneg (not_lt.1 hv)]
  · simp [hu, hv, abs_of_neg, abs_of_nonneg (not_lt.1 hu)]
  · simp [hu, hv, abs_of_nonneg (not_lt.1 hu), abs_of_nonneg (not_lt.1 hv)]

/-- The sum and the count of a pass over integers that are all present. -/
theorem passInt_of_ints {a w : Operand} {xs ys : List Int} (ha : a.fmt.scaled = false) (hw : w.fmt.scaled = false)
    (hx : xs.length = 128) (hy : ys.length = 128) (hxs : a.elems = xs.map fun v => .num (Exact.ofInt v 0 false))
    (hys : w.elems = ys.map fun v => .num (Exact.ofInt v 0 false)) :
    passInt a w = (((xs.zip ys).map fun p => p.1 * p.2).sum, 128) := by
  unfold passInt
  rw [products_of_ints ha hw hx hy hxs hys, List.filterMap_map]
  refine Prod.ext ?_ ?_
  · dsimp only
    rw [List.map_filterMap]
    simp only [Function.comp_apply, Option.map_some, Exact.atScale_mul_ofInt]
    rw [List.filterMap_eq_map']
  · simp [hx, hy]

/-- The pattern of an integer in a word is the word of the integer. -/
theorem ofNat_patternOf (z : Int) : BitVec.ofNat 32 (patternOf 32 z) = BitVec.ofInt 32 z := by
  rw [patternOf, ← BitVec.ofInt_natCast, Int.toNat_of_nonneg (Int.emod_nonneg _ (by decide))]
  refine BitVec.eq_of_toInt_eq ?_
  rw [BitVec.toInt_ofInt, BitVec.toInt_ofInt]
  exact Int.emod_bmod z (2 ^ 32)

/-- The accumulator of an integer pass: the sum clamped to the present range of I32, with MSTAT's bit when it moves (R58). -/
theorem accInt_eq (acc : Word) (v : Int) : accInt acc v =
    (BitVec.ofInt 32 (max (1 - 2 ^ 31) (min (acc.toInt + v) (2 ^ 31 - 1))),
      if acc.toInt + v < 1 - 2 ^ 31 ∨ 2 ^ 31 ≤ acc.toInt + v then 4 else 0) := by
  have hsat : saturate .i32 (acc.toInt + v) =
      if 2 ^ 31 - 1 < acc.toInt + v then (patternOf 32 (2 ^ 31 - 1), flagSAT)
      else if acc.toInt + v < -(2 ^ 31 - 1) then (patternOf 32 (-(2 ^ 31 - 1)), flagSAT)
      else (patternOf 32 (acc.toInt + v), flag0) := rfl
  unfold accInt
  rw [hsat]
  generalize acc.toInt + v = z
  by_cases hhi : 2 ^ 31 - 1 < z
  · rw [if_pos hhi, if_pos (by omega), show max (1 - 2 ^ 31 : Int) (min z (2 ^ 31 - 1)) = 2 ^ 31 - 1 by omega, ← ofNat_patternOf]
    rfl
  · rw [if_neg hhi]
    by_cases hlo : z < -(2 ^ 31 - 1)
    · rw [if_pos hlo, if_pos (by omega), show max (1 - 2 ^ 31 : Int) (min z (2 ^ 31 - 1)) = -(2 ^ 31 - 1) by omega, ← ofNat_patternOf]
      rfl
    · rw [if_neg hlo, if_neg (by omega), show max (1 - 2 ^ 31 : Int) (min z (2 ^ 31 - 1)) = z by omega, ← ofNat_patternOf]
      dsimp only
      rw [if_pos (by decide)]

/-- An element of a pass in integer mode with every element present (R58, R116). -/
theorem passElem_of_ints {a w : Operand} {xs ys : List Int} (free : Word) {acc cnt : Word} (hi : integerMode a.fmt w.fmt = true)
    (hx : xs.length = 128) (hy : ys.length = 128) (hxs : a.elems = xs.map fun v => .num (Exact.ofInt v 0 false))
    (hys : w.elems = ys.map fun v => .num (Exact.ofInt v 0 false)) (hc : cnt.toNat + 128 < 0xFFFFFFFF) :
    let v := acc.toInt + ((xs.zip ys).map fun p => p.1 * p.2).sum
    passElem free a w acc cnt = (BitVec.ofInt 32 (max (1 - 2 ^ 31) (min v (2 ^ 31 - 1))), cnt + 128,
      if v < 1 - 2 ^ 31 ∨ 2 ^ 31 ≤ v then 4 else 0) := by
  intro v
  obtain ⟨ha, hw⟩ : plainInt a.fmt = true ∧ plainInt w.fmt = true := by rwa [integerMode, Bool.and_eq_true] at hi
  have htree : ∀ f, plainInt f = true → treeClass f = false := by
    intro f
    cases f <;> decide
  have hpair : pairingOk a.fmt w.fmt = true := by
    rw [pairingOk, htree _ ha, htree _ hw]
    rfl
  have hcnt : BitVec.ofNat 32 (cnt.toNat + 128) = cnt + 128 := by
    refine BitVec.eq_of_toNat_eq ?_
    rw [BitVec.toNat_ofNat, BitVec.toNat_add]
    rfl
  unfold passElem
  rw [hpair, hi, passInt_of_ints (plainInt_unscaled ha) (plainInt_unscaled hw) hx hy hxs hys]
  dsimp only
  rw [if_neg (by decide), if_pos rfl, if_neg (by omega), accInt_eq]
  dsimp only
  rw [hcnt, show ∀ x : Word, x ||| 0 = x from fun x => BitVec.or_zero]

/-! ### Drains (R79, R120, R252) -/

theorem exec_drainCompletion {s : State} {core : Nat} {q : MCmd} {rest : List MCmd} (hd : (s.core core).mx.drain = true)
    (hq : (s.core core).mx.queue = q :: rest) : exec (.drainCompletion core) s = .next (s.endDrain core q) := by
  show execDrainCompletion core s = _
  unfold execDrainCompletion
  dsimp only
  rw [hd, Matrix.head?, hq]
  rfl

/-- The bytes of one drained row of the scratch form. -/
def Matrix.drainRow (x : Matrix) (d : DrainWord) (t : Codebook) (r : Nat) : List Byte :=
  let cs := x.drained d t (d.row + r) 0 128
  if d.mode = 2 then cs.flatMap fun v => natBytes 4 v else packRow (fmtAt d.fmt) cs

theorem packRow_length (f : Fmt) (cs : List Nat) : (packRow f cs).length = rowBytes (fmtWidth f) cs.length :=
  natBytes_length _ _

theorem Matrix.drained_length (x : Matrix) (d : DrainWord) (t : Codebook) (row c0 n : Nat) : (x.drained d t row c0 n).length = n := by
  simp [Matrix.drained]

theorem Matrix.drainRow_length (x : Matrix) (d : DrainWord) (t : Codebook) (r : Nat) : (x.drainRow d t r).length = d.rowLen := by
  unfold Matrix.drainRow DrainWord.rowLen
  dsimp only
  split
  · rw [List.length_flatMap]
    simp [natBytes_length, Matrix.drained_length]
  · rw [packRow_length, Matrix.drained_length]

/-- A byte of the rows of a drain, by row and place in the row. -/
theorem Matrix.drainRows_getD (x : Matrix) (d : DrainWord) (t : Codebook) {i : Nat} (hi : i < d.rows * d.rowLen) :
    ((List.range d.rows).flatMap (x.drainRow d t)).getD i 0 = (x.drainRow d t (i / d.rowLen)).getD (i % d.rowLen) 0 := by
  have hpos : 0 < d.rowLen := Nat.pos_of_ne_zero fun h => by rw [h] at hi; omega
  have hrow : i / d.rowLen < d.rows := (Nat.div_lt_iff_lt_mul hpos).2 hi
  have h := getElem?_flatMap_of_length (l := List.range d.rows) (f := x.drainRow d t) (n := d.rowLen)
    (fun r _ => x.drainRow_length d t r) (Nat.mod_lt i hpos) (i / d.rowLen)
  rw [Nat.mul_comm, Nat.div_add_mod, List.getElem?_range hrow] at h
  rw [List.getD_eq_getElem?_getD, List.getD_eq_getElem?_getD, h]
  rfl

theorem Matrix.drainRows_length (x : Matrix) (d : DrainWord) (t : Codebook) :
    ((List.range d.rows).flatMap (x.drainRow d t)).length = d.rows * d.rowLen := by
  rw [List.length_flatMap]
  simp [Matrix.drainRow_length]

/-- A drain leaves its core's engine without the command, and everything else of it as it was. -/
theorem State.endDrain_mx {s : State} {core : Nat} {q : MCmd} {rest : List MCmd} (hq : (s.core core).mx.queue = q :: rest) :
    ((s.endDrain core q).core core).mx = { (s.core core).mx with queue := rest, run := none, drain := false } := by
  have hpop : (s.core core).mx.pop = { (s.core core).mx with queue := rest, run := none, drain := false } := by
    rw [Matrix.pop, hq]
    rfl
  have hcore : ((s.updMx core Matrix.pop).core core).mx = { (s.core core).mx with queue := rest, run := none, drain := false } := by
    rw [State.core_updMx_self, hpop]
  unfold State.endDrain
  dsimp only
  split
  · rw [State.giveSignal?_core, State.core_unlock, if_pos rfl]
    exact hcore
  · exact hcore

theorem State.fly?_updFly_self (s : State) {id : Nat} {f : Fly} {u : Fly → Fly} (hf : s.fly? id = some f) (hu : ∀ x, (u x).id = x.id) :
    (s.updFly id u).fly? id = some (u f) := by
  unfold State.fly? at hf ⊢
  rw [State.updFly_flys, findBy_updateBy _ fun x => by rw [hu], hf, Option.map_some, if_pos (findBy_some hf).1]

/-- A register drain lands its elements in the register that awaits them. -/
theorem State.endDrain_register {s : State} {core : Nat} {q : MCmd} {f : Fly} (hs : (drainWord (q.args.getD 0 0)).scratch = false)
    (hf : s.fly? q.fly = some f) : ∃ f', (s.endDrain core q).fly? q.fly = some f' ∧ f'.ready = f.mask ∧
      ∀ r vs, (r, vs) ∈ f'.vals → vs = ((s.core core).mx.drained (drainWord (q.args.getD 0 0)) q.cb (drainWord (q.args.getD 0 0)).row
        (32 * (drainWord (q.args.getD 0 0)).colq) 32).map fun v => BitVec.ofNat 32 v := by
  unfold State.endDrain
  dsimp only
  rw [hs, if_neg Bool.false_ne_true]
  refine ⟨_, State.fly?_updFly_self _ hf fun _ => rfl, rfl, fun r vs h => ?_⟩
  obtain ⟨p, -, hp⟩ := List.mem_map.1 h
  exact (Prod.ext_iff.1 hp).2.symm

/-- A scratch drain: its rows are there, the signal's word, and the rest of the scratch is as before. -/
theorem State.endDrain_scratch {s : State} {core : Nat} {q : MCmd} {g : Group} (hs : (drainWord (q.args.getD 0 0)).scratch = true)
    (hg : s.group? q.gid = some g) : Arrives s (s.endDrain core q) q.signal ∧ ∀ b,
      (s.endDrain core q).locByte (.sram q.gid b) 0 = (Signal.wordByte q.signal 0 q.gid b).getD
        (if (q.args.getD 1 0).toNat ≤ b ∧ b < (q.args.getD 1 0).toNat
            + (drainWord (q.args.getD 0 0)).rows * (drainWord (q.args.getD 0 0)).rowLen
          then ((s.core core).mx.drainRow (drainWord (q.args.getD 0 0)) q.cb
              ((b - (q.args.getD 1 0).toNat) / (drainWord (q.args.getD 0 0)).rowLen)).getD
            ((b - (q.args.getD 1 0).toNat) % (drainWord (q.args.getD 0 0)).rowLen) 0
          else s.locByte (.sram q.gid b) 0) := by
  have heq : s.endDrain core q = ((((s.updMx core Matrix.pop).storeLocal (.sram q.gid (q.args.getD 1 0).toNat)
      ((List.range (drainWord (q.args.getD 0 0)).rows).flatMap ((s.core core).mx.drainRow (drainWord (q.args.getD 0 0)) q.cb))).unlock
        core q.id).giveSignal? q.signal 0) := by
    unfold State.endDrain
    dsimp only
    rw [hs, if_pos rfl]
    rfl
  have hkeeps : KeepsBars s (((s.updMx core Matrix.pop).storeLocal (.sram q.gid (q.args.getD 1 0).toNat)
      ((List.range (drainWord (q.args.getD 0 0)).rows).flatMap ((s.core core).mx.drainRow (drainWord (q.args.getD 0 0)) q.cb))).unlock
        core q.id) :=
    ((KeepsBars.of_groups rfl : KeepsBars s (s.updMx core Matrix.pop)).trans (.storeLocal _ _ _)).trans (.of_groups rfl)
  obtain ⟨g', hg'⟩ := hkeeps.group? hg
  rw [heq]
  refine ⟨hkeeps.arrives q.signal 0, fun b => ?_⟩
  rw [State.locByte_giveSignal? _ _ _ _ _ hg']
  have hstore := State.locByte_storeLocal (s.updMx core Matrix.pop) (k := q.gid) (g := g) hg (q.args.getD 1 0).toNat
    ((List.range (drainWord (q.args.getD 0 0)).rows).flatMap ((s.core core).mx.drainRow (drainWord (q.args.getD 0 0)) q.cb)) q.gid b
  rw [Matrix.drainRows_length] at hstore
  simp only [true_and] at hstore
  refine congrArg _ (Eq.trans hstore ?_)
  split
  · next h => exact Matrix.drainRows_getD _ _ _ (by omega)
  · rfl

end Sys2Proof.Machine

section
open Sys2Proof Sys2Proof.Machine

/-- Settles O44: each step of the engine by the lemma about it. -/
theorem matrixEngineRuns : Obligations.MatrixEngineRuns := by
  unfold Obligations.MatrixEngineRuns
  intro s core y
  refine ⟨?_, ?_, ?_, ?_, fun free a w xs ys acc cnt hi hx hy hxs hys hc => passElem_of_ints free hi hx hy hxs hys hc, ?_⟩
  · intro q rest hqueue hrun hdrain runs arg
    have h : AtHead s core q rest := ⟨hqueue, hrun, hdrain⟩
    refine ⟨fun r hk hr hc => h.runs_rels hk hr hc, h.runs_scl, h.runs_swp, fun r hk hr => ?_, fun hk => ?_, h.runs_drn,
      fun hc hk => ?_⟩
    · obtain ⟨hfmt, hblk, hscale, hbytes⟩ := y.loadPlane_spec r (128 * bitsOf (q.args.getD 1 0).toNat 0 16)
        (bitsOf (q.args.getD 1 0).toNat 16 10) (bitsOf (q.args.getD 1 0).toNat 16 10 + 1)
      refine ⟨_, h.runs_lds hk hr, hfmt, hblk, hscale, fun i hi => ?_⟩
      rw [hbytes i hi, bitsOf, pow_zero, Nat.div_one]
    · have hb : bitsOf (q.args.getD 0 0).toNat 0 9 = (q.args.getD 0 0).toNat % 2 ^ 9 := by rw [bitsOf, pow_zero, Nat.div_one]
      have hget := y.clearRows_get (bitsOf (q.args.getD 0 0).toNat 0 9) (bitsOf (q.args.getD 0 0).toNat 9 9 + 1)
      have hz := h.runs_zero hk
      rw [hb] at hget hz
      exact ⟨_, hz, rfl, rfl, hget⟩
    · exact ⟨_, h.runs_loop hk hc, h.looped_spec⟩
  · intro p q w a hrun hq hres hchain hp hw ha d i act
    have hcores := State.chainCores_alone hchain
    obtain ⟨z, heq, hactive, hresv, hopbuf, hpassed⟩ := singlePass_spec hp hq hw ha
    have hfree : (([core].foldl (fun s k => s.passOn core p k) s).passEnd q p [core]).free = s.free + 128 := by rw [heq]; rfl
    refine ⟨_, z, 0, exec_matrixPass hrun hq hcores (by simpa using ⟨by rw [hrun]; rfl, hres⟩),
      heq.trans (congrArg (s.updMx core fun _ => z).withFree hfree.symm), hactive, hresv, hopbuf, fun k => ?_⟩
    exact ⟨fun hk => ⟨hpassed.acc_other k hk, hpassed.cnt_other k hk⟩,
      fun hk hpair => ⟨hpassed.acc_row 0 k hk hpair, hpassed.cnt_row 0 k hk hpair⟩⟩
  · intro p q ks hrun hq hcores hn hp hready
    obtain ⟨hout, hin⟩ := chainPass_spec hp hq hn
    refine ⟨_, exec_matrixPass hrun hq hcores hready, hout, fun k hk qk w a hqk hw ha => ?_⟩
    obtain ⟨hactive, hopbuf, hpassed⟩ := hin k hk qk w a hqk hw ha
    exact ⟨hactive, hopbuf, fun n => ⟨fun hn => ⟨hpassed.acc_other n hn, hpassed.cnt_other n hn⟩,
      fun hn hpair => ⟨hpassed.acc_row 0 n hn hpair, hpassed.cnt_row 0 n hn hpair⟩⟩⟩
  · intro q rest g hqueue hrun hdrain hk hg n all
    have h : AtHead s core q rest := ⟨hqueue, hrun, hdrain⟩
    refine ⟨fun hn hm hnodup hall => ?_, fun hn hm hall => ?_, fun hn => ?_⟩
    · have hforms := h.chn_forms hk hg hn hm
      rw [if_pos hall] at hforms
      refine ⟨_, exec_commandHead hforms, fun k hmem => ?_, fun k hmem => ?_⟩
      · rw [State.core_foldl_updMx _ _ (.inl hnodup), if_pos hmem]
      · rw [State.core_foldl_updMx _ _ (.inl hnodup), if_neg hmem]
    · have hforms := h.chn_forms hk hg hn hm
      rw [if_neg fun h' => Bool.false_ne_true (hall.symm.trans h')] at hforms
      exact exec_commandHead_waits hforms
    · have hfold := State.core_foldl_updMx (fun y => { y with chain := 1 }) (s.chainCores core) (.inr fun _ => rfl) s
      refine ⟨_, exec_commandHead (h.chn_dissolves hk hg hn), ?_, fun k hmem => ?_⟩
      · have hdrop : (s.core core).mx.queue.drop 1 = rest := by rw [hqueue]; rfl
        rw [State.core_updMx_self, hfold]
        split <;> exact hdrop
      · rw [State.core_updMx]
        split
        · next hc => rw [hfold, if_pos (hc ▸ hmem)]; rfl
        · rw [hfold, if_pos hmem]
  · intro q rest hdrain hqueue d
    refine ⟨_, exec_drainCompletion hdrain hqueue, State.endDrain_mx hqueue, fun f hs hf => ?_, fun g hs hg => ?_⟩
    · obtain ⟨f', hf', hready, hvals⟩ := State.endDrain_register (core := core) hs hf
      refine ⟨f', hf', hready, fun r vs hmem i hi => ?_⟩
      rw [hvals r vs hmem, List.getD_eq_getElem?_getD, Matrix.drained, List.map_map, List.getElem?_map, List.getElem?_range hi]
      rfl
    · exact State.endDrain_scratch hs hg

end

/-! ## Rounding an exact value once (R56, R64, R65)

A magnitude of the model denotes a real number. The lemmas of this part say that `roundTo` gives the nearest multiple of
a power of two, ties to even, and that `roundFloat` gives the nearest number of its format, or an overflow from half a
step above the largest one on. -/

namespace Sys2Proof.Machine

/-! ### What a magnitude denotes -/

/-- The magnitude that is the real number V: exactly, or up to a part of its last digit that `sticky` stands for. -/
structure Denotes (x : Exact) (V : ℝ) : Prop where
  lower : (x.m : ℝ) * 2 ^ x.e ≤ V
  upper : V < (x.m + 1 : ℝ) * 2 ^ x.e
  exact : x.sticky = false → V = x.m * 2 ^ x.e
  inexact : x.sticky = true → (x.m : ℝ) * 2 ^ x.e < V

theorem two_zpow_pos (e : ℤ) : (0 : ℝ) < 2 ^ e := zpow_pos (by norm_num) e

theorem Denotes.of_exact {x : Exact} (h : x.sticky = false) : Denotes x (x.m * 2 ^ x.e) where
  lower := le_refl _
  upper := by have := two_zpow_pos x.e; linarith
  exact _ := rfl
  inexact h' := by rw [h] at h'; cases h'

theorem Denotes.nonneg {x : Exact} {V : ℝ} (h : Denotes x V) : 0 ≤ V :=
  le_trans (mul_nonneg (Nat.cast_nonneg _) (two_zpow_pos _).le) h.lower

/-- A natural number nearest to a real one, even where another is as near. -/
structure NearestNat (W : ℝ) (n : ℕ) : Prop where
  close : |W - n| ≤ 1 / 2
  even : |W - n| = 1 / 2 → n % 2 = 0

theorem NearestNat.of_eq {W : ℝ} {n : ℕ} (h : W = n) : NearestNat W n where
  close := by rw [h, sub_self, abs_zero]; norm_num
  even h' := by rw [h, sub_self, abs_zero] at h'; norm_num at h'

/-- Cutting a number in a whole and a part below 1, and rounding up from one half on, odd wholes at one half. -/
theorem NearestNat.of_part {W t : ℝ} {n : ℕ} {up : Bool} (hW : W = n + t) (h0 : 0 ≤ t) (h1 : t < 1)
    (hup : up = true ↔ 1 / 2 < t ∨ (t = 1 / 2 ∧ n % 2 = 1)) : NearestNat W (if up then n + 1 else n) := by
  cases up with
  | true =>
    have ht : 1 / 2 ≤ t := by rcases hup.1 rfl with h | h <;> linarith [h]
    have habs : |W - ((n + 1 : ℕ) : ℝ)| = 1 - t := by
      rw [hW, Nat.cast_add, Nat.cast_one, abs_of_nonpos (by linarith)]
      ring
    refine ⟨by rw [if_pos rfl, habs]; linarith, fun h => ?_⟩
    rw [if_pos rfl, habs] at h
    rcases hup.1 rfl with h' | ⟨-, h'⟩
    · linarith
    · rw [if_pos rfl]; omega
  | false =>
    have ht : t ≤ 1 / 2 := by
      by_contra h
      exact Bool.false_ne_true (hup.2 (.inl (not_le.1 h)))
    have habs : |W - (n : ℝ)| = t := by
      rw [hW, add_sub_cancel_left, abs_of_nonneg h0]
    refine ⟨by simpa [habs] using ht, fun h => ?_⟩
    rw [if_neg Bool.false_ne_true, habs] at h
    rw [if_neg Bool.false_ne_true]
    by_contra hodd
    exact Bool.false_ne_true (hup.2 (.inr ⟨h, by omega⟩))

/-- A value as the digits of its magnitude and a part d of the last one; the part is what `sticky` tells of. -/
theorem Denotes.part {x : Exact} {V : ℝ} (h : Denotes x V) :
    ∃ d : ℝ, V = (x.m + d) * 2 ^ x.e ∧ 0 ≤ d ∧ d < 1 ∧ (x.sticky = true ↔ d ≠ 0) := by
  have hpos := two_zpow_pos x.e
  obtain ⟨d, hV⟩ : ∃ d : ℝ, V = (x.m + d) * 2 ^ x.e := ⟨V / 2 ^ x.e - x.m, by field_simp; ring⟩
  refine ⟨d, hV, ?_, ?_, ?_⟩
  · have := h.lower
    rw [hV] at this
    nlinarith
  · have := h.upper
    rw [hV] at this
    nlinarith
  · cases hx : x.sticky with
    | false =>
      have := h.exact hx
      rw [hV] at this
      have : d = 0 := by nlinarith
      simp [this]
    | true =>
      have := h.inexact hx
      rw [hV] at this
      have : 0 < d := by nlinarith
      simp [this.ne']

section Part

variable {r k n : ℕ} {d : ℝ} {sticky : Bool} (hd0 : 0 ≤ d) (hsticky : sticky = true ↔ d ≠ 0)

include hd0 hsticky

/-- The test of `roundTo` for rounding up, on the part that is cut off: r digits below the cut, and d (R64). -/
theorem roundUp_iff (hd1 : d < 1) : (decide (2 ^ k < r) || (r == 2 ^ k && (sticky || n % 2 == 1))) = true ↔
    1 / 2 < (r + d) / 2 ^ (k + 1) ∨ ((r + d) / 2 ^ (k + 1) = 1 / 2 ∧ n % 2 = 1) := by
  have hhalf : (1 / 2 : ℝ) * (2 ^ k * 2) = 2 ^ k := by ring
  rw [pow_succ, lt_div_iff₀ (by positivity), div_eq_iff (by positivity), hhalf, Bool.or_eq_true, Bool.and_eq_true,
    Bool.or_eq_true, decide_eq_true_iff, beq_iff_eq, beq_iff_eq, hsticky]
  rcases lt_trichotomy r (2 ^ k) with hlt | heq | hgt
  · have : (r : ℝ) + 1 ≤ 2 ^ k := by exact_mod_cast hlt
    constructor
    · rintro (h | ⟨h, -⟩) <;> omega
    · rintro (h | ⟨h, -⟩) <;> linarith
  · have : (r : ℝ) = 2 ^ k := by rw [heq]; push_cast; rfl
    rw [this]
    constructor
    · rintro (h | ⟨-, h | h⟩)
      · omega
      · left; have := lt_of_le_of_ne hd0 h.symm; linarith
      · rcases eq_or_lt_of_le hd0 with h0 | h0
        · right; exact ⟨by rw [← h0, add_zero], h⟩
        · left; linarith
    · rintro (h | ⟨-, h⟩)
      · right; exact ⟨heq, .inl (by intro h0; rw [h0] at h; linarith)⟩
      · exact .inr ⟨heq, .inr h⟩
  · have : (2 : ℝ) ^ k < r := by exact_mod_cast hgt
    exact ⟨fun _ => .inl (by linarith), fun _ => .inl hgt⟩

/-- The test of `roundTo` for a lost part. -/
theorem lost_iff : (decide (r ≠ 0) || sticky) = true ↔ (r + d) / 2 ^ (k + 1) ≠ 0 := by
  have hr0 : (0 : ℝ) ≤ r := Nat.cast_nonneg r
  have hpow : (2 : ℝ) ^ (k + 1) ≠ 0 := by positivity
  rw [Bool.or_eq_true, decide_eq_true_iff, hsticky, Ne, Ne, Ne, div_eq_zero_iff, or_iff_left hpow,
    add_eq_zero_iff_of_nonneg hr0 hd0, Nat.cast_eq_zero, not_and_or]

end Part

/-- `roundTo` to nearest gives the nearest multiple of 2^q, and tells whether it is the value itself (R64). -/
theorem roundTo_nearest {x : Exact} {V : ℝ} (h : Denotes x V) (q : ℤ) (hq : x.sticky = true → x.e < q) :
    NearestNat (V / 2 ^ q) (roundTo x q .nearest).1 ∧
    ((roundTo x q .nearest).2 = true ↔ V / 2 ^ q ≠ (roundTo x q .nearest).1) := by
  unfold roundTo
  split
  · next hle =>
    have hs : x.sticky = false := by
      cases hx : x.sticky with
      | false => rfl
      | true => exact absurd (hq hx) (by omega)
    have hW : V / 2 ^ q = ((x.m * 2 ^ (x.e - q).toNat : ℕ) : ℝ) := by
      have hpow : (2 : ℝ) ^ (x.e - q).toNat = 2 ^ (x.e - q) := by
        rw [← zpow_natCast, Int.toNat_of_nonneg (by omega)]
      rw [h.exact hs, Nat.cast_mul, Nat.cast_pow, Nat.cast_ofNat, hpow, zpow_sub₀ (by norm_num), mul_div_assoc]
    refine ⟨.of_eq hW, ?_⟩
    dsimp only
    rw [hs]
    exact ⟨fun hf => (by cases hf), fun hf => absurd hW hf⟩
  · next hlt =>
    obtain ⟨k, hk⟩ : ∃ k : ℕ, (q - x.e).toNat = k + 1 := ⟨(q - x.e).toNat - 1, by omega⟩
    have hpow : (2 : ℝ) ^ q = 2 ^ x.e * 2 ^ (k + 1) := by
      rw [show q = x.e + (k + 1 : ℕ) by omega, zpow_add₀ (by norm_num), zpow_natCast]
    have hpos := two_zpow_pos x.e
    have hkpos : (0 : ℝ) < 2 ^ (k + 1) := by positivity
    obtain ⟨d, hV, hd0, hd1, hsticky⟩ := h.part
    have hm : (x.m : ℝ) = (x.m / 2 ^ (k + 1) : ℕ) * 2 ^ (k + 1) + (x.m % 2 ^ (k + 1) : ℕ) := by
      have := Nat.div_add_mod' x.m (2 ^ (k + 1))
      exact_mod_cast this.symm
    have hr : x.m % 2 ^ (k + 1) < 2 ^ (k + 1) := Nat.mod_lt _ (by positivity)
    rw [hk]
    dsimp only
    rw [Nat.add_sub_cancel]
    -- n whole multiples of 2^q, and r digits below
    generalize x.m / 2 ^ (k + 1) = n at hm ⊢
    generalize x.m % 2 ^ (k + 1) = r at hm hr ⊢
    have hr1 : (r : ℝ) + 1 ≤ 2 ^ (k + 1) := by exact_mod_cast hr
    have hW : V / 2 ^ q = n + (r + d) / 2 ^ (k + 1) := by
      rw [hV, hpow, hm]
      field_simp
      ring
    have ht0 : 0 ≤ (r + d) / 2 ^ (k + 1) := by positivity
    have ht1 : (r + d) / 2 ^ (k + 1) < 1 := by rw [div_lt_one hkpos]; linarith
    have hup := roundUp_iff (r := r) (k := k) (n := n) hd0 hsticky hd1
    refine ⟨.of_part hW ht0 ht1 hup, ?_⟩
    rw [lost_iff (r := r) (k := k) hd0 hsticky, hW]
    generalize (r + d) / 2 ^ (k + 1) = t at *
    by_cases hz : t = 0
    · have : (decide (2 ^ k < r) || (r == 2 ^ k && (x.sticky || n % 2 == 1))) = false := by
        rw [Bool.eq_false_iff, Ne, hup, hz]
        norm_num
      rw [this]
      simp [hz]
    · refine ⟨fun _ h => ?_, fun _ => hz⟩
      split at h
      · push_cast at h; linarith
      · exact hz (by linarith)

end Sys2Proof.Machine


namespace Sys2Proof.Machine

/-! ### The numbers of a format -/

/-- The magnitude of a code without its sign, in units of the format's smallest number. -/
def magOf (mb c : ℕ) : ℕ := (if c / 2 ^ mb = 0 then c % 2 ^ mb else 2 ^ mb + c % 2 ^ mb) * 2 ^ (max (c / 2 ^ mb) 1 - 1)

/-- The code of n units of 2^Q: a normal number has its leading digit in n, and only Q = 0 takes subnormal ones. -/
theorem magOf_code {mb n Q : ℕ} (hn : n ≤ 2 ^ (mb + 1)) (h : 2 ^ mb ≤ n ∨ Q = 0) : magOf mb (Q * 2 ^ mb + n) = n * 2 ^ Q := by
  have hpos : 0 < 2 ^ mb := by positivity
  rw [pow_succ] at hn
  rcases lt_or_ge n (2 ^ mb) with hlt | hge
  · have hQ : Q = 0 := h.resolve_left (by omega)
    subst hQ
    rw [magOf, zero_mul, zero_add, Nat.div_eq_of_lt hlt, if_pos rfl, Nat.mod_eq_of_lt hlt]
    rfl
  · rcases lt_or_ge n (2 * 2 ^ mb) with hlt2 | hge2
    · obtain ⟨r, rfl⟩ : ∃ r, n = 2 ^ mb + r := ⟨n - 2 ^ mb, by omega⟩
      have hdiv : (Q * 2 ^ mb + (2 ^ mb + r)) / 2 ^ mb = Q + 1 := by
        rw [← add_assoc, ← Nat.succ_mul, Nat.add_comm, Nat.add_mul_div_right _ _ hpos, Nat.div_eq_of_lt (by omega)]; omega
      have hmod : (Q * 2 ^ mb + (2 ^ mb + r)) % 2 ^ mb = r := by
        rw [← add_assoc, ← Nat.succ_mul, Nat.add_comm, Nat.add_mul_mod_self_right, Nat.mod_eq_of_lt (by omega)]
      rw [magOf, hdiv, hmod, if_neg (by omega), show max (Q + 1) 1 - 1 = Q by omega]
    · obtain rfl : n = 2 ^ mb * 2 := by omega
      have hdiv : (Q * 2 ^ mb + 2 ^ mb * 2) / 2 ^ mb = Q + 2 := by
        rw [Nat.mul_comm (2 ^ mb), ← Nat.add_mul, Nat.mul_div_cancel _ hpos]
      have hmod : (Q * 2 ^ mb + 2 ^ mb * 2) % 2 ^ mb = 0 := by
        rw [Nat.mul_comm (2 ^ mb), ← Nat.add_mul, Nat.mul_mod_left]
      rw [magOf, hdiv, hmod, if_neg (by omega), show max (Q + 2) 1 - 1 = Q + 1 by omega, pow_succ]
      ring

/-- Every code is a number of units of its own, below the double of the leading digit. -/
theorem magOf_eq (mb c : ℕ) : ∃ N E, N < 2 ^ (mb + 1) ∧ magOf mb c = N * 2 ^ E := by
  have hm : c % 2 ^ mb < 2 ^ mb := Nat.mod_lt _ (by positivity)
  refine ⟨_, _, ?_, rfl⟩
  rw [pow_succ]
  split <;> omega

/-- The scale of a format: its smallest number is 2 to minus this. -/
def FParam.fine (p : FParam) : ℤ := p.bias + p.mbits - 1

/-- The code that `encodeFloat` gives to n units of 2^Q. -/
theorem encodeFloat_eq (p : FParam) (neg : Bool) {n Q : ℕ} (h : 2 ^ p.mbits ≤ n ∨ Q = 0) :
    encodeFloat p neg n (Q - p.fine) = (if neg then 2 ^ (p.ebits + p.mbits) else 0) + (Q * 2 ^ p.mbits + n) := by
  have hpos : 0 < 2 ^ p.mbits := by positivity
  unfold encodeFloat FParam.fine
  by_cases htop : n = 2 ^ (p.mbits + 1)
  · rw [if_pos htop]
    dsimp only
    have hdiv : n / 2 = 2 ^ p.mbits := by rw [htop, pow_succ]; omega
    rw [hdiv, if_neg (by omega), show ((Q : ℤ) - (p.bias + p.mbits - 1) + 1 + p.mbits + p.bias).toNat = Q + 2 by omega, htop, pow_succ]
    ring_nf
    omega
  · rw [if_neg htop]
    rw [pow_succ] at htop
    dsimp only
    split
    · next hlt =>
      rw [h.resolve_left (by omega), zero_mul, zero_add]
    · next hge =>
      rw [show ((Q : ℤ) - (p.bias + p.mbits - 1) + p.mbits + p.bias).toNat = Q + 1 by omega, Nat.succ_mul]
      omega

/-- A format whose largest number is N units of 2^Q, with a leading digit. -/
structure Regular (p : FParam) (N Q : ℕ) : Prop where
  mbits : 1 ≤ p.mbits
  big : decodeFloat p p.maxCode = .num ⟨false, N, Q - p.fine, false⟩
  lead : 2 ^ p.mbits ≤ N
  top : N < 2 ^ (p.mbits + 1)
  code : p.maxCode = Q * 2 ^ p.mbits + N
  room : p.maxCode < 2 ^ (p.ebits + p.mbits)

theorem regular_f32 : Regular fpF32 (2 ^ 24 - 1) 253 := ⟨by decide, by decide, by decide, by decide, by decide, by decide⟩
theorem regular_f16 : Regular fpF16 (2 ^ 11 - 1) 29 := ⟨by decide, by decide, by decide, by decide, by decide, by decide⟩
theorem regular_bf16 : Regular fpBF16 (2 ^ 8 - 1) 253 := ⟨by decide, by decide, by decide, by decide, by decide, by decide⟩
theorem regular_e4m3 : Regular fpE4M3 14 14 := ⟨by decide, by decide, by decide, by decide, by decide, by decide⟩

/-- A code up to the largest: n units of 2^q that are no more than the largest number. -/
theorem Regular.code_le {p : FParam} {N Q n q : ℕ} (h : Regular p N Q) (hn : n ≤ 2 ^ (p.mbits + 1)) (hlead : 2 ^ p.mbits ≤ n ∨ q = 0)
    (hle : n * 2 ^ q ≤ N * 2 ^ Q) : q * 2 ^ p.mbits + n ≤ p.maxCode := by
  have hlo := h.lead
  have hhi := h.top
  rw [pow_succ] at hn hhi
  rw [h.code]
  rcases lt_trichotomy q Q with hlt | heq | hgt
  · have : (q + 1) * 2 ^ p.mbits ≤ Q * 2 ^ p.mbits := Nat.mul_le_mul_right _ hlt
    rw [Nat.succ_mul] at this
    omega
  · subst heq
    have := Nat.le_of_mul_le_mul_right hle (by positivity)
    omega
  · have hn2 : 2 ^ p.mbits ≤ n := hlead.resolve_right (by omega)
    have hpow : 2 ^ (Q + 1) ≤ 2 ^ q := Nat.pow_le_pow_right (by decide) hgt
    have : 2 ^ p.mbits * 2 ^ (Q + 1) ≤ n * 2 ^ q := Nat.mul_le_mul hn2 hpow
    have h2 : N * 2 ^ Q < 2 ^ p.mbits * 2 * 2 ^ Q := Nat.mul_lt_mul_of_pos_right hhi (by positivity)
    rw [pow_succ] at this
    nlinarith

/-! ### The nearest number -/

/-- A code is that of the number nearest to U units, an even one where another number is as near. -/
structure NearestCode (mb top : ℕ) (U : ℝ) (c : ℕ) : Prop where
  le : c ≤ top
  best : ∀ (Y : ℝ) (y : ℕ), y ≤ top → |Y| = magOf mb y →
    |U - magOf mb c| ≤ |U - Y| ∧ (|U - magOf mb c| = |U - Y| → Y ≠ magOf mb c → c % 2 = 0)

/-- Where n is nearest to W among the natural numbers, it is nearest among all numbers that are whole or lie below a
leading digit that W has. -/
theorem NearestNat.best {W : ℝ} {n B : ℕ} (h : NearestNat W n) {Y : ℝ} (hY : (∃ j : ℤ, Y = j) ∨ (Y < B ∧ (B : ℝ) ≤ W)) :
    |W - n| ≤ |W - Y| ∧ (|W - n| = |W - Y| → Y ≠ n → n % 2 = 0) := by
  have hint : ∀ j : ℤ, (j : ℝ) ≠ n → 1 / 2 ≤ |W - j| := by
    intro j hj
    have hjn : (1 : ℝ) ≤ |(j : ℝ) - n| := by
      have : (j - n : ℤ) ≠ 0 := fun h0 => hj (by exact_mod_cast sub_eq_zero.1 h0)
      exact_mod_cast Int.one_le_abs this
    have htri : |(j : ℝ) - n| ≤ |W - j| + |W - n| := by
      have := abs_sub_abs_le_abs_sub (j - n : ℝ) (W - n)
      have h2 : |(j : ℝ) - n - (W - n)| = |W - j| := by rw [← abs_neg]; congr 1; ring
      linarith
    linarith [h.close]
  have hwhole : ∀ j : ℤ, |W - n| ≤ |W - j| ∧ (|W - n| = |W - j| → (j : ℝ) ≠ n → n % 2 = 0) := by
    intro j
    by_cases hj : (j : ℝ) = n
    · exact ⟨by rw [hj], fun _ hne => absurd hj hne⟩
    · exact ⟨h.close.trans (hint j hj), fun heq _ => h.even (le_antisymm h.close (heq ▸ hint j hj))⟩
  rcases hY with ⟨j, rfl⟩ | ⟨hlt, hle⟩
  · exact hwhole j
  · have hB := (hwhole B).1
    rw [Int.cast_natCast] at hB
    rw [abs_of_nonneg (by linarith : (0 : ℝ) ≤ W - B)] at hB
    have hYpos : |W - Y| = W - Y := abs_of_nonneg (by linarith)
    rw [hYpos]
    exact ⟨by linarith, fun heq => by linarith⟩

end Sys2Proof.Machine


namespace Sys2Proof.Machine

/-! ### Comparisons of exact values -/

/-- The real number that an exact value without a hidden part is. -/
noncomputable def Exact.real (x : Exact) : ℝ := (if x.neg then -1 else 1) * (x.m * 2 ^ x.e)

/-- A value at a scale no coarser than its own is the same number. -/
theorem Exact.atScale_real (x : Exact) {e0 : ℤ} (h : e0 ≤ x.e) : (x.atScale e0 : ℝ) * 2 ^ e0 = x.real := by
  have hpow : (2 : ℝ) ^ (x.e - e0).toNat * 2 ^ e0 = 2 ^ x.e := by
    rw [← zpow_natCast, Int.toNat_of_nonneg (by omega), ← zpow_add₀ (by norm_num), sub_add_cancel]
  unfold Exact.atScale Exact.real
  dsimp only
  cases x.neg with
  | true =>
    rw [if_pos rfl, if_pos rfl, ← hpow]
    push_cast
    ring
  | false =>
    rw [if_neg Bool.false_ne_true, if_neg Bool.false_ne_true, ← hpow]
    push_cast
    ring

theorem Exact.lt_iff (x y : Exact) : x.lt y = true ↔ x.real < y.real := by
  unfold Exact.lt
  dsimp only
  rw [decide_eq_true_iff, ← x.atScale_real (min_le_left x.e y.e), ← y.atScale_real (min_le_right x.e y.e),
    mul_lt_mul_iff_left₀ (two_zpow_pos _)]
  exact Int.cast_lt.symm

/-! ### One rounding into a format (R55, R56, R65) -/

section Round

variable {p : FParam} {N Q : ℕ} {x : Exact} {V : ℝ}

/-- The exponent of the leading digit of a magnitude that is not 0. -/
theorem Denotes.lead (h : Denotes x V) (hm : x.m ≠ 0) : (2 : ℝ) ^ (x.e + bitLen x.m - 1) ≤ V ∧ V < 2 ^ (x.e + bitLen x.m) := by
  have hL : bitLen x.m = Nat.log2 x.m + 1 := if_neg hm
  have hlo : ((2 ^ Nat.log2 x.m : ℕ) : ℝ) ≤ x.m := Nat.cast_le.2 (Nat.log2_self_le hm)
  have hhi : (x.m : ℝ) + 1 ≤ ((2 ^ (Nat.log2 x.m + 1) : ℕ) : ℝ) := by exact_mod_cast Nat.lt_log2_self
  have hpos := two_zpow_pos x.e
  rw [hL]
  constructor
  · calc (2 : ℝ) ^ (x.e + ((Nat.log2 x.m + 1 : ℕ) : ℤ) - 1)
        = ((2 ^ Nat.log2 x.m : ℕ) : ℝ) * 2 ^ x.e := by
          rw [show x.e + ((Nat.log2 x.m + 1 : ℕ) : ℤ) - 1 = (Nat.log2 x.m : ℕ) + x.e by push_cast; ring, zpow_add₀ (by norm_num), zpow_natCast]
          push_cast
          rfl
      _ ≤ x.m * 2 ^ x.e := mul_le_mul_of_nonneg_right hlo hpos.le
      _ ≤ V := h.lower
  · calc V < (x.m + 1 : ℝ) * 2 ^ x.e := h.upper
      _ ≤ ((2 ^ (Nat.log2 x.m + 1) : ℕ) : ℝ) * 2 ^ x.e := mul_le_mul_of_nonneg_right hhi hpos.le
      _ = 2 ^ (x.e + ((Nat.log2 x.m + 1 : ℕ) : ℤ)) := by
          rw [add_comm x.e, zpow_add₀ (by norm_num), zpow_natCast]
          push_cast
          rfl

/-- A number rounded to as many digits as a format has, its leading digit among them, is past the largest number from half a
step above that on; where it lies half a step above, the largest number is not even. -/
theorem overflow_iff (hp : Regular p N Q) {W : ℝ} {n : ℕ} {D : ℤ} (hn : NearestNat W n) (hlo : (2 : ℝ) ^ p.mbits ≤ W)
    (hhi : W < 2 ^ (p.mbits + 1)) :
    ((N : ℝ) * 2 ^ Q < n * 2 ^ D → (N + 1 / 2 : ℝ) * 2 ^ Q ≤ W * 2 ^ D) ∧
    (¬ (N : ℝ) * 2 ^ Q < n * 2 ^ D → W * 2 ^ D ≤ (N + 1 / 2 : ℝ) * 2 ^ Q ∧ (N % 2 = 1 → W * 2 ^ D < (N + 1 / 2 : ℝ) * 2 ^ Q)) := by
  have hc := abs_le.1 hn.close
  have hlead : (2 : ℝ) ^ p.mbits ≤ N := by exact_mod_cast hp.lead
  have htop : (N : ℝ) + 1 ≤ 2 ^ (p.mbits + 1) := by exact_mod_cast hp.top
  have hnlo : (2 : ℝ) ^ p.mbits ≤ n := by
    have : 2 ^ p.mbits < n + 1 := by
      have : ((2 ^ p.mbits : ℕ) : ℝ) < ((n + 1 : ℕ) : ℝ) := by push_cast; linarith
      exact_mod_cast this
    exact_mod_cast Nat.lt_succ_iff.1 this
  have hnhi : (n : ℝ) ≤ 2 ^ (p.mbits + 1) := by
    have : n < 2 ^ (p.mbits + 1) + 1 := by
      have : ((n : ℕ) : ℝ) < ((2 ^ (p.mbits + 1) + 1 : ℕ) : ℝ) := by push_cast; linarith
      exact_mod_cast this
    exact_mod_cast Nat.lt_succ_iff.1 this
  have hQ : (0 : ℝ) < 2 ^ Q := by positivity
  have hpow : (2 : ℝ) ^ (p.mbits + 1) = 2 ^ p.mbits * 2 := pow_succ _ _
  rcases lt_trichotomy D Q with hD | hD | hD
  · -- a step below the largest number's: the value is below it
    obtain ⟨k, hk⟩ : ∃ k : ℕ, (Q : ℤ) = D + (k + 1 : ℕ) := ⟨(Q - D - 1).toNat, by omega⟩
    have hDQ : (2 : ℝ) ^ D * 2 ≤ 2 ^ Q := by
      have : (2 : ℝ) ^ Q = 2 ^ D * 2 ^ (k + 1) := by rw [← zpow_natCast, hk, zpow_add₀ (by norm_num), zpow_natCast]
      rw [this]
      exact mul_le_mul_of_nonneg_left (by rw [pow_succ]; linarith [one_le_pow₀ (M₀ := ℝ) (a := 2) (by norm_num) (n := k)]) (two_zpow_pos D).le
    have hDpos := two_zpow_pos D
    have hbelow : ∀ a : ℝ, a ≤ 2 ^ (p.mbits + 1) → a * 2 ^ D ≤ N * 2 ^ Q := by
      intro a ha
      calc a * 2 ^ D ≤ 2 ^ p.mbits * (2 ^ D * 2) := by rw [hpow] at ha; nlinarith
        _ ≤ N * 2 ^ Q := mul_le_mul hlead hDQ (by positivity) (Nat.cast_nonneg N)
    refine ⟨fun h => absurd (hbelow n hnhi) (not_le.2 h), fun _ => ?_⟩
    have := hbelow W hhi.le
    exact ⟨by linarith, fun _ => by linarith⟩
  · subst hD
    rw [zpow_natCast]
    constructor
    · intro h
      have : (N : ℝ) < n := lt_of_mul_lt_mul_right h hQ.le
      have : (N : ℝ) + 1 ≤ n := by exact_mod_cast this
      exact mul_le_mul_of_nonneg_right (by linarith) hQ.le
    · intro h
      have hle : (n : ℝ) ≤ N := not_lt.1 fun hlt => h (mul_lt_mul_of_pos_right hlt hQ)
      refine ⟨mul_le_mul_of_nonneg_right (by linarith) hQ.le, fun hodd => mul_lt_mul_of_pos_right ?_ hQ⟩
      by_contra hge
      have hnN : (n : ℝ) = N := by linarith
      have : n % 2 = 0 := hn.even (by rw [abs_of_nonneg (by linarith)]; linarith)
      have : n = N := by exact_mod_cast hnN
      omega
  · -- a step above the largest number's: the value is past it
    obtain ⟨k, hk⟩ : ∃ k : ℕ, D = Q + (k + 1 : ℕ) := ⟨(D - Q - 1).toNat, by omega⟩
    have hDQ : (2 : ℝ) ^ Q * 2 ≤ 2 ^ D := by
      rw [hk, zpow_add₀ (by norm_num), zpow_natCast, zpow_natCast]
      exact mul_le_mul_of_nonneg_left (by rw [pow_succ]; linarith [one_le_pow₀ (M₀ := ℝ) (a := 2) (by norm_num) (n := k)]) hQ.le
    have habove : ∀ a : ℝ, 2 ^ p.mbits ≤ a → (N + 1 : ℝ) * 2 ^ Q ≤ a * 2 ^ D := by
      intro a ha
      calc (N + 1 : ℝ) * 2 ^ Q ≤ 2 ^ p.mbits * (2 ^ Q * 2) := by rw [hpow] at htop; nlinarith
        _ ≤ a * 2 ^ D := mul_le_mul ha hDQ (by positivity) (le_trans (by positivity) ha)
    refine ⟨fun _ => ?_, fun h => absurd (habove n hnlo) ?_⟩
    · have := habove W hlo
      nlinarith
    · rw [not_le]
      exact lt_of_le_of_lt (not_lt.1 h) (by nlinarith)

end Round

end Sys2Proof.Machine


namespace Sys2Proof.Machine

section RoundFloat

variable {p : FParam} {N Q : ℕ} {x : Exact} {V : ℝ}

/-- A nearest multiple of a step that the format has, no larger than its largest number, is its nearest code. -/
theorem Regular.nearestCode (hp : Regular p N Q) {W : ℝ} {n q : ℕ} (hn : NearestNat W n) (hn2 : n ≤ 2 ^ (p.mbits + 1))
    (hlead : 2 ^ p.mbits ≤ n ∨ q = 0) (hW : q = 0 ∨ (2 : ℝ) ^ p.mbits ≤ W) (hle : n * 2 ^ q ≤ N * 2 ^ Q) :
    NearestCode p.mbits p.maxCode (W * 2 ^ q) (q * 2 ^ p.mbits + n) := by
  have hq : (0 : ℝ) < 2 ^ q := by positivity
  refine ⟨hp.code_le hn2 hlead hle, fun Y y hy hY => ?_⟩
  obtain ⟨M, E, hM, hmag⟩ := magOf_eq p.mbits y
  rw [magOf_code hn2 hlead]
  have hgrid : (∃ j : ℤ, Y / 2 ^ q = j) ∨ (Y / 2 ^ q < (2 ^ p.mbits : ℕ) ∧ ((2 ^ p.mbits : ℕ) : ℝ) ≤ W) := by
    rw [hmag] at hY
    rcases le_or_gt q E with hE | hE
    · left
      have hsplit : (2 : ℝ) ^ E = 2 ^ (E - q) * 2 ^ q := by rw [← pow_add, Nat.sub_add_cancel hE]
      have habs : |Y| / 2 ^ q = ((M * 2 ^ (E - q) : ℕ) : ℝ) := by
        rw [hY, div_eq_iff hq.ne']
        push_cast
        rw [hsplit, mul_assoc]
      rcases abs_choice Y with h | h
      · exact ⟨((M * 2 ^ (E - q) : ℕ) : ℤ), by rw [← h, habs]; push_cast; rfl⟩
      · exact ⟨-((M * 2 ^ (E - q) : ℕ) : ℤ), by
          have : Y / 2 ^ q = -(|Y| / 2 ^ q) := by rw [h]; ring
          rw [this, habs]; push_cast; rfl⟩
    · right
      have hW' : (2 : ℝ) ^ p.mbits ≤ W := hW.resolve_left (by omega)
      have hpow : 2 ^ E * 2 ≤ 2 ^ q := by rw [← pow_succ]; exact Nat.pow_le_pow_right (by decide) hE
      have hlt : M * 2 ^ E < 2 ^ p.mbits * 2 ^ q := by
        have h1 : M * 2 ^ E < 2 ^ (p.mbits + 1) * 2 ^ E := Nat.mul_lt_mul_of_pos_right hM (by positivity)
        rw [pow_succ] at h1
        nlinarith [Nat.zero_le (2 ^ p.mbits)]
      refine ⟨?_, by push_cast; exact hW'⟩
      rw [div_lt_iff₀ hq]
      calc Y ≤ |Y| := le_abs_self Y
        _ = ((M * 2 ^ E : ℕ) : ℝ) := hY
        _ < ((2 ^ p.mbits * 2 ^ q : ℕ) : ℝ) := Nat.cast_lt.2 hlt
        _ = ((2 ^ p.mbits : ℕ) : ℝ) * 2 ^ q := by push_cast; rfl
  obtain ⟨hclose, htie⟩ := hn.best hgrid
  have hscale : ∀ a : ℝ, |W * 2 ^ q - a| = |W - a / 2 ^ q| * 2 ^ q := by
    intro a
    rw [← abs_of_pos hq, ← abs_mul, abs_of_pos hq, sub_mul, div_mul_cancel₀ _ hq.ne']
  have hnq : ((n * 2 ^ q : ℕ) : ℝ) / 2 ^ q = n := by push_cast; field_simp
  rw [hscale, hscale, hnq]
  refine ⟨mul_le_mul_of_nonneg_right hclose hq.le, fun heq hne => ?_⟩
  have heven := htie (mul_right_cancel₀ hq.ne' heq) fun h => hne (by rw [div_eq_iff hq.ne'] at h; rw [h]; push_cast; rfl)
  obtain ⟨k, hk⟩ : ∃ k, p.mbits = k + 1 := ⟨p.mbits - 1, by have := hp.mbits; omega⟩
  rw [hk, pow_succ, ← mul_assoc, Nat.add_mod, Nat.mul_mod_left, heven]

/-- What one rounding of a value into a format gives: the nearest number with its sign, and NX where it is another number; or an
infinity, or the largest number where the format has none, with OF. -/
inductive RoundsTo (p : FParam) (N Q : ℕ) (neg : Bool) (U : ℝ) (r : Nat × Flags) : Prop
  | number (c : ℕ) (code : r.1 = (if neg && (c != 0 || p.hasNegZero) then 2 ^ (p.ebits + p.mbits) else 0) + c)
      (nearest : NearestCode p.mbits p.maxCode U c) (inexact : r.2.getLsbD 0 = true ↔ U ≠ magOf p.mbits c)
      (below : U ≤ (N + 1 / 2 : ℝ) * 2 ^ Q) (odd : N % 2 = 1 → U < (N + 1 / 2 : ℝ) * 2 ^ Q)
  | overflow (code : r.1 = if p.hasInf then infCode p neg else maxFiniteCode p neg) (flags : r.2 = flagOF ||| flagNX)
      (past : (N + 1 / 2 : ℝ) * 2 ^ Q ≤ U)

/-- Zero rounds to a zero. -/
theorem roundFloat_zero (hp : Regular p N Q) (hm : x.m = 0) (hs : x.sticky = false) :
    RoundsTo p N Q x.neg 0 (roundFloat p x .nearest false) := by
  have hr : roundFloat p x .nearest false = (zeroCode p x.neg, flag0) := by
    rw [roundFloat, if_pos ⟨hm, by rw [hs]; exact Bool.false_ne_true⟩]
  have hmag : magOf p.mbits 0 = 0 := by simp [magOf]
  have hlead : (1 : ℝ) ≤ N := by
    have : 1 ≤ N := le_trans Nat.one_le_two_pow hp.lead
    exact_mod_cast this
  have hpos : (0 : ℝ) < (N + 1 / 2) * 2 ^ Q := by positivity
  rw [hr]
  refine .number 0 ?_ ⟨Nat.zero_le _, fun Y y _ _ => ?_⟩ ?_ hpos.le fun _ => hpos
  · rw [zeroCode]
    cases x.neg <;> cases p.hasNegZero <;> rfl
  · rw [hmag, Nat.cast_zero, sub_zero, abs_zero]
    exact ⟨abs_nonneg _, fun _ _ => rfl⟩
  · rw [hmag]
    simp [flag0]

/-- Rounded at the format's own step, a value not past the largest number has no more digits than the format, a leading one above the
smallest step, and is at most the largest number. -/
theorem roundTo_range (hp : Regular p N Q) {D : ℤ} {n : ℕ} (hn : NearestNat (V / 2 ^ ((D.toNat : ℤ) - p.fine)) n)
    (hlo : (2 : ℝ) ^ p.mbits ≤ V / 2 ^ (D - p.fine)) (hhi : V / 2 ^ (D - p.fine) < 2 ^ (p.mbits + 1))
    (hle : 0 ≤ D → (n : ℝ) * 2 ^ D ≤ N * 2 ^ Q) :
    n ≤ 2 ^ (p.mbits + 1) ∧ (2 ^ p.mbits ≤ n ∨ D.toNat = 0) ∧ (D.toNat = 0 ∨ (2 : ℝ) ^ p.mbits ≤ V / 2 ^ ((D.toNat : ℤ) - p.fine)) ∧
      n * 2 ^ D.toNat ≤ N * 2 ^ Q := by
  have hc := abs_le.1 hn.close
  rcases le_or_gt 0 D with hD | hD
  · rw [Int.toNat_of_nonneg hD] at hc ⊢
    have hnhi : n ≤ 2 ^ (p.mbits + 1) := by
      have : ((n : ℕ) : ℝ) < ((2 ^ (p.mbits + 1) + 1 : ℕ) : ℝ) := by push_cast; linarith
      exact Nat.lt_succ_iff.1 (by exact_mod_cast this)
    have hnlo : 2 ^ p.mbits ≤ n := by
      have : ((2 ^ p.mbits : ℕ) : ℝ) < ((n + 1 : ℕ) : ℝ) := by push_cast; linarith
      exact Nat.lt_succ_iff.1 (by exact_mod_cast this)
    refine ⟨hnhi, .inl hnlo, .inr hlo, ?_⟩
    have := hle hD
    rw [← Int.toNat_of_nonneg hD, zpow_natCast] at this
    exact_mod_cast this
  · have hD0 : D.toNat = 0 := by omega
    have hW : V / 2 ^ ((0 : ℕ) - p.fine : ℤ) < 2 ^ p.mbits := by
      rw [div_lt_iff₀ (two_zpow_pos _)] at hhi ⊢
      calc V < 2 ^ (p.mbits + 1) * 2 ^ (D - p.fine) := hhi
        _ = 2 ^ p.mbits * 2 ^ (D + 1 - p.fine) := by
          rw [pow_succ, show D + 1 - p.fine = 1 + (D - p.fine) by ring, zpow_add₀ (by norm_num), zpow_one]
          ring
        _ ≤ 2 ^ p.mbits * 2 ^ ((0 : ℕ) - p.fine : ℤ) := by
          refine mul_le_mul_of_nonneg_left (zpow_le_zpow_right₀ (by norm_num) ?_) (by positivity)
          push_cast
          omega
    rw [hD0] at hc ⊢
    have hnhi : n ≤ 2 ^ p.mbits := by
      have : ((n : ℕ) : ℝ) < ((2 ^ p.mbits + 1 : ℕ) : ℝ) := by push_cast; linarith
      exact Nat.lt_succ_iff.1 (by exact_mod_cast this)
    refine ⟨hnhi.trans (Nat.pow_le_pow_right (by decide) (by omega)), .inr rfl, .inl rfl, ?_⟩
    calc n * 2 ^ 0 ≤ N * 1 := by rw [pow_zero]; exact Nat.mul_le_mul_right _ (hnhi.trans hp.lead)
      _ ≤ N * 2 ^ Q := Nat.mul_le_mul_left _ Nat.one_le_two_pow

/-- The code that `roundFloat` gives to n units of 2^k: a zero has no sign where the format has one zero. -/
theorem roundedCode_eq (p : FParam) (neg : Bool) {n k : ℕ} (hlead : 2 ^ p.mbits ≤ n ∨ k = 0) :
    (if n = 0 then zeroCode p neg else encodeFloat p neg n (k - p.fine))
      = (if neg && (k * 2 ^ p.mbits + n != 0 || p.hasNegZero) then 2 ^ (p.ebits + p.mbits) else 0) + (k * 2 ^ p.mbits + n) := by
  by_cases hn : n = 0
  · have hk : k = 0 := hlead.resolve_left (by rw [hn]; have := Nat.two_pow_pos p.mbits; omega)
    rw [if_pos hn, hn, hk, zeroCode]
    cases neg <;> cases p.hasNegZero <;> simp
  · have hne : (k * 2 ^ p.mbits + n != 0) = true := by
      rw [bne_iff_ne]
      omega
    rw [if_neg hn, encodeFloat_eq p neg hlead, hne]
    simp

/-- The flags of a number that is rounded: NX tells of the lost part alone. -/
theorem inexact_flag (lost tiny : Bool) :
    ((if lost = true then flagNX else flag0) ||| (if (lost && tiny) = true then flagUF else flag0)).getLsbD 0 = lost := by
  revert lost tiny
  decide

/-- One rounding to nearest (R55, R56, R65): of a value V to a number of the format, in units of its smallest. -/
theorem roundFloat_rounds (hp : Regular p N Q) (h : Denotes x V) (hm : x.m = 0 → x.sticky = false)
    (hbits : x.sticky = true → p.mbits + 2 ≤ bitLen x.m) :
    RoundsTo p N Q x.neg (V * 2 ^ p.fine) (roundFloat p x .nearest false) := by
  by_cases hzero : x.m = 0
  · have hV : V = 0 := by rw [h.exact (hm hzero), hzero, Nat.cast_zero, zero_mul]
    rw [hV, zero_mul]
    exact roundFloat_zero hp hzero (hm hzero)
  obtain ⟨hVlo, hVhi⟩ := h.lead hzero
  -- the step that keeps a leading digit, and the value in its units
  obtain ⟨D, hD⟩ : ∃ D : ℤ, x.e + bitLen x.m - 1 - p.mbits + p.fine = D := ⟨_, rfl⟩
  have hfree : x.e + bitLen x.m - 1 - p.mbits = D - p.fine := by omega
  have hUq : ∀ q : ℤ, V * 2 ^ p.fine = V / 2 ^ (q - p.fine) * 2 ^ q := by
    intro q
    rw [zpow_sub₀ (by norm_num)]
    have := (two_zpow_pos q).ne'
    have := (two_zpow_pos p.fine).ne'
    field_simp
  have hWlo : (2 : ℝ) ^ p.mbits ≤ V / 2 ^ (D - p.fine) := by
    rw [le_div_iff₀ (two_zpow_pos _), ← zpow_natCast, ← zpow_add₀ (by norm_num)]
    rw [show (p.mbits : ℤ) + (D - p.fine) = x.e + bitLen x.m - 1 by omega]
    exact hVlo
  have hWhi : V / 2 ^ (D - p.fine) < 2 ^ (p.mbits + 1) := by
    rw [div_lt_iff₀ (two_zpow_pos _), ← zpow_natCast, ← zpow_add₀ (by norm_num)]
    rw [show ((p.mbits + 1 : ℕ) : ℤ) + (D - p.fine) = x.e + bitLen x.m by push_cast; omega]
    exact hVhi
  obtain ⟨hnf, -⟩ := roundTo_nearest h (D - p.fine) fun hs => by have := hbits hs; omega
  obtain ⟨hover, hunder⟩ := overflow_iff hp (D := D) hnf hWlo hWhi
  have hbig : Exact.lt ⟨false, N, Q - p.fine, false⟩ ⟨false, (roundTo x (D - p.fine) .nearest).1, D - p.fine, false⟩ = true ↔
      (N : ℝ) * 2 ^ Q < (roundTo x (D - p.fine) .nearest).1 * 2 ^ D := by
    rw [Exact.lt_iff]
    unfold Exact.real
    dsimp only
    rw [if_neg Bool.false_ne_true, one_mul, one_mul, ← zpow_natCast 2 Q, sub_eq_add_neg, sub_eq_add_neg, zpow_add₀ (by norm_num),
      zpow_add₀ (by norm_num), ← mul_assoc, ← mul_assoc, mul_lt_mul_iff_left₀ (two_zpow_pos _)]
  unfold roundFloat
  rw [if_neg (by tauto)]
  dsimp only
  rw [hfree, hp.big]
  dsimp only
  split
  · next hb =>
    rw [hUq D]
    refine .overflow ?_ rfl (hover (hbig.1 hb))
    simp
  · next hb =>
    have hle := fun hlt => hb (hbig.2 hlt)
    obtain ⟨hbelow, hodd⟩ := hunder hle
    rw [← hUq D] at hbelow hodd
    have hstep : max (D - p.fine) (1 - p.bias - (p.mbits : ℤ)) = (D.toNat : ℤ) - p.fine := by
      unfold FParam.fine
      omega
    rw [hstep]
    obtain ⟨hn, hlost⟩ := roundTo_nearest h ((D.toNat : ℤ) - p.fine) fun hs => by have := hbits hs; omega
    have hU := hUq (D.toNat : ℤ)
    rw [zpow_natCast] at hU
    obtain ⟨hn2, hlead, hWq, hmax⟩ : (roundTo x ((D.toNat : ℤ) - p.fine) .nearest).1 ≤ 2 ^ (p.mbits + 1) ∧
        (2 ^ p.mbits ≤ (roundTo x ((D.toNat : ℤ) - p.fine) .nearest).1 ∨ D.toNat = 0) ∧
        (D.toNat = 0 ∨ (2 : ℝ) ^ p.mbits ≤ V / 2 ^ ((D.toNat : ℤ) - p.fine)) ∧
        (roundTo x ((D.toNat : ℤ) - p.fine) .nearest).1 * 2 ^ D.toNat ≤ N * 2 ^ Q :=
      roundTo_range hp hn hWlo hWhi fun hD0 => by rw [Int.toNat_of_nonneg hD0]; exact not_lt.1 hle
    generalize hroll : roundTo x ((D.toNat : ℤ) - p.fine) .nearest = r at hn hlost hn2 hlead hmax ⊢
    have hcode := hp.nearestCode hn hn2 hlead hWq hmax
    rw [← hU] at hcode
    refine .number (D.toNat * 2 ^ p.mbits + r.1) ?_ hcode ?_ hbelow hodd
    · exact roundedCode_eq p x.neg hlead
    · rw [magOf_code hn2 hlead, hU]
      rw [inexact_flag, hlost, Ne, Ne, not_iff_not]
      push_cast
      exact (mul_left_inj' (by positivity)).symm

end RoundFloat

end Sys2Proof.Machine


namespace Sys2Proof.Machine

/-! ### The certificates' view of a rounding -/

theorem fpScaled_eq (eb mb c : ℕ) : fpScaled eb mb c =
    (if c / 2 ^ (eb + mb) % 2 = 1 then -1 else 1) * (magOf mb (c % 2 ^ (eb + mb)) : ℤ) := by
  have hdiv : c % 2 ^ (eb + mb) / 2 ^ mb = c / 2 ^ mb % 2 ^ eb := by
    rw [Nat.add_comm, pow_add, Nat.mod_mul_right_div_self]
  have hmod : c % 2 ^ (eb + mb) % 2 ^ mb = c % 2 ^ mb :=
    Nat.mod_mod_of_dvd _ (pow_dvd_pow 2 (Nat.le_add_left mb eb))
  unfold fpScaled magOf
  rw [hdiv, hmod]
  dsimp only
  split
  · rw [neg_one_mul]
  · rw [one_mul]

/-- The sign of a value that a flag stands for. -/
def signInt (neg : Bool) : ℤ := if neg then -1 else 1

theorem signInt_mul_self (neg : Bool) : signInt neg * signInt neg = 1 := by cases neg <;> rfl

theorem abs_signInt (neg : Bool) : |(signInt neg : ℝ)| = 1 := by cases neg <;> simp [signInt]

theorem Exact.real_eq (x : Exact) : x.real = signInt x.neg * (x.m * 2 ^ x.e) := by
  unfold Exact.real signInt
  cases x.neg <;> simp

/-- A code with its sign has the signed magnitude; a zero without sign is zero all the same. -/
theorem fpScaled_signed {eb mb c : ℕ} (neg z : Bool) (hc : c < 2 ^ (eb + mb)) :
    fpScaled eb mb ((if neg && (c != 0 || z) then 2 ^ (eb + mb) else 0) + c) = signInt neg * magOf mb c := by
  have hpos : 0 < 2 ^ (eb + mb) := by positivity
  rw [fpScaled_eq]
  split
  · next h =>
    have hneg : neg = true := (Bool.and_eq_true _ _ ▸ h).1
    rw [Nat.add_div_left _ hpos, Nat.div_eq_of_lt hc, Nat.add_mod_left, Nat.mod_eq_of_lt hc, hneg]
    rfl
  · next h =>
    rw [Nat.zero_add, Nat.div_eq_of_lt hc, Nat.mod_eq_of_lt hc, if_neg (by decide)]
    cases neg with
    | false => rfl
    | true =>
      have h0 : c = 0 := by
        by_contra hne
        exact h (by simp [hne])
      simp [h0, magOf]

/-- The distances that the certificates compare are those of the magnitudes, in another unit. -/
theorem natAbs_distance {k : ℕ} {x : ℤ} {neg : Bool} {U : ℝ} (hx : (x : ℝ) = signInt neg * (U * 2 ^ k)) (Y : ℤ) :
    (((2 ^ k * Y - x).natAbs : ℕ) : ℝ) = |U - signInt neg * Y| * 2 ^ k := by
  have hk : (0 : ℝ) < 2 ^ k := by positivity
  have hself : (signInt neg : ℝ) * signInt neg = 1 := by exact_mod_cast signInt_mul_self neg
  have heq : ((2 ^ k * Y - x : ℤ) : ℝ) = -(signInt neg) * ((U - signInt neg * Y) * 2 ^ k) := by
    push_cast
    rw [hx]
    linear_combination (-(2 ^ k : ℝ) * Y) * hself
  rw [Nat.cast_natAbs, Int.cast_abs, heq, abs_mul, abs_neg, abs_signInt, one_mul, abs_mul, abs_of_pos hk]

/-- The nearest code, with its sign, is the nearest of the codes that the format has (R64). -/
theorem NearestCode.fpNearest {eb mb top k c r : ℕ} {x : ℤ} {neg z : Bool} {U : ℝ} {ok : ℕ → Prop} (h : NearestCode mb top U c)
    (hx : (x : ℝ) = signInt neg * (U * 2 ^ k)) (hmb : 1 ≤ mb) (hroom : top < 2 ^ (eb + mb))
    (hok : ∀ y, ok y → y % 2 ^ (eb + mb) ≤ top) (hr : r = (if neg && (c != 0 || z) then 2 ^ (eb + mb) else 0) + c) (hokr : ok r) :
    fpNearest eb mb k ok x r := by
  have hk : (0 : ℝ) < 2 ^ k := by positivity
  have hself : (signInt neg : ℝ) * signInt neg = 1 := by exact_mod_cast signInt_mul_self neg
  have hval : fpScaled eb mb r = signInt neg * magOf mb c := by rw [hr, fpScaled_signed neg z (h.le.trans_lt hroom)]
  have hback : (signInt neg : ℝ) * (fpScaled eb mb r : ℤ) = magOf mb c := by
    rw [hval]
    push_cast
    linear_combination (magOf mb c : ℝ) * hself
  have hpar : r % 2 = c % 2 := by
    obtain ⟨j, hj⟩ : ∃ j, eb + mb = j + 1 := ⟨eb + mb - 1, by omega⟩
    rw [hr, hj, pow_succ]
    split <;> omega
  refine ⟨hokr, fun y hy => ?_⟩
  have hmag : |(signInt neg : ℝ) * (fpScaled eb mb y : ℤ)| = magOf mb (y % 2 ^ (eb + mb)) := by
    rw [abs_mul, abs_signInt, one_mul, fpScaled_eq]
    push_cast
    rw [abs_mul, Nat.abs_cast]
    split <;> simp
  obtain ⟨hclose, htie⟩ := h.best _ _ (hok y hy) hmag
  rw [← Nat.cast_le (α := ℝ), ← Nat.cast_inj (R := ℝ), natAbs_distance hx, natAbs_distance hx, hback, hpar]
  refine ⟨mul_le_mul_of_nonneg_right hclose hk.le, fun heq hne => htie (mul_right_cancel₀ hk.ne' heq) fun hY => hne ?_⟩
  rw [hval, ← Int.cast_inj (α := ℝ)]
  push_cast
  linear_combination (signInt neg : ℝ) * hY - (fpScaled eb mb y : ℝ) * hself

/-- A format with infinities, of eb exponent and mb fraction bits. -/
structure Ieee (p : FParam) (N Q : ℕ) : Prop extends Regular p N Q where
  inf : p.hasInf = true
  negZero : p.hasNegZero = true
  full : N = 2 ^ (p.mbits + 1) - 1
  exps : Q + 3 = 2 ^ p.ebits
  steps : 1 ≤ Q
  absent : p.absentCode / 2 ^ p.mbits % 2 ^ p.ebits + 1 = 2 ^ p.ebits
  scale : p.fine = fpScale p.ebits p.mbits

theorem ieee_f32 : Ieee fpF32 (2 ^ 24 - 1) 253 :=
  ⟨regular_f32, by decide, by decide, by decide, by decide, by decide, by decide, by decide⟩
theorem ieee_f16 : Ieee fpF16 (2 ^ 11 - 1) 29 :=
  ⟨regular_f16, by decide, by decide, by decide, by decide, by decide, by decide, by decide⟩
theorem ieee_bf16 : Ieee fpBF16 (2 ^ 8 - 1) 253 :=
  ⟨regular_bf16, by decide, by decide, by decide, by decide, by decide, by decide, by decide⟩

section

variable {p : FParam} {N Q : ℕ}

/-- The numbers of such a format are the codes up to its largest, with a sign. -/
theorem Ieee.finite_iff (hp : Ieee p N Q) (c : ℕ) :
    fpFinite p.ebits p.mbits c ↔ c < 2 ^ (1 + p.ebits + p.mbits) ∧ c % 2 ^ (p.ebits + p.mbits) ≤ p.maxCode := by
  have hdiv : c % 2 ^ (p.ebits + p.mbits) / 2 ^ p.mbits = c / 2 ^ p.mbits % 2 ^ p.ebits := by
    rw [Nat.add_comm, pow_add, Nat.mod_mul_right_div_self]
  have hmax : p.maxCode + 1 = (Q + 2) * 2 ^ p.mbits := by
    rw [hp.code, hp.full]
    have := Nat.two_pow_pos p.mbits
    rw [pow_succ, Nat.add_mul]
    omega
  unfold fpFinite
  refine and_congr_right fun _ => ?_
  rw [← hdiv, ← hp.exps, ← Nat.lt_succ_iff, Nat.succ_eq_add_one, hmax, ← Nat.div_lt_iff_lt_mul (Nat.two_pow_pos _)]
  omega

/-- The result of a rounding as the certificates have it: the nearest number, or the infinity of its sign (R64, R65). -/
theorem Ieee.rounded (hp : Ieee p N Q) {k : ℕ} {x : ℤ} {neg : Bool} {U : ℝ} {r : ℕ × Flags} (h : RoundsTo p N Q neg U r)
    (hU : 0 ≤ U) (hx : (x : ℝ) = signInt neg * (U * 2 ^ k)) : fpRounded p.ebits p.mbits k x r.1 ∧
      (x.natAbs < 2 ^ k * ((2 ^ (p.mbits + 2) - 1) * 2 ^ (2 ^ p.ebits - 4)) →
        (r.2.getLsbD 0 = true ↔ 2 ^ k * fpScaled p.ebits p.mbits r.1 ≠ x)) ∧
      (2 ^ k * ((2 ^ (p.mbits + 2) - 1) * 2 ^ (2 ^ p.ebits - 4)) ≤ x.natAbs → r.2 = flagOF ||| flagNX) := by
  have hk : (0 : ℝ) < 2 ^ k := by positivity
  have habs : ((x.natAbs : ℕ) : ℝ) = U * 2 ^ k := by
    rw [Nat.cast_natAbs, Int.cast_abs, hx, abs_mul, abs_signInt, one_mul, abs_of_nonneg (by positivity)]
  have htop : ((2 ^ k * ((2 ^ (p.mbits + 2) - 1) * 2 ^ (2 ^ p.ebits - 4)) : ℕ) : ℝ) = (N + 1 / 2 : ℝ) * 2 ^ Q * 2 ^ k := by
    obtain ⟨j, rfl⟩ : ∃ j, Q = j + 1 := ⟨Q - 1, by have := hp.steps; omega⟩
    have hN : (N : ℝ) = 2 ^ (p.mbits + 1) - 1 := by
      rw [hp.full, Nat.cast_sub Nat.one_le_two_pow]
      push_cast
      rfl
    rw [← hp.exps, show j + 1 + 3 - 4 = j by omega, hN]
    push_cast [Nat.cast_sub Nat.one_le_two_pow]
    ring
  have hodd : N % 2 = 1 := by
    rw [hp.full, pow_succ]
    have := Nat.two_pow_pos p.mbits
    omega
  have hiff : x.natAbs < 2 ^ k * ((2 ^ (p.mbits + 2) - 1) * 2 ^ (2 ^ p.ebits - 4)) ↔ U < (N + 1 / 2 : ℝ) * 2 ^ Q := by
    rw [← Nat.cast_lt (α := ℝ), habs, htop, mul_lt_mul_iff_left₀ hk]
  cases h with
  | number c code nearest inexact below odd =>
    have hlt := odd hodd
    have hroom := nearest.le.trans_lt hp.room
    have hval : fpScaled p.ebits p.mbits r.1 = signInt neg * magOf p.mbits c := by rw [code, fpScaled_signed _ _ hroom]
    have hself : (signInt neg : ℝ) * signInt neg = 1 := by exact_mod_cast signInt_mul_self neg
    refine ⟨⟨fun _ => ?_, fun hge => absurd (hiff.2 hlt) (not_lt.2 hge)⟩, fun _ => ?_, fun hge => absurd (hiff.2 hlt) (not_lt.2 hge)⟩
    · refine nearest.fpNearest hx hp.mbits hp.room (fun y hy => ((hp.finite_iff y).1 hy).2) code ((hp.finite_iff _).2 ?_)
      rw [code, show 1 + p.ebits + p.mbits = (p.ebits + p.mbits) + 1 by omega, pow_succ]
      refine ⟨by split <;> omega, ?_⟩
      split
      · rw [Nat.add_mod_left, Nat.mod_eq_of_lt hroom]; exact nearest.le
      · rw [Nat.zero_add, Nat.mod_eq_of_lt hroom]; exact nearest.le
    · rw [inexact, hval, Ne, Ne, not_iff_not, ← Int.cast_inj (α := ℝ), hx]
      push_cast
      constructor
      · intro h
        rw [h]
        ring
      · intro h
        have h2 : (U - magOf p.mbits c) * 2 ^ k = 0 := by
          linear_combination (-(signInt neg : ℝ)) * h + (2 ^ k * (magOf p.mbits c : ℝ) - U * 2 ^ k) * hself
        have := (mul_eq_zero.1 h2).resolve_right hk.ne'
        linarith
  | overflow code flags past =>
    refine ⟨⟨fun hlt => absurd past (not_le.2 (hiff.1 hlt)), fun _ => ?_⟩, fun hlt => absurd past (not_le.2 (hiff.1 hlt)), fun _ => flags⟩
    have hN : (0 : ℝ) < (N + 1 / 2 : ℝ) * 2 ^ Q := by positivity
    have hUpos : 0 < U * 2 ^ k := by have := lt_of_lt_of_le hN past; positivity
    have hsign : 0 < x ↔ neg = false := by
      rw [← Int.cast_pos (R := ℝ), hx]
      cases neg with
      | false => simpa [signInt] using hUpos
      | true => simpa [signInt] using hUpos.le
    rw [code, hp.inf, if_pos rfl]
    cases neg with
    | false => simp [infCode, hp.inf, hsign.2 rfl]
    | true =>
      have hnot : ¬ 0 < x := fun h => by cases hsign.1 h
      simp [infCode, hp.inf, hnot, Nat.add_comm]

end

end Sys2Proof.Machine


/-! ## Numbers: arithmetic on exact values (R53, R68, R199) -/

namespace Sys2Proof.Machine

/-! ### Exact arithmetic as real arithmetic -/

theorem Exact.real_ofInt (v e : ℤ) (z : Bool) : (Exact.ofInt v e z).real = v * 2 ^ e := by
  unfold Exact.ofInt
  split
  · next h =>
    subst h
    simp [Exact.real]
  · unfold Exact.real
    dsimp only
    rw [Nat.cast_natAbs, Int.cast_abs, ← mul_assoc]
    congr 1
    by_cases h : v < 0
    · have : (v : ℝ) < 0 := by exact_mod_cast h
      rw [if_pos (by simpa using h), abs_of_neg this]
      ring
    · have : (0 : ℝ) ≤ v := by exact_mod_cast not_lt.1 h
      rw [if_neg (by simpa using h), abs_of_nonneg this]
      ring

theorem Exact.sticky_ofInt (v e : ℤ) (z : Bool) : (Exact.ofInt v e z).sticky = false := by
  unfold Exact.ofInt
  split <;> rfl

theorem Exact.real_mul (x y : Exact) : (x.mul y).real = x.real * y.real := by
  unfold Exact.mul Exact.real
  dsimp only
  rw [zpow_add₀ (by norm_num)]
  cases x.neg <;> cases y.neg <;> push_cast <;> simp <;> ring

theorem Exact.real_of_m_eq_zero {x : Exact} (h : x.m = 0) : x.real = 0 := by
  rw [Exact.real, h, Nat.cast_zero, zero_mul, mul_zero]

theorem Exact.real_add (x y : Exact) (rnd : Rnd) : (x.add y rnd).real = x.real + y.real := by
  unfold Exact.add
  split
  · next h => rw [Exact.real_of_m_eq_zero h.1, Exact.real_of_m_eq_zero h.2.1, Exact.real_of_m_eq_zero rfl, add_zero]
  · split
    · next h => rw [Exact.real_of_m_eq_zero h.1, zero_add]
    · split
      · next h => rw [Exact.real_of_m_eq_zero h.1, add_zero]
      · dsimp only
        rw [Exact.real_ofInt, Int.cast_add, add_mul, x.atScale_real (min_le_left _ _), y.atScale_real (min_le_right _ _)]

theorem Exact.sticky_add {x y : Exact} (hx : x.sticky = false) (hy : y.sticky = false) (rnd : Rnd) : (x.add y rnd).sticky = false := by
  unfold Exact.add
  split
  · rfl
  · split
    · exact hy
    · split
      · exact hx
      · exact Exact.sticky_ofInt _ _ _

theorem Exact.real_neg (x : Exact) : ({ x with neg := !x.neg } : Exact).real = -x.real := by
  unfold Exact.real
  dsimp only
  cases x.neg <;> simp

/-- A value that is not 0 has its sign. -/
theorem Exact.neg_iff {x : Exact} (h : x.m ≠ 0) : x.neg = true ↔ x.real < 0 := by
  have hpos : (0 : ℝ) < x.m * 2 ^ x.e := mul_pos (by exact_mod_cast Nat.pos_of_ne_zero h) (two_zpow_pos _)
  unfold Exact.real
  cases x.neg with
  | false => simpa using hpos.le
  | true => simpa using hpos

/-! ### Decoding (R53) -/

section

variable {p : FParam} {N Q : ℕ}

/-- A decoded number, exact, that is an integer of the format's units. -/
structure Decodes (p : FParam) (c : ℕ) (x : Exact) : Prop where
  eq : decodeFloat p c = .num x
  sticky : x.sticky = false
  real : x.real * 2 ^ p.fine = fpScaled p.ebits p.mbits c

/-- A zero, a subnormal or a normal number decodes to its value. -/
theorem Ieee.decodes (hp : Ieee p N Q) {c : ℕ} (hc : fpFinite p.ebits p.mbits c) : ∃ x, Decodes p c x := by
  obtain ⟨hlt, hexp⟩ := hc
  have hmod : c % 2 ^ (1 + p.ebits + p.mbits) = c := Nat.mod_eq_of_lt hlt
  have habs : c ≠ p.absentCode := by
    intro h
    rw [h, hp.absent] at hexp
    exact lt_irrefl _ hexp
  have hsign : c / 2 ^ (p.ebits + p.mbits) % 2 = c / 2 ^ (p.ebits + p.mbits) := by
    refine Nat.mod_eq_of_lt ((Nat.div_lt_iff_lt_mul (by positivity)).2 ?_)
    rwa [← pow_succ', show p.ebits + p.mbits + 1 = 1 + p.ebits + p.mbits by omega]
  have htop : ¬ c / 2 ^ p.mbits % 2 ^ p.ebits + 1 = 2 ^ p.ebits := by omega
  have hval : ∀ n : ℕ, ∀ e : ℤ, (⟨decide (c / 2 ^ (p.ebits + p.mbits) = 1), n, e, false⟩ : Exact).real * 2 ^ p.fine
      = (if c / 2 ^ (p.ebits + p.mbits) = 1 then -1 else 1) * (n * 2 ^ (e + p.fine)) := by
    intro n e
    unfold Exact.real
    dsimp only
    rw [zpow_add₀ (by norm_num)]
    simp only [decide_eq_true_eq]
    ring
  unfold FParam.fine at hval
  by_cases h0 : c / 2 ^ p.mbits % 2 ^ p.ebits = 0
  · refine ⟨⟨decide (c / 2 ^ (p.ebits + p.mbits) = 1), c % 2 ^ p.mbits, 1 - p.bias - p.mbits, false⟩, ?_, rfl, ?_⟩
    · unfold decodeFloat
      dsimp only
      rw [hmod, if_neg habs, if_neg (by simp [htop]), if_neg (by simp [htop]), if_pos h0]
    · unfold FParam.fine fpScaled
      rw [hval, hsign, h0]
      dsimp only
      rw [show 1 - p.bias - (p.mbits : ℤ) + (p.bias + p.mbits - 1) = 0 by ring, if_pos rfl]
      generalize c % 2 ^ p.mbits = f
      split <;> simp
  · refine ⟨⟨decide (c / 2 ^ (p.ebits + p.mbits) = 1), c % 2 ^ p.mbits + 2 ^ p.mbits,
      (c / 2 ^ p.mbits % 2 ^ p.ebits : ℕ) - p.bias - p.mbits, false⟩, ?_, rfl, ?_⟩
    · unfold decodeFloat
      dsimp only
      rw [hmod, if_neg habs, if_neg (by simp [htop]), if_neg (by simp [htop]), if_neg h0]
    · unfold FParam.fine fpScaled
      rw [hval, hsign]
      dsimp only
      rw [if_neg h0, show max (c / 2 ^ p.mbits % 2 ^ p.ebits) 1 - 1 = c / 2 ^ p.mbits % 2 ^ p.ebits - 1 by omega,
        show ((c / 2 ^ p.mbits % 2 ^ p.ebits : ℕ) : ℤ) - p.bias - (p.mbits : ℤ) + (p.bias + p.mbits - 1)
          = ((c / 2 ^ p.mbits % 2 ^ p.ebits - 1 : ℕ) : ℤ) by omega, zpow_natCast, Nat.add_comm (c % 2 ^ p.mbits)]
      generalize c % 2 ^ p.mbits = f
      split <;> simp

/-- An exact value without a hidden part rounds as the certificates have it. -/
theorem Ieee.roundFloat (hp : Ieee p N Q) {x : Exact} (hs : x.sticky = false) {k : ℕ} {v : ℤ} (hv : x.real * 2 ^ (p.fine + k) = v) :
    fpRounded p.ebits p.mbits k v (roundFloat p x .nearest false).1 ∧
      (v.natAbs < 2 ^ k * ((2 ^ (p.mbits + 2) - 1) * 2 ^ (2 ^ p.ebits - 4)) →
        ((Machine.roundFloat p x .nearest false).2.getLsbD 0 = true ↔
          2 ^ k * fpScaled p.ebits p.mbits (Machine.roundFloat p x .nearest false).1 ≠ v)) ∧
      (2 ^ k * ((2 ^ (p.mbits + 2) - 1) * 2 ^ (2 ^ p.ebits - 4)) ≤ v.natAbs →
        (Machine.roundFloat p x .nearest false).2 = flagOF ||| flagNX) := by
  have hd := Denotes.of_exact hs
  have h := roundFloat_rounds hp.toRegular hd (fun _ => hs) fun h => by rw [hs] at h; cases h
  refine hp.rounded h (mul_nonneg hd.nonneg (two_zpow_pos _).le) ?_
  rw [← hv, Exact.real_eq, zpow_add₀ (by norm_num), zpow_natCast]
  ring

/-! ### The four operations on an element (R68, R199) -/

theorem Exact.scale_zero (x : Exact) : x.scale 0 = x := by
  unfold Exact.scale
  rw [add_zero]

/-- Without a modifier a number is rounded once to nearest, with the flags of its operation. -/
theorem post_num (p : FParam) (x : Exact) (fl : Flags) : post p (.num x) fl none false
    = ((roundFloat p x .nearest false).1, fl ||| (roundFloat p x .nearest false).2) := by
  unfold post
  dsimp only
  rw [Exact.scale_zero]
  rfl

/-- An operation on an element whose exact value is v in units of 2^-(K+k), rounded once. -/
structure Computes (p : FParam) (k : ℕ) (v : ℤ) (r : ℕ × Flags) : Prop where
  ex : ∃ x : Exact, x.sticky = false ∧ x.real * 2 ^ (p.fine + k) = v ∧ r = roundFloat p x .nearest false

theorem Decodes.scaled {p : FParam} {c : ℕ} {x : Exact} (h : Decodes p c x) (k : ℕ) :
    x.real * 2 ^ (p.fine + k) = fpScaled p.ebits p.mbits c * 2 ^ k := by
  rw [zpow_add₀ (by norm_num), zpow_natCast, ← mul_assoc, h.real]

theorem floatElem_add {a b c : ℕ} {x y : Exact} (hx : Decodes p a x) (hy : Decodes p b y) :
    Computes p 0 (fpScaled p.ebits p.mbits a + fpScaled p.ebits p.mbits b) (floatElem .add p none a b c) := by
  refine ⟨x.add y .nearest, Exact.sticky_add hx.sticky hy.sticky _, ?_, ?_⟩
  · rw [Exact.real_add, add_mul, hx.scaled, hy.scaled]
    push_cast
    ring
  · unfold floatElem
    dsimp only
    rw [hx.eq, hy.eq]
    show post p (.num (x.add y .nearest)) flag0 none false = _
    rw [post_num]
    simp [flag0]

theorem floatElem_sub {a b c : ℕ} {x y : Exact} (hx : Decodes p a x) (hy : Decodes p b y) :
    Computes p 0 (fpScaled p.ebits p.mbits a - fpScaled p.ebits p.mbits b) (floatElem .sub p none a b c) := by
  refine ⟨x.add { y with neg := !y.neg } .nearest, Exact.sticky_add (y := { y with neg := !y.neg }) hx.sticky hy.sticky _, ?_, ?_⟩
  · rw [Exact.real_add, Exact.real_neg, ← sub_eq_add_neg, sub_mul, hx.scaled, hy.scaled]
    push_cast
    ring
  · unfold floatElem
    dsimp only
    rw [hx.eq, hy.eq]
    show post p (.num (x.add { y with neg := !y.neg } .nearest)) flag0 none false = _
    rw [post_num]
    simp [flag0]

/-- The product of two numbers, in the units of a product. -/
theorem Decodes.mul {a b : ℕ} {x y : Exact} (hx : Decodes p a x) (hy : Decodes p b y) {k : ℕ} (hk : p.fine = k) :
    (x.mul y).real * 2 ^ (p.fine + k) = fpScaled p.ebits p.mbits a * fpScaled p.ebits p.mbits b := by
  rw [Exact.real_mul, ← hx.real, ← hy.real, zpow_add₀ (by norm_num), ← hk]
  ring

theorem floatElem_mul {a b c : ℕ} {x y : Exact} (hx : Decodes p a x) (hy : Decodes p b y) {k : ℕ} (hk : p.fine = k) :
    Computes p k (fpScaled p.ebits p.mbits a * fpScaled p.ebits p.mbits b) (floatElem .mul p none a b c) := by
  refine ⟨x.mul y, rfl, ?_, ?_⟩
  · rw [hx.mul hy hk]
    push_cast
    rfl
  · unfold floatElem
    dsimp only
    rw [hx.eq, hy.eq]
    show post p (.num (x.mul y)) flag0 none false = _
    rw [post_num]
    simp [flag0]

theorem floatElem_fma {a b c : ℕ} {x y z : Exact} (hx : Decodes p a x) (hy : Decodes p b y) (hz : Decodes p c z) {k : ℕ}
    (hk : p.fine = k) : Computes p k (fpScaled p.ebits p.mbits a * fpScaled p.ebits p.mbits b + 2 ^ k * fpScaled p.ebits p.mbits c)
      (floatElem .fma p none a b c) := by
  refine ⟨(x.mul y).add z .nearest, Exact.sticky_add rfl hz.sticky _, ?_, ?_⟩
  · rw [Exact.real_add, add_mul, hx.mul hy hk, hz.scaled]
    push_cast
    ring
  · unfold floatElem
    dsimp only
    rw [hx.eq, hy.eq, hz.eq]
    show post p (.num ((x.mul y).add z .nearest)) (flag0 ||| flag0) none false = _
    rw [post_num]
    simp [flag0]

end

end Sys2Proof.Machine


/-! ## Number words: float arithmetic, comparison, classes, integers (R192, R199 to R201) -/

namespace Sys2Proof.Machine

/-! ### F32 words as codes -/

theorem f32Scaled_eq (w : Word) : f32Scaled w = fpScaled 8 23 w.toNat := by
  have hsign : w.getLsbD 31 = decide (w.toNat / 2 ^ (8 + 23) % 2 = 1) := by
    rw [BitVec.getLsbD, Nat.testBit_eq_decide_div_mod_eq]
  unfold f32Scaled fpScaled
  rw [hsign]
  simp only [BitVec.extractLsb'_toNat, Nat.shiftRight_eq_div_pow, pow_zero, Nat.div_one, decide_eq_true_eq]

theorem f32Finite_iff (w : Word) : f32Finite w ↔ fpFinite 8 23 w.toNat := by
  unfold f32Finite fpFinite
  rw [BitVec.extractLsb'_toNat, Nat.shiftRight_eq_div_pow]
  have := w.isLt
  omega

theorem getLsbD_zero_eq_false (w : Word) : w.getLsbD 0 = false ↔ w.toNat % 2 = 0 := by
  rw [BitVec.getLsbD, Nat.testBit_zero]
  simp

theorem elem_whole (w : Word) : elem 32 0 w = w.toNat := by
  rw [elem, Nat.mul_zero, pow_zero, Nat.div_one, Nat.mod_eq_of_lt w.isLt]

/-- A function of one element of a whole register. -/
theorem mapElems_whole (f : Nat → Nat → Nat → Nat × Flags) (a b c : Word) :
    mapElems 32 1 f a b c = (BitVec.ofNat 32 (f a.toNat b.toNat c.toNat).1, (f a.toNat b.toNat c.toNat).2) := by
  unfold mapElems packElems
  simp [List.range_succ, elem_whole, flag0]

theorem packElems_one (n : Nat) (fl : Flags) : packElems 1 [(n, fl)] = (BitVec.ofNat 32 n, fl) := by
  simp [packElems, flag0]

/-- What an F32 operation computes is the F32 result of its exact value (R64, R65). -/
theorem Computes.f32Result {k : ℕ} {v : ℤ} {r : ℕ × Flags} (h : Computes fpF32 k v r) :
    f32Result k v (BitVec.ofNat 32 r.1, r.2) := by
  obtain ⟨x, hs, hv, rfl⟩ := h.ex
  obtain ⟨⟨hnum, hinf⟩, hnx, hof⟩ := ieee_f32.roundFloat hs hv
  generalize Machine.roundFloat fpF32 x .nearest false = r at *
  refine ⟨fun hlt => ?_, fun hge => ?_⟩
  · obtain ⟨hok, hbest⟩ := hnum hlt
    have hcode : (BitVec.ofNat 32 r.1).toNat = r.1 := by
      rw [BitVec.toNat_ofNat]
      exact Nat.mod_eq_of_lt hok.1
    refine ⟨⟨(f32Finite_iff _).2 (by rw [hcode]; exact hok), fun y hy => ?_⟩, ?_⟩
    · rw [f32Scaled_eq, f32Scaled_eq, getLsbD_zero_eq_false, hcode]
      exact hbest _ ((f32Finite_iff y).1 hy)
    · rw [f32Scaled_eq, hcode, Bool.eq_iff_iff, decide_eq_true_iff]
      exact hnx hlt
  · refine ⟨?_, by rw [hof hge]; decide⟩
    rw [hinf hge]
    split <;> rfl

/-- A finite F32 word decodes to its value. -/
theorem f32_decodes {a : Word} (h : f32Finite a) : ∃ x, Decodes fpF32 a.toNat x :=
  ieee_f32.decodes ((f32Finite_iff a).1 h)

theorem f32_fine : fpF32.fine = (149 : ℕ) := rfl

/-- Sums, products and fused products of F32 (R199). -/
theorem f32_arithmetic {a b : Word} (ha : f32Finite a) (hb : f32Finite b) (d : Word) :
    f32Result 0 (f32Scaled a + f32Scaled b) (floatWord .add .f32 none a b d) ∧
    f32Result 0 (f32Scaled a - f32Scaled b) (floatWord .sub .f32 none a b d) ∧
    f32Result 149 (f32Scaled a * f32Scaled b) (floatWord .mul .f32 none a b d) ∧
    (f32Finite d → f32Result 149 (f32Scaled a * f32Scaled b + 2 ^ 149 * f32Scaled d) (floatWord .fma .f32 none a b d)) := by
  obtain ⟨x, hx⟩ := f32_decodes ha
  obtain ⟨y, hy⟩ := f32_decodes hb
  have hword : ∀ o, floatWord o .f32 none a b d = (BitVec.ofNat 32 (floatElem o fpF32 none a.toNat b.toNat d.toNat).1,
      (floatElem o fpF32 none a.toNat b.toNat d.toNat).2) := fun o => mapElems_whole _ a b d
  simp only [hword, f32Scaled_eq]
  refine ⟨(floatElem_add hx hy).f32Result, (floatElem_sub hx hy).f32Result, (floatElem_mul hx hy f32_fine).f32Result, fun hd => ?_⟩
  obtain ⟨z, hz⟩ := f32_decodes hd
  exact (floatElem_fma hx hy hz f32_fine).f32Result

/-- Comparisons of F32 numbers (R200). -/
theorem f32_comparison {a b : Word} (ha : f32Finite a) (hb : f32Finite b) :
    (fcmpWord .lt .f32 none a b).1 = (if f32Scaled a < f32Scaled b then 1 else 0) ∧
    (fcmpWord .le .f32 none a b).1 = (if f32Scaled a ≤ f32Scaled b then 1 else 0) ∧
    (fcmpWord .eq .f32 none a b).1 = (if f32Scaled a = f32Scaled b then 1 else 0) := by
  obtain ⟨x, hx⟩ := f32_decodes ha
  obtain ⟨y, hy⟩ := f32_decodes hb
  have hlt : ∀ {c e : ℕ} {u v : Exact}, Decodes fpF32 c u → Decodes fpF32 e v → u.lt v = decide (fpScaled 8 23 c < fpScaled 8 23 e) := by
    intro c e u v hu hv
    rw [Bool.eq_iff_iff, decide_eq_true_iff, Exact.lt_iff, ← mul_lt_mul_iff_left₀ (two_zpow_pos fpF32.fine), hu.real, hv.real]
    exact Int.cast_lt
  have hword : ∀ c, (fcmpWord c .f32 none a b).1 = BitVec.ofNat 32 (fcmpElem c fpF32 none a.toNat b.toNat).1.toNat := by
    intro c
    show (packElems 1 [((fcmpElem c fpF32 none (elem 32 0 a) (elem 32 0 b)).1.toNat, _)]).1 = _
    rw [packElems_one, elem_whole, elem_whole]
  have hnum : ∀ c, fcmpElem c fpF32 none a.toNat b.toNat = match c with
      | .eq => (!x.lt y && !y.lt x, flag0)
      | .ne => (x.lt y || y.lt x, flag0)
      | .lt => (x.lt y, flag0)
      | .le => (!y.lt x, flag0)
      | .unord => (false, flag0) := by
    intro c
    unfold fcmpElem
    dsimp only
    rw [hx.eq, hy.eq]
    cases c <;> rfl
  simp only [hword, hnum, hlt hx hy, hlt hy hx, f32Scaled_eq]
  generalize fpScaled 8 23 a.toNat = u
  generalize fpScaled 8 23 b.toNat = v
  refine ⟨?_, ?_, ?_⟩
  · by_cases h : u < v <;> simp [h]
  · by_cases h : v < u
    · simp [h, not_le.2 h]
    · simp [h, not_lt.1 h]
  · rcases lt_trichotomy u v with h | h | h
    · simp [h, h.ne]
    · simp [h]
    · simp [h, h.ne']

/-! ### Absence and class (R201) -/

/-- An F32 code by its fields. -/
theorem decode_f32 (c : ℕ) (hc : c < 2 ^ 32) : decodeFloat fpF32 c =
    if c = 0xFFFFFFFF then .absent
    else if c / 2 ^ 23 % 2 ^ 8 = 255 then (if c % 2 ^ 23 = 0 then .inf (decide (c / 2 ^ 31 = 1)) else .nan)
    else if c / 2 ^ 23 % 2 ^ 8 = 0 then .num ⟨decide (c / 2 ^ 31 = 1), c % 2 ^ 23, -149, false⟩
    else .num ⟨decide (c / 2 ^ 31 = 1), c % 2 ^ 23 + 2 ^ 23, (c / 2 ^ 23 % 2 ^ 8 : ℕ) - 127 - 23, false⟩ := by
  have hmod : c % 2 ^ (1 + fpF32.ebits + fpF32.mbits) = c := Nat.mod_eq_of_lt hc
  unfold decodeFloat
  dsimp only
  rw [hmod]
  show (if c = 0xFFFFFFFF then _ else _) = _
  by_cases habs : c = 0xFFFFFFFF
  · rw [if_pos habs, if_pos habs]
  · rw [if_neg habs, if_neg habs]
    by_cases htop : c / 2 ^ 23 % 2 ^ 8 = 255
    · have hall : decide (c / 2 ^ fpF32.mbits % 2 ^ fpF32.ebits + 1 = 2 ^ fpF32.ebits) = true :=
        decide_eq_true (show c / 2 ^ 23 % 2 ^ 8 + 1 = 2 ^ 8 by omega)
      rw [if_pos (by rw [hall]; rfl), if_pos htop]
      rfl
    · have hsome : decide (c / 2 ^ fpF32.mbits % 2 ^ fpF32.ebits + 1 = 2 ^ fpF32.ebits) = false :=
        decide_eq_false (show ¬ c / 2 ^ 23 % 2 ^ 8 + 1 = 2 ^ 8 by omega)
      rw [hsome, if_neg (by simp), if_neg (by simp), if_neg htop]
      rfl

theorem eq_iff_toNat (a : Word) (n : ℕ) (hn : n < 2 ^ 32) : a = BitVec.ofNat 32 n ↔ a.toNat = n := by
  rw [← BitVec.toNat_inj, BitVec.toNat_ofNat, Nat.mod_eq_of_lt hn]

/-- ABST of an F32 word (R201). -/
theorem f32_absence (a : Word) : abstWord .f32 a = (if a = 0xFFFFFFFF then 1 else 0) := by
  have hword : abstWord .f32 a = BitVec.ofNat 32 (decodeFloat fpF32 a.toNat).isAbsent.toNat := by
    show (packElems 1 [((decodeFloat fpF32 (elem 32 0 a)).isAbsent.toNat, flag0)]).1 = _
    rw [packElems_one, elem_whole]
  have hiff : a = 0xFFFFFFFF ↔ a.toNat = 0xFFFFFFFF := eq_iff_toNat a 0xFFFFFFFF (by decide)
  rw [hword, decode_f32 _ a.isLt, if_congr hiff rfl rfl]
  by_cases h : a.toNat = 0xFFFFFFFF
  · rw [if_pos h, if_pos h]; rfl
  · rw [if_neg h, if_neg h]
    split
    · split <;> rfl
    · split <;> rfl

/-- FCLASS of an F32 word (R201). -/
theorem f32_class (a : Word) : fclassWord .f32 a =
    (let e := a.extractLsb' 23 8
     let f := a.extractLsb' 0 23
     let n := a.getLsbD 31
     if a = 0xFFFFFFFF then 512
     else if e = 0xFF then (if f ≠ 0 then 256 else if n then 1 else 128)
     else if e = 0 then (if f = 0 then (if n then 8 else 16) else if n then 4 else 32)
     else if n then 2 else 64) := by
  have hword : fclassWord .f32 a = BitVec.ofNat 32 (fclassElem fpF32 a.toNat) := by
    show (mapElems 32 1 (fun c _ _ => (fclassElem fpF32 c, flag0)) a 0 0).1 = _
    rw [mapElems_whole]
  have hlt := a.isLt
  have habs : a = 0xFFFFFFFF ↔ a.toNat = 0xFFFFFFFF := eq_iff_toNat a 0xFFFFFFFF (by decide)
  have hexp : ∀ v < 2 ^ 8, a.extractLsb' 23 8 = BitVec.ofNat 8 v ↔ a.toNat / 2 ^ 23 % 2 ^ 8 = v := by
    intro v hv
    rw [← BitVec.toNat_inj, BitVec.extractLsb'_toNat, Nat.shiftRight_eq_div_pow, BitVec.toNat_ofNat, Nat.mod_eq_of_lt hv]
  have hfrac : a.extractLsb' 0 23 = 0 ↔ a.toNat % 2 ^ 23 = 0 := by
    rw [← BitVec.toNat_inj, BitVec.extractLsb'_toNat, Nat.shiftRight_zero]
    rfl
  have hsign : a.getLsbD 31 = decide (a.toNat / 2 ^ 31 = 1) := by
    rw [BitVec.getLsbD, Nat.testBit_eq_decide_div_mod_eq, Bool.eq_iff_iff, decide_eq_true_iff, decide_eq_true_iff]
    omega
  have h255 : a.extractLsb' 23 8 = 0xFF ↔ a.toNat / 2 ^ 23 % 2 ^ 8 = 255 := hexp 255 (by decide)
  have h0 : a.extractLsb' 23 8 = 0 ↔ a.toNat / 2 ^ 23 % 2 ^ 8 = 0 := hexp 0 (by decide)
  rw [hword, fclassElem, decode_f32 _ a.isLt]
  dsimp only
  rw [hsign]
  generalize decide (a.toNat / 2 ^ 31 = 1) = n
  by_cases hA : a.toNat = 0xFFFFFFFF
  · rw [if_pos hA, if_pos (habs.2 hA)]
    rfl
  rw [if_neg hA, if_neg fun h => hA (habs.1 h)]
  by_cases hE : a.toNat / 2 ^ 23 % 2 ^ 8 = 255
  · rw [if_pos hE, if_pos (h255.2 hE)]
    by_cases hF : a.toNat % 2 ^ 23 = 0
    · rw [if_pos hF, if_neg (not_not.2 (hfrac.2 hF))]
      cases n <;> rfl
    · rw [if_neg hF, if_pos fun h => hF (hfrac.1 h)]
      rfl
  rw [if_neg hE, if_neg fun h => hE (h255.1 h)]
  by_cases hZ : a.toNat / 2 ^ 23 % 2 ^ 8 = 0
  · rw [if_pos hZ, if_pos (h0.2 hZ)]
    dsimp only
    by_cases hF : a.toNat % 2 ^ 23 = 0
    · rw [if_pos hF, if_pos (hfrac.2 hF)]
      cases n <;> rfl
    · rw [if_neg hF, if_neg (fun h => hF (hfrac.1 h)), if_pos (show a.toNat % 2 ^ 23 < 2 ^ fpF32.mbits from Nat.mod_lt _ (by decide))]
      cases n <;> rfl
  · rw [if_neg hZ, if_neg fun h => hZ (h0.1 h)]
    dsimp only
    rw [if_neg (by omega), if_neg (by show ¬ a.toNat % 2 ^ 23 + 2 ^ 23 < 2 ^ 23; omega)]
    cases n <;> rfl

/-! ### Sums of 32-bit data integers (R58, R192) -/

theorem signedOf_toNat (a : Word) : signedOf 32 a.toNat = a.toInt := by
  unfold signedOf
  dsimp only
  rw [Nat.mod_eq_of_lt a.isLt, BitVec.toInt_eq_toNat_cond]
  norm_num
  have := a.isLt
  split <;> split <;> omega

theorem i32_sum {a b : Word} (ha : a ≠ 0x80000000) (hb : b ≠ 0x80000000) (d : Word) :
    let top : Int := 2 ^ 31 - 1
    let x := a.toInt + b.toInt
    let r := digWord .add .i32 none a b d
    r.1.toInt = max (-top) (min x top) ∧ r.2.getLsbD 5 = decide (x < -top ∨ top < x) := by
  intro top x r
  have hint : ∀ w : Word, w ≠ 0x80000000 → intOf .i32 w.toNat = some w.toInt := by
    intro w hw
    have hne : ¬ w.toNat % 2 ^ 32 = 0x80000000 := by
      rw [Nat.mod_eq_of_lt w.isLt]
      exact fun h => hw ((eq_iff_toNat w 0x80000000 (by decide)).2 h)
    show (if w.toNat % 2 ^ 32 = 0x80000000 then none else some (if (-2147483647 : ℤ) < 0 then signedOf 32 w.toNat else _)) = _
    rw [if_neg hne, if_pos (by decide), signedOf_toNat]
  have hr : r = (BitVec.ofNat 32 (saturate .i32 x).1, (saturate .i32 x).2) := by
    have helem : digElem .add .i32 none a.toNat b.toNat d.toNat = saturate .i32 x := by
      unfold digElem
      dsimp only
      rw [hint a ha, hint b hb]
    show mapElems 32 1 (digElem .add .i32 none) a b d = _
    rw [mapElems_whole, helem]
  have hsat : saturate .i32 x =
      if 2 ^ 31 - 1 < x then (patternOf 32 (2 ^ 31 - 1), flagSAT)
      else if x < -(2 ^ 31 - 1) then (patternOf 32 (-(2 ^ 31 - 1)), flagSAT)
      else (patternOf 32 x, flag0) := rfl
  have hto : ∀ z : ℤ, -(2 ^ 31 - 1) ≤ z → z ≤ 2 ^ 31 - 1 → (BitVec.ofNat 32 (patternOf 32 z)).toInt = z := by
    intro z h1 h2
    rw [ofNat_patternOf, BitVec.toInt_ofInt]
    exact Int.bmod_eq_of_le (by omega) (by omega)
  rw [hr, hsat]
  by_cases h1 : 2 ^ 31 - 1 < x
  · rw [if_pos h1]
    dsimp only
    rw [hto _ (by decide) (by decide)]
    exact ⟨by omega, by rw [decide_eq_true (.inr h1)]; rfl⟩
  · rw [if_neg h1]
    by_cases h2 : x < -(2 ^ 31 - 1)
    · rw [if_pos h2]
      dsimp only
      rw [hto _ (by decide) (by decide)]
      exact ⟨by omega, by rw [decide_eq_true (.inl h2)]; rfl⟩
    · rw [if_neg h2]
      dsimp only
      rw [hto _ (by omega) (by omega)]
      refine ⟨by omega, ?_⟩
      rw [decide_eq_false fun h => h.elim h2 h1]
      rfl

end Sys2Proof.Machine


/-! ## Number words: packed halves, conversions, special functions, packed elements (R199, R202, R203, R206) -/

namespace Sys2Proof.Machine

/-! ### Codes fit their width -/

/-- A value whose number, if it is one, has no hidden part. -/
def FVal.Plain (v : FVal) : Prop := ∀ x, v = .num x → x.sticky = false

theorem decodeFloat_plain (p : FParam) (c : ℕ) : (decodeFloat p c).Plain := by
  intro x h
  unfold decodeFloat at h
  dsimp only at h
  split at h
  · cases h
  split at h
  · split at h <;> cases h
  split at h
  · cases h
  split at h <;> cases h <;> rfl

theorem FVal.Plain.neg {v : FVal} (h : v.Plain) : v.neg.Plain := by
  intro x hx
  cases v with
  | num y => cases hx; exact h y rfl
  | absent => cases hx
  | nan => cases hx
  | inf n => cases hx

theorem fsum_plain {a b : FVal} (ha : a.Plain) (hb : b.Plain) (rnd : Rnd) : (fsum a b rnd).1.Plain := by
  intro x hx
  cases a with
  | num u =>
    cases b with
    | num v => cases hx; exact Exact.sticky_add (ha u rfl) (hb v rfl) rnd
    | absent => cases hx
    | nan => cases hx
    | inf n => cases hx
  | absent => cases hx
  | nan => cases b <;> cases hx
  | inf n =>
    cases b with
    | inf m => unfold fsum at hx; dsimp only at hx; split at hx <;> cases hx
    | absent => cases hx
    | nan => cases hx
    | num v => cases hx

theorem fprod_plain (a b : FVal) : (fprod a b).1.Plain := by
  intro x hx
  cases a with
  | num u =>
    cases b with
    | num v => cases hx; rfl
    | absent => cases hx
    | nan => cases hx
    | inf n => unfold fprod at hx; dsimp only at hx; split at hx <;> cases hx
  | absent => cases hx
  | nan => cases b <;> cases hx
  | inf n =>
    cases b with
    | inf m => cases hx
    | absent => cases hx
    | nan => cases hx
    | num v => unfold fprod at hx; dsimp only at hx; split at hx <;> cases hx

/-- A format whose special codes fit its width. -/
structure Fits (p : FParam) (N Q : ℕ) : Prop extends Ieee p N Q where
  nanFits : p.nanCode < 2 ^ (1 + p.ebits + p.mbits)
  absentFits : p.absentCode < 2 ^ (1 + p.ebits + p.mbits)

theorem fits_f16 : Fits fpF16 (2 ^ 11 - 1) 29 := ⟨ieee_f16, by decide, by decide⟩
theorem fits_bf16 : Fits fpBF16 (2 ^ 8 - 1) 253 := ⟨ieee_bf16, by decide, by decide⟩

section

variable {p : FParam} {N Q : ℕ}

theorem Fits.infCode_lt (hp : Fits p N Q) (neg : Bool) : infCode p neg < 2 ^ (1 + p.ebits + p.mbits) := by
  have h1 : (2 ^ p.ebits - 1) * 2 ^ p.mbits < 2 ^ (p.ebits + p.mbits) := by
    rw [pow_add]
    exact Nat.mul_lt_mul_of_pos_right (Nat.sub_lt (Nat.two_pow_pos _) (by decide)) (Nat.two_pow_pos _)
  rw [infCode, hp.inf, if_pos rfl, show 1 + p.ebits + p.mbits = (p.ebits + p.mbits) + 1 by omega, pow_succ]
  split <;> omega

/-- A rounded code fits the width of its format. -/
theorem Fits.roundFloat_lt (hp : Fits p N Q) {x : Exact} (hs : x.sticky = false) :
    (roundFloat p x .nearest false).1 < 2 ^ (1 + p.ebits + p.mbits) := by
  have h := roundFloat_rounds hp.toRegular (Denotes.of_exact hs) (fun _ => hs) fun h => by rw [hs] at h; cases h
  cases h with
  | number c code nearest _ _ _ =>
    have := nearest.le.trans_lt hp.room
    rw [code, show 1 + p.ebits + p.mbits = (p.ebits + p.mbits) + 1 by omega, pow_succ]
    split <;> omega
  | overflow code _ _ =>
    rw [code, hp.inf, if_pos rfl]
    exact hp.infCode_lt _

theorem Fits.post_lt (hp : Fits p N Q) {v : FVal} (hv : v.Plain) (fl : Flags) (passed : Bool) :
    (post p v fl none passed).1 < 2 ^ (1 + p.ebits + p.mbits) := by
  cases v with
  | absent => exact hp.absentFits
  | nan => exact hp.nanFits
  | inf n => exact hp.infCode_lt n
  | num x =>
    have h := hp.roundFloat_lt (hv x rfl)
    rw [← Exact.scale_zero x] at h
    exact h

theorem Fits.ident_lt (hp : Fits p N Q) {a b : FVal} (ha : a.Plain) (hb : b.Plain) {r : FVal × Flags} (hr : r.1.Plain) :
    (ident p a b r none).1 < 2 ^ (1 + p.ebits + p.mbits) := by
  unfold ident
  split
  · exact hp.absentFits
  · exact hp.post_lt hb _ _
  · exact hp.post_lt ha _ _
  · exact hp.post_lt hr _ _

theorem Fits.strict_lt (hp : Fits p N Q) {a b : FVal} {r : FVal × Flags} (hr : r.1.Plain) :
    (strict p a b r none).1 < 2 ^ (1 + p.ebits + p.mbits) := by
  unfold strict
  split
  · exact hp.absentFits
  · exact hp.post_lt hr _ _

theorem Fits.ffma_lt (hp : Fits p N Q) {a b c : FVal} (hc : c.Plain) : (ffma p a b c none).1 < 2 ^ (1 + p.ebits + p.mbits) := by
  unfold ffma
  dsimp only
  split
  · split
    · exact hp.absentFits
    · exact hp.post_lt hc _ _
  · split
    · exact hp.post_lt (fprod_plain a b) _ _
    · exact hp.post_lt (fsum_plain (fprod_plain a b) hc _) _ _

/-- The four operations whose values the certificates state. -/
def FloatOp.rounds (o : FloatOp) : Prop := o = .add ∨ o = .sub ∨ o = .mul ∨ o = .fma

theorem Fits.floatElem_lt (hp : Fits p N Q) {o : FloatOp} (ho : o.rounds) (a b c : ℕ) :
    (floatElem o p none a b c).1 < 2 ^ (1 + p.ebits + p.mbits) := by
  have ha := decodeFloat_plain p a
  have hb := decodeFloat_plain p b
  rcases ho with rfl | rfl | rfl | rfl
  · exact hp.ident_lt ha hb (fsum_plain ha hb .nearest)
  · exact hp.strict_lt (fsum_plain ha hb.neg .nearest)
  · exact hp.ident_lt ha hb (fprod_plain _ _)
  · exact hp.ffma_lt (decodeFloat_plain p c)

/-! ### Both elements of a packed register (R52, R199) -/

/-- Half h of a register. -/
def halfOf (h : ℕ) (w : Word) : ℕ := (w.extractLsb' (16 * h) 16).toNat

theorem elem_half (h : ℕ) (w : Word) : elem 16 h w = halfOf h w := by
  rw [elem, halfOf, BitVec.extractLsb'_toNat, Nat.shiftRight_eq_div_pow]

/-- A half of a register made from two elements that fit is the element. -/
theorem half_mapElems {f : Nat → Nat → Nat → Nat × Flags} (hf : ∀ a b c, (f a b c).1 < 2 ^ 16) (a b c : Word) {h : ℕ} (hh : h < 2) :
    halfOf h (mapElems 16 2 f a b c).1 = (f (halfOf h a) (halfOf h b) (halfOf h c)).1 := by
  have hword : (mapElems 16 2 f a b c).1.toNat = ((f (halfOf 0 a) (halfOf 0 b) (halfOf 0 c)).1
      + (f (halfOf 1 a) (halfOf 1 b) (halfOf 1 c)).1 * 2 ^ 16) % 2 ^ 32 := by
    simp [mapElems, packElems, List.range_succ, elem_half]
  rw [halfOf, BitVec.extractLsb'_toNat, Nat.shiftRight_eq_div_pow, hword]
  have h0 := hf (halfOf 0 a) (halfOf 0 b) (halfOf 0 c)
  have h1 := hf (halfOf 1 a) (halfOf 1 b) (halfOf 1 c)
  obtain rfl | rfl : h = 0 ∨ h = 1 := by omega
  · rw [Nat.mul_zero, pow_zero]
    omega
  · omega

/-- The elements of a packed operation, each its exact value rounded once. -/
theorem Ieee.half_arithmetic (hp : Ieee p N Q) {a b c : ℕ} (ha : fpFinite p.ebits p.mbits a) (hb : fpFinite p.ebits p.mbits b) :
    let v := fpScaled p.ebits p.mbits
    let k := fpScale p.ebits p.mbits
    fpRounded p.ebits p.mbits 0 (v a + v b) (floatElem .add p none a b c).1 ∧
    fpRounded p.ebits p.mbits 0 (v a - v b) (floatElem .sub p none a b c).1 ∧
    fpRounded p.ebits p.mbits k (v a * v b) (floatElem .mul p none a b c).1 ∧
    (fpFinite p.ebits p.mbits c → fpRounded p.ebits p.mbits k (v a * v b + 2 ^ k * v c) (floatElem .fma p none a b c).1) := by
  intro v k
  obtain ⟨x, hx⟩ := hp.decodes ha
  obtain ⟨y, hy⟩ := hp.decodes hb
  have hround : ∀ {j : ℕ} {n : ℤ} {r : ℕ × Flags}, Computes p j n r → fpRounded p.ebits p.mbits j n r.1 := by
    rintro j n r ⟨z, hs, hv, rfl⟩
    exact (hp.roundFloat hs hv).1
  refine ⟨hround (floatElem_add hx hy), hround (floatElem_sub hx hy), hround (floatElem_mul hx hy hp.scale), fun hc => ?_⟩
  obtain ⟨z, hz⟩ := hp.decodes hc
  exact hround (floatElem_fma hx hy hz hp.scale)

/-- A packed operation, half by half. -/
theorem Fits.packed_arithmetic (hp : Fits p N Q) (hw : 1 + p.ebits + p.mbits = 16) {y : FTy} (hy : ftyParam y = p)
    (hc : ftyCount y = 2) (a b d : Word) {h : ℕ} (hh : h < 2) (ha : fpFinite p.ebits p.mbits (halfOf h a))
    (hb : fpFinite p.ebits p.mbits (halfOf h b)) :
    let v := fun (w : Word) => fpScaled p.ebits p.mbits (halfOf h w)
    let k := fpScale p.ebits p.mbits
    fpRounded p.ebits p.mbits 0 (v a + v b) (halfOf h (floatWord .add y none a b d).1) ∧
    fpRounded p.ebits p.mbits 0 (v a - v b) (halfOf h (floatWord .sub y none a b d).1) ∧
    fpRounded p.ebits p.mbits k (v a * v b) (halfOf h (floatWord .mul y none a b d).1) ∧
    (fpFinite p.ebits p.mbits (halfOf h d) →
      fpRounded p.ebits p.mbits k (v a * v b + 2 ^ k * v d) (halfOf h (floatWord .fma y none a b d).1)) := by
  intro v k
  have hhalf : ∀ {o : FloatOp}, o.rounds → halfOf h (floatWord o y none a b d).1
      = (floatElem o p none (halfOf h a) (halfOf h b) (halfOf h d)).1 := by
    intro o ho
    have hlt := fun a b c => hp.floatElem_lt ho a b c
    rw [hw] at hlt
    rw [floatWord, hc, hy]
    exact half_mapElems hlt a b d hh
  rw [hhalf (.inl rfl), hhalf (.inr (.inl rfl)), hhalf (.inr (.inr (.inl rfl))), hhalf (.inr (.inr (.inr rfl)))]
  exact hp.half_arithmetic ha hb

end

end Sys2Proof.Machine


namespace Sys2Proof.Machine

/-! ### Conversions of F32 (R66, R203) -/

section Conversions

variable {a : Word} {x : Exact}

/-- CVT of an F32 number without a modifier. -/
theorem cvtWord_f32 (hx : Decodes fpF32 a.toNat x) (f : Fmt) (t : Codebook) (d va : Reg) :
    cvtWord ⟨f, .f32, false, d, va, none⟩ t a
      = (BitVec.ofNat 32 (convert (.num x) f t .nearest false).1, (convert (.num x) f t .nearest false).2) := by
  have hdec : decodeFmt .f32 t a.toNat = .num x := hx.eq
  unfold cvtWord
  dsimp only
  rw [hdec]
  dsimp only
  rw [Exact.scale_zero]

theorem Decodes.f32_real (hx : Decodes fpF32 a.toNat x) : x.real * 2 ^ (149 : ℤ) = f32Scaled a := by
  rw [f32Scaled_eq]
  exact hx.real

theorem toNat_ofNat_of_lt {n : ℕ} (h : n < 2 ^ 32) : (BitVec.ofNat 32 n).toNat = n := by
  rw [BitVec.toNat_ofNat, Nat.mod_eq_of_lt h]

/-- To a format with infinities and at most 16 bits. -/
theorem Fits.convert_f32 {p : FParam} {N Q : ℕ} (hp : Fits p N Q) (hw : 1 + p.ebits + p.mbits = 16) {k : ℕ} (hk : p.fine + k = 149)
    (hx : Decodes fpF32 a.toNat x) :
    fpRounded p.ebits p.mbits k (f32Scaled a) (BitVec.ofNat 32 (roundFloat p x .nearest false).1).toNat := by
  have hlt := hp.roundFloat_lt hx.sticky
  rw [hw] at hlt
  rw [toNat_ofNat_of_lt (hlt.trans (by decide))]
  exact (hp.toIeee.roundFloat hx.sticky (by rw [hk]; exact hx.f32_real)).1

/-- The largest number of E4M3 is the nearest one to every value past it. -/
theorem nearestCode_e4m3_max {U : ℝ} (h : (14 + 1 / 2 : ℝ) * 2 ^ 14 ≤ U) : NearestCode 3 126 U 126 := by
  have hmono : ∀ y ≤ 126, magOf 3 y ≤ 14 * 2 ^ 14 := by decide
  have hmax : (magOf 3 126 : ℝ) = 14 * 2 ^ 14 := by
    rw [show magOf 3 126 = 14 * 2 ^ 14 by decide]
    norm_num
  refine ⟨le_rfl, fun Y y hy hY => ?_⟩
  have hle : Y ≤ 14 * 2 ^ 14 := by
    have : ((magOf 3 y : ℕ) : ℝ) ≤ ((14 * 2 ^ 14 : ℕ) : ℝ) := Nat.cast_le.2 (hmono y hy)
    push_cast at this
    linarith [le_abs_self Y]
  rw [hmax, abs_of_nonneg (by linarith), abs_of_nonneg (by linarith)]
  exact ⟨by linarith, fun _ _ => by decide⟩

/-- To E4M3: the nearest number, the largest one past it (R55, R64). -/
theorem convert_e4m3 (hx : Decodes fpF32 a.toNat x) : fpNearest 4 3 140 (fun c => c < 256 ∧ c % 128 ≠ 127 ∧ c ≠ 128) (f32Scaled a)
    (BitVec.ofNat 32 (roundFloat fpE4M3 x .nearest false).1).toNat := by
  have h := roundFloat_rounds regular_e4m3 (Denotes.of_exact hx.sticky) (fun _ => hx.sticky) fun h => by rw [hx.sticky] at h; cases h
  have hval : (f32Scaled a : ℝ) = signInt x.neg * (x.m * 2 ^ x.e * 2 ^ fpE4M3.fine * 2 ^ 140) := by
    rw [← hx.f32_real, Exact.real_eq, show (149 : ℤ) = fpE4M3.fine + (140 : ℕ) from rfl, zpow_add₀ (by norm_num), zpow_natCast]
    ring
  obtain ⟨c, hc, hr⟩ : ∃ c, NearestCode 3 126 (x.m * 2 ^ x.e * 2 ^ fpE4M3.fine) c ∧
      (roundFloat fpE4M3 x .nearest false).1 = (if x.neg && (c != 0 || false) then 2 ^ (4 + 3) else 0) + c := by
    cases h with
    | number c code nearest _ _ _ => exact ⟨c, nearest, code⟩
    | overflow code _ past =>
      refine ⟨126, nearestCode_e4m3_max past, code.trans ?_⟩
      cases x.neg <;> rfl
  have hcode : (roundFloat fpE4M3 x .nearest false).1 < 256 ∧ (roundFloat fpE4M3 x .nearest false).1 % 128 ≠ 127 ∧
      (roundFloat fpE4M3 x .nearest false).1 ≠ 128 := by
    have := hc.le
    rw [hr]
    split
    · next hs =>
      have : c ≠ 0 := by
        rintro rfl
        simp at hs
      omega
    · omega
  rw [toNat_ofNat_of_lt (hcode.1.trans (by decide))]
  refine hc.fpNearest hval (by decide) (by decide) (fun y hy => ?_) hr hcode
  obtain ⟨-, h127, -⟩ := hy
  have : y % 2 ^ (4 + 3) < 2 ^ (4 + 3) := Nat.mod_lt _ (by decide)
  omega

/-- The nearest integer to an F32 number, as the certificates have it, and whether it is another number (R64, R66). -/
theorem intNearest_roundTo (hx : Decodes fpF32 a.toNat x) :
    intNearest 149 (f32Scaled a) (signInt x.neg * (roundTo x 0 .nearest).1) ∧
    ((roundTo x 0 .nearest).2 = true ↔ 2 ^ 149 * (signInt x.neg * ((roundTo x 0 .nearest).1 : ℤ)) ≠ f32Scaled a) := by
  obtain ⟨hn, hlost⟩ := roundTo_nearest (Denotes.of_exact hx.sticky) 0 fun h => by rw [hx.sticky] at h; cases h
  rw [zpow_zero, div_one] at hn hlost
  generalize (roundTo x 0 .nearest).1 = n at *
  have hself : (signInt x.neg : ℝ) * signInt x.neg = 1 := by exact_mod_cast signInt_mul_self x.neg
  have hval : (f32Scaled a : ℝ) = signInt x.neg * (x.m * 2 ^ x.e * 2 ^ 149) := by
    rw [← hx.f32_real, Exact.real_eq, show (149 : ℤ) = (149 : ℕ) from rfl, zpow_natCast]
    ring
  have hdist := natAbs_distance hval (signInt x.neg * n)
  have hback : (signInt x.neg : ℝ) * ((signInt x.neg * n : ℤ) : ℝ) = n := by
    push_cast
    linear_combination (n : ℝ) * hself
  rw [hback] at hdist
  have hcast : ∀ m : ℕ, (2 * m ≤ 2 ^ 149 ↔ (m : ℝ) ≤ 1 / 2 * 2 ^ 149) ∧ (2 * m = 2 ^ 149 ↔ (m : ℝ) = 1 / 2 * 2 ^ 149) := by
    intro m
    rw [← Nat.cast_le (α := ℝ), ← Nat.cast_inj (R := ℝ)]
    push_cast
    constructor <;> constructor <;> intro h <;> linarith
  refine ⟨⟨?_, fun h => ?_⟩, ?_⟩
  · rw [(hcast _).1, hdist]
    exact mul_le_mul_of_nonneg_right hn.close (by positivity)
  · rw [(hcast _).2, hdist] at h
    have := hn.even (mul_right_cancel₀ (by positivity) h)
    cases x.neg <;> simp [signInt] <;> omega
  · rw [hlost, Ne, Ne, not_iff_not, ← Int.cast_inj (α := ℝ), hval]
    push_cast
    constructor
    · intro h
      rw [h]
      ring
    · intro h
      have h2 : ((x.m : ℝ) * 2 ^ x.e - n) * 2 ^ 149 = 0 := by
        linear_combination (-(signInt x.neg : ℝ)) * h + (2 ^ 149 * (n : ℝ) - x.m * 2 ^ x.e * 2 ^ 149) * hself
      have := (mul_eq_zero.1 h2).resolve_right (by positivity)
      linarith

/-- The pattern of an integer has its width, and stands for the integer. -/
theorem patternOf_spec (w : ℕ) (z : ℤ) : patternOf w z < 2 ^ w ∧ ((patternOf w z : ℤ) - z) % 2 ^ w = 0 := by
  have hpos : (0 : ℤ) < 2 ^ w := by positivity
  have hcast : (patternOf w z : ℤ) = z % 2 ^ w := Int.toNat_of_nonneg (Int.emod_nonneg _ hpos.ne')
  constructor
  · have := Int.emod_lt_of_pos z hpos
    rw [← hcast] at this
    exact_mod_cast this
  · rw [hcast]
    exact Int.emod_eq_zero_of_dvd ⟨-(z / 2 ^ w), by have := Int.emod_add_mul_ediv z (2 ^ w); linarith⟩

/-- To an integer format: the nearest integer clamped, NX where it is another number, NV where it is clamped (R66). -/
theorem convertInt_f32 (hx : Decodes fpF32 a.toNat x) {w : ℕ} {lo hi : ℤ} (hw : w ≤ 32) (hlh : lo ≤ hi) {r : Word × Flags}
    (hr : r = (BitVec.ofNat 32 (convertInt w lo hi x .nearest).1, (convertInt w lo hi x .nearest).2)) :
    ∃ n, intNearest 149 (f32Scaled a) n ∧ ((r.1.toNat : Int) - max lo (min n hi)) % 2 ^ w = 0 ∧ r.1.toNat < 2 ^ w ∧
      r.2.getLsbD 0 = decide (2 ^ 149 * n ≠ f32Scaled a) ∧ r.2.getLsbD 4 = decide (n < lo ∨ hi < n) := by
  obtain ⟨hnear, hlost⟩ := intNearest_roundTo hx
  have hconv : convertInt w lo hi x .nearest = (patternOf w (max lo (min (signInt x.neg * (roundTo x 0 .nearest).1) hi)),
      (if (roundTo x 0 .nearest).2 then flagNX else flag0) |||
        if signInt x.neg * (roundTo x 0 .nearest).1 < lo ∨ hi < signInt x.neg * (roundTo x 0 .nearest).1 then flagNV else flag0) := by
    have hy : (if x.neg then -((roundTo x 0 .nearest).1 : ℤ) else (roundTo x 0 .nearest).1)
        = signInt x.neg * (roundTo x 0 .nearest).1 := by
      cases x.neg <;> simp [signInt]
    unfold convertInt
    dsimp only
    rw [hy]
    generalize signInt x.neg * ((roundTo x 0 .nearest).1 : ℤ) = n
    by_cases h1 : hi < n
    · rw [if_pos h1, if_pos (show n < lo ∨ hi < n from .inr h1), show max lo (min n hi) = hi by omega]
    · rw [if_neg h1]
      by_cases h2 : n < lo
      · rw [if_pos h2, if_pos (show n < lo ∨ hi < n from .inl h2), show max lo (min n hi) = lo by omega]
      · rw [if_neg h2, if_neg (show ¬ (n < lo ∨ hi < n) from fun h => h.elim h2 h1), show max lo (min n hi) = n by omega]
        simp [flag0]
  generalize signInt x.neg * ((roundTo x 0 .nearest).1 : ℤ) = n at *
  generalize (roundTo x 0 .nearest).2 = lost at *
  obtain ⟨hlt, hmod⟩ := patternOf_spec w (max lo (min n hi))
  rw [hconv] at hr
  subst hr
  dsimp only
  rw [toNat_ofNat_of_lt (hlt.trans_le (Nat.pow_le_pow_right (by decide) hw))]
  refine ⟨n, hnear, hmod, hlt, ?_, ?_⟩
  · have hbit : ∀ (l : Bool) (c : Prop) [Decidable c],
        ((if l = true then flagNX else flag0) ||| if c then flagNV else flag0).getLsbD 0 = l := by
      intro l c _
      by_cases hc : c
      · rw [if_pos hc]
        cases l <;> rfl
      · rw [if_neg hc]
        cases l <;> rfl
    rw [hbit, Bool.eq_iff_iff, decide_eq_true_iff, hlost]
  · by_cases hc : n < lo ∨ hi < n
    · rw [if_pos hc, decide_eq_true hc]
      cases lost <;> rfl
    · rw [if_neg hc, decide_eq_false hc]
      cases lost <;> rfl

end Conversions

/-- The absent code of F32 converts to the absent code of every format, and to 0 as a machine word (R66). -/
theorem cvtWord_absent (t : Codebook) (d va : Reg) (s : Bool) (m : Option Modifier) :
    ∀ p ∈ ([(.f32, 0xFFFFFFFF), (.f16, 0xFFFF), (.bf16, 0xFFFF), (.e4m3, 0x80), (.e5m2, 0x80), (.e3m2, 0x20), (.e2m3, 0x20), (.e2m1, 8),
      (.i32, 0x80000000), (.i16, 0x8000), (.i8, 0x80), (.u8, 0xFF), (.i6, 0x20), (.i4, 8), (.u4, 15), (.i2, 2), (.cb4, 15), (.cb3, 7),
      (.cb2, 3), (.s32, 0), (.u32, 0)] : List (Fmt × Word)), cvtWord ⟨p.1, .f32, s, d, va, m⟩ t 0xFFFFFFFF = (p.2, flag0) := by
  have habsent : ∀ (f : Fmt) (rnd : Rnd) (sat : Bool), convert .absent f t rnd sat = (absentCode f, flag0) := by
    intro f rnd sat
    cases f <;> rfl
  have hdec : decodeFmt .f32 t (0xFFFFFFFF : Word).toNat = .absent := rfl
  have hcvt : ∀ f : Fmt, cvtWord ⟨f, .f32, s, d, va, m⟩ t 0xFFFFFFFF = (BitVec.ofNat 32 (absentCode f), flag0) := by
    intro f
    unfold cvtWord
    dsimp only
    rw [hdec]
    dsimp only
    rw [habsent]
  intro p hp
  rw [hcvt]
  revert p
  decide

end Sys2Proof.Machine


namespace Sys2Proof.Machine

/-! ### Reciprocals and roots of F32, rounded once (R202) -/

/-- A special function on an F32 word. -/
theorem specialWord_f32 (f : SpecialFn) (a : Word) : specialWord f .f32 none a
    = (BitVec.ofNat 32 (specialElem f fpF32 a.toNat none).1, (specialElem f fpF32 a.toNat none).2) := by
  show mapElems 32 1 (fun x _ _ => specialElem f fpF32 x none) a 0 0 = _
  rw [mapElems_whole]

/-- A function whose result is an exact number, with or without a hidden part, rounds it once. -/
theorem specialElem_num {f : SpecialFn} {c : ℕ} {x y : Exact} (hx : decodeFloat fpF32 c = .num x)
    (hf : specialValue f (.num x) = some (.num y, flag0)) : (specialElem f fpF32 c none).1 = (roundFloat fpF32 y .nearest false).1 := by
  unfold specialElem
  dsimp only
  rw [hx, hf]
  dsimp only
  rw [post_num]

/-- A function whose result is a NaN raises NV (R202). -/
theorem specialElem_nan {f : SpecialFn} {c : ℕ} {x : Exact} (hx : decodeFloat fpF32 c = .num x)
    (hf : specialValue f (.num x) = some (.nan, flagNV)) : specialElem f fpF32 c none = (0x7FC00000, flagNV) := by
  unfold specialElem
  dsimp only
  rw [hx, hf]
  rfl

theorem lt_bitLen {j n : ℕ} (h : 2 ^ j ≤ n) : j < bitLen n := by
  have hn : n ≠ 0 := by have := Nat.two_pow_pos j; omega
  rw [bitLen, if_neg hn]
  have : 2 ^ j < 2 ^ (Nat.log2 n + 1) := h.trans_lt Nat.lt_log2_self
  exact (Nat.pow_lt_pow_iff_right (by decide)).1 this

theorem lt_two_pow_bitLen (n : ℕ) : n < 2 ^ bitLen n := by
  unfold bitLen
  split
  · next h => rw [h]; decide
  · exact Nat.lt_log2_self

/-- The result of an operation on F32 whose value, U units, is not past the largest number: the code nearest to it, with its sign. -/
theorem f32_rounds {y : Exact} {V : ℝ} (hV : Denotes y V) (hm : y.m ≠ 0) (hbits : 25 ≤ bitLen y.m)
    (hU : V * 2 ^ 149 < (2 ^ 25 - 1) * 2 ^ 252) :
    ∃ c, NearestCode 23 fpF32.maxCode (V * 2 ^ 149) c ∧ f32Finite (BitVec.ofNat 32 (roundFloat fpF32 y .nearest false).1) ∧
      f32Scaled (BitVec.ofNat 32 (roundFloat fpF32 y .nearest false).1) = signInt y.neg * magOf 23 c := by
  have h := roundFloat_rounds regular_f32 hV (fun h => absurd h hm) fun _ => hbits
  have hfine : V * (2 : ℝ) ^ fpF32.fine = V * 2 ^ 149 := by rw [f32_fine, zpow_natCast]
  rw [hfine] at h
  cases h with
  | number c code nearest _ _ _ =>
    have hroom : c < 2 ^ (8 + 23) := nearest.le.trans_lt regular_f32.room
    have hcode : (roundFloat fpF32 y .nearest false).1 = (if y.neg && (c != 0 || true) then 2 ^ (8 + 23) else 0) + c := code
    have hlt : (roundFloat fpF32 y .nearest false).1 < 2 ^ 32 := by
      rw [hcode]
      split <;> omega
    refine ⟨c, nearest, ?_, ?_⟩
    · rw [f32Finite_iff, toNat_ofNat_of_lt hlt]
      refine (ieee_f32.finite_iff _).2 ⟨hlt, ?_⟩
      show (roundFloat fpF32 y .nearest false).1 % 2 ^ (8 + 23) ≤ fpF32.maxCode
      rw [hcode]
      split
      · rw [Nat.add_mod_left, Nat.mod_eq_of_lt hroom]; exact nearest.le
      · rw [Nat.zero_add, Nat.mod_eq_of_lt hroom]; exact nearest.le
    · rw [f32Scaled_eq, toNat_ofNat_of_lt hlt, hcode]
      exact fpScaled_signed y.neg true hroom
  | overflow _ _ past =>
    exfalso
    norm_num at past hU
    linarith

/-- The magnitude of a finite F32 number is one that a code has. -/
theorem f32_magnitude {y : Word} (hy : f32Finite y) (neg : Bool) :
    ∃ c ≤ fpF32.maxCode, |(signInt neg : ℝ) * f32Scaled y| = magOf 23 c := by
  refine ⟨y.toNat % 2 ^ (8 + 23), ((ieee_f32.finite_iff _).1 ((f32Finite_iff y).1 hy)).2, ?_⟩
  rw [abs_mul, abs_signInt, one_mul, f32Scaled_eq, fpScaled_eq]
  push_cast
  rw [abs_mul, Nat.abs_cast]
  split <;> simp

theorem f32_magOf_le {c : ℕ} (hc : c ≤ fpF32.maxCode) : magOf 23 c ≤ (2 ^ 24 - 1) * 2 ^ 253 := by
  have hc' : c ≤ 0x7F7FFFFF := hc
  have hfrac : (if c / 2 ^ 23 = 0 then c % 2 ^ 23 else 2 ^ 23 + c % 2 ^ 23) ≤ 2 ^ 24 - 1 := by
    split <;> omega
  have hexp : max (c / 2 ^ 23) 1 - 1 ≤ 253 := by omega
  exact Nat.mul_le_mul hfrac (Nat.pow_le_pow_right (by decide) hexp)

section Special

variable {a : Word} {x : Exact}

/-- A number that is not 0 has a magnitude that is not 0. -/
theorem Decodes.m_ne_zero (hx : Decodes fpF32 a.toNat x) (h : f32Scaled a ≠ 0) : x.m ≠ 0 := by
  intro hm
  have := hx.f32_real
  rw [Exact.real_of_m_eq_zero hm, zero_mul] at this
  exact h (by exact_mod_cast this.symm)

theorem Decodes.neg_iff (hx : Decodes fpF32 a.toNat x) (h : f32Scaled a ≠ 0) : x.neg = true ↔ f32Scaled a < 0 := by
  rw [Exact.neg_iff (hx.m_ne_zero h), ← Int.cast_lt_zero (R := ℝ), ← hx.f32_real]
  have := two_zpow_pos 149
  constructor
  · exact fun h => mul_neg_of_neg_of_pos h this
  · exact fun h => by by_contra hc; exact absurd h (not_lt.2 (mul_nonneg (not_lt.1 hc) this.le))

/-- The exact quotient denotes the quotient, in at least 96 digits. -/
theorem Exact.div_denotes (hm : x.m ≠ 0) : Denotes (Exact.div ⟨false, 1, 0, false⟩ x) (1 / (x.m * 2 ^ x.e)) ∧
    (Exact.div ⟨false, 1, 0, false⟩ x).neg = x.neg ∧ 2 ^ 96 ≤ (Exact.div ⟨false, 1, 0, false⟩ x).m := by
  obtain ⟨k, hk, hdiv⟩ : ∃ k : ℕ, 96 + bitLen x.m ≤ k ∧
      Exact.div ⟨false, 1, 0, false⟩ x = ⟨x.neg, 2 ^ k / x.m, 0 - x.e - k, decide (2 ^ k % x.m ≠ 0)⟩ := by
    refine ⟨96 + bitLen x.m + (64 + (0 - x.e)).toNat, Nat.le_add_right _ _, ?_⟩
    unfold Exact.div
    rw [if_neg (by decide)]
    dsimp only
    rw [one_mul, Bool.false_bne]
  rw [hdiv]
  have hmpos : (0 : ℝ) < x.m := by exact_mod_cast Nat.pos_of_ne_zero hm
  have hV : (1 / (x.m * 2 ^ x.e) : ℝ) = (2 ^ k / x.m) * 2 ^ (0 - x.e - (k : ℤ)) := by
    rw [zpow_sub₀ (by norm_num), zpow_sub₀ (by norm_num), zpow_zero, zpow_natCast]
    have := (two_zpow_pos x.e).ne'
    field_simp
  have hstep := two_zpow_pos (0 - x.e - (k : ℤ))
  have hdm : (x.m : ℝ) * (2 ^ k / x.m : ℕ) + (2 ^ k % x.m : ℕ) = 2 ^ k := by exact_mod_cast Nat.div_add_mod (2 ^ k) x.m
  have hrem : ((2 ^ k % x.m : ℕ) : ℝ) < x.m := by exact_mod_cast Nat.mod_lt _ (Nat.pos_of_ne_zero hm)
  have hquo : (2 ^ k / x.m : ℝ) = (2 ^ k / x.m : ℕ) + (2 ^ k % x.m : ℕ) / x.m := by
    rw [← hdm]
    field_simp
  refine ⟨⟨?_, ?_, fun h => ?_, fun h => ?_⟩, rfl, ?_⟩
  · dsimp only
    rw [hV, hquo]
    exact mul_le_mul_of_nonneg_right (le_add_of_nonneg_right (by positivity)) hstep.le
  · dsimp only
    rw [hV, hquo]
    exact mul_lt_mul_of_pos_right (by gcongr; rwa [div_lt_one hmpos]) hstep
  · have h0 : 2 ^ k % x.m = 0 := by simpa using h
    dsimp only
    rw [hV, hquo, h0]
    simp
  · have h0 : 2 ^ k % x.m ≠ 0 := by simpa using h
    have : (0 : ℝ) < (2 ^ k % x.m : ℕ) := by exact_mod_cast Nat.pos_of_ne_zero h0
    dsimp only
    rw [hV, hquo]
    exact mul_lt_mul_of_pos_right (lt_add_of_pos_right _ (by positivity)) hstep
  · rw [Nat.le_div_iff_mul_le (Nat.pos_of_ne_zero hm)]
    calc 2 ^ 96 * x.m ≤ 2 ^ 96 * 2 ^ bitLen x.m := Nat.mul_le_mul_left _ (lt_two_pow_bitLen x.m).le
      _ = 2 ^ (96 + bitLen x.m) := (pow_add _ _ _).symm
      _ ≤ 2 ^ k := Nat.pow_le_pow_right (by decide) hk

/-- FRCP: no finite F32 number times the operand is nearer to 1 than the result (R202). -/
theorem f32_reciprocal (hx : Decodes fpF32 a.toNat x) (hv : f32Scaled a ≠ 0)
    (hbig : 2 ^ 298 < (f32Scaled a).natAbs * ((2 ^ 25 - 1) * 2 ^ 252)) : let r := (specialWord .rcp .f32 none a).1
      f32Finite r ∧ ∀ y, f32Finite y → (f32Scaled r * f32Scaled a - 2 ^ 298).natAbs ≤ (f32Scaled y * f32Scaled a - 2 ^ 298).natAbs := by
  have hm := hx.m_ne_zero hv
  obtain ⟨hden, hneg, hbits⟩ := Exact.div_denotes hm
  have hspecial : specialValue .rcp (.num x) = some (.num (Exact.div ⟨false, 1, 0, false⟩ x), flag0) := by
    unfold specialValue
    dsimp only
    rw [if_neg hm]
  have hmag : (0 : ℝ) < x.m * 2 ^ x.e := mul_pos (by exact_mod_cast Nat.pos_of_ne_zero hm) (two_zpow_pos _)
  have hval : (f32Scaled a : ℝ) = signInt x.neg * (x.m * 2 ^ x.e * 2 ^ 149) := by
    rw [← hx.f32_real, Exact.real_eq, show (149 : ℤ) = (149 : ℕ) from rfl, zpow_natCast]
    ring
  have habs : (((f32Scaled a).natAbs : ℕ) : ℝ) = x.m * 2 ^ x.e * 2 ^ 149 := by
    rw [Nat.cast_natAbs, Int.cast_abs, hval, abs_mul, abs_signInt, one_mul, abs_of_pos (by positivity)]
  generalize hw : (x.m * 2 ^ x.e : ℝ) = w at *
  have hU : 1 / w * 2 ^ 149 < (2 ^ 25 - 1) * 2 ^ 252 := by
    have : ((2 ^ 298 : ℕ) : ℝ) < ((f32Scaled a).natAbs * ((2 ^ 25 - 1) * 2 ^ 252) : ℕ) := Nat.cast_lt.2 hbig
    rw [Nat.cast_mul, habs, Nat.cast_pow, show 298 = 149 + 149 from rfl, pow_add,
      show (((2 ^ 25 - 1) * 2 ^ 252 : ℕ) : ℝ) = (2 ^ 25 - 1) * 2 ^ 252 by norm_num, mul_right_comm w] at this
    rw [one_div, inv_mul_lt_iff₀ hmag]
    exact lt_of_mul_lt_mul_right this (by positivity)
  obtain ⟨c, hbest, hfin, hres⟩ := f32_rounds hden (by omega) (by have := lt_bitLen hbits; omega) hU
  intro r
  have hr : r = BitVec.ofNat 32 (roundFloat fpF32 (Exact.div ⟨false, 1, 0, false⟩ x) .nearest false).1 := by
    show (specialWord .rcp .f32 none a).1 = _
    rw [specialWord_f32, specialElem_num hx.eq hspecial]
  rw [← hr] at hfin hres
  rw [hneg] at hres
  refine ⟨hfin, fun y hy => ?_⟩
  have hself : (signInt x.neg : ℝ) * signInt x.neg = 1 := by exact_mod_cast signInt_mul_self x.neg
  have hdist : ∀ z : ℤ, (((z * f32Scaled a - 2 ^ 298).natAbs : ℕ) : ℝ) = |1 / w * 2 ^ 149 - signInt x.neg * z| * (w * 2 ^ 149) := by
    intro z
    have heq : ((z * f32Scaled a - 2 ^ 298 : ℤ) : ℝ) = -((1 / w * 2 ^ 149 - signInt x.neg * z) * (w * 2 ^ 149)) := by
      rw [Int.cast_sub, Int.cast_mul, hval, Int.cast_pow, Int.cast_ofNat]
      field_simp
      ring
    rw [Nat.cast_natAbs, Int.cast_abs, heq, abs_neg, abs_mul, abs_of_pos (by positivity : (0 : ℝ) < w * 2 ^ 149)]
  obtain ⟨e, he, hmagy⟩ := f32_magnitude hy x.neg
  have hclose := (hbest.best _ e he hmagy).1
  have hback : (signInt x.neg : ℝ) * (f32Scaled r : ℤ) = magOf 23 c := by
    rw [hres]
    push_cast
    linear_combination (magOf 23 c : ℝ) * hself
  rw [← Nat.cast_le (α := ℝ), hdist, hdist, hback]
  exact mul_le_mul_of_nonneg_right hclose (by positivity)

/-- The binary digits of a root, one by one (R202). -/
theorem isqrtGo_spec (k r m : ℕ) (h1 : r * r ≤ m) (h2 : m < (r + 2 ^ k) * (r + 2 ^ k)) :
    isqrtGo k r m * isqrtGo k r m ≤ m ∧ m < (isqrtGo k r m + 1) * (isqrtGo k r m + 1) := by
  induction k generalizing r with
  | zero => exact ⟨h1, h2⟩
  | succ k ih =>
    rw [isqrtGo]
    split
    · next hc => exact ih _ hc (by rw [pow_succ] at h2; rwa [show r + 2 ^ k + 2 ^ k = r + 2 ^ k * 2 by ring])
    · next hc => exact ih _ h1 (not_le.1 hc)

theorem isqrt_spec (m : ℕ) : isqrt m * isqrt m ≤ m ∧ m < (isqrt m + 1) * (isqrt m + 1) := by
  refine isqrtGo_spec _ 0 m (Nat.zero_le m) ?_
  calc m < 2 ^ bitLen m := lt_two_pow_bitLen m
    _ ≤ 2 ^ ((bitLen m / 2 + 1) + (bitLen m / 2 + 1)) := Nat.pow_le_pow_right (by decide) (by omega)
    _ = (0 + 2 ^ (bitLen m / 2 + 1)) * (0 + 2 ^ (bitLen m / 2 + 1)) := by rw [pow_add]; ring

/-- The exact root denotes the root, in at least 60 digits. -/
theorem sqrtExact_denotes (hm : x.m ≠ 0) : Denotes (sqrtExact x) (Real.sqrt (x.m * 2 ^ x.e)) ∧ (sqrtExact x).neg = false ∧
    2 ^ 60 ≤ (sqrtExact x).m := by
  obtain ⟨s, hs, heven, heq⟩ : ∃ s : ℕ, 130 ≤ s ∧ (x.e - s) % 2 = 0 ∧
      sqrtExact x = ⟨false, isqrt (x.m * 2 ^ s), (x.e - s) / 2, decide (isqrt (x.m * 2 ^ s) * isqrt (x.m * 2 ^ s) ≠ x.m * 2 ^ s)⟩ := by
    refine ⟨130 + (if (x.e - 130) % 2 = 0 then 0 else 1), Nat.le_add_right _ _, ?_, rfl⟩
    split <;> push_cast <;> omega
  rw [heq]
  obtain ⟨hlo, hhi⟩ := isqrt_spec (x.m * 2 ^ s)
  have hbits : 2 ^ 60 ≤ isqrt (x.m * 2 ^ s) := by
    by_contra hc
    have h1 : isqrt (x.m * 2 ^ s) + 1 ≤ 2 ^ 60 := by omega
    have h2 : x.m * 2 ^ s < 2 ^ 60 * 2 ^ 60 := hhi.trans_le (Nat.mul_le_mul h1 h1)
    have h3 : 2 ^ 130 ≤ x.m * 2 ^ s := by
      calc 2 ^ 130 ≤ 1 * 2 ^ s := by rw [one_mul]; exact Nat.pow_le_pow_right (by decide) hs
        _ ≤ x.m * 2 ^ s := Nat.mul_le_mul_right _ (Nat.pos_of_ne_zero hm)
    omega
  generalize isqrt (x.m * 2 ^ s) = r at *
  have hstep := two_zpow_pos ((x.e - s) / 2)
  -- the value under the root, as a square of the step
  have hsq : (x.m * 2 ^ x.e : ℝ) = (x.m * 2 ^ s : ℕ) * (2 ^ ((x.e - s) / 2) * 2 ^ ((x.e - s) / 2)) := by
    rw [← zpow_add₀ (by norm_num), show (x.e - s) / 2 + (x.e - s) / 2 = x.e - s by omega, zpow_sub₀ (by norm_num), zpow_natCast]
    push_cast
    field_simp
  have hlo' : (r : ℝ) * r ≤ (x.m * 2 ^ s : ℕ) := by exact_mod_cast hlo
  have hhi' : ((x.m * 2 ^ s : ℕ) : ℝ) < (r + 1) * (r + 1) := by exact_mod_cast hhi
  have hr0 : (0 : ℝ) ≤ r := Nat.cast_nonneg r
  rw [hsq]
  generalize (x.e - (s : ℤ)) / 2 = k at *
  generalize hu : (2 : ℝ) ^ k = u at *
  refine ⟨⟨?_, ?_, fun h => ?_, fun h => ?_⟩, rfl, hbits⟩ <;> dsimp only <;> rw [hu]
  · refine Real.le_sqrt_of_sq_le ?_
    nlinarith [mul_pos hstep hstep]
  · rw [Real.sqrt_lt' (by positivity)]
    nlinarith [mul_pos hstep hstep]
  · have h0 : r * r = x.m * 2 ^ s := by simpa using h
    have : ((x.m * 2 ^ s : ℕ) : ℝ) * (u * u) = (r * u) * (r * u) := by
      rw [← h0]
      push_cast
      ring
    rw [this, Real.sqrt_mul_self (by positivity)]
  · have h0 : r * r ≠ x.m * 2 ^ s := by simpa using h
    have : (r : ℝ) * r < (x.m * 2 ^ s : ℕ) := by exact_mod_cast lt_of_le_of_ne hlo h0
    refine Real.lt_sqrt_of_sq_lt ?_
    nlinarith [mul_pos hstep hstep]

/-- Of two numbers the one at most as far from U lies on the side of U that the middle of both is not on. -/
theorem middle_of_nearer {U R Y : ℝ} (h : |U - R| ≤ |U - Y|) : (R < Y → 2 * U ≤ R + Y) ∧ (Y < R → R + Y ≤ 2 * U) := by
  have hsq : (U - R) ^ 2 ≤ (U - Y) ^ 2 := sq_le_sq.2 h
  exact ⟨fun hlt => by nlinarith, fun hlt => by nlinarith⟩

/-- The root of a finite F32 number, in units of the smallest one, is not past the largest one. -/
theorem root_lt_top (ha : f32Finite a) {U : ℝ} (hU0 : 0 ≤ U) (hUsq : U * U = f32Scaled a * 2 ^ 149) : U < (2 ^ 25 - 1) * 2 ^ 252 := by
  have htop : (f32Scaled a : ℝ) ≤ (2 ^ 24 - 1) * 2 ^ 253 := by
    obtain ⟨c, hc, hmagc⟩ := f32_magnitude ha false
    have hle : ((magOf 23 c : ℕ) : ℝ) ≤ (((2 ^ 24 - 1) * 2 ^ 253 : ℕ) : ℝ) := Nat.cast_le.2 (f32_magOf_le hc)
    rw [signInt, if_neg Bool.false_ne_true, Int.cast_one, one_mul] at hmagc
    rw [show (((2 ^ 24 - 1) * 2 ^ 253 : ℕ) : ℝ) = (2 ^ 24 - 1) * 2 ^ 253 by norm_num] at hle
    linarith [le_abs_self (f32Scaled a : ℝ)]
  by_contra hc
  have h1 : ((2 : ℝ) ^ 25 - 1) * 2 ^ 252 * ((2 ^ 25 - 1) * 2 ^ 252) ≤ U * U :=
    mul_le_mul (not_lt.1 hc) (not_lt.1 hc) (by norm_num) hU0
  rw [hUsq] at h1
  norm_num at h1 htop
  linarith

/-- FSQRT of a positive number: the result is a positive number, and no other one lies nearer to the root (R202). -/
theorem f32_root (hx : Decodes fpF32 a.toNat x) (hfa : f32Finite a) (hv : 0 < f32Scaled a) :
    let r := (specialWord .sqrt .f32 none a).1
    f32Finite r ∧ 0 < f32Scaled r ∧ ∀ y, f32Finite y → 0 ≤ f32Scaled y →
      (f32Scaled r < f32Scaled y → 4 * f32Scaled a * 2 ^ 149 ≤ (f32Scaled r + f32Scaled y) ^ 2) ∧
      (f32Scaled y < f32Scaled r → (f32Scaled r + f32Scaled y) ^ 2 ≤ 4 * f32Scaled a * 2 ^ 149) := by
  have hm := hx.m_ne_zero hv.ne'
  have hneg : x.neg = false := by
    rw [← Bool.not_eq_true, hx.neg_iff hv.ne']
    exact not_lt.2 hv.le
  obtain ⟨hden, hsneg, hbits⟩ := sqrtExact_denotes (x := x) hm
  have hspecial : specialValue .sqrt (.num x) = some (.num (sqrtExact x), flag0) := by
    unfold specialValue
    dsimp only
    rw [if_neg hm, hneg, if_neg Bool.false_ne_true]
  have hmag : (0 : ℝ) < x.m * 2 ^ x.e := mul_pos (by exact_mod_cast Nat.pos_of_ne_zero hm) (two_zpow_pos _)
  have hval : (f32Scaled a : ℝ) = x.m * 2 ^ x.e * 2 ^ 149 := by
    rw [← hx.f32_real, Exact.real_eq, hneg, show (149 : ℤ) = (149 : ℕ) from rfl, zpow_natCast]
    simp [signInt]
  -- the root in units of 2^-149, and its square
  obtain ⟨U, hUdef⟩ : ∃ U, Real.sqrt (x.m * 2 ^ x.e) * 2 ^ 149 = U := ⟨_, rfl⟩
  have hU0 : 0 ≤ U := by rw [← hUdef]; positivity
  have hUsq : U * U = f32Scaled a * 2 ^ 149 := by
    rw [← hUdef, hval]
    have := Real.mul_self_sqrt hmag.le
    linear_combination (2 ^ 149 * 2 ^ 149 : ℝ) * this
  obtain ⟨c, hbest, hfin, hres⟩ := f32_rounds hden (by omega) (by have := lt_bitLen hbits; omega) 
    (by rw [hUdef]; exact root_lt_top hfa hU0 hUsq)
  rw [hUdef] at hbest
  intro r
  have hr : r = BitVec.ofNat 32 (roundFloat fpF32 (sqrtExact x) .nearest false).1 := by
    show (specialWord .sqrt .f32 none a).1 = _
    rw [specialWord_f32, specialElem_num hx.eq hspecial]
  rw [← hr] at hfin hres
  have hres' : f32Scaled r = magOf 23 c := by rw [hres, hsneg]; simp [signInt]
  have hone : (1 : ℝ) ≤ U := by
    have h1 : (1 : ℝ) ≤ f32Scaled a := by exact_mod_cast hv
    have h2 : (1 : ℝ) ≤ U * U := by rw [hUsq]; norm_num; linarith
    nlinarith
  have hpos : 0 < f32Scaled r := by
    rw [hres']
    rcases Nat.eq_zero_or_pos (magOf 23 c) with h0 | h0
    · have h := (hbest.best 1 1 (by decide) (by rw [show magOf 23 1 = 1 by decide]; simp)).1
      rw [h0, Nat.cast_zero, sub_zero, abs_of_nonneg hU0, abs_of_nonneg (by linarith)] at h
      linarith
    · exact_mod_cast h0
  refine ⟨hfin, hpos, fun y hy hy0 => ?_⟩
  obtain ⟨e, he, hmagy⟩ := f32_magnitude hy false
  rw [signInt, if_neg Bool.false_ne_true, Int.cast_one, one_mul] at hmagy
  have hclose := (hbest.best _ e he hmagy).1
  have hR : (magOf 23 c : ℝ) = f32Scaled r := by rw [hres']; push_cast; rfl
  rw [hR] at hclose
  have hr0 : (0 : ℝ) ≤ f32Scaled r := by exact_mod_cast hpos.le
  have hy0' : (0 : ℝ) ≤ f32Scaled y := by exact_mod_cast hy0
  have hfour : ((4 * f32Scaled a * 2 ^ 149 : ℤ) : ℝ) = (2 * U) * (2 * U) := by
    rw [Int.cast_mul, Int.cast_mul, Int.cast_pow]
    linear_combination (-4 : ℝ) * hUsq
  obtain ⟨hup, hdown⟩ := middle_of_nearer hclose
  rw [← Int.cast_lt (R := ℝ), ← Int.cast_lt (R := ℝ), ← Int.cast_le (R := ℝ), ← Int.cast_le (R := ℝ), hfour, Int.cast_pow,
    Int.cast_add, pow_two]
  exact ⟨fun hlt => mul_le_mul (hup hlt) (hup hlt) (by linarith) (by linarith),
    fun hlt => mul_le_mul (hdown hlt) (hdown hlt) (by linarith) (by linarith)⟩

/-- Roots and logarithms of negative numbers (R202). -/
theorem f32_negative (hx : Decodes fpF32 a.toNat x) (hv : f32Scaled a < 0) :
    ∀ f ∈ ([.rsq, .sqrt, .log2] : List SpecialFn), specialWord f .f32 none a = (0x7FC00000, flagNV) := by
  have hm := hx.m_ne_zero hv.ne
  have hneg := (hx.neg_iff hv.ne).2 hv
  intro f hf
  have hspecial : specialValue f (.num x) = some (.nan, flagNV) := by
    simp only [List.mem_cons, List.not_mem_nil, or_false] at hf
    rcases hf with rfl | rfl | rfl <;>
    · unfold specialValue
      dsimp only
      rw [if_neg hm, hneg, if_pos rfl]
  rw [specialWord_f32, specialElem_nan hx.eq hspecial]
  rfl

end Special

/-- The special inputs of R202. -/
theorem specialWord_table :
    ∀ p ∈ ([(.rcp, 0xFF800000, 0x80000000, flag0), (.rcp, 0x80000000, 0xFF800000, flagDZ),
      (.rcp, 0, 0x7F800000, flagDZ), (.rcp, 0x7F800000, 0, flag0), (.rsq, 0xFF800000, 0x7FC00000, flagNV), (.rsq, 0x80000000, 0xFF800000, flagDZ),
      (.rsq, 0, 0x7F800000, flagDZ), (.rsq, 0x7F800000, 0, flag0), (.sqrt, 0xFF800000, 0x7FC00000, flagNV),
      (.sqrt, 0x80000000, 0x80000000, flag0), (.sqrt, 0, 0, flag0), (.sqrt, 0x7F800000, 0x7F800000, flag0), (.exp2, 0xFF800000, 0, flag0),
      (.exp2, 0x80000000, 0x3F800000, flag0), (.exp2, 0, 0x3F800000, flag0), (.exp2, 0x7F800000, 0x7F800000, flag0),
      (.log2, 0xFF800000, 0x7FC00000, flagNV), (.log2, 0x80000000, 0xFF800000, flagDZ), (.log2, 0, 0xFF800000, flagDZ),
      (.log2, 0x7F800000, 0x7F800000, flag0), (.sin, 0xFF800000, 0x7FC00000, flagNV), (.sin, 0x80000000, 0x80000000, flag0),
      (.sin, 0, 0, flag0), (.sin, 0x7F800000, 0x7FC00000, flagNV), (.cos, 0xFF800000, 0x7FC00000, flagNV),
      (.cos, 0x80000000, 0x3F800000, flag0), (.cos, 0, 0x3F800000, flag0), (.cos, 0x7F800000, 0x7FC00000, flagNV),
      (.tanh, 0xFF800000, 0xBF800000, flag0), (.tanh, 0x80000000, 0x80000000, flag0), (.tanh, 0, 0, flag0),
      (.tanh, 0x7F800000, 0x3F800000, flag0)] : List (SpecialFn × Word × Word × Flags)),
    specialWord p.1 .f32 none p.2.1 = (p.2.2.1, p.2.2.2) := by
  decide +kernel

/-! ### Elements in registers (R206) -/

/-- PACK and UNPK move element k of a register and keep every other bit. -/
theorem packed_elements (a ctl d : Word) (h : packOk ctl = true) :
    let w := fmtWidth (fmtAt (ctl.extractLsb' 0 5).toNat)
    let k := (ctl.extractLsb' 8 4).toNat
    ∀ i < 32, (unpkWord a ctl).getLsbD i = (decide (i < w) && a.getLsbD (w * k + i)) ∧
      (packWord a ctl d).getLsbD i = (if w * k ≤ i ∧ i < w * k + w then a.getLsbD (i - w * k) else d.getLsbD i) := by
  intro w k i hi
  obtain ⟨f, hf, hk⟩ : ∃ f, Fmt.ofCode (ctl.extractLsb' 0 5) = some f ∧ k < regCount f := by
    unfold packOk at h
    split at h
    · cases h
    · next f hf =>
      simp only [Bool.and_eq_true, decide_eq_true_eq] at h
      exact ⟨f, hf, h.2⟩
  have hw : w = fmtWidth f := by
    show fmtWidth (fmtAt (ctl.extractLsb' 0 5).toNat) = _
    rw [fmtAt, BitVec.ofNat_toNat, BitVec.setWidth_eq, hf]
    rfl
  have hfit : w * k + w ≤ 32 := by
    rw [regCount, ← hw] at hk
    calc w * k + w = w * (k + 1) := by ring
      _ ≤ w * (32 / w) := Nat.mul_le_mul_left _ hk
      _ ≤ 32 := Nat.mul_div_le 32 w
  have hunpk : unpkWord a ctl = BitVec.ofNat 32 (elem w k a) := by
    unfold unpkWord
    rw [hf, hw]
  have hpack : packWord a ctl d = (d &&& ~~~BitVec.ofNat 32 ((2 ^ w - 1) * 2 ^ (w * k))) |||
      ((a <<< (w * k)) &&& BitVec.ofNat 32 ((2 ^ w - 1) * 2 ^ (w * k))) := by
    unfold packWord
    rw [hf, hw]
  have hmask : (BitVec.ofNat 32 ((2 ^ w - 1) * 2 ^ (w * k))).getLsbD i = decide (w * k ≤ i ∧ i < w * k + w) := by
    rw [BitVec.getLsbD_ofNat, Nat.testBit_mul_two_pow, Nat.testBit_two_pow_sub_one, Bool.eq_iff_iff]
    simp only [Bool.and_eq_true, decide_eq_true_eq]
    omega
  constructor
  · rw [hunpk, BitVec.getLsbD_ofNat, elem, Nat.testBit_mod_two_pow, Nat.testBit_div_two_pow, BitVec.getLsbD, Nat.add_comm]
    simp [hi]
  · rw [hpack, BitVec.getLsbD_or, BitVec.getLsbD_and, BitVec.getLsbD_and, BitVec.getLsbD_not, hmask, BitVec.getLsbD_shiftLeft]
    by_cases hin : w * k ≤ i ∧ i < w * k + w
    · rw [if_pos hin]
      simp [hin, hi]
    · rw [if_neg hin]
      simp [hin, hi]

end Sys2Proof.Machine


namespace Sys2Proof.Machine

/-! ### The statement's clauses about halves and conversions, put together -/

/-- F16 and BF16, both elements of a register (R199). -/
theorem halves_arithmetic (y : FTy) (eb mb : Nat) (a b d : Word)
    (hy : (y, eb, mb) ∈ ([(.f16, 5, 10), (.bf16, 8, 7)] : List (FTy × Nat × Nat))) {h : ℕ} (hh : h < 2)
    (ha : fpFinite eb mb (halfOf h a)) (hb : fpFinite eb mb (halfOf h b)) :
    let v := fun (w : Word) => fpScaled eb mb (halfOf h w)
    let k := fpScale eb mb
    fpRounded eb mb 0 (v a + v b) (halfOf h (floatWord .add y none a b d).1) ∧
    fpRounded eb mb 0 (v a - v b) (halfOf h (floatWord .sub y none a b d).1) ∧
    fpRounded eb mb k (v a * v b) (halfOf h (floatWord .mul y none a b d).1) ∧
    (fpFinite eb mb (halfOf h d) → fpRounded eb mb k (v a * v b + 2 ^ k * v d) (halfOf h (floatWord .fma y none a b d).1)) := by
  simp only [List.mem_cons, List.not_mem_nil, or_false, Prod.mk.injEq] at hy
  obtain ⟨rfl, rfl, rfl⟩ | ⟨rfl, rfl, rfl⟩ := hy
  · exact fits_f16.packed_arithmetic rfl rfl rfl a b d hh ha hb
  · exact fits_bf16.packed_arithmetic rfl rfl rfl a b d hh ha hb

/-- CVT of an F32 number to the integers (R65, R203). -/
theorem integers_f32 {a : Word} {x : Exact} (hx : Decodes fpF32 a.toNat x) (t : Codebook) (d va : Reg) :
    let cv := fun (f : Fmt) => cvtWord ⟨f, .f32, false, d, va, none⟩ t a
    ∀ p ∈ ([(.i32, 32, -2147483647, 2147483647), (.i16, 16, -32767, 32767), (.i8, 8, -127, 127), (.u8, 8, 0, 254), (.i6, 6, -31, 31),
        (.i4, 4, -7, 7), (.u4, 4, 0, 14), (.i2, 2, -1, 1), (.s32, 32, -2147483648, 2147483647), (.u32, 32, 0, 4294967295)] :
        List (Fmt × Nat × Int × Int)),
      ∃ n, intNearest 149 (f32Scaled a) n ∧ (((cv p.1).1.toNat : Int) - max p.2.2.1 (min n p.2.2.2)) % 2 ^ p.2.1 = 0 ∧
        (cv p.1).1.toNat < 2 ^ p.2.1 ∧ (cv p.1).2.getLsbD 0 = decide (2 ^ 149 * n ≠ f32Scaled a) ∧
        (cv p.1).2.getLsbD 4 = decide (n < p.2.2.1 ∨ p.2.2.2 < n) := by
  intro cv
  simp only [List.forall_mem_cons, List.not_mem_nil, false_imp_iff, implies_true, and_true]
  exact ⟨convertInt_f32 hx (by decide) (by decide) (cvtWord_f32 hx .i32 t d va),
    convertInt_f32 hx (by decide) (by decide) (cvtWord_f32 hx .i16 t d va),
    convertInt_f32 hx (by decide) (by decide) (cvtWord_f32 hx .i8 t d va),
    convertInt_f32 hx (by decide) (by decide) (cvtWord_f32 hx .u8 t d va),
    convertInt_f32 hx (by decide) (by decide) (cvtWord_f32 hx .i6 t d va),
    convertInt_f32 hx (by decide) (by decide) (cvtWord_f32 hx .i4 t d va),
    convertInt_f32 hx (by decide) (by decide) (cvtWord_f32 hx .u4 t d va),
    convertInt_f32 hx (by decide) (by decide) (cvtWord_f32 hx .i2 t d va),
    convertInt_f32 hx (by decide) (by decide) (cvtWord_f32 hx .s32 t d va),
    convertInt_f32 hx (by decide) (by decide) (cvtWord_f32 hx .u32 t d va)⟩

/-- CVT of an F32 number to F16, BF16 and E4M3, rounded once (R203). -/
theorem floats_f32 {a : Word} {x : Exact} (hx : Decodes fpF32 a.toNat x) (t : Codebook) (d va : Reg) :
    let cv := fun (f : Fmt) => cvtWord ⟨f, .f32, false, d, va, none⟩ t a
    fpRounded 5 10 125 (f32Scaled a) (cv .f16).1.toNat ∧ fpRounded 8 7 16 (f32Scaled a) (cv .bf16).1.toNat ∧
    fpNearest 4 3 140 (fun c => c < 256 ∧ c % 128 ≠ 127 ∧ c ≠ 128) (f32Scaled a) (cv .e4m3).1.toNat := by
  intro cv
  have hcv : ∀ f, cv f = _ := fun f => cvtWord_f32 hx f t d va
  rw [hcv, hcv, hcv]
  exact ⟨fits_f16.convert_f32 (k := 125) rfl rfl hx, fits_bf16.convert_f32 (k := 16) rfl rfl hx, convert_e4m3 hx⟩

end Sys2Proof.Machine

section

open Sys2Proof Sys2Proof.Machine

/-- Settles O16: an F32, F16 or BF16 number is an exact number, and every operation of the model rounds the exact result to
the nearest code, once; the other clauses are about the codes. -/
theorem numberValues : Obligations.NumberValues := by
  unfold Obligations.NumberValues
  refine ⟨fun a b d ha hb => ?_, fun a => ⟨f32_absence a, f32_class a⟩, fun a b d ha hb => i32_sum ha hb d,
    fun y eb mb a b d hy h hh ha hb => halves_arithmetic y eb mb a b d hy hh ha hb, fun t d va a ha => ?_, cvtWord_absent,
    fun a ha => ?_, specialWord_table, packed_elements⟩
  · obtain ⟨hadd, hsub, hmul, hfma⟩ := f32_arithmetic ha hb d
    exact ⟨hadd, hsub, hmul, hfma, f32_comparison ha hb⟩
  · obtain ⟨x, hx⟩ := f32_decodes ha
    obtain ⟨hf16, hbf16, he4m3⟩ := floats_f32 hx t d va
    exact ⟨hf16, hbf16, he4m3, integers_f32 hx t d va⟩
  · obtain ⟨x, hx⟩ := f32_decodes ha
    exact ⟨f32_reciprocal hx, f32_root hx ha, f32_negative hx⟩

end

/-! ## Every step keeps the canonical form of memory (R84, R137)

O33 is about the home copies and what lies under the landings, O34 about the scratch of every group as well. Both are one
invariant, `State.Canon P`: physical memory is canonical, and where `P` holds the groups' scratch is too. The lemmas of
this part say that each function of the model keeps it: with `↔` where the function touches no memory and no group's
scratch, and with `State.Canon P` as a hypothesis where it writes. -/

namespace Sys2Proof.Machine

variable {P : Prop} {s : State}

/-! ### The invariant -/

/-- Physical memory has its canonical form and, where `P` holds, so has every group's scratch. -/
def State.Canon (P : Prop) (s : State) : Prop := s.memWf = true ∧ (P → ∀ g ∈ s.groups, g.memWf = true)

/-- The state that an instruction or an event leaves meets the invariant, where it leaves one. -/
def NextCanon (P : Prop) (o : Host.Outcome State Fault Refusal) : Prop := ∀ t, o = .next t → t.Canon P

/-- As `NextCanon`, for a step that may not be possible. -/
def OptCanon (P : Prop) (o : Option State) : Prop := ∀ t, o = some t → t.Canon P

/-- The invariant of a state that is given by its fields: it reads three of them. -/
def CanonParts (P : Prop) (mem base : List Host.Cell) (groups : List Group) : Prop :=
  Memory.wf mem = true ∧ Memory.wf base = true ∧ (P → ∀ g ∈ groups, g.memWf = true)

@[simp] theorem nextCanon_next : NextCanon P (.next s) ↔ s.Canon P := by simp [NextCanon]
@[simp] theorem nextCanon_fault {f : Fault} : NextCanon P (.fault f) := by simp [NextCanon]
@[simp] theorem nextCanon_refused {r : Refusal} : NextCanon P (.refused r) := by simp [NextCanon]
@[simp] theorem optCanon_some : OptCanon P (some s) ↔ s.Canon P := by simp [OptCanon]
@[simp] theorem optCanon_none : OptCanon P none := by simp [OptCanon]

@[simp] theorem canon_ite (c : Prop) [Decidable c] (a b : State) :
    (if c then a else b).Canon P ↔ if c then a.Canon P else b.Canon P := by
  split <;> rfl

@[simp] theorem nextCanon_ite (c : Prop) [Decidable c] (a b : Host.Outcome State Fault Refusal) :
    NextCanon P (if c then a else b) ↔ if c then NextCanon P a else NextCanon P b := by
  split <;> rfl

@[simp] theorem optCanon_ite (c : Prop) [Decidable c] (a b : Option State) :
    OptCanon P (if c then a else b) ↔ if c then OptCanon P a else OptCanon P b := by
  split <;> rfl

@[simp ↓] theorem canonParts_self : CanonParts P s.mem s.base s.groups ↔ s.Canon P := by
  simp [CanonParts, State.Canon, State.memWf_iff, and_assoc]

@[simp ↓] theorem canon_mk {cur agenda free uid tick47 groups savedMx flys queue batches waiters engines drives links cores
    dies parts contexts programs launches nextLaunch feeds binds mem base log nextLanding seals spoiled shadow dirty ops
    messages inbox endpoints watches namespaces conns backoffs orphans boot} :
    State.Canon P ⟨cur, agenda, free, uid, tick47, groups, savedMx, flys, queue, batches, waiters, engines, drives, links,
      cores, dies, parts, contexts, programs, launches, nextLaunch, feeds, binds, mem, base, log, nextLanding, seals, spoiled,
      shadow, dirty, ops, messages, inbox, endpoints, watches, namespaces, conns, backoffs, orphans, boot⟩ ↔
      CanonParts P mem base groups := by
  simp [CanonParts, State.Canon, State.memWf_iff, and_assoc]

@[simp] theorem canonParts_map {m b : List Host.Cell} {gs : List Group} {f : Group → Group}
    (hf : ∀ g, (f g).memWf = g.memWf) : CanonParts P m b (gs.map f) ↔ CanonParts P m b gs := by
  simp [CanonParts, hf]

@[simp] theorem canon_updGroup {gid : ℕ} {f : Group → Group} (hf : ∀ g, (f g).sMem = g.sMem ∧ (f g).nMem = g.nMem) :
    (s.updGroup gid f).Canon P ↔ s.Canon P := by
  rw [State.updGroup, updateBy, canon_mk, canonParts_map, canonParts_self]
  intro g
  split
  · simp [Group.memWf, hf]
  · rfl

theorem canon_updGroup_of {gid : ℕ} {f : Group → Group} (hf : ∀ g, g.memWf = true → (f g).memWf = true)
    (hs : s.Canon P) : (s.updGroup gid f).Canon P := ⟨hs.1, fun p => s.scratchWf_updGroup gid f hf (hs.2 p)⟩

theorem canon_filterGroups {f : Group → Bool} (hs : s.Canon P) : CanonParts P s.mem s.base (s.groups.filter f) := by
  obtain ⟨hm, hb, hg⟩ := canonParts_self.2 hs
  exact ⟨hm, hb, fun p g h => hg p g (List.mem_of_mem_filter h)⟩

theorem canon_addGroup {g : Group} (hw : g.memWf = true) (hs : s.Canon P) :
    CanonParts P s.mem s.base (s.groups ++ [g]) := by
  obtain ⟨hm, hb, hg⟩ := canonParts_self.2 hs
  exact ⟨hm, hb, fun p => List.forall_mem_append.2 ⟨hg p, List.forall_mem_singleton.2 hw⟩⟩

/-- A fold of steps that keep the invariant keeps it. -/
theorem canon_foldl {α : Type} {f : State → α → State} (hf : ∀ t a, t.Canon P → (f t a).Canon P) (l : List α)
    (hs : s.Canon P) : (l.foldl f s).Canon P :=
  List.foldlRecOn (motive := State.Canon P) l f hs fun t ht a _ => hf t a ht

@[simp] theorem canon_foldl_iff {α : Type} {f : State → α → State} {l : List α}
    (hf : ∀ t a, (f t a).Canon P ↔ t.Canon P) : (l.foldl f s).Canon P ↔ s.Canon P := by
  induction l generalizing s with
  | nil => rfl
  | cons a r ih => exact ih.trans (hf s a)

@[simp] theorem canon_foldr_iff {α : Type} {f : α → State → State} {l : List α}
    (hf : ∀ t a, (f a t).Canon P ↔ t.Canon P) : (l.foldr f s).Canon P ↔ s.Canon P := by
  induction l with
  | nil => rfl
  | cons a r ih => exact (hf _ a).trans ih

@[simp] theorem canon_storeLocal {l : Loc} {bs : List Byte} (hs : s.Canon P) : (s.storeLocal l bs).Canon P :=
  ⟨by cases l <;> exact hs.1, fun p => s.scratchWf_storeLocal l bs (hs.2 p)⟩

@[simp] theorem canon_updWarp {gid w : ℕ} {f : Warp → Warp} : (s.updWarp gid w f).Canon P ↔ s.Canon P :=
  canon_updGroup fun _ => ⟨rfl, rfl⟩

/-! ### Far memory, releases, landings -/

@[simp] theorem canon_setCore {c : ℕ} {k : Core} : (s.setCore c k).Canon P ↔ s.Canon P := Iff.rfl
@[simp] theorem canon_setDie {d : ℕ} {x : Die} : (s.setDie d x).Canon P ↔ s.Canon P := Iff.rfl
@[simp] theorem canon_setPart {p : ℕ} {x : Part} : (s.setPart p x).Canon P ↔ s.Canon P := Iff.rfl
@[simp] theorem canon_setContext {a : ℕ} {x : Context} : (s.setContext a x).Canon P ↔ s.Canon P := Iff.rfl
@[simp] theorem canon_updLaunch {l : ℕ} {f : Launch → Launch} : (s.updLaunch l f).Canon P ↔ s.Canon P := Iff.rfl
@[simp] theorem canon_spoilFar {ms : List (ℕ × Word)} : (s.spoilFar ms).Canon P ↔ s.Canon P := Iff.rfl

@[simp] theorem canon_writeHome {ws : List (ℕ × Byte)} (hs : s.Canon P) : (s.writeHome ws).Canon P :=
  ⟨s.memWf_writeHome ws hs.1, hs.2⟩

@[simp] theorem canon_writeRaw {ws : List (ℕ × Byte)} (hs : s.Canon P) : (s.writeRaw ws).Canon P :=
  ⟨s.memWf_writeRaw ws hs.1, hs.2⟩

@[simp] theorem canon_storeFar {c gid asid part : ℕ} {ws : List (ℕ × Byte)} {bad : List ℕ} :
    (s.storeFar c gid asid part ws bad).Canon P ↔ s.Canon P := Iff.rfl

@[simp] theorem canon_storeKept {c : ℕ} {xs : List FarStore} : (s.storeKept c xs).Canon P ↔ s.Canon P := Iff.rfl
@[simp] theorem canon_keepStores {g : Group} : (s.keepStores g).Canon P ↔ s.Canon P := by simp [State.keepStores]

@[simp] theorem canon_release {c : ℕ} {dom : ℕ × ℕ} {part scope : ℕ} {after : List After} :
    (s.release c dom part scope after).Canon P ↔ s.Canon P := Iff.rfl

@[simp] theorem canon_openRelease {c : ℕ} {dom : ℕ × ℕ} {part scope : ℕ} :
    (s.openRelease c dom part scope).Canon P ↔ s.Canon P := Iff.rfl

@[simp] theorem canon_closeRelease {c id : ℕ} {after : List After} : (s.closeRelease c id after).Canon P ↔ s.Canon P := by
  simp only [State.closeRelease]
  split <;> simp

@[simp] theorem canon_addLanding {c lo hi part num : ℕ} {ws : List (ℕ × Byte)} (hs : s.Canon P) :
    (s.addLanding c lo hi part num ws).Canon P := by simp [State.addLanding, hs]

@[simp] theorem canon_engineWrite {c : ℕ} {ws : List (ℕ × Byte)} (hs : s.Canon P) : (s.engineWrite c ws).Canon P := by
  simp [State.engineWrite, hs]

@[simp] theorem canon_hardLand {c part : ℕ} {ws : List (ℕ × Byte)} (hs : s.Canon P) : (s.hardLand c part ws).Canon P := by
  simp [State.hardLand, hs]

@[simp] theorem canon_landedWrite {c part : ℕ} {ws : List (ℕ × Byte)} (hs : s.Canon P) :
    (s.landedWrite c part ws).Canon P := by simp [State.landedWrite, hs]

@[simp] theorem canon_landHead {r : Release} (hs : s.Canon P) : (s.landHead r).Canon P := by simp [State.landHead, hs]
@[simp] theorem canon_acquire {c : ℕ} {dom : ℕ × ℕ} : (s.acquire c dom).Canon P ↔ s.Canon P := Iff.rfl

@[simp] theorem canon_acquireAt {g : Group} {scope : ℕ} : (s.acquireAt g scope).Canon P ↔ s.Canon P := by
  simp [State.acquireAt]

@[simp] theorem canon_locWrite {c : ℕ} {l : Loc} {i : ℕ} {bs : List Byte} (hs : s.Canon P) :
    (s.locWrite c l i bs).Canon P := by
  cases l with
  | phys a => exact canon_engineWrite hs
  | sram g a => exact canon_storeLocal (l := .sram g (a + i)) hs
  | nram g a => exact canon_storeLocal (l := .nram g (a + i)) hs

@[simp] theorem canon_lock {core : ℕ} {ls : List Lock} : (s.lock core ls).Canon P ↔ s.Canon P := Iff.rfl
@[simp] theorem canon_unlock {core op : ℕ} : (s.unlock core op).Canon P ↔ s.Canon P := Iff.rfl
@[simp] theorem canon_raceReported {c a : ℕ} : (s.raceReported c a).Canon P ↔ s.Canon P := Iff.rfl

@[simp] theorem canon_raceStore {part c gid : ℕ} {as : List ℕ} : (s.raceStore part c gid as).Canon P ↔ s.Canon P := by
  simp [State.raceStore]

@[simp] theorem canon_raceMove {c gid : ℕ} {as : List ℕ} : (s.raceMove c gid as).Canon P ↔ s.Canon P := Iff.rfl
@[simp] theorem canon_freeValue : s.freeValue.2.Canon P ↔ s.Canon P := Iff.rfl

/-! ### Feeds -/

@[simp] theorem canon_setFeed {f : Feed} : (s.setFeed f).Canon P ↔ s.Canon P := Iff.rfl

theorem canon_openFeed {core asid : ℕ} {desc : DWord} {q : ℕ × State} (e : s.openFeed core asid desc = .ok q) :
    q.2.Canon P ↔ s.Canon P := by
  unfold State.openFeed at e
  split at e
  · cases e
  · dsimp only at e
    split at e <;> cases e
    · dsimp only; split <;> simp
    · simp

@[simp] theorem canon_syncFeed {core num : ℕ} : (s.syncFeed core num).Canon P ↔ s.Canon P := by
  unfold State.syncFeed
  split
  · rfl
  · split
    · rfl
    · split
      · exact canon_openFeed (by assumption)
      · rfl

@[simp] theorem canon_service {die : ℕ} : (s.service die).2.Canon P ↔ s.Canon P := by
  unfold State.service
  split <;> simp

/-! ### Exceptions, completion, the fault queue -/

@[simp] theorem canon_updFly {id : ℕ} {f : Fly → Fly} : (s.updFly id f).Canon P ↔ s.Canon P := Iff.rfl
@[simp] theorem canon_notify {die : ℕ} {v : DWord} : (s.notify die v).Canon P ↔ s.Canon P := Iff.rfl

@[simp] theorem canon_saveFeed {core num : ℕ} (hs : s.Canon P) : (s.saveFeed core num).Canon P := by
  unfold State.saveFeed
  split
  · exact hs
  · split
    · exact hs
    · refine List.foldlRecOn _ _ ?_ fun t ht p _ => ?_
      · split <;> simp [hs]
      · split <;> simp [ht]

@[simp] theorem canon_serveFeed {num n : ℕ} : (s.serveFeed num n).Canon P ↔ s.Canon P := by
  induction n generalizing s with
  | zero => rfl
  | succ n ih =>
    unfold State.serveFeed
    repeat' split
    all_goals simp [ih]

@[simp] theorem canon_serviceAppend {die : ℕ} {payer : Option ℕ} {ws : List Word} :
    (s.serviceAppend die payer ws).Canon P ↔ s.Canon P := by
  simp only [State.serviceAppend]
  split
  · rfl
  · simp

@[simp] theorem canon_faultNotice {die idx part : ℕ} : (s.faultNotice die idx part).Canon P ↔ s.Canon P := by
  simp [State.faultNotice]

@[simp] theorem canon_postFault {part : ℕ} {f : FaultReq} (hs : s.Canon P) : (s.postFault part f).Canon P := by
  simp only [State.postFault]
  split <;> simp [hs]

@[simp] theorem canon_stopGroup {g : Group} {w : Warp} : (s.stopGroup g w).Canon P ↔ s.Canon P := by
  simp [State.stopGroup]

@[simp] theorem canon_writeSlot {g : Group} {w : Warp} {bs : List Byte} (hs : s.Canon P) :
    (s.writeSlot g w bs).Canon P := by simp [State.writeSlot, hs]

@[simp] theorem canon_toKernel {g : Group} {w : Warp} {c : Cur} {t : Trap} (hs : s.Canon P) :
    (s.toKernel g w c t).Canon P := by simp [State.toKernel, hs]

@[simp] theorem canon_toUser {g : Group} {w : Warp} {c : Cur} {t : Trap} {slot : ℕ} (hs : s.Canon P) :
    (s.toUser g w c t slot).Canon P := by simp [State.toUser, hs]

@[simp] theorem canon_openTrap {t : Trap} : (s.openTrap t).1.Canon P ↔ s.Canon P := Iff.rfl
@[simp] theorem canon_dropDrives {f : Drive → Bool} : (s.dropDrives f).Canon P ↔ s.Canon P := Iff.rfl

@[simp] theorem canon_takeTrap {c : Cur} {t : Trap} (hs : s.Canon P) : (takeTrap s c t).Canon P := by
  simp only [takeTrap]
  repeat' split
  all_goals simp [hs]

@[simp] theorem canon_raise {c : Ctx} {cause : ℕ} {eaux : Word} {eaddr : DWord} (hs : s.Canon P) :
    (raise s c cause eaux eaddr).Canon P := by simp [raise, hs]

@[simp] theorem canon_illegal {c : Ctx} (hs : s.Canon P) : (illegal s c).Canon P := by simp [illegal, hs]

@[simp] theorem canon_xlatTrap {c : Ctx} {wr : Bool} {f : XFault} (hs : s.Canon P) : (xlatTrap s c wr f).Canon P := by
  simp [xlatTrap, hs]

@[simp] theorem canon_targetTrap {c : Cur} {x : ℕ × DWord × Option XFault} (hs : s.Canon P) :
    (targetTrap s c x).Canon P := by simp [targetTrap, hs]

@[simp] theorem canon_finish {c : Ctx} {m : Option Modifier} {t : Bool} {ws : Writes} {fl : Flags} (hs : s.Canon P) :
    (finish s c m t ws fl).Canon P := by
  unfold finish
  dsimp only
  split
  · simp [hs]
  · split
    · exact canon_takeTrap (by simp [hs])
    · exact canon_raise hs

@[simp] theorem canon_finishPending {c : Ctx} {key : ℕ} {event : Bool} {mask : Word} {rs : List ℕ} :
    (finishPending s c key event mask rs).Canon P ↔ s.Canon P := by
  unfold finishPending
  split <;> simp

@[simp] theorem canon_addFly {c : Ctx} {f : Fly} : (addFly s c f).Canon P ↔ s.Canon P := Iff.rfl

@[simp] theorem canon_finishFly {c : Ctx} {event : Bool} {f : Fly} : (finishFly s c event f).Canon P ↔ s.Canon P := by
  simp [finishFly]

@[simp] theorem canon_finishPlain {c : Ctx} (hs : s.Canon P) : (finishPlain s c).Canon P := by simp [finishPlain, hs]

@[simp] theorem canon_resumesAt {gid widx : ℕ} {mask : Word} {pc : DWord} :
    (s.resumesAt gid widx mask pc).Canon P ↔ s.Canon P := Iff.rfl

@[simp] theorem canon_trapReturn {g : Group} {w : Warp} {r : SlotRead} (hs : s.Canon P) : (trapReturn s g w r).Canon P := by
  simp only [trapReturn]
  repeat' split
  all_goals simp [hs]

/-! ### Capture -/

@[simp] theorem canon_capture {c : Ctx} {i : Instr} {extra waits : List ℕ} {replay : Bool} (hs : s.Canon P) :
    (capture s c i extra waits replay).Canon P := by
  unfold capture
  split <;> simp [hs]

@[simp] theorem canon_deferAccess {c : Ctx} {i : Instr} {wr : Bool} {miss : List XFault} (hs : s.Canon P) :
    (deferAccess s c i wr miss).Canon P := by
  have hp : ∀ l : List (XFault × ℕ), State.Canon P (l.foldl (fun (s : State) p =>
      s.postFault c.grp.part (c.grp.faultOne c.warp.slot wr p.1 (.closure c.cur.gid c.cur.widx p.2)))
      { s with uid := s.uid + (byGranule miss).length }) := fun l =>
    canon_foldl (fun _ _ ht => canon_postFault ht) _ (by simp [hs])
  unfold deferAccess
  split
  · split
    · exact canon_raise (by simp [hs])
    · exact canon_capture (hp _)
  · simp [hp]

@[simp] theorem canon_captureBehind {c : Ctx} {i : Instr} {extra waits : List ℕ} (hs : s.Canon P) :
    (captureBehind s c i extra waits).Canon P := by
  unfold captureBehind
  split <;> simp [hs]

@[simp] theorem canon_deferStore {c : Ctx} {i : Instr} {miss : List XFault} (hs : s.Canon P) :
    (deferStore s c i miss).Canon P := by simp [deferStore, hs]

/-! ### Loads, stores, atomics and their order -/

@[simp] theorem canon_raceMark {g : Group} {x : Ea × Loc} : (s.raceMark g x).Canon P ↔ s.Canon P := by
  unfold State.raceMark
  split <;> simp

@[simp] theorem canon_logRace {g : Group} {w : Warp} {epc va : DWord} {d : ℕ} {wr : Bool} (hs : s.Canon P) :
    (s.logRace g w epc va d wr).Canon P := by simp [State.logRace, hs]

@[simp] theorem canon_logRaces {c : Ctx} {wr : Bool} {xs : List (Ea × Loc)} (hs : s.Canon P) :
    (s.logRaces c wr xs).Canon P := by
  induction xs generalizing s with
  | nil => exact hs
  | cons x r ih =>
    unfold State.logRaces
    split
    · exact ih hs
    · exact ih (by simp [hs])

@[simp] theorem canon_markLoc {l : Loc} {n : ℕ} : (s.markLoc l n).Canon P ↔ s.Canon P := by
  unfold State.markLoc
  split <;> simp

@[simp] theorem canon_send {m : Message} : (s.send m).Canon P ↔ s.Canon P := by simp [State.send]

@[simp] theorem canon_sendMessage {kind dest tc : ℕ} {ws : List DWord} :
    (s.sendMessage kind dest tc ws).Canon P ↔ s.Canon P := by simp [State.sendMessage]

@[simp] theorem canon_sendPeer {kind k : ℕ} {lane : Option Lane} {asid : ℕ} {ws : List DWord} :
    (s.sendPeer kind k lane asid ws).Canon P ↔ s.Canon P := by simp [State.sendPeer]

@[simp] theorem canon_sendCapsule {dest flow asid : ℕ} {ws : List DWord} :
    (s.sendCapsule dest flow asid ws).Canon P ↔ s.Canon P := by simp [State.sendCapsule]

@[simp] theorem canon_sendReply {flow : ℕ} {ws : List DWord} : (s.sendReply flow ws).Canon P ↔ s.Canon P := by
  simp [State.sendReply]

@[simp] theorem canon_netOp {g : Group} {widx k : ℕ} {args : List Word} {ls : List (List Word)} {mask : Word} {fly : ℕ} :
    (s.netOp g widx k args ls mask fly).Canon P ↔ s.Canon P := Iff.rfl

@[simp] theorem canon_askLine {g : Group} {widx a fly : ℕ} : (s.askLine g widx a fly).Canon P ↔ s.Canon P := by
  simp [State.askLine]

@[simp] theorem canon_readTodo {g : Group} {w : Warp} {id : ℕ} {f : Fly} {t : Todo} {l : Loc} :
    (s.readTodo g w id f t l).Canon P ↔ s.Canon P := by
  unfold State.readTodo
  split <;> simp

@[simp] theorem canon_missTodo {g : Group} {w : Warp} {id : ℕ} {f : Fly} {t : Todo} {x : XFault} (hs : s.Canon P) :
    (s.missTodo g w id f t x).Canon P := by simp [State.missTodo, hs]

@[simp] theorem canon_raceReplay {g : Group} {w : Warp} {f : Fly} {t : Todo} {l : Loc} (hs : s.Canon P) :
    (s.raceReplay g w f t l).Canon P := by
  simp only [State.raceReplay]
  split <;> simp [hs]

@[simp] theorem canon_tryLoad {g : Group} {w : Warp} {id : ℕ} {t : Todo} (hs : s.Canon P) :
    (s.tryLoad g w id t).Canon P := by
  unfold State.tryLoad
  repeat' split
  all_goals simp [hs]

@[simp] theorem canon_perform {g : Group} {ws : List (Loc × List Byte)} (hs : s.Canon P) : (s.perform g ws).Canon P := by
  have hl : (ws.foldl (fun s p => s.storeLocal p.1 p.2) s).Canon P :=
    canon_foldl (fun _ _ ht => canon_storeLocal ht) _ hs
  simp only [State.perform]
  split <;> simp [hl]

@[simp] theorem canon_sendBatch {b : Batch} : (s.sendBatch b).Canon P ↔ s.Canon P := by
  unfold State.sendBatch
  repeat' split
  all_goals simp

@[simp] theorem canon_releaseIn {g : Group} {keep : Option ℕ} {scope : ℕ} {after : List After} :
    (s.releaseIn g keep scope after).Canon P ↔ s.Canon P := by
  unfold State.releaseIn
  split <;> simp

@[simp] theorem canon_sendBatches {g : Group} {rel : Option Scope} {bs : List Batch} {keep : Option ℕ} :
    (s.sendBatches g rel bs keep).Canon P ↔ s.Canon P := by
  unfold State.sendBatches
  split <;> simp

@[simp] theorem canon_releaseOf {g : Group} {x : Scope} {after : List After} {keep : Option ℕ} :
    (s.releaseOf g x after keep).Canon P ↔ s.Canon P := by simp [State.releaseOf]

@[simp] theorem canon_act {g : Group} {a : Act} {keep : Option ℕ} (hs : s.Canon P) : (s.act g a keep).Canon P := by
  unfold State.act
  split <;> simp [hs]

@[simp] theorem canon_doAct {g : Group} {widx : ℕ} {a : Act} (hs : s.Canon P) : (s.doAct g widx a).Canon P := by
  unfold State.doAct
  split <;> simp [hs]

@[simp] theorem canon_acquireFor {g : Group} {widx : ℕ} {x : Scope} (hs : s.Canon P) : (s.acquireFor g widx x).Canon P := by
  simp [State.acquireFor, hs]

@[simp] theorem canon_actOf {g : Group} {q : Queued} (hs : s.Canon P) : (s.actOf g q).Canon P := by
  simp [State.actOf, hs]

@[simp] theorem canon_sendReads {g : Group} {bs : List Batch} : (s.sendReads g bs).Canon P ↔ s.Canon P := by
  simp [State.sendReads]

@[simp] theorem canon_placeFuture {g : Group} {w : Warp} {id : ℕ} {f : Fly} {t : Todo} (hs : s.Canon P) :
    (s.placeFuture g w id f t).1.Canon P := by
  unfold State.placeFuture
  repeat' split
  all_goals simp [hs]

@[simp] theorem canon_tryFutures {g : Group} {w : Warp} {id : ℕ} {wait : Bool} {ts : List Todo} (hs : s.Canon P) :
    (s.tryFutures g w id wait ts).Canon P := by
  have hq : (ts.foldl (fun (p : State × List Tx) t =>
    match p.1.fly? id with
    | none => p
    | some f => let r := p.1.placeFuture g w id f t; (r.1, p.2 ++ r.2)) (s, [])).1.Canon P := by
    refine List.foldlRecOn (motive := fun q : State × List Tx => q.1.Canon P) _ _ hs fun q hq t _ => ?_
    split
    · exact hq
    · exact canon_placeFuture hq
  simp only [State.tryFutures]
  split
  · exact hq
  · exact canon_sendReads.2 hq

@[simp] theorem canon_tryTodos {g : Group} {w : Warp} {id : ℕ} {ts : List Todo} (hs : s.Canon P) :
    (s.tryTodos g w id ts).Canon P := by
  unfold State.tryTodos
  split
  · exact canon_tryFutures hs
  · exact canon_foldl (fun _ _ ht => canon_tryLoad ht) _ hs

@[simp] theorem canon_tryFree {g : Group} {w : Warp} {id : ℕ} (hs : s.Canon P) : (s.tryFree g w id).Canon P := by
  unfold State.tryFree
  split <;> simp [hs]

@[simp] theorem canon_follow {key : ℕ} (hs : s.Canon P) : (s.follow key).Canon P := by
  unfold State.follow
  refine List.foldlRecOn _ _ hs fun t ht f _ => ?_
  split
  · dsimp only
    split <;> simp [ht]
  · exact ht

@[simp] theorem canon_drainQueue {n : ℕ} (hs : s.Canon P) : (s.drainQueue n).Canon P := by
  induction n generalizing s with
  | zero => exact hs
  | succ n ih =>
    unfold State.drainQueue
    split
    · exact hs
    · exact ih (canon_follow (canon_actOf (by simp [hs])))

/-- The state that the checks of an access leave, whether they take an exception or pass. -/
def Checked.Canon (P : Prop) : Checked → Prop
  | .trap t => t.Canon P
  | .go t _ _ => t.Canon P

@[simp] theorem checked_trap {t : State} : (Checked.trap t).Canon P ↔ t.Canon P := Iff.rfl
@[simp] theorem checked_go {t : State} {a : List (Ea × Loc)} {m : List (Ea × XFault)} :
    (Checked.go t a m).Canon P ↔ t.Canon P := Iff.rfl

@[simp] theorem canon_checkRaces {c : Ctx} {wr : Bool} {acc : List (Ea × Loc)} {miss : List (Ea × XFault)} (hs : s.Canon P) :
    (checkRaces s c wr acc miss).Canon P := by
  unfold checkRaces
  repeat' split
  all_goals simp [hs]

theorem canon_checkAccess {c : Ctx} {p : Space} {n : ℕ} {wr plain : Bool} {es : List Ea} (hs : s.Canon P) :
    (checkAccess s c p n wr plain es).Canon P := by
  simp only [checkAccess]
  repeat' split
  all_goals simp [hs]

@[simp] theorem canon_doLoad {c : Ctx} {m : Option Modifier} {p : Space} {z : LdSize} {rs : List ℕ} {ea : ℕ → Ea}
    (hs : s.Canon P) : (doLoad s c m p z rs ea).Canon P := by
  have hc := canon_checkAccess (c := c) (p := p) (n := z.bytes) (wr := false) (plain := true) (es := (c.accLanes m).map ea) hs
  simp only [doLoad]
  split
  · exact canon_finish hs
  · split <;> rename_i e <;> rw [e] at hc
    · exact hc
    · simp [show State.Canon P _ from hc]

@[simp] theorem canon_doStore {c : Ctx} {i : Instr} {m : Option Modifier} {p : Space} {n : ℕ} {ea : ℕ → Ea} {val : ℕ → ℕ}
    (hs : s.Canon P) : (doStore s c i m p n ea val).Canon P := by
  have hc := canon_checkAccess (c := c) (p := p) (n := n) (wr := true) (plain := true) (es := (c.act m).map ea) hs
  simp only [doStore]
  split
  · exact canon_finishPlain hs
  · split <;> rename_i e <;> rw [e] at hc
    · exact hc
    · split <;> simp [show State.Canon P _ from hc]

@[simp] theorem canon_doBatched {c : Ctx} {rel : Option Scope} {k : TxKind} {mask : Word} {rs : List ℕ} {txs : List Tx}
    (hs : s.Canon P) : (doBatched s c rel k mask rs txs).Canon P := by simp [doBatched, hs]

@[simp] theorem canon_landFly {g : Group} {f : Fly} (hs : s.Canon P) : (s.landFly g f).Canon P := by
  simp only [State.landFly]
  repeat' split
  all_goals simp [hs]

@[simp] theorem canon_retryFly {id : ℕ} (hs : s.Canon P) : (s.retryFly id).Canon P := by
  unfold State.retryFly
  repeat' split
  all_goals simp [hs]

/-! ### Announced operations -/

@[simp] theorem canon_setRec {c q o n v : ℕ} (hs : s.Canon P) : (s.setRec c q o n v).Canon P := by
  simp [State.setRec, hs]

@[simp] theorem canon_writeCell {c : ℕ} {l : Loc} {seq k v : ℕ} (hs : s.Canon P) : (s.writeCell c l seq k v).Canon P := by
  simp [State.writeCell, hs]

@[simp] theorem canon_applyStep {c q : ℕ} {r : Rec} {k : ℕ} {l : Option Loc} (hs : s.Canon P) :
    (s.applyStep c q r k l).Canon P := by
  simp only [State.applyStep]
  repeat' split
  all_goals simp [hs]

@[simp] theorem canon_txnStep {c q k seq : ℕ} {l : Option Loc} (hs : s.Canon P) : (s.txnStep c q k seq l).Canon P := by
  cases l with
  | none => simp [State.txnStep, hs]
  | some l =>
    have ht : State.Canon P (if s.locNat (l.plus 4) 4 + 1 = (s.readRec q).seq then
        s.locWrite c l 4 (natBytes 4 (s.readRec q).seq) else s) := by simp [hs]
    simp [State.txnStep, hs, ht]

@[simp] theorem canon_setDrive {d : Drive} : (s.setDrive d).Canon P ↔ s.Canon P := Iff.rfl
@[simp] theorem canon_interrupt {d : Drive} : (s.interrupt d).Canon P ↔ s.Canon P := Iff.rfl

@[simp] theorem canon_driveFault {g : Group} {w : Warp} {d : Drive} {estep seq : ℕ} {f : StepFault} (hs : s.Canon P) :
    (s.driveFault g w d estep seq f).Canon P := by simp [State.driveFault, hs]

@[simp] theorem canon_countTxn {d : Drive} : (s.countTxn d).Canon P ↔ s.Canon P := by simp [State.countTxn]

@[simp] theorem canon_endDrive {d : Drive} {out : Word × Word} : (s.endDrive d out).Canon P ↔ s.Canon P := by
  simp [State.endDrive]

@[simp] theorem canon_unlockRecord {core asid : ℕ} {qa : DWord} : (s.unlockRecord core asid qa).Canon P ↔ s.Canon P :=
  Iff.rfl

@[simp] theorem canon_swap {g : Group} {w : Warp} {d : Drive} {q : ℕ} {h : Loc} (hs : s.Canon P) :
    (s.swap g w d q h).Canon P := by
  unfold State.swap
  extract_lets d1 s1 ts hd pr seq ahead qa owner body s2 s3 page link s4 s5 s6 k s7 s8 mark s9
  split
  · simp [s1, hs]
  · have h2 : s2.Canon P := canon_engineWrite (canon_countTxn.2 hs)
    have h3 : s3.Canon P := by
      simp only [s3]
      split <;> simp [h2]
    have h6 : s6.Canon P := canon_locWrite (canon_locWrite (canon_mk.2 (canonParts_self.2 h3)))
    have h7 : s7.Canon P := by simp [s7, h6]
    simp [s9, s8, h7]

@[simp] theorem canon_collect {g : Group} {w : Warp} {d : Drive} {q : ℕ} (hs : s.Canon P) :
    (s.collect g w d q).Canon P := by simp [State.collect, hs]

@[simp] theorem canon_helped {d : Drive} {sq : ℕ} {next : Drive} : (s.helped d sq next).Canon P ↔ s.Canon P := by
  simp [State.helped]

@[simp] theorem canon_learn {w : Warp} {d : Drive} {step st : ℕ} {nx : DWord} {sq : ℕ} :
    (s.learn w d step st nx sq).Canon P ↔ s.Canon P := by simp [State.learn]

@[simp] theorem canon_walkEnds {d : Drive} {step : ℕ} : (s.walkEnds d step).Canon P ↔ s.Canon P := Iff.rfl

@[simp] theorem canon_walkRead {g : Group} {w : Warp} {d : Drive} (hs : s.Canon P) : (s.walkRead g w d).Canon P := by
  simp only [State.walkRead]
  repeat' split
  all_goals simp [hs]

@[simp] theorem canon_driveFaults {g : Group} {w : Warp} {xs : List (Drive × ℕ × ℕ × StepFault)} (hs : s.Canon P) :
    (s.driveFaults g w xs).Canon P := by
  induction xs generalizing s with
  | nil => exact hs
  | cons x r ih =>
    unfold State.driveFaults
    split
    · exact canon_driveFault hs
    · exact ih (canon_driveFault hs)

@[simp] theorem canon_askAll {g : Group} {w : Warp} {ds : List Drive} (hs : s.Canon P) : (s.askAll g w ds).Canon P := by
  simp only [State.askAll]
  split
  · exact canon_driveFaults hs
  · split <;> simp [hs]

@[simp] theorem canon_driveStep {g : Group} {w : Warp} {d : Drive} (hs : s.Canon P) : (s.driveStep g w d).Canon P := by
  simp [State.driveStep, hs]

@[simp] theorem canon_serveAnn {t : Tx} (hs : s.Canon P) : (s.serveAnn t).Canon P := by
  unfold State.serveAnn
  repeat' split
  all_goals simp [hs]

@[simp] theorem optCanon_recordTrap {c : Ctx} {ls : List ℕ} (hs : s.Canon P) : OptCanon P (recordTrap s c ls) := by
  intro t e
  obtain ⟨l, -, rfl⟩ := Option.map_eq_some_iff.mp e
  exact canon_raise hs

@[simp] theorem optCanon_headerTrap {c : Ctx} {p : Space} {a : ℕ} {ls : List ℕ} (hs : s.Canon P) :
    OptCanon P (headerTrap s c p a ls) := by
  simp only [headerTrap]
  repeat' split
  all_goals simp [hs]

@[simp] theorem optCanon_swapTrap {c : Ctx} {p : Space} {a : ℕ} {xs : List ℕ} (hs : s.Canon P) :
    OptCanon P (swapTrap s c p a xs) := by
  induction xs with
  | nil => simp [swapTrap]
  | cons l r ih =>
    unfold swapTrap
    split
    · exact ih
    · simp [hs]
    · simp [hs]

@[simp] theorem optCanon_readTrap {c : Ctx} {p : Space} {a : ℕ} {xs : List ℕ} (hs : s.Canon P) :
    OptCanon P (readTrap s c p a xs) := by
  induction xs with
  | nil => simp [readTrap]
  | cons l r ih =>
    unfold readTrap
    split
    · exact ih
    · simp [hs]

@[simp] theorem canon_hold {c : Ctx} {k : ℕ} : (hold s c k).Canon P ↔ s.Canon P := by
  unfold hold
  simp

@[simp] theorem canon_startDrives {c : Ctx} {help : Bool} {rel : Option Scope} {p : Space} {a : ℕ} {made : List Drive}
    (hs : s.Canon P) : (startDrives s c help rel p a made).Canon P := by simp [startDrives, hs]

theorem canon_waitDrives {c : Ctx} {help : Bool} {p : Space} {a : ℕ} {ls : List ℕ} {acq rel : Option Scope}
    {check : List Nat → Option State} {mk : Nat → Nat → Drive} {ws : (Nat → Word × Word) → Writes} {m : Option Modifier}
    (hc : ∀ l, OptCanon P (check l)) (hs : s.Canon P) : (waitDrives s c help p a ls acq rel check mk ws m).Canon P := by
  simp only [waitDrives]
  split
  · exact hc _ _ (by assumption)
  · split
    · refine canon_finish ?_
      split <;> simp [hs]
    · split <;> simp [hs]

@[simp] theorem canon_retireAnn {c : Ctx} {m : Option Modifier} {key d : ℕ} :
    (retireAnn s c m key d).Canon P ↔ s.Canon P := by simp [retireAnn]

/-! ### Barriers -/

@[simp] theorem canon_setBar {gid key : ℕ} {x : Bar} : (s.setBar gid key x).Canon P ↔ s.Canon P := by simp [State.setBar]

@[simp] theorem canon_landPnds {b : ℕ} {xs : List BarWait} : (s.landPnds b xs).Canon P ↔ s.Canon P := by
  induction xs generalizing s with
  | nil => rfl
  | cons x r ih => simp [State.landPnds, ih]

@[simp] theorem canon_advanceBar {gid key n : ℕ} : (s.advanceBar gid key n).Canon P ↔ s.Canon P := by
  induction n generalizing s with
  | zero => rfl
  | succ n ih =>
    unfold State.advanceBar
    split
    · rfl
    · dsimp only
      split
      · rw [ih, canon_landPnds, canon_setBar]
      · rfl

@[simp] theorem canon_arrive {gid key : ℕ} {tag : Word} : (s.arrive gid key tag).Canon P ↔ s.Canon P := by
  simp only [State.arrive]
  split <;> simp

@[simp] theorem canon_engineArrive {g : Group} {b : ℕ} : (s.engineArrive g b).Canon P ↔ s.Canon P := by
  simp only [State.engineArrive]
  split <;> simp

/-! ### Signals of the engines -/

@[simp] theorem canon_giveSignal {x : Signal} {status : ℕ} (hs : s.Canon P) : (s.giveSignal x status).Canon P := by
  unfold State.giveSignal
  split <;> simp [hs]

@[simp] theorem canon_giveSignal? {x : Option Signal} {status : ℕ} (hs : s.Canon P) : (s.giveSignal? x status).Canon P := by
  unfold State.giveSignal?
  split <;> simp [hs]

@[simp] theorem canon_finishStatus {c : Ctx} {m : Option Modifier} {d n : ℕ} (hs : s.Canon P) :
    (finishStatus s c m d n).Canon P := by simp [finishStatus, hs]

@[simp] theorem canon_startOp {o : EngOp} {ls : List Lock} : (s.startOp o ls).Canon P ↔ s.Canon P := Iff.rfl

@[simp] theorem canon_endOp {o : EngOp} {status : ℕ} (hs : s.Canon P) : (s.endOp o status).Canon P := by
  simp [State.endOp, hs]

@[simp] theorem canon_landWords {fly : ℕ} {ws : List Word} : (s.landWords fly ws).Canon P ↔ s.Canon P := Iff.rfl

/-! ### Matrix commands -/

@[simp] theorem canon_updMx {core : ℕ} {f : Matrix → Matrix} : (s.updMx core f).Canon P ↔ s.Canon P := Iff.rfl
@[simp] theorem canon_pushMx {core : ℕ} {q : MCmd} : (s.pushMx core q).Canon P ↔ s.Canon P := Iff.rfl

@[simp] theorem canon_queueCmd {c : Ctx} {q : MCmd} {f : Matrix → Matrix} (hs : s.Canon P) :
    (queueCmd s c q f).Canon P := by simp [queueCmd, hs]

theorem optCanon_checkLoop {c : Ctx} {d : LoopDesc} {table : List (ℕ × ℕ)} {ill : Bool} {tbl tlock : Option State}
    (ht : OptCanon P tbl) (hl : OptCanon P tlock) (hs : s.Canon P) : OptCanon P (checkLoop s c d table ill tbl tlock) := by
  simp only [checkLoop]
  repeat' split
  all_goals simp_all

@[simp] theorem canon_queueLoop {c : Ctx} {k : MKind} {ws : List Word} {d : LoopDesc} {table : List (ℕ × ℕ)}
    {m : Option Modifier} (hs : s.Canon P) : (queueLoop s c k ws d table m).Canon P := by simp [queueLoop, hs]

/-! ### Copies -/

@[simp] theorem canon_askRange {asid : ℕ} {m : VaMap} {lo len : ℕ} : (s.askRange asid m lo len).Canon P ↔ s.Canon P := by
  simp [State.askRange]

@[simp] theorem canon_askRanges {asid : ℕ} {m : VaMap} {rs : List (ℕ × ℕ)} :
    (s.askRanges asid m rs).Canon P ↔ s.Canon P := by simp [State.askRanges]

@[simp] theorem canon_parkOp {o : EngOp} {wr : Bool} {f : XFault} (hs : s.Canon P) : (s.parkOp o wr f).Canon P := by
  unfold State.parkOp
  split <;> simp [hs]

@[simp] theorem canon_copyFlagged {gid : ℕ} {f : Word} : (s.copyFlagged gid f).Canon P ↔ s.Canon P := by
  simp [State.copyFlagged]

@[simp] theorem canon_updMxOf {gid core : ℕ} {f : Matrix → Matrix} : (s.updMxOf gid core f).Canon P ↔ s.Canon P := by
  simp [State.updMxOf]

@[simp] theorem canon_endLoadCopy {o : EngOp} {m : VaMap} (hs : s.Canon P) : (s.endLoadCopy o m).Canon P := by
  simp only [State.endLoadCopy]
  split <;> simp [hs]

@[simp] theorem canon_endStoreCopy {o : EngOp} {m : VaMap} (hs : s.Canon P) : (s.endStoreCopy o m).Canon P := by
  simp [State.endStoreCopy, hs]

/-! ### Futures -/

@[simp] theorem canon_endFget {c : Ctx} {x : OpFut} {f : Fly} (hs : s.Canon P) : (endFget s c x f).Canon P := by
  unfold endFget
  split <;> simp [hs]

@[simp] theorem canon_wakeWaiters {l : Loc} {v : Word} : (s.wakeWaiters l v).Canon P ↔ s.Canon P := by
  simp [State.wakeWaiters]

@[simp] theorem canon_cancelFget {id : ℕ} : (s.cancelFget id).Canon P ↔ s.Canon P := by
  unfold State.cancelFget
  split <;> simp

@[simp] theorem canon_serveFget {b : Batch} {t : Tx} {wait : Bool} : (s.serveFget b t wait).Canon P ↔ s.Canon P := by
  simp [State.serveFget]

@[simp] theorem canon_serveFset {b : Batch} {t : Tx} (hs : s.Canon P) : (s.serveFset b t).Canon P := by
  simp [State.serveFset, hs]

@[simp] theorem canon_serveFclr {b : Batch} {t : Tx} (hs : s.Canon P) : (s.serveFclr b t).Canon P := by
  simp [State.serveFclr, hs]

/-! ### The cache engines -/

@[simp] theorem canon_endGather {o : EngOp} {d : KvDesc} {m b : VaMap} (hs : s.Canon P) :
    (s.endGather o d m b).Canon P := by
  unfold State.endGather
  extract_lets ctl arr sel dst n fails out lost s1 bad s2 mark s3 status s4 s5
  have h1 : s1.Canon P := canon_mk.2 (canonParts_self.2 hs)
  have h2 : s2.Canon P := canon_foldl (fun _ _ ht => canon_storeLocal ht) _ h1
  have hm : ∀ t xs, State.Canon P (mark t xs) ↔ t.Canon P := fun t xs => canon_updGroup fun _ => ⟨rfl, rfl⟩
  have h3 : s3.Canon P := (hm _ _).2 h2
  split
  · have h4 : s4.Canon P := canon_foldl (fun _ _ ht => canon_storeLocal ht) _ h3
    exact canon_endOp ((hm _ _).2 h4)
  · exact canon_updFly.2 (canon_endOp h3)

@[simp] theorem canon_serveKvmap {b : Batch} {t : Tx} (hs : s.Canon P) : (s.serveKvmap b t).Canon P := by
  simp [State.serveKvmap, hs]

@[simp] theorem canon_serveMigr {b : Batch} {t : Tx} {op : ℕ} (hs : s.Canon P) : (s.serveMigr b t op).Canon P := by
  simp only [State.serveMigr]
  repeat' split
  all_goals simp [hs]

@[simp] theorem canon_placeBlock {core asid new : ℕ} {m : VaMap} {bs : List Byte} (hs : s.Canon P) :
    (s.placeBlock core asid new m bs).Canon P := by simp [State.placeBlock, hs]

/-! ### The home engines -/

@[simp] theorem canon_serveAtom {b : Batch} {t : Tx} {o : AtomOp} {w64 : Bool} (hs : s.Canon P) :
    (s.serveAtom b t o w64).Canon P := by simp [State.serveAtom, hs]

@[simp] theorem canon_serveOne {b : Batch} {t : Tx} (hs : s.Canon P) : (s.serveOne b t).Canon P := by
  unfold State.serveOne
  split <;> simp [hs]

@[simp] theorem canon_serveTx {b : Batch} {t : Tx} (hs : s.Canon P) : (s.serveTx b t).Canon P := by
  simp [State.serveTx, hs]

@[simp] theorem canon_serveBatch {engine : ℕ} {b : Batch} {outside : Bool} (hs : s.Canon P) :
    (s.serveBatch engine b outside).Canon P := by
  refine canon_follow (List.foldlRecOn (motive := State.Canon P) _ _ ?_ fun t ht x _ => canon_serveTx ht)
  simp [hs]

/-! ### Moving splits -/

@[simp] theorem canon_finishMove {c : Ctx} {f : Warp → Warp} : (finishMove s c f).Canon P ↔ s.Canon P := by
  unfold finishMove
  simp

@[simp] theorem canon_jumpTo {c : Ctx} {target : DWord} (hs : s.Canon P) : (jumpTo s c target).Canon P := by
  unfold jumpTo
  split <;> simp [hs]

@[simp] theorem canon_fallThrough {c : Ctx} : (fallThrough s c).Canon P ↔ s.Canon P := by simp [fallThrough]
@[simp] theorem canon_fallMerge {c : Ctx} : (fallMerge s c).Canon P ↔ s.Canon P := by simp [fallMerge]

@[simp] theorem canon_divideTo {c : Ctx} {ts : List (DWord × Word)} (hs : s.Canon P) : (divideTo s c ts).Canon P := by
  simp [divideTo, hs]

@[simp] theorem canon_afterExit {gid widx : ℕ} : (s.afterExit gid widx).Canon P ↔ s.Canon P := by
  unfold State.afterExit
  repeat' split
  all_goals simp

@[simp] theorem canon_endLanes {c : Ctx} {lanes : Word} : (endLanes s c lanes).Canon P ↔ s.Canon P := by simp [endLanes]

/-! ### Matrix passes -/

@[simp] theorem canon_passOn {lead : ℕ} {p : MRun} {core : ℕ} : (s.passOn lead p core).Canon P ↔ s.Canon P := by
  simp only [State.passOn]
  repeat' split
  all_goals simp

@[simp] theorem canon_logEvent {die unit kind part : ℕ} {addr : DWord} {detail : ℕ} (hs : s.Canon P) :
    (s.logEvent die unit kind part addr detail).Canon P := by simp [State.logEvent, hs]

@[simp] theorem canon_residuePass {core : ℕ} (hs : s.Canon P) : (s.residuePass core).1.Canon P := by
  simp only [State.residuePass]
  repeat' split
  all_goals simp [hs]

@[simp] theorem canon_residuePasses {xs : List ℕ} (hs : s.Canon P) : (s.residuePasses xs).1.Canon P := by
  induction xs generalizing s with
  | nil => exact hs
  | cons x r ih => exact ih (canon_residuePass hs)

@[simp] theorem optCanon_matrixHead {core : ℕ} (hs : s.Canon P) : OptCanon P (s.matrixHead core) := by
  simp only [State.matrixHead]
  repeat' split
  all_goals simp [hs]

@[simp] theorem canon_endDrain {core : ℕ} {q : MCmd} (hs : s.Canon P) : (s.endDrain core q).Canon P := by
  simp [State.endDrain, hs]

/-! ### Images of groups -/

@[simp] theorem canon_clearRaw {lo n : ℕ} (hs : s.Canon P) : (s.clearRaw lo n).Canon P := by
  have := s.memWf_clearRaw lo n hs.1
  exact ⟨this, hs.2⟩

@[simp] theorem canon_writeImage {g : Group} {base : ℕ} (hs : s.Canon P) : (s.writeImage g base).Canon P := by
  simp only [State.writeImage]
  split
  · exact canon_mk.2 (canonParts_self.2 (canon_writeRaw (by simp [hs])))
  · simp [hs]

/-! ### Gathered tasks -/

@[simp] theorem optCanon_gather {core : ℕ} (hs : s.Canon P) : OptCanon P (s.gather core) := by
  unfold State.gather
  repeat' split
  all_goals simp only [optCanon_some, optCanon_none]
  exact canonParts_self.1 (canon_addGroup (s := s) rfl hs)

/-! ### Feeds and windows -/

@[simp] theorem canon_writeRing {core : ℕ} {f : Feed} {seq : ℕ} {ws : List Word} (hs : s.Canon P) :
    (s.writeRing core f seq ws).Canon P := by
  unfold State.writeRing
  repeat' split
  all_goals simp [hs]

@[simp] theorem canon_wakeFeed {core num : ℕ} (hs : s.Canon P) : (s.wakeFeed core num).Canon P := by
  unfold State.wakeFeed
  split <;> simp [hs]

@[simp] theorem canon_appendFeed {core : ℕ} {f : Feed} {ws : List Word} (hs : s.Canon P) :
    (s.appendFeed core f ws).Canon P := by simp [State.appendFeed, hs]

@[simp] theorem canon_packWindows {core q : ℕ} : (s.packWindows core q).Canon P ↔ s.Canon P := by
  simp only [State.packWindows]
  refine List.foldlRecOn (motive := fun q : State × ℕ => q.1.Canon P ↔ s.Canon P) _ _ Iff.rfl fun q hq w _ => ?_
  simp [hq]

/-! ### The network -/

@[simp] theorem canon_handOff {o : EngOp} : (s.handOff o).Canon P ↔ s.Canon P := Iff.rfl

@[simp] theorem canon_startNet {c : Ctx} {m : Option Modifier} {d n : ℕ} {k : OpKind} {args : List Word}
    {reg event : Bool} {sig : Option Signal} {locks : ℕ → List Lock} (hs : s.Canon P) :
    (startNet s c m d n k args reg event sig locks).Canon P := by simp [startNet, hs]

@[simp] theorem canon_failNet {c : Ctx} {m : Option Modifier} {d : ℕ} {reg : Bool} {k : ℕ} (hs : s.Canon P) :
    (failNet s c m d reg k).Canon P := by simp [failNet, hs]

@[simp] theorem canon_logOrphan {kind asid part : ℕ} {ref : DWord} {status nvst : ℕ} (hs : s.Canon P) :
    (s.logOrphan kind asid part ref status nvst).Canon P := by simp [State.logOrphan, hs]

@[simp] theorem canon_dropOrphan {o : EngOp} {kind status nvst : ℕ} (hs : s.Canon P) :
    (s.dropOrphan o kind status nvst).Canon P := by simp [State.dropOrphan, hs]

@[simp] theorem canon_endNet {o : EngOp} {status second : ℕ} (hs : s.Canon P) : (s.endNet o status second).Canon P := by
  simp [State.endNet, hs]

@[simp] theorem canon_incoming {o : EngOp} {m : VaMap} {bs : List Byte} : (s.incoming o m bs).Canon P ↔ s.Canon P := by
  simp [State.incoming]

@[simp] theorem canon_sendStorage {o : EngOp} {k : ℕ} {bs : List Byte} : (s.sendStorage o k bs).Canon P ↔ s.Canon P := by
  unfold State.sendStorage
  split <;> simp

@[simp] theorem canon_sendNet {o : EngOp} {k : ℕ} {bs : List Byte} : (s.sendNet o k bs).Canon P ↔ s.Canon P := by
  unfold State.sendNet
  repeat' split
  all_goals simp

@[simp] theorem canon_goOut {o : EngOp} (hs : s.Canon P) : (s.goOut o).Canon P := by
  unfold State.goOut
  repeat' split
  all_goals simp [hs]

@[simp] theorem canon_sendOps {n : ℕ} (hs : s.Canon P) : (s.sendOps n).Canon P := by
  induction n generalizing s with
  | zero => exact hs
  | succ n ih =>
    unfold State.sendOps
    split
    · exact hs
    · exact ih (canon_goOut hs)

@[simp] theorem canon_wakeAll {id : ℕ} : (s.wakeAll id).Canon P ↔ s.Canon P := by
  rw [State.wakeAll, canon_mk, canonParts_map, canonParts_self]
  exact fun _ => rfl

@[simp] theorem canon_fillLine {o : EngOp} {data : List Byte} : (s.fillLine o data).Canon P ↔ s.Canon P := by
  simp only [State.fillLine]
  simp

@[simp] theorem canon_failLine {o : EngOp} : (s.failLine o).Canon P ↔ s.Canon P := by
  simp only [State.failLine]
  simp

@[simp] theorem canon_remoteAnswers {o : EngOp} {data : List Byte} {bad : Bool} :
    (s.remoteAnswers o data bad).Canon P ↔ s.Canon P := by simp [State.remoteAnswers]

@[simp] theorem optCanon_completeNet {o : EngOp} {k status : ℕ} {data : List Byte} {late : Bool} (hs : s.Canon P) :
    OptCanon P (s.completeNet o k status data late) := by
  unfold State.completeNet
  repeat' split
  all_goals simp [hs]

@[simp] theorem optCanon_completeStorage {o : EngOp} {k status nvst : ℕ} {data : List Byte} {late : Bool} (hs : s.Canon P) :
    OptCanon P (s.completeStorage o k status nvst data late) := by
  unfold State.completeStorage
  repeat' split
  all_goals simp [hs]

/-! ### Arriving requests -/

@[simp] theorem canon_answer {r : RemoteReq} {status : ℕ} {ws : List DWord} :
    (s.answer r status ws).Canon P ↔ s.Canon P := by simp [State.answer]

@[simp] theorem canon_notifyWatches {ws : List (ℕ × Byte)} : (s.notifyWatches ws).Canon P ↔ s.Canon P := by
  simp [State.notifyWatches]

@[simp] theorem canon_portLand {part : ℕ} {ws : List (ℕ × Byte)} (hs : s.Canon P) : (s.portLand part ws).Canon P := by
  simp [State.portLand, hs]

@[simp] theorem canon_setEndpoint {e : Endpoint} : (s.setEndpoint e).Canon P ↔ s.Canon P := Iff.rfl

@[simp] theorem canon_endFrame {e : Endpoint} {status : ℕ} (hs : s.Canon P) : (s.endFrame e status).Canon P := by
  simp only [State.endFrame]
  repeat' split
  all_goals simp [hs]

@[simp] theorem canon_ringDrop {e : Endpoint} : (s.ringDrop e).Canon P ↔ s.Canon P := Iff.rfl

@[simp] theorem canon_ringStore {e : Endpoint} {part off : ℕ} {ws : List (ℕ × Byte)} (hs : s.Canon P) :
    (s.ringStore e part off ws).1.Canon P := by simp [State.ringStore, hs]

@[simp] theorem canon_ringWrite {r : RemoteReq} {e : Endpoint} {off : ℕ} {ws : List (ℕ × Byte)} (hs : s.Canon P) :
    (s.ringWrite r e off ws).1.Canon P := by
  simp only [State.ringWrite]
  repeat' split
  all_goals simp [hs]

@[simp] theorem canon_landWrite {r : RemoteReq} {data : List Byte} (hs : s.Canon P) : (s.landWrite r data).Canon P := by
  unfold State.landWrite
  repeat' split
  all_goals simp [hs]

@[simp] theorem canon_landMessage {r : RemoteReq} {endpoint : ℕ} {data : List Byte} (hs : s.Canon P) :
    (s.landMessage r endpoint data).Canon P := by
  simp only [State.landMessage]
  repeat' split
  all_goals simp [hs]

@[simp] theorem canon_landInbound {x : Inbound} (hs : s.Canon P) : (s.landInbound x).Canon P := by
  unfold State.landInbound
  split <;> simp [hs]

@[simp] theorem canon_landInbox {n : ℕ} (hs : s.Canon P) : (s.landInbox n).Canon P := by
  induction n generalizing s with
  | zero => exact hs
  | succ n ih =>
    unfold State.landInbox
    split
    · exact hs
    · exact ih (canon_landInbound (by simp [hs]))

@[simp] theorem canon_arriveIn {x : Inbound} (hs : s.Canon P) : (s.arriveIn x).Canon P := by simp [State.arriveIn, hs]

/-! ### What lands, and what ends -/

@[simp] theorem canon_touchFeed {core num : ℕ} (hs : s.Canon P) : (s.touchFeed core num).Canon P := by
  unfold State.touchFeed
  split <;> simp [hs]

@[simp] theorem canon_cancelPops {flys : List ℕ} (hs : s.Canon P) : (s.cancelPops flys).Canon P := by
  refine List.foldlRecOn (motive := State.Canon P) _ _ hs fun t ht f _ => ?_
  simp only
  split
  · split <;> simp [ht]
  · exact ht

@[simp] theorem canon_popLanded {fly : ℕ} : (s.popLanded fly).Canon P ↔ s.Canon P := Iff.rfl

@[simp] theorem canon_landAnswer {op : ℕ} (hs : s.Canon P) : (s.landAnswer op).Canon P := by
  unfold State.landAnswer
  split <;> simp [hs]

@[simp] theorem canon_endGang {g : Group} (hs : s.Canon P) : (s.endGang g).Canon P := by
  simp only [State.endGang]
  split
  · exact canonParts_self.1 (canon_filterGroups hs)
  · split
    · exact canon_updGroup_of (fun _ _ => rfl) hs
    · exact canon_updLaunch.2 (canonParts_self.1 (canon_filterGroups hs))

@[simp] theorem canon_runAfter {core : ℕ} {a : After} (hs : s.Canon P) : (s.runAfter core a).Canon P := by
  simp only [State.runAfter]
  repeat' split
  all_goals simp [hs]

@[simp] theorem canon_runAfters {core : ℕ} {as : List After} (hs : s.Canon P) : (s.runAfters core as).Canon P :=
  canon_foldl (fun _ _ ht => canon_runAfter ht) _ hs

@[simp] theorem canon_sendPeerStores {core : ℕ} {xs : List FarStore} :
    (s.sendPeerStores core xs).1.Canon P ↔ s.Canon P := by
  refine List.foldlRecOn (motive := fun q : State × List ℕ => q.1.Canon P ↔ s.Canon P) _ _ Iff.rfl fun q hq w _ => ?_
  simp [hq]

@[simp] theorem optCanon_landRelease {core : ℕ} (hs : s.Canon P) : OptCanon P (s.landRelease core) := by
  unfold State.landRelease
  split <;> simp [hs]

@[simp] theorem canon_cancelWatches {mine : EngOp → Bool} : (s.cancelWatches mine).Canon P ↔ s.Canon P := by
  simp [State.cancelWatches]

@[simp] theorem canon_freeMatrix {core : ℕ} : (s.freeMatrix core).Canon P ↔ s.Canon P := by simp [State.freeMatrix]
@[simp] theorem canon_freeBind {gid : ℕ} : (s.freeBind gid).Canon P ↔ s.Canon P := Iff.rfl
@[simp] theorem canon_dropTlb {f : TlbEntry → Bool} : (s.dropTlb f).Canon P ↔ s.Canon P := Iff.rfl
@[simp] theorem canon_dropAsid {asid : ℕ} : (s.dropAsid asid).Canon P ↔ s.Canon P := Iff.rfl

@[simp] theorem canon_repost {part : ℕ} (hs : s.Canon P) : (s.repost part).Canon P := by
  refine List.foldlRecOn (motive := State.Canon P) _ _ ?_ fun t ht q _ => canon_postFault ht
  simp [hs]

@[simp] theorem canon_answerAll {part asid : ℕ} (hs : s.Canon P) : (s.answerAll part asid).Canon P := by
  simp [State.answerAll, hs]

@[simp] theorem canon_settleFaults {asid : ℕ} (hs : s.Canon P) : (s.settleFaults asid).Canon P := by
  simp [State.settleFaults, hs]

@[simp] theorem canon_freeAsid {asid : ℕ} (hs : s.Canon P) : (s.freeAsid asid).Canon P := by simp [State.freeAsid, hs]
@[simp] theorem canon_quarantine {asid : ℕ} : (s.quarantine asid).Canon P ↔ s.Canon P := Iff.rfl

@[simp] theorem canon_endMoves {gid : ℕ} (hs : s.Canon P) : (s.endMoves gid).Canon P :=
  canon_foldl (fun _ _ ht => canon_endOp ht) _ hs

@[simp] theorem canon_dropCmds {g : Group} : (s.dropCmds g).Canon P ↔ s.Canon P := by simp [State.dropCmds]

@[simp] theorem canon_closeReleases {g : Group} : (s.closeReleases g).Canon P ↔ s.Canon P := by
  refine canon_foldl_iff fun t q => ?_
  split <;> simp

@[simp] theorem canon_stopNow {g : Group} (hs : s.Canon P) : (s.stopNow g).Canon P := by
  unfold State.stopNow
  extract_lets gid flys s1 s2 s3 dead s4 k s5 s6 cut cutCore shut shutDie s7 s8 s9
  have h1 : s1.Canon P := canon_cancelPops (canon_endMoves hs)
  have h3 : s3.Canon P := by simp [s3, s2, h1]
  have h4 : s4.Canon P := (canon_foldl_iff fun t o => by simp).2 h3
  have h6 : s6.Canon P := canon_closeReleases.2 (canon_setCore.2 h4)
  have h7 : s7.Canon P := canon_mk.2 (canonParts_self.2 h6)
  have h8 : s8.Canon P := by simp [s8, h7]
  exact canon_freeBind.2 (canonParts_self.1 (canon_filterGroups h8))

@[simp] theorem canon_endContext {asid : ℕ} (hs : s.Canon P) : (s.endContext asid).Canon P := by
  have hg : ∀ l : List Group, (l.foldl (fun (s : State) g => s.stopNow g) s).Canon P := fun l =>
    canon_foldl (fun _ _ ht => canon_stopNow ht) _ hs
  simp [State.endContext, hg]

/-! ### Contexts and groups -/

@[simp] theorem canon_packGroup {gid base : ℕ} (hs : s.Canon P) : (s.packGroup gid base).Canon P := by
  unfold State.packGroup
  split <;> simp [hs]

@[simp] theorem canon_placeGroup {gid core place : ℕ} : (s.placeGroup gid core place).Canon P ↔ s.Canon P := by
  unfold State.placeGroup
  split
  · rfl
  · extract_lets ps at_ move s1 b s2
    have h1 : s1.Canon P ↔ s.Canon P := canon_updGroup fun _ => ⟨rfl, rfl⟩
    have h2 : s2.Canon P ↔ s.Canon P := canon_mk.trans (canonParts_self.trans h1)
    split <;> simp [h2]

@[simp] theorem canon_resumeAnswered {gid widx base : ℕ} (hs : s.Canon P) : (s.resumeAnswered gid widx base).Canon P := by
  unfold State.resumeAnswered
  repeat' split
  all_goals simp [hs]

@[simp] theorem canon_redrive {gid : ℕ} : (s.redrive gid).Canon P ↔ s.Canon P := Iff.rfl
@[simp] theorem canon_relockRecords {g : Group} : (s.relockRecords g).Canon P ↔ s.Canon P := Iff.rfl

theorem memWf_readGroup {g : Group} (hs : s.memWf = true) : (s.readGroup g).memWf = true := by
  obtain ⟨hm, -⟩ := s.memWf_iff.1 hs
  exact (Group.memWf_iff _).2 ⟨s.wf_imageCells _ _ hm, s.wf_imageCells _ _ hm⟩

@[simp] theorem canon_unpackGroup {gid : ℕ} (hs : s.Canon P) : (s.unpackGroup gid).Canon P := by
  unfold State.unpackGroup
  split
  · exact hs
  next g _ =>
    extract_lets old g1 s1 slotted s2 s3 s4 newer s5 s6
    have hg : g1.memWf = true := by
      rw [Group.memWf_iff]
      exact (Group.memWf_iff old).1 (memWf_readGroup hs.1)
    have h1 : s1.Canon P := canon_updGroup_of (fun _ _ => hg) hs
    have h2 : s2.Canon P := canon_foldl (fun _ _ ht => canon_writeSlot ht) _ h1
    have h4 : s4.Canon P := by simp [s4, s3, h2]
    have h5 : s5.Canon P := by simp [s5, h4]
    have h6 : s6.Canon P := by
      simp only [s6]
      split <;> simp [h5]
    exact canon_foldl (fun _ _ ht => canon_resumeAnswered ht) _ h6

@[simp] theorem canon_placeGang {core : ℕ} {gs : List Group} : (s.placeGang core gs).Canon P ↔ s.Canon P := by
  simp [State.placeGang]

@[simp] theorem canon_endSave {gid : ℕ} : (s.endSave gid).Canon P ↔ s.Canon P := by
  unfold State.endSave
  split <;> simp

@[simp] theorem canon_requeue {gid : ℕ} : (s.requeue gid).Canon P ↔ s.Canon P := by
  unfold State.requeue
  split <;> simp

@[simp] theorem canon_syncImage {old new : State} {g : Group} (hs : new.Canon P) : (State.syncImage old new g).Canon P := by
  unfold State.syncImage
  split
  · exact hs
  · dsimp only
    split
    · exact hs
    · exact canon_writeRaw hs

@[simp] theorem canon_syncImages {old new : State} (hs : new.Canon P) : (State.syncImages old new).Canon P :=
  canon_foldl (fun _ _ ht => canon_syncImage ht) _ hs

@[simp] theorem canon_ctxSetDie {c : Ctx} {f : Die → Die} : State.Canon P (Ctx.setDie s c f) ↔ s.Canon P := Iff.rfl
@[simp] theorem canon_ctxSetPart {c : Ctx} {f : Part → Part} : State.Canon P (Ctx.setPart s c f) ↔ s.Canon P := Iff.rfl

/-! ### System functions -/

@[simp] theorem canon_releaseParty {p : Party} (hs : s.Canon P) : (s.releaseParty p).1.Canon P := by
  simp only [State.releaseParty]
  repeat' split
  all_goals simp [hs]

@[simp] theorem canon_releaseParties {xs : List Party} (hs : s.Canon P) : (s.releaseParties xs).1.Canon P := by
  induction xs generalizing s with
  | nil => exact hs
  | cons x r ih => exact ih (canon_releaseParty hs)

@[simp] theorem canon_answerEntry {part idx : ℕ} (hs : s.Canon P) : (s.answerEntry part idx).Canon P := by
  simp [State.answerEntry, hs]

@[simp] theorem canon_newEndpoint {core handle caller part d : ℕ} :
    (s.newEndpoint core handle caller part d).Canon P ↔ s.Canon P := by
  unfold State.newEndpoint
  dsimp only
  split
  · rfl
  · split
    · rfl
    · simp [canon_openFeed (by assumption)]

@[simp] theorem canon_registerHandle {core : ℕ} {x : Sheaf} {handle : ℕ} :
    (s.registerHandle core x handle).Canon P ↔ s.Canon P := by
  simp only [State.registerHandle]
  repeat' split
  all_goals simp

@[simp] theorem canon_leaveAsid {asid : ℕ} (hs : s.Canon P) : (s.leaveAsid asid).Canon P := by simp [State.leaveAsid, hs]

/-! ### Partitions -/

@[simp] theorem canon_setKslot {die k : ℕ} {x : KSlot} : (s.setKslot die k x).Canon P ↔ s.Canon P := Iff.rfl

@[simp] theorem canon_settleLines {ls : List ℕ} (hs : s.Canon P) : (s.settleLines ls).Canon P := by
  rw [State.Canon, State.memWf_iff] at hs ⊢
  exact ⟨⟨hs.1.1, Memory.wf_smSets _ _ hs.1.2⟩, hs.2⟩

@[simp] theorem canon_dropKeyLines {die : ℕ} {ks : List ℕ} (hs : s.Canon P) : (s.dropKeyLines die ks).Canon P := by
  simp [State.dropKeyLines, hs]

@[simp] theorem canon_scrubPage {die at_ : ℕ} {fin : Option (ℕ × ℕ)} (hs : s.Canon P) :
    (s.scrubPage die at_ fin).Canon P := by
  unfold State.scrubPage
  split <;> simp [hs]

@[simp] theorem canon_clearQueue {p : ℕ} (hs : s.Canon P) : (s.clearQueue p).Canon P := by simp [State.clearQueue, hs]
@[simp] theorem canon_dropWatches {p : ℕ} : (s.dropWatches p).Canon P ↔ s.Canon P := by simp [State.dropWatches]
@[simp] theorem canon_askPause {p : ℕ} : (s.askPause p).Canon P ↔ s.Canon P := by simp [State.askPause]

@[simp] theorem canon_resetPart {p : ℕ} (hs : s.Canon P) : (s.resetPart p).Canon P := by
  have hu : ∀ (t : State) (l : List ℕ), t.Canon P → (l.foldl State.endContext t).Canon P := fun t l ht =>
    canon_foldl (fun _ _ ht => canon_endContext ht) _ ht
  simp [State.resetPart, hu, hs]

@[simp] theorem canon_freeSlots {p : ℕ} (hs : s.Canon P) : (s.freeSlots p).Canon P := by
  have hf : ∀ l : List Feed, (l.foldl (fun (s : State) f =>
      (s.setFeed { f with mapped := none }).saveFeed (128 * (f.mapped.getD (0, 0)).1) f.num) s).Canon P := fun l =>
    canon_foldl (fun _ _ ht => canon_saveFeed (by simp [ht])) _ hs
  simp [State.freeSlots, hf]

@[simp] theorem canon_releasePart {p : ℕ} (hs : s.Canon P) : (s.releasePart p).Canon P := by
  have hd : ∀ (t : State) (l : List (ℕ × Die)) (f : ℕ × Die → List ℕ), t.Canon P →
      (l.foldl (fun (s : State) q => s.dropKeyLines q.1 (f q)) t).Canon P := fun t l f ht =>
    canon_foldl (fun _ _ ht => canon_dropKeyLines ht) _ ht
  simp [State.releasePart, hd, hs]

/-! ### Launches -/

@[simp] theorem canon_addProgram {p : Program} : (s.addProgram p).Canon P ↔ s.Canon P := by simp [State.addProgram]

@[simp] theorem canon_acceptLaunch {flow part : ℕ} {d : LaunchDesc} : (s.acceptLaunch flow part d).Canon P ↔ s.Canon P :=
  Iff.rfl

@[simp] theorem canon_appendMany {num part : ℕ} {xs : List (List Word)} (hs : s.Canon P) :
    (s.appendMany num part xs).1.Canon P := by
  induction xs generalizing s with
  | nil => exact hs
  | cons x r ih =>
    simp only [State.appendMany]
    split
    · exact hs
    · split
      · exact hs
      · exact ih (by simp [hs])

@[simp] theorem canon_refuseAppend {flow : ℕ} {h : CmdHeader} {status : ℕ} :
    (s.refuseAppend flow h status).Canon P ↔ s.Canon P := by simp [State.refuseAppend]

@[simp] theorem canon_setBind {key : ℕ} {b : Bind} : (s.setBind key b).Canon P ↔ s.Canon P := Iff.rfl
@[simp] theorem canon_compacting {core : ℕ} {on : Bool} : (s.compacting core on).Canon P ↔ s.Canon P := Iff.rfl
@[simp] theorem canon_backOff {launch gang : ℕ} : (s.backOff launch gang).Canon P ↔ s.Canon P := by simp [State.backOff]
@[simp] theorem canon_unhold {core : ℕ} : (s.unhold core).Canon P ↔ s.Canon P := Iff.rfl

@[simp] theorem canon_placeReserved {core n r : ℕ} : (s.placeReserved core n r).1.Canon P ↔ s.Canon P := by
  unfold State.placeReserved
  split <;> simp

@[simp] theorem canon_startGroup {l : Launch} {key : ℕ} {b : Bind} (hs : s.Canon P) : (s.startGroup l key b).Canon P := by
  have hq := canon_placeReserved (P := P) (s := s.unhold (key / 64)) (core := key / 64) (n := l.desc.warps) (r := l.desc.regs)
  exact canonParts_self.1 (canon_addGroup rfl (hq.2 (by simp [hs])))

@[simp] theorem canon_startMember {l : Launch} {p : ℕ × Bind} (hs : s.Canon P) : (s.startMember l p).Canon P := by
  unfold State.startMember
  split <;> simp [hs]

@[simp] theorem canon_startGang {l : Launch} {gang : ℕ} (hs : s.Canon P) : (s.startGang l gang).Canon P := by
  have hm : ∀ rs : List (ℕ × Bind), (rs.foldl (fun (s : State) p => s.startMember l p) s).Canon P := fun rs =>
    canon_foldl (fun _ _ ht => canon_startMember ht) _ hs
  simp only [State.startGang]
  split <;> simp [hm]

/-! ### Boot -/

@[simp] theorem canon_cacheIn {core : ℕ} {x : TlbEntry} : (s.cacheIn core x).Canon P ↔ s.Canon P := Iff.rfl

@[simp] theorem canon_miss {core asid : ℕ} {va : DWord} : (s.miss core asid va).Canon P ↔ s.Canon P := by
  simp only [State.miss]
  repeat' split
  all_goals simp

@[simp] theorem canon_setSag {die k : ℕ} {lasting : Bool} (hs : s.Canon P) : (s.setSag die k lasting).Canon P := by
  simp [State.setSag, hs]

@[simp] theorem canon_setReady {die bit : ℕ} : (s.setReady die bit).Canon P ↔ s.Canon P := Iff.rfl
@[simp] theorem canon_updTree : s.updTree.Canon P ↔ s.Canon P := Iff.rfl

@[simp] theorem canon_moduleReset (hs : s.Canon P) : s.moduleReset.Canon P := by
  refine ⟨s.memWf_moduleReset hs.1, fun _ g hg => ?_⟩
  cases hg

@[simp] theorem canon_startRoot {die : ℕ} (hs : s.Canon P) : (s.startRoot die).Canon P := by simp [State.startRoot, hs]

/-! ### Issue of closures -/

@[simp] theorem optCanon_startClosure {g : Group} {w : Warp} {k : Closure} (hs : s.Canon P) :
    OptCanon P (s.startClosure g w k) := by
  simp only [State.startClosure]
  repeat' split
  all_goals simp [hs]

/-! ### The step -/

@[simp] theorem canon_failDrain {core : ℕ} {q : MCmd} : (s.failDrain core q).Canon P ↔ s.Canon P := Iff.rfl
@[simp] theorem canon_cutOp {o : EngOp} : (s.cutOp o).Canon P ↔ s.Canon P := Iff.rfl

@[simp] theorem canon_mishap {c : Choice} (hs : s.Canon P) : (s.mishap c).Canon P := by
  unfold State.mishap
  repeat' split
  all_goals simp [hs]

@[simp] theorem canon_logPipe {kind : ℕ} (hs : s.Canon P) : (s.logPipe kind).Canon P := by
  unfold State.logPipe
  split <;> simp [hs]

@[simp] theorem canon_pipeRetried (hs : s.Canon P) : s.pipeRetried.Canon P := by simp [State.pipeRetried, hs]

@[simp] theorem canon_checkFails (hs : s.Canon P) : s.checkFails.Canon P := by
  unfold State.checkFails
  split <;> simp [hs]

@[simp] theorem canon_pipeFails {gid widx : ℕ} (hs : s.Canon P) : (s.pipeFails gid widx).Canon P := by
  simp only [State.pipeFails]
  exact canon_checkFails (canon_logPipe (canon_logPipe hs))

@[simp] theorem canon_noteIssue {gid widx : ℕ} : (s.noteIssue gid widx).Canon P ↔ s.Canon P := by
  unfold State.noteIssue
  split <;> simp

@[simp] theorem canon_noteReady : s.noteReady.Canon P ↔ s.Canon P := by
  rw [State.noteReady, canon_mk, canonParts_map, canonParts_self]
  exact fun _ => rfl

@[simp] theorem canon_tick : s.tick.Canon P ↔ s.Canon P := by simp [State.tick]
@[simp] theorem canon_settle (hs : s.Canon P) : s.settle.Canon P := canon_landInbox (canon_sendOps (canon_drainQueue hs))

theorem canon_endStep {old new : State} (hs : new.Canon P) : (State.endStep old new).Canon P :=
  canon_tick.2 (canon_syncImages (canon_noteReady.2 (canon_mk.2 (canonParts_self.2 (canon_settle hs)))))

end Sys2Proof.Machine

/-! ### Instructions and events

One lemma per instruction or event that is more than a use of a shared shape; `nextCanon_exec` unfolds the others. -/

namespace Sys2Proof.Machine

variable {P : Prop} {s : State}

/-! ### The shapes that instructions share -/

theorem nextCanon_if {c : Prop} [Decidable c] {a b : Host.Outcome State Fault Refusal} (ha : NextCanon P a)
    (hb : NextCanon P b) : NextCanon P (if c then a else b) := by
  split
  · exact ha
  · exact hb

theorem nextCanon_issue {i : Instr} {k : Ctx → Host.Outcome State Fault Refusal} (hs : s.Canon P)
    (hk : ∀ c, NextCanon P (k c)) : NextCanon P (issue s i k) := by
  unfold issue
  split
  · simp
  · split
    · simp [hs]
    · split
      · simp [hs]
      · split
        · simp [hs]
        · split
          · simp [hs]
          · exact hk _

theorem nextCanon_single {i : Instr} {k : Ctx → ℕ → Host.Outcome State Fault Refusal} (hs : s.Canon P)
    (hk : ∀ c l, NextCanon P (k c l)) : NextCanon P (single s i k) := nextCanon_issue hs fun c => by
    split
    · simp [hs]
    · exact hk _ _
    · simp [hs]

theorem nextCanon_sysInstr {i : Instr} {k : Ctx → ℕ → Host.Outcome State Fault Refusal} (hs : s.Canon P)
    (hk : ∀ c l, NextCanon P (k c l)) : NextCanon P (sysInstr s i k) := nextCanon_issue hs fun c => hk c _

theorem nextCanon_matrix {i : Instr} {k : Ctx → Host.Outcome State Fault Refusal} (hs : s.Canon P)
    (hk : ∀ c, NextCanon P (k c)) : NextCanon P (matrix s i k) := nextCanon_issue hs fun c => by
    dsimp only
    split
    · simp [hs]
    · split
      · simp [hs]
      · exact hk c

theorem nextCanon_matrixOwned {i : Instr} {k : Ctx → Host.Outcome State Fault Refusal} (hs : s.Canon P)
    (hk : ∀ c, NextCanon P (k c)) : NextCanon P (matrixOwned s i k) := nextCanon_matrix hs fun c => by
    split
    · exact hk c
    · simp [hs]

theorem nextCanon_phase {i : Instr} {m : Option Modifier} {x : Scope} {f : Ctx → State} (hs : s.Canon P)
    (hf : ∀ c, (f c).Canon P) : NextCanon P (phase s i m x f) := nextCanon_issue hs fun c => by simp [hs, hf]

theorem nextCanon_barrier {i : Instr} {b : ℕ} {m : Option Modifier} {f : Ctx → Group → ℕ → Bar → State} (hs : s.Canon P)
    (hf : ∀ c g k x, (f c g k x).Canon P) : NextCanon P (barrier s i b m f) := nextCanon_issue hs fun c => by
    simp only [nextCanon_next, canon_ite]
    repeat' split
    all_goals simp [hs, hf]

@[simp] theorem nextCanon_sysStatus {c : Ctx} {d n : ℕ} (hs : s.Canon P) : NextCanon P (sysStatus s c d n) := by
  simp [sysStatus, hs]

@[simp] theorem nextCanon_sysPair {c : Ctx} {d n : ℕ} {v : Word} (hs : s.Canon P) : NextCanon P (sysPair s c d n v) := by
  simp [sysPair, hs]

theorem nextCanon_doAsidq {i : Instr} {x : OpSys} {f : ℕ → ℕ → State × ℕ} (hs : s.Canon P)
    (hf : ∀ a n, (f a n).1.Canon P) : NextCanon P (doAsidq s i x f) := nextCanon_sysInstr hs fun c l => by simp [hs, hf]

theorem nextCanon_doPart {i : Instr} {x : OpSys} {query : Bool} {k : Ctx → ℕ → ℕ → Host.Outcome State Fault Refusal}
    (hs : s.Canon P) (hk : ∀ c p l, NextCanon P (k c p l)) : NextCanon P (doPart s i x query k) :=
  nextCanon_sysInstr hs fun c l => by simp [hs, hk]

/-! ### Integer instructions -/

@[simp] theorem nextCanon_alu3 {i : Instr} {x : OpA} {f : Word → Word → Word → Word} (hs : s.Canon P) :
    NextCanon P (alu3 s i x f) := nextCanon_issue hs fun c => by simp [hs]

@[simp] theorem nextCanon_aluPair {i : Instr} {x : OpA} {f : DWord → Word → Word} (hs : s.Canon P) :
    NextCanon P (aluPair s i x f) := nextCanon_issue hs fun c => by simp [hs]

@[simp] theorem nextCanon_aluShift64 {i : Instr} {x : OpA} {f : DWord → ℕ → DWord} (hs : s.Canon P) :
    NextCanon P (aluShift64 s i x f) := nextCanon_issue hs fun c => by simp [hs]

@[simp] theorem nextCanon_aluWide {i : Instr} {x : OpA} {f : Word → Word → DWord} (hs : s.Canon P) :
    NextCanon P (aluWide s i x f) := nextCanon_issue hs fun c => by simp [hs]

@[simp] theorem nextCanon_alu1 {i : Instr} {x : OpA2} {f : Word → Word} (hs : s.Canon P) : NextCanon P (alu1 s i x f) :=
  nextCanon_issue hs fun c => by simp [hs]

@[simp] theorem nextCanon_half2 {i : Instr} {x : OpH} {f : Word → Word → Word} (hs : s.Canon P) :
    NextCanon P (half2 s i x f) := nextCanon_issue hs fun c => by simp [hs]

@[simp] theorem nextCanon_halfF {i : Instr} {x : OpH} {o : FloatOp} (hs : s.Canon P) : NextCanon P (halfF s i x o) :=
  nextCanon_issue hs fun c => by
  dsimp only
  simp [hs]

@[simp] theorem nextCanon_aluImm {i : Instr} {x : OpI} {f : Word → Word → Word} (hs : s.Canon P) :
    NextCanon P (aluImm s i x f) := nextCanon_issue hs fun c => by simp [hs]

@[simp] theorem nextCanon_aluShiftImm {i : Instr} {x : OpISh} {f : Word → ℕ → Word} (hs : s.Canon P) :
    NextCanon P (aluShiftImm s i x f) := nextCanon_issue hs fun c => by simp [hs]

@[simp] theorem nextCanon_aluDig {i : Instr} {o : DigOp} {y : DigTy} {d a b : ℕ} {t : Bool} {m : Option Modifier}
    (hs : s.Canon P) : NextCanon P (aluDig s i o y d a b t m) := nextCanon_issue hs fun c => by
  dsimp only
  simp [hs]

@[simp] theorem nextCanon_execNop (hs : s.Canon P) : NextCanon P (execNop s) := nextCanon_issue hs fun c => by simp [hs]

@[simp] theorem nextCanon_execIcmp {x : OpIcmp} (hs : s.Canon P) : NextCanon P (execIcmp x s) :=
  nextCanon_issue hs fun c => by simp [hs]

@[simp] theorem nextCanon_execCmpi {x : OpCmpi} (hs : s.Canon P) : NextCanon P (execCmpi x s) :=
  nextCanon_issue hs fun c => by simp [hs]

@[simp] theorem nextCanon_execMovw {x : OpW} (hs : s.Canon P) : NextCanon P (execMovw x s) :=
  nextCanon_issue hs fun c => by simp [hs]

@[simp] theorem nextCanon_execMovt {x : OpW} (hs : s.Canon P) : NextCanon P (execMovt x s) :=
  nextCanon_issue hs fun c => by simp [hs]

@[simp] theorem nextCanon_execMovs {x : OpW} (hs : s.Canon P) : NextCanon P (execMovs x s) :=
  nextCanon_issue hs fun c => by simp [hs]

@[simp] theorem nextCanon_execLea {x : OpLea} (hs : s.Canon P) : NextCanon P (execLea x s) :=
  nextCanon_issue hs fun c => by simp [hs]

/-! ### Loads, stores, atomics and their order -/

@[simp] theorem nextCanon_execLd {x : OpLd} (hs : s.Canon P) : NextCanon P (execLd x s) :=
  nextCanon_issue hs fun c => by simp [hs]

@[simp] theorem nextCanon_execLdx {x : OpX} (hs : s.Canon P) : NextCanon P (execLdx x s) :=
  nextCanon_issue hs fun c => by simp [hs]

@[simp] theorem nextCanon_execSt {x : OpSt} (hs : s.Canon P) : NextCanon P (execSt x s) :=
  nextCanon_issue hs fun c => by simp [hs]

@[simp] theorem nextCanon_execStx {x : OpX} (hs : s.Canon P) : NextCanon P (execStx x s) :=
  nextCanon_issue hs fun c => by simp [hs]

theorem checkAccess_canon {c : Ctx} {p : Space} {n : ℕ} {wr plain : Bool} {es : List Ea} {r : Checked} (hs : s.Canon P)
    (e : checkAccess s c p n wr plain es = r) : r.Canon P := e ▸ canon_checkAccess hs

/-- The state that the read of a record in far memory leaves. -/
def RecordRead.Canon (P : Prop) : RecordRead → Prop
  | .stop t => t.Canon P
  | .go t _ => t.Canon P

theorem farRecord_canon {c : Ctx} {i : Instr} {a n l : ℕ} {r : RecordRead} (hs : s.Canon P)
    (e : farRecord s c i a n l = r) : r.Canon P := by
  subst e
  unfold farRecord
  split
  next t e => exact checkAccess_canon hs e
  next s1 acc miss e =>
    have h1 : s1.Canon P := checkAccess_canon hs e
    split
    · split
      · dsimp only [RecordRead.Canon]
        split <;> split <;> simp [h1]
      · exact h1
    · exact canon_deferAccess h1

theorem remoteOperand_canon {s t : State} {c : Ctx} {i : Instr} {a l : ℕ} {wr : Bool} (hs : s.Canon P)
    (e : remoteOperand s c i a l wr = .error t) : t.Canon P := by
  simp only [remoteOperand] at e
  repeat' split at e
  all_goals cases e
  all_goals simp [hs]

theorem scratchOperand_canon {s t : State} {c : Ctx} {o n : ℕ} (hs : s.Canon P)
    (e : scratchOperand s c o n = .error (some t)) : t.Canon P := by
  unfold scratchOperand at e
  repeat' split at e
  all_goals cases e
  exact canon_raise hs

theorem checkFuture_canon {c : Ctx} {p : Space} {wr : Bool} {es : List Ea} {r : Checked} (hs : s.Canon P)
    (e : checkFuture s c p wr es = r) : r.Canon P := by
  subst e
  unfold checkFuture
  split
  next t e => exact checkAccess_canon hs e
  next s1 acc miss e =>
    have h1 : s1.Canon P := checkAccess_canon hs e
    split
    · exact canon_raise hs
    · exact h1

/-! ### Feeds and windows -/

theorem canon_feedNamed {s t : State} {core asid h n : ℕ} {table : DWord}
    (e : s.feedNamed core asid table h = .ok (some (n, t))) : t.Canon P ↔ s.Canon P := by
  simp only [State.feedNamed] at e
  repeat' split at e
  all_goals cases e
  exact canon_openFeed (by assumption)

theorem canon_feedOf {s t : State} {g : Group} {h n : ℕ} (e : s.feedOf g h = .ok (some (n, t))) :
    t.Canon P ↔ s.Canon P := by
  unfold State.feedOf at e
  extract_lets table at e
  clear_value table
  split at e
  · split at e
    · simp only [Except.ok.injEq, Option.some.injEq] at e
      rw [show t = (s.service (g.core / 128)).2 from (congrArg Prod.snd e).symm]
      exact canon_service
    · simp at e
  · exact canon_feedNamed e

theorem fqRelease_error_canon {s t : State} {c : Ctx} (hs : s.Canon P) (e : fqRelease s c = .error t) : t.Canon P := by
  simp only [fqRelease] at e
  repeat' split at e
  all_goals cases e
  all_goals simp [hs]

theorem fqRelease_ok_canon {s t : State} {c : Ctx} (hs : s.Canon P) (e : fqRelease s c = .ok t) : t.Canon P := by
  simp only [fqRelease] at e
  repeat' split at e
  all_goals cases e
  simp [hs]

theorem optCanon_unless {c : Prop} [Decidable c] {o : Option State} (h : OptCanon P o) :
    OptCanon P (if c then none else o) := by
  split
  · exact optCanon_none
  · exact h

theorem except_map_error {α β ε : Type} {f : α → β} {x : Except ε α} {t : ε} (e : Except.map f x = .error t) :
    x = .error t := by
  cases x <;> cases e
  rfl

@[simp] theorem nextCanon_execAtom {x : OpAtom} (hs : s.Canon P) : NextCanon P (execAtom x s) :=
  nextCanon_issue hs fun c => by
  dsimp only
  split
  · simp [hs]
  · split
    next t e => exact nextCanon_next.2 (checkAccess_canon hs e)
    next s1 acc miss e =>
      have h1 : s1.Canon P := checkAccess_canon hs e
      split
      · simp [h1]
      · split <;> simp [h1]

@[simp] theorem nextCanon_execPhaseRel {x : OpScope} (hs : s.Canon P) : NextCanon P (execPhaseRel x s) :=
  nextCanon_phase hs fun c => by simp [hs]

@[simp] theorem nextCanon_execPhaseAcq {x : OpAcq} (hs : s.Canon P) : NextCanon P (execPhaseAcq x s) :=
  nextCanon_phase hs fun c => by simp [hs]

@[simp] theorem nextCanon_execPhaseAr {x : OpScope} (hs : s.Canon P) : NextCanon P (execPhaseAr x s) :=
  nextCanon_phase hs fun c => by simp [hs]

@[simp] theorem nextCanon_execFence {x : OpScope} (hs : s.Canon P) : NextCanon P (execFence x s) :=
  nextCanon_phase hs fun c => by simp [hs]

/-! ### Announced operations -/

@[simp] theorem nextCanon_execAnnDriverStep {drive : ℕ} (hs : s.Canon P) : NextCanon P (execAnnDriverStep drive s) := by
  simp only [execAnnDriverStep]
  repeat' split
  all_goals simp [hs]

@[simp] theorem nextCanon_execAnn {x : OpAnn} (hs : s.Canon P) : NextCanon P (execAnn x s) :=
  nextCanon_issue hs fun c => by
  extract_lets ls a b d wide sc rel acq sync op0 op1 badWidth fresh check mask key s1 made s2
  have hc : ∀ l, OptCanon P (check l) := by
    intro l
    simp only [check]
    split
    · simp
    · split
      · simp [hs]
      · split
        · simp [hs]
        · repeat' split
          · simp only [optCanon_some]
            exact optCanon_recordTrap hs _ (by assumption)
          · simp only [optCanon_some]
            exact optCanon_headerTrap hs _ (by assumption)
          · exact optCanon_swapTrap hs
  clear_value check
  refine nextCanon_if (by simp [hs]) (nextCanon_if (nextCanon_next.2 (canon_waitDrives hc hs)) ?_)
  split
  · simp [hs]
  · split
    next t e => exact nextCanon_next.2 (hc _ _ e)
    next =>
      have h2 : s2.Canon P := by simp [s2, s1, hs]
      simp [h2]

@[simp] theorem nextCanon_execAnnHlp {x : OpHlp} (hs : s.Canon P) : NextCanon P (execAnnHlp x s) :=
  nextCanon_issue hs fun c => by
  dsimp only
  split
  · simp [hs]
  · refine nextCanon_next.2 (canon_waitDrives (fun l => ?_) hs)
    split
    next t e => exact optCanon_some.2 (optCanon_headerTrap hs _ e)
    next => exact optCanon_readTrap hs

@[simp] theorem nextCanon_execAnnq {x : OpAnnq} (hs : s.Canon P) : NextCanon P (execAnnq x s) :=
  nextCanon_issue hs fun c => by
  dsimp only
  split <;> simp [hs]

/-! ### Barriers -/

@[simp] theorem nextCanon_execBarInit {x : OpBarInit} (hs : s.Canon P) : NextCanon P (execBarInit x s) :=
  nextCanon_issue hs fun c => by
  dsimp only
  repeat' split
  all_goals simp [hs]

@[simp] theorem nextCanon_execBarArv {x : OpBar} (hs : s.Canon P) : NextCanon P (execBarArv x s) :=
  nextCanon_barrier hs fun c g n b => by
  dsimp only
  split <;> simp [hs]

@[simp] theorem nextCanon_execBarAdd {x : OpBarS} (hs : s.Canon P) : NextCanon P (execBarAdd x s) :=
  nextCanon_barrier hs fun c g n b => by
  dsimp only
  split <;> simp [hs]

@[simp] theorem nextCanon_execBarTst {x : OpBarS} (hs : s.Canon P) : NextCanon P (execBarTst x s) :=
  nextCanon_barrier hs fun c g n b => by
  dsimp only
  split <;> simp [hs]

@[simp] theorem nextCanon_execBarPnd {x : OpBarS} (hs : s.Canon P) : NextCanon P (execBarPnd x s) :=
  nextCanon_barrier hs fun c g n b => by
  dsimp only
  split <;> simp [hs]

/-! ### Matrix commands -/

@[simp] theorem nextCanon_execMresv {x : OpE2} (hs : s.Canon P) : NextCanon P (execMresv x s) :=
  nextCanon_matrix hs fun c => by
  dsimp only
  repeat' split
  all_goals simp [hs]

@[simp] theorem nextCanon_execMrels {x : OpBar} (hs : s.Canon P) : NextCanon P (execMrels x s) :=
  nextCanon_matrixOwned hs fun c => by
  simp only [nextCanon_next]
  repeat' split
  all_goals simp [hs]

@[simp] theorem nextCanon_execMscl {x : OpSrc} (hs : s.Canon P) : NextCanon P (execMscl x s) :=
  nextCanon_matrixOwned hs fun c => by simp [hs]

@[simp] theorem nextCanon_execMlds {x : OpBarS} (hs : s.Canon P) : NextCanon P (execMlds x s) :=
  nextCanon_matrixOwned hs fun c => by
  dsimp only
  repeat' split
  all_goals simp [hs]

@[simp] theorem nextCanon_execMswp {x : OpM} (hs : s.Canon P) : NextCanon P (execMswp x s) :=
  nextCanon_matrixOwned hs fun c => by simp [hs]

@[simp] theorem nextCanon_execMzero {x : OpSrc} (hs : s.Canon P) : NextCanon P (execMzero x s) :=
  nextCanon_matrixOwned hs fun c => by
  dsimp only
  split <;> simp [hs]

@[simp] theorem nextCanon_execMchn {x : OpBar} (hs : s.Canon P) : NextCanon P (execMchn x s) :=
  nextCanon_matrixOwned hs fun c => by simp [hs]

@[simp] theorem nextCanon_execMstat {x : OpStat} (hs : s.Canon P) : NextCanon P (execMstat x s) :=
  nextCanon_matrixOwned hs fun c => by
  dsimp only
  split <;> simp [hs]

@[simp] theorem nextCanon_execMloop {x : OpSrc} (hs : s.Canon P) : NextCanon P (execMloop x s) :=
  nextCanon_matrixOwned hs fun c => by
  have hc := optCanon_checkLoop (P := P) (c := c) (d := loopDesc (c.words x.a.toNat 4 (c.low x.m))) (table := []) (ill := false)
    optCanon_none optCanon_none hs
  dsimp only
  split
  next t e => exact nextCanon_next.2 (hc t e)
  next => simp [hs]

@[simp] theorem nextCanon_execMgrp {x : OpMgrp} (hs : s.Canon P) : NextCanon P (execMgrp x s) :=
  nextCanon_matrixOwned hs fun c => by
  extract_lets l ws d v o n va bad tbl tlock words table
  have ht : OptCanon P tbl := by simp [tbl, hs]
  have hl : OptCanon P tlock := by simp [tlock, hs]
  split
  · simp [hs]
  · split
    next t e => exact nextCanon_next.2 (optCanon_checkLoop ht hl hs t e)
    next => simp [hs]

@[simp] theorem nextCanon_execMdrn {x : OpE2} (hs : s.Canon P) : NextCanon P (execMdrn x s) :=
  nextCanon_matrixOwned hs fun c => by
  extract_lets l a ws d core key s1 cmd o n st
  refine nextCanon_if (by simp [hs]) (nextCanon_if (by simp [hs]) (nextCanon_if (by simp [hs]) (nextCanon_if ?_ ?_)))
  · refine nextCanon_if (by simp [hs]) ?_
    exact nextCanon_next.2 (canon_finishPending.2 (canon_pushMx.2 (canon_addFly.2 hs)))
  · refine nextCanon_if (by simp [st, hs]) ?_
    split <;> simp [st, hs]

/-! ### Copies -/

@[simp] theorem nextCanon_doCopy {i : Instr} {x : OpE} {store : Bool} (hs : s.Canon P) :
    NextCanon P (doCopy s i x store) := nextCanon_single hs fun c l => by
  split
  next t e => exact nextCanon_next.2 (farRecord_canon hs e)
  next s1 v e =>
    have h1 : s1.Canon P := farRecord_canon hs e
    dsimp only
    split <;> simp [h1]

@[simp] theorem nextCanon_execCpyp {x : OpE} (hs : s.Canon P) : NextCanon P (execCpyp x s) :=
  nextCanon_single hs fun c l => by
  split
  next t e => exact nextCanon_next.2 (farRecord_canon hs e)
  next s1 v e =>
    have h1 : s1.Canon P := farRecord_canon hs e
    simp [h1]

@[simp] theorem nextCanon_execCpyq {x : OpStat} (hs : s.Canon P) : NextCanon P (execCpyq x s) :=
  nextCanon_issue hs fun c => by
  dsimp only
  split <;> simp [hs]

@[simp] theorem nextCanon_execCopyCompletion {op : ℕ} (hs : s.Canon P) : NextCanon P (execCopyCompletion op s) := by
  simp only [execCopyCompletion]
  repeat' split
  all_goals simp [hs]

/-! ### Futures -/

@[simp] theorem nextCanon_execFget {x : OpFut} (hs : s.Canon P) : NextCanon P (execFget x s) :=
  nextCanon_issue hs fun c => by
  dsimp only
  split
  · simp [hs]
  · split
    · simp [hs]
    · split
      next t e => exact nextCanon_next.2 (checkFuture_canon hs e)
      next s1 acc miss e =>
        have h1 : s1.Canon P := checkFuture_canon hs e
        simp [h1, hs]

@[simp] theorem nextCanon_execFset {x : OpFut} (hs : s.Canon P) : NextCanon P (execFset x s) :=
  nextCanon_issue hs fun c => by
  dsimp only
  split
  · simp [hs]
  · split
    next t e => exact nextCanon_next.2 (checkFuture_canon hs e)
    next s1 acc miss e =>
      have h1 : s1.Canon P := checkFuture_canon hs e
      simp [h1]

@[simp] theorem nextCanon_execFclr {x : OpFut} (hs : s.Canon P) : NextCanon P (execFclr x s) :=
  nextCanon_issue hs fun c => by
  dsimp only
  split
  · simp [hs]
  · split
    next t e => exact nextCanon_next.2 (checkFuture_canon hs e)
    next s1 acc miss e =>
      have h1 : s1.Canon P := checkFuture_canon hs e
      simp [h1]

/-! ### The cache engines -/

@[simp] theorem nextCanon_execKvg {x : OpE} (hs : s.Canon P) : NextCanon P (execKvg x s) :=
  nextCanon_issue hs fun c => by
  dsimp only
  split
  · simp [hs]
  · split
    · simp [hs]
    · split
      next t e => exact nextCanon_next.2 (farRecord_canon hs e)
      next s1 v e =>
        have h1 : s1.Canon P := farRecord_canon hs e
        split <;> simp [h1]

@[simp] theorem nextCanon_execKvgCompletion {op : ℕ} (hs : s.Canon P) : NextCanon P (execKvgCompletion op s) := by
  simp only [execKvgCompletion]
  repeat' split
  all_goals simp [hs]

@[simp] theorem nextCanon_execKvmap {x : OpE} (hs : s.Canon P) : NextCanon P (execKvmap x s) :=
  nextCanon_issue hs fun c => by
  dsimp only
  split
  · simp [hs]
  · split
    · simp [hs]
    · split
      next t e => exact nextCanon_next.2 (farRecord_canon hs e)
      next s1 v e =>
        have h1 : s1.Canon P := farRecord_canon hs e
        split
        next t e => exact nextCanon_next.2 (checkAccess_canon h1 e)
        next s2 acc miss e =>
          have h2 : s2.Canon P := checkAccess_canon h1 e
          split <;> simp [h2]

@[simp] theorem nextCanon_execMigr {x : OpE} (hs : s.Canon P) : NextCanon P (execMigr x s) :=
  nextCanon_single hs fun c l => by
  dsimp only
  split
  next t e => exact nextCanon_next.2 (farRecord_canon hs e)
  next s1 v e =>
    have h1 : s1.Canon P := farRecord_canon hs e
    split
    · simp [h1]
    · simp [h1]
    · split
      · simp [h1]
      · split
        · simp [h1]
        · split
          · simp [h1]
          · split
            next t e => exact nextCanon_next.2 (checkAccess_canon h1 e)
            next s2 acc miss e =>
              have h2 : s2.Canon P := checkAccess_canon h1 e
              split <;> simp [h2]

@[simp] theorem nextCanon_execMigrCompletion {op status : ℕ} (hs : s.Canon P) :
    NextCanon P (execMigrCompletion op status s) := by
  unfold execMigrCompletion
  split
  · simp
  next o _ =>
    extract_lets d new
    have hp : ∀ (s1 : State) (k a v : ℕ), s1.Canon P → ((s1.engineWrite o.core (putAt a (natBytes 8 v))).endOp o k).Canon P :=
      fun s1 k a v h1 => canon_endOp (canon_engineWrite h1)
    have hb : ∀ (e n : ℕ) (m : VaMap) (b : List Byte) , State.Canon P { s.placeBlock o.core o.asid e m b with free := n } :=
      fun e n m b => canon_mk.2 (canonParts_self.2 (canon_placeBlock hs))
    split
    · simp
    · split
      · simp
      · split
        · simp [hs]
        · dsimp only
          split
          · split
            · simp
            · exact nextCanon_next.2 (hp _ _ _ _ hs)
          · split
            · simp [hs]
            · split
              · simp [hs]
              · split
                · simp
                · refine nextCanon_next.2 (hp _ _ _ _ ?_)
                  split
                  · exact hb _ _ _ _
                  · exact canon_spoilFar.2 (hb _ _ _ _)

@[simp] theorem nextCanon_execAdec {x : OpE} (hs : s.Canon P) : NextCanon P (execAdec x s) :=
  nextCanon_issue hs fun c => by
  refine nextCanon_if (by simp [hs]) (nextCanon_if (by simp [hs]) ?_)
  split
  next t e => exact nextCanon_next.2 (farRecord_canon hs e)
  next s1 v e =>
    have h1 : s1.Canon P := farRecord_canon hs e
    refine nextCanon_if (by simp [h1]) (nextCanon_if (by simp [h1]) (nextCanon_if (by simp [h1]) (nextCanon_if (by simp [h1]) ?_)))
    refine nextCanon_if (by simp [h1]) (nextCanon_if (by simp [h1]) (nextCanon_if (by simp [h1]) (nextCanon_if (by simp [h1]) (nextCanon_if (by simp [h1]) ?_))))
    exact nextCanon_next.2 (canon_finishPending.2 (canon_startOp.2 (canon_addFly.2 h1)))

@[simp] theorem nextCanon_execAdecCompletion {op : ℕ} (hs : s.Canon P) : NextCanon P (execAdecCompletion op s) := by
  simp only [execAdecCompletion]
  repeat' split
  all_goals simp [hs]

/-! ### The home engines -/

@[simp] theorem nextCanon_execHomeEngineTransaction {engine : ℕ} (hs : s.Canon P) :
    NextCanon P (execHomeEngineTransaction engine s) := by
  simp only [execHomeEngineTransaction]
  repeat' split
  all_goals simp [hs]

/-! ### Floating point -/

@[simp] theorem nextCanon_aluFloat {i : Instr} {o : FloatOp} {y : FTy} {x : OpA} (hs : s.Canon P) :
    NextCanon P (aluFloat s i o y x) := nextCanon_issue hs fun c => by
  dsimp only
  simp [hs]

@[simp] theorem nextCanon_aluSpecial {i : Instr} {f : SpecialFn} {x : OpTyT} (hs : s.Canon P) :
    NextCanon P (aluSpecial s i f x) := nextCanon_issue hs fun c => by
  dsimp only
  simp [hs]

@[simp] theorem nextCanon_execFcmp {x : OpFcmp} (hs : s.Canon P) : NextCanon P (execFcmp x s) :=
  nextCanon_issue hs fun c => by
  dsimp only
  simp [hs]

@[simp] theorem nextCanon_execFclass {x : OpTy} (hs : s.Canon P) : NextCanon P (execFclass x s) :=
  nextCanon_issue hs fun c => by simp [hs]

@[simp] theorem nextCanon_execAbst {x : OpTy} (hs : s.Canon P) : NextCanon P (execAbst x s) :=
  nextCanon_issue hs fun c => by simp [hs]

/-! ### Conversion -/

@[simp] theorem nextCanon_execCvt {x : OpCvt} (hs : s.Canon P) : NextCanon P (execCvt x s) :=
  nextCanon_issue hs fun c => by
  dsimp only
  simp [hs]

@[simp] theorem nextCanon_execCvts {x : OpCvt} (hs : s.Canon P) : NextCanon P (execCvts x s) :=
  nextCanon_issue hs fun c => by
  dsimp only
  simp [hs]

@[simp] theorem nextCanon_aluPack {i : Instr} {x : OpE} {f : Word → Word → Word → Word} (hs : s.Canon P) :
    NextCanon P (aluPack s i x f) := nextCanon_issue hs fun c => by
  split <;> simp [hs]

@[simp] theorem nextCanon_execCbset {x : OpCbset} (hs : s.Canon P) : NextCanon P (execCbset x s) :=
  nextCanon_issue hs fun c => by
  dsimp only
  split <;> simp [hs]

@[simp] theorem nextCanon_execCbget {x : OpCbget} (hs : s.Canon P) : NextCanon P (execCbget x s) :=
  nextCanon_issue hs fun c => by
  dsimp only
  simp [hs]

@[simp] theorem nextCanon_execCbenc {x : OpCbenc} (hs : s.Canon P) : NextCanon P (execCbenc x s) :=
  nextCanon_issue hs fun c => by
  dsimp only
  simp [hs]

@[simp] theorem nextCanon_execCbdec {x : OpCbdec} (hs : s.Canon P) : NextCanon P (execCbdec x s) :=
  nextCanon_issue hs fun c => by simp [hs]

@[simp] theorem nextCanon_execAbsm {x : OpFmt} (hs : s.Canon P) : NextCanon P (execAbsm x s) :=
  nextCanon_issue hs fun c => by simp [hs]

@[simp] theorem nextCanon_execAbsc {x : OpFmt} (hs : s.Canon P) : NextCanon P (execAbsc x s) :=
  nextCanon_issue hs fun c => by simp [hs]

/-! ### Tile operations -/

@[simp] theorem nextCanon_execShfl {x : OpShfl} (hs : s.Canon P) : NextCanon P (execShfl x s) :=
  nextCanon_issue hs fun c => by
  dsimp only
  split <;> simp [hs]

@[simp] theorem nextCanon_execVote {x : OpVote} (hs : s.Canon P) : NextCanon P (execVote x s) :=
  nextCanon_issue hs fun c => by simp [hs]

@[simp] theorem nextCanon_execRed {x : OpRed} (hs : s.Canon P) : NextCanon P (execRed x s) :=
  nextCanon_issue hs fun c => by simp [hs]

@[simp] theorem nextCanon_execScan {x : OpRed} (hs : s.Canon P) : NextCanon P (execScan x s) :=
  nextCanon_issue hs fun c => by simp [hs]

@[simp] theorem nextCanon_execArg {x : OpArg} (hs : s.Canon P) : NextCanon P (execArg x s) :=
  nextCanon_issue hs fun c => by
  dsimp only
  simp [hs]

/-! ### Moving splits -/

@[simp] theorem nextCanon_execBra {x : OpBr} (hs : s.Canon P) : NextCanon P (execBra x s) :=
  nextCanon_issue hs fun c => by simp [hs]

@[simp] theorem nextCanon_execBrc {x : OpBr} (hs : s.Canon P) : NextCanon P (execBrc x s) :=
  nextCanon_issue hs fun c => by
  dsimp only
  repeat' split
  all_goals simp [hs]

@[simp] theorem nextCanon_execCall {x : OpBrA} (hs : s.Canon P) : NextCanon P (execCall x s) :=
  nextCanon_issue hs fun c => by
  dsimp only
  split <;> simp [hs]

@[simp] theorem nextCanon_execRet {x : OpR} (hs : s.Canon P) : NextCanon P (execRet x s) :=
  nextCanon_issue hs fun c => by simp [hs]

@[simp] theorem nextCanon_execBrx {x : OpR} (hs : s.Canon P) : NextCanon P (execBrx x s) :=
  nextCanon_issue hs fun c => by
  split
  · simp [hs]
  · split <;> simp [hs]

@[simp] theorem nextCanon_execJoin (hs : s.Canon P) : NextCanon P (execJoin s) := nextCanon_issue hs fun c => by
  dsimp only
  simp [hs]

@[simp] theorem nextCanon_execYld (hs : s.Canon P) : NextCanon P (execYld s) := nextCanon_issue hs fun c => by
  dsimp only
  simp [hs]

@[simp] theorem nextCanon_execExit (hs : s.Canon P) : NextCanon P (execExit s) :=
  nextCanon_issue hs fun c => by simp [hs]

@[simp] theorem nextCanon_execTrapx {x : OpR} (hs : s.Canon P) : NextCanon P (execTrapx x s) :=
  nextCanon_issue hs fun c => by simp [hs]

@[simp] theorem nextCanon_execBrk (hs : s.Canon P) : NextCanon P (execBrk s) := nextCanon_issue hs fun c => by simp [hs]

@[simp] theorem nextCanon_execUret (hs : s.Canon P) : NextCanon P (execUret s) := nextCanon_issue hs fun c => by
  dsimp only
  repeat' split
  all_goals simp [hs]

@[simp] theorem nextCanon_execBpnd {x : OpBpnd} (hs : s.Canon P) : NextCanon P (execBpnd x s) :=
  nextCanon_issue hs fun c => by simp [hs]

@[simp] theorem nextCanon_voteBranch {i : Instr} {x : OpBrA} {f : List Bool → Bool} (hs : s.Canon P) :
    NextCanon P (voteBranch s i x f) := nextCanon_issue hs fun c => by simp [hs]

@[simp] theorem nextCanon_execMfu {x : OpMfu} (hs : s.Canon P) : NextCanon P (execMfu x s) :=
  nextCanon_issue hs fun c => by simp [hs]

@[simp] theorem nextCanon_execMtu {x : OpMtu} (hs : s.Canon P) : NextCanon P (execMtu x s) :=
  nextCanon_issue hs fun c => by
  dsimp only
  split <;> simp [hs]

@[simp] theorem nextCanon_execTile {x : OpSrc} (hs : s.Canon P) : NextCanon P (execTile x s) :=
  nextCanon_issue hs fun c => by
  dsimp only
  split <;> simp [hs]

@[simp] theorem nextCanon_execDmode {x : OpSrc} (hs : s.Canon P) : NextCanon P (execDmode x s) :=
  nextCanon_issue hs fun c => by
  dsimp only
  split <;> simp [hs]

@[simp] theorem nextCanon_execDqry {x : OpDqry} (hs : s.Canon P) : NextCanon P (execDqry x s) :=
  nextCanon_issue hs fun c => by
  dsimp only
  split <;> simp [hs]

/-! ### Matrix passes -/

@[simp] theorem nextCanon_execMatrixPass {core : ℕ} (hs : s.Canon P) : NextCanon P (execMatrixPass core s) := by
  simp only [execMatrixPass]
  repeat' split
  all_goals simp [hs]

@[simp] theorem nextCanon_execMatrixCommandHead {core : ℕ} (hs : s.Canon P) :
    NextCanon P (execMatrixCommandHead core s) := by
  unfold execMatrixCommandHead
  split
  next t e => exact nextCanon_next.2 (optCanon_matrixHead hs t e)
  next => simp

@[simp] theorem nextCanon_execDrainCompletion {core : ℕ} (hs : s.Canon P) : NextCanon P (execDrainCompletion core s) := by
  simp only [execDrainCompletion]
  repeat' split
  all_goals simp [hs]

/-! ### Gathered tasks -/

@[simp] theorem nextCanon_execPartialTaskWarpTimeout {core : ℕ} (hs : s.Canon P) :
    NextCanon P (execPartialTaskWarpTimeout core s) := by
  unfold execPartialTaskWarpTimeout
  split
  next t e => exact nextCanon_next.2 (optCanon_gather hs t e)
  next => simp

@[simp] theorem nextCanon_execTspawn {x : OpE} (hs : s.Canon P) : NextCanon P (execTspawn x s) :=
  nextCanon_issue hs fun c => by
  dsimp only
  repeat' split
  all_goals simp [hs]

@[simp] theorem nextCanon_execTend {x : OpM} (hs : s.Canon P) : NextCanon P (execTend x s) :=
  nextCanon_issue hs fun c => by simp [hs]

@[simp] theorem nextCanon_execFapp {x : OpE} (hs : s.Canon P) : NextCanon P (execFapp x s) :=
  nextCanon_issue hs fun c => by
  dsimp only
  split
  · simp [hs]
  · split
    · simp [hs]
    · simp [hs]
    next n s1 e =>
      have h1 : s1.Canon P := (canon_feedOf e).2 hs
      split
      · simp [h1]
      · split
        · simp [h1]
        · exact nextCanon_next.2 (canon_finish (canon_doAct (canon_appendFeed h1)))

@[simp] theorem nextCanon_execFpop {x : OpE2} (hs : s.Canon P) : NextCanon P (execFpop x s) :=
  nextCanon_issue hs fun c => by
  dsimp only
  split
  · simp [hs]
  · split
    · simp [hs]
    · simp [hs]
    next n s1 e =>
      have h1 : s1.Canon P := (canon_feedOf e).2 hs
      split
      · simp [h1]
      · split <;> simp [h1]

@[simp] theorem nextCanon_execFret {x : OpE} (hs : s.Canon P) : NextCanon P (execFret x s) :=
  nextCanon_issue hs fun c => by
  dsimp only
  split
  · simp [hs]
  · split
    · simp [hs]
    · simp [hs]
    next n s1 e =>
      have h1 : s1.Canon P := (canon_feedOf e).2 hs
      split
      · simp [h1]
      · split <;> simp [h1]

@[simp] theorem nextCanon_execSvc {x : OpE} (hs : s.Canon P) : NextCanon P (execSvc x s) :=
  nextCanon_issue hs fun c => by
  dsimp only
  repeat' split
  all_goals simp [hs]

@[simp] theorem nextCanon_execRgive {x : OpGive} (hs : s.Canon P) : NextCanon P (execRgive x s) :=
  nextCanon_issue hs fun c => by
  dsimp only
  repeat' split
  all_goals simp [hs]

@[simp] theorem nextCanon_execRclaim {x : OpClaim} (hs : s.Canon P) : NextCanon P (execRclaim x s) :=
  nextCanon_issue hs fun c => by
  dsimp only
  repeat' split
  all_goals simp [hs]

/-! ### The network -/

theorem nextCanon_doNet {i : Instr} {d b k maxLen : ℕ} {v : Bool} {target : Ctx → ℕ → Except State (Option ℕ)}
    (ht : ∀ c l t, target c l = .error t → t.Canon P) (hs : s.Canon P) : NextCanon P (doNet s i d b k maxLen v target) :=
  nextCanon_single hs fun c l => by
    dsimp only
    split
    · simp [hs]
    · split
      next t e => exact nextCanon_next.2 (ht c l t e)
      next => split <;> simp [hs]

@[simp] theorem nextCanon_execNwr {x : OpNet} (hs : s.Canon P) : NextCanon P (execNwr x s) :=
  nextCanon_doNet (fun _ _ _ e => remoteOperand_canon hs (except_map_error e)) hs

@[simp] theorem nextCanon_execNrd {x : OpE} (hs : s.Canon P) : NextCanon P (execNrd x s) :=
  nextCanon_doNet (fun _ _ _ e => remoteOperand_canon hs (except_map_error e)) hs

@[simp] theorem nextCanon_execNsnd {x : OpNet} (hs : s.Canon P) : NextCanon P (execNsnd x s) :=
  nextCanon_doNet (fun _ _ _ e => nomatch e) hs

@[simp] theorem nextCanon_execNatm {x : OpNet} (hs : s.Canon P) : NextCanon P (execNatm x s) :=
  nextCanon_single hs fun c l => by
  dsimp only
  split
  · simp [hs]
  · split
    next t e => exact nextCanon_next.2 (remoteOperand_canon hs e)
    next => simp [hs]

@[simp] theorem nextCanon_execNwatch {x : OpE2} (hs : s.Canon P) : NextCanon P (execNwatch x s) :=
  nextCanon_single hs fun c l => by
  split
  · simp [hs]
  · split
    next t e => exact nextCanon_next.2 (remoteOperand_canon hs e)
    next => simp [hs]

@[simp] theorem nextCanon_doStorage {i : Instr} {d a b k : ℕ} {fua : Bool} (hs : s.Canon P) :
    NextCanon P (doStorage s i d a b k fua) := nextCanon_single hs fun c l => by
  dsimp only
  repeat' split
  all_goals simp [hs]

@[simp] theorem nextCanon_execNetworkCompletion {op status : ℕ} {data : List Byte} (hs : s.Canon P) :
    NextCanon P (execNetworkCompletion op status data s) := by
  unfold execNetworkCompletion
  split
  · simp
  next o _ =>
    have hc : ∀ k, OptCanon P (o.kind.netKind.bind fun j => s.completeNet o j status data k) := by
      intro k
      cases o.kind.netKind <;> simp [hs]
    split
    next t e => exact nextCanon_next.2 (optCanon_unless (hc _) t e)
    next => simp

@[simp] theorem nextCanon_execNetworkTimeout {op : ℕ} (hs : s.Canon P) : NextCanon P (execNetworkTimeout op s) := by
  unfold execNetworkTimeout
  obtain ⟨limit, hl⟩ : ∃ n, netLimit = n := ⟨_, rfl⟩
  rw [hl]
  split
  · exact nextCanon_refused
  next o _ =>
    have hc : OptCanon P (o.kind.netKind.bind fun k => s.completeNet o k 2 [] true) := by
      cases o.kind.netKind <;> simp [hs]
    split
    next t e => exact nextCanon_next.2 (optCanon_unless hc t e)
    next => exact nextCanon_refused

@[simp] theorem nextCanon_execStorageCompletion {op status nvst : ℕ} {data : List Byte} (hs : s.Canon P) :
    NextCanon P (execStorageCompletion op status nvst data s) := by
  unfold execStorageCompletion
  split
  · simp
  next o _ =>
    split
    next t e =>
      refine nextCanon_next.2 (optCanon_unless ?_ t e)
      split <;> simp [hs]
    next => simp

@[simp] theorem nextCanon_execStorageTimeout {op : ℕ} (hs : s.Canon P) : NextCanon P (execStorageTimeout op s) := by
  unfold execStorageTimeout
  obtain ⟨limit, hl⟩ : ∃ n, netLimit = n := ⟨_, rfl⟩
  rw [hl]
  split
  · exact nextCanon_refused
  · split
    next t e =>
      refine nextCanon_next.2 (optCanon_unless ?_ t e)
      split <;> simp [hs]
    next => exact nextCanon_refused

/-! ### Arriving requests -/

@[simp] theorem nextCanon_execRemoteReadArrival {r : RemoteReq} {len : ℕ} (hs : s.Canon P) :
    NextCanon P (execRemoteReadArrival r len s) := by
  simp only [execRemoteReadArrival]
  repeat' split
  all_goals simp [hs]

@[simp] theorem nextCanon_execRemoteAtomicArrival {r : RemoteReq} {cas w64 : Bool} {y n : DWord} (hs : s.Canon P) :
    NextCanon P (execRemoteAtomicArrival r cas w64 y n s) := by
  simp only [execRemoteAtomicArrival]
  repeat' split
  all_goals simp [hs]

@[simp] theorem nextCanon_execWatchRegistrationArrival {r : RemoteReq} {token : ℕ} (hs : s.Canon P) :
    NextCanon P (execWatchRegistrationArrival r token s) := by
  simp only [execWatchRegistrationArrival]
  repeat' split
  all_goals simp [hs]

@[simp] theorem nextCanon_execWatchNotificationArrival {op status : ℕ} (hs : s.Canon P) :
    NextCanon P (execWatchNotificationArrival op status s) := by
  unfold execWatchNotificationArrival
  split <;> simp [hs]

/-! ### What lands, and what ends -/

@[simp] theorem nextCanon_execLoadLanding {fly : ℕ} (hs : s.Canon P) : NextCanon P (execLoadLanding fly s) := by
  simp only [execLoadLanding]
  repeat' split
  all_goals simp [hs]

@[simp] theorem nextCanon_execReleaseLanding {core : ℕ} (hs : s.Canon P) : NextCanon P (execReleaseLanding core s) := by
  unfold execReleaseLanding
  split
  next t e => exact nextCanon_next.2 (optCanon_landRelease hs t e)
  next => simp

@[simp] theorem nextCanon_execForcedAcquire {core : ℕ} (hs : s.Canon P) : NextCanon P (execForcedAcquire core s) := by
  unfold execForcedAcquire
  split
  · simp
  · have ha : (s.acquire core deviceDomain).Canon P := by simp [hs]
    refine nextCanon_next.2 (canon_mk.2 ((canonParts_map fun g => ?_).2 (canonParts_self.2 ha)))
    split <;> rfl

@[simp] theorem nextCanon_execYldTimeout {gid widx : ℕ} (hs : s.Canon P) : NextCanon P (execYldTimeout gid widx s) := by
  simp only [execYldTimeout]
  repeat' split
  all_goals simp [hs]

@[simp] theorem nextCanon_execWarpEnd {gid widx : ℕ} (hs : s.Canon P) : NextCanon P (execWarpEnd gid widx s) := by
  unfold execWarpEnd
  split
  · split
    · extract_lets flys pops waits s1 s2 s3 s4
      have h2 : s2.Canon P := canon_mk.2 (canonParts_self.2 (canon_cancelPops hs))
      have h4 : s4.Canon P := by simp [s4, s3, h2]
      refine nextCanon_next.2 ((canon_updGroup fun g => ?_).2 h4)
      split <;> exact ⟨rfl, rfl⟩
    · simp
  · simp

@[simp] theorem nextCanon_execGroupEnd {gid : ℕ} (hs : s.Canon P) : NextCanon P (execGroupEnd gid s) := by
  unfold execGroupEnd
  split <;> simp [hs]

@[simp] theorem nextCanon_execLaunchCompletionRecord {launch : ℕ} (hs : s.Canon P) :
    NextCanon P (execLaunchCompletionRecord launch s) := by
  simp only [execLaunchCompletionRecord]
  repeat' split
  all_goals simp [hs]

/-! ### Contexts and groups -/

@[simp] theorem nextCanon_execCsave {x : OpSys} (hs : s.Canon P) : NextCanon P (execCsave x s) :=
  nextCanon_sysInstr hs fun c l => by
  dsimp only
  split
  · simp [hs]
  · simp [hs]
  · split
    · simp [hs]
    · split
      · simp [hs]
      · split
        · simp [hs]
        · refine nextCanon_sysStatus (List.foldlRecOn (motive := State.Canon P) _ _ ?_ fun t ht g _ => canon_packGroup ht)
          simp [hs]

@[simp] theorem nextCanon_execCload {x : OpSys} (hs : s.Canon P) : NextCanon P (execCload x s) :=
  nextCanon_sysInstr hs fun c l => by
  dsimp only
  repeat' split
  all_goals simp [hs]

@[simp] theorem nextCanon_execCmigr {x : OpSys} (hs : s.Canon P) : NextCanon P (execCmigr x s) :=
  nextCanon_sysInstr hs fun c l => by
  dsimp only
  split
  · simp [hs]
  · simp [hs]
  · split
    · simp [hs]
    · split
      · simp [hs]
      · split
        · simp [hs]
        · split
          · simp [hs]
          · refine nextCanon_sysStatus (canon_placeGang.2 (canon_foldl (fun _ _ ht => ?_) _ (by simp [hs])))
            split <;> simp [ht]

@[simp] theorem nextCanon_execContextImageCompletion {op : ℕ} (hs : s.Canon P) :
    NextCanon P (execContextImageCompletion op s) := by
  have hu : (∀ l : List ℕ, (l.foldl State.unpackGroup s).Canon P) := fun l =>
    canon_foldl (fun _ _ ht => canon_unpackGroup ht) _ hs
  have he : (∀ l : List ℕ, (l.foldl State.endSave s).Canon P) := fun l =>
    canon_foldl (fun _ _ ht => by simp [ht]) _ hs
  unfold execContextImageCompletion
  split
  · simp
  · split <;> simp [hu, he]

/-! ### System functions -/

@[simp] theorem nextCanon_execMfsr {x : OpMfsr} (hs : s.Canon P) : NextCanon P (execMfsr x s) :=
  nextCanon_sysInstr hs fun c l => by
  dsimp only
  split <;> simp [hs]

@[simp] theorem nextCanon_execMtsr {x : OpMtsr} (hs : s.Canon P) : NextCanon P (execMtsr x s) :=
  nextCanon_sysInstr hs fun c l => by
  dsimp only
  split <;> simp [hs]

@[simp] theorem nextCanon_execTret (hs : s.Canon P) : NextCanon P (execTret s) := nextCanon_sysInstr hs fun c l => by
  dsimp only
  split <;> simp [hs]

@[simp] theorem nextCanon_execTlbinv {x : OpSys} (hs : s.Canon P) : NextCanon P (execTlbinv x s) :=
  nextCanon_sysInstr hs fun c l => by
  dsimp only
  split <;> simp [hs]

@[simp] theorem nextCanon_execTlbinvCompletion {op : ℕ} (hs : s.Canon P) : NextCanon P (execTlbinvCompletion op s) := by
  unfold execTlbinvCompletion
  split <;> simp [hs]

@[simp] theorem nextCanon_execFqansResume {x : OpSys} (hs : s.Canon P) : NextCanon P (execFqansResume x s) :=
  nextCanon_sysInstr hs fun c l => by
  dsimp only
  split
  next t e => exact nextCanon_next.2 (fqRelease_error_canon hs e)
  next s1 e =>
    have h1 : s1.Canon P := fqRelease_ok_canon hs e
    split
    · simp [h1]
    · split
      · exact nextCanon_sysPair (canon_repost (canon_answerEntry (canon_setPart.2 (canon_releaseParties h1))))
      · exact nextCanon_sysPair (canon_setPart.2 (canon_releaseParties h1))

@[simp] theorem nextCanon_execFqansTerminate {x : OpSys} (hs : s.Canon P) : NextCanon P (execFqansTerminate x s) :=
  nextCanon_sysInstr hs fun c l => by
  dsimp only
  split
  next t e => exact nextCanon_next.2 (fqRelease_error_canon hs e)
  next s1 e =>
    have h1 : s1.Canon P := fqRelease_ok_canon hs e
    split
    · simp [h1]
    · refine nextCanon_sysPair (canon_repost (canon_answerAll (canon_endContext ?_)))
      exact canon_foldl (fun _ _ ht => by simp [ht]) _ h1

@[simp] theorem nextCanon_execSvcret {x : OpSys} (hs : s.Canon P) : NextCanon P (execSvcret x s) :=
  nextCanon_sysInstr hs fun c l => by
  dsimp only
  split
  · exact nextCanon_sysStatus (canon_logOrphan (canon_doAct hs))
  · refine nextCanon_sysStatus (canon_doAct ?_)
    split <;> simp [hs]

@[simp] theorem nextCanon_doFmap {i : Instr} {x : OpSys} {unmap : Bool} (hs : s.Canon P) :
    NextCanon P (doFmap s i x unmap) := nextCanon_sysInstr hs fun c l => by
  extract_lets va ctl die slot used busy moving mask go
  refine nextCanon_if (by simp [hs]) (nextCanon_if (by simp [hs]) (nextCanon_if (by simp [hs]) ?_))
  have hg : ∀ (t : State) (n : ℕ), t.Canon P → NextCanon P (go t n) := fun t n ht => by simp [go, ht]
  clear_value go
  refine nextCanon_if ?_ (nextCanon_if (by simp [hs]) ?_)
  · split
    · simp [hs]
    · exact nextCanon_if (by simp [hs]) (hg _ _ hs)
  · split
    · simp [hs]
    next s1 e =>
      have h1 : State.Canon P _ := (canon_openFeed e).2 hs
      split
      · simp [hs]
      · exact nextCanon_if (by simp [hs]) (nextCanon_if (by simp [hs]) (hg _ _ h1))

@[simp] theorem nextCanon_execFmapCompletion {op : ℕ} (hs : s.Canon P) : NextCanon P (execFmapCompletion op s) := by
  simp only [execFmapCompletion]
  repeat' split
  all_goals simp [hs]

@[simp] theorem nextCanon_execAsidqEnter {x : OpSys} (hs : s.Canon P) : NextCanon P (execAsidqEnter x s) :=
  nextCanon_doAsidq hs fun a n => by
  split
  · exact hs
  · split
    · exact hs
    · exact canon_quarantine.2 hs

@[simp] theorem nextCanon_execAsidqQuery {x : OpSys} (hs : s.Canon P) : NextCanon P (execAsidqQuery x s) :=
  nextCanon_doAsidq hs fun a n => by
  dsimp only
  simp [hs]

@[simp] theorem nextCanon_execAsidqLeave {x : OpSys} (hs : s.Canon P) : NextCanon P (execAsidqLeave x s) :=
  nextCanon_doAsidq hs fun a n => by
  split
  · exact hs
  · exact canon_leaveAsid hs

/-! ### Partitions -/

@[simp] theorem nextCanon_execKslotLoad {x : OpSys} (hs : s.Canon P) : NextCanon P (execKslotLoad x s) :=
  nextCanon_sysInstr hs fun c l => by
  dsimp only
  split
  · simp [hs]
  · split
    next t e => exact nextCanon_next.2 (scratchOperand_canon hs e)
    · simp [hs]
    · simp [hs]

@[simp] theorem nextCanon_execKslotZero {x : OpSys} (hs : s.Canon P) : NextCanon P (execKslotZero x s) :=
  nextCanon_sysInstr hs fun c l => by
  dsimp only
  split <;> simp [hs]

@[simp] theorem nextCanon_execKslotQuery {x : OpSys} (hs : s.Canon P) : NextCanon P (execKslotQuery x s) :=
  nextCanon_sysInstr hs fun c l => by
  dsimp only
  split <;> simp [hs]

@[simp] theorem nextCanon_execKslotZeroCompletion {op : ℕ} (hs : s.Canon P) :
    NextCanon P (execKslotZeroCompletion op s) := by
  unfold execKslotZeroCompletion
  split <;> simp [hs]

@[simp] theorem nextCanon_execScrubStart {x : OpSys} (hs : s.Canon P) : NextCanon P (execScrubStart x s) :=
  nextCanon_sysInstr hs fun c l => by
  dsimp only
  split
  · simp [hs]
  · split
    · simp [hs]
    · split
      · simp [hs]
      · simp [hs]
      · split
        next t e => exact nextCanon_next.2 (scratchOperand_canon hs e)
        · simp [hs]
        · simp [hs]

@[simp] theorem nextCanon_execScrubQuery {x : OpSys} (hs : s.Canon P) : NextCanon P (execScrubQuery x s) :=
  nextCanon_sysInstr hs fun c l => by
  dsimp only
  split <;> simp [hs]

@[simp] theorem nextCanon_execScrubProgress {die : ℕ} (hs : s.Canon P) : NextCanon P (execScrubProgress die s) := by
  simp only [execScrubProgress]
  repeat' split
  all_goals simp [hs]

@[simp] theorem nextCanon_execPartAssign {x : OpSys} (hs : s.Canon P) : NextCanon P (execPartAssign x s) :=
  nextCanon_doPart hs fun c p l => by
  dsimp only
  split
  next t e => exact nextCanon_next.2 (scratchOperand_canon hs e)
  · simp [hs]
  · split
    · simp [hs]
    · split
      next t e => exact nextCanon_next.2 (scratchOperand_canon hs e)
      · simp [hs]
      · split <;> simp [hs]

@[simp] theorem nextCanon_execPartReset {x : OpSys} (hs : s.Canon P) : NextCanon P (execPartReset x s) :=
  nextCanon_doPart hs fun c p l => by simp [hs]

@[simp] theorem nextCanon_execPartRelease {x : OpSys} (hs : s.Canon P) : NextCanon P (execPartRelease x s) :=
  nextCanon_doPart hs fun c p l => by simp [hs]

@[simp] theorem nextCanon_execPartQuery {x : OpSys} (hs : s.Canon P) : NextCanon P (execPartQuery x s) :=
  nextCanon_doPart hs fun c p l => by simp [hs]

/-! ### Launches -/

@[simp] theorem nextCanon_execLaunch {flow : ℕ} {hdr : BitVec 128} {body : List Byte} (hs : s.Canon P) :
    NextCanon P (execLaunch flow hdr body s) := by
  simp only [execLaunch]
  repeat' split
  all_goals simp [hs]

@[simp] theorem nextCanon_execAppend {flow : ℕ} {hdr : BitVec 128} {body : List Byte} (hs : s.Canon P) :
    NextCanon P (execAppend flow hdr body s) := by
  unfold execAppend
  extract_lets h
  split
  · simp
  · split
    · simp [hs]
    · split
      · simp [hs]
      · split
        · simp [hs]
        · split
          · simp [hs]
          · simp [hs]
          next n s1 e =>
            have h1 : s1.Canon P := by
              split at e
              · cases e
              · exact (canon_feedNamed e).2 hs
            simp [h1]

@[simp] theorem nextCanon_execBindHold {die slot : ℕ} {rec : BitVec 256} (hs : s.Canon P) :
    NextCanon P (execBindHold die slot rec s) := by
  simp only [execBindHold]
  repeat' split
  all_goals simp [hs]

@[simp] theorem nextCanon_execBindCommit {die slot : ℕ} (hs : s.Canon P) : NextCanon P (execBindCommit die slot s) := by
  simp only [execBindCommit]
  repeat' split
  all_goals simp [hs]

@[simp] theorem nextCanon_execAdmissionBackoffExpiry {launch gang : ℕ} (hs : s.Canon P) :
    NextCanon P (execAdmissionBackoffExpiry launch gang s) := by
  unfold execAdmissionBackoffExpiry
  split <;> simp [hs]

@[simp] theorem nextCanon_execWindowCompaction {gid widx base : ℕ} (hs : s.Canon P) :
    NextCanon P (execWindowCompaction gid widx base s) := by
  unfold execWindowCompaction
  split <;> simp [hs]

@[simp] theorem nextCanon_execPriorityAging {launch : ℕ} (hs : s.Canon P) : NextCanon P (execPriorityAging launch s) := by
  unfold execPriorityAging
  split <;> simp [hs]

@[simp] theorem nextCanon_execEvictionWaitExpiry {launch : ℕ} (hs : s.Canon P) :
    NextCanon P (execEvictionWaitExpiry launch s) := by
  unfold execEvictionWaitExpiry
  split <;> simp [hs]

@[simp] theorem nextCanon_execBindEvict {die slot : ℕ} {image : DWord} (hs : s.Canon P) :
    NextCanon P (execBindEvict die slot image s) := by
  simp only [execBindEvict]
  split
  · simp
  · split
    · simp
    · exact nextCanon_next.2 (canon_foldl (fun _ _ ht => canon_packGroup ht) _ (by simp [hs]))

/-! ### Boot -/

@[simp] theorem nextCanon_execPageWalk {core asid : ℕ} {va : DWord} (hs : s.Canon P) :
    NextCanon P (execPageWalk core asid va s) := by
  simp only [execPageWalk]
  repeat' split
  all_goals simp [hs]

@[simp] theorem nextCanon_execPowerGoodBoot (hs : s.Canon P) : NextCanon P (execPowerGoodBoot s) := by
  simp only [execPowerGoodBoot]
  repeat' split
  all_goals simp [hs]

@[simp] theorem nextCanon_execAddressFallbackTimeout {addr : ℕ} (hs : s.Canon P) :
    NextCanon P (execAddressFallbackTimeout addr s) := by
  unfold execAddressFallbackTimeout
  split <;> simp [hs]

@[simp] theorem nextCanon_execAnnounceTimer (hs : s.Canon P) : NextCanon P (execAnnounceTimer s) := by
  unfold execAnnounceTimer
  split <;> simp [hs]

/-! ### Issue of closures -/

@[simp] theorem nextCanon_execClosureRun {gid widx clo : ℕ} (hs : s.Canon P) :
    NextCanon P (execClosureRun gid widx clo s) := by
  unfold execClosureRun
  split
  · split
    · split
      · split
        next t e => exact nextCanon_next.2 (optCanon_startClosure hs t e)
        next => simp
      · simp
    · simp
  · simp

/-! ### Every instruction and every event -/

@[simp] theorem nextCanon_exec {i : Instr} (hs : s.Canon P) : NextCanon P (exec i s) := by
  unfold exec
  split <;> simp [hs,
    execMov16, execAdd16, execSub16, execAnd16, execOr16, execXor16, execShl16, execShr16, execAddi5, execMovi5,
    execFadd16, execFmul16, execFmax16, execFmin16, execImul16, execAdd, execSub, execAddc, execSubb, execMinS,
    execMaxS, execMinU, execMaxU, execAnd, execOr, execXor, execAndn, execOrn, execXnor, execSel, execBswz, execShl,
    execShr, execSar, execRol, execShl64, execShr64, execSar64, execFshf, execMulLo, execMulHiS, execMulHiU,
    execMadLo, execMadHiS, execMadHiU, execMulWideS, execMulWideU, execPopc, execClz, execCtz, execBrev, execBfxU,
    execBfxS, execBfi, execIabs, execDadd, execDsub, execDmul, execDmad, execDmin, execDmax, execAddi, execAndi,
    execOri, execXori, execShli, execShri, execSari, execCpyL, execCpyS, execFaddF32, execFsubF32, execFmulF32,
    execFfmaF32, execFminF32, execFmaxF32, execFcpysF32, execFaddF16x2, execFsubF16x2, execFmulF16x2, execFfmaF16x2,
    execFminF16x2, execFmaxF16x2, execFcpysF16x2, execFaddBf16x2, execFsubBf16x2, execFmulBf16x2, execFfmaBf16x2,
    execFminBf16x2, execFmaxBf16x2, execFcpysBf16x2, execFrcp, execFrsq, execFsqrt, execFexp2, execFlog2, execFsin,
    execFcos, execFtanh, execPack, execUnpk, execBall, execBany, execBnone, execStrd, execStwr, execStfl,
    execRemoteWriteArrival, execEndpointMessageArrival, execWatchCancel, execFmapMap, execFmapUnmap, execScrubPause,
    execScrubResume, execBindFree, execSagThresholdCrossing, execSagStepDown, execModuleReset, execReadyFunctionUp,
    execPortLinkUp, execDhcpv6Reply, execAnnounceAck, execMgmtQuery, execPreset, execMreset, execFwstage,
    execUnsupportedPacketDrop, execCrcFailedPacket]

@[simp] theorem nextCanon_eventRun {e : Event} (hs : s.Canon P) : NextCanon P (Event.run e s) := by
  unfold Event.run
  split <;> simp [hs, execScrubPause, execScrubResume, execSagStepDown]

@[simp] theorem nextCanon_runCur (hs : s.Canon P) : NextCanon P (runCur s) := by
  unfold runCur
  split <;> simp [hs]

end Sys2Proof.Machine

/-! ### The step -/

namespace Sys2Proof.Machine

variable {P : Prop}

/-- What a plan leaves where it takes an exception or captures. -/
def Plan.Canon (P : Prop) (p : Plan) : Prop := ∀ t, p = .take t → t.Canon P

@[simp] theorem planCanon_stall : Plan.Canon P .stall := by simp [Plan.Canon]
@[simp] theorem planCanon_run {c : Cur} : Plan.Canon P (.run c) := by simp [Plan.Canon]
@[simp] theorem planCanon_take {s : State} : Plan.Canon P (.take s) ↔ s.Canon P := by simp [Plan.Canon]

theorem planCanon_planInstr {s : State} {c : Ctx} {i : Instr} (hs : s.Canon P) : (s.planInstr c i).Canon P := by
  unfold State.planInstr
  extract_lets extra waits
  repeat' split
  all_goals simp [hs]

theorem planCanon_planSplit {s : State} {g : Group} {w : Warp} {sp : Split} (hs : s.Canon P) :
    (s.planSplit g w sp).Canon P := by
  unfold State.planSplit
  split
  · exact planCanon_stall
  · split
    · extract_lets cur
      split <;> simp [hs]
    · extract_lets cur c lower
      split
      · split <;> simp
      · exact planCanon_planInstr (canon_mk.2 (canonParts_self.2 hs))

theorem optCanon_firstSplit {s : State} {g : Group} {w : Warp} (hs : s.Canon P) (l : List Split) :
    OptCanon P (s.firstSplit g w l) := by
  induction l with
  | nil => exact optCanon_none
  | cons sp r ih =>
    unfold State.firstSplit
    split
    · exact ih
    next t e => exact optCanon_some.2 (planCanon_planSplit hs t e)
    · simp [hs]

theorem optCanon_issueWarp {s : State} {gid widx : Nat} (hs : s.Canon P) : OptCanon P (s.issueWarp gid widx) := by
  unfold State.issueWarp
  split
  · split
    · exact optCanon_none
    · split
      · exact optCanon_startClosure hs
      · split
        · exact optCanon_none
        · extract_lets w' s'
          have hs' : s'.Canon P := by
            dsimp only [s']
            split <;> simp [hs]
          split
          · exact optCanon_firstSplit hs' _
          · exact optCanon_none
  · exact optCanon_none

theorem optCanon_takeTurn {s : State} {gid widx : Nat} (hs : s.Canon P) : OptCanon P (s.takeTurn gid widx) := by
  unfold State.takeTurn
  split
  · exact optCanon_issueWarp hs
  · exact optCanon_none

theorem optCanon_firstEvent {s : State} (hs : s.Canon P) (l : List Event) : OptCanon P (firstEvent s l) := by
  induction l with
  | nil => exact optCanon_none
  | cons e r ih =>
    unfold firstEvent
    split
    next t h => exact optCanon_some.2 (nextCanon_eventRun hs t h)
    · exact ih

theorem nextCanon_choose {c : Choice} {s : State} (hs : s.Canon P) : NextCanon P (choose c s) := by
  unfold choose
  split
  · split
    · split
      next t h => exact nextCanon_runCur (canon_noteIssue.2 (nextCanon_exec hs t h))
      · exact nextCanon_next.2 hs
    · exact nextCanon_next.2 hs
  · split
    next t h => exact nextCanon_runCur (nextCanon_exec hs t h)
    · exact nextCanon_next.2 hs
  · split
    next t h => exact nextCanon_runCur (canon_noteIssue.2 (optCanon_takeTurn hs t h))
    · exact nextCanon_next.2 hs
  · split
    next t h =>
      have ht := optCanon_takeTurn hs t h
      split <;> simp [ht]
    · exact nextCanon_next.2 hs
  · split
    next t h =>
      have ht := optCanon_takeTurn hs t h
      split <;> simp [ht]
    · exact nextCanon_next.2 hs
  · split
    · split
      next t h =>
        split at h
        · have ht := optCanon_takeTurn hs t h
          simp [ht]
        · cases h
      · exact nextCanon_next.2 hs
    · exact nextCanon_next.2 hs
  · simp [hs]
  · simp [hs]
  · exact nextCanon_next.2 (canon_mishap hs)

theorem nextCanon_stepFreely {s : State} (hs : s.Canon P) : NextCanon P (stepFreely s) := by
  have hevents : ∀ l, OptCanon P (firstEvent s l) := optCanon_firstEvent hs
  have hissue : OptCanon P (match s.bestWarp with
      | some w => (s.issueWarp w.1 w.2).map fun t => t.noteIssue w.1 w.2
      | none => none) := by
    split
    · intro t h
      obtain ⟨u, hu, rfl⟩ := Option.map_eq_some_iff.1 h
      exact canon_noteIssue.2 (optCanon_issueWarp hs u hu)
    · exact optCanon_none
  unfold stepFreely
  split
  next t h => exact nextCanon_runCur (hevents _ t h)
  · extract_lets issue timers first
    have hfirst : OptCanon P first := (optCanon_ite _ _ _).2 (by split <;> [exact hissue; exact hevents _])
    have hsecond : OptCanon P (if s.tick47 % 2 = 0 then timers () else issue ()) :=
      (optCanon_ite _ _ _).2 (by split <;> [exact hevents _; exact hissue])
    clear_value first
    cases first with
    | some t => exact nextCanon_runCur (hfirst t rfl)
    | none =>
      dsimp only
      split
      next t h => exact nextCanon_runCur (hsecond t h)
      · exact nextCanon_next.2 hs

theorem nextCanon_step {s : State} (hs : s.Canon P) : NextCanon P (step s) := by
  unfold step
  extract_lets r
  have hr : NextCanon P r := by
    dsimp only [r]
    split
    · exact nextCanon_choose (canon_mk.2 (canonParts_self.2 hs))
    · exact nextCanon_stepFreely hs
  clear_value r
  cases r with
  | next t => exact nextCanon_next.2 (canon_endStep (hr t rfl))
  | fault f => exact nextCanon_fault
  | refused x => exact nextCanon_refused

end Sys2Proof.Machine

section

open Sys2Proof Sys2Proof.Machine

/-- Settles O33: the canonical form of memory alone (`State.Canon False`) is kept by every function that a step is made of. -/
theorem stepKeepsMemory : Obligations.StepKeepsMemory := fun _ t hs h =>
  (Machine.nextCanon_step (P := False) ⟨hs, False.elim⟩ t h).1

/-- Settles O34: as O33, with the scratch of every group (`State.Canon True`). -/
theorem stepKeepsScratch : Obligations.StepKeepsScratch := fun _ t hs hg h =>
  (Machine.nextCanon_step (P := True) ⟨hs, fun _ => hg⟩ t h).2 trivial
end

/-! ## Accesses that no check stops (R218 to R222)

The lemmas that loads, stores and atomics share: what the checks of an access give where none fails, when an instruction
takes its turn, and what the completion of an instruction leaves. -/

namespace Sys2Proof.Machine

/-! ### Lists of records -/

theorem findBy_eq_none {α : Type} {f : α → Bool} {l : List α} (h : ∀ x ∈ l, f x = false) : findBy f l = none :=
  findBy_none_of_map (g := id) (fun _ => rfl) (by simpa using h)

/-! ### The checks (R218) -/

/-- The addresses of an access with their places, those that do not translate left out. -/
def State.located (s : State) (g : Group) (wr : Bool) (es : List Ea) : List (Ea × Loc) :=
  es.filterMap fun e => (s.placeOf g wr e).map fun a => (e, a)

theorem State.mem_located {s : State} {g : Group} {wr : Bool} {es : List Ea} {x : Ea × Loc} :
    x ∈ s.located g wr es ↔ x.1 ∈ es ∧ s.placeOf g wr x.1 = some x.2 := by
  simp only [State.located, List.mem_filterMap, Option.map_eq_some_iff]
  constructor
  · rintro ⟨e, he, a, ha, rfl⟩
    exact ⟨he, ha⟩
  · rintro ⟨he, ha⟩
    exact ⟨x.1, he, x.2, ha, rfl⟩

theorem State.places_of_mapped {s : State} {g : Group} {wr : Bool} {es : List Ea} (h : ∀ e ∈ es, s.placeOf g wr e ≠ none) :
    s.places g wr es = (s.located g wr es, []) := by
  induction es with
  | nil => rfl
  | cons e r ih =>
    have he := h e (by simp)
    have hr := ih fun x hx => h x (by simp [hx])
    unfold State.places
    rw [hr]
    unfold State.placeOf at he
    cases hl : e.loc with
    | some l => simp [State.located, State.placeOf, hl]
    | none =>
      rw [hl] at he
      dsimp only at he ⊢
      cases ht : s.translate g.core g.asid (if wr then .write else .read) e.va with
      | ok a => simp [State.located, State.placeOf, hl, ht]
      | bad f => simp [ht] at he

theorem State.length_located {s : State} {g : Group} {wr : Bool} {es : List Ea} (h : ∀ e ∈ es, s.placeOf g wr e ≠ none) :
    (s.located g wr es).length = es.length := by
  induction es with
  | nil => rfl
  | cons e r ih =>
    obtain ⟨a, ha⟩ := Option.ne_none_iff_exists'.1 (h e (by simp))
    rw [State.located, List.filterMap_cons_some (by rw [ha]; rfl), List.length_cons, List.length_cons,
      ← ih fun x hx => h x (by simp [hx])]
    rfl

theorem State.logRaces_raceless {s : State} {c : Ctx} {wr : Bool} {acc : List (Ea × Loc)}
    (h : ∀ x ∈ acc, s.raceOf c.grp x = none) : s.logRaces c wr acc = s := by
  induction acc with
  | nil => rfl
  | cons x r ih =>
    unfold State.logRaces
    rw [h x (by simp)]
    exact ih fun y hy => h y (by simp [hy])

theorem checkRaces_raceless {s : State} {c : Ctx} {wr : Bool} {acc : List (Ea × Loc)} {miss : List (Ea × XFault)}
    (h : ∀ x ∈ acc, s.raceOf c.grp x = none) : checkRaces s c wr acc miss = .go s acc miss := by
  unfold checkRaces
  rw [State.logRaces_raceless h, findBy_eq_none fun x hx => by rw [h x hx]; rfl]
  split <;> rfl

/-- An access that no check stops goes to the places of its addresses. -/
theorem Accessible.checkAccess {s : State} {c : Ctx} {p : Space} {n : Nat} {wr plain : Bool} {es : List Ea}
    (h : Accessible s c p n wr plain es) :
    checkAccess s c p n wr plain es = .go s (s.located c.grp wr es) [] := by
  unfold Machine.checkAccess
  rw [findBy_eq_none h.aligned, findBy_eq_none h.inside, State.places_of_mapped h.mapped, findBy_eq_none h.unlocked]
  dsimp only
  split
  next hp =>
    obtain ⟨hplain, hg⟩ : plain = true ∧ p = .g := by simpa using hp
    refine checkRaces_raceless fun x hx => ?_
    obtain ⟨he, ha⟩ := State.mem_located.1 hx
    exact h.raceless hplain hg x.1 he x.2 ha
  · rfl

theorem Ctx.ea_lane (s : State) (c : Ctx) (p : Space) (a : Nat) (off : DWord) (n l : Nat) : (c.ea s p a off n l).lane = l := by
  unfold Ctx.ea
  cases p with
  | s => rfl
  | g => rfl
  | n =>
    dsimp only
    split <;> rfl

/-! ### The turn of an instruction (R46, R144) -/

theorem mem_enqueue (q : Queued) (l : List Queued) : q ∈ enqueue q l := by
  induction l with
  | nil => simp [enqueue]
  | cons x r ih =>
    unfold enqueue
    split
    · simp
    · simp [ih]

theorem State.waits_iff {s : State} {gid widx : Nat} {a : Act} : s.Waits gid widx a ↔
    ((s.queue.any fun q => q.gid == gid && q.widx == widx && decide (q.born ≤ s.bornNow gid widx)) ||
      s.gated gid widx (s.bornNow gid widx) a) = true := by
  simp [State.Waits, and_assoc]

/-- Where nothing stands before it, what an instruction does takes effect at once. -/
theorem State.doAct_now {s : State} {g : Group} {widx : Nat} {a : Act} (h : ¬ s.Waits g.gid widx a) :
    s.doAct g widx a = s.act g a none := by
  unfold State.doAct
  rw [if_neg fun hw => h (State.waits_iff.2 hw)]

/-- Where it must wait and is no release, it joins the queue. -/
theorem State.doAct_later {s : State} {g : Group} {widx : Nat} {a : Act} (h : s.Waits g.gid widx a) (hr : a.releases = none) :
    ∃ q : Queued, q.gid = g.gid ∧ q.widx = widx ∧ q.act = a ∧
      s.doAct g widx a = { s with queue := enqueue q s.queue, uid := s.uid + 1 } := by
  unfold State.doAct
  rw [if_pos (State.waits_iff.1 h), hr]
  exact ⟨_, rfl, rfl, rfl, rfl⟩

theorem State.doAct_queued {s : State} {g : Group} {widx : Nat} {a : Act} (h : s.Waits g.gid widx a) :
    ∃ q ∈ (s.doAct g widx a).queue, q.gid = g.gid ∧ q.widx = widx ∧ q.act = a := by
  unfold State.doAct
  rw [if_pos (State.waits_iff.1 h)]
  cases a.releases with
  | none => exact ⟨_, mem_enqueue _ _, rfl, rfl, rfl⟩
  | some n => exact ⟨_, mem_enqueue _ _, rfl, rfl, rfl⟩

theorem Settled.not_waits {s : State} {gid widx : Nat} {a : Act} (h : Settled s gid widx) (hf : a.fences = false) :
    ¬ s.Waits gid widx a := by
  rintro (⟨q, hq, hg, hw, -⟩ | hgate)
  · exact h.queue q hq ⟨hg, hw⟩
  · simp [State.gated, h.performed, hf] at hgate

/-! ### What a completion leaves -/

/-- A change of a group that keeps its number and its warps changes no warp of the state. -/
theorem State.warp?_updGroup (s : State) (gid : Nat) {f : Group → Group} (hf : ∀ g, (f g).gid = g.gid ∧ (f g).warps = g.warps)
    (k x : Nat) : (s.updGroup gid f).warp? k x = s.warp? k x := by
  have hw : ∀ g : Group, (f g).warp? x = g.warp? x := fun g => by rw [Group.warp?, Group.warp?, (hf g).2]
  rw [State.warp?, State.warp?, State.group?_updGroup s gid f fun g => (hf g).1]
  cases s.group? k with
  | none => rfl
  | some g =>
    dsimp only [Option.map_some, Option.bind_some]
    split
    · exact hw g
    · rfl

/-- `finish`, in a state that still holds the issuing warp as it issued, whatever else of its group has changed. -/
theorem finish_done_of_warp {s u : State} {c : Ctx} (h : issuer? s = some c) (hu : u.warp? c.cur.gid c.cur.widx = some c.warp)
    (m : Option Modifier) (t : Bool) (ws : Writes) (fl : Flags) (q : c.quiet fl) : Done u (finish u c m t ws fl) c m t ws fl := by
  obtain ⟨g, hg, hw⟩ := Option.bind_eq_some_iff.1 hu
  have hf : finish u c m t ws fl = { u.updWarp c.cur.gid c.cur.widx (c.complete m t ws fl) with cur := none } := by
    unfold finish
    rcases q with q | q <;> simp [q]
  exact ⟨_, hf ▸ onlyWarp_updWarp _ (Ctx.complete_idx c m t ws fl) hg hw, Ctx.completed h m t ws fl⟩

theorem issuer_warp {s : State} {c : Ctx} (h : issuer? s = some c) : s.warp? c.cur.gid c.cur.widx = some c.warp := by
  obtain ⟨-, hg, hw, -⟩ := issuer_cases h
  rw [State.warp?, hg]
  exact hw

theorem issuer_gid {s : State} {c : Ctx} (h : issuer? s = some c) : c.grp.gid = c.cur.gid := by
  obtain ⟨-, hg, -⟩ := issuer_cases h
  exact State.group?_gid hg

/-- An instruction that writes no register completes and changes nothing else. -/
theorem finishPlain_done {s u : State} {c : Ctx} (h : issuer? s = some c)
    (hu : u.warp? c.cur.gid c.cur.widx = some c.warp) : Done u (finishPlain u c) c none false [] flag0 :=
  finish_done_of_warp h hu none false [] flag0 c.quiet_flag0

theorem State.locByte_nram (s : State) (gid a : Nat) :
    s.locByte (.nram gid a) 0 = ((s.group? gid).map fun g => smGet 0 g.nMem a).getD 0 := by
  rw [State.locByte]
  cases s.group? gid <;> rfl

section OnlyWarp

variable {s t : State} {gid widx : Nat} {w : Warp} (h : OnlyWarp s t gid widx w)
include h

/-- A group is as before but for its warps. -/
theorem OnlyWarp.group? (i : Nat) : (t.group? i).map Group.bare = (s.group? i).map Group.bare := by
  have key : ∀ u : State, (u.group? i).map Group.bare = findBy (fun g => g.gid == i) (u.groups.map Group.bare) :=
    fun u => (findBy_map (f := fun g : Group => g.gid == i) (g := Group.bare) (p := fun g : Group => g.gid == i) _ fun _ => rfl).symm
  rw [key, key, h.groups]

theorem OnlyWarp.locByte_sram (g a : Nat) : t.locByte (.sram g a) 0 = s.locByte (.sram g a) 0 := by
  have := congrArg (Option.map fun x : Group => smGet 0 x.sMem a) (h.group? g)
  rw [Option.map_map, Option.map_map] at this
  rw [State.locByte_sram, State.locByte_sram]
  exact congrArg (Option.getD · 0) this

theorem OnlyWarp.locByte_nram (g a : Nat) : t.locByte (.nram g a) 0 = s.locByte (.nram g a) 0 := by
  have := congrArg (Option.map fun x : Group => smGet 0 x.nMem a) (h.group? g)
  rw [Option.map_map, Option.map_map] at this
  rw [State.locByte_nram, State.locByte_nram]
  exact congrArg (Option.getD · 0) this

theorem OnlyWarp.farByte (c part a : Nat) : t.farByte c part a = s.farByte c part a := by
  rw [← h.rest]
  rfl

theorem OnlyWarp.queue : t.queue = s.queue := by
  rw [← h.rest]

theorem OnlyWarp.core (k : Nat) : t.core k = s.core k := by
  rw [← h.rest]
  rfl

end OnlyWarp

end Sys2Proof.Machine

/-! ## Stores (O27: R84, R137, R221)

What the stores of an instruction leave, place by place: of scratch and of far memory alike the byte that `storedAt` gives,
or what stood there. -/

namespace Sys2Proof.Machine

/-! ### The byte that stores leave at a place -/

/-- The byte that one store puts at a place. -/
def putHere (p : Loc × List Byte) (q : Loc) : Option Byte := (p.1.within q).bind fun i => p.2[i]?

theorem storedAt_eq (ws : List (Loc × List Byte)) (q : Loc) :
    storedAt ws q = ws.foldl (fun r p => (putHere p q).or r) none := by
  unfold storedAt putHere
  congr 1
  funext r p
  cases (p.1.within q).bind fun i => p.2[i]? <;> rfl

theorem storedAt_cons (p : Loc × List Byte) (ws : List (Loc × List Byte)) (q : Loc) :
    storedAt (p :: ws) q = (storedAt ws q).or (putHere p q) := by
  have key : ∀ (l : List (Loc × List Byte)) (r : Option Byte),
      l.foldl (fun r p => (putHere p q).or r) r = (l.foldl (fun r p => (putHere p q).or r) none).or r := by
    intro l
    induction l with
    | nil => exact fun r => rfl
    | cons x t ih =>
      intro r
      rw [List.foldl_cons, List.foldl_cons, ih, ih ((putHere x q).or none), Option.or_none, Option.or_assoc]
  rw [storedAt_eq, storedAt_eq, List.foldl_cons, key, Option.or_none]

theorem lastWrite_append (u v : List (Nat × Byte)) (a : Nat) :
    lastWrite (u ++ v) a = (lastWrite v a).or (lastWrite u a) := by
  induction u with
  | nil => simp [lastWrite]
  | cons x r ih => rw [List.cons_append, lastWrite_cons, lastWrite_cons, ih, Option.or_assoc]

/-- Of far memory it is the last write to the byte. -/
theorem storedAt_phys (ws : List (Loc × List Byte)) (a : Nat) : storedAt ws (.phys a) = lastWrite (farWrites ws) a := by
  induction ws with
  | nil => rfl
  | cons p r ih =>
    obtain ⟨l, bs⟩ := p
    have happ : farWrites ((l, bs) :: r) = farWrites [(l, bs)] ++ farWrites r := List.flatMap_append (xs := [(l, bs)])
    rw [storedAt_cons, ih, happ, lastWrite_append]
    congr 1
    cases l with
    | phys b =>
      rw [show farWrites [(.phys b, bs)] = putAt b bs from List.append_nil _, lastWrite_putAt]
      unfold putHere Loc.within
      dsimp only
      split <;> rfl
    | sram g b => rfl
    | nram g b => rfl

/-! ### Scratch -/

/-- A place lies in far memory or in the scratch of a group of the state. -/
def State.Has (s : State) (l : Loc) : Prop :=
  match l with
  | .phys _ => True
  | .sram g _ => s.group? g ≠ none
  | .nram g _ => s.group? g ≠ none

/-- A byte of one of a group's memories after writes to that memory of group k. -/
theorem smGet_updGroup (s : State) {mem : Group → List Host.Cell} {f : Group → Group} {ws : List (Nat × Byte)} {k : Nat}
    (hf : ∀ g, (f g).gid = g.gid ∧ mem (f g) = smSets 0 (mem g) ws) (hk : s.group? k ≠ none) (g a : Nat) :
    (((s.updGroup k f).group? g).map fun x => smGet 0 (mem x) a).getD 0 =
      (if k = g then lastWrite ws a else none).getD (((s.group? g).map fun x => smGet 0 (mem x) a).getD 0) := by
  rw [State.group?_updGroup s k f fun g => (hf g).1]
  cases hg : s.group? g with
  | none =>
    rw [if_neg fun h : k = g => hk (h ▸ hg)]
    rfl
  | some x =>
    have hx : x.gid = k ↔ k = g := by
      rw [State.group?_gid hg]
      exact eq_comm
    simp only [Option.map_some, Option.getD_some, hx]
    split
    · rw [(hf x).2, smGet_smSets]
    · rfl

/-- A store to scratch is seen in its bytes and nowhere else. -/
theorem State.locByte_sram_storeLocal (s : State) {l : Loc} (hl : s.Has l) (bs : List Byte) (g a : Nat) :
    (s.storeLocal l bs).locByte (.sram g a) 0 = (putHere (l, bs) (.sram g a)).getD (s.locByte (.sram g a) 0) := by
  rw [State.locByte_sram, State.locByte_sram]
  cases l with
  | phys b => rfl
  | sram k b =>
    refine (smGet_updGroup s (mem := Group.sMem) (ws := putAt b bs) ?_ hl g a).trans ?_
    · exact fun _ => ⟨rfl, rfl⟩
    rw [lastWrite_putAt]
    unfold putHere Loc.within
    by_cases hk : k = g <;> by_cases hb : b ≤ a <;> simp [hk, hb]
  | nram k b =>
    refine (smGet_updGroup s (mem := Group.sMem) (ws := []) ?_ hl g a).trans ?_
    · exact fun _ => ⟨rfl, rfl⟩
    split <;> rfl

theorem State.locByte_nram_storeLocal (s : State) {l : Loc} (hl : s.Has l) (bs : List Byte) (g a : Nat) :
    (s.storeLocal l bs).locByte (.nram g a) 0 = (putHere (l, bs) (.nram g a)).getD (s.locByte (.nram g a) 0) := by
  rw [State.locByte_nram, State.locByte_nram]
  cases l with
  | phys b => rfl
  | nram k b =>
    refine (smGet_updGroup s (mem := Group.nMem) (ws := putAt b bs) ?_ hl g a).trans ?_
    · exact fun _ => ⟨rfl, rfl⟩
    rw [lastWrite_putAt]
    unfold putHere Loc.within
    by_cases hk : k = g <;> by_cases hb : b ≤ a <;> simp [hk, hb]
  | sram k b =>
    refine (smGet_updGroup s (mem := Group.nMem) (ws := []) ?_ hl g a).trans ?_
    · exact fun _ => ⟨rfl, rfl⟩
    split <;> rfl

/-- A store to scratch keeps every warp, every place, and all of the state but its groups. -/
theorem State.storeLocal_rest (s : State) (l : Loc) (bs : List Byte) :
    (∀ k x, (s.storeLocal l bs).warp? k x = s.warp? k x) ∧ (∀ q, s.Has q → (s.storeLocal l bs).Has q) ∧
      { s.storeLocal l bs with groups := s.groups } = s := by
  have key : ∀ (k : Nat) (f : Group → Group), (∀ g, (f g).gid = g.gid ∧ (f g).warps = g.warps) →
      (∀ i x, (s.updGroup k f).warp? i x = s.warp? i x) ∧ (∀ q, s.Has q → (s.updGroup k f).Has q) ∧
        { s.updGroup k f with groups := s.groups } = s := by
    intro k f hf
    have hg : ∀ i, s.group? i ≠ none → (s.updGroup k f).group? i ≠ none := fun i hi => by
      rw [State.group?_updGroup s k f fun g => (hf g).1]
      simpa using hi
    refine ⟨s.warp?_updGroup k hf, fun q hq => ?_, rfl⟩
    cases q with
    | phys a => trivial
    | sram i a => exact hg i hq
    | nram i a => exact hg i hq
  cases l with
  | phys a => exact ⟨fun _ _ => rfl, fun _ h => h, rfl⟩
  | sram k a => exact key k _ fun _ => ⟨rfl, rfl⟩
  | nram k a => exact key k _ fun _ => ⟨rfl, rfl⟩

/-! ### The stores of an instruction -/

/-- What the stores of an instruction leave of scratch, of the warps, and of the rest of the state. -/
structure Stored (s t : State) (ws : List (Loc × List Byte)) : Prop where
  sram : ∀ g a, t.locByte (.sram g a) 0 = (storedAt ws (.sram g a)).getD (s.locByte (.sram g a) 0)
  nram : ∀ g a, t.locByte (.nram g a) 0 = (storedAt ws (.nram g a)).getD (s.locByte (.nram g a) 0)
  warps : ∀ k x, t.warp? k x = s.warp? k x
  rest : { t with groups := s.groups } = s

theorem stored_foldl {ws : List (Loc × List Byte)} {s : State} (hw : ∀ p ∈ ws, s.Has p.1) :
    Stored s (ws.foldl (fun s p => s.storeLocal p.1 p.2) s) ws := by
  induction ws generalizing s with
  | nil => exact ⟨fun _ _ => rfl, fun _ _ => rfl, fun _ _ => rfl, rfl⟩
  | cons p r ih =>
    obtain ⟨l, bs⟩ := p
    have hl : s.Has l := hw (l, bs) (by simp)
    obtain ⟨hwarps, hhas, hrest⟩ := s.storeLocal_rest l bs
    obtain ⟨hs, hn, hx, ht⟩ := ih (s := s.storeLocal l bs) fun q hq => hhas q.1 (hw q (by simp [hq]))
    rw [List.foldl_cons]
    refine ⟨fun g a => ?_, fun g a => ?_, fun k x => (hx k x).trans (hwarps k x), ?_⟩
    · rw [hs, s.locByte_sram_storeLocal hl, storedAt_cons]
      cases storedAt r (.sram g a) <;> rfl
    · rw [hn, s.locByte_nram_storeLocal hl, storedAt_cons]
      cases storedAt r (.nram g a) <;> rfl
    · exact (congrArg (fun u : State => { u with groups := s.groups }) ht).trans hrest

/-- The stores of an instruction that performs: scratch, the core's own view of far memory, and what stays. -/
structure Performed (s t : State) (g : Group) (ws : List (Loc × List Byte)) : Prop where
  sram : ∀ i a, t.locByte (.sram i a) 0 = (storedAt ws (.sram i a)).getD (s.locByte (.sram i a) 0)
  nram : ∀ i a, t.locByte (.nram i a) 0 = (storedAt ws (.nram i a)).getD (s.locByte (.nram i a) 0)
  far : ∀ a, t.farByte g.core g.part a = (storedAt ws (.phys a)).getD (s.farByte g.core g.part a)
  cores : ∀ k, k ≠ g.core → t.core k = s.core k
  warps : ∀ k x, t.warp? k x = s.warp? k x
  rest : { t with groups := s.groups, cores := s.cores, uid := s.uid, shadow := s.shadow } = s

theorem State.raceStore_eq (s : State) (part c gid : Nat) (as : List Nat) :
    ∃ sh, s.raceStore part c gid as = { s with shadow := sh } := by
  unfold State.raceStore
  dsimp only
  split <;> exact ⟨_, rfl⟩

theorem State.perform_performed {s : State} {g : Group} {ws : List (Loc × List Byte)} (hw : ∀ p ∈ ws, s.Has p.1) :
    Performed s (s.perform g ws) g ws := by
  obtain ⟨hs, hn, hx, hr⟩ := stored_foldl hw
  unfold State.perform
  extract_lets u fs
  have hfar : ∀ c part a, u.farByte c part a = s.farByte c part a := fun c part a => by
    rw [← hr]
    rfl
  have hcore : ∀ k, u.core k = s.core k := fun k => by
    rw [← hr]
    rfl
  split
  next hfs =>
    have hnone : ∀ a, storedAt ws (.phys a) = none := fun a => by
      rw [storedAt_phys, show farWrites ws = [] from List.isEmpty_iff.1 hfs]
      rfl
    refine ⟨hs, hn, fun a => ?_, fun k _ => hcore k, hx, ?_⟩
    · rw [hnone, hfar, Option.getD_none]
    · exact congrArg (fun v : State => { v with cores := s.cores, uid := s.uid, shadow := s.shadow }) hr
  · obtain ⟨sh, he⟩ := (u.storeFar g.core g.gid g.asid g.part fs []).raceStore_eq g.part g.core g.gid
      ((fs.map fun p => p.1).filter fun a => !isPeer a)
    rw [he]
    refine ⟨hs, hn, fun a => ?_, fun k hk => ?_, hx, ?_⟩
    · rw [storedAt_phys, ← hfar]
      exact u.storeFar_farByte g.core g.gid g.asid g.part fs [] a
    · rw [← hcore k]
      exact (u.core_setCore g.core k _).trans (if_neg fun h => hk h.symm)
    · exact congrArg (fun v : State => { v with cores := s.cores, uid := s.uid, shadow := s.shadow }) hr

/-! ### ST and STX -/

theorem State.group?_of_mem {s : State} {g : Group} (h : g ∈ s.groups) : s.group? g.gid ≠ none := by
  intro hn
  have hfind : ∀ l : List Group, g ∈ l → findBy (fun x => x.gid == g.gid) l ≠ none := by
    intro l hl
    induction l with
    | nil => cases hl
    | cons x r ih =>
      unfold findBy
      split
      · simp
      next hx =>
        rcases List.mem_cons.1 hl with rfl | hr
        · simp at hx
        · exact ih hr
  exact hfind s.groups h hn

/-- A member of a gang is a group of the state. -/
theorem State.member?_group {s : State} {g x : Group} {m : Nat} (hg : s.group? g.gid ≠ none) (h : s.member? g m = some x) :
    s.group? x.gid ≠ none := by
  unfold State.member? at h
  split at h
  · split at h
    · cases h
      exact hg
    · exact State.group?_of_mem (findBy_some h).2
  · cases h

theorem Ctx.ea_has {s : State} {c : Ctx} (h : issuer? s = some c) {p : Space} {a : Nat} {off : DWord} {n l : Nat} {q : Loc}
    (hq : (c.ea s p a off n l).loc = some q) : s.Has q := by
  obtain ⟨-, hg, -⟩ := issuer_cases h
  have hmine : s.group? c.grp.gid ≠ none := by
    rw [issuer_gid h, hg]
    simp
  unfold Ctx.ea at hq
  cases p with
  | s =>
    cases hq
    exact hmine
  | g => cases hq
  | n =>
    dsimp only at hq
    split at hq
    · cases hq
    next g hm =>
      cases hq
      exact State.member?_group hmine hm

/-- The places that an access of a group's warp reaches are places of the state. -/
theorem Ctx.placeOf_has {s : State} {c : Ctx} (h : issuer? s = some c) {p : Space} {a : Nat} {off : DWord} {n l : Nat}
    {q : Loc} {wr : Bool} (hq : s.placeOf c.grp wr (c.ea s p a off n l) = some q) : s.Has q := by
  unfold State.placeOf at hq
  split at hq
  next hl =>
    cases hq
    exact Ctx.ea_has h hl
  · split at hq <;> cases hq
    trivial

/-- The stores of an instruction: each active lane's bytes at its place. -/
def State.stores (s : State) (c : Ctx) (m : Option Modifier) (n : Nat) (ea : Nat → Ea) (val : Nat → Nat) :
    List (Loc × List Byte) :=
  (c.act m).filterMap fun l => (s.placeOf c.grp true (ea l)).map fun a => (a, natBytes n (val l))

theorem State.stores_eq {s : State} {c : Ctx} {m : Option Modifier} {n : Nat} {ea : Nat → Ea} {val : Nat → Nat}
    (hl : ∀ l, (ea l).lane = l) :
    ((s.located c.grp true ((c.act m).map ea)).map fun x => (x.2, natBytes n (val x.1.lane))) = s.stores c m n ea val := by
  unfold State.located State.stores
  rw [List.map_filterMap, List.filterMap_map]
  congr 1
  funext l
  simp only [Function.comp, Option.map_map]
  refine congrArg (Option.map · _) (funext fun a => ?_)
  show (a, natBytes n (val (ea l).lane)) = _
  rw [hl]

/-- A store that no check stops performs in its turn, and the instruction completes (R221). -/
theorem doStore_of_accessible {s : State} {c : Ctx} {i : Instr} {m : Option Modifier} {p : Space} {n : Nat} {ea : Nat → Ea}
    {val : Nat → Nat} (hl : ∀ l, (ea l).lane = l) (ha : c.act m ≠ [])
    (h : Accessible s c p n true true ((c.act m).map ea)) :
    doStore s c i m p n ea val = finishPlain (s.doAct c.grp c.cur.widx (.store (s.stores c m n ea val))) c := by
  unfold doStore
  extract_lets ls
  rw [if_neg (by simpa [ls] using ha), h.checkAccess]
  dsimp only
  rw [State.stores_eq hl]
  rfl

theorem storesAt {s : State} {c : Ctx} {i : Instr} (hi : Issues s i c) {m : Option Modifier} {p : Space} {n a : Nat}
    {off : Nat → DWord} {val : Nat → Nat}
    (hexec : exec i s = .next (doStore s c i m p n (fun l => c.ea s p a (off l) n l) val)) :
    StoresAt s i c m p n (fun l => c.ea s p a (off l) n l) val := by
  have hwarp := issuer_warp hi.who
  refine ⟨fun ha => ⟨_, hexec, ?_⟩, fun ha hacc => ?_⟩
  · unfold doStore
    extract_lets ls
    rw [if_pos (by simp [ls, ha])]
    exact finishPlain_done hi.who hwarp
  · rw [doStore_of_accessible (fun l => Ctx.ea_lane ..) ha hacc] at hexec
    intro ws
    have hws : s.stores c m n (fun l => c.ea s p a (off l) n l) val = ws := rfl
    rw [hws] at hexec
    have hhas : ∀ q ∈ ws, s.Has q.1 := by
      intro q hq
      obtain ⟨l, -, hl⟩ := List.mem_filterMap.1 hq
      obtain ⟨x, hx, rfl⟩ := Option.map_eq_some_iff.1 hl
      exact Ctx.placeOf_has hi.who hx
    clear_value ws
    have hgid := issuer_gid hi.who
    by_cases hw : s.Waits c.cur.gid c.cur.widx (.store ws)
    · obtain ⟨q, hqg, hqw, hqa, hact⟩ := State.doAct_later (g := c.grp) (a := .store ws) (by rwa [hgid]) rfl
      rw [hact] at hexec
      obtain ⟨w, ho, hc⟩ := finishPlain_done hi.who (u := { s with queue := enqueue q s.queue, uid := s.uid + 1 }) hwarp
      refine ⟨_, w, hexec, ho.mine, hc, ho.others, fun _ => ⟨q, ?_, hqg.trans hgid, hqw, hqa, fun _ _ hn => nomatch hn⟩,
        fun hs => absurd hw (hs.not_waits rfl)⟩
      rw [ho.queue]
      exact mem_enqueue _ _
    · have hp := State.perform_performed (g := c.grp) hhas
      have hact : s.doAct c.grp c.cur.widx (.store ws) = s.perform c.grp ws := State.doAct_now (by rwa [hgid])
      rw [hact] at hexec
      obtain ⟨w, ho, hc⟩ := finishPlain_done hi.who ((hp.warps _ _).trans hwarp)
      generalize finishPlain (s.perform c.grp ws) c = t at ho hexec
      generalize s.perform c.grp ws = u at hp ho
      refine ⟨t, w, hexec, ho.mine, hc, fun g x hne => (ho.others g x hne).trans (hp.warps g x), fun h => absurd h hw,
        fun _ => ⟨fun g x => ?_, fun g x => ?_, fun x => ?_, fun k hk => (ho.core k).trans (hp.cores k hk), ?_⟩⟩
      · rw [ho.locByte_sram, hp.sram]
      · rw [ho.locByte_nram, hp.nram]
      · rw [ho.farByte, hp.far]
      · have hrest := congrArg (fun v : State =>
          { v with groups := s.groups, cores := s.cores, uid := s.uid, shadow := s.shadow, cur := s.cur }) ho.rest
        exact hrest.trans (congrArg (fun v : State => { v with cur := s.cur }) hp.rest)

/-- The number in a lane's registers, as the sum of their values. -/
theorem Ctx.regNat_eq (c : Ctx) (r l n : Nat) :
    c.regNat r l n = ((List.range n).map fun j => 2 ^ (32 * j) * (c.reg (r + j) l).toNat).sum := by
  induction n generalizing r with
  | zero => rfl
  | succ n ih =>
    rw [Ctx.regNat, ih, List.range_succ_eq_map, List.map_cons, List.sum_cons, List.map_map, ← List.sum_map_mul_left]
    refine congrArg₂ (· + ·) (by simp) (congrArg List.sum (List.map_congr_left fun j _ => ?_))
    simp only [Function.comp]
    rw [show r + 1 + j = r + j.succ by omega, show 32 * j.succ = 32 + 32 * j by omega, pow_add, mul_assoc]

end Sys2Proof.Machine

section

open Sys2Proof Sys2Proof.Machine

/-- Settles O27: a store that no check stops is `doAct` of its bytes (`storesAt`), which performs them or joins the queue. -/
theorem storesWriteTheirBytes : Obligations.StoresWriteTheirBytes := by
  unfold Obligations.StoresWriteTheirBytes
  refine fun s c => ⟨fun x hi => storesAt hi ?_, fun x hi => storesAt hi ?_⟩
  · show execSt x s = _
    simp only [execSt, issue_eq hi, Ctx.regNat_eq]
  · exact issue_eq hi _

end

/-! ## Atomics (O29: R90, R91, R224)

An atomic that no check stops is in flight until its lanes have their answers, and each lane's transaction stands in a
batch for the engine of its place, which goes out at once, behind a release, or in its turn. -/

namespace Sys2Proof.Machine

/-! ### Batches -/

/-- A transaction stands in the batch of the engine that serves its place. -/
theorem State.mem_batchesOf {s : State} {g : Group} {widx fly : Nat} {k : TxKind} {txs : List Tx} {x : Tx} (h : x ∈ txs) :
    ∃ b ∈ s.batchesOf g widx fly k txs, b.engine = s.serverOf x.loc ∧ b.fly = fly ∧ b.kind = k ∧ x ∈ b.txs := by
  have he : s.serverOf x.loc ∈ (txs.map fun t => s.serverOf t.loc).eraseDups :=
    List.mem_eraseDups.2 (List.mem_map.2 ⟨x, h, rfl⟩)
  obtain ⟨i, hi, hx⟩ := List.mem_iff_getElem.1 he
  refine ⟨_, List.mem_map.2 ⟨(s.serverOf x.loc, i), ?_, rfl⟩, rfl, rfl, rfl, ?_⟩
  · exact List.mem_zipIdx_iff_getElem?.2 (by rw [List.getElem?_eq_getElem hi, hx])
  · exact List.mem_filter.2 ⟨h, by simp⟩

/-- Two states with the same groups, values in flight and home copies. -/
structure SameHome (s t : State) : Prop where
  groups : t.groups = s.groups
  flys : t.flys = s.flys
  mem : t.mem = s.mem

theorem SameHome.trans {s t u : State} (h : SameHome s t) (k : SameHome t u) : SameHome s u :=
  ⟨k.groups.trans h.groups, k.flys.trans h.flys, k.mem.trans h.mem⟩

theorem State.sendBatch_home (s : State) (b : Batch) : SameHome s (s.sendBatch b) := by
  unfold State.sendBatch
  split
  · split <;> exact ⟨rfl, rfl, rfl⟩
  · exact ⟨rfl, rfl, rfl⟩

theorem State.sendAll_home (s : State) (bs : List Batch) : SameHome s (bs.foldl State.sendBatch s) := by
  induction bs generalizing s with
  | nil => exact ⟨rfl, rfl, rfl⟩
  | cons b r ih => exact (s.sendBatch_home b).trans (ih _)

theorem State.doAct_send_home (s : State) (g : Group) (widx : Nat) (rel : Option Scope) (bs : List Batch) :
    SameHome s (s.doAct g widx (.send rel bs)) := by
  unfold State.doAct
  extract_lets born
  split
  · cases rel <;> exact ⟨rfl, rfl, rfl⟩
  · cases rel with
    | none => exact s.sendAll_home bs
    | some x => exact ⟨rfl, rfl, rfl⟩

/-- A batch for an engine of the module is sent, and later ones leave it so. -/
theorem State.mem_sendAll {s : State} {bs : List Batch} {b : Batch} (hb : b ∈ bs ∨ b ∈ s.batches) (he : b.engine < portEngine) :
    b ∈ (bs.foldl State.sendBatch s).batches := by
  induction bs generalizing s with
  | nil => simpa using hb
  | cons x r ih =>
    refine ih ?_
    have hkeep : b ∈ s.batches → b ∈ (s.sendBatch x).batches := by
      intro h
      unfold State.sendBatch
      split
      · split <;> exact h
      · exact List.mem_append_left _ h
    rcases hb with hb | hb
    · rcases List.mem_cons.1 hb with rfl | hr
      · right
        unfold State.sendBatch
        rw [if_neg (by omega)]
        simp
      · exact .inl hr
    · exact .inr (hkeep hb)

/-! ### The turn of a batch -/

theorem State.Turn.not_waits {s : State} {gid widx : Nat} {a : Act} (h : s.Turn gid widx a) : ¬ s.Waits gid widx a := by
  obtain ⟨hset, hfence⟩ := h
  rintro (⟨q, hq, hg, hw, -⟩ | hgate)
  · exact hset.queue q hq ⟨hg, hw⟩
  · simp only [State.gated, hset.performed, Bool.false_or, Bool.and_eq_true, Bool.or_eq_true] at hgate
    obtain ⟨hf, hread | hcap⟩ := hgate
    · rw [(hfence hf).1] at hread
      cases hread
    · unfold State.capturedBefore at hcap
      split at hcap
      next w hwarp =>
        obtain ⟨k, hk, hb⟩ := List.any_eq_true.1 hcap
        simp only [Bool.and_eq_true, decide_eq_true_eq] at hb
        refine (hfence hf).2 w hwarp k hk hb.2 fun r hr => ?_
        have hborn := hb.1
        rwa [State.bornNow, hr] at hborn
      · cases hcap

/-- A value in flight with no access still to be made, and later numbers, hold up no turn. -/
theorem State.Turn.addFly {s : State} {gid widx : Nat} {a : Act} (h : s.Turn gid widx a) (c : Ctx) {f : Fly} (hf : f.todo = [])
    (n : Nat) : ({ addFly s c f with uid := n } : State).Turn gid widx a := by
  obtain ⟨⟨hq, hp⟩, hfence⟩ := h
  refine ⟨⟨hq, hp⟩, fun ha => ⟨?_, (hfence ha).2⟩⟩
  have hread := (hfence ha).1
  simp only [State.unread, Bool.or_eq_false_iff] at hread ⊢
  refine ⟨hread.1, ?_⟩
  show (s.flys ++ [_]).any _ = false
  rw [List.any_append, hread.2, Bool.false_or, List.any_cons, hf, List.any_nil, Bool.and_false]
  rfl

/-- A release has its place among those of its core. -/
theorem State.mem_release (s : State) (c : Nat) (dom : Nat × Nat) (part scope : Nat) (after : List After) :
    ∃ r ∈ ((s.release c dom part scope after).core c).relq, r.after = after ∧ r.isOpen = false ∧
      (r.scope = scope ∨ (scope = 5 ∧ r.scope = 6)) := by
  unfold State.release
  extract_lets k r
  refine ⟨r, ?_, rfl, rfl, ?_⟩
  · show r ∈ ((s.setCore c _).core c).relq
    rw [State.core_setCore_self]
    simp
  · show (if _ ∧ _ then 6 else scope) = scope ∨ scope = 5 ∧ (if _ ∧ _ then 6 else scope) = 6
    split
    next h => exact .inr ⟨h.1, rfl⟩
    · exact .inl rfl

/-- What becomes of a batch for an engine of the module that an instruction sends. -/
theorem State.doAct_send {s : State} {g : Group} {widx : Nat} {rel : Option Scope} {bs : List Batch} {b : Batch} (hb : b ∈ bs)
    (he : b.engine < portEngine) :
    let t := s.doAct g widx (.send rel bs)
    (rel = none ∧ b ∈ t.batches) ∨
    (∃ x, rel = some x ∧ ∃ r ∈ (t.core g.core).relq, After.send b ∈ r.after ∧ r.isOpen = false ∧
      (r.scope = scopeNum x ∨ (scopeNum x = 5 ∧ r.scope = 6))) ∨
    (s.Waits g.gid widx (.send rel bs) ∧ ∃ q ∈ t.queue, q.gid = g.gid ∧ q.widx = widx ∧ q.act = .send rel bs) := by
  intro t
  by_cases hw : s.Waits g.gid widx (.send rel bs)
  · exact .inr (.inr ⟨hw, State.doAct_queued hw⟩)
  · have ht : t = s.act g (.send rel bs) none := State.doAct_now hw
    cases rel with
    | none => exact .inl ⟨rfl, ht ▸ State.mem_sendAll (.inl hb) he⟩
    | some x =>
      obtain ⟨r, hr, hafter, hopen, hscope⟩ := s.mem_release g.core (g.domain (scopeNum x)) g.part (scopeNum x) (bs.map After.send)
      exact .inr (.inl ⟨x, rfl, r, ht ▸ hr, hafter ▸ List.mem_map.2 ⟨b, hb, rfl⟩, hopen, hscope⟩)

/-! ### ATOM -/

theorem State.serverOf_local {s : State} {a : Loc} (h : a.peer = false) : s.serverOf a = s.locEngine a := by
  cases a with
  | phys b => exact if_neg (by simpa [Loc.peer] using h)
  | sram g b => rfl
  | nram g b => rfl

/-- The state in which an instruction sends its batches, its value in flight. -/
def sending (s : State) (c : Ctx) (f : Fly) (n : Nat) : State :=
  { addFly s c f with uid := (addFly s c f).uid + n }

/-- A batch that an instruction sends is on its way, whatever its completion does to its warp. -/
theorem onTheWay_of_send {s t : State} {c : Ctx} {f : Fly} {w : Warp} {rel : Option Scope} {bs : List Batch} {b : Batch}
    (hi : issuer? s = some c) (hf : f.todo = [])
    (ho : OnlyWarp ((sending s c f bs.length).doAct c.grp c.cur.widx (.send rel bs)) t c.cur.gid c.cur.widx w) (hb : b ∈ bs)
    (he : b.engine < portEngine) : OnTheWay s t c rel b := by
  have hbatches : t.batches = ((sending s c f bs.length).doAct c.grp c.cur.widx (.send rel bs)).batches := by
    rw [← ho.rest]
  rcases State.doAct_send (s := sending s c f bs.length) (g := c.grp) (widx := c.cur.widx) (rel := rel) hb he with
    ⟨hrel, h⟩ | ⟨x, hrel, h⟩ | ⟨hw, h⟩
  · exact .inl ⟨hrel, hbatches ▸ h⟩
  · exact .inr (.inl ⟨x, hrel, by rw [ho.core]; exact h⟩)
  · rw [issuer_gid hi] at hw h
    refine .inr (.inr ⟨bs, hb, fun hturn => (hturn.addFly c hf _).not_waits hw, ?_⟩)
    rw [ho.queue]
    exact h

theorem doBatched_eq (s : State) (c : Ctx) (rel : Option Scope) (k : TxKind) (mask : Word) (rs : List Nat) (txs : List Tx) :
    ∃ f : Fly, f.todo = [] ∧ f.left = txs.length ∧ f.mask = mask ∧ (f.vals.map fun p => p.1) = rs ∧
      ∃ bs, bs = (addFly s c f).batchesOf c.grp c.cur.widx (c.key s) k txs ∧ doBatched s c rel k mask rs txs =
        finishPending ((sending s c f bs.length).doAct c.grp c.cur.widx (.send rel bs)) c (c.key s) false mask rs := by
  refine ⟨{ flyFor mask rs none with left := txs.length }, rfl, rfl, rfl, ?_, _, rfl, rfl⟩
  simp [flyFor, Function.comp_def]

/-- A batched instruction whose addresses all translate sends every lane's transaction. -/
theorem doBatched_sends {s : State} {c : Ctx} {i : Instr} (hi : Issues s i c) {rel : Option Scope} {k : TxKind} {mask : Word}
    {rs : List Nat} {m : Option Modifier} {wr : Bool} {ea : Nat → Ea} {y n : Nat → DWord} (hfree : s.fly? (c.key s) = none)
    (hlane : ∀ l, (ea l).lane = l) (hmapped : ∀ e ∈ (c.act m).map ea, s.placeOf c.grp wr e ≠ none)
    (hexec : exec i s = .next (doBatched s c rel k mask rs
      ((s.located c.grp wr ((c.act m).map ea)).map fun q => ⟨q.1.lane, q.2, y q.1.lane, n q.1.lane⟩))) :
    Sends s i c k mask rs (c.act m) (c.act m).length wr rel ea y n := by
  obtain ⟨-, hg, -⟩ := issuer_cases hi.who
  generalize htxs : ((s.located c.grp wr ((c.act m).map ea)).map fun q => (⟨q.1.lane, q.2, y q.1.lane, n q.1.lane⟩ : Tx)) = txs at hexec
  have hlen : txs.length = (c.act m).length := by
    rw [← htxs, List.length_map, State.length_located hmapped, List.length_map]
  obtain ⟨f, htodo, hleft, hmask, hvals, bs, hbs, hdo⟩ := doBatched_eq s c rel k mask rs txs
  rw [hdo] at hexec
  have hhome : SameHome (sending s c f bs.length) _ := State.doAct_send_home _ c.grp c.cur.widx rel bs
  obtain ⟨w, ho, hstart⟩ := finishPending_started hi.who (u := (sending s c f bs.length).doAct c.grp c.cur.widx (.send rel bs))
    (by rw [State.group?, hhome.groups]; exact hg) (c.key s) false mask rs
  generalize finishPending ((sending s c f bs.length).doAct c.grp c.cur.widx (.send rel bs)) c (c.key s) false mask rs = t at hexec ho
  have hflys : t.flys = (addFly s c f).flys := (congrArg State.flys ho.rest).trans hhome.flys
  have hmem : t.mem = s.mem := (congrArg State.mem ho.rest).trans hhome.mem
  have hkey := (congrArg (findBy fun x : Fly => x.id == c.key s) hflys).trans (addFly_fly f hfree)
  refine ⟨t, w, _, hexec, ho.mine, hstart, fun g x hne => ?_, hmem, hkey, hleft.trans hlen, hmask, hvals,
    fun l hl a ha hpeer heng => ?_⟩
  · rw [ho.others g x hne, State.warp?, State.group?, hhome.groups]
    rfl
  · have htx : (⟨l, a, y l, n l⟩ : Tx) ∈ txs := by
      rw [← htxs]
      exact List.mem_map.2 ⟨(ea l, a), State.mem_located.2 ⟨List.mem_map_of_mem hl, ha⟩, by rw [hlane]⟩
    obtain ⟨b, hb, hbe, hbf, hbk, hbt⟩ := (addFly s c f).mem_batchesOf (g := c.grp) (widx := c.cur.widx) (fly := c.key s) (k := k) htx
    have hserver : (addFly s c f).serverOf a = s.locEngine a := State.serverOf_local hpeer
    rw [hserver] at hbe
    exact ⟨b, onTheWay_of_send hi.who htodo ho (hbs ▸ hb) (by rw [hbe]; exact heng), hbf, hbk, hbe, hbt⟩

/-- R90, R91, R224: where no lane reaches a peer's location with an operation that only its own module performs, ATOM goes out
whole. -/
theorem atom_sends {s : State} {c : Ctx} {x : OpAtom} (hi : Issues s (.atom x) c) (hact : c.act x.m ≠ [])
    (hfree : s.fly? (c.key s) = none)
    (hacc : Accessible s c x.p (if x.w64 then 8 else 4) true false
      ((c.act x.m).map fun l => c.ea s x.p x.a.toNat 0 (if x.w64 then 8 else 4) l))
    (hpeer : x.o = .add ∨ x.o = .cas ∨ ∀ l ∈ c.act x.m, ∀ a,
      s.placeOf c.grp true (c.ea s x.p x.a.toNat 0 (if x.w64 then 8 else 4) l) = some a → a.peer = false) :
    Sends s (.atom x) c (.atom x.o x.w64) (c.actMask x.m) (span x.d.toNat x.outRegs) (c.act x.m) (c.act x.m).length true
      (if x.rel then some x.s else none) (fun l => c.ea s x.p x.a.toNat 0 (if x.w64 then 8 else 4) l)
      (fun l => (c.atomArgs x l).1) (fun l => (c.atomArgs x l).2) := by
  refine doBatched_sends hi hfree (Ctx.ea_lane s c x.p x.a.toNat 0 _) hacc.mapped ?_
  have hnone : (if x.o = .add ∨ x.o = .cas then none
      else findBy (fun (q : Ea × Loc) => q.2.peer) (s.located c.grp true
        ((c.act x.m).map fun l => c.ea s x.p x.a.toNat 0 (if x.w64 then 8 else 4) l))) = none := by
    split
    · rfl
    next hop =>
      refine findBy_eq_none fun q hq => ?_
      obtain ⟨he, ha⟩ := State.mem_located.1 hq
      obtain ⟨l, hl, hle⟩ := List.mem_map.1 he
      obtain ⟨hadd, hcas⟩ := not_or.1 hop
      exact (hpeer.resolve_left hadd).resolve_left hcas l hl q.2 (hle ▸ ha)
  show execAtom x s = _
  unfold execAtom
  rw [issue_eq hi]
  dsimp only
  rw [if_neg (by simpa using hact), hacc.checkAccess]
  dsimp only
  rw [hnone]
  rfl

end Sys2Proof.Machine

section Atomics

open Sys2Proof Sys2Proof.Machine

/-- Settles O29: with no active lane ATOM completes at once; otherwise its lanes' transactions go to the engines of their places. -/
theorem atomicsReachTheirEngine : Obligations.AtomicsReachTheirEngine := by
  unfold Obligations.AtomicsReachTheirEngine
  intro s c x hi
  refine ⟨fun hact => ?_, atom_sends hi⟩
  obtain ⟨w, hdone⟩ := finishPlain_done hi.who (issuer_warp hi.who)
  refine ⟨_, ?_, w, hdone⟩
  show execAtom x s = _
  unfold execAtom
  rw [issue_eq hi]
  dsimp only
  rw [if_pos (by simp [hact])]

end Atomics

/-! ## A batch with the number that is given next (O30)

A home engine that has served a batch lets the reads go that stand behind it, and the read of a future sends a batch of its
own, under the next unique number. Where the served batch already had that number, a batch of its number stands after the
transaction. No run numbers a batch so, but the statement asks for every state. -/

namespace Sys2Proof.Machine

/-- A batch of no lanes for engine 0, under the number 7. -/
def servedBatch : Batch := ⟨7, 0, 0, 1, 0, 0, .atom .add false, []⟩

/-- The read of a future by lane 0, behind that batch. -/
def behindFly : Fly := { flyFor 1 [8] none with id := 3, gid := 1, future := some true, todo := [⟨1, 0, some (.phys 0), 7, false⟩] }

/-- The module with the batch and the read, a group of one warp, and 7 the next unique number. -/
def renumberState : State :=
  { State.reset with groups := [codeGroup 1], batches := [servedBatch], flys := [behindFly], uid := 7 }

theorem renumber_filledWaiter : renumberState.filledWaiter 0 = none := by decide +kernel

theorem renumber_nextBatch : renumberState.nextBatch 0 = some (servedBatch, false) := by decide +kernel

/-- The numbers of the batches that the transaction leaves: that of the read. -/
theorem renumber_batches {t : State} (h : exec (.homeEngineTransaction 0) renumberState = .next t) :
    t.batches.map (fun b => b.id) = [7] := by
  have hb : (match exec (.homeEngineTransaction 0) renumberState with
      | .next u => u.batches.map fun b => b.id
      | _ => []) = [7] := by decide +kernel
  rwa [h] at hb

end Sys2Proof.Machine

section

open Sys2Proof Sys2Proof.Machine

/-- Refutes O30: the clause that no batch of the served number stands after the transaction fails in `renumberState`, where the
read of a future behind the batch sends one of that very number. The statement has no hypothesis that numbers in use lie below
the next one. -/
theorem not_homeEngineServes : ¬ Obligations.HomeEngineServes := by
  unfold Obligations.HomeEngineServes
  intro h
  obtain ⟨-, hserves, -⟩ := h renumberState 0
  obtain ⟨t, ht, hids, -⟩ := hserves servedBatch false renumber_filledWaiter renumber_nextBatch
  obtain ⟨x, hx, hid⟩ := List.mem_map.1 (renumber_batches ht ▸ List.mem_singleton_self 7)
  exact hids x hx hid

end

/-! ## Loads and landings (O26: R138, R219, R220; R40, R45, R174)

A load puts its accesses under a value in flight and tries each in turn: an access of this module's memory gives its lanes
their values at once, and no other access of the load serves those lanes. The landing of a value writes its registers. -/

namespace Sys2Proof.Machine

/-! ### Lanes -/

theorem mem_lanesOf {m : Word} {l : Nat} : l ∈ lanesOf m ↔ l < 32 ∧ m.getLsbD l = true := by
  simp [lanesOf, List.mem_filter]

/-- Two masks have no lane in common. -/
def Apart (a b : Word) : Prop := ∀ k, ¬ (a.getLsbD k = true ∧ b.getLsbD k = true)

theorem apart_oneHot {l k : Nat} (h : l ≠ k) : Apart (1#32 <<< l) (1#32 <<< k) := by
  rintro i ⟨hl, hk⟩
  simp at hl hk
  omega

/-- The accesses of a load serve lanes apart. -/
theorem Ctx.served_apart (c : Ctx) (m : Option Modifier) :
    (c.accLanes m).Pairwise fun l k => Apart (c.served m l) (c.served m k) := by
  unfold Ctx.accLanes Ctx.served
  split
  · match c.act m with
    | [] => exact .nil
    | _ :: _ => exact List.pairwise_singleton _ _
  · have hnodup : (c.act m).Nodup := (List.nodup_range.filter _).filter _
    exact hnodup.imp apart_oneHot

/-! ### Values in flight -/

/-- Every list of a value in flight has a place for each lane. -/
def Fly.Full (f : Fly) : Prop := ∀ p ∈ f.vals, p.2.length = 32

/-- A lane of a value in flight is ready, with these words in its registers. -/
def Fly.Has (f : Fly) (k : Nat) (vs : List Word) : Prop :=
  f.ready.getLsbD k = true ∧ ∀ j < f.vals.length, (f.vals.getD j (0, [])).2.getD k 0 = vs.getD j 0

/-- A value in flight after answers: it is for the same lanes and registers of the same warp. -/
structure Fly.Onward (f f' : Fly) : Prop where
  id : f'.id = f.id
  gid : f'.gid = f.gid
  widx : f'.widx = f.widx
  mask : f'.mask = f.mask
  size : f'.size = f.size
  regs : (f'.vals.map fun p => p.1) = f.vals.map fun p => p.1
  full : f.Full → f'.Full

theorem Fly.Onward.refl (f : Fly) : f.Onward f := ⟨rfl, rfl, rfl, rfl, rfl, rfl, fun h => h⟩

theorem Fly.Onward.trans {f g h : Fly} (a : f.Onward g) (b : g.Onward h) : f.Onward h :=
  ⟨b.id.trans a.id, b.gid.trans a.gid, b.widx.trans a.widx, b.mask.trans a.mask, b.size.trans a.size,
    b.regs.trans a.regs, b.full ∘ a.full⟩

theorem Fly.put_onward (f : Fly) (l : Nat) (vs : List Word) : f.Onward (f.put l vs) where
  id := rfl
  gid := rfl
  widx := rfl
  mask := rfl
  size := rfl
  regs := by
    show ((f.vals.zipIdx.map _).map _) = _
    rw [List.map_map]
    have hfst := congrArg (List.map fun p => p.1) (List.zipIdx_map_fst 0 f.vals)
    rwa [List.map_map] at hfst
  full h p hp := by
    obtain ⟨q, hq, rfl⟩ := List.mem_map.1 hp
    rw [List.length_set]
    exact h q.1 (List.fst_mem_of_mem_zipIdx hq)

theorem Fly.put_length (f : Fly) (l : Nat) (vs : List Word) : (f.put l vs).vals.length = f.vals.length := by
  simp [Fly.put]

theorem Fly.put_val (f : Fly) (l : Nat) (vs : List Word) {j : Nat} (hj : j < f.vals.length) :
    ((f.put l vs).vals.getD j (0, [])).2 = (f.vals.getD j (0, [])).2.set l (vs.getD j 0) := by
  simp [Fly.put, List.getD_eq_getElem?_getD, hj]

theorem Fly.put_has {f : Fly} (h : f.Full) {l : Nat} (hl : l < 32) (vs : List Word) : (f.put l vs).Has l vs := by
  refine ⟨by simp [Fly.put, hl], fun j hj => ?_⟩
  rw [Fly.put_length] at hj
  have hlen : (f.vals.getD j (0, [])).2.length = 32 := by
    rw [List.getD_eq_getElem _ _ hj]
    exact h _ (List.getElem_mem hj)
  rw [Fly.put_val f l vs hj, List.getD_eq_getElem _ _ (by rw [List.length_set, hlen]; exact hl), List.getElem_set_self]

theorem Fly.put_keeps {f : Fly} {k l : Nat} {us : List Word} (h : f.Has k us) (hne : k ≠ l) (vs : List Word) :
    (f.put l vs).Has k us := by
  obtain ⟨hready, hvals⟩ := h
  refine ⟨by simp [Fly.put, hready], fun j hj => ?_⟩
  rw [Fly.put_length] at hj
  rw [Fly.put_val f l vs hj, ← hvals j hj]
  simp [List.getD_eq_getElem?_getD, List.getElem?_set_ne (Ne.symm hne)]

section Puts

variable (ls : List Nat) (vs : List Word)

theorem Fly.puts_onward (f : Fly) : f.Onward (ls.foldl (fun f l => f.put l vs) f) := by
  induction ls generalizing f with
  | nil => exact .refl f
  | cons l r ih => exact (f.put_onward l vs).trans (ih _)

theorem Fly.puts_has {f : Fly} (h : f.Full) (hls : ∀ l ∈ ls, l < 32) {k : Nat} (hk : k ∈ ls ∨ f.Has k vs) :
    (ls.foldl (fun f l => f.put l vs) f).Has k vs := by
  induction ls generalizing f with
  | nil => exact hk.resolve_left (by simp)
  | cons l r ih =>
    refine ih ((f.put_onward l vs).full h) (fun x hx => hls x (by simp [hx])) ?_
    by_cases hkl : k = l
    · exact .inr (hkl ▸ Fly.put_has h (hls l (by simp)) vs)
    · exact hk.imp (fun hm => (List.mem_cons.1 hm).resolve_left hkl) fun hf => Fly.put_keeps hf hkl vs

theorem Fly.puts_keeps {f : Fly} {k : Nat} {us : List Word} (hk : k ∉ ls) (h : f.Has k us) :
    (ls.foldl (fun f l => f.put l vs) f).Has k us := by
  induction ls generalizing f with
  | nil => exact h
  | cons l r ih =>
    obtain ⟨hl, hr⟩ := not_or.1 (fun hm => hk (List.mem_cons.2 hm))
    exact ih hr (Fly.put_keeps h hl vs)

end Puts

/-- An answer gives its lanes their words and leaves every other lane as it is. -/
theorem Fly.answer_cases (f : Fly) (t : Todo) (mask : Word) (vs : List Word) (bad : Bool) :
    f.Onward ((f.drop t).answer mask vs bad) ∧
    (f.Full → ∀ k < 32, mask.getLsbD k = true → ((f.drop t).answer mask vs bad).Has k vs) ∧
    ∀ k us, mask.getLsbD k = false → f.Has k us → ((f.drop t).answer mask vs bad).Has k us := by
  have hmain : ∀ f' : Fly, f' = (lanesOf mask).foldl (fun f l => f.put l vs) (f.drop t) →
      f.Onward f' ∧ (f.Full → ∀ k < 32, mask.getLsbD k = true → f'.Has k vs) ∧
      ∀ k us, mask.getLsbD k = false → f.Has k us → f'.Has k us := by
    rintro _ rfl
    have hdrop : f.Onward (f.drop t) := ⟨rfl, rfl, rfl, rfl, rfl, rfl, fun h => h⟩
    refine ⟨hdrop.trans (Fly.puts_onward _ vs _), fun hf k hk hm => ?_, fun k us hm h => ?_⟩
    · exact Fly.puts_has _ vs (f := f.drop t) hf (fun l hl => (mem_lanesOf.1 hl).1) (.inl (mem_lanesOf.2 ⟨hk, hm⟩))
    · exact Fly.puts_keeps _ vs (f := f.drop t) (fun hl => by simp [(mem_lanesOf.1 hl).2] at hm) h
  obtain ⟨hon, hhas, hkeep⟩ := hmain _ rfl
  unfold Fly.answer
  extract_lets f1
  split
  · exact ⟨⟨hon.id, hon.gid, hon.widx, hon.mask, hon.size, hon.regs, hon.full⟩, hhas, hkeep⟩
  · exact ⟨hon, hhas, hkeep⟩

/-! ### Accesses -/

/-- A state after accesses of a load: values in flight and what is asked of peers, and nothing else, have changed. -/
def Answering (s t : State) : Prop := { t with flys := s.flys, ops := s.ops, messages := s.messages, uid := s.uid } = s

theorem Answering.trans {s t u : State} (a : Answering s t) (b : Answering t u) : Answering s u := by
  have h := congrArg (fun v : State => { v with flys := s.flys, ops := s.ops, messages := s.messages, uid := s.uid }) b
  exact h.trans a

theorem Answering.loadNat {s t : State} (a : Answering s t) (c part : Nat) (l : Loc) (n : Nat) :
    t.loadNat c part l n = s.loadNat c part l n := by
  rw [← a]
  cases l <;> rfl

theorem State.askLine_answering (s : State) (g : Group) (widx a fly : Nat) :
    Answering s (s.askLine g widx a fly) ∧ (s.askLine g widx a fly).flys = s.flys := by
  unfold State.askLine State.sendPeer State.send
  extract_lets
  split <;> exact ⟨rfl, rfl⟩

theorem State.fly?_updFly {s : State} {id : Nat} {f : Fly} (h : s.fly? id = some f) (u : Fly → Fly) (hu : ∀ x, (u x).id = x.id) :
    (s.updFly id u).fly? id = some (u f) := by
  unfold State.fly? at *
  rw [State.updFly_flys, findBy_updateBy _ (by simp [hu]), h, Option.map_some, if_pos (findBy_some h).1]

/-- What an access of a load leaves: a value in flight under the same number, in which a lane that it serves from this module
has its words, and a lane that it does not serve has what it had. -/
structure Tried (s : State) (core part id : Nat) (f : Fly) (t : Todo) (u : State) (f' : Fly) : Prop where
  state : Answering s u
  fly : u.fly? id = some f'
  onward : f.Onward f'
  served : ∀ l, t.loc = some l → l.peer = false → f.Full → ∀ k < 32, t.mask.getLsbD k = true →
    f'.Has k (f.size.words (s.loadNat core part l f.size.bytes))
  others : ∀ k us, t.mask.getLsbD k = false → f.Has k us → f'.Has k us

/-- An access that reads its place at once. -/
theorem State.tried_answer {s : State} {id : Nat} {f : Fly} {t : Todo} {l : Loc} (h : s.fly? id = some f) (hl : t.loc = some l)
    (core part : Nat) (bad : Bool) :
    ∃ f', Tried s core part id f t (s.updFly id fun x =>
      (x.drop t).answer t.mask (x.size.words (s.loadNat core part l f.size.bytes)) bad) f' := by
  obtain ⟨hon, hhas, hkeep⟩ := f.answer_cases t t.mask (f.size.words (s.loadNat core part l f.size.bytes)) bad
  refine ⟨_, rfl, State.fly?_updFly h _ fun x => (x.answer_cases t t.mask _ bad).1.id, hon, fun q hq _ hfull k hk hm => ?_, hkeep⟩
  obtain rfl : l = q := Option.some.inj (hl.symm.trans hq)
  exact hhas hfull k hk hm

/-- An access that waits for a peer's line. -/
theorem Tried.of_waiting {s u : State} {core part id : Nat} {f : Fly} {t : Todo} {l : Loc} {todo : List Todo} (hl : t.loc = some l)
    (hp : l.peer = true) (hs : Answering s u) (hf : u.fly? id = some { f with todo := todo }) :
    Tried s core part id f t u { f with todo := todo } where
  state := hs
  fly := hf
  onward := ⟨rfl, rfl, rfl, rfl, rfl, rfl, fun h => h⟩
  served q hq hlocal := by
    obtain rfl : l = q := Option.some.inj (hl.symm.trans hq)
    rw [hp] at hlocal
    cases hlocal
  others _ _ _ h := h

theorem State.tryLoad_tried {s : State} {g : Group} {w : Warp} {id : Nat} {f : Fly} {t : Todo} {l : Loc} (h : s.fly? id = some f)
    (hl : t.loc = some l) : ∃ f', Tried s g.core g.part id f t (s.tryLoad g w id t) f' := by
  unfold State.tryLoad
  rw [h, hl]
  dsimp only
  unfold State.readTodo
  cases l with
  | sram a b => exact State.tried_answer h hl _ _ _
  | nram a b => exact State.tried_answer h hl _ _ _
  | phys a =>
    dsimp only
    split
    next habsent =>
      obtain ⟨hpeer, -⟩ := Bool.and_eq_true_iff.1 habsent
      have hfly := State.fly?_updFly h (fun x => { x with todo := { t with loc := some (.phys a), waiting := true } :: (x.drop t).todo })
        fun _ => rfl
      generalize hv : (s.updFly id fun x =>
        { x with todo := { t with loc := some (.phys a), waiting := true } :: (x.drop t).todo }) = v at hfly
      have hans : Answering s v := hv ▸ rfl
      split
      · exact ⟨_, .of_waiting hl hpeer hans hfly⟩
      · obtain ⟨hask, hflys⟩ := v.askLine_answering g w.idx a id
        exact ⟨_, .of_waiting hl hpeer (hans.trans hask) (by rw [State.fly?, hflys]; exact hfly)⟩
    · exact State.tried_answer h hl _ _ _

/-- The accesses of a load, tried one after another: those of this module's memory give their lanes their values. -/
theorem State.tryLoads {s : State} {g : Group} {w : Warp} {id : Nat} {f : Fly} {ts : List Todo} (h : s.fly? id = some f)
    (hloc : ∀ t ∈ ts, t.loc ≠ none) (hapart : ts.Pairwise fun t u => Apart t.mask u.mask) (hfull : f.Full) :
    let u := ts.foldl (fun s t => s.tryLoad g w id t) s
    Answering s u ∧ ∃ f', u.fly? id = some f' ∧ f.Onward f' ∧
      (∀ t ∈ ts, ∀ l, t.loc = some l → l.peer = false → ∀ k < 32, t.mask.getLsbD k = true →
        f'.Has k (f.size.words (s.loadNat g.core g.part l f.size.bytes))) ∧
      ∀ k us, (∀ t ∈ ts, t.mask.getLsbD k = false) → f.Has k us → f'.Has k us := by
  induction ts generalizing s f with
  | nil => exact ⟨rfl, f, h, .refl f, by simp, fun _ _ _ hf => hf⟩
  | cons t r ih =>
    obtain ⟨l, hl⟩ := Option.ne_none_iff_exists'.1 (hloc t (by simp))
    obtain ⟨f1, hstate, hfly, hon, hserved, hothers⟩ := State.tryLoad_tried (g := g) (w := w) h hl
    obtain ⟨happ, hrest⟩ := List.pairwise_cons.1 hapart
    obtain ⟨hs, f2, hfly2, hon2, hserved2, hothers2⟩ := ih hfly (fun x hx => hloc x (by simp [hx])) hrest (hon.full hfull)
    refine ⟨hstate.trans hs, f2, hfly2, hon.trans hon2, fun x hx q hq hp k hk hm => ?_, fun k us hm hf => ?_⟩
    · rcases List.mem_cons.1 hx with rfl | hx
      · refine hothers2 k _ (fun y hy => ?_) (hserved q hq hp hfull k hk hm)
        exact Bool.eq_false_iff.2 fun hyk => happ y hy k ⟨hm, hyk⟩
      · have := hserved2 x hx q hq hp k hk hm
        rwa [hon.size, hstate.loadNat] at this
    · exact hothers2 k us (fun y hy => hm y (by simp [hy])) (hothers k us (hm t (by simp)) hf)

/-! ### LD and LDX -/

/-- The accesses of a load whose addresses all translate. -/
def loadTodos (s : State) (c : Ctx) (m : Option Modifier) (n : Nat) (ea : Nat → Ea) : List Todo :=
  (s.located c.grp false ((c.accLanes m).map ea)).map fun x =>
    ⟨c.served m x.1.lane, x.1.va, some x.2, s.writeBehind c.cur.gid c.cur.widx x.2 n, false⟩

/-- Its value in flight. -/
def loadFly (s : State) (c : Ctx) (m : Option Modifier) (z : LdSize) (rs : List Nat) (ea : Nat → Ea) : Fly :=
  { flyFor (c.actMask m) rs none with size := z, todo := loadTodos s c m z.bytes ea }

section Load

variable {s : State} {c : Ctx} {m : Option Modifier} {z : LdSize} {rs : List Nat} {ea : Nat → Ea}

theorem loadTodos_loc {n : Nat} : ∀ t ∈ loadTodos s c m n ea, t.loc ≠ none := by
  intro t ht
  obtain ⟨x, -, rfl⟩ := List.mem_map.1 ht
  exact nofun

theorem loadTodos_apart {n : Nat} (hlane : ∀ l, (ea l).lane = l) :
    (loadTodos s c m n ea).Pairwise fun t u => Apart t.mask u.mask := by
  refine List.pairwise_map.2 (List.pairwise_filterMap.2 (List.pairwise_map.2 ((c.served_apart m).imp ?_)))
  intro l k hlk x hx y hy
  obtain ⟨a, -, rfl⟩ := Option.map_eq_some_iff.1 hx
  obtain ⟨b, -, rfl⟩ := Option.map_eq_some_iff.1 hy
  simpa [hlane] using hlk

theorem loadTodos_mem {n l : Nat} {a : Loc} (hlane : ∀ l, (ea l).lane = l) (hl : l ∈ c.accLanes m)
    (ha : s.placeOf c.grp false (ea l) = some a) :
    ⟨c.served m l, (ea l).va, some a, s.writeBehind c.cur.gid c.cur.widx a n, false⟩ ∈ loadTodos s c m n ea :=
  List.mem_map.2 ⟨(ea l, a), State.mem_located.2 ⟨List.mem_map_of_mem hl, ha⟩, by rw [hlane]⟩

theorem loadFly_full (s : State) (c : Ctx) (m : Option Modifier) (z : LdSize) (rs : List Nat) (ea : Nat → Ea) :
    (loadFly s c m z rs ea).Full := by
  intro p hp
  obtain ⟨r, -, rfl⟩ := List.mem_map.1 hp
  exact List.length_replicate

theorem loadFly_regs (s : State) (c : Ctx) (m : Option Modifier) (z : LdSize) (rs : List Nat) (ea : Nat → Ea) :
    ((loadFly s c m z rs ea).vals.map fun p => p.1) = rs := by
  simp [loadFly, flyFor, Function.comp_def]

theorem doLoad_idle {p : Space} (h : c.accLanes m = []) : doLoad s c m p z rs ea = finish s c m false [] flag0 := by
  unfold doLoad
  rw [h]
  rfl

theorem doLoad_eq {p : Space} (h : c.accLanes m ≠ []) (hacc : Accessible s c p z.bytes false true ((c.accLanes m).map ea)) :
    doLoad s c m p z rs ea =
      finishPending ((addFly s c (loadFly s c m z rs ea)).tryFree c.grp c.warp (c.key s)) c (c.key s) false (c.actMask m) rs := by
  unfold doLoad
  dsimp only
  rw [if_neg (by simpa using h), hacc.checkAccess]
  dsimp only
  rw [List.map_nil, List.append_nil]
  rfl

/-- What the tries of a load leave: its value in flight, with the words of every lane that reads this module's memory and follows
no unperformed write. -/
theorem load_tries (hlane : ∀ l, (ea l).lane = l) (hfree : s.fly? (c.key s) = none) :
    let u := (addFly s c (loadFly s c m z rs ea)).tryFree c.grp c.warp (c.key s)
    Answering s u ∧ ∃ f, u.fly? (c.key s) = some f ∧ f.gid = c.cur.gid ∧ f.widx = c.cur.widx ∧ f.mask = c.actMask m ∧
      (f.vals.map fun p => p.1) = rs ∧
      ∀ l ∈ c.accLanes m, ∀ a, s.placeOf c.grp false (ea l) = some a → a.peer = false →
        s.writeBehind c.cur.gid c.cur.widx a z.bytes = 0 → ∀ k < 32, (c.served m l).getLsbD k = true →
          f.Has k (z.words (s.loadNat c.grp.core c.grp.part a z.bytes)) := by
  intro u
  have hfly := addFly_fly (loadFly s c m z rs ea) hfree
  have hu : u = ((loadTodos s c m z.bytes ea).filter Todo.free).foldl (fun v t => v.tryLoad c.grp c.warp (c.key s) t)
      (addFly s c (loadFly s c m z rs ea)) := by
    show State.tryFree _ _ _ _ = _
    unfold State.tryFree State.tryTodos
    rw [hfly]
    rfl
  obtain ⟨hans, f, hf, hon, hserved, -⟩ := State.tryLoads (g := c.grp) (w := c.warp)
    (ts := (loadTodos s c m z.bytes ea).filter Todo.free) hfly (fun t ht => loadTodos_loc t (List.mem_of_mem_filter ht))
    ((loadTodos_apart hlane).filter _) (loadFly_full s c m z rs ea)
  rw [← hu] at hans hf
  have hadd : Answering s (addFly s c (loadFly s c m z rs ea)) := rfl
  refine ⟨hadd.trans hans, f, hf, hon.gid, hon.widx, hon.mask, hon.regs.trans (loadFly_regs s c m z rs ea),
    fun l hl a ha hp hb k hk hm => ?_⟩
  have hmem := List.mem_filter (p := Todo.free).2 ⟨loadTodos_mem (n := z.bytes) hlane hl ha, by simp [Todo.free, hb]⟩
  have hhas : f.Has k (z.words ((addFly s c (loadFly s c m z rs ea)).loadNat c.grp.core c.grp.part a z.bytes)) :=
    hserved _ hmem a rfl hp k hk hm
  rwa [hadd.loadNat] at hhas

/-- A load whose addresses no check stops reads its places. -/
theorem doLoad_reads {i : Instr} {p : Space} (hi : Issues s i c) (hlane : ∀ l, (ea l).lane = l)
    (hexec : exec i s = .next (doLoad s c m p z rs ea)) : Reads s i c m p z rs ea := by
  obtain ⟨-, hg, -⟩ := issuer_cases hi.who
  refine ⟨fun hidle => ?_, fun hact hfree hacc => ?_⟩
  · exact ⟨_, hexec.trans (congrArg _ (doLoad_idle hidle)), finish_done hi.who m false [] flag0 c.quiet_flag0⟩
  · rw [doLoad_eq hact hacc] at hexec
    obtain ⟨hans, f, hf, hgid, hwidx, hmask, hregs, hhas⟩ := load_tries (m := m) (z := z) (rs := rs) hlane hfree
    generalize (addFly s c (loadFly s c m z rs ea)).tryFree c.grp c.warp (c.key s) = u at hexec hans hf
    have hug : u.group? c.cur.gid = some c.grp := by
      rw [← hg, ← hans]
      rfl
    obtain ⟨w, ho, hstart⟩ := finishPending_started hi.who hug (c.key s) false (c.actMask m) rs
    generalize finishPending u c (c.key s) false (c.actMask m) rs = t at hexec ho
    have hstate : { s with flys := t.flys, ops := t.ops, messages := t.messages, uid := t.uid } = u := by
      have hback := congrArg (fun v : State =>
        { v with flys := u.flys, ops := u.ops, messages := u.messages, uid := u.uid }) hans
      rw [show t.flys = u.flys from (congrArg State.flys ho.rest :), show t.ops = u.ops from (congrArg State.ops ho.rest :),
        show t.messages = u.messages from (congrArg State.messages ho.rest :), show t.uid = u.uid from (congrArg State.uid ho.rest :)]
      exact hback.symm
    have hkey : t.fly? (c.key s) = some f :=
      (congrArg (State.fly? · (c.key s)) ho.rest).trans hf
    refine ⟨t, w, f, hexec, hstate ▸ ho, hstart, hkey, hgid, hwidx, hmask, hregs, fun l hl a ha hp hb k hk hm => ?_⟩
    obtain ⟨hready, hvals⟩ := hhas l hl a ha hp hb k hk hm
    have hlen : f.vals.length = rs.length := by
      rw [← hregs, List.length_map]
    exact ⟨hready, fun j hj => hvals j (hlen ▸ hj)⟩

end Load

/-! ### LOAD_LANDING -/

theorem Warp.deliver_eq (w : Warp) (mask : Word) (vals : List (Nat × List Word)) :
    w.deliver mask vals = w.setAll (lanesOf mask) (vals.map fun p => (p.1, fun l => p.2.getD l 0)) := by
  unfold Warp.deliver Warp.setAll
  rw [List.foldl_map]

/-- The lanes of a warp that a landing with every lane ready writes. -/
def Fly.writes (f : Fly) (w : Warp) : Word := if f.whole then f.ready else f.ready &&& w.landLanes f.id

/-- A warp in which a value has landed whole. -/
def Warp.landing (w : Warp) (f : Fly) : Warp :=
  ((w.deliver (f.writes w) f.vals).addPoison (f.poison.filter fun k => f.ready.getLsbD (k % 32))).landed f.id

section Landing

variable (w : Warp) (f : Fly)

theorem Warp.landing_reg (r l : Nat) : (w.landing f).reg r l = (w.deliver (f.writes w) f.vals).reg r l := by
  unfold Warp.landing Warp.landed
  obtain ⟨cs, n, h⟩ := Warp.wake_rest
    (((w.deliver (f.writes w) f.vals).addPoison (f.poison.filter fun k => f.ready.getLsbD (k % 32))).unpend [f.id]) f.id
  rw [h]
  rfl

theorem Warp.landing_pend : ∀ p ∈ (w.landing f).pend, p.id ≠ f.id := by
  unfold Warp.landing Warp.landed
  obtain ⟨cs, n, h⟩ := Warp.wake_rest
    (((w.deliver (f.writes w) f.vals).addPoison (f.poison.filter fun k => f.ready.getLsbD (k % 32))).unpend [f.id]) f.id
  rw [h]
  intro p hp
  have hp' := (List.mem_filter.1 hp).2
  simpa using hp'

theorem Warp.landing_idx : (w.landing f).idx = w.idx := by
  unfold Warp.landing Warp.landed
  obtain ⟨cs, n, h⟩ := Warp.wake_rest
    (((w.deliver (f.writes w) f.vals).addPoison (f.poison.filter fun k => f.ready.getLsbD (k % 32))).unpend [f.id]) f.id
  obtain ⟨regs, poison, hset⟩ := w.setAll_rest (lanesOf (f.writes w)) (f.vals.map fun p => (p.1, fun l => p.2.getD l 0))
  rw [h, Warp.deliver_eq, hset]
  rfl

end Landing

theorem State.acquireAt_home (s : State) (g : Group) (n : Nat) : SameHome s (s.acquireAt g n) := by
  unfold State.acquireAt
  extract_lets
  split
  · exact ⟨rfl, rfl, rfl⟩
  · split <;> exact ⟨rfl, rfl, rfl⟩

/-- The acquire of a landing changes no group, no value in flight and no home copy. -/
theorem State.acquireFor_home (s : State) (g : Group) (widx : Nat) (x : Scope) : SameHome s (s.acquireFor g widx x) := by
  unfold State.acquireFor
  split
  · unfold State.doAct
    extract_lets
    split <;> exact ⟨rfl, rfl, rfl⟩
  · exact s.acquireAt_home g _

/-- A value with every lane ready lands whole. -/
theorem State.landFly_ready {s : State} {g : Group} {f : Fly} (h : f.mask &&& ~~~f.ready = 0) :
    ∃ u, SameHome s u ∧ s.landFly g f =
      { u.updWarp f.gid f.widx (fun w => w.landing f) with flys := u.flys.filter fun y => y.id != f.id } := by
  unfold State.landFly
  rw [h]
  cases f.acq with
  | none => exact ⟨s, ⟨rfl, rfl, rfl⟩, rfl⟩
  | some x => exact ⟨_, s.acquireFor_home g f.widx x, rfl⟩

/-- A value with no access still to be made has nothing to try. -/
theorem State.retryFly_idle {s : State} {id : Nat} {f : Fly} (h : s.fly? id = some f) (htodo : f.todo = [])
    (hfut : f.future = none) : s.retryFly id = s := by
  have htry : ∀ g w, s.tryFree g w id = s := by
    intro g w
    unfold State.tryFree State.tryTodos
    simp [h, htodo, hfut]
  unfold State.retryFly
  rw [h]
  dsimp only
  split
  · split
    · rfl
    · exact htry _ _
  · rfl

/-- A value on its own, with every lane ready and no access to make, lands whole in its warp. -/
theorem loadLanding_exec {s : State} {fly : Nat} {f : Fly} {g : Group} {w : Warp} (hfly : s.fly? fly = some f)
    (hg : s.group? f.gid = some g) (hw : s.warp? f.gid f.widx = some w) (hstat : g.stat ≠ .moving)
    (hbusy : ∀ x ∈ w.splits, x.busy ≠ some fly) (htodo : f.todo = []) (hfut : f.future = none) (hleft : f.left = 0)
    (hready : f.ready ≠ 0) (hall : f.mask &&& ~~~f.ready = 0) :
    ∃ t, exec (.loadLanding fly) s = .next t ∧ SameHome (s.landFly g f) t := by
  have hbusy' : (w.splits.any fun x => x.busy == some fly) = false := by
    simpa [List.any_eq_false] using hbusy
  show ∃ t, execLoadLanding fly s = .next t ∧ _
  unfold execLoadLanding
  rw [hfly]
  dsimp only
  rw [hg, hw]
  dsimp only
  rw [State.retryFly_idle hfly htodo hfut, hfly]
  dsimp only
  rw [if_neg (by simp [hstat, hbusy']), if_pos ⟨hleft, hready⟩, if_pos hall]
  exact ⟨_, rfl, rfl, rfl, rfl⟩

/-- What the landing of a whole value leaves. -/
theorem landFly_spec {s : State} {fly : Nat} {f : Fly} {g g0 : Group} {w : Warp} (hfly : s.fly? fly = some f)
    (hg : s.group? f.gid = some g) (hw : s.warp? f.gid f.widx = some w) (hall : f.mask &&& ~~~f.ready = 0) {t : State}
    (ht : SameHome (s.landFly g0 f) t) :
    t.warp? f.gid f.widx = some (w.landing f) ∧ t.fly? fly = none ∧ t.mem = s.mem ∧
      ∀ a x, ¬ (a = f.gid ∧ x = f.widx) → t.warp? a x = s.warp? a x := by
  obtain ⟨u, hu, hland⟩ := State.landFly_ready (s := s) (g := g0) hall
  rw [hland] at ht
  have hid : f.id = fly := by simpa using (findBy_some hfly).1
  have hgroup : ∀ a, u.group? a = s.group? a := fun a => congrArg (findBy fun x : Group => x.gid == a) hu.groups
  have hwarp : g.warp? f.widx = some w := by
    rw [State.warp?, hg] at hw
    exact hw
  have ho := onlyWarp_updWarp (fun w => w.landing f) (Warp.landing_idx · f) ((hgroup f.gid).trans hg) hwarp
  have hwarps : ∀ a x, t.warp? a x = (u.updWarp f.gid f.widx fun w => w.landing f).warp? a x := fun a x =>
    congrArg (fun gs => (findBy (fun y : Group => y.gid == a) gs).bind fun y => y.warp? x) ht.groups
  refine ⟨(hwarps _ _).trans ho.mine, ?_, ht.mem.trans hu.mem, fun a x hne => ?_⟩
  · rw [State.fly?, ht.flys]
    exact findBy_filter_not _ fun x hx => by
      rw [hid]
      simpa using hx
  · rw [hwarps, show (u.updWarp f.gid f.widx fun w => w.landing f).warp? a x = u.warp? a x from ho.others a x hne, State.warp?,
      hgroup]
    rfl

end Sys2Proof.Machine

section Loads

open Sys2Proof Sys2Proof.Machine

/-- Settles O26: a load reads each place as it tries it (`doLoad_reads`), and a value with every lane ready lands whole
(`landFly_spec`). -/
theorem loadsAndLanding : Obligations.LoadsAndLanding := by
  unfold Obligations.LoadsAndLanding
  refine ⟨fun s c => ⟨fun x hi => doLoad_reads hi (fun _ => Ctx.ea_lane ..) (issue_eq hi _),
    fun x hi => doLoad_reads hi (fun _ => Ctx.ea_lane ..) (issue_eq hi _)⟩, ?_⟩
  intro s fly f g w hfly hg hw hstat hbusy htodo hfut hleft hready hmask
  have hall : f.mask &&& ~~~f.ready = 0 := by
    rw [hready, BitVec.and_not_self]
  obtain ⟨t, hexec, ht⟩ := loadLanding_exec hfly hg hw hstat hbusy htodo hfut hleft (hready ▸ hmask) hall
  obtain ⟨hmine, hnone, hmem, hothers⟩ := landFly_spec hfly hg hw hall ht
  have hid : f.id = fly := by simpa using (findBy_some hfly).1
  refine ⟨t, w.landing f, hexec, hmine, fun r l hl => ?_, fun p hp => hid ▸ Warp.landing_pend w f p hp, hnone, hmem, hothers⟩
  rw [Warp.landing_reg, Warp.deliver_eq, Warp.reg_setAll _ _ _ _ _ (lanesOf_lt _) hl, Fly.writes, hready, hid]
  cases Writes.of (f.vals.map fun p => (p.1, fun l => p.2.getD l 0)) r with
  | none => rfl
  | some v => simp only [mem_lanesOf, hl, true_and]

end Loads

/-! ## A closure's help while its split is held (O37)

ANN.HLP in a closure (R41, R104) ends when its drives have ended, and the meaning of the waiting form then takes the hold off
the split that it was issued from. A closure has no split of its own: the number that it carries is that of the split that
captured it, which has gone on (R44) and may be held by then at a deferring ANN whose tail swap has still to be
performed (R105). The help takes that hold away (`waitDrives` clears it under the number of the split, for a closure too), where
the statement, by `Completed.closed`, leaves the splits of a closure's warp as they were. -/

namespace Sys2Proof.Machine

/-- The help of one record in space G: its header's address is in v2 and v3, its result goes to v4. -/
def helpOp : OpHlp := ⟨.g, 0, 2, 1, none⟩

/-- The help, captured by split 0 at the page of code, as it runs for lane 0. -/
def helpClosure : Closure :=
  ⟨0, 10, 20, 10, (Instr.annHlp helpOp).word, 0, BitVec.ofNat 64 codePage, 1, 32, 0, [], [], [], Codebook.initial, [], [4], [], [2, 3],
    some 0, false, false⟩

/-- Split 0 has gone on to a deferring ANN, which holds it for the value in flight 50. -/
def heldSplit : Split := ⟨0, BitVec.ofNat 64 (codePage + 4), 1, [], [], some 50⟩

/-- Its warp, in which the result of the help is pending. -/
def heldWarp : Warp :=
  { newWarp 0 0 0 128 0 (BitVec.ofNat 64 codePage) 1 32 false [] with
    annbase := 0x11000
    pend := [⟨20, 4, true, 1⟩]
    splits := [heldSplit]
    closures := [helpClosure] }

/-- The group of that warp, in deferring mode. -/
def heldGroup : Group := { codeGroup 1 with dmode := true, warps := [heldWarp] }

/-- Who issues: the closure. -/
def helpCtx : Ctx := closureCtx heldGroup heldWarp helpClosure

/-- The module with that group and the closure issuing: no drive of either instruction stands in it. -/
def undrivenState : State :=
  { State.reset with
    groups := [heldGroup], cur := some helpCtx.cur, uid := 100
    flys := [{ flyFor 1 [6, 7] none with id := 50, gid := 1, pc := heldSplit.pc }] }

/-- The drive of the help, which has ended and seen one record complete. -/
def helpDrive : Drive :=
  { helpCtx.newDrive undrivenState true true .g 2 0 1 0 4 0 0 0 0 0 with stage := .done, asked := false, out := (1, 0) }

/-- The drive of the ANN that holds the split: its tail swap is on its way. -/
def swapDrive : Drive :=
  { helpCtx.newDrive undrivenState false false .g 2 1 0 50 6 0 1 5 0 0 with pc := heldSplit.pc, clo := none }

/-- The module in which both drives stand. -/
def helpState : State := { undrivenState with drives := [helpDrive, swapDrive] }

theorem help_issues : Issues helpState (.annHlp helpOp) helpCtx where
  who := by decide +kernel
  target := by decide +kernel
  mode := fun h => absurd h (by decide)
  inside := by decide +kernel
  sound := by decide +kernel

theorem help_act : helpCtx.act helpOp.m = [0] := by decide +kernel

theorem help_driveOf : helpState.driveOf helpCtx true 0 = some helpDrive := by decide +kernel

/-- The help leaves the split of the ANN without its hold, though the ANN must go on waiting at its place: its tail swap has
still to be performed. -/
theorem help_releases_split {t : State} {w : Warp} (h : exec (.annHlp helpOp) helpState = .next t)
    (hw : t.warp? helpCtx.cur.gid helpCtx.cur.widx = some w) :
    w.splits = [{ heldSplit with busy := none }] ∧ t.swapHeld 50 = true := by
  have hs : (match exec (.annHlp helpOp) helpState with
      | .next u => (u.warp? helpCtx.cur.gid helpCtx.cur.widx).map fun v => (v.splits, u.swapHeld 50)
      | _ => none) = some ([{ heldSplit with busy := none }], true) := by decide +kernel
  rw [h] at hs
  simpa [hw] using hs

end Sys2Proof.Machine

section

open Sys2Proof Sys2Proof.Machine

/-- Refutes O37: the clause of ANN.HLP fails for a closure whose split is held at a deferring ANN (`helpState`). When the help
ends, the split is held no more, where `Completed` has the warp of a closure keep its splits. -/
theorem not_announcementsDriveRecords : ¬ Obligations.AnnouncementsDriveRecords := by
  unfold Obligations.AnnouncementsDriveRecords
  rintro ⟨hinstructions, -⟩
  obtain ⟨-, hhelp, -⟩ := hinstructions helpState helpCtx
  have hended : ∀ l ∈ helpCtx.act helpOp.m, ∃ v, helpState.driveOf helpCtx true l = some v ∧ v.stage = .done := by
    rw [help_act]
    intro l hl
    rw [List.mem_singleton.1 hl]
    exact ⟨helpDrive, help_driveOf, rfl⟩
  obtain ⟨t, w, ht, hw, -, hdone⟩ := hhelp helpOp help_issues (by simp [help_act]) hended
  have hsplits : w.splits = heldWarp.splits := (congrArg Warp.splits (hdone.closed rfl) :)
  rw [(help_releases_split ht hw).1] at hsplits
  exact absurd hsplits (by decide)

end

/-! ## What an exception leaves (R175, R272 to R276)

`takeTrap` of an instruction of the stream, where no translation fault is its cause: the 64 bytes of its record, the delivery to the
user handler, to KVEC, and the suspension of a user warp with the entry of the fault queue. -/

namespace Sys2Proof.Machine

/-! ### Bytes in home copies -/

/-- The home copies of the bytes from an address are those of a list. -/
def State.HoldsAt (s : State) (a : Nat) (bs : List Byte) : Prop := ∀ i < bs.length, bs[i]? = some (s.home (a + i))

theorem natBytes_getElem? {n i : Nat} (v : Nat) (h : i < n) : (natBytes n v)[i]? = some (BitVec.ofNat 8 (v / 256 ^ i)) := by
  induction n generalizing v i with
  | zero => omega
  | succ n ih =>
    cases i with
    | zero => simp [natBytes]
    | succ i => rw [natBytes, List.getElem?_cons_succ, ih _ (by omega), Nat.div_div_eq_div_mul, pow_succ']

theorem readNat_of_bytes {f : Nat → Byte} {a n v : Nat} (h : ∀ i < n, f (a + i) = BitVec.ofNat 8 (v / 256 ^ i)) :
    readNat f a n = v % 256 ^ n := by
  induction n generalizing a v with
  | zero => simp [readNat, Nat.mod_one]
  | succ n ih =>
    have hrest : readNat f (a + 1) n = v / 256 % 256 ^ n := ih fun i hi => by
      rw [Nat.add_assoc, Nat.add_comm 1 i, h (i + 1) (by omega), Nat.div_div_eq_div_mul, pow_succ']
    have hfirst : (f a).toNat = v % 256 := by
      have := h 0 (by omega)
      rw [Nat.add_zero, pow_zero, Nat.div_one] at this
      rw [this, BitVec.toNat_ofNat]
    rw [readNat, hfirst, hrest, pow_succ', Nat.mod_mul]

/-- A field of a number whose bytes stand from an address. -/
theorem State.HoldsAt.homeNat {s : State} {a n v : Nat} (h : s.HoldsAt a (natBytes n v)) {k m : Nat} (hkm : k + m ≤ n) :
    s.homeNat (a + k) m = v / 256 ^ k % 256 ^ m := by
  refine readNat_of_bytes fun i hi => ?_
  have := h (k + i) (by rw [natBytes_length]; omega)
  rw [natBytes_getElem? v (by omega), ← Nat.add_assoc, pow_add, ← Nat.div_div_eq_div_mul] at this
  exact (Option.some.inj this).symm

/-- Where no two addresses of some writes and a byte name one physical byte, its last write is found by its address. -/
theorem lastWrite_rawWrites {ws : List (Nat × Byte)} {b : Nat} (h : ∀ w ∈ ws, rawAddr w.1 = rawAddr b → w.1 = b) :
    lastWrite (rawWrites ws) (rawAddr b) = lastWrite ws b := by
  induction ws with
  | nil => rfl
  | cons w r ih =>
    have hw : rawAddr w.1 = rawAddr b ↔ w.1 = b := ⟨h w (by simp), congrArg rawAddr⟩
    have hr := ih fun x hx => h x (by simp [hx])
    show lastWrite ((rawAddr w.1, w.2) :: rawWrites r) _ = lastWrite ((w.1, w.2) :: r) b
    rw [lastWrite_cons, lastWrite_cons, hr, if_congr hw rfl rfl]

theorem mem_putAt {a : Nat} {bs : List Byte} {w : Nat × Byte} (h : w ∈ putAt a bs) : a ≤ w.1 ∧ w.1 < a + bs.length := by
  induction bs generalizing a with
  | nil => simp [putAt] at h
  | cons b r ih =>
    rw [List.length_cons]
    rcases List.mem_cons.1 h with rfl | h
    · dsimp only; omega
    · have := ih h; omega

theorem isPeer_false_iff {a : Nat} : isPeer a = false ↔ a < peerBase := by
  rw [isPeer, decide_eq_false_iff_not, Nat.not_le]

theorem rawAddr_of_lt {a : Nat} (h : a < peerBase) : rawAddr a = a % keyBase := by
  rw [rawAddr, isPeer_false_iff.2 h, if_neg Bool.false_ne_true]

/-- Addresses of this module's memory that lie near each other and name bytes of one line carry the same key slot. -/
theorem div_keyBase_of_line {a b : Nat} (ha : a < peerBase) (hb : b < peerBase) (hnear : a < b + 128 ∧ b < a + 128)
    (h : rawAddr a / 128 = rawAddr b / 128) : a / keyBase = b / keyBase := by
  rw [rawAddr_of_lt ha, rawAddr_of_lt hb] at h
  unfold keyBase at *
  omega

/-- The die that homes a byte homes its line (R310). -/
theorem homeDie_of_line {a b : Nat} (h : rawAddr a / 128 = rawAddr b / 128) : homeDie a = homeDie b := by
  have hstack : stackOf a = stackOf b := by
    unfold stackOf
    generalize rawAddr a = p at *
    generalize rawAddr b = q at *
    have hbig : 0x010000000000 ≤ p ↔ 0x010000000000 ≤ q := by omega
    dsimp only
    by_cases hp : 0x010000000000 ≤ p
    · rw [if_pos hp, if_pos (hbig.1 hp)]
      have hn : (p - 0x010000000000) / 0x2000000000 = (q - 0x010000000000) / 0x2000000000 := by omega
      rw [hn]
      refine if_congr (and_congr_right' ?_) rfl rfl
      unfold stackSize
      omega
    · rw [if_neg hp, if_neg fun hq => hp (hbig.2 hq)]
  unfold homeDie
  rw [hstack]
  cases stackOf b with
  | some n => rfl
  | none =>
    dsimp only
    unfold sliceSize
    omega

/-- Near addresses of one line show it under the same keys (R314). -/
theorem State.viewOf_of_line (s : State) {a b : Nat} (ha : a < peerBase) (hb : b < peerBase) (hnear : a < b + 128 ∧ b < a + 128)
    (h : rawAddr a / 128 = rawAddr b / 128) : s.viewOf a = s.viewOf b := by
  have hdiv := div_keyBase_of_line ha hb hnear h
  have hlow : a < keyBase ↔ b < keyBase := by
    unfold keyBase at *
    omega
  have hslot : keySlot a = keySlot b := by
    rw [keySlot, keySlot, isPeer_false_iff.2 ha, isPeer_false_iff.2 hb, hdiv]
    exact if_congr (or_congr_left hlow) rfl rfl
  rw [State.viewOf, State.viewOf, hslot, homeDie_of_line h]

theorem State.viewOf_low (s : State) {a : Nat} (h : a < keyBase) : s.viewOf a = none := by
  rw [State.viewOf, keySlot, if_pos (.inl h)]
  rfl

theorem State.hardLand_frame (s : State) (c part : Nat) (ws : List (Nat × Byte)) :
    (s.hardLand c part ws).groups = s.groups ∧ (s.hardLand c part ws).cur = s.cur ∧ (s.hardLand c part ws).parts = s.parts :=
  ⟨rfl, rfl, rfl⟩

theorem State.landedWrite_frame (s : State) (c part : Nat) (ws : List (Nat × Byte)) :
    (s.landedWrite c part ws).groups = s.groups ∧ (s.landedWrite c part ws).cur = s.cur ∧
      (s.landedWrite c part ws).parts = s.parts := by
  unfold State.landedWrite
  exact s.hardLand_frame c part ws

/-- Bytes of this module's memory that the hardware writes for a core stand in the home copies (R273, R307). -/
theorem State.landedWrite_holds (s : State) (c part : Nat) {a : Nat} {bs : List Byte} (hbs : bs.length ≤ 128)
    (h : a + bs.length ≤ peerBase) : (s.landedWrite c part (putAt a bs)).HoldsAt a bs := by
  intro i hi
  have hmem : ∀ w ∈ putAt a bs, w.1 < peerBase ∧ w.1 < a + i + 128 ∧ a + i < w.1 + 128 := fun w hw => by
    have := mem_putAt hw
    omega
  have hall : (putAt a bs).filter (fun w => !isPeer w.1) = putAt a bs :=
    List.filter_eq_self.2 fun w hw => by rw [isPeer_false_iff.2 (hmem w hw).1]; rfl
  have hland : (s.landedWrite c part (putAt a bs)).home (a + i)
      = (s.addLanding c 0 1023 part s.nextLanding (putAt a bs)).home (a + i) := rfl
  rw [hland, State.home_addLanding _ _ _ _ _ _ _ _ fun w hw hl => s.viewOf_of_line (hmem w hw).1 (by omega) (hmem w hw).2 hl,
    hall, lastWrite_rawWrites, lastWrite_putAt, if_pos (Nat.le_add_right a i), Nat.add_sub_cancel_left,
    List.getElem?_eq_getElem hi]
  · rfl
  · intro w hw hraw
    have hdiv := div_keyBase_of_line (hmem w hw).1 (by omega) (hmem w hw).2 (congrArg (· / 128) hraw)
    rw [rawAddr_of_lt (hmem w hw).1, rawAddr_of_lt (by omega)] at hraw
    unfold keyBase at *
    omega

/-- A write of the hardware below the key slots leaves every other byte there as it was. -/
theorem State.home_hardLand_apart (s : State) (c part : Nat) {a b : Nat} {bs : List Byte} (ha : a + bs.length ≤ keyBase)
    (hb : b < keyBase) (h : b < a ∨ a + bs.length ≤ b) : (s.hardLand c part (putAt a bs)).home b = s.home b := by
  have hlow : ∀ {x : Nat}, x < keyBase → x < peerBase := fun hx => Nat.lt_of_lt_of_le hx (by decide)
  have hmem : ∀ w ∈ (putAt a bs).filter (fun w => !isPeer w.1), a ≤ w.1 ∧ w.1 < a + bs.length := fun w hw =>
    mem_putAt (List.mem_of_mem_filter hw)
  have hland : (s.hardLand c part (putAt a bs)).home b = (s.addLanding c 0 1023 part s.nextLanding (putAt a bs)).home b := rfl
  have hnone : lastWrite ((putAt a bs).filter fun w => !isPeer w.1) b = none := by
    rw [List.filter_eq_self.2, lastWrite_putAt]
    · split
      · exact List.getElem?_eq_none (by omega)
      · rfl
    · intro w hw
      rw [isPeer_false_iff.2 (hlow (by have := mem_putAt hw; omega))]
      rfl
  rw [hland, State.home_addLanding, lastWrite_rawWrites, hnone]
  · rfl
  · intro w hw hraw
    have := hmem w hw
    rwa [rawAddr_of_lt (hlow (by omega)), rawAddr_of_lt (hlow hb), Nat.mod_eq_of_lt (by omega), Nat.mod_eq_of_lt hb] at hraw
  · intro w hw _
    have := mem_putAt hw
    rw [s.viewOf_low (by omega), s.viewOf_low hb]

/-! ### The record of an exception (R273) -/

/-- The first 26 bytes of a trap record: its fields one after the other, and what stands above them. -/
theorem trapRecord_eq (s : State) (g : Group) (w : Warp) (x : Trap) (split : Nat) (mask : Word) (clo : Option Nat) (spc : DWord) :
    ∃ rest : Nat, trapRecord s g w x split mask clo spc = natBytes 64 (x.epc.toNat + 2 ^ 64 * (x.eaddr.toNat
      + 2 ^ 64 * (x.eaux.toNat + 2 ^ 32 * (mask.toNat + 2 ^ 32 * (x.cause + 2 ^ 8 * (split + 2 ^ 8 * rest)))))) := by
  refine ⟨x.estep + (match clo with | some k => 2 ^ 8 * k + 2 ^ 11 | none => 0) + 2 ^ 48 * (ownerWord g.core w.slot 0).toNat
    + 2 ^ 80 * g.asid + 2 ^ 112 * s.ticks.toNat + 2 ^ 176 * spc.toNat, ?_⟩
  unfold trapRecord
  rw [show 288 = 208 + 80 from rfl, show 320 = 208 + 112 from rfl, show 384 = 208 + 176 from rfl, pow_add _ 208 80,
    pow_add _ 208 112, pow_add _ 208 176]
  refine congrArg (natBytes 64) ?_
  cases clo <;> ring

/-- Where the 64 bytes of a trap record stand, its fields do. -/
theorem State.HoldsAt.recorded {s t : State} {g : Group} {w : Warp} {x : Trap} {split : Nat} {mask : Word} {clo : Option Nat}
    {spc : DWord} {a : Nat} (h : t.HoldsAt a (trapRecord s g w x split mask clo spc)) (hc : x.cause < 256) :
    Recorded t a x.epc x.eaddr x.eaux mask x.cause split := by
  obtain ⟨rest, hrest⟩ := trapRecord_eq s g w x split mask clo spc
  rw [hrest] at h
  have hepc := x.epc.isLt
  have headdr := x.eaddr.isLt
  have heaux := x.eaux.isLt
  have hmask := mask.isLt
  constructor
  · rw [← Nat.add_zero a, h.homeNat (by omega)]
    omega
  all_goals
    rw [h.homeNat (by omega)]
    omega

theorem trapRecord_length (s : State) (g : Group) (w : Warp) (x : Trap) (split : Nat) (mask : Word) (clo : Option Nat)
    (spc : DWord) : (trapRecord s g w x split mask clo spc).length = 64 := natBytes_length _ _

/-! ### The posting of a fault (R318 to R320) -/

/-- A state with the groups, the home copies and the issuer of another. -/
structure KeepsHome (s t : State) : Prop where
  groups : t.groups = s.groups
  mem : t.mem = s.mem
  seals : t.seals = s.seals
  cur : t.cur = s.cur

theorem KeepsHome.refl (s : State) : KeepsHome s s := ⟨rfl, rfl, rfl, rfl⟩

theorem KeepsHome.trans {s t u : State} (k : KeepsHome t u) (h : KeepsHome s t) : KeepsHome s u :=
  ⟨k.groups.trans h.groups, k.mem.trans h.mem, k.seals.trans h.seals, k.cur.trans h.cur⟩

/-- Below the key slots a home copy depends on the memory and on the keys of its lines alone. -/
theorem KeepsHome.home {s t : State} (h : KeepsHome s t) {b : Nat} (hb : b < keyBase) : t.home b = s.home b := by
  unfold State.home State.viewByte State.lineView State.sealOf
  rw [s.viewOf_low hb, t.viewOf_low hb, h.mem, h.seals]

theorem State.serveFeed_keepsHome (num fuel : Nat) (s : State) : KeepsHome s (s.serveFeed num fuel) := by
  induction fuel generalizing s with
  | zero => exact .refl s
  | succ n ih =>
    unfold State.serveFeed
    split
    · exact .refl s
    · split
      · dsimp only
        split
        · exact .refl s
        · exact (ih _).trans ⟨rfl, rfl, rfl, rfl⟩
      · exact .refl s

theorem State.faultNotice_keepsHome (s : State) (die idx part : Nat) : KeepsHome s (s.faultNotice die idx part) := by
  have hservice : KeepsHome s (s.service die).2 := by
    unfold State.service
    split <;> exact ⟨rfl, rfl, rfl, rfl⟩
  unfold State.faultNotice State.serviceAppend
  dsimp only
  split
  · split
    · exact .refl s
    · split
      · exact .refl s
      · have hset : ∀ y, KeepsHome (s.service die).2 ((s.service die).2.setFeed y) := fun _ => ⟨rfl, rfl, rfl, rfl⟩
        exact (State.serveFeed_keepsHome _ _ _).trans ((hset _).trans hservice)
  · exact .refl s

/-- The posting of a fault that never merges: it waits, or the entry at TAIL is written, and nothing else of the home copies. -/
theorem State.postFault_cases (s : State) (part : Nat) {f : FaultReq} (hr : f.reason = 15) :
    KeepsHome s (s.postFault part f) ∨
    KeepsHome (s.hardLand portCore part (putAt ((s.part part).fqEntry (s.part part).fqTail) (natBytes 32 (f.entry 1 1))))
      (s.postFault part f) := by
  have hnone : findBy (fun i => s.fqMatches (s.part part) f i) (List.range (s.part part).fqCap) = none :=
    findBy_eq_none fun i _ => by simp [State.fqMatches, hr]
  unfold State.postFault
  dsimp only
  rw [hnone]
  dsimp only
  split
  · exact .inl ⟨rfl, rfl, rfl, rfl⟩
  · exact .inr ((State.faultNotice_keepsHome _ _ _ _).trans ⟨rfl, rfl, rfl, rfl⟩)

theorem State.postFault_groups (s : State) (part : Nat) {f : FaultReq} (hr : f.reason = 15) :
    (s.postFault part f).groups = s.groups ∧ (s.postFault part f).cur = s.cur := by
  rcases s.postFault_cases part hr with h | h
  · exact ⟨h.groups, h.cur⟩
  · obtain ⟨hg, hc, -⟩ := s.hardLand_frame portCore part
      (putAt ((s.part part).fqEntry (s.part part).fqTail) (natBytes 32 (f.entry 1 1)))
    exact ⟨h.groups.trans hg, h.cur.trans hc⟩

/-- Bytes below the key slots that no entry of the fault queue overlaps stand as before. -/
theorem State.postFault_holds {s : State} {a : Nat} {bs : List Byte} (h : s.HoldsAt a bs) (part : Nat) {f : FaultReq}
    (hr : f.reason = 15) (ha : a + bs.length ≤ keyBase) (hq : ∀ i < 65536, (s.part part).fqEntry i + 32 ≤ keyBase ∧
      ((s.part part).fqEntry i + 32 ≤ a ∨ a + bs.length ≤ (s.part part).fqEntry i)) :
    (s.postFault part f).HoldsAt a bs := by
  intro i hi
  rw [h i hi]
  rcases s.postFault_cases part hr with hk | hk
  · rw [hk.home (by omega)]
  · obtain ⟨hlow, hapart⟩ := hq (s.part part).fqTail (BitVec.isLt _)
    rw [hk.home (by omega), s.home_hardLand_apart]
    · rwa [natBytes_length]
    · omega
    · rw [natBytes_length]
      omega

/-! ### Delivery (R175, R274) -/

theorem Warp.split?_updSplit_ne (w : Warp) {n k : Nat} (h : k ≠ n) {f : Split → Split} (hf : ∀ x, (f x).num = x.num) :
    (w.updSplit n f).split? k = w.split? k := by
  unfold Warp.split? Warp.updSplit
  rw [findBy_updateBy _ fun x => by simp [hf]]
  cases hk : findBy (fun x : Split => x.num == k) w.splits with
  | none => rfl
  | some x =>
    have hx : x.num = k := by simpa using (findBy_some hk).1
    simp [hx, h]

/-- A split at the entry of a handler: its bypass is saved elsewhere. -/
def Split.entering (pc : DWord) (x : Split) : Split := { x with pc := pc, bypass := [] }

/-- The state in which an exception of the issuing instruction is taken, and the exception as it is recorded. -/
def State.trapping (s : State) (c : Ctx) (x : Trap) : State × Trap :=
  (({ s with cur := none } : State).dropDrives fun d => d.gid == c.cur.gid && d.widx == c.cur.widx && d.help).openTrap x

section Delivery

variable {s u : State} {c : Ctx} {x : Trap} (h : issuer? s = some c) (hclo : c.cur.clo = none)
include h hclo

theorem issuer_split : c.warp.split? c.cur.split = some c.split := by
  obtain ⟨-, -, -, ⟨k, _, hk, -⟩ | ⟨-, hsp⟩⟩ := issuer_cases h
  · rw [hclo] at hk
    cases hk
  · exact hsp

/-- The issuing split at a handler, and the others where they were. -/
theorem issuer_split_entered (pc : DWord) :
    (c.warp.updSplit c.cur.split (Split.entering pc)).split? c.cur.split = some (c.split.entering pc) ∧
    ∀ n, n ≠ c.cur.split → (c.warp.updSplit c.cur.split (Split.entering pc)).split? n = c.warp.split? n := by
  refine ⟨?_, fun n hn => Warp.split?_updSplit_ne _ hn fun _ => rfl⟩
  rw [Warp.split?_updSplit _ _ (Split.entering pc) fun _ => rfl, issuer_split h hclo]
  rfl

omit hclo in
/-- The hardware writes bytes and changes the issuing warp, in a state with the groups of the one that it issued in. -/
theorem written_updWarp (hu : u.groups = s.groups) (hcur : u.cur = none) (k part a : Nat) {bs : List Byte} (hbs : bs.length = 64)
    {f : Warp → Warp} (hf : ∀ v, (f v).idx = v.idx) :
    let t := (u.landedWrite k part (putAt a bs)).updWarp c.grp.gid c.warp.idx f
    t.warp? c.cur.gid c.cur.widx = some (f c.warp) ∧
    (∀ x y, ¬ (x = c.cur.gid ∧ y = c.cur.widx) → t.warp? x y = s.warp? x y) ∧
    t.cur = none ∧ t.parts = u.parts ∧ (isPeer (a + 63) = false → t.HoldsAt a bs) := by
  obtain ⟨-, hg, hw, -⟩ := issuer_cases h
  obtain ⟨hgroups, hidle, hparts⟩ := u.landedWrite_frame k part (putAt a bs)
  have hheld : isPeer (a + 63) = false → (u.landedWrite k part (putAt a bs)).HoldsAt a bs := fun hpeer =>
    u.landedWrite_holds k part (by omega) (by have := isPeer_false_iff.1 hpeer; omega)
  generalize u.landedWrite k part (putAt a bs) = v at *
  have hvg : ∀ x, v.group? x = s.group? x := fun x => by rw [State.group?, hgroups, hu]; rfl
  have ho := onlyWarp_updWarp (s := v) f hf ((hvg _).trans hg) hw
  rw [issuer_gid h, Group.warp?_idx hw]
  refine ⟨ho.mine, fun x y hxy => (ho.others x y hxy).trans ?_, hidle.trans hcur, hparts, fun hpeer => hheld hpeer⟩
  rw [State.warp?, State.warp?, hvg]

/-- Delivery to the user handler. -/
theorem toUser_enters (hu : u.groups = s.groups) (hcur : u.cur = none) (hc : x.cause < 256) (a : Nat)
    (hslot : s.userSlotOk c.grp c.warp = some a) :
    EntersUser s (u.toUser c.grp c.warp c.cur x a) c x.cause c.split.bypass x.epc x.eaddr x.eaux := by
  have hsplit := issuer_split h hclo
  let f : Warp → Warp := fun w => { w.updSplit c.cur.split (Split.entering w.uvec) with
    ucause := BitVec.ofNat 32 x.cause
    inu := some ⟨c.cur.split, c.cur.mask, c.split.bypass, none, false⟩ }
  have ht : u.toUser c.grp c.warp c.cur x a = (u.landedWrite c.grp.core c.grp.part
      (putAt a (trapRecord u c.grp c.warp x c.cur.split c.cur.mask none 0))).updWarp c.grp.gid c.warp.idx f := by
    unfold State.toUser
    dsimp only
    rw [hsplit, Nat.mod_eq_of_lt hc]
    rfl
  obtain ⟨hmine, hothers, hidle, -, hheld⟩ := written_updWarp h hu hcur c.grp.core c.grp.part a
    (trapRecord_length u c.grp c.warp x c.cur.split c.cur.mask none 0) (f := f) fun _ => rfl
  obtain ⟨hmoved, hrest⟩ := issuer_split_entered h hclo c.warp.uvec
  rw [ht]
  refine ⟨?_, ⟨_, c.split.entering c.warp.uvec, hmine, rfl, rfl, hmoved, rfl, rfl, rfl, rfl, hrest, rfl⟩,
    hothers, hidle⟩
  · intro b hb hpeer
    obtain rfl : a = b := Option.some.inj (hslot.symm.trans hb)
    exact (hheld hpeer).recorded hc

/-- Delivery to the kernel handler of a kernel warp that is no handler yet. -/
theorem toKernel_enters (hu : u.groups = s.groups) (hdies : u.dies = s.dies) (hcur : u.cur = none) (hc : x.cause < 256)
    (hk : c.grp.kernel = true) (hinh : c.warp.inh = none) (hvec : (s.die (c.grp.core / 128)).kvec ≠ 0) :
    EntersKernel s (u.toKernel c.grp c.warp c.cur x) c x.cause c.split.bypass x.epc x.eaddr x.eaux := by
  have hdie : ∀ d, u.die d = s.die d := fun d => by rw [State.die, hdies]; rfl
  have hsplit := issuer_split h hclo
  have hnum : c.split.num = c.cur.split := by simpa using (findBy_some hsplit).1
  let a := s.trapSlot c.grp.core c.warp.slot
  let f : Warp → Warp := fun w => { w.updSplit c.cur.split (Split.entering (s.die (c.grp.core / 128)).kvec) with
    inu := none
    inh := some ⟨c.cur.split, c.split.mask, c.split.bypass, none, false⟩ }
  have ht : u.toKernel c.grp c.warp c.cur x = (u.landedWrite c.grp.core c.grp.part
      (putAt a (trapRecord u c.grp c.warp x c.cur.split c.cur.mask none 0))).updWarp c.grp.gid c.warp.idx f := by
    unfold State.toKernel State.writeSlot State.trapSlot
    dsimp only
    rw [hclo]
    dsimp only
    rw [hsplit]
    dsimp only
    rw [hnum, if_pos hk, hdie, hinh, if_neg (by simpa using hvec)]
    rfl
  obtain ⟨hmine, hothers, hidle, -, hheld⟩ := written_updWarp h hu hcur c.grp.core c.grp.part a
    (trapRecord_length u c.grp c.warp x c.cur.split c.cur.mask none 0) (f := f) fun _ => rfl
  obtain ⟨hmoved, hrest⟩ := issuer_split_entered h hclo (s.die (c.grp.core / 128)).kvec
  rw [ht]
  refine ⟨fun hpeer => (hheld hpeer).recorded hc, ⟨_, c.split.entering (s.die (c.grp.core / 128)).kvec,
    hmine, rfl, rfl, hmoved, rfl, rfl, rfl, rfl, hrest, rfl⟩, hothers, hidle⟩

/-- The suspension of a user warp. -/
theorem toKernel_suspends (hu : u.groups = s.groups) (hdies : u.dies = s.dies) (hparts : u.parts = s.parts) (hcur : u.cur = none)
    (hc : x.cause < 256) (hxf : x.xf = none) (hk : c.grp.kernel = false) :
    Suspends s (u.toKernel c.grp c.warp c.cur x) c x.cause x.epc x.eaddr x.eaux := by
  have hsplit := issuer_split h hclo
  have hnum : c.split.num = c.cur.split := by simpa using (findBy_some hsplit).1
  let a := s.trapSlot c.grp.core c.warp.slot
  let f : Warp → Warp := fun w => { w with susp := some ⟨c.cur.split, c.cur.mask, [], none, false⟩ }
  have hlen := trapRecord_length u c.grp c.warp x c.cur.split c.cur.mask none 0
  have ht : u.toKernel c.grp c.warp c.cur x = ((u.landedWrite c.grp.core c.grp.part
      (putAt a (trapRecord u c.grp c.warp x c.cur.split c.cur.mask none 0))).updWarp c.grp.gid c.warp.idx f).postFault c.grp.part
        (x.request c.grp c.warp) := by
    have hdie : ∀ d, u.die d = s.die d := fun d => by rw [State.die, hdies]; rfl
    unfold State.toKernel State.writeSlot State.trapSlot
    dsimp only
    rw [hclo]
    dsimp only
    rw [hsplit]
    dsimp only
    rw [hnum, if_neg (by simp [hk]), hdie]
    rfl
  have hr : (x.request c.grp c.warp).reason = 15 := by rw [Trap.request, hxf]
  obtain ⟨hmine, hothers, hidle, hp, hheld⟩ := written_updWarp h hu hcur c.grp.core c.grp.part a hlen (f := f) fun _ => rfl
  rw [ht]
  generalize (u.landedWrite c.grp.core c.grp.part _).updWarp c.grp.gid c.warp.idx f = v at *
  have hpart : v.part c.grp.part = s.part c.grp.part := by
    rw [State.part, hp, hparts]
    rfl
  obtain ⟨hgroups, hcur'⟩ := v.postFault_groups c.grp.part hr
  have hwarp : ∀ i j, (v.postFault c.grp.part (x.request c.grp c.warp)).warp? i j = v.warp? i j := fun i j => by
    rw [State.warp?, State.group?, hgroups]
    rfl
  refine ⟨fun ha hq => ?_, ⟨_, (hwarp _ _).trans hmine, rfl, .inl rfl, rfl⟩,
    fun i j hij => (hwarp i j).trans (hothers i j hij), hcur'.trans hidle⟩
  have hpeer : isPeer (a + 63) = false := isPeer_false_iff.2 (Nat.lt_of_lt_of_le ha (by decide))
  exact (State.postFault_holds (hheld hpeer) c.grp.part hr (by rwa [hlen]) (by rwa [hpart, hlen])).recorded hc

/-- Where an exception of the stream goes: to the user handler where its cause and the user slot allow it, else to the kernel. -/
theorem takeTrap_stream : takeTrap s c.cur x =
    match (if x.cause ≤ 8 then s.userSlotOk c.grp c.warp else none) with
    | some a => (s.trapping c x).1.toUser c.grp c.warp c.cur (s.trapping c x).2 a
    | none => (s.trapping c x).1.toKernel c.grp c.warp c.cur (s.trapping c x).2 := by
  obtain ⟨-, hg, hw, -⟩ := issuer_cases h
  have hug : (s.trapping c x).1.group? c.cur.gid = some c.grp := hg
  have huser : (s.trapping c x).1.userSlotOk c.grp c.warp = s.userSlotOk c.grp c.warp := rfl
  show (match (s.trapping c x).1.group? c.cur.gid with
    | none => (s.trapping c x).1
    | some g => match g.warp? c.cur.widx with
      | none => (s.trapping c x).1
      | some w => match c.cur.clo with
        | some _ => (s.trapping c x).1.toKernel g w c.cur
            { (s.trapping c x).2 with cause := 0x2A, epc := c.cur.pc, eaux := BitVec.ofNat 32 x.cause }
        | none => if x.cause ≤ 8 then
            match (s.trapping c x).1.userSlotOk g w with
            | some a => (s.trapping c x).1.toUser g w c.cur (s.trapping c x).2 a
            | none => (s.trapping c x).1.toKernel g w c.cur (s.trapping c x).2
          else (s.trapping c x).1.toKernel g w c.cur (s.trapping c x).2) = _
  rw [hug]
  dsimp only
  rw [hw]
  dsimp only
  rw [hclo]
  dsimp only
  rw [huser]
  by_cases hle : x.cause ≤ 8
  · rw [if_pos hle, if_pos hle]
  · rw [if_neg hle, if_neg hle]

/-- What an exception of the stream leaves, where no translation fault is its cause. -/
theorem takeTrap_takesTrap (hc : x.cause < 256) (hxf : x.xf = none) :
    TakesTrap s (takeTrap s c.cur x) c x.cause c.split.bypass x.epc (s.openTrap x).2.eaddr (s.openTrap x).2.eaux := by
  have hopen : (s.openTrap x).2 = (s.trapping c x).2 := rfl
  rw [takeTrap_stream h hclo, hopen]
  have hkernel : 8 < x.cause ∨ s.userSlotOk c.grp c.warp = none →
      (if x.cause ≤ 8 then s.userSlotOk c.grp c.warp else none) = none := by
    rintro (hbig | hnone)
    · exact if_neg (by omega)
    · rw [hnone, ite_self]
  refine ⟨fun hle hslot => ?_, fun hto hk hinh hvec => ?_, fun hto hk => ?_⟩
  · obtain ⟨a, ha⟩ := Option.isSome_iff_exists.1 hslot
    rw [if_pos hle, ha]
    exact toUser_enters (u := (s.trapping c x).1) (x := (s.trapping c x).2) h hclo rfl rfl hc a ha
  · rw [hkernel hto]
    exact toKernel_enters (u := (s.trapping c x).1) (x := (s.trapping c x).2) h hclo rfl rfl rfl hc hk hinh hvec
  · rw [hkernel hto]
    exact toKernel_suspends (u := (s.trapping c x).1) (x := (s.trapping c x).2) h hclo rfl rfl rfl rfl hc hxf hk

end Delivery

/-- An instruction whose meaning is an exception of the stream raises it, with EADDR its own address where R273 gives no other. -/
theorem raises_of_exec {s : State} {i : Instr} {c : Ctx} (hi : Issues s i c) {cause : Nat} {eaux : Word} {eaddr : DWord}
    {fields : DWord → Word → Prop} (hexec : exec i s = .next (raise s c cause eaux eaddr)) (hc : cause < 256)
    (hf : fields (s.openTrap ⟨cause, c.cur.pc, eaddr, eaux, 0, none, false, false⟩).2.eaddr
      (s.openTrap ⟨cause, c.cur.pc, eaddr, eaux, 0, none, false, false⟩).2.eaux) : Raises s i c cause fields :=
  ⟨_, _, _, hexec, hf, fun hclo => takeTrap_takesTrap hi.who hclo hc rfl⟩

/-- ILLEGAL, whose EAUX the rules of the raising instruction give. -/
theorem raises_illegal {s : State} {i : Instr} {c : Ctx} (hi : Issues s i c) {eaux : Word} {eaddr : DWord}
    (hexec : exec i s = .next (raise s c 0x20 eaux eaddr)) : Raises s i c 0x20 fun _ e => e = eaux :=
  raises_of_exec hi hexec (by decide) rfl

end Sys2Proof.Machine

/-! ## The issue of a matrix command (R110, R111, R121, R250, R265)

What a matrix instruction does on an engine that owes no machine check, for the group that holds it, and where its checks pass. -/

namespace Sys2Proof.Machine

variable {s : State} {c : Ctx} {i : Instr}

/-! ### The checks that every matrix instruction has (R122, R250) -/

/-- A matrix instruction with an active lane, on an engine that owes no machine check. -/
structure MxReady (s : State) (i : Instr) (c : Ctx) : Prop where
  issues : Issues s i c
  act : c.act i.modifier ≠ []
  check : (c.mx s).check = false

theorem MxReady.matrix_eq (h : MxReady s i c) (k : Ctx → Host.Outcome State Fault Refusal) : matrix s i k = k c := by
  unfold matrix
  rw [issue_eq h.issues, if_neg (by simpa using h.act), h.check, Bool.false_and, if_neg Bool.false_ne_true]

theorem MxReady.owned_eq (h : MxReady s i c) (ho : (c.mx s).owner = some c.grp.gid)
    (k : Ctx → Host.Outcome State Fault Refusal) : matrixOwned s i k = k c := by
  unfold matrixOwned
  rw [h.matrix_eq, ho, if_pos (beq_self_eq_true _)]

theorem MxReady.unowned_eq (h : MxReady s i c) (ho : (c.mx s).owner ≠ some c.grp.gid)
    (k : Ctx → Host.Outcome State Fault Refusal) : matrixOwned s i k = .next (illegal s c) := by
  unfold matrixOwned
  rw [h.matrix_eq, if_neg (by simpa using ho)]

/-! ### The queue (R110, R264) -/

theorem Ctx.mxFull_eq_false (h : (c.mx s).queue.length < 16) : c.mxFull s = false :=
  decide_eq_false (Nat.not_le.2 h)

/-- The state with a command in the queue of an engine that changes otherwise as `f` says. -/
theorem State.pushMx_updMx (s : State) (core : Nat) (q : MCmd) (f : Matrix → Matrix) : (s.pushMx core q).updMx core f
    = { s.updMx core fun z => f { z with queue := z.queue ++ [q] } with uid := s.uid + 1 } := by
  rw [← State.updMx_updMx s core fun z => { z with queue := z.queue ++ [q] }]
  rfl

/-- A command with room in the queue enters it, and its instruction completes. -/
theorem queueCmd_done (h : issuer? s = some c) (hroom : (c.mx s).queue.length < 16) (q : MCmd) (f : Matrix → Matrix) :
    Done { s.updMx c.grp.core fun z => f { z with queue := z.queue ++ [q] } with uid := s.uid + 1 } (queueCmd s c q f)
      c none false [] flag0 := by
  unfold queueCmd
  rw [Ctx.mxFull_eq_false hroom, if_neg Bool.false_ne_true, State.pushMx_updMx]
  exact finishPlain_done h (issuer_warp h)

/-- An instruction that completes with a status in a state that differs from its own beside the issuing warp. -/
theorem finishStatus_done (h : issuer? s = some c) (u : State) (hu : u.warp? c.cur.gid c.cur.widx = s.warp? c.cur.gid c.cur.widx)
    (m : Option Modifier) (d n : Nat) :
    Done u (finishStatus u c m d n) c m false [(d, fun _ => BitVec.ofNat 32 n)] flag0 :=
  finish_done_of_warp h (hu.trans (issuer_warp h)) m false _ flag0 c.quiet_flag0

/-! ### Reservations (R111, R265) -/

/-- The codebook formats among those of a reservation (R60, R111). -/
theorem mem_of_fmtClass_codebook {n w u : Nat} (hn : n < 24) (h : fmtClass (fmtAt n) = .codebook w u) : n ∈ [16, 17, 18, 23] := by
  interval_cases n <;> simp [fmtAt, Fmt.ofCode, fmtClass] at h ⊢

/-- The failures of a reservation, in their order (R111): a bad format, a bad range, an engine held, an overlap, a full list. -/
theorem Matrix.resvFailure_eq_none {y : Matrix} {gid : Nat} {r : Resv} (hfmt : r.fmt ≤ 23) (hlen : 0 < r.len)
    (hend : r.base + r.len ≤ 256) (hscale : r.scaleBase < 1024 * r.len)
    (hbook : r.fmt ∈ [16, 17, 18, 23] → r.cbBase + 32 ≤ 0x40000) (howner : y.owner = none ∨ y.owner = some gid)
    (hfree : ∀ z ∈ y.resv, z.base + z.len ≤ r.base ∨ r.base + r.len ≤ z.base) (hroom : y.resv.length < 16) :
    y.resvFailure gid r = none := by
  unfold Matrix.resvFailure
  dsimp only
  rw [if_neg, if_neg, if_neg, if_neg, if_neg (Nat.not_le.2 hroom)]
  · simp only [List.any_eq_true, meets, Bool.and_eq_true, decide_eq_true_eq]
    rintro ⟨z, hz, hlow, hhigh⟩
    have := hfree z hz
    omega
  · rcases howner with ho | ho <;> rw [ho] <;> simp
  · unfold Resv.bytes
    omega
  · simp only [Bool.or_eq_true, Bool.and_eq_true, decide_eq_true_eq]
    rintro (hbig | ⟨hcb, hbig⟩)
    · omega
    · split at hcb
      · next hclass =>
        have := hbook (mem_of_fmtClass_codebook (by omega) hclass)
        unfold opbufSize at hbig
        omega
      · cases hcb

theorem findBy_eq_find? {α : Type} (f : α → Bool) (l : List α) : findBy f l = l.find? f := by
  induction l with
  | nil => rfl
  | cons x r ih =>
    rw [findBy, List.find?_cons, ih]
    cases f x <;> rfl

theorem Matrix.resv?_eq_none {y : Matrix} {n : Nat} : y.resv? n = none ↔ ∀ z ∈ y.resv, z.id ≠ n := by
  simp [Matrix.resv?, findBy_eq_find?]

theorem Matrix.exists_resv? {y : Matrix} {n : Nat} (h : ∃ z ∈ y.resv, z.id = n) : ∃ z, y.resv? n = some z := by
  refine Option.ne_none_iff_exists'.1 fun hnone => ?_
  obtain ⟨z, hz, hid⟩ := h
  exact Matrix.resv?_eq_none.1 hnone z hz hid

/-- The lowest free id of an engine with fewer than sixteen reservations (R265). -/
theorem Matrix.freeId_spec {y : Matrix} (h : y.resv.length < 16) :
    y.freeId < 16 ∧ (∀ z ∈ y.resv, z.id ≠ y.freeId) ∧ ∀ k < y.freeId, ∃ z ∈ y.resv, z.id = k := by
  have hex : ∃ n, (List.range 16).find? (fun n => (y.resv? n).isNone) = some n := by
    refine Option.ne_none_iff_exists'.1 fun hnone => ?_
    have hall : List.range 16 ⊆ y.resv.map fun z => z.id := by
      intro n hn
      have htaken := List.find?_eq_none.1 hnone n hn
      rw [Option.isNone_iff_eq_none, Matrix.resv?_eq_none] at htaken
      simpa using htaken
    have hlen := (List.nodup_range.subperm hall).length_le
    rw [List.length_range, List.length_map] at hlen
    omega
  obtain ⟨n, hn⟩ := hex
  have hfree : y.freeId = n := by rw [Matrix.freeId, findBy_eq_find?, hn]; rfl
  obtain ⟨hnone, hlt, hleast⟩ := List.find?_range_eq_some.1 hn
  rw [Option.isNone_iff_eq_none, Matrix.resv?_eq_none] at hnone
  rw [hfree]
  refine ⟨List.mem_range.1 hlt, hnone, fun k hk => ?_⟩
  have htaken := hleast k hk
  rw [Bool.not_eq_true', ← Bool.not_eq_true, Option.isNone_iff_eq_none, Matrix.resv?_eq_none] at htaken
  simpa using htaken

/-! ### MRESV (R111) -/

/-- An engine with a reservation of a group added. -/
def Matrix.reserve (y : Matrix) (gid : Nat) (r : Resv) : Matrix := { y with owner := some gid, resv := y.resv ++ [r] }

section Mresv

variable {x : OpE2} (h : MxReady s (.mresv x) c) {v : Nat} (hv : v = (c.pair x.a.toNat (c.low x.m)).toNat)
include h hv

theorem MxReady.mresv_succeeds (hz : bitsOf v 62 2 = 0) (hz' : bitsOf v 0 11 = 0)
    (hr : (c.mx s).resvFailure c.grp.gid (resvOf v) = none) :
    ∃ t, exec (.mresv x) s = .next t ∧
      Done (s.updMx c.grp.core fun z => z.reserve c.grp.gid { resvOf v with id := (c.mx s).freeId })
        t c x.m false [(x.d.toNat, fun _ => BitVec.ofNat 32 (c.mx s).freeId)] flag0 := by
  subst hv
  refine ⟨_, (h.matrix_eq _).trans ?_, finishStatus_done h.issues.who (s.updMx c.grp.core _) rfl x.m x.d.toNat (c.mx s).freeId⟩
  dsimp only
  rw [if_neg (by simp [hz, hz']), hr]
  rfl

theorem MxReady.mresv_fails (hz : bitsOf v 62 2 = 0) (hz' : bitsOf v 0 11 = 0) {e : Nat}
    (hr : (c.mx s).resvFailure c.grp.gid (resvOf v) = some e) :
    Completes s (.mresv x) c x.m false [(x.d.toNat, fun _ => 0x80000000 + BitVec.ofNat 32 e)] flag0 := by
  subst hv
  refine ⟨finishStatus s c x.m x.d.toNat (0x80000000 + e), (h.matrix_eq _).trans ?_, ?_⟩
  · dsimp only
    rw [if_neg (by simp [hz, hz']), hr]
  · rw [show (0x80000000 : Word) + BitVec.ofNat 32 e = BitVec.ofNat 32 (0x80000000 + e) from (BitVec.ofNat_add ..).symm]
    exact finishStatus_done h.issues.who s rfl x.m x.d.toNat _

theorem MxReady.mresv_illegal (hz : bitsOf v 62 2 ≠ 0 ∨ bitsOf v 0 11 ≠ 0) :
    Raises s (.mresv x) c 0x20 fun _ e => e = BitVec.ofNat 32 v := by
  subst hv
  refine raises_illegal h.issues (eaddr := 0) ((h.matrix_eq _).trans ?_)
  dsimp only
  rw [if_pos hz]

end Mresv

/-! ### Commands that enter the queue (R110, R250) -/

/-- An instruction puts a command into the queue of its engine, which changes otherwise as `f` says, and completes. -/
def Adds (s : State) (c : Ctx) (i : Instr) (k : MKind) (args : List Word) (f : Matrix → Matrix) : Prop :=
  ∃ t q, exec i s = .next t ∧
    Done { s.updMx c.grp.core (fun z => f { z with queue := z.queue ++ [q] }) with uid := s.uid + 1 } t c none false [] flag0 ∧
    q.kind = k ∧ q.args = args ∧ q.gid = c.grp.gid ∧ q.id = s.uid ∧ q.signal = none

/-- A matrix instruction of the group that holds the engine, with room in the queue. -/
structure MxRoom (s : State) (i : Instr) (c : Ctx) : Prop extends MxReady s i c where
  owner : (c.mx s).owner = some c.grp.gid
  room : (c.mx s).queue.length < 16

theorem MxRoom.adds (h : MxRoom s i c) {k : MKind} {args : List Word} {m : Option Modifier} {f : Matrix → Matrix}
    {next : Ctx → Host.Outcome State Fault Refusal} (hexec : exec i s = matrixOwned s i next)
    (hnext : next c = .next (queueCmd s c (c.mcmd s k args m) f)) : Adds s c i k args f :=
  ⟨_, _, hexec.trans ((h.owned_eq h.owner next).trans hnext), queueCmd_done h.issues.who h.room _ f, rfl, rfl, rfl, rfl, rfl⟩

/-- A bad operand raises ILLEGAL, with the EAUX that the instruction gives. -/
theorem MxRoom.illegal (h : MxRoom s i c) {eaux : Word} {eaddr : DWord} {next : Ctx → Host.Outcome State Fault Refusal}
    (hexec : exec i s = matrixOwned s i next) (hnext : next c = .next (raise s c 0x20 eaux eaddr)) :
    Raises s i c 0x20 fun _ e => e = eaux :=
  raises_illegal h.issues (hexec.trans ((h.owned_eq h.owner next).trans hnext))

theorem Matrix.named_eq {y : Matrix} {n : Nat} (h : y.releasing n = false) : y.named n = y.resv? n := by
  rw [Matrix.named, h, if_neg Bool.false_ne_true]

theorem Matrix.named_eq_none {y : Matrix} {n : Nat} (h : ∀ z ∈ y.resv, z.id ≠ n) : y.named n = none := by
  rw [Matrix.named, Matrix.resv?_eq_none.2 h, ite_self]

theorem mrels_adds {x : OpBar} (h : MxRoom s (.mrels x) c) (hid : ∃ r ∈ (c.mx s).resv, r.id = x.k.toNat)
    (hrel : (c.mx s).releasing x.k.toNat = false) : Adds s c (.mrels x) .rels [x.k.setWidth 32] id := by
  obtain ⟨r, hr⟩ := Matrix.exists_resv? hid
  refine h.adds rfl (m := x.m) ?_
  rw [Matrix.named_eq hrel, hr]

theorem mrels_illegal {x : OpBar} (h : MxRoom s (.mrels x) c) (hid : ∀ r ∈ (c.mx s).resv, r.id ≠ x.k.toNat) :
    Raises s (.mrels x) c 0x20 fun _ e => e = c.cur.iword := by
  refine h.illegal rfl (eaddr := 0) ?_
  rw [Matrix.named_eq_none hid]
  rfl

theorem mchn_adds {x : OpBar} (h : MxRoom s (.mchn x) c) (hk : x.k.toNat ≤ c.grp.members) :
    Adds s c (.mchn x) .chn [x.k.setWidth 32] fun z => { z with steps := [] } := by
  refine h.adds rfl (m := x.m) ?_
  rw [if_neg (Nat.not_lt.2 hk)]

theorem mchn_illegal {x : OpBar} (h : MxRoom s (.mchn x) c) (hk : c.grp.members < x.k.toNat) :
    Raises s (.mchn x) c 0x20 fun _ e => e = c.cur.iword := by
  refine h.illegal rfl (eaddr := 0) ?_
  rw [if_pos hk]
  rfl

section Mzero

variable {x : OpSrc} (h : MxRoom s (.mzero x) c)
include h

theorem mzero_adds (hz : bitsOf (c.reg x.a.toNat (c.low x.m)).toNat 18 14 = 0)
    (hin : bitsOf (c.reg x.a.toNat (c.low x.m)).toNat 0 9 + (bitsOf (c.reg x.a.toNat (c.low x.m)).toNat 9 9 + 1) ≤ 512) :
    Adds s c (.mzero x) .zero [c.reg x.a.toNat (c.low x.m)] id := by
  refine h.adds rfl (m := x.m) ?_
  dsimp only
  rw [if_neg (by simp [hz]), if_neg (by omega)]

theorem mzero_illegal (hz : bitsOf (c.reg x.a.toNat (c.low x.m)).toNat 18 14 ≠ 0) :
    Raises s (.mzero x) c 0x20 fun _ e => e = c.reg x.a.toNat (c.low x.m) := by
  refine h.illegal rfl (eaddr := 0) ?_
  dsimp only
  rw [if_pos hz]

theorem mzero_shape (hz : bitsOf (c.reg x.a.toNat (c.low x.m)).toNat 18 14 = 0)
    (hin : 512 < bitsOf (c.reg x.a.toNat (c.low x.m)).toNat 0 9 + (bitsOf (c.reg x.a.toNat (c.low x.m)).toNat 9 9 + 1)) :
    Raises s (.mzero x) c 8 fun _ _ => True := by
  refine raises_of_exec h.issues (eaux := 0) (eaddr := 0) ((h.owned_eq h.owner _).trans ?_) (by decide) trivial
  dsimp only
  rw [if_neg (by simp [hz]), if_pos (by omega)]

end Mzero

/-- MLDS: the tile, its scale and its block scales, and the codebook, unlocked and inside the reservation. -/
theorem mlds_adds {x : OpBarS} (h : MxRoom s (.mlds x) c) {r : Resv} {w : Word} (hw : w = c.reg x.r.toNat (c.low x.m))
    (hr : (c.mx s).resv? x.k.toNat = some r) (hrel : (c.mx s).releasing x.k.toNat = false)
    (hz : bitsOf w.toNat 26 6 = 0) (hweights : r.weights = true) 
    (hlock : ∀ p ∈ [(128 * bitsOf w.toNat 0 16, weightBytes (fmtAt r.fmt)), (r.tileScale (bitsOf w.toNat 16 10), 4),
      (r.blockScales (bitsOf w.toNat 16 10 + 1) (bitsOf w.toNat 16 10), 4 * (128 * blocksIn (fmtAt r.fmt) r.blk 128))],
      c.opLocked s (r.lo + p.1) p.2 = false) (hbook : ∀ p ∈ r.bookRange, c.opLocked s p.1 p.2 = false)
    (htile : 128 * bitsOf w.toNat 0 16 + weightBytes (fmtAt r.fmt) ≤ r.bytes)
    (hscales : r.weightScaleEnd (bitsOf w.toNat 16 10 + 1) ≤ r.bytes) :
    Adds s c (.mlds x) .lds [x.k.setWidth 32, w] id := by
  have hfree := findBy_eq_none (f := fun p : Nat × Nat => c.opLocked s p.1 p.2) (List.forall_mem_append.2
    ⟨List.forall_mem_map (f := fun p : Nat × Nat => (r.lo + p.1, p.2)).2 hlock, hbook⟩)
  simp only [List.map_cons, List.map_nil] at hfree
  subst hw
  refine h.adds rfl (m := x.m) ?_
  dsimp only
  rw [if_neg (by simp [hz]), Matrix.named_eq hrel, hr]
  dsimp only
  rw [hweights, Bool.not_true, if_neg Bool.false_ne_true, hfree]
  dsimp only
  rw [if_neg (by omega), BitVec.ofNat_toNat, BitVec.setWidth_eq]

/-- MSTAT (R121). -/
theorem mstat_done {x : OpStat} (h : MxReady s (.mstat x) c) (ho : (c.mx s).owner = some c.grp.gid) :
    ∃ t, exec (.mstat x) s = .next t ∧
      Done (if x.c then s.updMx c.grp.core (fun z => { z with stat := z.stat &&& ~~~0x1F }) else s) t c x.m false
        [(x.d.toNat, fun _ => (c.mx s).stat ||| BitVec.ofNat 32 ((c.mx s).queue.length * 2 ^ 19))] flag0 := by
  refine ⟨_, h.owned_eq ho _, finish_done_of_warp h.issues.who ?_ x.m false _ flag0 c.quiet_flag0⟩
  split
  · exact issuer_warp h.issues.who
  · exact issuer_warp h.issues.who

end Sys2Proof.Machine

section

open Sys2Proof Sys2Proof.Machine

/-- Settles O42: each instruction passes the checks of its kind (`MxReady`, `MxRoom`), and then enters the queue or answers. -/
theorem matrixCommandsQueue : Obligations.MatrixCommandsQueue := by
  unfold Obligations.MatrixCommandsQueue
  intro s c y core ready mine adds queues room illegal
  have hroom : ∀ {i : Instr}, Issues s i c → mine i.modifier → room → MxRoom s i c :=
    fun hi ⟨⟨hact, hcheck⟩, howner⟩ hlen => ⟨⟨hi, hact, hcheck⟩, howner, hlen⟩
  refine ⟨?_, ?_, ?_, ?_, ?_, ?_, ?_⟩
  · intro x hi ⟨hact, hcheck⟩ v r
    have h : MxReady s (.mresv x) c := ⟨hi, hact, hcheck⟩
    refine ⟨?_, fun e hz hz' he => h.mresv_fails rfl hz hz' he, fun hz => h.mresv_illegal rfl hz⟩
    intro hz hz' hfmt hlen hend hscale hbook howner hfree hcount
    obtain ⟨t, ht, hdone⟩ := h.mresv_succeeds rfl hz hz'
      (Matrix.resvFailure_eq_none hfmt hlen hend hscale hbook howner hfree hcount)
    obtain ⟨hlt, hnew, hleast⟩ := Matrix.freeId_spec hcount
    exact ⟨t, y.freeId, ht, hlt, hnew, hleast, hdone⟩
  · intro x hm hr
    exact ⟨fun hi hid hrel => mrels_adds (hroom hi hm hr) hid hrel, fun hi hid => mrels_illegal (hroom hi hm hr) hid,
      fun hi hk => mchn_adds (hroom hi hm hr) hk, fun hi hk => mchn_illegal (hroom hi hm hr) hk⟩
  · intro x hm hr w
    exact ⟨fun hi => (hroom hi hm hr).adds rfl (m := x.m) rfl, fun hi hz hin => mzero_adds (hroom hi hm hr) hz hin,
      fun hi hz => mzero_illegal (hroom hi hm hr) hz, fun hi hz hin => mzero_shape (hroom hi hm hr) hz hin⟩
  · intro x hi hm hr
    exact (hroom hi hm hr).adds rfl (m := x.m) rfl
  · intro x r hi hm hlen hr hrel w f o j nb hz hweights hlock hbook htile hscales
    exact mlds_adds (hroom hi hm hlen) rfl hr hrel hz hweights hlock hbook htile hscales
  · intro x hi ⟨⟨hact, hcheck⟩, howner⟩
    exact mstat_done ⟨hi, hact, hcheck⟩ howner
  · intro x hi ⟨hact, hcheck⟩ howner
    have h : MxReady s (.mswp x) c := ⟨hi, hact, hcheck⟩
    exact raises_illegal hi (eaddr := 0) (h.unowned_eq howner _)

end

/-! ## The issue of loops and drains (R117, R118, R120, R251, R252) -/

namespace Sys2Proof.Machine

/-! ### Loops outside a chain -/

section Loop

variable {s : State} {c : Ctx} {d : LoopDesc} {table : List (Nat × Nat)} {w a : Resv}

section Alone

variable (h : (c.mx s).chainAhead ≤ 1)
include h

theorem Ctx.chainMate_alone (m : Nat) : c.chainMate s m = none := by
  unfold Ctx.chainMate
  dsimp only
  rw [if_pos (.inl h)]

theorem Ctx.chainFmts_alone : c.chainFmts s = [] := by
  unfold Ctx.chainFmts
  simp only [Ctx.chainMate_alone h]
  split
  · rw [List.drop_eq_nil_of_le (by simpa using h)]
    rfl
  · rfl

theorem Ctx.follows_alone : c.follows s = false := by
  unfold Ctx.follows
  by_cases hm : 0 < c.grp.member
  · rw [decide_eq_false (p := c.grp.member < _) (by omega), Bool.and_false]
  · rw [decide_eq_false hm, Bool.false_and]

theorem Ctx.leadScales_alone : c.leadScales s w = none := by
  unfold Ctx.leadScales
  rw [Ctx.follows_alone h]
  rfl

theorem Ctx.chainDiffers_alone (n : Nat) (rec : List Nat) : c.chainDiffers s n rec = false := by
  unfold Ctx.chainDiffers
  simp only [Ctx.chainMate_alone h]
  simp

end Alone

theorem Ctx.opLocked_unlocked (h : ∀ l ∈ (s.core c.grp.core).locks, l.space ≠ 3) (lo n : Nat) : c.opLocked s lo n = false := by
  have hany : (s.core c.grp.core).locked 3 c.grp.asid lo n = false := by
    rw [Core.locked, List.any_eq_false]
    intro l hl
    simp [Lock.hit, h l hl]
  rw [Ctx.opLocked, hany, Bool.and_false]

/-- The conditions of R251 are those under which the checks of a loop pass. -/
theorem LoopOk.checkLoop (h : LoopOk s c d table w a) : checkLoop s c d table false none none = none := by
  have hlock : ∀ l : List (Nat × Nat), findBy (fun p : Nat × Nat => c.opLocked s p.1 p.2) l = none := fun l =>
    findBy_eq_none fun p _ => Ctx.opLocked_unlocked h.unlocked _ _
  have hin : ∀ (r : Resv) (l : List (Nat × Nat)), (∀ p ∈ l, p.1 + p.2 ≤ r.bytes) →
      (l.any fun p => decide (r.bytes < p.1 + p.2)) = false := fun r l hl => by
    rw [List.any_eq_false]
    intro p hp
    simpa using hl p hp
  unfold Machine.checkLoop
  dsimp only
  rw [h.weight, h.active]
  dsimp only
  rw [Ctx.chainFmts_alone h.alone, List.map_nil, List.map_nil, ite_self, if_neg]
  · rw [if_neg Bool.false_ne_true, Ctx.leadScales_alone h.alone, hlock]
    rw [Ctx.follows_alone h.alone, if_neg Bool.false_ne_true, List.all_nil, Bool.and_true, hin w _ h.weightIn, hin a _ h.activeIn,
      Ctx.chainDiffers_alone h.alone, decide_eq_false (Nat.not_lt.2 h.rows)]
    rfl
  · simp [h.zero, h.weights, h.activations, h.pairing]

end Loop

variable {s : State} {c : Ctx}

/-- An instruction queues a loop with its table, counts it as a step of its chain, and completes. -/
def AddsLoop (s : State) (c : Ctx) (i : Instr) (k : MKind) (ws : List Word) (d : LoopDesc) (tb : List (Nat × Nat)) : Prop :=
  ∃ t q, exec i s = .next t ∧
    Done { s.updMx c.grp.core (fun z => { z with queue := z.queue ++ [q], steps := z.steps ++ [d.record tb] }) with uid := s.uid + 1 }
      t c none false [] flag0 ∧
    q.kind = k ∧ q.args = ws ∧ q.table = tb ∧ q.gid = c.grp.gid ∧ q.id = s.uid

theorem MxRoom.addsLoop {i : Instr} (h : MxRoom s i c) {k : MKind} {ws : List Word} {d : LoopDesc} {tb : List (Nat × Nat)}
    {m : Option Modifier} {next : Ctx → Host.Outcome State Fault Refusal} (hexec : exec i s = matrixOwned s i next)
    (hnext : next c = .next (queueLoop s c k ws d tb m)) : AddsLoop s c i k ws d tb :=
  ⟨_, _, hexec.trans ((h.owned_eq h.owner next).trans hnext),
    queueCmd_done h.issues.who h.room _ fun y => { y with steps := y.steps ++ [d.record tb] }, rfl, rfl, rfl, rfl, rfl⟩

theorem mloop_adds {x : OpSrc} (h : MxRoom s (.mloop x) c) {w a : Resv}
    (hok : LoopOk s c (loopDesc (c.words x.a.toNat 4 (c.low x.m))) [] w a) :
    AddsLoop s c (.mloop x) .loop (c.words x.a.toNat 4 (c.low x.m)) (loopDesc (c.words x.a.toNat 4 (c.low x.m))) [] := by
  refine h.addsLoop rfl (m := x.m) ?_
  dsimp only
  rw [hok.checkLoop]

/-- A loop whose weights are not there, or whose descriptor has a bit set that must be zero (R251). -/
theorem mloop_illegal {x : OpSrc} (h : MxRoom s (.mloop x) c)
    (hbad : (c.mx s).named (loopDesc (c.words x.a.toNat 4 (c.low x.m))).wid = none ∨
      (loopDesc (c.words x.a.toNat 4 (c.low x.m))).mbz ≠ 0) : Raises s (.mloop x) c 0x20 fun _ e => e = c.cur.iword := by
  refine h.illegal rfl (eaddr := 0) ?_
  have hcheck : checkLoop s c (loopDesc (c.words x.a.toNat 4 (c.low x.m))) [] false none none = some (illegal s c) := by
    unfold checkLoop
    dsimp only
    split
    · rfl
    · rfl
    · next w a hw ha =>
      have hz := hbad.resolve_left (by rw [hw]; exact Option.some_ne_none w)
      rw [if_pos (.inl hz)]
  dsimp only
  rw [hcheck]
  rfl

/-- MGRP: the table lies in scratch, unlocked, and its entries have no bit set that must be zero. -/
theorem mgrp_adds {x : OpMgrp} (h : MxRoom s (.mgrp x) c) {w a : Resv} {v o n : Nat} (hv : v = (c.reg x.b.toNat (c.low x.m)).toNat)
    (ho : o = v % 2 ^ 20) (hn : n = v / 2 ^ 20 % 16 + 1) {entry : Nat → Nat}
    (hentry : ∀ i, entry i = s.locNat (.sram c.grp.gid (o + 4 * i)) 4) (hz : v / 2 ^ 24 = 0) (halign : o % 4 = 0)
    (hin : o + 4 * n ≤ c.grp.sBytes) (hmbz : ∀ i < n, entry i < 2 ^ 26)
    (hlock : (s.core c.grp.core).locked 0 c.grp.asid o (4 * n) = false) {tb : List (Nat × Nat)}
    (htb : tb = (List.range n).map fun i => (entry i / 2 ^ 16 % 2 ^ 10, entry i % 2 ^ 16))
    (hok : LoopOk s c (loopDesc (c.words x.a.toNat 4 (c.low x.m))) tb w a) :
    AddsLoop s c (.mgrp x) .grp (c.words x.a.toNat 4 (c.low x.m)) (loopDesc (c.words x.a.toNat 4 (c.low x.m))) tb := by
  have ho' : bitsOf v 0 20 = o := by rw [bitsOf, pow_zero, Nat.div_one, ho]
  have hn' : bitsOf v 20 4 + 1 = n := hn.symm
  have hv' : bitsOf v 24 8 = 0 := by rw [bitsOf, hz]; rfl
  have htb' : (((List.range n).map fun i => s.locNat (.sram c.grp.gid (o + 4 * i)) 4).map fun w => (bitsOf w 16 10, bitsOf w 0 16))
      = tb := by
    rw [htb, List.map_map]
    refine List.map_congr_left fun i _ => ?_
    rw [Function.comp, ← hentry, bitsOf, bitsOf, pow_zero, Nat.div_one]
  have hill : (((List.range n).map fun i => s.locNat (.sram c.grp.gid (o + 4 * i)) 4).any fun w => decide (bitsOf w 26 6 ≠ 0))
      = false := by
    rw [List.any_eq_false]
    intro e he
    obtain ⟨i, hi, rfl⟩ := List.mem_map.1 he
    have := hmbz i (List.mem_range.1 hi)
    rw [← hentry, bitsOf, Nat.div_eq_of_lt this]
    decide
  refine h.addsLoop rfl (m := x.m) ?_
  dsimp only
  rw [← hv, hv', ho', hn', htb', hill, hlock, if_neg (by simp), if_neg (by simp [halign]), if_neg (Nat.not_lt.2 hin),
    if_neg Bool.false_ne_true, hok.checkLoop]

/-! ### Drains (R120, R252) -/

/-- The drain word is the first of the registers that MDRN reads. -/
theorem drainWord_first (a l : Nat) : (if a % 4 = 0 then c.words a 4 l else [c.reg a l]).getD 0 0 = c.reg a l := by
  split <;> rfl

/-- What both forms of MDRN ask of a drain word (R252). -/
structure DrainWord.Ok (d : DrainWord) : Prop where
  zero : d.mbz = 0
  mode : d.mode ≠ 3
  format : d.fmt ≤ 18 ∨ d.fmt = 24 ∨ d.fmt = 25
  rows : d.row + d.rows ≤ 512

theorem DrainWord.Ok.not_bad {d : DrainWord} (h : d.Ok) {wide : Bool}
    (hform : d.scratch = false ∧ d.rows = 1 ∨ d.scratch = true ∧ wide = true) : d.bad wide = false := by
  have hfmt : (decide (18 < d.fmt) && d.fmt != 24 && d.fmt != 25) = false := by
    rcases h.format with hle | heq | heq
    · rw [decide_eq_false (Nat.not_lt.2 hle), Bool.false_and, Bool.false_and]
    · rw [heq]; rfl
    · rw [heq]; rfl
  unfold DrainWord.bad
  rw [hfmt]
  rcases hform with ⟨hs, hrows⟩ | ⟨hs, hwide⟩
  · simp [h.zero, h.mode, hs, hrows]
  · simp [h.zero, h.mode, hs, hwide]

theorem OnlyWarp.flys_cores_uid {s t : State} {gid widx : Nat} {w : Warp} (h : OnlyWarp s t gid widx w) :
    t.flys = s.flys ∧ t.cores = s.cores ∧ t.uid = s.uid := by
  rw [← h.rest]
  exact ⟨rfl, rfl, rfl⟩

theorem State.core_pushMx (s : State) (core k : Nat) (q : MCmd) : (s.pushMx core q).core k =
    if core = k then { s.core core with mx := { (s.core core).mx with queue := (s.core core).mx.queue ++ [q] } } else s.core k :=
  s.core_updMx core k fun z => { z with queue := z.queue ++ [q] }

section Drain

variable {x : OpE2} (h : MxRoom s (.mdrn x) c) {d : DrainWord} (hd : d = drainWord (c.reg x.a.toNat (c.low x.m))) (hok : d.Ok)
include h hd hok

/-- The register form leaves its register pending, with the drain in the queue. -/
theorem mdrn_pends (hs : d.scratch = false) (hrows : d.rows = 1) (hdefer : c.deferring = true) (hfree : s.fly? (c.key s) = none) :
    ∃ t w f q, exec (.mdrn x) s = .next t ∧
      OnlyWarp { s with flys := t.flys, cores := t.cores, uid := t.uid } t c.cur.gid c.cur.widx w ∧
      Started c (c.key s) true (c.actMask x.m) [x.d.toNat] w ∧
      t.fly? (c.key s) = some f ∧ f.mask = c.actMask x.m ∧ f.ready = 0 ∧
      (t.core c.grp.core).mx = { c.mx s with queue := (c.mx s).queue ++ [q] } ∧ (∀ k, k ≠ c.grp.core → t.core k = s.core k) ∧
      q.kind = .drn ∧ q.fly = c.key s := by
  obtain ⟨-, hg, -, -⟩ := issuer_cases h.issues.who
  let fly := flyFor (c.actMask x.m) [x.d.toNat] none
  let q : MCmd := { c.mcmd (addFly s c fly) .drn (if x.a.toNat % 4 = 0 then c.words x.a.toNat 4 (c.low x.m)
    else [c.reg x.a.toNat (c.low x.m)]) x.m with fly := c.key s }
  let y := { c.mx s with queue := (c.mx s).queue ++ [q] }
  let u := (addFly s c fly).pushMx c.grp.core q
  have hexec : exec (.mdrn x) s = .next (finishPending u c (c.key s) true (c.actMask x.m) [x.d.toNat]) := by
    refine (h.owned_eq h.owner _).trans ?_
    dsimp only
    rw [drainWord_first, ← hd, hok.not_bad (.inl ⟨hs, hrows⟩), hs, hdefer, Ctx.mxFull_eq_false h.room]
    exact if_neg (Nat.not_lt.2 hok.rows)
  obtain ⟨w, ho, hstart⟩ := finishPending_started h.issues.who (u := u) hg (c.key s) true (c.actMask x.m) [x.d.toNat]
  obtain ⟨hflys, hcores, huid⟩ := ho.flys_cores_uid
  have hcore : ∀ k, u.core k = if c.grp.core = k then { s.core c.grp.core with mx := y } else s.core k := fun k =>
    (addFly s c fly).core_pushMx c.grp.core k q
  generalize finishPending u c (c.key s) true (c.actMask x.m) [x.d.toNat] = t at *
  refine ⟨t, w, { fly with id := c.key s, gid := c.cur.gid, widx := c.cur.widx, pc := c.cur.pc, whole := !c.streamed }, q, hexec,
    ?_, hstart, ?_, rfl, rfl, ?_, fun k hk => ?_, rfl, rfl⟩
  · rw [hflys, hcores, huid]
    exact ho
  · rw [State.fly?, hflys]
    exact addFly_fly fly hfree
  · rw [ho.core, hcore, if_pos rfl]
  · rw [ho.core, hcore, if_neg (Ne.symm hk)]

/-- The scratch form locks its target and queues the drain with its signal. -/
theorem mdrn_locks (hs : d.scratch = true) (ha : x.a.toNat % 4 = 0) {sig : Signal}
    (hsig : s.checkSignal c.grp (c.reg (x.a.toNat + 2) (c.low x.m)) (c.reg (x.a.toNat + 3) (c.low x.m)) = .ok sig) {o : Nat}
    (ho : o = (c.reg (x.a.toNat + 1) (c.low x.m)).toNat) (halign : o % 16 = 0) (hin : o + d.rows * d.rowLen ≤ c.grp.sBytes)
    (hroom : s.lockRoom c.grp.core 1 = true) :
    ∃ t q, exec (.mdrn x) s = .next t ∧ q.kind = .drn ∧ q.signal = some sig ∧ q.args = c.words x.a.toNat 4 (c.low x.m) ∧
      (t.core c.grp.core).mx = { c.mx s with queue := (c.mx s).queue ++ [q] } ∧
      (t.core c.grp.core).locks = (s.core c.grp.core).locks ++ [⟨q.id, 0, c.grp.asid, c.grp.gid, o, d.rows * d.rowLen⟩] ∧
      Done { s with cores := t.cores, uid := t.uid } t c x.m false [(x.d.toNat, fun _ => 0)] flag0 := by
  let q : MCmd := { c.mcmd s .drn (c.words x.a.toNat 4 (c.low x.m)) x.m with signal := some sig }
  let u := (s.pushMx c.grp.core q).lock c.grp.core (q.locks c.grp.asid)
  have hexec : exec (.mdrn x) s = .next (finishStatus u c x.m x.d.toNat 0) := by
    refine (h.owned_eq h.owner _).trans ?_
    dsimp only
    rw [drainWord_first, ← hd, hok.not_bad (.inr ⟨hs, decide_eq_true ha⟩), hs, Ctx.mxFull_eq_false h.room, hroom, if_pos ha,
      show ((c.words x.a.toNat 4 (c.low x.m)).getD 1 0).toNat = o from ho.symm,
      show (c.words x.a.toNat 4 (c.low x.m)).getD 2 0 = c.reg (x.a.toNat + 2) (c.low x.m) from rfl,
      show (c.words x.a.toNat 4 (c.low x.m)).getD 3 0 = c.reg (x.a.toNat + 3) (c.low x.m) from rfl, hsig,
      Bool.not_true, Bool.false_and, if_neg Bool.false_ne_true, if_neg Bool.false_ne_true, if_neg (Nat.not_lt.2 hok.rows),
      if_neg Bool.false_ne_true, if_neg (by simp [halign])]
    exact if_neg (Nat.not_lt.2 hin)
  obtain ⟨w, honly, hdone⟩ := finishStatus_done h.issues.who u rfl x.m x.d.toNat 0
  obtain ⟨-, hcores, huid⟩ := honly.flys_cores_uid
  have hlocks : q.locks c.grp.asid = [⟨q.id, 0, c.grp.asid, c.grp.gid, o, d.rows * d.rowLen⟩] := by
    rw [ho, hd]
    exact if_pos ⟨rfl, hd ▸ hs⟩
  have hcore : u.core c.grp.core = { s.core c.grp.core with
      mx := { c.mx s with queue := (c.mx s).queue ++ [q] }
      locks := (s.core c.grp.core).locks ++ [⟨q.id, 0, c.grp.asid, c.grp.gid, o, d.rows * d.rowLen⟩] } := by
    show (State.setCore _ _ _).core c.grp.core = _
    rw [State.core_setCore_self, hlocks, State.core_pushMx, if_pos rfl]
    rfl
  refine ⟨_, q, hexec, rfl, rfl, rfl, ?_, ?_, w, ?_, hdone⟩
  · rw [honly.core, hcore]
  · rw [honly.core, hcore]
  · rw [hcores, huid]
    exact honly

/-- A target of the scratch form that is not aligned is refused. -/
theorem mdrn_misaligned (hs : d.scratch = true) (ha : x.a.toNat % 4 = 0)
    (halign : (c.reg (x.a.toNat + 1) (c.low x.m)).toNat % 16 ≠ 0) :
    Completes s (.mdrn x) c x.m false [(x.d.toNat, fun _ => 2)] flag0 := by
  refine ⟨finishStatus s c x.m x.d.toNat 2, (h.owned_eq h.owner _).trans ?_,
    finishStatus_done h.issues.who s rfl x.m x.d.toNat 2⟩
  dsimp only
  rw [drainWord_first, ← hd, hok.not_bad (.inr ⟨hs, decide_eq_true ha⟩), hs, Bool.not_true, Bool.false_and,
    if_neg Bool.false_ne_true, if_neg Bool.false_ne_true, if_neg (Nat.not_lt.2 hok.rows), if_neg Bool.false_ne_true, if_pos ha]
  exact if_pos halign

end Drain

end Sys2Proof.Machine

section

open Sys2Proof Sys2Proof.Machine

/-- Settles O43: the conditions of R251 and R252 are those under which the checks of a loop and of a drain pass
(`LoopOk.checkLoop`, `DrainWord.Ok.not_bad`); the command then enters the queue. -/
theorem matrixLoopsAndDrains : Obligations.MatrixLoopsAndDrains := by
  unfold Obligations.MatrixLoopsAndDrains
  intro s c y core hcheck howner hlen queues
  have hroom : ∀ {i : Instr}, Issues s i c → c.act i.modifier ≠ [] → MxRoom s i c :=
    fun hi hact => ⟨⟨hi, hact, hcheck⟩, howner, hlen⟩
  refine ⟨?_, ?_, ?_, ?_⟩
  · intro x w a hi hact ws hok
    exact mloop_adds (hroom hi hact) hok
  · intro x w a hi hact ws v o n entry tb hz halign hin hmbz hlock hok
    exact mgrp_adds (hroom hi hact) rfl rfl rfl (fun _ => rfl) hz halign hin hmbz hlock rfl hok
  · intro x hi hact a l d rs hz hmode hfmt hrow
    have h : MxRoom s (.mdrn x) c := hroom hi hact
    have hok : d.Ok := ⟨hz, hmode, hfmt, hrow⟩
    refine ⟨fun hs hrows hdefer hfree => mdrn_pends h rfl hok hs hrows hdefer hfree, ?_,
      fun hs ha halign => mdrn_misaligned h rfl hok hs ha halign⟩
    intro sig hs ha hsig o halign hin hlocks
    exact mdrn_locks h rfl hok hs ha hsig rfl halign hin hlocks
  · rintro x d hi hact rfl hbad
    exact mloop_illegal (hroom hi hact) hbad

end
